-- ==== Sys2Proof/Word.lean ====
section
/-! DEFINITION. The word types of the part and their plainest arithmetic. -/

namespace Sys2Proof

/-- The 16 bits of payload of a register word (R7). -/
abbrev Word := BitVec 16

/-- One byte of the load buffer, of path memory or of a frame. -/
abbrev Byte := BitVec 8

/-- A value held in the register file: up to four words of payload (R10). -/
abbrev Val := BitVec 64

/-- A table of sparse data by key, in one canonical form: keys strictly rising, no entry equal to what an unlisted key reads as. -/
abbrev Sparse (V : Type) := List (Nat × V)

end Sys2Proof
end

