-- ==== Sys2Proof/Syntax.lean ====
section
/-! DEFINITION. The commands of the part: one constructor for each row of the operations table, with the operands
that the outside world supplies (which axis or unit, an accessor, a frame, an analogue reading). -/

namespace Sys2Proof


/-- What the switch-node comparator of a unit sees in one PWM period (R202): the node's crossings [u from the period start], and the natural
edge [u from the outgoing gate's off command] where one was seen. -/
structure NodeEdges where
  rise : Int
  fall : Int
  nat : Option Int
  deriving DecidableEq, Repr

/-- What the gate sense of a unit shows of one PWM period (R229): how long the interlock held the turn-on of the high and of the low side
[u]. -/
structure GateHold where
  high : Nat
  low : Nat
  deriving DecidableEq, Repr

/-- What a protection comparator sees of a switch that is on (R227, R234): the current [mA] or the drain-source voltage [mV], the
consecutive CORE clocks it has stood there, and the CORE clocks since the switch turned on. -/
structure Excess where
  level : Nat
  clocks : Nat
  age : Nat
  deriving DecidableEq, Repr

/-- What the overcurrent comparator of an internal leg sees (R227). -/
structure LegExcess where
  leg : Fin 40
  seen : Excess
  deriving DecidableEq, Repr

/-- What the drain-source comparator of a gate-driver channel sees (R234). -/
structure GateExcess where
  channel : Fin 8
  seen : Excess
  deriving DecidableEq, Repr

/-- A trip input that has stood at its asserted level for a number of consecutive CORE clocks (R236). -/
structure TripLevel where
  input : Fin 4
  clocks : Nat
  deriving DecidableEq, Repr

/-- What a modulator's integrator measures of one interval (R337-R339): the sum of the weighted bits [1/256 sample], the state of
the first integrator at its end [1/64 bit weight], the interval's length [u], its whole MOD samples; the same sums over the window
part; and whether the overload detector is active. -/
structure Interval where
  bits : Int
  s1 : Int
  p : Nat
  n : Nat
  wBits : Int
  wState : Int
  ovl : Bool
  deriving DecidableEq, Repr

/-- What identification measures on one winding (R405): the current step of step 1 [cu]; over the 64 ticks of step 3 the sums of
voltage [vlt], current and current magnitude [cu]; and over the eight pairs of step 4 the sums of the rises and falls [cu]. -/
structure IdWinding where
  di : Int
  sv : Int
  si : Int
  sa : Int
  dp : Int
  dm : Int
  deriving DecidableEq, Repr


/-- One item of a cyclic frame (R425): the object, its valid bit, and the words of its record. -/
structure CycItem where
  obj : Nat
  valid : Bool
  words : List (BitVec 16)
  deriving DecidableEq, Repr

/-- The commands, in the order of the operations table. -/
inductive Instr where
  /-- TICK_EDGE (R39): At each grid point the part runs the edge actions in order, then any bore patch, the past tick's state changes, due reactions and pending commands. -/
  | tickEdge
  /-- CYCLE_BOUNDARY (R441): At every M-th edge the pending cyclic values enter their entries and interpolators, entries without a value miss the cycle, and the publication is built. -/
  | cycleBoundary
  /-- TIME_TABLE_START (R116): An armed time table starts at its start boundary, PSTART or the next boundary under pnow. -/
  | timeTableStart (n : Fin 12)
  /-- TABLE_END (R116): A single-pass time table whose coordinate reaches L ends FOLLOW with a planned move to its last point. -/
  | tableEnd (n : Fin 12)
  /-- SYNC (R28): A Sync received on the slave port runs the servo update, or requests a step, and feeds the state machine of R27. -/
  | syncMsg (p : Fin 2) (theta : Int) (ts : Nat)
  /-- SERVO_LOCK (R27): After 8 consecutive Syncs within the lock threshold, the timebase enters LOCKED and takes RATEGOOD. -/
  | servoLock
  /-- OUTLIER_RETURN (R29): A fourth consecutive outlier Sync in LOCKED returns the timebase to ACQUIRE. -/
  | outlierReturn
  /-- SERVO_DIVERGE (R30): When integ stays at its limit for 16 Syncs, the part sets div, enters HOLDOVER and logs 0x0503 with cause 2. -/
  | servoDiverge
  /-- SYNC_RECEIPT_TIMEOUT (R27): Loss of Syncs or of the slave port moves the timebase to HOLDOVER with the good rate and logs 0x0503. -/
  | syncReceiptTimeout
  /-- ANNOUNCE (R25): A received Announce runs the BMCA, which sets port roles and may move the timebase between FREE, ACQUIRE, HOLDOVER and MASTER. -/
  | announceMsg (p : Fin 2) (gm : Nat) (r0 : Nat) (r1 : Nat)
  /-- PDELAY_EXCHANGE (R24): A completed peer-delay exchange updates the path delay and the asCapable state of the port. -/
  | pdelayExchange (p : Fin 2) (delay : Option Nat)
  /-- TIME_STEP (R32): A permitted step changes device time by the offset at the next tick edge and lengthens that tick. -/
  | timeStep
  /-- TIM_RATE_COMMIT (R33): A commit of TIM.RATE sets rate and integ while the servo is frozen or the timebase is in FREE or MASTER. -/
  | timRateCommit (acc : Fin 15) (w : BitVec 32)
  /-- TIM_ADJ_COMMIT (R33): A commit of TIM.ADJ requests a step, or a slew at half the rate limit. -/
  | timAdjCommit (acc : Fin 15) (w : BitVec 32)
  /-- SLEW_COMPLETE (R33): A slew from the servo or from TIM.ADJ ends, and the slewing flag clears. -/
  | slewComplete
  /-- PTPCFG_WRITE (R51): A write of both interval fields is judged as one value and takes effect at the next message of its kind. -/
  | ptpcfgWrite (acc : Fin 15) (w : BitVec 32)
  /-- OVBCLR (R46): A write clears the selected overblow counters, or OVBTOT and LOADMAX. -/
  | ovbclr (acc : Fin 15) (w : BitVec 32)
  /-- OPEN (R85): OPEN clears the load buffer and its error information and sets buf to OPEN. -/
  | openBuf (acc : Fin 15) (arg : Byte)
  /-- FEED (R75): A write to BOR.FEED appends two bytes to the load buffer. -/
  | feed (acc : Fin 15) (mask : BitVec 16) (data : BitVec 16)
  /-- VERIFY (R85): VERIFY starts checks 1 to 14 on the buffer and sets buf to VERIFYING. -/
  | verifyImage (acc : Fin 15) (arg : Byte)
  /-- VERIFY_COMPLETE (R72): Verification ends with the buffer VERIFIED or PENDING, or OPEN with the first failed check reported and logged. -/
  | verifyComplete
  /-- APPLY (R85): APPLY verifies the buffer if needed, runs check 15 and makes the image pending. -/
  | applyImage (acc : Fin 15) (arg : Byte)
  /-- ABORT (R85): ABORT discards the buffer and any pending image and sets buf to EMPTY. -/
  | abortLoad (acc : Fin 15) (arg : Byte)
  /-- PROGRAM_KEY (R59): PROGRAM_KEY programs an OTP key slot with the hash held in the load buffer. -/
  | programKey (acc : Fin 15) (arg : Byte)
  /-- REVOKE_KEY (R59): REVOKE_KEY sets the revoke bit of a key slot. -/
  | revokeKey (acc : Fin 15) (arg : Byte)
  /-- FULL_IMAGE_APPLY (R76): A verified full image applies at the first edge that the axes allow, resetting axes, registers and tables as stated. -/
  | fullImageApply
  /-- PATCH_APPLY (R80): A verified patch applies in clock 0 of its edge, or is refused, changing only the affected axes. -/
  | patchApply
  /-- BOOT_LOAD (R74): After release the part reads the primary image from boot flash, and the secondary image if the primary fails, and checks it. -/
  | bootLoad (bytes : List Byte) (alt : Bool)
  /-- ENERGIZE (R141): ENERGIZE takes an axis from OFF or MUTE to HOLD and ramps the current level from 0 to IRUN. -/
  | energize (n : Fin 12) (acc : Fin 15) (arg : Byte)
  /-- MUTE (R95): MUTE puts the axis in MUTE and zeroes vel, acc and jrk. -/
  | muteAxis (n : Fin 12) (acc : Fin 15) (arg : Byte)
  /-- MOVE_ABS (R98): MOVE_ABS plans a move to an absolute target, or on a modulo axis in the chosen direction. -/
  | moveAbs (n : Fin 12) (acc : Fin 15) (arg : Byte)
  /-- MOVE_REL (R92): MOVE_REL plans a move by a signed distance from the present target or pos. -/
  | moveRel (n : Fin 12) (acc : Fin 15) (arg : Byte)
  /-- JOG_VEL (R101): JOG_VEL ramps the axis to the jog velocity JOGV. -/
  | jogVel (n : Fin 12) (acc : Fin 15) (arg : Byte)
  /-- FOLLOW_CYCLIC (R108): FOLLOW_CYCLIC makes the axis follow the cyclic target of a subscription entry. -/
  | followCyclic (n : Fin 12) (acc : Fin 15) (arg : Byte)
  /-- FOLLOW_STEP (R112): FOLLOW_STEP makes the axis follow counted STEP/DIR input pulses. -/
  | followStep (n : Fin 12) (acc : Fin 15) (arg : Byte)
  /-- GEAR (R114): GEAR engages a ratio gear or a table against a local axis, a subscription or time. -/
  | gear (n : Fin 12) (acc : Fin 15) (arg : Byte)
  /-- TABLE_CHECK_DONE (R118): The check of a table named by GEAR with argument 1 completes, and the command applies at the next edge. -/
  | tableCheckDone (n : Fin 12)
  /-- STOP (R102): STOP starts the class stop of the axis. -/
  | stopAxis (n : Fin 12) (acc : Fin 15) (arg : Byte)
  /-- RESUME (R105): RESUME replans from PAUSED to pos plus REM. -/
  | resumeMove (n : Fin 12) (acc : Fin 15) (arg : Byte)
  /-- ABANDON (R105): ABANDON drops the kept remaining distance, so the axis rests or is already in HOLD. -/
  | abandonRem (n : Fin 12) (acc : Fin 15) (arg : Byte)
  /-- HOME (R273): HOME starts homing method 0 to 7. -/
  | homeAxis (n : Fin 12) (acc : Fin 15) (arg : Byte)
  /-- YIELD_ENTER (R395): YIELD_ENTER takes a holding axis into YIELD with its model velocity at 0. -/
  | yieldEnter (n : Fin 12) (acc : Fin 15) (arg : Byte)
  /-- YIELD_EXIT (R399): YIELD_EXIT starts the exit ramp of yield mode. -/
  | yieldExit (n : Fin 12) (acc : Fin 15) (arg : Byte)
  /-- IDENTIFY (R405): IDENTIFY starts winding identification of a power axis. -/
  | identifyAxis (n : Fin 12) (acc : Fin 15) (arg : Byte)
  /-- CLEAR_FAULT (R95): CLEAR_FAULT takes an axis from FAULT to MUTE and clears its trip latches once no cause stands. -/
  | clearFault (n : Fin 12) (acc : Fin 15) (arg : Byte)
  /-- REPLAN (R101): A limit, soft-limit or ratio change committed in flight takes effect at the next edge with a single replan. -/
  | replan (n : Fin 12)
  /-- SEGMENT_BOUNDARY (R87): At the end of a planned segment the planner changes jrk and acc for the next segment. -/
  | segmentBoundary (n : Fin 12)
  /-- LANDING (R100): At the end of the last segment the engine sets pos to the target, zeroes the motion state and sets at_target. -/
  | landing (n : Fin 12)
  /-- REST (R603): A ramp that ends at rest brings vel exactly to 0, and the axis enters HOLD, PAUSED or FAULT as R96 states. -/
  | restReached (n : Fin 12)
  /-- SOFT_LIMIT_REACHED (R107): When pos first passes a soft limit, the class stop begins in that clock and 0x0103 is logged where required. -/
  | softLimitReached (n : Fin 12)
  /-- SETPOS_COMMIT (R125): A commit of SETPOS sets pos, clears REM and at_target and recomputes MPOS. -/
  | setposCommit (n : Fin 12) (acc : Fin 15) (w : BitVec 32)
  /-- FOLLOW_TRACK (R110): At clock 1 of each tick in FOLLOW, the tracker sets the velocity toward the per-tick target and computes ferr. -/
  | followTrack (n : Fin 12)
  /-- STEP_INPUT_EDGE (R112): A qualified active STEP input edge counts one step in the direction of DIR. -/
  | stepInputEdge (n : Fin 12) (dir : Bool)
  /-- STEP_PULSE (R113): A pulse-out axis emits a STEP pulse when pos crosses a multiple of STEPSZ, or from its backlog at a spacing of 2 × PW. -/
  | stepPulse (n : Fin 12)
  /-- CURRENT_LOOP (R128): Task 0 of a power axis computes the winding voltages from the tick averages and stages the duties. -/
  | currentLoop (n : Fin 12)
  /-- OPEN_WINDING (R249): A winding that meets the open criterion for OWN consecutive ticks logs 0x0105 with its reaction, or counts as an unplug when both windings meet it. -/
  | openWinding (n : Fin 12)
  /-- SHARING_CRITERION (R250): Partner modulators of a paralleled winding that differ beyond OWSHARE for OWN ticks log 0x0105 with detail 2 or 3. -/
  | sharingCriterion (n : Fin 12)
  /-- AXIS_COMMIT (R43): An axis commits its results for the tick once its fixed work and its requested reserve items are complete. -/
  | axisCommit (n : Fin 12)
  /-- HOLD_REDUCTION (R139): When the rest timer reaches HOLDDLY, the current level ramps from IRUN to IHOLD over HOLDRAMP ticks. -/
  | holdReduction (n : Fin 12)
  /-- TRACKER_PROBE (R146): After TRKPROBE rest ticks, the tracker requests a four-tick d-axis probe and makes one L update. -/
  | trackerProbe (n : Fin 12)
  /-- TRACKER_DIVERGE (R148): A tracker estimate held at a clamp for 4,096 updates is reset to nominal, learning stops and 0x0108 is logged. -/
  | trackerDiverge (n : Fin 12)
  /-- DETENT_DIVERGE (R151): A coefficient held at ±DETLIM for 4,096 updates resets the compensator, stops learning and logs 0x0108. -/
  | detentDiverge (n : Fin 12)
  /-- OBSERVER (R164): Task 1 updates the back-EMF estimate, the angle and the speed of the observer, and evaluates any injection burst. -/
  | observer (n : Fin 12)
  /-- OBSERVER_VALID (R166): After OBSN consecutive edges that meet the validity conditions, the observer becomes valid. -/
  | observerValid (n : Fin 12)
  /-- OBSERVER_LOCK_LOST (R166): An angle error above 45° at 4 consecutive edges sets lock_lost and ends validity. -/
  | observerLockLost (n : Fin 12)
  /-- OBSERVER_REINIT (R167): The reserve item that re-seeds the observer completes and sets reinit. -/
  | observerReinit (n : Fin 12)
  /-- SENSOR_ALIGN (R170): HOLDRAMP + 64 ticks after ENERGIZE, automatic alignment sets SOFS and aligned. -/
  | sensorAlign (n : Fin 12)
  /-- SENSOR_RECOVERY (R173): A sensor that has been valid for SRECOV edges and agrees with the present source is selected again. -/
  | sensorRecovery (n : Fin 12)
  /-- INJECTION_BURST (R177): Every INJPER ticks, a six-tick burst of test voltages starts on a standstill axis. -/
  | injectionBurst (n : Fin 12)
  /-- STALL_MONITOR (R180): Task 2 evaluates the stall criteria, the unobservable condition and the stall-baseline update. -/
  | stallMonitor (n : Fin 12)
  /-- STALL (R181): A criterion that holds at STLN consecutive evaluations raises a stall, logs 0x0101 and applies its reaction. -/
  | stallRaised (n : Fin 12)
  /-- SBL_DIVERGE (R185): A baseline bin held at a clamp for 4,096 updates resets all bins, stops learning and logs 0x0108. -/
  | sblDiverge (n : Fin 12)
  /-- YIELD_MODEL (R396): Task 3 computes the admittance velocity from the force or load, exits yield on a forced cause and ends the exit in HOLD. -/
  | yieldModel (n : Fin 12)
  /-- DEMODULATION (R300): Task 4 fits the selected window of a sensor port and yields the angle, amplitude and quadrature. -/
  | demodulation (p : Fin 8)
  /-- PWM_PERIOD (R197): Each PWM unit emits its edges for the period after compensation, minimum-pulse test and carry. -/
  | pwmPeriod (u : Fin 48) (own : NodeEdges) (mate : NodeEdges) (held : GateHold × GateHold)
  /-- BOOTSTRAP_REFRESH (R208): After REFN periods at full duty, a GD unit begins the next period with a refresh pulse. -/
  | bootstrapRefresh (u : Fin 48)
  /-- DT_DIVERGE (R204): A dead-time value held at its bound for 4,096 updates resets to DTNOM, stops learning and logs 0x0108. -/
  | dtDiverge (u : Fin 48)
  /-- DLL_UPDATE (R211): At each tick edge, or every 256 clocks without ticks, the delay-line lock adjusts its code and lock flag. -/
  | dllUpdate (u : Fin 48) (ph : Int)
  /-- DLL_DIVERGE (R212): A code held at 0 or 1023 for 4,096 updates is set to 512, frozen and logged with 0x0108. -/
  | dllDiverge (u : Fin 48)
  /-- DEBUG_HALT (R215): A debug halt stops the sequencer and the axis engines and puts the switching units in their mute form. -/
  | debugHalt
  /-- DEBUG_RESUME (R215): The end of a halt puts every power axis that was switching into MUTE at the first edge after it. -/
  | debugResume
  /-- STROBE_LOSS (R216): A power die that loses the CORE strobe for 200 ns holds the latched mute forms, and the controller resets. -/
  | strobeLoss
  /-- TRIP_CLEAR (R218): A write of PSTAT.trip = 1 clears the trip latch, or is refused with LOCKED while a source is active. -/
  | tripClear (u : Fin 48) (acc : Fin 15)
  /-- LEG_OVERCURRENT (R227): A qualified overcurrent after blanking sets the unit's trip latch with source oc and logs 0x0201. -/
  | legOvercurrent (x : LegExcess)
  /-- HARD_LIMIT (R228): Switch current above the hard limit sets the trip latch without qualification. -/
  | hardLimit (u : Fin 40) (on : Bool)
  /-- SHOOT_THROUGH_GUARD (R230): A stuck gate or both gates on sets the trip latch with source guard and logs 0x0205. -/
  | shootThroughGuard (u : Fin 48) (why : Fin 3)
  /-- VDS_TRIP (R234): A qualified low-side VDS excess on a GD channel sets the trip latch with source vds. -/
  | vdsTrip (x : GateExcess)
  /-- BOOTSTRAP_UNDERVOLTAGE (R233): Bootstrap voltage below BUVTHR sets the GD trip latch and logs 0x0204. -/
  | bootstrapUndervoltage (g : Fin 8) (mV : Nat)
  /-- CHARGE_PUMP_UNDERVOLTAGE (R225): A fall of cp_ok while armed latches every internal unit and logs 0x0204. -/
  | chargePumpUndervoltage
  /-- CHARGE_PUMP_READY (R224): The charge-pump rail rises to 8 V above VM and cp_ok rises, which arms undervoltage detection. -/
  | chargePumpReady
  /-- TRIP_INPUT (R236): An enabled TRIP input asserted through its filter latches its mapped units and logs 0x0203. -/
  | tripInput (x : TripLevel)
  /-- GROUP_OVERTEMPERATURE (R245): A rise of the thermal window through OTTRIP latches the four legs of the group and logs 0x0202. -/
  | groupOvertemperature (g : Fin 10)
  /-- TORQUE_OFF (R238): TOFF0 or TOFF1 asserting forces every gate off in hardware. -/
  | torqueOff (i : Fin 2)
  /-- TORQUE_OFF_RELEASE (R241): Release of torque off reconnects the gate supplies, and the stage becomes ready again once cp_ok and gd_rdy hold. -/
  | torqueOffRelease (i : Fin 2)
  /-- TOFF_DISCREPANCY (R240): TOFF inputs that differ for longer than TOFFDISC set disc and log 0x0203. -/
  | toffDiscrepancy
  /-- GOVERNOR_STEP (R247): Every 64 ticks the governor forms the power estimates and adjusts kappa and the axis current limits. -/
  | governorStep
  /-- INPUT_RESOLVE (R264): An unresolved input that stays in one band for 10 µs resolves to that level for good. -/
  | inputResolve (i : Fin 30) (high : Bool)
  /-- RESOLVE_INTERVAL_END (R266): At the end of a resolve interval, each input still unresolved logs 0x0902. -/
  | resolveIntervalEnd (gp : Bool)
  /-- RAW_EDGE (R268): A raw edge of a limit or home pin latches pos and counts in the pin's chatter window. -/
  | rawEdge (p : Fin 24) (high : Bool)
  /-- CHATTER_WINDOW_CLOSE (R269): A chatter window closes after CHATWIN ticks and logs 0x0901 if the edge count exceeds the limit. -/
  | chatterWindowClose (p : Fin 24)
  /-- ENABLING_DISCREPANCY (R280): Contacts that differ for longer than ENDISC move the enabling state to DISCREPANCY and log 0x0904. -/
  | enablingDiscrepancy
  /-- HOMING_PHASE_START (R273): At the first edge at or after the rest of a phase, the next homing phase begins. -/
  | homingPhaseStart (n : Fin 12)
  /-- HOMING_DISTANCE_EXCEEDED (R276): A phase that travels beyond HMAXD fails the method with result 4 and logs 0x0109. -/
  | homingDistanceExceeded (n : Fin 12)
  /-- HOMING_COMPLETE (R277): At completion the part relabels pos by whole electrical cycles, records HCAPT and HRES, and enters HOLD. -/
  | homingComplete (n : Fin 12)
  /-- EXCITATION_START (R290): An excitation driver starts from phase 0 and ramps its amplitude. -/
  | excitationStart (d : Fin 4)
  /-- EXCITATION_SETTLED (R290): Sixteen periods after start, the driver captures IREF and IPH and sets settled. -/
  | excitationSettled (d : Fin 4) (iref : Nat) (iph : Nat)
  /-- EXCITATION_OPEN (R293): Eight gated samples of low current mark the driver open, which spoils its ports. -/
  | excitationOpen (d : Fin 4)
  /-- EXCITATION_OPEN_CLEAR (R293): Open clears after four clean periods with enough current amplitude. -/
  | excitationOpenClear (d : Fin 4) (iamp : Nat)
  /-- EXCITATION_SHORT (R293): A sustained current limit or low voltage switches the driver off and logs 0x0402. -/
  | excitationShort (d : Fin 4) (low : Bool)
  /-- SHORT_CLEAR (R293): A write of ESTAT.short = 1 clears the short latch and restarts the driver. -/
  | shortClear (d : Fin 4) (acc : Fin 15)
  /-- SLOT_BOUNDARY (R297): At each slot boundary, each port of a settled driver runs the amplitude test on its last window. -/
  | slotBoundary (p : Fin 8) (amp : Nat) (mSin : Int) (mCos : Int) (cSin : Bool) (cCos : Bool)
  /-- PORT_RECOVERY (R303): After 8 passing slot tests or the clearing of an open, the port stops spoiling. -/
  | portRecovery (p : Fin 8)
  /-- AUTO_RESET (R325): After RSTQT quiet ticks, a force channel with arst set resets itself. -/
  | autoReset (m : Fin 8)
  /-- TOUCH (R327): TN consecutive samples above TTHR set a touch, log 0x0B01 and bring the axis reaction and touch action. -/
  | touchSet (m : Fin 8)
  /-- TOUCH_RELEASE (R326): TN consecutive samples below TREL release the standing touch. -/
  | touchRelease (m : Fin 8)
  /-- RESET (R323): The force command RESET closes the feedback switches and zeroes Q and OFS. -/
  | forceReset (m : Fin 8) (acc : Fin 15) (arg : Byte)
  /-- RANGE (R333): The force command RANGE steps the channel to the named range at the edge. -/
  | forceRange (m : Fin 8) (acc : Fin 15) (arg : Byte)
  /-- CLOSE_INTERVAL (R338): At the end of each integration interval the integrator computes and publishes the period average and the window figure. -/
  | closeInterval (i : Fin 24) (iv : Interval)
  /-- MODULATOR_FAIL (R342): A stuck, state or clock check failure marks the average invalid, logs 0x0302 and restarts the modulator, which becomes dead after four failures. -/
  | modulatorFail (i : Fin 24) (why : Fin 3)
  /-- SAR_CONVERSION (R345): A converter converts the entry of its slot, and a reference conversion is checked and delivers the samples it holds. -/
  | sarConversion (c : Fin 2) (x : Option Int)
  /-- URGENT_CONVERSION (R352): A queued urgent request abandons the running conversion, converts its input and resumes the sequence. -/
  | urgentConversion (c : Fin 2) (x : Int)
  /-- URGENT (R353): The host command URGENT queues an urgent conversion of an input. -/
  | urgentCommand (c : Fin 2) (acc : Fin 15) (arg : Byte)
  /-- RECHECK (R361): RECHECK starts self-calibration and reference conversions on a failed or offline converter. -/
  | recheckAdc (c : Fin 2) (acc : Fin 15) (arg : Byte)
  /-- RECHECK_COMPLETE (R361): The recheck ends, and the converter rejoins at the next edge or stays out with LOCKED. -/
  | recheckComplete (c : Fin 2) (ok : Bool)
  /-- OFFLINE (R361): OFFLINE takes a running converter out and starts failover. -/
  | offlineAdc (c : Fin 2) (acc : Fin 15) (arg : Byte)
  /-- MODULATOR_RESTART (R367): An MCLR restart bit revives a dead modulator at the next edge. -/
  | modulatorRestart (i : Fin 24) (acc : Fin 15)
  /-- MODULATOR_COUNT_CLEAR (R366): An MCLR bit 0 clears FAILCNT and SATCNT of a modulator. -/
  | modulatorCountClear (i : Fin 24) (acc : Fin 15)
  /-- SUPPLY_WINDOW (R376): A supply entering under or over logs 0x0801, 0x0802 or 0x0806 and sets WSTAT and WEVT. -/
  | supplyWindow (k : Fin 6) (isOver : Bool)
  /-- DIE_OVERTEMPERATURE (R377): A rise of the die thermal window through DIETRIP logs 0x0803 with detail 2. -/
  | dieOvertemperature
  /-- CMP_EDGE (R379): A filtered change of a general comparator sets rise or fall, counts and captures ECLK and ETICK. -/
  | cmpEdge (m : Fin 8) (rise : Bool)
  /-- WAKE_INPUT (R380): An enabled wake input asserted through its filter sets wkn. -/
  | wakeInput (i : Fin 2) (on : Bool)
  /-- AUTOZERO_SAMPLE (R381): A comparator auto-zero sample updates its accumulator and possibly its trim. -/
  | autozeroSample (c : Fin 101) (o : Bool)
  /-- AZ_DIVERGE (R384): A trim held at ±31 for 4,096 samples resets to 0, stops learning and logs 0x0108. -/
  | azDiverge (c : Fin 101)
  /-- SELF_CHECK (R386): A scheduled tie or swap test runs on a comparator and logs 0x0207, 0x0805 or 0x0905 on failure. -/
  | selfCheck (c : Fin 101) (result : Fin 4)
  /-- SELFTEST (R388): The command SELFTEST runs the self-check of a named comparator at once. -/
  | selftest (acc : Fin 15) (arg : Byte)
  /-- TOUCH_RETRACT (R401): After rest from a touch stop with retract, a relative move of TRETR against the former direction starts. -/
  | touchRetract (n : Fin 12)
  /-- CONTINUITY_PROBE (R402): Every UNPPER ticks in MUTE or UNPLUGGED, a four-tick current probe tests both windings for continuity. -/
  | continuityProbe (n : Fin 12) (a : Bool) (b : Bool)
  /-- UNPLUG (R403): An unplugged motor puts the axis in UNPLUGGED with its motion stopped and logs 0x010A. -/
  | unplug (n : Fin 12)
  /-- REPLUG (R404): Three continuous probes log 0x010B and move the axis to IDENTIFY or MUTE. -/
  | replug (n : Fin 12)
  /-- HOTPLUG_DISABLE (R404): Writing hp_en = 0 in UNPLUGGED moves the axis to MUTE at the next edge. -/
  | hotplugDisable (n : Fin 12)
  /-- IDENTIFY_COMPLETE (R407): The end of identification records the results, compares them with the nominal motor and applies match or mismatch. -/
  | identifyComplete (n : Fin 12) (a : IdWinding) (b : IdWinding)
  /-- ACCEPT (R409): ACCEPT takes the identified values as RNOM and LNOM and clears mismatch. -/
  | acceptMotor (n : Fin 12) (acc : Fin 15) (arg : Byte)
  /-- CLRCNT (R409): CLRCNT sets PLUGCNT to 0. -/
  | clrcnt (n : Fin 12) (acc : Fin 15) (arg : Byte)
  /-- LINK_UP (R416): A port comes up when its PCS is in sync, negotiation is done and the partner runs at 1000 Mb/s full duplex. -/
  | linkUp (p : Fin 2) (ok : Bool)
  /-- LINK_DOWN (R416): An up port going down sets down_seen, counts and logs 0x0501. -/
  | linkDown (p : Fin 2) (cause : Fin 4) (rf : Bool)
  /-- EQ_ACQUIRE_STEP (R417): Without sync, the equaliser boost steps every 64 µs. -/
  | eqAcquireStep (p : Fin 2)
  /-- EQ_UPDATE (R417): Every 1,024 code groups in sync, the equaliser adjusts h1, h2 and boost. -/
  | eqUpdate (p : Fin 2) (s1 : Int) (s2 : Int) (sb : Int) (errs : Nat)
  /-- EQ_DIVERGE (R419): An equaliser value held at a bound with errors for 4,096 updates resets, stops learning and logs 0x0108. -/
  | eqDiverge (p : Fin 2)
  /-- FRAME_RECEIVE (R423): A received frame is classified, forwarded or removed, and passed through the duplicate filter to consumption. -/
  | frameReceive (p : Fin 2) (bytes : List Byte) (fcs : Bool)
  /-- CYCLIC_FRAME (R441): A consumed cyclic frame of the running cycle stores pending values for its subscription entries. -/
  | cyclicFrame (src : Nat) (cycle : BitVec 32) (items : List CycItem)
  /-- TRANSMIT_FRAME (R429): An egress port sends the next frame of its highest non-empty queue. -/
  | transmitFrame (p : Fin 2)
  /-- OPEN_REQUEST (R444): An acyclic OPEN takes the lowest free session, with authentication for world 1, or is answered FULL or WORLD. -/
  | openRequest
  /-- CLOSE (R444): An acyclic CLOSE closes its session. -/
  | closeRequest
  /-- NOP (R426): An acyclic NOP is answered without any access. -/
  | nopRequest
  /-- READ_REQUEST (R515): An acyclic READ performs n words as a burst with the session's identity and returns them. -/
  | readRequest
  /-- WRITE_REQUEST (R515): An acyclic WRITE performs n words as a burst with the session's identity. -/
  | writeRequest
  /-- SESSION_TIMEOUT (R444): A session without a request for SESSTO closes. -/
  | sessionTimeout (k : Fin 8)
  /-- CLAIM_FRAME (R435): A received CLAIM recreates the filter entry of the address and, for an owned address, brings a DEFEND. -/
  | claimFrame (a : Fin 32768) (mac : BitVec 48) (seq : BitVec 16)
  /-- DEFEND (R437): A received DEFEND fails the running claim of that address. -/
  | addrDefend (a : Fin 32768)
  /-- REQUEST (R436): An address manager answers a received REQUEST with an OFFER. -/
  | addrRequest (mac : BitVec 48)
  /-- OFFER (R436): A received OFFER starts a claim of the offered address, or fails the claim on address 0. -/
  | addrOffer (a : Fin 32768) (mac : BitVec 48)
  /-- LEAVE (R436): A received LEAVE frees the address in the address manager. -/
  | addrLeave (a : Fin 32768)
  /-- CLAIM_RESEND (R435): 10 ms after a CLAIM, the claiming node sends the next of its three CLAIMs. -/
  | claimResend
  /-- CLAIM_CONFIRM (R435): 30 ms after the first CLAIM without contest, the address is confirmed. -/
  | claimConfirm
  /-- REQUEST_RETRY (R436): A REQUEST without OFFER is repeated after 1 s, and after the third the claim fails. -/
  | requestRetry
  /-- SUB_ADD (R442): SUB_ADD allocates the lowest free subscription entry from the writer's staged operands. -/
  | subAdd (acc : Fin 15) (arg : Byte)
  /-- SUB_DEL (R442): SUB_DEL frees the entry named by the writer's SIDX. -/
  | subDel (acc : Fin 15) (arg : Byte)
  /-- CLAIM (R435): The command CLAIM starts a claim of ADDRREQ or asks the manager. -/
  | claimAddr (acc : Fin 15) (arg : Byte)
  /-- RELEASE (R439): RELEASE sends LEAVE, stops publishing and closes the sessions. -/
  | releaseAddr (acc : Fin 15) (arg : Byte)
  /-- SESS_CLOSE (R444): SESS_CLOSE closes the named session. -/
  | sessClose (acc : Fin 15) (arg : Byte)
  /-- UOBJ_COMMIT (R440): A write of UCMT makes staged user-object words the published record from the next boundary. -/
  | uobjCommit (acc : Fin 15) (w : BitVec 32)
  /-- COMMIT (R467): COMMIT makes the staged world map active in the next clock, with the effects of R468. -/
  | commitMap (acc : Fin 15) (arg : Byte)
  /-- REVERT (R478): REVERT copies the active map into the staged map. -/
  | revertMap (acc : Fin 15) (arg : Byte)
  /-- GIVE (R463): GIVE hands the master token to a secure session. -/
  | giveToken (acc : Fin 15) (arg : Byte)
  /-- RECLAIM (R463): RECLAIM returns the master token to HPS. -/
  | reclaimToken (acc : Fin 15) (arg : Byte)
  /-- PROGRAM_DKEY (R472): PROGRAM_DKEY writes the staged device key into OTP. -/
  | programDkey (acc : Fin 15) (arg : Byte)
  /-- POP (R491): POP removes the n oldest history entries. -/
  | popHistory (acc : Fin 15) (arg : Byte)
  /-- POP_SNAP (R491): POP_SNAP removes entries up to the writer's snapshot entry. -/
  | popSnap (acc : Fin 15) (arg : Byte)
  /-- INJ_EVENT (R502): INJ_EVENT logs an injected event with its reaction. -/
  | injEvent (acc : Fin 15) (arg : Byte)
  /-- INJ_ECC (R502): INJ_ECC arms an inverted-bit write to a path-memory word. -/
  | injEcc (acc : Fin 15) (arg : Byte)
  /-- INJ_SAR (R502): INJ_SAR makes the next reference conversion read off. -/
  | injSar (acc : Fin 15) (arg : Byte)
  /-- INJ_MOD (R502): INJ_MOD holds a modulator bitstream stuck for 2.5 µs. -/
  | injMod (acc : Fin 15) (arg : Byte)
  /-- INJ_LINK (R502): INJ_LINK holds or releases ports in loss of sync. -/
  | injLink (acc : Fin 15) (arg : Byte)
  /-- INJ_PORT (R502): INJ_PORT fails a port's next amplitude test with cause DC. -/
  | injPort (acc : Fin 15) (arg : Byte)
  /-- LIFE_CLR (R502): LIFE_CLR zeroes every lifetime counter. -/
  | lifeClr (acc : Fin 15) (arg : Byte)
  /-- CLOSE_TEST (R503): CLOSE_TEST programs the test lock and ends factory test mode. -/
  | closeTest (acc : Fin 15) (arg : Byte)
  /-- HISTORY_SNAPSHOT (R490): A read of FLT.HE0 snapshots the selected history entry for the reader. -/
  | historySnapshot (acc : Fin 15)
  /-- FSELBIT_WRITE (R495): A write of FSELBIT is judged against FSEL to select a W1C flag for its counts. -/
  | fselbitWrite (acc : Fin 15) (w : BitVec 32)
  /-- SCRUB (R496): Every 32 clocks the scrubber checks one word of the protected stores. -/
  | scrub
  /-- LIFETIME_SECOND (R494): Each second with an active image increments lifetime counter 1. -/
  | lifetimeSecond
  /-- HOST_WRITE (R510): A host WRITE transaction performs its data words from the header address. -/
  | hostWrite (p : Fin 2) (a : BitVec 24) (words : List (BitVec 32)) (part : Bool)
  /-- HOST_READ (R510): A host READ transaction returns the status word and captured words from the header address. -/
  | hostRead (p : Fin 2) (a : BitVec 24) (count : Nat) (part : Bool)
  /-- STATUS_TRANSACTION (R511): A STATUS transaction returns the port's status word and performs nothing. -/
  | statusTransaction (p : Fin 2) (op : Byte) (cut : Fin 3)
  /-- SNAPSHOT_READ (R518): A read of an _L word installs a snapshot of the whole value in the reader's shadow. -/
  | snapshotRead (acc : Fin 15) (a : BitVec 24)
  /-- MULTIWORD_COMMIT (R519): A write to a WC word assembles the staged words and judges the value as one write. -/
  | multiwordCommit (acc : Fin 15) (a : BitVec 24) (w : BitVec 32)
  /-- REGISTER_WRITE (R517): A write to a register without a row of its own merges under its mask by access type. -/
  | registerWrite (acc : Fin 15) (a : BitVec 24) (w : BitVec 32)
  /-- EXTEST (R533): EXTEST drives the boundary-scan lands and holds the controller in a JTAG reset. -/
  | extest (testen : Bool)
  /-- SAMPLE_PRELOAD (R532): SAMPLE/PRELOAD captures and loads the boundary-scan register without disturbing operation. -/
  | samplePreload (testen : Bool) (cells : List Bool)
  /-- CLAMP (R533): CLAMP selects bypass with the boundary cells driving, under JTAG reset. -/
  | clampScan (testen : Bool)
  /-- HIGHZ (R533): HIGHZ sets every boundary output to high impedance under JTAG reset. -/
  | highz (testen : Bool)
  /-- IDCODE (R532): IDCODE selects the 32-bit device identification register. -/
  | idcode
  /-- BYPASS (R532): BYPASS selects the 1-bit bypass register. -/
  | bypassScan
  /-- TAP_RESET (R531): TRST_N or Test-Logic-Reset resets the TAP and ends any debug halt or JTAG reset request. -/
  | tapReset
  /-- HALT_REQ (R534): An Update-DR of DBG_CTRL with halt_req requests or ends a debug halt. -/
  | haltReq (on : Bool)
  /-- RST_REQ (R534): An Update-DR of DBG_CTRL with rst_req begins or ends a JTAG reset. -/
  | rstReq (on : Bool)
  /-- DBG_ACC_READ (R535): DBG_ACC with go and read performs one word read as accessor 10. -/
  | dbgAccRead (a : BitVec 24)
  /-- DBG_ACC_WRITE (R535): DBG_ACC with go and write performs one word write as accessor 10. -/
  | dbgAccWrite (a : BitVec 24) (w : BitVec 32)
  /-- SOFTWARE_RESET (R546): The key written to DEV.RSTKEY resets the part with cause soft 8 clocks later. -/
  | softwareReset (acc : Fin 15) (mask : BitVec 16) (data : BitVec 16)
  /-- SHELF_ENTRY (R565): The key written to DEV.SHELFKEY tests the wake comparators and at the next edge mutes, stops and releases the node. -/
  | shelfEntry (acc : Fin 15) (mask : BitVec 16) (data : BitVec 16)
  /-- SHELF_DISABLE_PORTS (R565): 100 µs after step 2 the part disables N0 and N1, sets the wake comparators to Doze and stops every domain but AON. -/
  | shelfDisablePorts
  /-- WAKE (R567): A wake input or RESET_N in the shelf state starts a wake, which releases 1 ms after the supplies and crystal are good. -/
  | wakeUp (source : Fin 3)
  /-- POWER_ON_RESET (R555): VDD rising through its power-on level starts a power-on reset. -/
  | powerOnReset
  /-- BROWN_OUT_RESET (R555): A logic supply below its window enters a brown-out reset. -/
  | brownOutReset (k : Fin 6)
  /-- PIN_RESET (R556): RESET_N held low beyond its filter starts a pin reset. -/
  | pinReset
  /-- RESET_RELEASE (R558): The controller leaves reset with the state of R558, records the causes and begins the boot. -/
  | resetRelease (testen : Bool)
  /-- PATH_MEMORY_CLEAR_DONE (R550): The path-memory clear of a cold boot ends and the host ports report ready. -/
  | pathMemoryClearDone
  /-- ANNOUNCE_RECEIPT_TIMEOUT (R23): When no Announce arrives on a port for announceReceiptTimeout intervals, the BMCA runs again, which may re-elect a grandmaster and move the timebase from HOLDOVER to MASTER or ACQUIRE. -/
  | announceReceiptTimeout (p : Fin 2) (gm : Nat) (r0 : Nat) (r1 : Nat)
  /-- SYNC_INTERVAL (R23): At each sync, announce or pdelay interval the part originates its own two-step Sync and Follow_Up and its Announce on master ports, and its Pdelay request on each port. -/
  | syncInterval (kind : Fin 3)
  /-- SUPPLY_RETURN (R376): A supply that returns within its window re-arms its event, and for V12 restarts the charge pump and the excitation drivers and lets gd_rdy rise. -/
  | supplyReturn (k : Fin 6)
  /-- TRIP_INPUT_RELEASE (R236): An asserted TRIP input deasserts, which ends its trip source and re-arms its 0x0203 for the next assertion. -/
  | tripInputRelease (i : Fin 4)
  /-- THERMAL_WINDOW_RELEASE (R377): A thermal window falls through its lower threshold, which ends source ot of the group, clears its TSTAT bit and re-arms the window. -/
  | thermalWindowRelease (j : Fin 11)
  /-- SIGNAL_DETECT (R417): Receive signal appears or is lost on a port that is not up, which starts equaliser acquisition or freezes the equaliser and sets PSTAT.los. -/
  | signalDetect (p : Fin 2) (on : Bool)
  /-- PCS_SYNC (R417): The PCS of a port gains or loses sync before the port is up, which switches the equaliser between acquisition and tracking and sets PSTAT.sync. -/
  | pcsSync (p : Fin 2) (on : Bool)
  /-- VAON_POWER_UP (R555): VAON rises through its power-on level, and the always-on domain starts fresh with aon_new set and its retained content cleared. -/
  | vaonPowerUp
  /-- CYCLIC_TRANSMISSION (R440): TXDLY after the cycle boundary, the built cyclic frame enters Q3 of both ports. -/
  | cyclicTransmission
  deriving DecidableEq, Repr

end Sys2Proof
end

