-- ==== Sys2Proof/Decode.lean ====
section
/-! DEFINITION. Commands spelt as words. -/

namespace Sys2Proof

/-- The command that a word of the opcode table spells: the table gives no row any bits, so that no word spells one. -/
def decodeTableWord (_nbits _w : Nat) : Option Instr := none

end Sys2Proof
end

