-- ==== Sys2Proof/Machine/Crypto.lean ====
section
/-! DEFINITION. SHA-256, ECDSA verification on P-256 (R56, R57: FIPS 186-4), and AES-128-CMAC (R471: NIST SP 800-38B), over
lists of bytes. -/

namespace Sys2Proof.Machine

/-! ### Bytes and numbers -/

/-- The big-endian number of a list of bytes. -/
def beNat (l : List Byte) : Nat := l.foldl (fun a x => a * 256 + x.toNat) 0
/-- The little-endian number of a list of bytes. -/
def leNat (l : List Byte) : Nat := l.foldr (fun x a => a * 256 + x.toNat) 0
/-- `k` big-endian bytes of a number. -/
def beBytes : Nat → Nat → List Byte
  | 0, _ => []
  | k + 1, x => BitVec.ofNat 8 (x / 256 ^ k) :: beBytes k x

/-! ### SHA-256 -/

/-- The root of degree `d` of `x`, rounded down, found bit by bit below 2 ^ `k`. -/
def rootFloor (d x : Nat) : Nat → Nat → Nat
  | 0, r => r
  | k + 1, r => rootFloor d x k (if (r + 2 ^ k) ^ d ≤ x then r + 2 ^ k else r)

/-- The first 32 bits of the fraction of the root of degree `d` of `p`. -/
def rootFraction (d p : Nat) : BitVec 32 := BitVec.ofNat 32 (rootFloor d (p * 2 ^ (32 * d)) 40 0)

/-- The primes below 312: there are 64 of them. -/
def smallPrimes : List Nat :=
  (List.range 312).filter (fun p => decide (2 ≤ p) && [2, 3, 5, 7, 11, 13, 17].all (fun q => p == q || p % q != 0))

/-- The sum of a word turned right by `a`, `b` and `c` places without carries. -/
def turns (x : BitVec 32) (a b c : Nat) : BitVec 32 := x.rotateRight a ^^^ x.rotateRight b ^^^ x.rotateRight c

/-- The message schedule, newest word first, grown by `k` words. -/
def grow : Nat → List (BitVec 32) → List (BitVec 32)
  | 0, w => w
  | k + 1, w =>
    let back (i : Nat) := (w[i - 1]?).getD 0
    let mix (x : BitVec 32) (a b sh : Nat) := x.rotateRight a ^^^ x.rotateRight b ^^^ (x >>> sh)
    grow k ((mix (back 2) 17 19 10 + back 7 + mix (back 15) 7 18 3 + back 16) :: w)

/-- One round: the two halves of the working variables, and a round constant with its schedule word. -/
def shaRound (v : List (BitVec 32) × List (BitVec 32)) (kw : BitVec 32) : List (BitVec 32) × List (BitVec 32) :=
  match v with
  | ([a, b, c, d], [e, f, g, h]) =>
    let choose := g ^^^ (e &&& (f ^^^ g))
    let majority := (a &&& (b ||| c)) ||| (b &&& c)
    let t := kw + h + choose + turns e 6 11 25
    ([t + majority + turns a 2 13 22, a, b, c], [t + d, e, f, g])
  | other => other

/-- Big-endian words of a list of bytes, `k` of them. -/
def beWords : Nat → List Byte → List (BitVec 32)
  | 0, _ => []
  | k + 1, m => BitVec.ofNat 32 (beNat (m.take 4)) :: beWords k (m.drop 4)

/-- The hash value after one more block of 64 bytes. -/
def shaBlock (h : List (BitVec 32)) (m : List Byte) : List (BitVec 32) :=
  let w := (grow 48 (beWords 16 m).reverse).reverse
  let v := (((smallPrimes.map (rootFraction 3)).zipWith (· + ·) w).foldl shaRound (h.take 4, h.drop 4))
  h.zipWith (· + ·) (v.1 ++ v.2)

/-- `k` blocks. -/
def shaBlocks : Nat → List (BitVec 32) → List Byte → List (BitVec 32)
  | 0, h, _ => h
  | k + 1, h, m => shaBlocks k (shaBlock h m) (m.drop 64)

/-- SHA-256 of a list of bytes: 32 bytes (R56, R57). Its constants are roots of the first primes (FIPS 180-4). -/
def sha256 (m : List Byte) : List Byte :=
  let k := (m.length + 8) / 64 + 1
  let filled := m ++ 0x80 :: List.replicate (64 * k - 9 - m.length) 0
  (shaBlocks k ((smallPrimes.take 8).map (rootFraction 2)) (filled ++ beBytes 8 (8 * m.length))).flatMap (fun x => beBytes 4 x.toNat)

/-! ### ECDSA on P-256 -/

/-- The field prime of P-256. -/
def p256 : Nat := 0xffffffff00000001000000000000000000000000ffffffffffffffffffffffff
/-- The order of its base point. -/
def n256 : Nat := 0xffffffff00000000ffffffffffffffffbce6faada7179e84f3b9cac2fc632551
/-- The coefficient b of the curve; a is -3. -/
def b256 : Nat := 0x5ac635d8aa3a93e7b3ebbd55769886bc651d06b0cc53b0f63bce3c3e27d2604b
/-- The base point. -/
def g256 : Nat × Nat := (0x6b17d1f2e12c4247f8bce6e563a440f277037d812deb33a0f4a13945d898c296,
  0x4fe342e2fe1a7f9b8ee7eb4a7c0f9e162bce33576b315ececbb6406837bf51f5)

/-- b ^ e mod m, for e below 2 ^ fuel. -/
def powMod (m : Nat) : Nat → Nat → Nat → Nat
  | 0, _, _ => 1
  | k + 1, b, e => if e = 0 then 1 else
    let h := powMod m k (b * b % m) (e / 2)
    if e % 2 = 1 then b * h % m else h

/-- The inverse modulo a prime. -/
def invMod (m x : Nat) : Nat := powMod m 256 (x % m) (m - 2)

/-- The sum of two points; none is the point at infinity. -/
def ecAdd : Option (Nat × Nat) → Option (Nat × Nat) → Option (Nat × Nat)
  | none, q => q
  | q, none => q
  | some (x1, y1), some (x2, y2) =>
    let p := p256
    if x1 = x2 ∧ (y1 + y2) % p = 0 then none
    else
      let l := if x1 = x2 then (3 * x1 * x1 + (p - 3)) * invMod p (2 * y1) % p else (y2 + p - y1) * invMod p (x2 + p - x1) % p
      let x3 := (l * l + 2 * p - x1 - x2) % p
      some (x3, (l * (x1 + p - x3) + p - y1) % p)

/-- k times a point, for k below 2 ^ fuel. -/
def ecMul : Nat → Nat → Option (Nat × Nat) → Option (Nat × Nat)
  | 0, _, _ => none
  | f + 1, k, q =>
    if k = 0 then none
    else
      let h := ecMul f (k / 2) (ecAdd q q)
      if k % 2 = 1 then ecAdd q h else h

/-- The point lies on the curve. -/
def onCurve (x y : Nat) : Bool :=
  decide (x < p256) && decide (y < p256) && y * y % p256 == (x * x * x + (p256 - 3) * x + b256) % p256

/-- The signature (r, s) of the hash `e` verifies under the key (x, y). -/
def ecdsaVerify (x y r s e : Nat) : Bool :=
  let n := n256
  onCurve x y && decide (0 < r) && decide (r < n) && decide (0 < s) && decide (s < n) &&
    (let w := invMod n s
     match ecAdd (ecMul 256 (e % n * w % n) (some g256)) (ecMul 256 (r * w % n) (some (x, y))) with
     | none => false
     | some q => q.1 % n == r)

/-! ### AES-128-CMAC -/

/-- Twice an element of the field of AES. -/
def gfDbl (x : Byte) : Byte := if x.msb then (x <<< 1) ^^^ 0x1b else x <<< 1
/-- The product in the field of AES, over the lowest `k` bits of `b`. -/
def gfMul : Nat → Byte → Byte → Byte
  | 0, _, _ => 0
  | k + 1, a, b => (if b.getLsbD 0 then a else 0) ^^^ gfMul k (gfDbl a) (b >>> 1)
/-- The inverse in the field of AES: x ^ 254. -/
def gfInv (x : Byte) : Byte :=
  let m := gfMul 8
  let x2 := m x x
  let x4 := m x2 x2
  let x8 := m x4 x4
  let x16 := m x8 x8
  let x32 := m x16 x16
  let x64 := m x32 x32
  m (m (m x2 x4) (m x8 x16)) (m (m x32 x64) (m x64 x64))
/-- The S-box. -/
def sbox (x : Byte) : Byte :=
  let i := gfInv x
  i ^^^ i.rotateLeft 1 ^^^ i.rotateLeft 2 ^^^ i.rotateLeft 3 ^^^ i.rotateLeft 4 ^^^ 0x63
/-- Bytes added bit by bit. -/
def xorBytes (a b : List Byte) : List Byte := a.zipWith (· ^^^ ·) b
/-- The next round key. -/
def nextKey (rc : Byte) (k : List Byte) : List Byte :=
  let c (i : Nat) : List Byte := (k.drop (4 * i)).take 4
  let t := match c 3 with | [a, b, d, e] => [sbox b ^^^ rc, sbox d, sbox e, sbox a] | l => l
  let w0 := xorBytes (c 0) t
  let w1 := xorBytes (c 1) w0
  let w2 := xorBytes (c 2) w1
  w0 ++ w1 ++ w2 ++ xorBytes (c 3) w2
/-- One column mixed. -/
def mixCol : List Byte → List Byte
  | a :: b :: c :: d :: t =>
    let f (w x y z : Byte) : Byte := gfDbl w ^^^ (gfDbl x ^^^ x) ^^^ y ^^^ z
    f a b c d :: f b c d a :: f c d a b :: f d a b c :: mixCol t
  | _ => []
/-- Rows shifted: byte i of the result is byte 5 i mod 16. -/
def shiftRows (s : List Byte) : List Byte := (List.range 16).map (fun i => (s[5 * i % 16]?).getD 0)
/-- The rounds of AES-128 with the round constants left. -/
def aesRounds : List Byte → List Byte → List Byte → List Byte
  | [], _, s => s
  | rc :: t, k, s =>
    let k' := nextKey rc k
    let x := shiftRows (s.map sbox)
    aesRounds t k' (xorBytes (if t = [] then x else mixCol x) k')
/-- AES-128 of one block. -/
def aes128 (k b : List Byte) : List Byte :=
  aesRounds [1, 2, 4, 8, 0x10, 0x20, 0x40, 0x80, 0x1b, 0x36] k (xorBytes b k)
/-- Twice a block in the field of CMAC. -/
def cmacDbl (b : List Byte) : List Byte :=
  let x := beNat b
  let y := 2 * x % 2 ^ 128
  beBytes 16 (if 2 ^ 127 ≤ x then y ^^^ 0x87 else y)
/-- The chain over whole blocks. -/
def cmacChain (k : List Byte) : Nat → List Byte → List Byte → List Byte
  | 0, x, _ => x
  | f + 1, x, m => cmacChain k f (aes128 k (xorBytes x (m.take 16))) (m.drop 16)
/-- AES-128-CMAC: 16 bytes. -/
def cmac (k m : List Byte) : List Byte :=
  let k1 := cmacDbl (aes128 k (List.replicate 16 0))
  let n := if m = [] then 1 else (m.length + 15) / 16
  let x := cmacChain k (n - 1) (List.replicate 16 0) m
  let last := m.drop (16 * (n - 1))
  let y := if last.length = 16 then xorBytes last k1
    else xorBytes (last ++ [0x80] ++ List.replicate (15 - last.length) 0) (cmacDbl k1)
  aes128 k (xorBytes x y)

end Sys2Proof.Machine
end

