-- ==== Sys2Proof/Config.lean ====
section
/-! DEFINITION. What an implementation fixes and the spec leaves open: constants without a body, so that nothing can be proved of their value. -/

namespace Sys2Proof.Config

/-- A free value of `w` bits: the n-th time the part forms a value the spec leaves open. Nothing constrains it. -/
opaque freeValue (w n : Nat) : BitVec w

/-- How the part rounds a division whose rounding the spec does not state (`site` names the quotient): true takes the value above the floor. Nothing constrains it. -/
opaque roundsUp (site : Nat) (num den : Int) : Bool

/-- The angle of a vector of length 0, as a 16-bit fraction of a circle: the spec states none. Nothing constrains it. -/
opaque noAngle : Nat

/-- The temperature [0.25 °C] that a thermal sensor's code stands for: the calibration lies in OTP and the spec does not give it (R347). Nothing constrains it. -/
opaque thermal (sensor : Nat) (code : Int) : Int

/-- The manufacturer identity that JEP106 assigns to Cyrdaide: bits 11:1 of IDCODE, which the spec does not give (R532). Nothing constrains it. -/
opaque jep106 : BitVec 11

end Sys2Proof.Config
end

