-- ==== Sys2Proof/Machine/Operands.lean ====
section
/-! DEFINITION. The register map: where every register lies (R537-R539), and for each the words it takes,
its access (R11, R517), its reset value (R542), the bits a write reaches and the range a write is judged by.
Written from the register tables of the chapters. -/

namespace Sys2Proof.Machine

/-- The access types of R11 and R517. `rw2` is a pair of plainly written words (no commit), `fm` a register written field by field. -/
inductive Acc where
  | ro | rw | wc | rw2 | w1c | fm | cmd | wo
  deriving DecidableEq, Repr

/-- One row of a register table: `count` values of `words` 16-bit words each, the first at offset `off`, the next `stride` bytes on.
`wm` are the bits a write changes, `cm` those it clears by 1; the value has `width` bits, is `sgn`ed or not, and is judged by `lo` and `hi`. -/
structure Row where
  off : Nat
  words : Nat
  count : Nat
  stride : Nat
  acc : Acc
  reset : Nat
  wm : Nat
  cm : Nat
  width : Nat
  sgn : Bool
  lo : Int
  hi : Int
  deriving DecidableEq, Repr

/-! Offsets in DEV at 0x00_0000 (R543, R524, R529, R255, R547). -/
/-- DEV.ID (R543). -/
def DEV.ID : Nat := 0x000
/-- DEV.PARTNO (R543). -/
def DEV.PARTNO : Nat := 0x004
/-- DEV.VARIANT (R543). -/
def DEV.VARIANT : Nat := 0x008
/-- DEV.STATUS (R543). -/
def DEV.STATUS : Nat := 0x00C
/-- DEV.RSTCAUSE (R543). -/
def DEV.RSTCAUSE : Nat := 0x010
/-- DEV.RSTKEY (R543). -/
def DEV.RSTKEY : Nat := 0x014
/-- DEV.SHELFKEY (R543). -/
def DEV.SHELFKEY : Nat := 0x018
/-- DEV.UID_L / _M / _H / _U (R543). -/
def DEV.UID : Nat := 0x020
/-- DEV.LSTAT (R524). -/
def DEV.LSTAT : Nat := 0x100
/-- DEV.LWORDS (R524). -/
def DEV.LWORDS : Nat := 0x104
/-- DEV.BECNT (R524). -/
def DEV.BECNT : Nat := 0x108
/-- DEV.PARTCNT (R524). -/
def DEV.PARTCNT : Nat := 0x10C
/-- DEV.PCNTCLR (R524). -/
def DEV.PCNTCLR : Nat := 0x110
/-- DEV.IRQA_PEND0–PEND3 (R529). -/
def DEV.IRQA_PEND : Nat := 0x140
/-- DEV.IRQA_EN0–EN3 (R529). -/
def DEV.IRQA_EN : Nat := 0x150
/-- DEV.IRQS_PEND0–PEND3 (R529). -/
def DEV.IRQS_PEND : Nat := 0x160
/-- DEV.IRQS_EN0–EN3 (R529). -/
def DEV.IRQS_EN : Nat := 0x170
/-- DEV.PROT (R255). -/
def DEV.PROT : Nat := 0x200
/-- DEV.TRIPCFG0–TRIPCFG3 (R255). -/
def DEV.TRIPCFG : Nat := 0x204
/-- DEV.TOFFDISC (R255). -/
def DEV.TOFFDISC : Nat := 0x214
/-- DEV.PBUDGET (R255). -/
def DEV.PBUDGET : Nat := 0x218
/-- DEV.PSTATIC (R255). -/
def DEV.PSTATIC : Nat := 0x21C
/-- DEV.PGD (R255). -/
def DEV.PGD : Nat := 0x220
/-- DEV.PPKG (R255). -/
def DEV.PPKG : Nat := 0x224
/-- DEV.TGOV (R255). -/
def DEV.TGOV : Nat := 0x228
/-- DEV.KMIN (R255). -/
def DEV.KMIN : Nat := 0x22C
/-- DEV.GOVSTAT (R255). -/
def DEV.GOVSTAT : Nat := 0x230
/-- DEV.OWMIN (R255). -/
def DEV.OWMIN : Nat := 0x234
/-- DEV.OWN (R255). -/
def DEV.OWN : Nat := 0x238
/-- DEV.OWSHARE (R255). -/
def DEV.OWSHARE : Nat := 0x23C
/-- DEV.GOVK[0]–GOVK[11] (R255). -/
def DEV.GOVK : Nat := 0x240
/-- DEV.PG[0]–PG[9] (R255). -/
def DEV.PG : Nat := 0x270
/-- DEV.TJG[0]–TJG[9] (R255). -/
def DEV.TJG : Nat := 0x2A0
/-- DEV.RET[j] (R547). -/
def DEV.RET : Nat := 0x400

/-! Offsets in TIM at 0x01_0000 (R48). -/
/-- TIM.STATUS (R48). -/
def TIM.STATUS : Nat := 0x000
/-- TIM.CTRL (R48). -/
def TIM.CTRL : Nat := 0x004
/-- TIM.TICKPER (R48). -/
def TIM.TICKPER : Nat := 0x008
/-- TIM.CYCM (R48). -/
def TIM.CYCM : Nat := 0x00C
/-- TIM.LOCKTHR (R48). -/
def TIM.LOCKTHR : Nat := 0x010
/-- TIM.STEPTHR (R48). -/
def TIM.STEPTHR : Nat := 0x014
/-- TIM.INLAT0 (R48). -/
def TIM.INLAT0 : Nat := 0x018
/-- TIM.EGLAT0 (R48). -/
def TIM.EGLAT0 : Nat := 0x01C
/-- TIM.INLAT1 (R48). -/
def TIM.INLAT1 : Nat := 0x020
/-- TIM.EGLAT1 (R48). -/
def TIM.EGLAT1 : Nat := 0x024
/-- TIM.PRIO (R48). -/
def TIM.PRIO : Nat := 0x028
/-- TIM.PTPCFG (R48). -/
def TIM.PTPCFG : Nat := 0x02C
/-- TIM.NOW_L / _M / _H / _U (R48). -/
def TIM.NOW : Nat := 0x030
/-- TIM.TEDGE_L / _M / _H / _U (R48). -/
def TIM.TEDGE : Nat := 0x040
/-- TIM.TEDGE_HNS (R48). -/
def TIM.TEDGE_HNS : Nat := 0x050
/-- TIM.TICK_L / _M / _H (R48). -/
def TIM.TICK : Nat := 0x054
/-- TIM.CYC_L / _H (R48). -/
def TIM.CYC : Nat := 0x060
/-- TIM.OFFS_L / _H (R48). -/
def TIM.OFFS : Nat := 0x068
/-- TIM.RATE_L / _H (R48). -/
def TIM.RATE : Nat := 0x070
/-- TIM.RATEGOOD_L / _H (R48). -/
def TIM.RATEGOOD : Nat := 0x078
/-- TIM.ADJ_L / _M / _H (R48). -/
def TIM.ADJ : Nat := 0x080
/-- TIM.SCHED_L / _H (R48). -/
def TIM.SCHED : Nat := 0x090
/-- TIM.CEIL_L / _H (R48). -/
def TIM.CEIL : Nat := 0x098
/-- TIM.FOSHARE_L / _H (R48). -/
def TIM.FOSHARE : Nat := 0x0A0
/-- TIM.LOADMAX_L / _H (R48). -/
def TIM.LOADMAX : Nat := 0x0A8
/-- TIM.OVBTOT (R48). -/
def TIM.OVBTOT : Nat := 0x0B0
/-- TIM.OVBCLR (R48). -/
def TIM.OVBCLR : Nat := 0x0B4

/-! Offsets in BOR at 0x02_0000 (R83). -/
/-- BOR.STATUS (R83). -/
def BOR.STATUS : Nat := 0x000
/-- BOR.CMD (R83). -/
def BOR.CMD : Nat := 0x004
/-- BOR.CMDSTAT (R83). -/
def BOR.CMDSTAT : Nat := 0x008
/-- BOR.ERRINFO (R83). -/
def BOR.ERRINFO : Nat := 0x00C
/-- BOR.ERROFS_L / _H (R83). -/
def BOR.ERROFS : Nat := 0x010
/-- BOR.ID_L / _H (R83). -/
def BOR.ID : Nat := 0x018
/-- BOR.LEVEL (R83). -/
def BOR.LEVEL : Nat := 0x020
/-- BOR.FILL_L / _H (R83). -/
def BOR.FILL : Nat := 0x024
/-- BOR.KEYS (R83). -/
def BOR.KEYS : Nat := 0x02C
/-- BOR.PENDING (R83). -/
def BOR.PENDING : Nat := 0x030
/-- BOR.TOOL_L / _H (R83). -/
def BOR.TOOL : Nat := 0x034
/-- BOR.FEED (R83). -/
def BOR.FEED : Nat := 0x400

/-! Offsets in WLD at 0x03_0000 (R476). -/
/-- WLD.STATUS (R476). -/
def WLD.STATUS : Nat := 0x000
/-- WLD.WHO (R476). -/
def WLD.WHO : Nat := 0x004
/-- WLD.CMD (R476). -/
def WLD.CMD : Nat := 0x008
/-- WLD.CMDSTAT (R476). -/
def WLD.CMDSTAT : Nat := 0x00C
/-- WLD.BLK0–BLK3 (R476). -/
def WLD.BLK : Nat := 0x010
/-- WLD.REG (R476). -/
def WLD.REG : Nat := 0x020
/-- WLD.SBLK0–SBLK3 (R476). -/
def WLD.SBLK : Nat := 0x030
/-- WLD.SREG (R476). -/
def WLD.SREG : Nat := 0x040
/-- WLD.LASTVIO (R476). -/
def WLD.LASTVIO : Nat := 0x050
/-- WLD.LASTBLK (R476). -/
def WLD.LASTBLK : Nat := 0x054
/-- WLD.VIOCNT[a] (R476). -/
def WLD.VIOCNT : Nat := 0x060
/-- WLD.AUTHFAIL (R476). -/
def WLD.AUTHFAIL : Nat := 0x088
/-- WLD.VCLR (R476). -/
def WLD.VCLR : Nat := 0x08C
/-- WLD.KCV (R476). -/
def WLD.KCV : Nat := 0x090
/-- WLD.DKEY0–DKEY7 (R476). -/
def WLD.DKEY : Nat := 0x0A0

/-! Offsets in FLT at 0x04_0000 (R505). -/
/-- FLT.STATUS (R505). -/
def FLT.STATUS : Nat := 0x000
/-- FLT.CMD (R505). -/
def FLT.CMD : Nat := 0x004
/-- FLT.CMDSTAT (R505). -/
def FLT.CMDSTAT : Nat := 0x008
/-- FLT.HCOUNT (R505). -/
def FLT.HCOUNT : Nat := 0x00C
/-- FLT.HSEL (R505). -/
def FLT.HSEL : Nat := 0x010
/-- FLT.HSEQ_L / _H (R505). -/
def FLT.HSEQ : Nat := 0x014
/-- FLT.HOVF (R505). -/
def FLT.HOVF : Nat := 0x01C
/-- FLT.HE0 (R505). -/
def FLT.HE0 : Nat := 0x020
/-- FLT.HE1–HE7 (R505). -/
def FLT.HE1 : Nat := 0x024
/-- FLT.DEVMASK (R505). -/
def FLT.DEVMASK : Nat := 0x040
/-- FLT.CONT (R505). -/
def FLT.CONT : Nat := 0x044
/-- FLT.COLLCNT (R505). -/
def FLT.COLLCNT : Nat := 0x048
/-- FLT.FSEL_L / _H (R505). -/
def FLT.FSEL : Nat := 0x04C
/-- FLT.FSELBIT (R505). -/
def FLT.FSELBIT : Nat := 0x054
/-- FLT.FCNT (R505). -/
def FLT.FCNT : Nat := 0x058
/-- FLT.FCLR (R505). -/
def FLT.FCLR : Nat := 0x05C
/-- FLT.TMSTAT (R505). -/
def FLT.TMSTAT : Nat := 0x060
/-- FLT.INJCODE (R505). -/
def FLT.INJCODE : Nat := 0x064
/-- FLT.INJD1 (R505). -/
def FLT.INJD1 : Nat := 0x068
/-- FLT.INJD2 (R505). -/
def FLT.INJD2 : Nat := 0x06C
/-- FLT.INJOBJ (R505). -/
def FLT.INJOBJ : Nat := 0x070
/-- FLT.INJADDR_L / _H (R505). -/
def FLT.INJADDR : Nat := 0x074
/-- FLT.LIFE[k]_L / _H (R505). -/
def FLT.LIFE : Nat := 0x200
/-- FLT.RT[c] (R505). -/
def FLT.RT : Nat := 0x440

/-! Offsets in NET at 0x05_0000 (R449), shared words. -/
/-- NET.NSTAT (R449). -/
def NET.NSTAT : Nat := 0x000
/-- NET.NCMD (R449). -/
def NET.NCMD : Nat := 0x004
/-- NET.NCMDSTAT (R449). -/
def NET.NCMDSTAT : Nat := 0x008
/-- NET.ADDR (R449). -/
def NET.ADDR : Nat := 0x00C
/-- NET.ADDRREQ (R449). -/
def NET.ADDRREQ : Nat := 0x010
/-- NET.ETYPE (R449). -/
def NET.ETYPE : Nat := 0x014
/-- NET.VID (R449). -/
def NET.VID : Nat := 0x018
/-- NET.PCP (R449). -/
def NET.PCP : Nat := 0x01C
/-- NET.MAC_L / _M / _H (R449). -/
def NET.MAC : Nat := 0x020
/-- NET.CFG (R449). -/
def NET.CFG : Nat := 0x02C
/-- NET.HOPS (R449). -/
def NET.HOPS : Nat := 0x030
/-- NET.TXDLY (R449). -/
def NET.TXDLY : Nat := 0x034
/-- NET.GROUP (R449). -/
def NET.GROUP : Nat := 0x038
/-- NET.SESSTO (R449). -/
def NET.SESSTO : Nat := 0x03C
/-- NET.PUBA–PUBD (R449). -/
def NET.PUB : Nat := 0x040
/-- NET.UCMT (R449). -/
def NET.UCMT : Nat := 0x050
/-- NET.SIDX (R449). -/
def NET.SIDX : Nat := 0x054
/-- NET.SNEW_L / _H (R449). -/
def NET.SNEW : Nat := 0x058
/-- NET.SNEW_SEL (R449). -/
def NET.SNEW_SEL : Nat := 0x060
/-- NET.SUBUSED (R449). -/
def NET.SUBUSED : Nat := 0x064
/-- NET.DUPUSED (R449). -/
def NET.DUPUSED : Nat := 0x068
/-- NET.DUPEVCT (R449). -/
def NET.DUPEVCT : Nat := 0x06C
/-- NET.MISSCNT (R449). -/
def NET.MISSCNT : Nat := 0x070
/-- NET.CYCERR (R449). -/
def NET.CYCERR : Nat := 0x074
/-- NET.FULLCNT (R449). -/
def NET.FULLCNT : Nat := 0x078
/-- NET.NCLR (R449). -/
def NET.NCLR : Nat := 0x07C
/-- NET.SEQ (R449). -/
def NET.SEQ : Nat := 0x080

/-! Offsets in NET port n (R449). -/
/-- NET.PCFG[n] (R449). -/
def NETP.PCFG : Nat := 0x000
/-- NET.PSTAT[n] (R449). -/
def NETP.PSTAT : Nat := 0x004
/-- NET.EQ[n] (R449). -/
def NETP.EQ : Nat := 0x008
/-- NET.DFE1[n] (R449). -/
def NETP.DFE1 : Nat := 0x00C
/-- NET.DFE2[n] (R449). -/
def NETP.DFE2 : Nat := 0x010
/-- NET.RXFRM_L / _H[n] (R449). -/
def NETP.RXFRM : Nat := 0x014
/-- NET.TXFRM_L / _H[n] (R449). -/
def NETP.TXFRM : Nat := 0x01C
/-- NET.CRCERR[n] (R449). -/
def NETP.CRCERR : Nat := 0x024
/-- NET.CODEERR[n] (R449). -/
def NETP.CODEERR : Nat := 0x028
/-- NET.DROPCNT[n] (R449). -/
def NETP.DROPCNT : Nat := 0x02C
/-- NET.DROP3[n] (R449). -/
def NETP.DROP3 : Nat := 0x030
/-- NET.LDCNT[n] (R449). -/
def NETP.LDCNT : Nat := 0x034
/-- NET.CLOAD[n] (R449). -/
def NETP.CLOAD : Nat := 0x038
/-- NET.PCLR[n] (R449). -/
def NETP.PCLR : Nat := 0x03C

/-! Offsets in NET session s (R449). -/
/-- NET.SSTAT[s] (R449). -/
def NETS.SSTAT : Nat := 0x000
/-- NET.SCLI_L / _H[s] (R449). -/
def NETS.SCLI : Nat := 0x004
/-- NET.SLAST[s] (R449). -/
def NETS.SLAST : Nat := 0x00C
/-- NET.SIDLE[s] (R449). -/
def NETS.SIDLE : Nat := 0x010

/-! Offsets in NET.UOBJ[u] (R449). -/
/-- NET.UOBJ[u].W0–W7 (R449). -/
def UOBJ.W : Nat := 0x000

/-! Offsets in NET.SUB[k] (R449). -/
/-- NET.SUB[k].SRC_L (R449). -/
def SUB.SRC_L : Nat := 0x000
/-- NET.SUB[k].SRC_H (R449). -/
def SUB.SRC_H : Nat := 0x004
/-- NET.SUB[k].SEL (R449). -/
def SUB.SEL : Nat := 0x008
/-- NET.SUB[k].SSTAT (R449). -/
def SUB.SSTAT : Nat := 0x00C
/-- NET.SUB[k].VAL_L / _M / _H (R449). -/
def SUB.VAL : Nat := 0x010
/-- NET.SUB[k].VCYC (R449). -/
def SUB.VCYC : Nat := 0x01C

/-! Offsets in AX[n] (R119, R157, R188, R411). -/
/-- AX[n].STATE (R119). -/
def AX.STATE : Nat := 0x000
/-- AX[n].CMD (R119). -/
def AX.CMD : Nat := 0x004
/-- AX[n].CMDSTAT (R119). -/
def AX.CMDSTAT : Nat := 0x008
/-- AX[n].STATUS (R119). -/
def AX.STATUS : Nat := 0x00C
/-- AX[n].OVBCNT (R119). -/
def AX.OVBCNT : Nat := 0x010
/-- AX[n].CFG (R119). -/
def AX.CFG : Nat := 0x014
/-- AX[n].GSRC (R119). -/
def AX.GSRC : Nat := 0x018
/-- AX[n].STEPIN (R119). -/
def AX.STEPIN : Nat := 0x01C
/-- AX[n].POS_L / _M / _H (R119). -/
def AX.POS : Nat := 0x020
/-- AX[n].SETPOS_L / _M / _H (R119). -/
def AX.SETPOS : Nat := 0x02C
/-- AX[n].VEL_L / _M / _H (R119). -/
def AX.VEL : Nat := 0x038
/-- AX[n].ACC_L / _M / _H (R119). -/
def AX.ACC : Nat := 0x044
/-- AX[n].TGT_L / _M / _H (R119). -/
def AX.TGT : Nat := 0x050
/-- AX[n].REM_L / _M / _H (R119). -/
def AX.REM : Nat := 0x05C
/-- AX[n].JOGV_L / _M / _H (R119). -/
def AX.JOGV : Nat := 0x068
/-- AX[n].VMAX_L / _M / _H (R119). -/
def AX.VMAX : Nat := 0x074
/-- AX[n].AMAX_L / _H (R119). -/
def AX.AMAX : Nat := 0x080
/-- AX[n].DMAX_L / _H (R119). -/
def AX.DMAX : Nat := 0x088
/-- AX[n].SDEC_L / _H (R119). -/
def AX.SDEC : Nat := 0x090
/-- AX[n].JMAX_L / _H (R119). -/
def AX.JMAX : Nat := 0x098
/-- AX[n].SLMIN_L / _M / _H (R119). -/
def AX.SLMIN : Nat := 0x0A0
/-- AX[n].SLMAX_L / _M / _H (R119). -/
def AX.SLMAX : Nat := 0x0AC
/-- AX[n].MODLEN_L / _H (R119). -/
def AX.MODLEN : Nat := 0x0B8
/-- AX[n].MPOS_L / _H (R119). -/
def AX.MPOS : Nat := 0x0C0
/-- AX[n].FERRMAX_L / _H (R119). -/
def AX.FERRMAX : Nat := 0x0C8
/-- AX[n].FERR_L / _H (R119). -/
def AX.FERR : Nat := 0x0D0
/-- AX[n].GNUM_L / _H (R119). -/
def AX.GNUM : Nat := 0x0D8
/-- AX[n].GDEN_L / _H (R119). -/
def AX.GDEN : Nat := 0x0E0
/-- AX[n].CAMBASE_L / _H (R119). -/
def AX.CAMBASE : Nat := 0x0E8
/-- AX[n].CAMTAG_L / _H (R119). -/
def AX.CAMTAG : Nat := 0x0F0
/-- AX[n].PSTART_L / _H (R119). -/
def AX.PSTART : Nat := 0x0F8
/-- AX[n].STEPCNT_L / _H (R119). -/
def AX.STEPCNT : Nat := 0x100
/-- AX[n].STEPSZ (R119). -/
def AX.STEPSZ : Nat := 0x108
/-- AX[n].STEPFILT (R119). -/
def AX.STEPFILT : Nat := 0x10C
/-- AX[n].PW (R119). -/
def AX.PW : Nat := 0x110
/-- AX[n].DIRSU (R119). -/
def AX.DIRSU : Nat := 0x114
/-- AX[n].BACKLOG (R119). -/
def AX.BACKLOG : Nat := 0x118
/-- AX[n].ICFG (R157). -/
def AX.ICFG : Nat := 0x200
/-- AX[n].ISTAT (R157). -/
def AX.ISTAT : Nat := 0x204
/-- AX[n].IRUN (R157). -/
def AX.IRUN : Nat := 0x208
/-- AX[n].IHOLD (R157). -/
def AX.IHOLD : Nat := 0x20C
/-- AX[n].HOLDDLY (R157). -/
def AX.HOLDDLY : Nat := 0x210
/-- AX[n].HOLDRAMP (R157). -/
def AX.HOLDRAMP : Nat := 0x214
/-- AX[n].ILIM (R157). -/
def AX.ILIM : Nat := 0x218
/-- AX[n].ILIMEFF (R157). -/
def AX.ILIMEFF : Nat := 0x21C
/-- AX[n].IDREF (R157). -/
def AX.IDREF : Nat := 0x220
/-- AX[n].KP (R157). -/
def AX.KP : Nat := 0x224
/-- AX[n].KI (R157). -/
def AX.KI : Nat := 0x228
/-- AX[n].IBW (R157). -/
def AX.IBW : Nat := 0x22C
/-- AX[n].KPOS (R157). -/
def AX.KPOS : Nat := 0x230
/-- AX[n].KIPOS (R157). -/
def AX.KIPOS : Nat := 0x234
/-- AX[n].IA (R157). -/
def AX.IA : Nat := 0x238
/-- AX[n].IB (R157). -/
def AX.IB : Nat := 0x23C
/-- AX[n].ID (R157). -/
def AX.ID : Nat := 0x240
/-- AX[n].IQ (R157). -/
def AX.IQ : Nat := 0x244
/-- AX[n].IDR (R157). -/
def AX.IDR : Nat := 0x248
/-- AX[n].IQR (R157). -/
def AX.IQR : Nat := 0x24C
/-- AX[n].VD (R157). -/
def AX.VD : Nat := 0x250
/-- AX[n].VQ (R157). -/
def AX.VQ : Nat := 0x254
/-- AX[n].THETA (R157). -/
def AX.THETA : Nat := 0x258
/-- AX[n].AERR (R157). -/
def AX.AERR : Nat := 0x25C
/-- AX[n].RNOM (R157). -/
def AX.RNOM : Nat := 0x260
/-- AX[n].LNOM (R157). -/
def AX.LNOM : Nat := 0x264
/-- AX[n].RA (R157). -/
def AX.RA : Nat := 0x268
/-- AX[n].RB (R157). -/
def AX.RB : Nat := 0x26C
/-- AX[n].LA (R157). -/
def AX.LA : Nat := 0x270
/-- AX[n].LB (R157). -/
def AX.LB : Nat := 0x274
/-- AX[n].TRKCFG (R157). -/
def AX.TRKCFG : Nat := 0x278
/-- AX[n].TRKPROBE (R157). -/
def AX.TRKPROBE : Nat := 0x27C
/-- AX[n].TRKAMP (R157). -/
def AX.TRKAMP : Nat := 0x280
/-- AX[n].DETCFG (R157). -/
def AX.DETCFG : Nat := 0x284
/-- AX[n].DETVMIN (R157). -/
def AX.DETVMIN : Nat := 0x288
/-- AX[n].DETVMAX (R157). -/
def AX.DETVMAX : Nat := 0x28C
/-- AX[n].DETLIM (R157). -/
def AX.DETLIM : Nat := 0x290
/-- AX[n].DETA1 (R157). -/
def AX.DETA1 : Nat := 0x294
/-- AX[n].DETB1 (R157). -/
def AX.DETB1 : Nat := 0x298
/-- AX[n].DETA2 (R157). -/
def AX.DETA2 : Nat := 0x29C
/-- AX[n].DETB2 (R157). -/
def AX.DETB2 : Nat := 0x2A0
/-- AX[n].DETA4 (R157). -/
def AX.DETA4 : Nat := 0x2A4
/-- AX[n].DETB4 (R157). -/
def AX.DETB4 : Nat := 0x2A8
/-- AX[n].OCFG (R188). -/
def AX.OCFG : Nat := 0x300
/-- AX[n].OSTAT (R188). -/
def AX.OSTAT : Nat := 0x304
/-- AX[n].OTHETA (R188). -/
def AX.OTHETA : Nat := 0x308
/-- AX[n].OBSV_L / _H (R188). -/
def AX.OBSV : Nat := 0x30C
/-- AX[n].EA (R188). -/
def AX.EA : Nat := 0x314
/-- AX[n].EB (R188). -/
def AX.EB : Nat := 0x318
/-- AX[n].KE (R188). -/
def AX.KE : Nat := 0x31C
/-- AX[n].VOBS (R188). -/
def AX.VOBS : Nat := 0x320
/-- AX[n].OBSBW (R188). -/
def AX.OBSBW : Nat := 0x324
/-- AX[n].OBSN (R188). -/
def AX.OBSN : Nat := 0x328
/-- AX[n].SRATIO (R188). -/
def AX.SRATIO : Nat := 0x32C
/-- AX[n].SOFS (R188). -/
def AX.SOFS : Nat := 0x330
/-- AX[n].SRECOV (R188). -/
def AX.SRECOV : Nat := 0x334
/-- AX[n].LANG (R188). -/
def AX.LANG : Nat := 0x338
/-- AX[n].TLOAD (R188). -/
def AX.TLOAD : Nat := 0x33C
/-- AX[n].INJV (R188). -/
def AX.INJV : Nat := 0x340
/-- AX[n].INJPER (R188). -/
def AX.INJPER : Nat := 0x344
/-- AX[n].INJMIN (R188). -/
def AX.INJMIN : Nat := 0x348
/-- AX[n].INJK (R188). -/
def AX.INJK : Nat := 0x34C
/-- AX[n].ANISO (R188). -/
def AX.ANISO : Nat := 0x350
/-- AX[n].STLCFG (R188). -/
def AX.STLCFG : Nat := 0x354
/-- AX[n].STLSTAT (R188). -/
def AX.STLSTAT : Nat := 0x358
/-- AX[n].STLTHR (R188). -/
def AX.STLTHR : Nat := 0x35C
/-- AX[n].STLACC_L / _H (R188). -/
def AX.STLACC : Nat := 0x360
/-- AX[n].STLBIN (R188). -/
def AX.STLBIN : Nat := 0x368
/-- AX[n].STLVTOL (R188). -/
def AX.STLVTOL : Nat := 0x36C
/-- AX[n].STLCNT (R188). -/
def AX.STLCNT : Nat := 0x370
/-- AX[n].STLCLR (R188). -/
def AX.STLCLR : Nat := 0x374
/-- AX[n].SBL[0]–SBL[15] (R188). -/
def AX.SBL : Nat := 0x380
/-- AX[n].YCFG (R411). -/
def AX.YCFG : Nat := 0x400
/-- AX[n].YSTAT (R411). -/
def AX.YSTAT : Nat := 0x404
/-- AX[n].YGAIN (R411). -/
def AX.YGAIN : Nat := 0x408
/-- AX[n].YDEAD (R411). -/
def AX.YDEAD : Nat := 0x40C
/-- AX[n].YBIAS (R411). -/
def AX.YBIAS : Nat := 0x410
/-- AX[n].YFMAX (R411). -/
def AX.YFMAX : Nat := 0x414
/-- AX[n].YVMAX (R411). -/
def AX.YVMAX : Nat := 0x418
/-- AX[n].YAMAX_L / _H (R411). -/
def AX.YAMAX : Nat := 0x41C
/-- AX[n].YMISS (R411). -/
def AX.YMISS : Nat := 0x424
/-- AX[n].YIN (R411). -/
def AX.YIN : Nat := 0x428
/-- AX[n].TCFG (R411). -/
def AX.TCFG : Nat := 0x440
/-- AX[n].TRETR (R411). -/
def AX.TRETR : Nat := 0x444
/-- AX[n].ITOUCH (R411). -/
def AX.ITOUCH : Nat := 0x448
/-- AX[n].FPCFG (R411). -/
def AX.FPCFG : Nat := 0x480
/-- AX[n].FPSTAT (R411). -/
def AX.FPSTAT : Nat := 0x484
/-- AX[n].FPCMD (R411). -/
def AX.FPCMD : Nat := 0x488
/-- AX[n].FPCMDSTAT (R411). -/
def AX.FPCMDSTAT : Nat := 0x48C
/-- AX[n].UNPPER (R411). -/
def AX.UNPPER : Nat := 0x490
/-- AX[n].IDCUR (R411). -/
def AX.IDCUR : Nat := 0x494
/-- AX[n].IDVMAX (R411). -/
def AX.IDVMAX : Nat := 0x498
/-- AX[n].IDVL (R411). -/
def AX.IDVL : Nat := 0x49C
/-- AX[n].FPRTOL (R411). -/
def AX.FPRTOL : Nat := 0x4A0
/-- AX[n].FPLTOL (R411). -/
def AX.FPLTOL : Nat := 0x4A4
/-- AX[n].IDRA (R411). -/
def AX.IDRA : Nat := 0x4A8
/-- AX[n].IDRB (R411). -/
def AX.IDRB : Nat := 0x4AC
/-- AX[n].IDLA (R411). -/
def AX.IDLA : Nat := 0x4B0
/-- AX[n].IDLB (R411). -/
def AX.IDLB : Nat := 0x4B4
/-- AX[n].PLUGCNT (R411). -/
def AX.PLUGCNT : Nat := 0x4B8

/-! Offsets in HB[n] and GD[n] (R219, R251). -/
/-- PCFG (R219). -/
def PU.PCFG : Nat := 0x000
/-- PSTAT (R219). -/
def PU.PSTAT : Nat := 0x004
/-- PCLR (R219). -/
def PU.PCLR : Nat := 0x008
/-- PERIOD_L / _H (R219). -/
def PU.PERIOD : Nat := 0x00C
/-- HIGH_L / _H (R219). -/
def PU.HIGH : Nat := 0x014
/-- CARRY (R219). -/
def PU.CARRY : Nat := 0x01C
/-- DTR (R219). -/
def PU.DTR : Nat := 0x020
/-- DTF (R219). -/
def PU.DTF : Nat := 0x024
/-- TE (R219). -/
def PU.TE : Nat := 0x028
/-- DTNOM (R219). -/
def PU.DTNOM : Nat := 0x02C
/-- DTMIN (R219). -/
def PU.DTMIN : Nat := 0x030
/-- DTMAX (R219). -/
def PU.DTMAX : Nat := 0x034
/-- DTMARG (R219). -/
def PU.DTMARG : Nat := 0x038
/-- DTIMIN (R219). -/
def PU.DTIMIN : Nat := 0x03C
/-- TMIN (R219). -/
def PU.TMIN : Nat := 0x040
/-- DLLCODE (R219). -/
def PU.DLLCODE : Nat := 0x044
/-- DLLLAG (R219). -/
def PU.DLLLAG : Nat := 0x048
/-- SUPCNT (R219). -/
def PU.SUPCNT : Nat := 0x04C
/-- CSATCNT (R219). -/
def PU.CSATCNT : Nat := 0x050
/-- REFN (R219). -/
def PU.REFN : Nat := 0x054
/-- REFW (R219). -/
def PU.REFW : Nat := 0x058
/-- REFCNT (R219). -/
def PU.REFCNT : Nat := 0x05C
/-- MMAX (R219). -/
def PU.MMAX : Nat := 0x060
/-- OCTHR (R251). -/
def PU.OCTHR : Nat := 0x080
/-- OCBLANK (R251). -/
def PU.OCBLANK : Nat := 0x084
/-- OCQ (R251). -/
def PU.OCQ : Nat := 0x088
/-- LSTAT (R251). -/
def PU.LSTAT : Nat := 0x08C
/-- OCCNT (R251). -/
def PU.OCCNT : Nat := 0x090
/-- GUARDCNT (R251). -/
def PU.GUARDCNT : Nat := 0x094
/-- LCLR (R251). -/
def PU.LCLR : Nat := 0x098
/-- VDSTHR (R251). -/
def PU.VDSTHR : Nat := 0x0A0
/-- GDRIVE (R251). -/
def PU.GDRIVE : Nat := 0x0A4
/-- BUVTHR (R251). -/
def PU.BUVTHR : Nat := 0x0A8

/-! Offsets in MOD[i] (R363). -/
/-- MOD[i].MCFG (R363). -/
def MOD.MCFG : Nat := 0x000
/-- MOD[i].MSTAT (R363). -/
def MOD.MSTAT : Nat := 0x004
/-- MOD[i].PAVG_L / _M / _H (R363). -/
def MOD.PAVG : Nat := 0x008
/-- MOD[i].NSMP (R363). -/
def MOD.NSMP : Nat := 0x014
/-- MOD[i].FAILCNT (R363). -/
def MOD.FAILCNT : Nat := 0x018
/-- MOD[i].SATCNT (R363). -/
def MOD.SATCNT : Nat := 0x01C

/-! Offsets in the modulator bank at 0x0D_0800 (R366). -/
/-- MOD.MCLR (R366). -/
def MODB.MCLR : Nat := 0x000
/-- MOD.MDEADA (R366). -/
def MODB.MDEADA : Nat := 0x004
/-- MOD.MDEADB (R366). -/
def MODB.MDEADB : Nat := 0x008

/-! Offsets in ADC[n] (R368). -/
/-- ADC[n].ASTAT (R368). -/
def ADC.ASTAT : Nat := 0x000
/-- ADC[n].ACMD (R368). -/
def ADC.ACMD : Nat := 0x004
/-- ADC[n].ACMDSTAT (R368). -/
def ADC.ACMDSTAT : Nat := 0x008
/-- ADC[n].SEQLEN (R368). -/
def ADC.SEQLEN : Nat := 0x00C
/-- ADC[n].SLOTS (R368). -/
def ADC.SLOTS : Nat := 0x010
/-- ADC[n].REFRES (R368). -/
def ADC.REFRES : Nat := 0x014
/-- ADC[n].REFEXP (R368). -/
def ADC.REFEXP : Nat := 0x018
/-- ADC[n].REFTOL (R368). -/
def ADC.REFTOL : Nat := 0x01C
/-- ADC[n].URES_L / _H (R368). -/
def ADC.URES : Nat := 0x020
/-- ADC[n].UPEND (R368). -/
def ADC.UPEND : Nat := 0x028
/-- ADC[n].ABORTCNT (R368). -/
def ADC.ABORTCNT : Nat := 0x02C
/-- ADC[n].SKIPCNT (R368). -/
def ADC.SKIPCNT : Nat := 0x030
/-- ADC[n].DISCCNT (R368). -/
def ADC.DISCCNT : Nat := 0x034
/-- ADC[n].ACLR (R368). -/
def ADC.ACLR : Nat := 0x038
/-- ADC[n].ENT[e] (R368). -/
def ADC.ENT : Nat := 0x040
/-- ADC[n].RES[e]_L / _H (R368). -/
def ADC.RES : Nat := 0x100
/-- ADC[0].VM (R368). -/
def ADC.VM : Nat := 0x300
/-- ADC[0].VMSTAT (R368). -/
def ADC.VMSTAT : Nat := 0x304
/-- ADC[0].FILT[j] (R368). -/
def ADC.FILT : Nat := 0x340

/-! Offsets in PRT[p] (R306). -/
/-- PRT[p].PCFG (R306). -/
def PRT.PCFG : Nat := 0x000
/-- PRT[p].PSTAT (R306). -/
def PRT.PSTAT : Nat := 0x004
/-- PRT[p].ANG (R306). -/
def PRT.ANG : Nat := 0x008
/-- PRT[p].AMP (R306). -/
def PRT.AMP : Nat := 0x00C
/-- PRT[p].QUAD (R306). -/
def PRT.QUAD : Nat := 0x010
/-- PRT[p].PHASE (R306). -/
def PRT.PHASE : Nat := 0x014
/-- PRT[p].AMIN (R306). -/
def PRT.AMIN : Nat := 0x018
/-- PRT[p].AMAX (R306). -/
def PRT.AMAX : Nat := 0x01C
/-- PRT[p].DCMAX (R306). -/
def PRT.DCMAX : Nat := 0x020
/-- PRT[p].ASIN (R306). -/
def PRT.ASIN : Nat := 0x024
/-- PRT[p].ACOS (R306). -/
def PRT.ACOS : Nat := 0x028
/-- PRT[p].MSIN (R306). -/
def PRT.MSIN : Nat := 0x02C
/-- PRT[p].MCOS (R306). -/
def PRT.MCOS : Nat := 0x030
/-- PRT[p].NSMP (R306). -/
def PRT.NSMP : Nat := 0x034
/-- PRT[p].AGE_L / _H (R306). -/
def PRT.AGE : Nat := 0x038
/-- PRT[p].BRKCNT (R306). -/
def PRT.BRKCNT : Nat := 0x040
/-- PRT[p].PCLR (R306). -/
def PRT.PCLR : Nat := 0x044

/-! Offsets in EXC[d] (R308). -/
/-- EXC[d].ECFG (R308). -/
def EXC.ECFG : Nat := 0x000
/-- EXC[d].FREQ (R308). -/
def EXC.FREQ : Nat := 0x004
/-- EXC[d].VAMP (R308). -/
def EXC.VAMP : Nat := 0x008
/-- EXC[d].ESTAT (R308). -/
def EXC.ESTAT : Nat := 0x00C
/-- EXC[d].IAMP (R308). -/
def EXC.IAMP : Nat := 0x010
/-- EXC[d].VMEAS (R308). -/
def EXC.VMEAS : Nat := 0x014
/-- EXC[d].IREF (R308). -/
def EXC.IREF : Nat := 0x018
/-- EXC[d].IPH (R308). -/
def EXC.IPH : Nat := 0x01C
/-- EXC[d].IOMIN (R308). -/
def EXC.IOMIN : Nat := 0x020
/-- EXC[d].INC_L / _H (R308). -/
def EXC.INC : Nat := 0x024
/-- EXC[d].OPCNT (R308). -/
def EXC.OPCNT : Nat := 0x02C
/-- EXC[d].SHCNT (R308). -/
def EXC.SHCNT : Nat := 0x030
/-- EXC[d].ECLR (R308). -/
def EXC.ECLR : Nat := 0x034

/-! Offsets in FRC[m] (R330). -/
/-- FRC[m].FCFG (R330). -/
def FRC.FCFG : Nat := 0x000
/-- FRC[m].FSTAT (R330). -/
def FRC.FSTAT : Nat := 0x004
/-- FRC[m].FCMD (R330). -/
def FRC.FCMD : Nat := 0x008
/-- FRC[m].FCMDSTAT (R330). -/
def FRC.FCMDSTAT : Nat := 0x00C
/-- FRC[m].FQ_L / _H (R330). -/
def FRC.FQ : Nat := 0x010
/-- FRC[m].OFS_L / _H (R330). -/
def FRC.OFS : Nat := 0x018
/-- FRC[m].FRAW (R330). -/
def FRC.FRAW : Nat := 0x020
/-- FRC[m].FORCE (R330). -/
def FRC.FORCE : Nat := 0x024
/-- FRC[m].FSENS (R330). -/
def FRC.FSENS : Nat := 0x028
/-- FRC[m].TTHR_L / _H (R330). -/
def FRC.TTHR : Nat := 0x02C
/-- FRC[m].TREL_L / _H (R330). -/
def FRC.TREL : Nat := 0x034
/-- FRC[m].TN (R330). -/
def FRC.TN : Nat := 0x03C
/-- FRC[m].DRIFT_L / _H (R330). -/
def FRC.DRIFT : Nat := 0x040
/-- FRC[m].RSTBAND_L / _H (R330). -/
def FRC.RSTBAND : Nat := 0x048
/-- FRC[m].RSTQT (R330). -/
def FRC.RSTQT : Nat := 0x050
/-- FRC[m].NSMP (R330). -/
def FRC.NSMP : Nat := 0x054
/-- FRC[m].TCNT (R330). -/
def FRC.TCNT : Nat := 0x058
/-- FRC[m].RNGCNT (R330). -/
def FRC.RNGCNT : Nat := 0x05C
/-- FRC[m].FCLR (R330). -/
def FRC.FCLR : Nat := 0x060

/-! Offsets in CMP[m] (R390). -/
/-- CMP[m].CCFG (R390). -/
def CMPC.CCFG : Nat := 0x000
/-- CMP[m].CSTAT (R390). -/
def CMPC.CSTAT : Nat := 0x004
/-- CMP[m].CTHR (R390). -/
def CMPC.CTHR : Nat := 0x008
/-- CMP[m].ECLK (R390). -/
def CMPC.ECLK : Nat := 0x00C
/-- CMP[m].ETICK (R390). -/
def CMPC.ETICK : Nat := 0x010
/-- CMP[m].ECNT (R390). -/
def CMPC.ECNT : Nat := 0x014
/-- CMP[m].CAZPER (R390). -/
def CMPC.CAZPER : Nat := 0x018
/-- CMP[m].CCLR (R390). -/
def CMPC.CCLR : Nat := 0x01C

/-! Offsets in CMP at 0x10_0000, shared words (R390). -/
/-- CMP.WSTAT (R390). -/
def CMP.WSTAT : Nat := 0x400
/-- CMP.WEVT (R390). -/
def CMP.WEVT : Nat := 0x404
/-- CMP.VMUV (R390). -/
def CMP.VMUV : Nat := 0x408
/-- CMP.VMOV (R390). -/
def CMP.VMOV : Nat := 0x40C
/-- CMP.OTTRIP (R390). -/
def CMP.OTTRIP : Nat := 0x410
/-- CMP.OTREL (R390). -/
def CMP.OTREL : Nat := 0x414
/-- CMP.TWARN (R390). -/
def CMP.TWARN : Nat := 0x418
/-- CMP.DIETRIP (R390). -/
def CMP.DIETRIP : Nat := 0x41C
/-- CMP.TJDIE (R390). -/
def CMP.TJDIE : Nat := 0x420
/-- CMP.TSTAT (R390). -/
def CMP.TSTAT : Nat := 0x424
/-- CMP.TWSTAT (R390). -/
def CMP.TWSTAT : Nat := 0x428
/-- CMP.WCFG0, WCFG1 (R390). -/
def CMP.WCFG : Nat := 0x600
/-- CMP.WKSTAT (R390). -/
def CMP.WKSTAT : Nat := 0x608
/-- CMP.STCMD (R390). -/
def CMP.STCMD : Nat := 0x700
/-- CMP.STCMDSTAT (R390). -/
def CMP.STCMDSTAT : Nat := 0x704
/-- CMP.AZTRIM[c] (R390). -/
def CMP.AZTRIM : Nat := 0x800

/-! Offsets in GPIO at 0x11_0000, shared and per-pin words (R283). -/
/-- GPIO.INA (R283). -/
def GPIO.INA : Nat := 0x000
/-- GPIO.INB (R283). -/
def GPIO.INB : Nat := 0x004
/-- GPIO.RAWA (R283). -/
def GPIO.RAWA : Nat := 0x008
/-- GPIO.RAWB (R283). -/
def GPIO.RAWB : Nat := 0x00C
/-- GPIO.UNRA (R283). -/
def GPIO.UNRA : Nat := 0x010
/-- GPIO.UNRB (R283). -/
def GPIO.UNRB : Nat := 0x014
/-- GPIO.EDGA (R283). -/
def GPIO.EDGA : Nat := 0x018
/-- GPIO.EDGB (R283). -/
def GPIO.EDGB : Nat := 0x01C
/-- GPIO.CHTA (R283). -/
def GPIO.CHTA : Nat := 0x020
/-- GPIO.CHTB (R283). -/
def GPIO.CHTB : Nat := 0x024
/-- GPIO.OUTA (R283). -/
def GPIO.OUTA : Nat := 0x028
/-- GPIO.OUTB (R283). -/
def GPIO.OUTB : Nat := 0x02C
/-- GPIO.RSTAT (R283). -/
def GPIO.RSTAT : Nat := 0x030
/-- GPIO.CHATWIN (R283). -/
def GPIO.CHATWIN : Nat := 0x034
/-- GPIO.ENSTAT (R283). -/
def GPIO.ENSTAT : Nat := 0x038
/-- GPIO.ENDISC (R283). -/
def GPIO.ENDISC : Nat := 0x03C
/-- GPIO.PSTOPMASK (R283). -/
def GPIO.PSTOPMASK : Nat := 0x040
/-- GPIO.TOW (R283). -/
def GPIO.TOW : Nat := 0x044
/-- GPIO.FUNC[p] (R283). -/
def GPIO.FUNC : Nat := 0x100
/-- GPIO.DEB[p] (R283). -/
def GPIO.DEB : Nat := 0x200
/-- GPIO.MODE[p] (R283). -/
def GPIO.MODE : Nat := 0x300

/-! Offsets in homing registers of axis n (R286). -/
/-- GPIO.HCFG[n] (R286). -/
def HM.HCFG : Nat := 0x000
/-- GPIO.HSTAT[n] (R286). -/
def HM.HSTAT : Nat := 0x004
/-- GPIO.HVFAST[n] (R286). -/
def HM.HVFAST : Nat := 0x008
/-- GPIO.HVSLOW[n] (R286). -/
def HM.HVSLOW : Nat := 0x00C
/-- GPIO.HOFS[n]_L / _M / _H (R286). -/
def HM.HOFS : Nat := 0x010
/-- GPIO.HMAXD[n]_L / _H (R286). -/
def HM.HMAXD : Nat := 0x01C
/-- GPIO.HBACK[n] (R286). -/
def HM.HBACK : Nat := 0x024
/-- GPIO.HCUR[n] (R286). -/
def HM.HCUR : Nat := 0x028
/-- GPIO.HCAPT[n]_L / _M / _H (R286). -/
def HM.HCAPT : Nat := 0x02C
/-- GPIO.HRES[n] (R286). -/
def HM.HRES : Nat := 0x038

/-- Rows of DEV at 0x00_0000 (R543, R524, R529, R255, R547). -/
def rowsDEV0 : List Row := [
  ⟨0x000, 1, 1, 4, .ro, 0x24B1, 0x0, 0x0, 16, false, 0, 65535⟩,
  ⟨0x004, 1, 1, 4, .ro, 0x1240, 0x0, 0x0, 16, false, 0, 65535⟩,
  ⟨0x008, 1, 1, 4, .ro, 0x4C34, 0x0, 0x0, 16, false, 0, 65535⟩,
  ⟨0x00C, 1, 1, 4, .fm, 0x0, 0x0, 0x1000, 16, false, 0, 65535⟩,
  ⟨0x010, 1, 1, 4, .w1c, 0x0, 0x0, 0xFE00, 16, false, 0, 65535⟩,
  ⟨0x014, 1, 1, 4, .wo, 0x0, 0x0, 0x0, 16, false, 0, 65535⟩,
  ⟨0x018, 1, 1, 4, .wo, 0x0, 0x0, 0x0, 16, false, 0, 65535⟩,
  ⟨0x020, 4, 1, 4, .ro, 0x0, 0x0, 0x0, 64, false, 0, 18446744073709551615⟩,
  ⟨0x100, 1, 1, 4, .ro, 0x0, 0x0, 0x0, 16, false, 0, 65535⟩,
  ⟨0x104, 1, 1, 4, .ro, 0x0, 0x0, 0x0, 16, false, 0, 65535⟩,
  ⟨0x108, 1, 1, 4, .ro, 0x0, 0x0, 0x0, 16, false, 0, 65535⟩,
  ⟨0x10C, 1, 1, 4, .ro, 0x0, 0x0, 0x0, 16, false, 0, 65535⟩,
  ⟨0x110, 1, 1, 4, .wo, 0x0, 0x0, 0x0, 16, false, 0, 65535⟩,
  ⟨0x140, 1, 3, 4, .w1c, 0x0, 0x0, 0xFFFF, 16, false, 0, 65535⟩,
  ⟨0x14C, 1, 1, 4, .w1c, 0x0, 0x0, 0x3FFF, 16, false, 0, 65535⟩,
  ⟨0x150, 1, 3, 4, .rw, 0x0, 0xFFFF, 0x0, 16, false, 0, 65535⟩,
  ⟨0x15C, 1, 1, 4, .rw, 0x0, 0x3FFF, 0x0, 16, false, 0, 65535⟩,
  ⟨0x160, 1, 3, 4, .w1c, 0x0, 0x0, 0xFFFF, 16, false, 0, 65535⟩,
  ⟨0x16C, 1, 1, 4, .w1c, 0x0, 0x0, 0x3FFF, 16, false, 0, 65535⟩,
  ⟨0x170, 1, 3, 4, .rw, 0x0, 0xFFFF, 0x0, 16, false, 0, 65535⟩,
  ⟨0x17C, 1, 1, 4, .rw, 0x0, 0x3FFF, 0x0, 16, false, 0, 65535⟩,
  ⟨0x200, 1, 1, 4, .fm, 0x308, 0x0, 0xC000, 16, false, 0, 65535⟩,
  ⟨0x204, 1, 4, 4, .rw, 0x4403, 0xEFFF, 0x0, 16, false, 0, 65535⟩,
  ⟨0x214, 1, 1, 4, .rw, 0xA, 0xFFFF, 0x0, 16, false, 1, 1000⟩,
  ⟨0x218, 1, 1, 4, .rw, 0x3E80, 0xFFFF, 0x0, 16, false, 2000, 16000⟩,
  ⟨0x21C, 1, 1, 4, .rw, 0xBB8, 0xFFFF, 0x0, 16, false, 0, 8000⟩,
  ⟨0x220, 1, 1, 4, .rw, 0x0, 0xFFFF, 0x0, 16, false, 0, 4000⟩,
  ⟨0x224, 1, 1, 4, .ro, 0x0, 0x0, 0x0, 16, false, 0, 65535⟩]

/-- Rows of DEV at 0x00_0000 (R543, R524, R529, R255, R547). -/
def rowsDEV1 : List Row := [
  ⟨0x228, 1, 1, 4, .rw, 0x6E, 0xFFFF, 0x0, 16, false, 60, 135⟩,
  ⟨0x22C, 1, 1, 4, .rw, 0x80, 0xFFFF, 0x0, 16, false, 32, 256⟩,
  ⟨0x230, 1, 1, 4, .ro, 0x0, 0x0, 0x0, 16, false, 0, 65535⟩,
  ⟨0x234, 1, 1, 4, .rw, 0x1000, 0xFFFF, 0x0, 16, false, 512, 32767⟩,
  ⟨0x238, 1, 1, 4, .rw, 0x10, 0xFFFF, 0x0, 16, false, 4, 255⟩,
  ⟨0x23C, 1, 1, 4, .rw, 0x10, 0xFFFF, 0x0, 16, false, 4, 32⟩,
  ⟨0x240, 1, 12, 4, .ro, 0x100, 0x0, 0x0, 16, false, 0, 65535⟩,
  ⟨0x270, 1, 10, 4, .ro, 0x0, 0x0, 0x0, 16, false, 0, 65535⟩,
  ⟨0x2A0, 1, 10, 4, .ro, 0x0, 0x0, 0x0, 16, true, -32768, 32767⟩,
  ⟨0x400, 1, 128, 4, .rw, 0x0, 0xFFFF, 0x0, 16, false, 0, 65535⟩]

/-- All rows of DEV at 0x00_0000 (R543, R524, R529, R255, R547). -/
def rowsDEV : List Row := rowsDEV0 ++ rowsDEV1

/-- Rows of TIM at 0x01_0000 (R48). -/
def rowsTIM0 : List Row := [
  ⟨0x000, 1, 1, 4, .fm, 0x0, 0x0, 0x400, 16, false, 0, 65535⟩,
  ⟨0x004, 1, 1, 4, .rw, 0x526, 0xFF7, 0x0, 16, false, 0, 65535⟩,
  ⟨0x008, 1, 1, 4, .ro, 0x0, 0x0, 0x0, 16, false, 0, 65535⟩,
  ⟨0x00C, 1, 1, 4, .ro, 0x0, 0x0, 0x0, 16, false, 0, 65535⟩,
  ⟨0x010, 1, 1, 4, .rw, 0x64, 0xFFFF, 0x0, 16, false, 0, 65535⟩,
  ⟨0x014, 1, 1, 4, .rw, 0xA, 0xFFFF, 0x0, 16, false, 0, 65535⟩,
  ⟨0x018, 1, 1, 4, .rw, 0x0, 0xFFFF, 0x0, 16, false, 0, 65535⟩,
  ⟨0x01C, 1, 1, 4, .rw, 0x0, 0xFFFF, 0x0, 16, false, 0, 65535⟩,
  ⟨0x020, 1, 1, 4, .rw, 0x0, 0xFFFF, 0x0, 16, false, 0, 65535⟩,
  ⟨0x024, 1, 1, 4, .rw, 0x0, 0xFFFF, 0x0, 16, false, 0, 65535⟩,
  ⟨0x028, 1, 1, 4, .rw, 0xF8F8, 0xFFFF, 0x0, 16, false, 0, 65535⟩,
  ⟨0x02C, 1, 1, 4, .rw, 0xD, 0xFF, 0x0, 16, false, 0, 65535⟩,
  ⟨0x030, 4, 1, 4, .ro, 0x0, 0x0, 0x0, 64, false, 0, 18446744073709551615⟩,
  ⟨0x040, 4, 1, 4, .ro, 0x0, 0x0, 0x0, 64, false, 0, 18446744073709551615⟩,
  ⟨0x050, 1, 1, 4, .ro, 0x0, 0x0, 0x0, 16, false, 0, 65535⟩,
  ⟨0x054, 3, 1, 4, .ro, 0x0, 0x0, 0x0, 48, false, 0, 281474976710655⟩,
  ⟨0x060, 2, 1, 4, .ro, 0x0, 0x0, 0x0, 32, false, 0, 4294967295⟩,
  ⟨0x068, 2, 1, 4, .ro, 0x0, 0x0, 0x0, 32, true, -2147483648, 2147483647⟩,
  ⟨0x070, 2, 1, 4, .wc, 0x0, 0xFFFFFFFF, 0x0, 32, true, -2147483648, 2147483647⟩,
  ⟨0x078, 2, 1, 4, .ro, 0x0, 0x0, 0x0, 32, true, -2147483648, 2147483647⟩,
  ⟨0x080, 3, 1, 4, .wc, 0x0, 0xFFFFFFFFFFFF, 0x0, 48, true, -140737488355328, 140737488355327⟩,
  ⟨0x090, 2, 1, 4, .ro, 0x0, 0x0, 0x0, 32, false, 0, 4294967295⟩,
  ⟨0x098, 2, 1, 4, .ro, 0x0, 0x0, 0x0, 32, false, 0, 4294967295⟩,
  ⟨0x0A0, 2, 1, 4, .ro, 0x0, 0x0, 0x0, 32, false, 0, 4294967295⟩]

/-- Rows of TIM at 0x01_0000 (R48). -/
def rowsTIM1 : List Row := [
  ⟨0x0A8, 2, 1, 4, .ro, 0x0, 0x0, 0x0, 32, false, 0, 4294967295⟩,
  ⟨0x0B0, 1, 1, 4, .ro, 0x0, 0x0, 0x0, 16, false, 0, 65535⟩,
  ⟨0x0B4, 1, 1, 4, .wo, 0x0, 0x0, 0x0, 16, false, 0, 65535⟩]

/-- All rows of TIM at 0x01_0000 (R48). -/
def rowsTIM : List Row := rowsTIM0 ++ rowsTIM1

/-- Rows of BOR at 0x02_0000 (R83). -/
def rowsBOR : List Row := [
  ⟨0x000, 1, 1, 4, .ro, 0x0, 0x0, 0x0, 16, false, 0, 65535⟩,
  ⟨0x004, 1, 1, 4, .cmd, 0x0, 0x0, 0x0, 16, false, 0, 65535⟩,
  ⟨0x008, 1, 1, 4, .ro, 0x0, 0x0, 0x0, 16, false, 0, 65535⟩,
  ⟨0x00C, 1, 1, 4, .ro, 0x0, 0x0, 0x0, 16, false, 0, 65535⟩,
  ⟨0x010, 2, 1, 4, .ro, 0x0, 0x0, 0x0, 32, false, 0, 4294967295⟩,
  ⟨0x018, 2, 1, 4, .ro, 0x0, 0x0, 0x0, 32, false, 0, 4294967295⟩,
  ⟨0x020, 1, 1, 4, .ro, 0x0, 0x0, 0x0, 16, false, 0, 65535⟩,
  ⟨0x024, 2, 1, 4, .ro, 0x0, 0x0, 0x0, 32, false, 0, 4294967295⟩,
  ⟨0x02C, 1, 1, 4, .ro, 0x0, 0x0, 0x0, 16, false, 0, 65535⟩,
  ⟨0x030, 1, 1, 4, .ro, 0x0, 0x0, 0x0, 16, false, 0, 65535⟩,
  ⟨0x034, 2, 1, 4, .ro, 0x0, 0x0, 0x0, 32, false, 0, 4294967295⟩,
  ⟨0x400, 1, 256, 4, .wo, 0x0, 0x0, 0x0, 16, false, 0, 65535⟩]

/-- Rows of WLD at 0x03_0000 (R476). -/
def rowsWLD : List Row := [
  ⟨0x000, 1, 1, 4, .ro, 0x1000, 0x0, 0x0, 16, false, 0, 65535⟩,
  ⟨0x004, 1, 1, 4, .ro, 0x0, 0x0, 0x0, 16, false, 0, 65535⟩,
  ⟨0x008, 1, 1, 4, .cmd, 0x0, 0x0, 0x0, 16, false, 0, 65535⟩,
  ⟨0x00C, 1, 1, 4, .ro, 0x0, 0x0, 0x0, 16, false, 0, 65535⟩,
  ⟨0x010, 1, 4, 4, .ro, 0x0, 0x0, 0x0, 16, false, 0, 65535⟩,
  ⟨0x020, 1, 1, 4, .ro, 0x0, 0x0, 0x0, 16, false, 0, 65535⟩,
  ⟨0x030, 1, 4, 4, .rw, 0x0, 0xFFFF, 0x0, 16, false, 0, 65535⟩,
  ⟨0x040, 1, 1, 4, .rw, 0x0, 0xFFFF, 0x0, 16, false, 0, 65535⟩,
  ⟨0x050, 1, 1, 4, .ro, 0x0, 0x0, 0x0, 16, false, 0, 65535⟩,
  ⟨0x054, 1, 1, 4, .ro, 0x0, 0x0, 0x0, 16, false, 0, 65535⟩,
  ⟨0x060, 1, 10, 4, .ro, 0x0, 0x0, 0x0, 16, false, 0, 65535⟩,
  ⟨0x088, 1, 1, 4, .ro, 0x0, 0x0, 0x0, 16, false, 0, 65535⟩,
  ⟨0x08C, 1, 1, 4, .wo, 0x0, 0x0, 0x0, 16, false, 0, 65535⟩,
  ⟨0x090, 1, 1, 4, .ro, 0x0, 0x0, 0x0, 16, false, 0, 65535⟩,
  ⟨0x0A0, 1, 8, 4, .wo, 0x0, 0x0, 0x0, 16, false, 0, 65535⟩]

/-- Rows of FLT at 0x04_0000 (R505). -/
def rowsFLT : List Row := [
  ⟨0x000, 1, 1, 4, .fm, 0x0, 0x0, 0xFC00, 16, false, 0, 65535⟩,
  ⟨0x004, 1, 1, 4, .cmd, 0x0, 0x0, 0x0, 16, false, 0, 65535⟩,
  ⟨0x008, 1, 1, 4, .ro, 0x0, 0x0, 0x0, 16, false, 0, 65535⟩,
  ⟨0x00C, 1, 1, 4, .ro, 0x0, 0x0, 0x0, 16, false, 0, 65535⟩,
  ⟨0x010, 1, 1, 4, .rw, 0x0, 0x1F, 0x0, 16, false, 0, 65535⟩,
  ⟨0x014, 2, 1, 4, .ro, 0x0, 0x0, 0x0, 32, false, 0, 4294967295⟩,
  ⟨0x01C, 1, 1, 4, .ro, 0x0, 0x0, 0x0, 16, false, 0, 65535⟩,
  ⟨0x020, 1, 1, 4, .ro, 0x0, 0x0, 0x0, 16, false, 0, 65535⟩,
  ⟨0x024, 1, 7, 4, .ro, 0x0, 0x0, 0x0, 16, false, 0, 65535⟩,
  ⟨0x040, 1, 1, 4, .rw, 0x0, 0xFFF, 0x0, 16, false, 0, 65535⟩,
  ⟨0x044, 1, 1, 4, .ro, 0x0, 0x0, 0x0, 16, false, 0, 65535⟩,
  ⟨0x048, 1, 1, 4, .ro, 0x0, 0x0, 0x0, 16, false, 0, 65535⟩,
  ⟨0x04C, 2, 1, 4, .rw2, 0x0, 0xFFFFFFFF, 0x0, 32, false, 0, 16777215⟩,
  ⟨0x054, 1, 1, 4, .rw, 0x0, 0xF, 0x0, 16, false, 0, 65535⟩,
  ⟨0x058, 1, 1, 4, .ro, 0x0, 0x0, 0x0, 16, false, 0, 65535⟩,
  ⟨0x05C, 1, 1, 4, .wo, 0x0, 0x0, 0x0, 16, false, 0, 65535⟩,
  ⟨0x060, 1, 1, 4, .ro, 0x0, 0x0, 0x0, 16, false, 0, 65535⟩,
  ⟨0x064, 1, 1, 4, .rw, 0x0, 0xFFFF, 0x0, 16, false, 0, 65535⟩,
  ⟨0x068, 1, 1, 4, .rw, 0x0, 0xFFFF, 0x0, 16, false, 0, 65535⟩,
  ⟨0x06C, 1, 1, 4, .rw, 0x0, 0xFFFF, 0x0, 16, false, 0, 65535⟩,
  ⟨0x070, 1, 1, 4, .rw, 0x1D, 0xFFFF, 0x0, 16, false, 0, 65535⟩,
  ⟨0x074, 2, 1, 4, .rw2, 0x0, 0xFFFFFFFF, 0x0, 32, false, 0, 4294967295⟩,
  ⟨0x200, 2, 16, 8, .ro, 0x0, 0x0, 0x0, 32, false, 0, 4294967295⟩,
  ⟨0x440, 1, 176, 4, .rw, 0x0, 0x7, 0x0, 16, false, 0, 65535⟩]

/-- Rows of NET at 0x05_0000 (R449), shared words. -/
def rowsNET0 : List Row := [
  ⟨0x000, 1, 1, 4, .fm, 0x0, 0x0, 0xE00, 16, false, 0, 65535⟩,
  ⟨0x004, 1, 1, 4, .cmd, 0x0, 0x0, 0x0, 16, false, 0, 65535⟩,
  ⟨0x008, 1, 1, 4, .ro, 0x0, 0x0, 0x0, 16, false, 0, 65535⟩,
  ⟨0x00C, 1, 1, 4, .ro, 0x0, 0x0, 0x0, 16, false, 0, 65535⟩,
  ⟨0x010, 1, 1, 4, .rw, 0x0, 0xFFFF, 0x0, 16, false, 0, 32766⟩,
  ⟨0x014, 1, 1, 4, .ro, 0x88B5, 0x0, 0x0, 16, false, 0, 65535⟩,
  ⟨0x018, 1, 1, 4, .ro, 0x0, 0x0, 0x0, 16, false, 0, 65535⟩,
  ⟨0x01C, 1, 1, 4, .ro, 0x406, 0x0, 0x0, 16, false, 0, 65535⟩,
  ⟨0x020, 3, 1, 4, .ro, 0x0, 0x0, 0x0, 48, false, 0, 281474976710655⟩,
  ⟨0x02C, 1, 1, 4, .rw, 0x0, 0x1, 0x0, 16, false, 0, 65535⟩,
  ⟨0x030, 1, 1, 4, .rw, 0x40, 0xFFFF, 0x0, 16, false, 1, 255⟩,
  ⟨0x034, 1, 1, 4, .rw, 0x14, 0xFFFF, 0x0, 16, false, 1, 1000⟩,
  ⟨0x038, 1, 1, 4, .rw, 0x0, 0xFFFF, 0x0, 16, false, 0, 65535⟩,
  ⟨0x03C, 1, 1, 4, .rw, 0x3E8, 0xFFFF, 0x0, 16, false, 10, 60000⟩,
  ⟨0x040, 1, 4, 4, .rw, 0x0, 0xFFFF, 0x0, 16, false, 0, 65535⟩,
  ⟨0x050, 1, 1, 4, .wo, 0x0, 0x0, 0x0, 16, false, 0, 65535⟩,
  ⟨0x054, 1, 1, 4, .rw, 0x0, 0xFFFF, 0x0, 16, false, 0, 1023⟩,
  ⟨0x058, 2, 1, 4, .rw2, 0x0, 0xFFFFFFFF, 0x0, 32, false, 0, 4294967295⟩,
  ⟨0x060, 1, 1, 4, .rw, 0x0, 0x1F03, 0x0, 16, false, 0, 65535⟩,
  ⟨0x064, 1, 1, 4, .ro, 0x0, 0x0, 0x0, 16, false, 0, 65535⟩,
  ⟨0x068, 1, 1, 4, .ro, 0x0, 0x0, 0x0, 16, false, 0, 65535⟩,
  ⟨0x06C, 1, 1, 4, .ro, 0x0, 0x0, 0x0, 16, false, 0, 65535⟩,
  ⟨0x070, 1, 1, 4, .ro, 0x0, 0x0, 0x0, 16, false, 0, 65535⟩,
  ⟨0x074, 1, 1, 4, .ro, 0x0, 0x0, 0x0, 16, false, 0, 65535⟩]

/-- Rows of NET at 0x05_0000 (R449), shared words. -/
def rowsNET1 : List Row := [
  ⟨0x078, 1, 1, 4, .ro, 0x0, 0x0, 0x0, 16, false, 0, 65535⟩,
  ⟨0x07C, 1, 1, 4, .wo, 0x0, 0x0, 0x0, 16, false, 0, 65535⟩,
  ⟨0x080, 1, 1, 4, .ro, 0x0, 0x0, 0x0, 16, false, 0, 65535⟩]

/-- All rows of NET at 0x05_0000 (R449), shared words. -/
def rowsNET : List Row := rowsNET0 ++ rowsNET1

/-- Rows of NET port n (R449). -/
def rowsNETP : List Row := [
  ⟨0x000, 1, 1, 4, .rw, 0xA000, 0xE000, 0x0, 16, false, 0, 65535⟩,
  ⟨0x004, 1, 1, 4, .fm, 0x4000, 0x0, 0x440, 16, false, 0, 65535⟩,
  ⟨0x008, 1, 1, 4, .rw, 0x8800, 0x8F00, 0x0, 16, false, 0, 65535⟩,
  ⟨0x00C, 1, 1, 4, .rw, 0x0, 0xFFFF, 0x0, 16, true, -31, 31⟩,
  ⟨0x010, 1, 1, 4, .rw, 0x0, 0xFFFF, 0x0, 16, true, -31, 31⟩,
  ⟨0x014, 2, 1, 4, .ro, 0x0, 0x0, 0x0, 32, false, 0, 4294967295⟩,
  ⟨0x01C, 2, 1, 4, .ro, 0x0, 0x0, 0x0, 32, false, 0, 4294967295⟩,
  ⟨0x024, 1, 1, 4, .ro, 0x0, 0x0, 0x0, 16, false, 0, 65535⟩,
  ⟨0x028, 1, 1, 4, .ro, 0x0, 0x0, 0x0, 16, false, 0, 65535⟩,
  ⟨0x02C, 1, 1, 4, .ro, 0x0, 0x0, 0x0, 16, false, 0, 65535⟩,
  ⟨0x030, 1, 1, 4, .ro, 0x0, 0x0, 0x0, 16, false, 0, 65535⟩,
  ⟨0x034, 1, 1, 4, .ro, 0x0, 0x0, 0x0, 16, false, 0, 65535⟩,
  ⟨0x038, 1, 1, 4, .ro, 0x0, 0x0, 0x0, 16, false, 0, 65535⟩,
  ⟨0x03C, 1, 1, 4, .wo, 0x0, 0x0, 0x0, 16, false, 0, 65535⟩]

/-- Rows of NET session s (R449). -/
def rowsNETS : List Row := [
  ⟨0x000, 1, 1, 4, .ro, 0x0, 0x0, 0x0, 16, false, 0, 65535⟩,
  ⟨0x004, 2, 1, 4, .ro, 0x0, 0x0, 0x0, 32, false, 0, 4294967295⟩,
  ⟨0x00C, 1, 1, 4, .ro, 0x0, 0x0, 0x0, 16, false, 0, 65535⟩,
  ⟨0x010, 1, 1, 4, .ro, 0x0, 0x0, 0x0, 16, false, 0, 65535⟩]

/-- Rows of NET.UOBJ[u] (R449). -/
def rowsUOBJ : List Row := [
  ⟨0x000, 1, 8, 4, .rw, 0x0, 0xFFFF, 0x0, 16, false, 0, 65535⟩]

/-- Rows of NET.SUB[k] (R449). -/
def rowsSUB : List Row := [
  ⟨0x000, 1, 1, 4, .ro, 0x0, 0x0, 0x0, 16, false, 0, 65535⟩,
  ⟨0x004, 1, 1, 4, .ro, 0x0, 0x0, 0x0, 16, false, 0, 65535⟩,
  ⟨0x008, 1, 1, 4, .ro, 0x0, 0x0, 0x0, 16, false, 0, 65535⟩,
  ⟨0x00C, 1, 1, 4, .fm, 0x0, 0x0, 0x2000, 16, false, 0, 65535⟩,
  ⟨0x010, 3, 1, 4, .ro, 0x0, 0x0, 0x0, 48, true, -140737488355328, 140737488355327⟩,
  ⟨0x01C, 1, 1, 4, .ro, 0x0, 0x0, 0x0, 16, false, 0, 65535⟩]

/-- Rows of AX[n] (R119, R157, R188, R411). -/
def rowsAX0 : List Row := [
  ⟨0x000, 1, 1, 4, .ro, 0x0, 0x0, 0x0, 16, false, 0, 65535⟩,
  ⟨0x004, 1, 1, 4, .cmd, 0x0, 0x0, 0x0, 16, false, 0, 65535⟩,
  ⟨0x008, 1, 1, 4, .ro, 0x0, 0x0, 0x0, 16, false, 0, 65535⟩,
  ⟨0x00C, 1, 1, 4, .fm, 0x0, 0x0, 0x1F8, 16, false, 0, 65535⟩,
  ⟨0x010, 1, 1, 4, .ro, 0x0, 0x0, 0x0, 16, false, 0, 65535⟩,
  ⟨0x014, 1, 1, 4, .rw, 0x8, 0x1F, 0x0, 16, false, 0, 65535⟩,
  ⟨0x018, 1, 1, 4, .rw, 0x0, 0xC3FF, 0x0, 16, false, 0, 65535⟩,
  ⟨0x01C, 1, 1, 4, .rw, 0x1F1F, 0x1F1F, 0x0, 16, false, 0, 65535⟩,
  ⟨0x020, 3, 1, 4, .ro, 0x0, 0x0, 0x0, 48, true, -140737488355328, 140737488355327⟩,
  ⟨0x02C, 3, 1, 4, .wc, 0x0, 0xFFFFFFFFFFFF, 0x0, 48, true, -140737488355328, 140737488355327⟩,
  ⟨0x038, 3, 1, 4, .ro, 0x0, 0x0, 0x0, 40, true, -549755813888, 549755813887⟩,
  ⟨0x044, 3, 1, 4, .ro, 0x0, 0x0, 0x0, 33, true, -4294967296, 4294967295⟩,
  ⟨0x050, 3, 1, 4, .wc, 0x0, 0xFFFFFFFFFFFF, 0x0, 48, true, -140737488355328, 140737488355327⟩,
  ⟨0x05C, 3, 1, 4, .ro, 0x0, 0x0, 0x0, 48, true, -140737488355328, 140737488355327⟩,
  ⟨0x068, 3, 1, 4, .wc, 0x0, 0xFFFFFFFFFF, 0x0, 40, true, -549755813888, 549755813887⟩,
  ⟨0x074, 3, 1, 4, .wc, 0x0, 0xFFFFFFFFFFFF, 0x0, 48, false, 1, 549755813887⟩,
  ⟨0x080, 2, 1, 4, .wc, 0x0, 0xFFFFFFFF, 0x0, 32, false, 0, 4294967295⟩,
  ⟨0x088, 2, 1, 4, .wc, 0x0, 0xFFFFFFFF, 0x0, 32, false, 0, 4294967295⟩,
  ⟨0x090, 2, 1, 4, .wc, 0x0, 0xFFFFFFFF, 0x0, 32, false, 0, 4294967295⟩,
  ⟨0x098, 2, 1, 4, .wc, 0x0, 0xFFFFFFFF, 0x0, 32, false, 0, 4294967295⟩,
  ⟨0x0A0, 3, 1, 4, .wc, 0x0, 0xFFFFFFFFFFFF, 0x0, 48, true, -140737488355328, 140737488355327⟩,
  ⟨0x0AC, 3, 1, 4, .wc, 0x0, 0xFFFFFFFFFFFF, 0x0, 48, true, -140737488355328, 140737488355327⟩,
  ⟨0x0B8, 2, 1, 4, .wc, 0x0, 0xFFFFFFFF, 0x0, 32, false, 0, 4294967295⟩,
  ⟨0x0C0, 2, 1, 4, .ro, 0x0, 0x0, 0x0, 32, false, 0, 4294967295⟩]

/-- Rows of AX[n] (R119, R157, R188, R411). -/
def rowsAX1 : List Row := [
  ⟨0x0C8, 2, 1, 4, .wc, 0x0, 0xFFFFFFFF, 0x0, 32, false, 0, 4294967295⟩,
  ⟨0x0D0, 2, 1, 4, .ro, 0x0, 0x0, 0x0, 32, true, -2147483648, 2147483647⟩,
  ⟨0x0D8, 2, 1, 4, .wc, 0x1, 0xFFFFFFFF, 0x0, 32, true, -2147483648, 2147483647⟩,
  ⟨0x0E0, 2, 1, 4, .wc, 0x1, 0xFFFFFFFF, 0x0, 32, false, 1, 4294967295⟩,
  ⟨0x0E8, 2, 1, 4, .wc, 0x0, 0xFFFFFFFF, 0x0, 32, false, 0, 131069⟩,
  ⟨0x0F0, 2, 1, 4, .ro, 0x0, 0x0, 0x0, 32, false, 0, 4294967295⟩,
  ⟨0x0F8, 2, 1, 4, .wc, 0x0, 0xFFFFFFFF, 0x0, 32, false, 0, 4294967295⟩,
  ⟨0x100, 2, 1, 4, .ro, 0x0, 0x0, 0x0, 32, false, 0, 4294967295⟩,
  ⟨0x108, 1, 1, 4, .rw, 0x100, 0xFFFF, 0x0, 16, false, 1, 65535⟩,
  ⟨0x10C, 1, 1, 4, .rw, 0x14, 0xFFFF, 0x0, 16, false, 1, 255⟩,
  ⟨0x110, 1, 1, 4, .rw, 0x190, 0xFFFF, 0x0, 16, false, 4, 65535⟩,
  ⟨0x114, 1, 1, 4, .rw, 0x190, 0xFFFF, 0x0, 16, false, 0, 65535⟩,
  ⟨0x118, 1, 1, 4, .ro, 0x0, 0x0, 0x0, 16, false, 0, 65535⟩,
  ⟨0x200, 1, 1, 4, .rw, 0x22, 0xFBA, 0x0, 16, false, 0, 65535⟩,
  ⟨0x204, 1, 1, 4, .fm, 0x0, 0x0, 0xC250, 16, false, 0, 65535⟩,
  ⟨0x208, 1, 1, 4, .rw, 0x0, 0xFFFF, 0x0, 16, false, 0, 32767⟩,
  ⟨0x20C, 1, 1, 4, .rw, 0x0, 0xFFFF, 0x0, 16, false, 0, 32767⟩,
  ⟨0x210, 1, 1, 4, .rw, 0x1388, 0xFFFF, 0x0, 16, false, 0, 65535⟩,
  ⟨0x214, 1, 1, 4, .rw, 0xFA, 0xFFFF, 0x0, 16, false, 0, 65535⟩,
  ⟨0x218, 1, 1, 4, .rw, 0x7FFF, 0xFFFF, 0x0, 16, false, 0, 32767⟩,
  ⟨0x21C, 1, 1, 4, .ro, 0x0, 0x0, 0x0, 16, false, 0, 65535⟩,
  ⟨0x220, 1, 1, 4, .rw, 0x0, 0xFFFF, 0x0, 16, true, -32768, 32767⟩,
  ⟨0x224, 1, 1, 4, .rw, 0x0, 0xFFFF, 0x0, 16, false, 0, 65535⟩,
  ⟨0x228, 1, 1, 4, .rw, 0x0, 0xFFFF, 0x0, 16, false, 0, 65535⟩]

/-- Rows of AX[n] (R119, R157, R188, R411). -/
def rowsAX2 : List Row := [
  ⟨0x22C, 1, 1, 4, .rw, 0x3E8, 0xFFFF, 0x0, 16, false, 0, 65535⟩,
  ⟨0x230, 1, 1, 4, .rw, 0x0, 0xFFFF, 0x0, 16, false, 0, 65535⟩,
  ⟨0x234, 1, 1, 4, .rw, 0x0, 0xFFFF, 0x0, 16, false, 0, 65535⟩,
  ⟨0x238, 1, 1, 4, .ro, 0x0, 0x0, 0x0, 16, true, -32768, 32767⟩,
  ⟨0x23C, 1, 1, 4, .ro, 0x0, 0x0, 0x0, 16, true, -32768, 32767⟩,
  ⟨0x240, 1, 1, 4, .ro, 0x0, 0x0, 0x0, 16, true, -32768, 32767⟩,
  ⟨0x244, 1, 1, 4, .ro, 0x0, 0x0, 0x0, 16, true, -32768, 32767⟩,
  ⟨0x248, 1, 1, 4, .ro, 0x0, 0x0, 0x0, 16, true, -32768, 32767⟩,
  ⟨0x24C, 1, 1, 4, .ro, 0x0, 0x0, 0x0, 16, true, -32768, 32767⟩,
  ⟨0x250, 1, 1, 4, .ro, 0x0, 0x0, 0x0, 16, true, -32768, 32767⟩,
  ⟨0x254, 1, 1, 4, .ro, 0x0, 0x0, 0x0, 16, true, -32768, 32767⟩,
  ⟨0x258, 1, 1, 4, .ro, 0x0, 0x0, 0x0, 16, false, 0, 65535⟩,
  ⟨0x25C, 1, 1, 4, .ro, 0x0, 0x0, 0x0, 16, true, -32768, 32767⟩,
  ⟨0x260, 1, 1, 4, .rw, 0x0, 0xFFFF, 0x0, 16, false, 0, 65535⟩,
  ⟨0x264, 1, 1, 4, .rw, 0x0, 0xFFFF, 0x0, 16, false, 0, 65535⟩,
  ⟨0x268, 1, 1, 4, .rw, 0x0, 0xFFFF, 0x0, 16, false, 0, 65535⟩,
  ⟨0x26C, 1, 1, 4, .rw, 0x0, 0xFFFF, 0x0, 16, false, 0, 65535⟩,
  ⟨0x270, 1, 1, 4, .rw, 0x0, 0xFFFF, 0x0, 16, false, 0, 65535⟩,
  ⟨0x274, 1, 1, 4, .rw, 0x0, 0xFFFF, 0x0, 16, false, 0, 65535⟩,
  ⟨0x278, 1, 1, 4, .rw, 0xAA10, 0xFFFF, 0x0, 16, false, 0, 65535⟩,
  ⟨0x27C, 1, 1, 4, .rw, 0x61A8, 0xFFFF, 0x0, 16, false, 0, 65535⟩,
  ⟨0x280, 1, 1, 4, .rw, 0x400, 0xFFFF, 0x0, 16, false, 0, 8192⟩,
  ⟨0x284, 1, 1, 4, .rw, 0x800, 0xF00, 0x0, 16, false, 0, 65535⟩,
  ⟨0x288, 1, 1, 4, .rw, 0x8, 0xFFFF, 0x0, 16, false, 0, 65535⟩]

/-- Rows of AX[n] (R119, R157, R188, R411). -/
def rowsAX3 : List Row := [
  ⟨0x28C, 1, 1, 4, .rw, 0x190, 0xFFFF, 0x0, 16, false, 0, 65535⟩,
  ⟨0x290, 1, 1, 4, .rw, 0x200, 0xFFFF, 0x0, 16, false, 0, 4096⟩,
  ⟨0x294, 1, 1, 4, .rw, 0x0, 0xFFFF, 0x0, 16, true, -32768, 32767⟩,
  ⟨0x298, 1, 1, 4, .rw, 0x0, 0xFFFF, 0x0, 16, true, -32768, 32767⟩,
  ⟨0x29C, 1, 1, 4, .rw, 0x0, 0xFFFF, 0x0, 16, true, -32768, 32767⟩,
  ⟨0x2A0, 1, 1, 4, .rw, 0x0, 0xFFFF, 0x0, 16, true, -32768, 32767⟩,
  ⟨0x2A4, 1, 1, 4, .rw, 0x0, 0xFFFF, 0x0, 16, true, -32768, 32767⟩,
  ⟨0x2A8, 1, 1, 4, .rw, 0x0, 0xFFFF, 0x0, 16, true, -32768, 32767⟩,
  ⟨0x300, 1, 1, 4, .rw, 0x0, 0xF0C, 0x0, 16, false, 0, 65535⟩,
  ⟨0x304, 1, 1, 4, .fm, 0x0, 0x0, 0xF0, 16, false, 0, 65535⟩,
  ⟨0x308, 1, 1, 4, .ro, 0x0, 0x0, 0x0, 16, false, 0, 65535⟩,
  ⟨0x30C, 2, 1, 4, .ro, 0x0, 0x0, 0x0, 32, true, -2147483648, 2147483647⟩,
  ⟨0x314, 1, 1, 4, .ro, 0x0, 0x0, 0x0, 16, true, -32768, 32767⟩,
  ⟨0x318, 1, 1, 4, .ro, 0x0, 0x0, 0x0, 16, true, -32768, 32767⟩,
  ⟨0x31C, 1, 1, 4, .rw, 0x0, 0xFFFF, 0x0, 16, false, 0, 65535⟩,
  ⟨0x320, 1, 1, 4, .rw, 0x40, 0xFFFF, 0x0, 16, false, 1, 65535⟩,
  ⟨0x324, 1, 1, 4, .rw, 0xC8, 0xFFFF, 0x0, 16, false, 10, 65535⟩,
  ⟨0x328, 1, 1, 4, .rw, 0x20, 0xFFFF, 0x0, 16, false, 1, 1024⟩,
  ⟨0x32C, 1, 1, 4, .rw, 0x1, 0xFFFF, 0x0, 16, false, 1, 255⟩,
  ⟨0x330, 1, 1, 4, .rw, 0x0, 0xFFFF, 0x0, 16, false, 0, 65535⟩,
  ⟨0x334, 1, 1, 4, .rw, 0x40, 0xFFFF, 0x0, 16, false, 1, 65535⟩,
  ⟨0x338, 1, 1, 4, .ro, 0x0, 0x0, 0x0, 16, true, -32768, 32767⟩,
  ⟨0x33C, 1, 1, 4, .ro, 0x0, 0x0, 0x0, 16, true, -32768, 32767⟩,
  ⟨0x340, 1, 1, 4, .rw, 0x1800, 0xFFFF, 0x0, 16, false, 256, 16384⟩]

/-- Rows of AX[n] (R119, R157, R188, R411). -/
def rowsAX4 : List Row := [
  ⟨0x344, 1, 1, 4, .rw, 0x1F4, 0xFFFF, 0x0, 16, false, 12, 65535⟩,
  ⟨0x348, 1, 1, 4, .rw, 0x33, 0xFFFF, 0x0, 16, false, 1, 1023⟩,
  ⟨0x34C, 1, 1, 4, .rw, 0x100, 0xFFFF, 0x0, 16, false, 64, 1024⟩,
  ⟨0x350, 1, 1, 4, .ro, 0x0, 0x0, 0x0, 16, false, 0, 65535⟩,
  ⟨0x354, 1, 1, 4, .rw, 0x8220, 0xFFF0, 0x0, 16, false, 0, 65535⟩,
  ⟨0x358, 1, 1, 4, .fm, 0x0, 0x0, 0xC800, 16, false, 0, 65535⟩,
  ⟨0x35C, 1, 1, 4, .rw, 0x600, 0xFFFF, 0x0, 16, false, 64, 8191⟩,
  ⟨0x360, 2, 1, 4, .wc, 0x40000, 0xFFFFFFFF, 0x0, 32, false, 0, 4294967295⟩,
  ⟨0x368, 1, 1, 4, .rw, 0x10, 0xFFFF, 0x0, 16, false, 1, 65535⟩,
  ⟨0x36C, 1, 1, 4, .rw, 0x10, 0xFFFF, 0x0, 16, false, 1, 64⟩,
  ⟨0x370, 1, 1, 4, .ro, 0x0, 0x0, 0x0, 16, false, 0, 65535⟩,
  ⟨0x374, 1, 1, 4, .wo, 0x0, 0x0, 0x0, 16, false, 0, 65535⟩,
  ⟨0x380, 1, 16, 4, .rw, 0x0, 0xFFFF, 0x0, 16, true, -32768, 32767⟩,
  ⟨0x400, 1, 1, 4, .rw, 0x6800, 0xFC00, 0x0, 16, false, 0, 65535⟩,
  ⟨0x404, 1, 1, 4, .fm, 0x0, 0x0, 0x3000, 16, false, 0, 65535⟩,
  ⟨0x408, 1, 1, 4, .rw, 0x0, 0xFFFF, 0x0, 16, false, 0, 65535⟩,
  ⟨0x40C, 1, 1, 4, .rw, 0xC8, 0xFFFF, 0x0, 16, false, 0, 32767⟩,
  ⟨0x410, 1, 1, 4, .rw, 0x0, 0xFFFF, 0x0, 16, true, -32768, 32767⟩,
  ⟨0x414, 1, 1, 4, .rw, 0x7FFF, 0xFFFF, 0x0, 16, false, 1, 32767⟩,
  ⟨0x418, 1, 1, 4, .rw, 0x10, 0xFFFF, 0x0, 16, false, 1, 65535⟩,
  ⟨0x41C, 2, 1, 4, .wc, 0x0, 0xFFFFFFFF, 0x0, 32, false, 0, 4294967295⟩,
  ⟨0x424, 1, 1, 4, .rw, 0x2, 0xFFFF, 0x0, 16, false, 1, 16⟩,
  ⟨0x428, 1, 1, 4, .ro, 0x0, 0x0, 0x0, 16, true, -32768, 32767⟩,
  ⟨0x440, 1, 1, 4, .rw, 0x0, 0x3, 0x0, 16, false, 0, 65535⟩]

/-- Rows of AX[n] (R119, R157, R188, R411). -/
def rowsAX5 : List Row := [
  ⟨0x444, 1, 1, 4, .rw, 0x800, 0xFFFF, 0x0, 16, false, 0, 65535⟩,
  ⟨0x448, 1, 1, 4, .rw, 0x2000, 0xFFFF, 0x0, 16, false, 0, 32767⟩,
  ⟨0x480, 1, 1, 4, .rw, 0xF, 0xF, 0x0, 16, false, 0, 65535⟩,
  ⟨0x484, 1, 1, 4, .fm, 0x0, 0x0, 0xC000, 16, false, 0, 65535⟩,
  ⟨0x488, 1, 1, 4, .cmd, 0x0, 0x0, 0x0, 16, false, 0, 65535⟩,
  ⟨0x48C, 1, 1, 4, .ro, 0x0, 0x0, 0x0, 16, false, 0, 65535⟩,
  ⟨0x490, 1, 1, 4, .rw, 0x9C4, 0xFFFF, 0x0, 16, false, 250, 65535⟩,
  ⟨0x494, 1, 1, 4, .rw, 0x2000, 0xFFFF, 0x0, 16, false, 1024, 32767⟩,
  ⟨0x498, 1, 1, 4, .rw, 0x1800, 0xFFFF, 0x0, 16, false, 512, 16384⟩,
  ⟨0x49C, 1, 1, 4, .rw, 0xC00, 0xFFFF, 0x0, 16, false, 256, 16384⟩,
  ⟨0x4A0, 1, 1, 4, .rw, 0x40, 0xFFFF, 0x0, 16, false, 8, 255⟩,
  ⟨0x4A4, 1, 1, 4, .rw, 0x40, 0xFFFF, 0x0, 16, false, 8, 255⟩,
  ⟨0x4A8, 1, 1, 4, .ro, 0x0, 0x0, 0x0, 16, false, 0, 65535⟩,
  ⟨0x4AC, 1, 1, 4, .ro, 0x0, 0x0, 0x0, 16, false, 0, 65535⟩,
  ⟨0x4B0, 1, 1, 4, .ro, 0x0, 0x0, 0x0, 16, false, 0, 65535⟩,
  ⟨0x4B4, 1, 1, 4, .ro, 0x0, 0x0, 0x0, 16, false, 0, 65535⟩,
  ⟨0x4B8, 1, 1, 4, .ro, 0x0, 0x0, 0x0, 16, false, 0, 65535⟩]

/-- All rows of AX[n] (R119, R157, R188, R411). -/
def rowsAX : List Row := rowsAX0 ++ rowsAX1 ++ rowsAX2 ++ rowsAX3 ++ rowsAX4 ++ rowsAX5

/-- Rows of HB[n] and GD[n] (R219, R251). -/
def rowsPU0 : List Row := [
  ⟨0x000, 1, 1, 4, .rw, 0xE6, 0x9FFF, 0x0, 16, false, 0, 65535⟩,
  ⟨0x004, 1, 1, 4, .fm, 0x15, 0x0, 0xF000, 16, false, 0, 65535⟩,
  ⟨0x008, 1, 1, 4, .wo, 0x0, 0x0, 0x0, 16, false, 0, 65535⟩,
  ⟨0x00C, 2, 1, 4, .ro, 0x0, 0x0, 0x0, 32, false, 0, 4294967295⟩,
  ⟨0x014, 2, 1, 4, .ro, 0x0, 0x0, 0x0, 32, false, 0, 4294967295⟩,
  ⟨0x01C, 1, 1, 4, .ro, 0x0, 0x0, 0x0, 16, true, -32768, 32767⟩,
  ⟨0x020, 1, 1, 4, .rw, 0x500, 0xFFFF, 0x0, 16, false, 0, 65535⟩,
  ⟨0x024, 1, 1, 4, .rw, 0x500, 0xFFFF, 0x0, 16, false, 0, 65535⟩,
  ⟨0x028, 1, 1, 4, .rw, 0x500, 0xFFFF, 0x0, 16, true, -32768, 32767⟩,
  ⟨0x02C, 1, 1, 4, .rw, 0x500, 0xFFFF, 0x0, 16, false, 0, 65535⟩,
  ⟨0x030, 1, 1, 4, .rw, 0x80, 0xFFFF, 0x0, 16, false, 128, 6400⟩,
  ⟨0x034, 1, 1, 4, .rw, 0x1900, 0xFFFF, 0x0, 16, false, 128, 6400⟩,
  ⟨0x038, 1, 1, 4, .rw, 0x40, 0xFFFF, 0x0, 16, false, 0, 1280⟩,
  ⟨0x03C, 1, 1, 4, .rw, 0x800, 0xFFFF, 0x0, 16, false, 512, 32767⟩,
  ⟨0x040, 1, 1, 4, .rw, 0x280, 0xFFFF, 0x0, 16, false, 640, 6400⟩,
  ⟨0x044, 1, 1, 4, .rw, 0x200, 0xFFFF, 0x0, 16, false, 0, 1023⟩,
  ⟨0x048, 1, 1, 4, .ro, 0x0, 0x0, 0x0, 16, false, 0, 65535⟩,
  ⟨0x04C, 1, 1, 4, .ro, 0x0, 0x0, 0x0, 16, false, 0, 65535⟩,
  ⟨0x050, 1, 1, 4, .ro, 0x0, 0x0, 0x0, 16, false, 0, 65535⟩,
  ⟨0x054, 1, 1, 4, .rw, 0x8, 0xFFFF, 0x0, 16, false, 1, 255⟩,
  ⟨0x058, 1, 1, 4, .rw, 0xF00, 0xFFFF, 0x0, 16, false, 1280, 12800⟩,
  ⟨0x05C, 1, 1, 4, .ro, 0x0, 0x0, 0x0, 16, false, 0, 65535⟩,
  ⟨0x060, 1, 1, 4, .ro, 0xFFFF, 0x0, 0x0, 16, false, 0, 65535⟩,
  ⟨0x080, 1, 1, 4, .rw, 0x30, 0xFFFF, 0x0, 16, false, 16, 64⟩]

/-- Rows of HB[n] and GD[n] (R219, R251). -/
def rowsPU1 : List Row := [
  ⟨0x084, 1, 1, 4, .rw, 0x50, 0xFFFF, 0x0, 16, false, 8, 400⟩,
  ⟨0x088, 1, 1, 4, .rw, 0x4, 0xFFFF, 0x0, 16, false, 1, 16⟩,
  ⟨0x08C, 1, 1, 4, .fm, 0x0, 0x0, 0x0, 16, false, 0, 65535⟩,
  ⟨0x090, 1, 1, 4, .ro, 0x0, 0x0, 0x0, 16, false, 0, 65535⟩,
  ⟨0x094, 1, 1, 4, .ro, 0x0, 0x0, 0x0, 16, false, 0, 65535⟩,
  ⟨0x098, 1, 1, 4, .wo, 0x0, 0x0, 0x0, 16, false, 0, 65535⟩,
  ⟨0x0A0, 1, 1, 4, .rw, 0x28, 0xFFFF, 0x0, 16, false, 4, 80⟩,
  ⟨0x0A4, 1, 1, 4, .rw, 0x303, 0x303, 0x0, 16, false, 0, 65535⟩,
  ⟨0x0A8, 1, 1, 4, .rw, 0x3C, 0xFFFF, 0x0, 16, false, 40, 100⟩]

/-- All rows of HB[n] and GD[n] (R219, R251). -/
def rowsPU : List Row := rowsPU0 ++ rowsPU1

/-- Rows of MOD[i] (R363). -/
def rowsMOD : List Row := [
  ⟨0x000, 1, 1, 4, .rw, 0x7810, 0xFFFF, 0x0, 16, false, 0, 65535⟩,
  ⟨0x004, 1, 1, 4, .fm, 0x0, 0x0, 0xC000, 16, false, 0, 65535⟩,
  ⟨0x008, 3, 1, 4, .ro, 0x0, 0x0, 0x0, 48, false, 0, 281474976710655⟩,
  ⟨0x014, 1, 1, 4, .ro, 0x0, 0x0, 0x0, 16, false, 0, 65535⟩,
  ⟨0x018, 1, 1, 4, .ro, 0x0, 0x0, 0x0, 16, false, 0, 65535⟩,
  ⟨0x01C, 1, 1, 4, .ro, 0x0, 0x0, 0x0, 16, false, 0, 65535⟩]

/-- Rows of the modulator bank at 0x0D_0800 (R366). -/
def rowsMODB : List Row := [
  ⟨0x000, 1, 1, 4, .wo, 0x0, 0x0, 0x0, 16, false, 0, 65535⟩,
  ⟨0x004, 1, 1, 4, .ro, 0x0, 0x0, 0x0, 16, false, 0, 65535⟩,
  ⟨0x008, 1, 1, 4, .ro, 0x0, 0x0, 0x0, 16, false, 0, 65535⟩]

/-- Rows of ADC[n] (R368). -/
def rowsADC : List Row := [
  ⟨0x000, 1, 1, 4, .fm, 0x0, 0x0, 0x1C00, 16, false, 0, 65535⟩,
  ⟨0x004, 1, 1, 4, .cmd, 0x0, 0x0, 0x0, 16, false, 0, 65535⟩,
  ⟨0x008, 1, 1, 4, .ro, 0x0, 0x0, 0x0, 16, false, 0, 65535⟩,
  ⟨0x00C, 1, 1, 4, .ro, 0x0, 0x0, 0x0, 16, false, 0, 65535⟩,
  ⟨0x010, 1, 1, 4, .ro, 0x0, 0x0, 0x0, 16, false, 0, 65535⟩,
  ⟨0x014, 1, 1, 4, .ro, 0x0, 0x0, 0x0, 16, true, -32768, 32767⟩,
  ⟨0x018, 1, 1, 4, .ro, 0x0, 0x0, 0x0, 16, false, 0, 65535⟩,
  ⟨0x01C, 1, 1, 4, .rw, 0x40, 0xFFFF, 0x0, 16, false, 8, 1024⟩,
  ⟨0x020, 2, 1, 4, .ro, 0x0, 0x0, 0x0, 32, false, 0, 4294967295⟩,
  ⟨0x028, 1, 1, 4, .ro, 0x0, 0x0, 0x0, 16, false, 0, 65535⟩,
  ⟨0x02C, 1, 1, 4, .ro, 0x0, 0x0, 0x0, 16, false, 0, 65535⟩,
  ⟨0x030, 1, 1, 4, .ro, 0x0, 0x0, 0x0, 16, false, 0, 65535⟩,
  ⟨0x034, 1, 1, 4, .ro, 0x0, 0x0, 0x0, 16, false, 0, 65535⟩,
  ⟨0x038, 1, 1, 4, .wo, 0x0, 0x0, 0x0, 16, false, 0, 65535⟩,
  ⟨0x040, 1, 32, 4, .ro, 0x0, 0x0, 0x0, 16, false, 0, 65535⟩,
  ⟨0x100, 2, 32, 8, .ro, 0x0, 0x0, 0x0, 32, false, 0, 4294967295⟩,
  ⟨0x300, 1, 1, 4, .ro, 0x0, 0x0, 0x0, 16, false, 0, 65535⟩,
  ⟨0x304, 1, 1, 4, .ro, 0x0, 0x0, 0x0, 16, false, 0, 65535⟩,
  ⟨0x340, 1, 12, 4, .rw, 0x0, 0x3, 0x0, 16, false, 0, 65535⟩]

/-- Rows of PRT[p] (R306). -/
def rowsPRT : List Row := [
  ⟨0x000, 1, 1, 4, .rw, 0x80, 0x80, 0x0, 16, false, 0, 65535⟩,
  ⟨0x004, 1, 1, 4, .fm, 0x40, 0x0, 0x2000, 16, false, 0, 65535⟩,
  ⟨0x008, 1, 1, 4, .ro, 0x0, 0x0, 0x0, 16, false, 0, 65535⟩,
  ⟨0x00C, 1, 1, 4, .ro, 0x0, 0x0, 0x0, 16, false, 0, 65535⟩,
  ⟨0x010, 1, 1, 4, .ro, 0x0, 0x0, 0x0, 16, true, -32768, 32767⟩,
  ⟨0x014, 1, 1, 4, .rw, 0x0, 0xFFFF, 0x0, 16, false, 0, 65535⟩,
  ⟨0x018, 1, 1, 4, .rw, 0x190, 0xFFFF, 0x0, 16, false, 16, 8191⟩,
  ⟨0x01C, 1, 1, 4, .rw, 0x1E78, 0xFFFF, 0x0, 16, false, 17, 8191⟩,
  ⟨0x020, 1, 1, 4, .rw, 0x320, 0xFFFF, 0x0, 16, false, 16, 8191⟩,
  ⟨0x024, 1, 1, 4, .ro, 0x0, 0x0, 0x0, 16, true, -32768, 32767⟩,
  ⟨0x028, 1, 1, 4, .ro, 0x0, 0x0, 0x0, 16, true, -32768, 32767⟩,
  ⟨0x02C, 1, 1, 4, .ro, 0x0, 0x0, 0x0, 16, true, -32768, 32767⟩,
  ⟨0x030, 1, 1, 4, .ro, 0x0, 0x0, 0x0, 16, true, -32768, 32767⟩,
  ⟨0x034, 1, 1, 4, .ro, 0x0, 0x0, 0x0, 16, false, 0, 65535⟩,
  ⟨0x038, 2, 1, 4, .ro, 0x0, 0x0, 0x0, 32, false, 0, 4294967295⟩,
  ⟨0x040, 1, 1, 4, .ro, 0x0, 0x0, 0x0, 16, false, 0, 65535⟩,
  ⟨0x044, 1, 1, 4, .wo, 0x0, 0x0, 0x0, 16, false, 0, 65535⟩]

/-- Rows of EXC[d] (R308). -/
def rowsEXC : List Row := [
  ⟨0x000, 1, 1, 4, .ro, 0x0, 0x0, 0x0, 16, false, 0, 65535⟩,
  ⟨0x004, 1, 1, 4, .ro, 0x0, 0x0, 0x0, 16, false, 0, 65535⟩,
  ⟨0x008, 1, 1, 4, .ro, 0x0, 0x0, 0x0, 16, false, 0, 65535⟩,
  ⟨0x00C, 1, 1, 4, .fm, 0x0, 0x0, 0xA000, 16, false, 0, 65535⟩,
  ⟨0x010, 1, 1, 4, .ro, 0x0, 0x0, 0x0, 16, false, 0, 65535⟩,
  ⟨0x014, 1, 1, 4, .ro, 0x0, 0x0, 0x0, 16, false, 0, 65535⟩,
  ⟨0x018, 1, 1, 4, .rw, 0x0, 0xFFFF, 0x0, 16, false, 0, 1200⟩,
  ⟨0x01C, 1, 1, 4, .rw, 0x0, 0xFFFF, 0x0, 16, false, 0, 65535⟩,
  ⟨0x020, 1, 1, 4, .rw, 0x14, 0xFFFF, 0x0, 16, false, 5, 500⟩,
  ⟨0x024, 2, 1, 4, .ro, 0x0, 0x0, 0x0, 32, false, 0, 4294967295⟩,
  ⟨0x02C, 1, 1, 4, .ro, 0x0, 0x0, 0x0, 16, false, 0, 65535⟩,
  ⟨0x030, 1, 1, 4, .ro, 0x0, 0x0, 0x0, 16, false, 0, 65535⟩,
  ⟨0x034, 1, 1, 4, .wo, 0x0, 0x0, 0x0, 16, false, 0, 65535⟩]

/-- Rows of FRC[m] (R330). -/
def rowsFRC : List Row := [
  ⟨0x000, 1, 1, 4, .fm, 0x41, 0x7F, 0x0, 16, false, 0, 65535⟩,
  ⟨0x004, 1, 1, 4, .fm, 0x0, 0x0, 0x22C0, 16, false, 0, 65535⟩,
  ⟨0x008, 1, 1, 4, .cmd, 0x0, 0x0, 0x0, 16, false, 0, 65535⟩,
  ⟨0x00C, 1, 1, 4, .ro, 0x0, 0x0, 0x0, 16, false, 0, 65535⟩,
  ⟨0x010, 2, 1, 4, .ro, 0x0, 0x0, 0x0, 32, true, -2147483648, 2147483647⟩,
  ⟨0x018, 2, 1, 4, .ro, 0x0, 0x0, 0x0, 32, true, -2147483648, 2147483647⟩,
  ⟨0x020, 1, 1, 4, .ro, 0x0, 0x0, 0x0, 16, true, -32768, 32767⟩,
  ⟨0x024, 1, 1, 4, .ro, 0x0, 0x0, 0x0, 16, true, -32768, 32767⟩,
  ⟨0x028, 1, 1, 4, .rw, 0x3E80, 0xFFFF, 0x0, 16, false, 1, 65535⟩,
  ⟨0x02C, 2, 1, 4, .wc, 0xCCD, 0xFFFFFFFF, 0x0, 32, false, 1, 2147483647⟩,
  ⟨0x034, 2, 1, 4, .wc, 0x99A, 0xFFFFFFFF, 0x0, 32, false, 0, 2147483647⟩,
  ⟨0x03C, 1, 1, 4, .rw, 0x4, 0xFFFF, 0x0, 16, false, 1, 255⟩,
  ⟨0x040, 2, 1, 4, .wc, 0x0, 0xFFFFFFFF, 0x0, 32, true, -2147483648, 2147483647⟩,
  ⟨0x048, 2, 1, 4, .wc, 0x666, 0xFFFFFFFF, 0x0, 32, false, 0, 4294967295⟩,
  ⟨0x050, 1, 1, 4, .rw, 0xC350, 0xFFFF, 0x0, 16, false, 16, 65535⟩,
  ⟨0x054, 1, 1, 4, .ro, 0x0, 0x0, 0x0, 16, false, 0, 65535⟩,
  ⟨0x058, 1, 1, 4, .ro, 0x0, 0x0, 0x0, 16, false, 0, 65535⟩,
  ⟨0x05C, 1, 1, 4, .ro, 0x0, 0x0, 0x0, 16, false, 0, 65535⟩,
  ⟨0x060, 1, 1, 4, .wo, 0x0, 0x0, 0x0, 16, false, 0, 65535⟩]

/-- Rows of CMP[m] (R390). -/
def rowsCMPC : List Row := [
  ⟨0x000, 1, 1, 4, .rw, 0x6408, 0xFCFF, 0x0, 16, false, 0, 65535⟩,
  ⟨0x004, 1, 1, 4, .fm, 0x0, 0x0, 0xC000, 16, false, 0, 65535⟩,
  ⟨0x008, 1, 1, 4, .rw, 0x177, 0xFFFF, 0x0, 16, false, 0, 1023⟩,
  ⟨0x00C, 1, 1, 4, .ro, 0x0, 0x0, 0x0, 16, false, 0, 65535⟩,
  ⟨0x010, 1, 1, 4, .ro, 0x0, 0x0, 0x0, 16, false, 0, 65535⟩,
  ⟨0x014, 1, 1, 4, .ro, 0x0, 0x0, 0x0, 16, false, 0, 65535⟩,
  ⟨0x018, 1, 1, 4, .rw, 0x1F4, 0xFFFF, 0x0, 16, false, 1, 65535⟩,
  ⟨0x01C, 1, 1, 4, .wo, 0x0, 0x0, 0x0, 16, false, 0, 65535⟩]

/-- Rows of CMP at 0x10_0000, shared words (R390). -/
def rowsCMP : List Row := [
  ⟨0x400, 1, 1, 4, .ro, 0x0, 0x0, 0x0, 16, false, 0, 65535⟩,
  ⟨0x404, 1, 1, 4, .w1c, 0x0, 0x0, 0x3F3F, 16, false, 0, 65535⟩,
  ⟨0x408, 1, 1, 4, .rw, 0x55, 0xFFFF, 0x0, 16, false, 80, 580⟩,
  ⟨0x40C, 1, 1, 4, .rw, 0x26C, 0xFFFF, 0x0, 16, false, 200, 660⟩,
  ⟨0x410, 1, 1, 4, .rw, 0x258, 0xFFFF, 0x0, 16, false, 400, 640⟩,
  ⟨0x414, 1, 1, 4, .rw, 0x21C, 0xFFFF, 0x0, 16, false, 320, 620⟩,
  ⟨0x418, 1, 1, 4, .rw, 0x1F4, 0xFFFF, 0x0, 16, false, 240, 560⟩,
  ⟨0x41C, 1, 1, 4, .rw, 0x244, 0xFFFF, 0x0, 16, false, 400, 640⟩,
  ⟨0x420, 1, 1, 4, .ro, 0x0, 0x0, 0x0, 16, true, -32768, 32767⟩,
  ⟨0x424, 1, 1, 4, .ro, 0x0, 0x0, 0x0, 16, false, 0, 65535⟩,
  ⟨0x428, 1, 1, 4, .ro, 0x0, 0x0, 0x0, 16, false, 0, 65535⟩,
  ⟨0x600, 1, 2, 4, .rw, 0x8218, 0xEF3F, 0x0, 16, false, 0, 65535⟩,
  ⟨0x608, 1, 1, 4, .fm, 0x0, 0x0, 0xC000, 16, false, 0, 65535⟩,
  ⟨0x700, 1, 1, 4, .cmd, 0x0, 0x0, 0x0, 16, false, 0, 65535⟩,
  ⟨0x704, 1, 1, 4, .ro, 0x0, 0x0, 0x0, 16, false, 0, 65535⟩,
  ⟨0x800, 1, 101, 4, .fm, 0x8000, 0x803F, 0x1000, 16, false, 0, 65535⟩]

/-- Rows of GPIO at 0x11_0000, shared and per-pin words (R283). -/
def rowsGPIO : List Row := [
  ⟨0x000, 1, 1, 4, .ro, 0x0, 0x0, 0x0, 16, false, 0, 65535⟩,
  ⟨0x004, 1, 1, 4, .ro, 0x0, 0x0, 0x0, 16, false, 0, 65535⟩,
  ⟨0x008, 1, 1, 4, .ro, 0x0, 0x0, 0x0, 16, false, 0, 65535⟩,
  ⟨0x00C, 1, 1, 4, .ro, 0x0, 0x0, 0x0, 16, false, 0, 65535⟩,
  ⟨0x010, 1, 1, 4, .ro, 0xFFFF, 0x0, 0x0, 16, false, 0, 65535⟩,
  ⟨0x014, 1, 1, 4, .ro, 0xFF, 0x0, 0x0, 16, false, 0, 65535⟩,
  ⟨0x018, 1, 1, 4, .w1c, 0x0, 0x0, 0xFFFF, 16, false, 0, 65535⟩,
  ⟨0x01C, 1, 1, 4, .w1c, 0x0, 0x0, 0xFF, 16, false, 0, 65535⟩,
  ⟨0x020, 1, 1, 4, .w1c, 0x0, 0x0, 0xFFFF, 16, false, 0, 65535⟩,
  ⟨0x024, 1, 1, 4, .w1c, 0x0, 0x0, 0xFF, 16, false, 0, 65535⟩,
  ⟨0x028, 1, 1, 4, .rw, 0x0, 0xFFFF, 0x0, 16, false, 0, 65535⟩,
  ⟨0x02C, 1, 1, 4, .rw, 0x0, 0xFF, 0x0, 16, false, 0, 65535⟩,
  ⟨0x030, 1, 1, 4, .ro, 0x0, 0x0, 0x0, 16, false, 0, 65535⟩,
  ⟨0x034, 1, 1, 4, .rw, 0x1F4, 0xFFFF, 0x0, 16, false, 1, 65535⟩,
  ⟨0x038, 1, 1, 4, .ro, 0x0, 0x0, 0x0, 16, false, 0, 65535⟩,
  ⟨0x03C, 1, 1, 4, .rw, 0x64, 0xFFFF, 0x0, 16, false, 1, 1000⟩,
  ⟨0x040, 1, 1, 4, .rw, 0xFFF, 0xFFF, 0x0, 16, false, 0, 65535⟩,
  ⟨0x044, 1, 1, 4, .rw, 0x190, 0xFFFF, 0x0, 16, false, 4, 65535⟩,
  ⟨0x100, 1, 24, 4, .ro, 0x0, 0x0, 0x0, 16, false, 0, 65535⟩,
  ⟨0x200, 1, 24, 4, .rw, 0x0, 0xFFFF, 0x0, 16, false, 0, 65535⟩,
  ⟨0x300, 1, 24, 4, .rw, 0x4, 0x3C, 0x0, 16, false, 0, 65535⟩]

/-- Rows of homing registers of axis n (R286). -/
def rowsHM : List Row := [
  ⟨0x000, 1, 1, 4, .rw, 0x0, 0x3, 0x0, 16, false, 0, 65535⟩,
  ⟨0x004, 1, 1, 4, .ro, 0x0, 0x0, 0x0, 16, false, 0, 65535⟩,
  ⟨0x008, 1, 1, 4, .rw, 0x10, 0xFFFF, 0x0, 16, false, 1, 65535⟩,
  ⟨0x00C, 1, 1, 4, .rw, 0x2, 0xFFFF, 0x0, 16, false, 1, 65535⟩,
  ⟨0x010, 3, 1, 4, .wc, 0x0, 0xFFFFFFFFFFFF, 0x0, 48, true, -140737488355328, 140737488355327⟩,
  ⟨0x01C, 2, 1, 4, .wc, 0x0, 0xFFFFFFFF, 0x0, 32, false, 0, 4294967295⟩,
  ⟨0x024, 1, 1, 4, .rw, 0x1000, 0xFFFF, 0x0, 16, false, 0, 65535⟩,
  ⟨0x028, 1, 1, 4, .rw, 0x0, 0xFFFF, 0x0, 16, false, 0, 32767⟩,
  ⟨0x02C, 3, 1, 4, .ro, 0x0, 0x0, 0x0, 48, true, -140737488355328, 140737488355327⟩,
  ⟨0x038, 1, 1, 4, .ro, 0x0, 0x0, 0x0, 16, true, -32768, 32767⟩]

/-! Base addresses of the replicated blocks (R538). -/

/-- AX[n] (R538). -/
def axBase (n : Nat) : Nat := 0x080000 + n * 0x4000
/-- Unit u: HB[u] for u below 40, GD[u - 40] above (R538). -/
def unitBase (u : Nat) : Nat := if u < 40 then 0x0C0000 + u * 0x100 else 0x0C3000 + (u - 40) * 0x100
/-- MOD[i] (R538). -/
def modBase (i : Nat) : Nat := 0x0D0000 + i * 0x40
/-- ADC[n] (R538). -/
def adcBase (n : Nat) : Nat := 0x0D8000 + n * 0x1000
/-- PRT[p] (R538). -/
def prtBase (p : Nat) : Nat := 0x0E0000 + p * 0x100
/-- EXC[d] (R538). -/
def excBase (d : Nat) : Nat := 0x0E1000 + d * 0x100
/-- FRC[m] (R538). -/
def frcBase (m : Nat) : Nat := 0x0F0000 + m * 0x100
/-- CMP[m] (R538). -/
def cmpBase (m : Nat) : Nat := 0x100000 + m * 0x40
/-- Homing registers of axis n (R538). -/
def hmBase (n : Nat) : Nat := 0x111000 + n * 0x40
/-- NET port n (R538). -/
def netpBase (n : Nat) : Nat := 0x050100 + n * 0x80
/-- NET session i (R538). -/
def netsBase (i : Nat) : Nat := 0x050400 + i * 0x20
/-- NET.UOBJ[u] (R538). -/
def uobjBase (u : Nat) : Nat := 0x050800 + u * 0x20
/-- NET.SUB[k] (R538). -/
def subBase (k : Nat) : Nat := 0x058000 + k * 0x20
/-- The windows that are not replicated (R537). -/
def devA (o : Nat) : Nat := o
/-- TIM (R537). -/
def timA (o : Nat) : Nat := 0x010000 + o
/-- BOR (R537). -/
def borA (o : Nat) : Nat := 0x020000 + o
/-- WLD (R537). -/
def wldA (o : Nat) : Nat := 0x030000 + o
/-- FLT (R537). -/
def fltA (o : Nat) : Nat := 0x040000 + o
/-- NET (R537). -/
def netA (o : Nat) : Nat := 0x050000 + o
/-- The modulator bank (R366). -/
def modbA (o : Nat) : Nat := 0x0D0800 + o
/-- The shared CMP words (R390). -/
def cmpA (o : Nat) : Nat := 0x100000 + o
/-- The shared and per-pin GPIO words (R283). -/
def gpioA (o : Nat) : Nat := 0x110000 + o

/-- First and last byte address of path memory (R548). -/
def pathLo : Nat := 0x400000
/-- One past the last byte of path memory (R548). -/
def pathEnd : Nat := 0x500000

/-! The event table (R481). -/

/-- How an event is bound to axes (R481, R482). -/
inductive Binding where
  | axis | set | device | log
  deriving DecidableEq, Repr

/-- One row of the event table of R481: code, level after reset, highest level. -/
structure EvRow where
  code : Nat
  level : Nat
  max : Nat
  deriving DecidableEq, Repr

/-- The event table of R481: levels 0 NOTE, 1 WARN, 2 STOP, 3 MUTE, 4 TRIP. -/
def evTable : List EvRow := [
  ⟨0x0101, 2, 4⟩, ⟨0x0102, 2, 4⟩, ⟨0x0103, 1, 4⟩, ⟨0x0104, 1, 4⟩, ⟨0x0105, 3, 4⟩, ⟨0x0106, 1, 4⟩, ⟨0x0107, 0, 4⟩,
  ⟨0x0108, 1, 4⟩, ⟨0x0109, 1, 4⟩, ⟨0x010A, 1, 4⟩, ⟨0x010B, 0, 4⟩, ⟨0x010C, 1, 4⟩] ++ [
  ⟨0x0201, 3, 4⟩, ⟨0x0202, 3, 4⟩, ⟨0x0203, 3, 4⟩, ⟨0x0204, 3, 4⟩, ⟨0x0205, 4, 4⟩, ⟨0x0206, 0, 4⟩, ⟨0x0207, 1, 4⟩,
  ⟨0x0301, 1, 4⟩, ⟨0x0302, 3, 4⟩, ⟨0x0303, 1, 4⟩, ⟨0x0401, 1, 4⟩, ⟨0x0402, 1, 4⟩, ⟨0x0403, 1, 4⟩] ++ [
  ⟨0x0501, 1, 4⟩, ⟨0x0502, 1, 4⟩, ⟨0x0503, 1, 4⟩, ⟨0x0504, 1, 1⟩, ⟨0x0601, 1, 1⟩, ⟨0x0701, 0, 4⟩,
  ⟨0x0801, 1, 4⟩, ⟨0x0802, 4, 4⟩, ⟨0x0803, 1, 4⟩, ⟨0x0804, 0, 1⟩, ⟨0x0805, 1, 4⟩, ⟨0x0806, 1, 4⟩] ++ [
  ⟨0x0901, 0, 4⟩, ⟨0x0902, 1, 4⟩, ⟨0x0903, 1, 4⟩, ⟨0x0904, 1, 4⟩, ⟨0x0905, 1, 4⟩, ⟨0x0A01, 1, 1⟩, ⟨0x0A02, 1, 1⟩,
  ⟨0x0A03, 1, 4⟩, ⟨0x0A04, 1, 1⟩, ⟨0x0B01, 1, 4⟩, ⟨0x0B02, 0, 4⟩]

/-- The row of a code, if R481 has it. -/
def evRow (c : Nat) : Option EvRow := evTable.find? (fun r => r.code == c)

/-- The address of FLT.RT[c] (R486). -/
def rtAddr (c : Nat) : Nat := 0x040400 + 0x40 * (c / 256) + 4 * (c % 256)

/-- The code whose reaction word lies at an address of 0x04_0440-0x04_06FC (R486). -/
def rtCode (a : Nat) : Nat := (a - 0x040400) / 0x40 * 256 + ((a - 0x040400) % 0x40) / 4

/-! Windows (R537, R538, R539). -/

/-- A window or a replicated block: `count` instances, `stride` bytes apart, with their rows. -/
structure Window where
  base : Nat
  stride : Nat
  count : Nat
  rows : List Row
  deriving DecidableEq, Repr

/-- HB units have neither the GD-only nor ADC[0]-like extras: their rows (R539). -/
def rowsHB : List Row := rowsPU.filter (fun r => !((0x54 ≤ r.off && r.off ≤ 0x60) || (0xA0 ≤ r.off && r.off ≤ 0xA8)))
/-- GD units lack OCTHR (R539). -/
def rowsGD : List Row := rowsPU.filter (fun r => r.off != 0x80)
/-- ADC[1] lacks the words 0x300-0x36C (R539). -/
def rowsADC1 : List Row := rowsADC.filter (fun r => r.off < 0x300)

/-- The windows of R537 and R538. Where two overlap in address (CMP, GPIO, MOD and NET), the narrower stands first. -/
def windows : List Window := [
  ⟨0x050100, 0x80, 2, rowsNETP⟩, ⟨0x050400, 0x20, 8, rowsNETS⟩, ⟨0x050800, 0x20, 16, rowsUOBJ⟩, ⟨0x058000, 0x20, 1024, rowsSUB⟩,
  ⟨0x000000, 0x10000, 1, rowsDEV⟩, ⟨0x010000, 0x10000, 1, rowsTIM⟩, ⟨0x020000, 0x10000, 1, rowsBOR⟩, ⟨0x030000, 0x10000, 1, rowsWLD⟩,
  ⟨0x040000, 0x10000, 1, rowsFLT⟩, ⟨0x050000, 0x8000, 1, rowsNET⟩, ⟨0x080000, 0x4000, 12, rowsAX⟩] ++ [
  ⟨0x0C0000, 0x100, 40, rowsHB⟩, ⟨0x0C3000, 0x100, 8, rowsGD⟩, ⟨0x0D0000, 0x40, 24, rowsMOD⟩, ⟨0x0D0800, 0x10, 1, rowsMODB⟩,
  ⟨0x0D8000, 0x1000, 1, rowsADC⟩, ⟨0x0D9000, 0x1000, 1, rowsADC1⟩, ⟨0x0E0000, 0x100, 8, rowsPRT⟩, ⟨0x0E1000, 0x100, 4, rowsEXC⟩,
  ⟨0x0F0000, 0x100, 8, rowsFRC⟩, ⟨0x100000, 0x40, 8, rowsCMPC⟩, ⟨0x100000, 0x1000, 1, rowsCMP⟩, ⟨0x111000, 0x40, 12, rowsHM⟩,
  ⟨0x110000, 0x1000, 1, rowsGPIO⟩]

/-- Where a word address lies: the row of its value, the address of the value's _L word, and which of its words it is. -/
structure Loc where
  row : Row
  base : Nat
  word : Nat
  deriving DecidableEq, Repr

/-- The row that covers offset `o`, the offset of its value and the word within it. -/
def rowAt (rows : List Row) (o : Nat) : Option (Row × Nat × Nat) :=
  rows.findSome? (fun r =>
    let d := o - r.off
    let k := d / r.stride
    if r.off ≤ o ∧ d % 4 = 0 ∧ (if r.count = 1 then d < 4 * r.words else k < r.count ∧ d % r.stride < 4 * r.words) then
      if r.count = 1 then some (r, r.off, d / 4) else some (r, r.off + k * r.stride, d % r.stride / 4)
    else none)

/-- The register word at a byte address: none for a word that its window leaves unlisted (R537, R521). -/
def locate (a : Nat) : Option Loc :=
  windows.findSome? (fun w =>
    if w.base ≤ a ∧ a < w.base + w.stride * w.count then
      let inst := (a - w.base) / w.stride
      (rowAt w.rows ((a - w.base) % w.stride)).bind (fun (r, o, k) =>
        let b := w.base + inst * w.stride + o
        if w.base = 0x040000 ∧ r.off = FLT.RT ∧ (evRow (rtCode b)).isNone then none else some ⟨r, b, k⟩)
    else none)

/-- The reset value of the register value whose _L word lies at `b` (R542): the Reset column, with the few values that
differ from instance to instance (R255, R476, R486). 0 for an address that holds no register. -/
def resetOf (b : Nat) : Val :=
  if 0x040440 ≤ b ∧ b ≤ 0x0406FC then
    match evRow (rtCode b) with
    | some r => BitVec.ofNat 64 (r.max * 16 + r.level)
    | none => 0
  else if b = devA DEV.TRIPCFG + 4 then 0x440C
  else if b = devA DEV.TRIPCFG + 8 then 0x4430
  else if b = devA DEV.TRIPCFG + 12 then 0x44C0
  else if b = wldA WLD.BLK + 12 ∨ b = wldA WLD.SBLK + 12 then 0x03E0
  else if b = adcBase 0 + ADC.REFEXP ∨ b = adcBase 1 + ADC.REFEXP then 0x1800
  else match locate b with
    | some l => BitVec.ofNat 64 l.row.reset
    | none => 0

/-! The world block of a word (R540). -/

/-- What decides an access to a word: a block of the world map, a path region, or nothing (R526). -/
inductive Guard where
  | block (b : Nat)
  | region (r : Nat)
  | open_
  deriving DecidableEq, Repr

/-- The owner of comparator c (R540). -/
def azBlock (c : Nat) : Nat :=
  if c < 40 then 40 + c / 4
  else if c < 48 then 50 + (c - 40) / 4
  else if 82 ≤ c ∧ c ≤ 89 then 35
  else if 92 ≤ c ∧ c ≤ 99 then 50 + (c - 92) / 4
  else 55

/-- The block or region whose world decides an access to the word at `a` (R537, R538, R540). -/
def guardOf (a : Nat) : Guard :=
  if pathLo ≤ a then .region ((a - pathLo) / 0x10000)
  else if a < 0x010000 then
    if 0x100 ≤ a ∧ a < 0x160 then .open_ else .block 55
  else if a < 0x020000 then .block 53
  else if a < 0x030000 then .block 56
  else if a < 0x040000 then .block 57
  else if a < 0x050000 then .block 54
  else if a < 0x080000 then .block 52
  else if a < 0x0B0000 then .block ((a - 0x080000) / 0x4000)
  else if a < 0x0C3000 then .block (40 + (a - 0x0C0000) / 0x100 / 4)
  else if a < 0x0D0000 then .block (50 + (a - 0x0C3000) / 0x100 / 4)
  else if a < 0x0D8000 then .block 34
  else if a < 0x0E0000 then .block (32 + (a - 0x0D8000) / 0x1000)
  else if a < 0x0E1000 then .block (12 + (a - 0x0E0000) / 0x100)
  else if a < 0x0F0000 then .block (20 + (a - 0x0E1000) / 0x100)
  else if a < 0x100000 then .block (24 + (a - 0x0F0000) / 0x100)
  else if a < 0x100400 then .block 35
  else if a < 0x100800 then .block 55
  else if a < 0x110000 then .block (azBlock ((a - 0x100800) / 4))
  else if a < 0x110100 then .block 36
  else if a < 0x111000 then .block (36 + (a % 0x100) / 4 / 6)
  else .block ((a - 0x111000) / 0x40)

end Sys2Proof.Machine
end

