-- ==== Sys2Proof/Machine/State.lean ====
section
/-! DEFINITION. The state of the part as plain data, the reasons a step can stop, and the state after reset.

Every software-visible register value lives in one register file, `State.regs`, keyed by the address of its _L word (R10, R537);
an address the file does not list reads its reset value (R542). What the spec gives the part beside its registers
(profiles in flight, queues, latches, windows, counters, the active image, sessions) stands in the structures below. -/

namespace Sys2Proof.Machine

/-! ### Faults, history and accessors -/

/-- One entry of the history queue (R488): its time, sequence number, code, word 5 and detail words. -/
structure HistEntry where
  time : BitVec 64
  seq : BitVec 32
  code : Word
  w5 : Word
  w6 : Word
  w7 : Word
  deriving DecidableEq, Repr

/-- A staged word of a multi-word value (R519): the bits written so far and their data. -/
structure Staged where
  mask : Word
  data : Word
  deriving DecidableEq, Repr

/-- What the part keeps for one accessor identifier (R456, R541). -/
structure Accessor where
  shadows : List (Nat × Val)      -- snapshots taken, by the address of the value (R518)
  lostSnap : List Nat             -- values whose snapshot a map change discarded (R468)
  newer : List Nat                -- records replaced since their snapshot (R355)
  staged : List (Nat × Staged)    -- staged words, by their address (R519)
  lostStage : List Nat            -- values whose staging a map change discarded (R468)
  status : Byte                   -- DEV.LSTAT.status (R525)
  partialW : Bool                 -- DEV.LSTAT.partial
  words : Word                    -- DEV.LWORDS
  becnt : Word                    -- DEV.BECNT
  partcnt : Word                  -- DEV.PARTCNT
  edgeHalf : Bool                 -- TIM.TEDGE_HNS of the last TEDGE snapshot (R48)
  hsel : BitVec 5                 -- FLT.HSEL (R490)
  hsnap : Option HistEntry        -- the history snapshot (R490)
  fsel : BitVec 24                -- FLT.FSEL (R495)
  fselbit : BitVec 4              -- FLT.FSELBIT
  sidx : Word                     -- NET.SIDX (R442)
  snew : BitVec 32                -- NET.SNEW (R451)
  snewSel : Word                  -- NET.SNEW_SEL
  vioTick : Bool                  -- a violation has been logged in this tick (R460)
  deriving DecidableEq, Repr

/-- An accessor with fresh copies (R541, R542). -/
def Accessor.fresh : Accessor :=
  ⟨[], [], [], [], [], 0, false, 0, 0, 0, false, 0, none, 0, 0, 0, 0, 0, false⟩

/-- Reaction levels (R483). -/
inductive Level where
  | note | warn | stop | mute | trip
  deriving DecidableEq, Repr

/-- A reaction that waits for the next tick edge: the axes it binds and its level (R483). -/
structure Due where
  axes : List Nat
  level : Level
  deriving DecidableEq, Repr

/-- The protected stores of R496. -/
inductive Store where
  | path | image | table | subs
  deriving DecidableEq, Repr

/-- A stored word whose content no longer agrees with its check bits (R496). -/
structure Upset where
  store : Store
  index : Nat          -- byte address for path memory, word, code or entry index otherwise
  dbl : Bool           -- two wrong bits: uncorrectable
  deriving DecidableEq, Repr

/-- The fault manager beside its registers (17_faults.md). -/
structure Faults where
  hist : List HistEntry            -- the history queue, oldest first (R490)
  nextSeq : BitVec 32              -- next sequence number (R489)
  due : List Due                   -- reactions of the next edge (R483)
  counts : List (Nat × Word)       -- event and collision count of each W1C flag, by address * 16 + bit (R495)
  clrNow : List Nat                -- flags that software has cleared in this CORE clock (R495)
  setNow : List Nat                -- flags that hardware has set in this CORE clock (R11, R495)
  hardClr : List (Nat × Nat)       -- bits of registers that hardware has cleared in this CORE clock against a write of it (R148)
  upsets : List Upset              -- words with wrong bits (R496)
  eccLogged : List (Store × Nat)   -- the remembered logged words, newest first, 16 at most (R498)
  scrubAt : Nat                    -- the word the scrubber reads next (R496)
  imageBad : Bool                  -- an uncorrectable word of the image store stands (R498)
  tableBad : List Nat              -- codes whose reaction word is uncorrectable (R498)
  subBad : List Nat                -- subscription entries that are uncorrectable (R498)
  tm : Bool                        -- factory test mode (R501)
  tenSeen : Bool                   -- TMSTAT.ten_seen
  eccArm : Option (Nat × Nat)      -- INJ_ECC: word address and number of bits (R502)
  injLink : Nat                    -- ports held down by INJ_LINK
  injSar : List Nat                -- converters whose next reference reads off
  injPort : List Nat               -- ports whose next amplitude test fails
  logNow : Nat                     -- entries logged in this CORE clock (R489)
  injNow : Bool                    -- the event in progress was injected (R502, W5.inj)
  deriving DecidableEq, Repr

/-! ### Timebase -/

/-- The states of R27. -/
inductive TbState where
  | free | acquire | locked | holdover | master
  deriving DecidableEq, Repr

/-- A port's role under the BMCA (R49): 0 disabled, 1 master, 2 slave, 3 passive. -/
inductive PortRole where
  | disabled | master | slave | passive
  deriving DecidableEq, Repr

/-- What one port keeps of the 802.1AS messages (R23, R24, R26). Times are device time in 0.5 ns. -/
structure PtpPort where
  seqSync : BitVec 16              -- sequence numbers of its own Sync, Announce and Pdelay_Req
  seqAnn : BitVec 16
  seqPd : BitVec 16
  sync : Option (Nat × Nat)        -- a received two-step Sync that waits for its Follow_Up: sequence number and receive timestamp
  t1 : Option Nat                  -- transmit timestamp of the Pdelay_Req under way
  t2 : Option (Nat × Nat)          -- its receipt as the Pdelay_Resp gives it, and the receive timestamp t4 of that response
  prev : Option (Nat × Nat)        -- t3 and t4 of the exchange before
  nrr : Int                        -- rate of the neighbour against the own one, less 1 [2^-41]
  ann : Option Nat                 -- the priority vector of the last Announce
  annLeft : Option Nat             -- CORE clocks until the Announce receipt timeout
  deriving DecidableEq, Repr

/-- A port before its first message. -/
def PtpPort.start : PtpPort := ⟨0, 0, 0, none, none, none, none, 0, none, none⟩

/-- A complete Sync of the slave port as the relay carries it on (R23). -/
structure PtpRelay where
  origin : Nat                     -- preciseOriginTimestamp [ns]
  corr : Int                       -- correction with the delay of the link [2^-16 ns]
  rate : Int                       -- cumulative rate ratio less 1 [2^-41]
  rx : Nat                         -- receive timestamp [0.5 ns]
  deriving DecidableEq, Repr

/-- Device time, tick grid and time servo (02_tick_and_timebase.md). -/
structure Timebase where
  time : BitVec 112                -- device time: 64 bits of ns, 48 bits of fraction (R21)
  tick : BitVec 48                 -- TIM.TICK (R38)
  edgeH : BitVec 65                -- device time of the last edge [0.5 ns] (R36)
  cyc : BitVec 32                  -- TIM.CYC (R35)
  clk : Nat                        -- CORE clocks since the last edge
  gridH : Nat                      -- the grid point that the next edge waits for [0.5 ns] (R35)
  ticking : Bool                   -- tick edges occur (an image is active and its grid has begun, R76)
  st : TbState
  integ : BitVec 32
  rate : BitVec 32
  rates : List (BitVec 32)         -- rates of the last 64 Syncs, newest first (R27)
  goodRun : Nat                    -- consecutive Syncs within the lock threshold (R27)
  outRun : Nat                     -- consecutive outliers (R29)
  limRun : Nat                     -- consecutive Syncs with integ at its limit (R30)
  mute : Bool                      -- Syncs are ignored until an Announce (R30)
  role : Vector PortRole 2
  asCap : Vector Bool 2
  pdGood : Vector Nat 2            -- successive good peer-delay exchanges (R24)
  pdBad : Vector Nat 2             -- successive failed ones
  delay : Vector Nat 2             -- measured path delay [ns]
  step : Option Int                -- a requested time step [ns] (R32)
  stepAdj : Bool                   -- it comes from TIM.ADJ, so that it slews where it may not step (R33)
  slew : Int                       -- what a slew has still to move [2^-48 ns] (R33)
  slewing : Bool
  servoSlew : Bool                 -- the servo slews an offset too large for the step threshold (R32, R49)
  stepCycle : Bool                 -- the running cycle contains a step
  msgs : Nat                       -- 802.1AS messages originated (R23)
  gmId : Nat                       -- the elected grandmaster as the last Announce named it (R25); 0 for none
  ptp : Vector PtpPort 2           -- the 802.1AS messages of each port (R23)
  relay : Option PtpRelay          -- the last complete Sync of the slave port (R23)
  syncLeft : Option Nat            -- CORE clocks until the Sync receipt timeout (R23)
  deriving DecidableEq, Repr

/-! ### Bore image -/

/-- One axis record of the valve map (R61). -/
structure AxRec where
  role : Nat           -- 0 unassigned, 1 internal legs, 2 GD channels, 3 pulse-out, 4 virtual
  glide : Bool
  brake : Bool
  par : Bool
  kexp : Nat           -- PWM multiple k = 2 ^ kexp
  base : Nat
  port : Nat           -- 0xFF: none
  fmask : Nat
  ysrc : Nat
  stepPin : Nat
  dirPin : Nat
  options : Nat
  shunt : Nat
  deriving DecidableEq, Repr

/-- The record of an unassigned axis. -/
def AxRec.none : AxRec := ⟨0, false, false, false, 0, 0xFF, 0xFF, 0, 0xFF, 0xFF, 0xFF, 0, 0⟩

/-- One item of the fixed schedule (R65). -/
structure SchedItem where
  axis : Nat
  task : Nat
  lane : Nat
  start : Nat
  len : Nat
  deriving DecidableEq, Repr

/-- The active image as the part uses it (R55): what its sections set in registers stands in the register file. -/
structure Image where
  active : Bool                    -- a full image is active
  map : Vector AxRec 12            -- the valve map
  items : List SchedItem           -- the schedule
  sar : List (List Nat)            -- the SAR sequences of ADC0 and ADC1, 16-bit entries
  dflt : List (Nat × Nat)          -- input defaults: function code and flags of each pin (R67)
  exc : List (Nat × Nat × Nat)     -- excitation records: enable, frequency, amplitude (R68)
  source : Nat                     -- BOR.STATUS.source
  keyslot : Nat
  alt : Bool                       -- BOR.STATUS.flash_alt
  deriving DecidableEq, Repr

/-- The load buffer's states (R86). -/
inductive BufSt where
  | empty | opened | verifying | verified | pending
  deriving DecidableEq, Repr

/-- The load buffer, the key slots and the boot load (03_bore_image.md). -/
structure Bore where
  buf : BufSt
  bytes : List Byte                -- the load buffer, first byte first (R75)
  apply : Bool                     -- VERIFYING was started by APPLY
  boot : Bool                      -- VERIFYING belongs to the boot load (R561)
  bootDone : Bool                  -- the boot load has ended, or will not come
  alt : Bool                       -- the boot load works on the secondary image
  src : Nat                        -- source of the image in the buffer: 1 flash, 2 HPS, 3 session (R73)
  affected : List Nat              -- axes affected by the pending patch (R78)
  keys : Vector (Option (BitVec 256)) 4     -- key slots (R57)
  revoked : Vector Bool 4
  progs : Nat                      -- OTP programmings so far
  newGrid : Bool                   -- no edge before the first boundary of a new grid (R76)
  deriving DecidableEq, Repr

/-! ### Axis engines: motion (04_motion_profiles.md) -/

/-- Axis states (R91). -/
inductive AxState where
  | off | mute | hold | move | stopping | paused | follow | homing | yield | identify | unplugged | fault
  deriving DecidableEq, Repr

/-- A planned segment (R87, R100): the clocks left, acc at its first clock and jrk [2^-24 au], the velocity [2^-24 vu] that its last
clock reaches exactly, and a velocity that it does not pass (R603). -/
structure Seg where
  n : Nat
  acc : Int
  jrk : Int
  vEnd : Option Int
  cap : Option Int
  deriving DecidableEq, Repr

/-- What follows the last planned segment. -/
inductive Goal where
  | none               -- no plan
  | land (t : Int)     -- landing on target t [mstep] (R100)
  | rest               -- a ramp that ends at rest (R603)
  | restAt (t : Int)   -- a jog that rests exactly at the soft limit t [mstep] (R107)
  | cruise             -- the velocity reached is kept
  deriving DecidableEq, Repr

/-- A plan that begins at clock 64 of the tick (R93, R604). -/
inductive PlanReq where
  | target (t : Int)             -- a move to t [mstep]
  | jog (v : Int)                -- a ramp to v [vu]
  | stop                         -- the class stop (R102, R103)
  | home (v : Int)               -- a homing phase at v [vu] (R273)
  | homeTo (t v : Int)           -- a planned move to t with VMAX := v (R274)
  deriving DecidableEq, Repr

/-- A command that waits for its edge (R93): opcode, argument, accessor. -/
structure PendCmd where
  op : Nat
  arg : Nat
  acc : Nat
  deriving DecidableEq, Repr

/-- The rate multiplier, planner and command state of one axis engine (R87-R107). -/
structure Motion where
  st : AxState
  pos : BitVec 80
  vel : BitVec 64
  acc : BitVec 57
  jrk : BitVec 33
  snapPos : BitVec 48        -- tick-edge snapshot (R88)
  snapVel : BitVec 40
  prevPos : BitVec 48        -- the snapshot before it
  segs : List Seg
  goal : Goal
  req : Option PlanReq
  target : Int               -- present target of a position move [mstep]
  hasTarget : Bool           -- MOVE runs toward a position target
  rem : BitVec 48            -- AX[n].REM
  remValid : Bool
  keep : Bool                -- the stop in progress keeps the remaining distance (R102)
  atTarget : Bool
  vmode : Bool
  toFault : Bool             -- a Glide ramp under R104 ends in FAULT
  modOff : Int               -- MPOS = (pos + modOff) mod L (R90)
  cmd : Option PendCmd
  tableOk : Bool             -- the table check of the pending GEAR is complete (R118)
  loSeen : Bool              -- pos is watched for the lower soft limit (R106)
  hiSeen : Bool              -- pos is watched for the upper soft limit
  inward : Bool              -- the motion was accepted because it leads inward from beyond a limit (R106)
  told : Bool                -- the crossing of a limit by this motion has been logged (R107)
  soft : Option (Int × Int)  -- the soft limits that act since the last edge (R101, R107)
  softNew : Bool             -- that edge has changed them
  lim : Nat × Nat × Nat × Nat  -- VMAX, AMAX, DMAX and JMAX as the last edge took them (R101)
  next : Option AxState      -- a state change the next edge applies (R94, R602)
  restart : Bool             -- SDEC was committed during a Hold stop since the last edge (R101)
  replan : Bool              -- limits were committed in flight since the last edge (R101)
  deriving DecidableEq, Repr

/-- Following, gearing, tables, STEP input and STEP output of one axis (R108-R118). -/
structure Follow where
  mode : Nat                 -- STATUS.fmode: 0 cyclic, 1 STEP input, 2 ratio gear, 3 table
  armed : Bool
  pPrev : Int                -- interpolator [mstep] (R108)
  pPrev2 : Int
  pNext : Int
  i : Nat                    -- ticks of the cycle already interpolated
  missed : Nat               -- consecutive missed cycles (R109)
  ended : Bool               -- misses ended the stream: the class stop is due (R109)
  m0 : Int                   -- master position at the anchor (R114)
  g0 : Int
  qLast : Int                -- last q [2^-32 mstep]
  phi0 : Int                 -- table coordinate at the anchor (R115)
  t : Nat                    -- tick edges since the start boundary (R116)
  tAnchor : Nat
  seg : Int                  -- last table segment used (R115)
  newArm : Bool              -- a time table engaged at the last edge (R116)
  tN : Nat                   -- points of the engaged table
  tRep : Bool
  slot : Nat                 -- header slot of the engaged table
  num : Int                  -- ratio in force
  den : Nat
  rem : Int                  -- the remainder carried from tick to tick (R114)
  mPrev : Int                -- the master position of the last tick of a ratio gear
  kind : Nat                 -- master source in force: GSRC.kind and index (R114)
  idx : Nat
  reanchor : Bool            -- GNUM or GDEN was committed since the last edge
  ferrArmed : Bool           -- the following-error event may occur (R111)
  lag : Int                  -- the tracker's lag of the last tick [mstep] (R110)
  counts : Int               -- STEP counts of the running tick (R112)
  stepIn : Bool              -- the filtered STEP input (R112)
  stepRun : Nat              -- CORE clocks that the STEP pin has differed from it
  dirIn : Bool               -- the filtered DIR input
  dirRun : Nat               -- CORE clocks that the DIR pin has differed from it
  dirAge : Nat               -- CORE clocks since the filtered DIR input changed
  outDir : Bool              -- pulse-out DIR (R113)
  outDirAge : Nat            -- clocks since DIR changed
  outAge : Nat               -- clocks since the last STEP pulse began
  outHigh : Nat              -- clocks that STEP stays high
  outCell : Int              -- floor(pos / STEPSZ) already emitted or held
  track : Option (Int × Int) -- q [2^-32 mstep] and w [vu] for the tracker at clock 1 (R110)
  deriving DecidableEq, Repr
/-! ### Axis control: current loop, learning loops, observer, stall (05, 06). Quantities without a unit of their own are kept in 2^-32. -/

/-- One learned value of an embouchure loop: its value with fraction bits, its values before the last updates (newest first),
and how many consecutive updates it has stood at a clamp bound. -/
structure Learn where
  v : Int
  hist : List Int
  run : Nat
  deriving DecidableEq, Repr

/-- A learned value that starts at `v`. -/
def Learn.at (v : Int) : Learn := ⟨v, [], 0⟩

/-- Control state of a power axis that commits with its duties (R134, R164, R183). -/
structure Ctl where
  zd : Int                   -- integrators [2^-32 vlt] (R128)
  zq : Int
  zeta : Int                 -- angle-error integrator [2^-32 cu] (R136)
  ia : Int                   -- averages that the last loop used [2^-32 cu] (R129)
  ib : Int
  iaPrev : Int               -- the averages of the tick before
  ibPrev : Int
  lastA : Int                -- last valid measurement [2^-32 cu]
  lastB : Int
  predA : Int                -- average of the running tick as predicted [2^-32 cu] (R130)
  predB : Int
  va : Int                   -- applied winding voltage of the last complete tick [2^-32 vlt] (R162)
  vb : Int
  vaPrev : Int               -- and of the tick before
  vbPrev : Int
  vSkip : Bool               -- the applied voltage was not computed: a leg was tripped (R163)
  aerr : Int                 -- angle error [mstep] (R136)
  iqSat : Bool               -- iqr was clamped at I_lvl
  vsat : Bool                -- the voltage limiter acted in the last loop
  inv : Bool                 -- an average of the last loop was invalid
  carry : Bool               -- a volt-second carry arose in the last tick
  lvl : Int                  -- I_lvl [cu] (R138, R139)
  enRamp : Option Nat        -- step of the ramp after ENERGIZE (R141)
  rest : Option Nat          -- rest timer (R139)
  restIn : Bool              -- the rest timer belongs to PAUSED
  enAge : Option Nat         -- edges since ENERGIZE applied (R170)
  frame : Bool               -- the rotor frame is in force (R137)
  idMove : Option (Int × Nat)  -- idr on its way to IDREF: measured start and step (R137)
  trk : Vector Learn 4       -- RA, RB, LA, LB with 16 fraction bits (R145)
  tLast : Nat                -- rest ticks since the last L update or probe (R146)
  probe : Option Nat         -- edges since the item of the running probe started (R146)
  probeReq : Bool            -- the item of a probe has been requested and has not started
  probeStep : Option (Int × Int)  -- L's change that the first current step of the probe asks for, A and B [2^-32 µH]
  det : Vector Learn 6       -- DETA1, DETB1, DETA2, DETB2, DETA4, DETB4 [2^-32 mstep] (R149)
  detM : Int                 -- running mean [2^-32 mstep] (R150)
  velPrev : Int              -- vel_s of the edge before
  ea : Int                   -- back-EMF estimate [2^-32 vlt] (R164)
  eb : Int
  wHat : Int                 -- estimated speed [2^-32 electrical cycles per second]
  thMid : Int                -- estimated angle at the middle of tick j - 1 [2^-32 electrical cycle]
  thPub : Nat                -- published angle, 16 bits
  eps : Int                  -- sine of the angle error [2^-32]
  emag : Int                 -- amplitude [2^-32 vlt]
  obsRun : Nat               -- consecutive edges that meet R166
  errRun : Nat               -- consecutive edges with |eps| above 0.707
  ampRun : Nat               -- consecutive edges that fail the amplitude test
  obsValid : Bool
  reinit : Option Nat        -- pending re-initialisation: 0 sensor handover, 1 lock lost (R167)
  seed : Int × Int           -- angle [2^-32 cycle] and speed [2^-32 cycle per second] that it starts from, at the edge of the request
  seedAge : Nat              -- edges since that edge
  sPrev : Option Nat         -- raw sensor angle at the last edge (R168)
  sChg : List Int            -- its last changes, newest first, 4 at most
  sGood : Nat                -- consecutive valid edges of the sensor (R173)
  sLost : Bool               -- the sensor has been lost and not selected again
  sLast : Option (Nat × Int) -- motor angle at the last valid edge of the sensor and its speed [2^-32 of 16-bit units per tick] (R167)
  thLeft : Nat               -- frame angle of the source that the last change left (R137, R172)
  src : Nat                  -- selected source: 0 commanded, 1 sensor, 2 observer (R171)
  lang : Int                 -- load angle [mstep] (R175)
  lsrc : Nat
  langNew : Bool
  injRes : Option (Int × Nat)  -- last injection result [mstep] and its age in ticks
  injT : Option Nat          -- tick of the running burst, and two ticks more in which its currents are measured (R177, R178)
  injWait : Nat              -- ticks since the start of the last burst
  injI : List (Int × Int)    -- measured currents over the burst, newest first [2^-32 cu]
  injTh : Nat                -- direction of the current vector at its start, 16 bits
  injBad : Nat               -- consecutive abandoned bursts (R182)
  injLow : Bool              -- the last burst gave too little anisotropy
  crit : Vector Nat 4        -- consecutive evaluations of each stall criterion (R180)
  stallDue : Option Nat      -- a criterion has held STLN times
  quiet : Option Nat         -- after a stall: evaluations without any criterion (R181)
  sbl : Vector Learn 16      -- baselines with 8 fraction bits (R183)
  openRun : Vector Nat 4     -- consecutive ticks of the open criterion A, B and the sharing criterion A, B (R249, R250)
  duty : Vector Int 4        -- duties for the next tick [2^-24]: winding A first and second end, winding B (R196)
  rep : List (Nat × Int)     -- register values that commit with the tick, by offset in the axis window
  deriving DecidableEq, Repr

/-- Control state at reset and after an image makes the axis anew. -/
def Ctl.start : Ctl :=
  { zd := 0, zq := 0, zeta := 0, ia := 0, ib := 0, iaPrev := 0, ibPrev := 0, lastA := 0, lastB := 0, predA := 0, predB := 0, va := 0, vb := 0,
    vaPrev := 0, vbPrev := 0, vSkip := false, aerr := 0, iqSat := false, vsat := false,
    inv := false, carry := false, lvl := 0, enRamp := none, rest := none, restIn := false, enAge := none, frame := false,
    idMove := none, trk := Vector.replicate 4 (Learn.at 0), tLast := 0, probe := none, probeReq := false, probeStep := none,
    det := Vector.replicate 6 (Learn.at 0), detM := 0, velPrev := 0, ea := 0, eb := 0, wHat := 0, thMid := 0, thPub := 0,
    eps := 0, emag := 0, obsRun := 0, errRun := 0, ampRun := 0, obsValid := false, reinit := none, seed := (0, 0), seedAge := 0, sPrev := none,
    sChg := [], sGood := 0, sLost := false, sLast := none, thLeft := 0, src := 0, lang := 0, lsrc := 0, langNew := false, injRes := none,
    injT := none, injWait := 0, injI := [], injTh := 0, injBad := 0, injLow := false, crit := Vector.replicate 4 0,
    stallDue := none, quiet := none, sbl := Vector.replicate 16 (Learn.at 0), openRun := Vector.replicate 4 0,
    duty := Vector.replicate 4 0, rep := [] }

/-- The two copies of an axis's control state, and its place in the schedule (R43, R44). -/
structure Control where
  now : Ctl                  -- as of the last committed tick
  work : Ctl                 -- as the running tick has it so far
  committed : Bool           -- the axis has committed in this tick
  overRun : Nat               -- consecutive overblown edges (R45)
  deriving DecidableEq, Repr

/-! ### PWM units (07) -/

/-- One edge of a gate: which gate, whether it turns on, and the CORE clock and tap of the tick (R195). -/
structure GateEdge where
  high : Bool
  on : Bool
  clk : Nat
  tap : Nat
  deriving DecidableEq, Repr

/-- One PWM unit beside its registers. -/
structure PwmUnit where
  on : Bool                  -- it has started switching (R214)
  duty : Int                 -- duty in force [2^-24] (R196)
  period : Nat               -- the next period of the tick
  carry : Int                -- c [u] (R206)
  low : Int                  -- length of the low interval so far [u]
  sumH : Int                 -- windows applied in this tick, before compensation's residual [u]
  applied : Int              -- mean window of the last tick, as a fraction [2^-32] (R162)
  edges : List GateEdge      -- the edges last emitted, in their order (R197, R208, R214)
  hi : Bool                  -- the high-side gate is on before them
  lo : Bool                  -- the low-side gate is on before them
  offLow : Nat               -- CORE clocks since the low-side gate was last on, 65,535 at most (R233)
  satQuiet : Nat             -- periods since the last saturation (R207)
  carried : Bool             -- a nonzero carry arose in this tick
  full : Nat                 -- consecutive periods at full duty (R208)
  pulse : Bool               -- the next period begins with a refresh pulse (R208)
  pulsed : Bool              -- a refresh pulse fell in this tick (R221)
  skip : Bool                -- the last period had a suppressed interval or a refresh pulse (R203)
  drive : Nat                -- the drive strength in force, as GDRIVE (R231)
  tripped : Bool             -- the trip latch has been set in this tick (R163)
  te : Learn                 -- trimmer values with 16 fraction bits [u] (R202)
  dtr : Learn
  dtf : Learn
  dll : Learn                -- delay-line code with 16 fraction bits (R211)
  dllRun : Nat               -- consecutive updates within 2/16 tap
  dllOut : Bool              -- the lock has diverged: whole-clock placement until dll_freeze is cleared (R212)
  probe : Bool               -- the probe pattern drives the unit (R402, R405)
  deriving DecidableEq, Repr

/-- A PWM unit at reset: not switching, values at their nominals (R219). -/
def PwmUnit.start : PwmUnit :=
  { on := false, duty := 0, period := 0, carry := 0, low := 0, sumH := 0, applied := 0, edges := [], hi := false, lo := false,
    offLow := 65535, satQuiet := 1024, carried := false, full := 0, pulse := false, pulsed := false, skip := false, drive := 0x303,
    tripped := false, te := Learn.at (0x500 * 65536), dtr := Learn.at (0x500 * 65536),
    dtf := Learn.at (0x500 * 65536), dll := Learn.at (0x200 * 65536), dllRun := 0, dllOut := false, probe := false }

/-! ### Power stage (08) -/

/-- An enabling-type input: asserted, released, or not yet resolved (R238, R264). -/
inductive Pin where
  | low | high | unres
  deriving DecidableEq, Repr

/-- Torque off, trip inputs, supplies of the gates and the governor, beside their registers (08_power_stage.md). -/
structure Stage where
  toff : Vector Pin 2        -- TOFF0 and TOFF1: low asserts (R238)
  toffDue : Vector Bool 2    -- an assertion that the next edge acts on (R239)
  toffLog : Vector Bool 2    -- an assertion still to be logged
  toffDiff : Option Nat      -- CORE clocks that the inputs have differed (R240)
  toffSaid : Bool            -- the present difference has been logged (R240)
  trip : Vector Pin 4        -- TRIP0-TRIP3 as levels after their filter
  tripLog : Vector Bool 4    -- the standing assertion has been logged (R236)
  pump : Bool                -- the charge pump runs (R224)
  cpArmed : Bool             -- charge-pump undervoltage armed (R225)
  gdClk : Option Nat         -- CORE clocks since the gate-drive level was reconnected (R241)
  ot : Vector Bool 10        -- the thermal window of each group stands (R243)
  hard : Vector Bool 40      -- the hard limit senses current above 6 A (R228, R243)
  above : Vector Bool 48     -- the comparator is above OCTHR, or VDS above VDSTHR (R243)
  guard : Vector Nat 48      -- a gate senses on against its command: 0 no, 1 a stuck gate, 2 both gates on (R230, R243)
  buv : Vector Bool 8        -- the bootstrap voltage is below its release (R243)
  pSum : Vector Nat 10       -- power sums of the running governor window [2^-32 mW] (R246)
  pCnt : Nat                 -- ticks in the running governor window
  switched : Vector Bool 48  -- the unit switched in the tick
  axLim : Vector Nat 12      -- axlim [cu] (R247)
  govArm : Bool              -- 0x0804 is armed (R248)
  halt : Bool                -- debug halt (R215)
  haltMute : Vector Bool 12  -- axes that were switching at the halt
  dieForm : Vector Nat 48    -- the mute form latched in the power dies for each unit at the last valve-map change: 1 Float, 2 Brake (R216)
  strobeLost : Bool          -- the dies hold their mute forms, and the controller is about to reset (R216)
  deriving DecidableEq, Repr

/-- The power stage at reset: both TOFF inputs count as asserted until resolved, the charge pump is down (R256). -/
def Stage.start : Stage :=
  { toff := Vector.replicate 2 .unres, toffDue := Vector.replicate 2 false, toffLog := Vector.replicate 2 false,
    toffDiff := none, toffSaid := false, trip := Vector.replicate 4 .unres, tripLog := Vector.replicate 4 false, pump := false, cpArmed := false, gdClk := none, ot := Vector.replicate 10 false,
    hard := Vector.replicate 40 false, above := Vector.replicate 48 false, guard := Vector.replicate 48 0, buv := Vector.replicate 8 false, pSum := Vector.replicate 10 0, pCnt := 0,
    switched := Vector.replicate 48 false, axLim := Vector.replicate 12 32767, govArm := true, halt := false,
    haltMute := Vector.replicate 12 false, dieForm := Vector.replicate 48 1, strobeLost := false }

/-- One current modulator beside its registers (12_conversion.md). -/
structure Modu where
  running : Bool
  settle : Nat               -- CORE clocks until the settle time ends (R336)
  dirty : Bool               -- the running interval began before the settle time ended (R343)
  bad : Bool                 -- a failure falls in the running interval (R342)
  s1 : Int                   -- the state of the first integrator at the end of the last interval [1/64 bit weight] (R338)
  runs : List (Int × Bool)   -- averages of the intervals closed in this tick, newest first, with their invalid mark (R338)
  tick : List (Int × Bool)   -- the averages handed over at the last edge (R340)
  fails : List Nat           -- tick edges since each failure of the last 256 ticks (R342)
  dead : Bool
  restart : Bool             -- a restart waits for the edge (R342, R367)
  window : Nat               -- MCFG.win that the running interval uses (R339, R367)
  deriving DecidableEq, Repr

/-- A modulator that does not run. -/
def Modu.start : Modu :=
  { running := false, settle := 0, dirty := false, bad := false, s1 := 0, runs := [], tick := [], fails := [], dead := false, restart := false,
    window := 0 }

/-- A reserve item (R42): who asked (an axis, or a converter from 12 on), what for (0 observer, 1 probe, 2 urgent conversion, 3 failover), and the lane-cycles it still needs. -/
structure Item where
  who : Nat
  kind : Nat
  left : Nat
  age : Nat                  -- tick edges since the request
  deriving DecidableEq, Repr

/-- The sequencer (R41-R46). -/
structure Seqr where
  reserve : List Item        -- requests, the oldest first
  used : Nat                 -- lane-cycles used in this tick
  failLeft : Nat             -- lane-cycles that the failover still takes in this tick (R42)
  done : List Item           -- items that have completed and whose effect is due
  overAny : Bool             -- an axis overblew at the last edge
  load : Nat                 -- the load of the tick that the last edge ended (R46)
  inUse : List (Nat × Nat)   -- registers written since the last edge, with the value that the running tick uses (R142, R193)
  seeds : List (Nat × Nat)   -- learned values written since the last edge, by their registers: used from the next edge (R154)
  deriving DecidableEq, Repr

/-- An idle sequencer. -/
def Seqr.start : Seqr := { reserve := [], used := 0, failLeft := 0, done := [], overAny := false, load := 0, inUse := [], seeds := [] }

/-! ### Pins and homing (09) -/

/-- The general-purpose pins beside their registers (09_inputs_and_homing.md). -/
structure Pins where
  lvl : Vector Bool 24       -- synchronised level (R262)
  res : Vector Bool 24       -- resolved (R264)
  newRes : Vector (Option Bool) 24  -- the level resolved since the last edge (R264)
  qual : Vector Bool 24      -- qualified level, before inversion (R267)
  edged : Vector Bool 24     -- a raw edge waits to qualify
  age : Vector Nat 24        -- CORE clocks since the last raw edge
  latch : Vector Int 24      -- pos at the last raw edge (R268)
  win : Vector (Option (Nat × Nat)) 24  -- chatter window: tick edges since it opened, and raw edges counted (R269)
  drive : Vector Bool 24     -- the pin is an output that drives (R261)
  ana : Vector Bool 24       -- MODE.ana as the last edge took it (R288)
  out : Vector Bool 24       -- output data as the last edge took it (R288)
  gpLeft : Option Nat        -- CORE clocks left of the GP resolve interval (R263)
  dedLeft : Option Nat       -- CORE clocks left of the interval of the dedicated inputs
  enClk : Nat                -- CORE clocks that the enabling contacts have differed (R280)
  tow : Nat                  -- CORE clocks that tick-out stays high (R282)
  cow : Nat                  -- CORE clocks that cycle-out stays high
  deriving DecidableEq, Repr

/-- Pins at reset: unresolved inputs. -/
def Pins.start : Pins :=
  { lvl := Vector.replicate 24 false, res := Vector.replicate 24 false, newRes := Vector.replicate 24 none, ana := Vector.replicate 24 false, out := Vector.replicate 24 false,
    qual := Vector.replicate 24 false, edged := Vector.replicate 24 false, age := Vector.replicate 24 0,
    latch := Vector.replicate 24 0, win := Vector.replicate 24 none, drive := Vector.replicate 24 false, gpLeft := none,
    dedLeft := none, enClk := 0, tow := 0, cow := 0 }

/-- A change of a switch that a homing leg waits for (R274): 0 negative limit, 1 positive limit, 2 home; whether it asserts;
and where its capture goes: 0 nowhere, 1 capt or a, 2 b. -/
structure Await where
  sw : Nat
  on : Bool
  cap : Nat
  deriving DecidableEq, Repr

/-- One leg of a homing method (R274): a search, or the planned move of method 5. -/
structure Leg where
  phase : Nat
  dir : Int
  slow : Bool
  wait : List Await
  p1 : Bool                  -- P1 of method 4: the side-d limit starts the reversal
  back : Bool                -- the planned move of -d × HBACK
  deriving DecidableEq, Repr

/-- What a homing method still has to do: a leg, or the legs of method 3 from P1 (R274). -/
inductive HomeStep where
  | leg (l : Leg)
  | again
  deriving DecidableEq, Repr

/-- Where a homing phase stands (R273). -/
inductive HomeMode where
  | idle | search | stop
  deriving DecidableEq, Repr

/-- A homing method in progress. -/
structure Homing where
  m : Nat
  mode : HomeMode
  leg : Option Leg
  todo : List HomeStep
  p0 : Int                   -- pos at the rest from which the phase started [mstep]
  capA : Int
  capB : Int
  rev : Bool
  ticks : Nat                -- edges in this phase
  deriving DecidableEq, Repr

/-- No homing. -/
def Homing.start : Homing := ⟨0, .idle, none, [], 0, 0, 0, false, 0⟩

/-! ### Excitation drivers and sensor ports (10) -/

/-- One excitation driver beside its registers (R289-R293). -/
structure Exc where
  run : Bool                 -- the output runs
  age : Nat                  -- CORE clocks since the start: φ = age × INC mod 2^32 (R289)
  settleAt : Option Nat      -- age of the settle moment (R290)
  missing : Bool             -- the standing open is a missing load (R293)
  logOpen : Bool             -- an open waits to be logged with its first spoiled angle (R302)
  deriving DecidableEq, Repr

/-- A stopped driver. -/
def Exc.start : Exc := ⟨false, 0, none, false, false⟩

/-- A span of spoiled slots (R298): its onset and its recovery, as ages of the driver, and whether an open caused it. -/
structure Spoil where
  onset : Int
  until_ : Option Nat
  isOpen : Bool
  deriving DecidableEq, Repr

/-- A fit of one window (R300): amplitudes and mean of both channels, clamped samples, sample counts, conditioning; 2^-32 codes. -/
structure Fit where
  aSin : Int
  aCos : Int
  bSin : Int
  bCos : Int
  mSin : Int
  mCos : Int
  nSin : Nat
  nCos : Nat
  clamp : Bool
  cond : Bool
  deriving DecidableEq, Repr

/-- One sensor port beside its registers (R294-R303). -/
structure Port where
  spoils : List Spoil        -- newest first, 8 at most
  pass : Nat                 -- consecutive passing tests (R303)
  cause : Nat                -- detail word 2 of the notice still to be logged (R302)
  logTest : Bool             -- a failed test waits to be logged with its first spoiled angle
  inj : Bool                 -- that test was injected (R502)
  sel : Option Nat           -- index of the slot boundary that ends the window selected at the last edge (R299)
  selOld : Option Nat        -- and of the window last published
  fit : Option Fit           -- the demodulation of the selected window
  smp : List (Bool × Int × Nat)  -- delivered unmarked samples, newest first: COS, code, age of the driver at the sampling instant (R295)
  deriving DecidableEq, Repr

/-- A port that has seen nothing. -/
def Port.start : Port := ⟨[], 0, 0, false, false, none, none, none, []⟩

/-! ### Force and touch channels (11) -/

/-- One force channel beside its registers (11_force_channels.md). -/
structure Force where
  q : Int                    -- Q of the last usable sample [qc] (R314)
  sumQ : Int                 -- over the usable samples of this tick (R316)
  n : Nat
  xMax : Nat                 -- largest |x| of the usable readings of this tick (R319)
  xLast : Int                -- present reading [codes]
  down : Nat                 -- consecutive ticks with every reading below 410 codes (R319)
  clamped : Bool             -- a sample has clamped since the last edge (R320)
  frac : Int                 -- drift fraction [2^-12 qc] (R324)
  on : Nat                   -- consecutive samples above TTHR (R326)
  off : Nat                  -- consecutive samples below TREL
  quiet : Nat                -- quiet ticks (R325)
  settle : Nat               -- CORE clocks of the settle time left (R321)
  resetting : Nat            -- CORE clocks of the reset switch left (R323)
  held : Option (Nat × Nat)  -- a step down whose held output is still to be converted: old and new range (R318)
  cmd : Option PendCmd       -- (R333)
  retract : Bool             -- the touch has not been acted on yet (R400)
  deriving DecidableEq, Repr

/-- A channel that is powered down. -/
def Force.start : Force := ⟨0, 0, 0, 0, 0, 0, false, 0, 0, 0, 0, 0, 0, none, none, false⟩

/-! ### SAR converters (12) -/

/-- A sample held until a later reference conversion of its converter passes (R350): its kind (0, 1 an entry of that converter's
sequence, 2 the held output of force channel e, 3 a host request), entry or channel, input, code, settle mark, and the age of the
excitation driver at the sampling instant. -/
structure Sample where
  kind : Nat
  e : Nat
  input : Nat
  x : Int
  settle : Bool
  age : Nat
  deriving DecidableEq, Repr

/-- One converter beside its registers (R344-R361). -/
structure Adc where
  pos : Nat                  -- next entry of its own sequence
  adopt : Nat                -- next entry of the adopted sequence (R359)
  idx : Nat                  -- slots of the sequences in this tick, urgent conversions apart
  slotAt : Nat               -- CORE clock at which the next slot starts, or the running one started
  slots : Nat                -- conversions of this tick, urgent ones included
  held : List Sample         -- samples not yet delivered, oldest first
  ref : Option Int           -- latest reference result
  refEdge : Nat              -- tick edges since that result
  refClk : Nat               -- and its CORE clock
  queue : List (Bool × Nat)  -- urgent requests, oldest first: host and input, or step down and channel (R352)
  hostTaken : Bool           -- a host urgent conversion has been taken in this tick (R353)
  hostAcc : Nat              -- the accessor of the last host request
  young : List (Nat × Nat)   -- entries (sequence * 32 + index) with settle-marked conversions left (R354)
  foLog : Bool               -- the first adopted conversion is still to be logged (R358)
  recheck : Bool             -- a RECHECK runs
  rejoin : Bool              -- the converter rejoins at the next edge (R361)
  deriving DecidableEq, Repr

/-- An idle converter. -/
def Adc.start : Adc :=
  { pos := 0, adopt := 0, idx := 0, slotAt := 1, slots := 0, held := [], ref := none, refEdge := 0, refClk := 0, queue := [],
    hostTaken := false, hostAcc := 0, young := [], foLog := false, recheck := false, rejoin := false }

/-- What the converters keep between them: the sum of the VM reading (R351) and the settle times of the filtered inputs [CORE clocks] (R354). -/
structure Conv where
  vmSum : Int
  vmN : Nat
  inSettle : Vector Nat 12   -- inputs 24-31, then 58-61
  deriving DecidableEq, Repr

/-- Nothing converted. -/
def Conv.start : Conv := ⟨0, 0, Vector.replicate 12 0⟩

/-! ### Comparators (13) -/

/-- The auto-zero of one comparator (R381, R384). -/
structure Az where
  acc : Int
  hist : List Int            -- the trims of its last 64 steps, newest first
  run : Nat                  -- consecutive samples with the trim at ±31
  deriving DecidableEq, Repr

/-- The comparators beside their registers (13_comparators.md). -/
structure Comps where
  az : Vector Az 101
  tests : List (Nat × Nat)   -- self-checks in progress: comparator and CORE clocks left (R386)
  stAcc : Option (Nat × Nat) -- the comparator and accessor of a SELFTEST in progress (R388)
  hold : Vector Nat 8        -- CORE clocks that the output of a CMP is still held (R372, R382)
  held : Vector (Option Bool) 8  -- a change that waits for the end of the hold (R389)
  azTick : Vector Nat 8      -- tick edges since the last auto-zero slot
  warned : Vector Bool 11    -- the temperature warning stands (R378)
  armed : Vector Bool 12     -- window events armed: supplies under 0-5, over 6-11 (R376)
  dieArmed : Bool            -- the die trip is armed (R377)
  swapped : List Nat         -- comparators frozen since their shadow replaced them (R383, R387)
  wakeLeft : Vector Nat 2    -- CORE clocks of the new filter interval of an asserted wake input whose WCFG was written, and 1 more (R394)
  deriving DecidableEq, Repr

/-- Comparators at reset. -/
def Comps.start : Comps :=
  { az := Vector.replicate 101 ⟨0, [], 0⟩, tests := [], stAcc := none, hold := Vector.replicate 8 0,
    held := Vector.replicate 8 none, azTick := Vector.replicate 8 0, warned := Vector.replicate 11 false,
    armed := Vector.replicate 12 true, dieArmed := true, swapped := [], wakeLeft := Vector.replicate 2 0 }

/-! ### Yield, touch and hot-plug (14) -/

/-- Yield, touch action, hot-plug and identification of one axis (14_beside_people.md). -/
structure People where
  v : Int                    -- model velocity of the running tick [2^-32 vu] (R396)
  vDone : Int                -- and as of the last committed tick
  flast : Int                -- last valid input (R396)
  miss : Nat                 -- consecutive ticks without a valid input
  held : Bool                -- a limit has held v: it is taken again from vel_s (R400)
  retract : Option Int       -- a retract is due after rest, in this direction (R401)
  back : Bool                -- the retract moves
  probes : Nat               -- consecutive probes that agree (R402, R404)
  fromUnplug : Bool          -- the identification was entered from UNPLUGGED (R406)
  idTick : Nat               -- ticks of the identification (R405)
  probeTick : Nat            -- ticks since entry to MUTE or UNPLUGGED, or since the last continuity probe fell due (R402, R404)
  probe : Option Nat         -- ticks left of a continuity probe; 0 once it has ended, until its finding is known
  deriving DecidableEq, Repr

/-- Nothing in progress. -/
def People.start : People := ⟨0, 0, 0, 0, false, none, false, 0, false, 0, 0, none⟩

/-! ### The backbone (15) -/

/-- A frame in an egress queue (R429): its queue, its bytes from the destination address to the payload, whether it leaves with an
inverted FCS (R428), and the session whose reply it is, 8 for none. -/
structure Frame where
  q : Nat
  bytes : List Byte
  bad : Bool
  k : Nat
  deriving DecidableEq, Repr

/-- One Ethernet port beside its registers (R416-R419, R429). -/
structure NetPort where
  hist : List (Nat × Int × Int)  -- boost, h1, h2 before the last equaliser updates, newest first, 256 at most
  runs : Vector Nat 3            -- consecutive updates of boost, h1 and h2 at a bound with an invalid code group (R419)
  txq : List Frame               -- frames that wait, oldest first
  wire : Option Frame            -- the frame last sent
  load : Nat                     -- time of the Q3 frames sent in this cycle [8 ns]
  deriving DecidableEq, Repr

/-- An entry of the duplicate filter (R432). -/
structure Dup where
  src : Nat
  hi : BitVec 16
  map : BitVec 64
  deriving DecidableEq, Repr

/-- A request accepted and not yet executed (R445, R446): the client's device, session, generation, request ID, operation, word
count, address, data bytes, the nine bytes that the reply echoes, and for an OPEN with world 1 whether its tag held (R473). -/
structure Req where
  src : Nat
  k : Nat
  gen : Nat
  rid : BitVec 16
  op : Nat
  n : Nat
  addr : Nat
  data : List Byte
  echo : List Byte
  tagOk : Bool
  deriving DecidableEq, Repr

/-- One session beside its registers (R444, R445, R473-R475). -/
structure Sess where
  hi : Option (BitVec 16)
  map : BitVec 8                 -- bit b - 1: the request hi - b has been executed
  cache : List (BitVec 16 × List Byte)  -- the last 8 replies, newest first
  key : Option (BitVec 128)      -- KS of a secure session
  count : Nat                    -- requests executed
  idle : Nat                     -- CORE clocks since the last request
  deriving DecidableEq, Repr

/-- The backbone beside its registers (15_backbone.md). -/
structure Net where
  port : Vector NetPort 2
  dups : List Dup                -- most recently heard first
  pend : List (Nat × BitVec 48)  -- values pending for subscription entries, by entry (R441)
  added : List Nat               -- entries added in this cycle (R443)
  seen : List Nat                -- sources whose frame of this cycle has been used (R425)
  missSrc : List Nat             -- sources whose entries missed the last cycle (R441)
  uobj : Vector (List Word) 16   -- published records of the user objects (R440)
  unext : List (Nat × List Word) -- committed records for the next boundary
  locked : Bool                  -- the timebase has reached LOCKED or MASTER since reset (R438)
  cand : Nat                     -- the address being claimed
  claims : Nat                   -- CLAIMs sent for it
  asked : Nat                    -- REQUESTs sent
  claimClk : Nat                 -- CORE clocks since the last CLAIM or REQUEST (R435, R436)
  claimer : Option Nat           -- the accessor whose command CLAIM is in progress
  autoDue : Bool                 -- a claim starts at the next link-up (R438)
  known : List Nat               -- addresses seen by the manager (R436)
  sess : Vector Sess 8
  reqs : List Req                -- requests in order of arrival
  built : Option (Nat × BitVec 32 × List Byte)  -- the cyclic frame that waits for TXDLY: source, cycle, payload (R440)
  txLeft : Nat                   -- CORE clocks until it enters its queues
  deriving DecidableEq, Repr

/-- A closed session. -/
def Sess.start : Sess := ⟨none, 0, [], none, 0, 0⟩
/-- A port at reset. -/
def NetPort.start : NetPort := ⟨[], Vector.replicate 3 0, [], none, 0⟩
/-- The backbone at reset. -/
def Net.start : Net :=
  { port := Vector.replicate 2 NetPort.start, dups := [], pend := [], added := [], seen := [], missSrc := [],
    uobj := Vector.replicate 16 (List.replicate 8 0), unext := [], locked := false, cand := 0, claims := 0, asked := 0, claimClk := 0,
    claimer := none, autoDue := false, known := [], sess := Vector.replicate 8 Sess.start, reqs := [], built := none, txLeft := 0 }

/-! ### Worlds (16), host ports (18), reset and shelf (20) -/

/-- The device key in OTP and its staged words (R472). -/
structure World where
  dkey : Option (BitVec 128)
  dkw : Vector (Option Word) 8
  mapDue : Option (List Nat × Nat)   -- the map that becomes active in the next CORE clock: block words and regions (R467)
  tokenDue : Option (Nat × Byte × Fin 15)  -- the token moves in the next CORE clock: new holder, argument and accessor of the command (R463)
  imageMap : Bool                    -- a full image has set the map in this CORE clock (R470)
  deriving DecidableEq, Repr

/-- No device key (R472). -/
def World.start : World := ⟨none, Vector.replicate 8 none, none, none, false⟩

/-- What a host port drove in its last transaction: the status word and the data words (R510-R513). -/
structure HostOut where
  status : Word
  data : List (BitVec 32)
  deriving DecidableEq, Repr

/-- Shelf state and its entry (R564-R566). -/
inductive ShelfSt where
  | running
  | testing              -- step 1: the wake comparators are tested
  | leaving (k : Nat)    -- after step 2: CORE clocks until the ports are disabled
  | shelf
  deriving DecidableEq, Repr

/-- Reset, boot and shelf (20_power_reset_shelf.md), the JTAG port (R531-R536) and the test lock (R501). -/
structure Power where
  inReset : Bool
  causes : Nat           -- triggers of the reset in progress, as bits of DEV.RSTCAUSE (R545)
  cold : Bool            -- it is a power-on or a wake (R558)
  vddLost : Bool         -- VDD has left its window in it (R493)
  aonNew : Bool          -- the always-on domain has started fresh (R544)
  softDue : Option Nat   -- CORE clocks until a software reset (R546)
  shelf : ShelfSt
  lock : Bool            -- the OTP test lock is programmed (R503)
  clearing : Bool        -- the path-memory clear runs (R550)
  relClk : Nat           -- CORE clocks since the release, up to the end of the boot's start (R559)
  wakeBits : Nat         -- wake events latched while the controller die is off or goes off, as bits of CMP.WKSTAT (R567)
  ir : Nat               -- the active JTAG instruction (R532)
  scan : List Bool       -- the boundary-scan register as last loaded (R533)
  haltReq : Bool         -- DBG_CTRL requests last taken (R534)
  rstReq : Bool
  dbgStatus : Nat        -- result of the last DBG_ACC access (R535)
  dbgData : BitVec 32
  deriving DecidableEq, Repr

/-- Out of reset, with the TAP in Test-Logic-Reset (R531). -/
def Power.start : Power :=
  { inReset := false, causes := 0, cold := false, vddLost := false, aonNew := false, softDue := none, shelf := .running,
    lock := false, clearing := false, relClk := 0, wakeBits := 0, ir := 2, scan := [], haltReq := false, rstReq := false, dbgStatus := 0, dbgData := 0 }


/-- One axis engine. -/
structure Axis where
  mot : Motion
  fol : Follow
  ctl : Control
  hom : Homing
  ppl : People
  deriving DecidableEq, Repr

/-- The whole state of the part. -/
structure State where
  pending : List Instr             -- MODEL: the commands that wait, first in, first out
  fresh : Nat                      -- MODEL: how many free values have been taken (Config.freeValue)
  regs : List (Nat × Val)          -- the register file: values that differ from their reset value, by address, rising
  path : List Host.Cell            -- path memory: bytes that differ from 0, by address, rising (R548-R550)
  acc : Vector Accessor 15         -- the accessors 0-14 (R456)
  flt : Faults
  tim : Timebase
  img : Image
  bore : Bore
  axes : Vector Axis 12
  units : Vector PwmUnit 48        -- HB0-HB39, then GD0-GD7
  stage : Stage
  mods : Vector Modu 24
  seq : Seqr
  pins : Pins
  ports : Vector Port 8
  excs : Vector Exc 4
  frcs : Vector Force 8
  adcs : Vector Adc 2
  conv : Conv
  cmps : Comps
  net : Net
  wld : World
  pow : Power
  host : Vector HostOut 2          -- HPA and HPS
  deriving DecidableEq, Repr

/-- Why the part stops with a fault: the model raises none, because every command of the spec ends in a state the spec gives. -/
inductive Fault where
  /-- Raised by nothing: kept so that the type is not empty. Safe. -/
  | none
  deriving DecidableEq, Repr

/-- Why a command is refused by the model. -/
inductive Refusal where
  /-- The command has no meaning yet: raised by an arm of `exec`. Safe: nothing is claimed of what the command does. -/
  | notModelled (mnemonic : String)
  deriving DecidableEq, Repr

/-- Flat start values. -/
def Faults.start : Faults := ⟨[], 0, [], [], [], [], [], [], [], 0, false, [], [], false, false, none, 0, [], [], 0, false⟩

/-- The timebase after reset (R22, R38, R48). -/
def Timebase.start : Timebase :=
  { time := 0, tick := 0, edgeH := 0, cyc := 0, clk := 0, gridH := 0, ticking := false, st := .free,
    integ := 0, rate := 0, rates := [], goodRun := 0, outRun := 0, limRun := 0, mute := false,
    role := Vector.replicate 2 .disabled, asCap := Vector.replicate 2 false, pdGood := Vector.replicate 2 0,
    pdBad := Vector.replicate 2 0, delay := Vector.replicate 2 0, step := none, stepAdj := false, slew := 0, slewing := false, servoSlew := false,
    stepCycle := false, msgs := 0, gmId := 0,
    ptp := Vector.replicate 2 PtpPort.start, relay := none, syncLeft := none }

/-- No image (R74). -/
def Image.start : Image :=
  { active := false, map := Vector.replicate 12 AxRec.none, items := [], sar := [[], []], dflt := [],
    exc := [], source := 0, keyslot := 0, alt := false }

/-- An empty load buffer over blank key slots (R58). -/
def Bore.start : Bore :=
  { buf := .empty, bytes := [], apply := false, boot := false, bootDone := false, alt := false, src := 0, affected := [],
    keys := Vector.replicate 4 none, revoked := Vector.replicate 4 false, progs := 0, newGrid := false }

/-- An axis engine at reset: OFF at position 0 (R558). -/
def Motion.start : Motion :=
  { st := .off, pos := 0, vel := 0, acc := 0, jrk := 0, snapPos := 0, snapVel := 0, prevPos := 0, segs := [], goal := .none,
    req := none, target := 0, hasTarget := false, rem := 0, remValid := false, keep := false, atTarget := false,
    vmode := false, toFault := false, modOff := 0, cmd := none, tableOk := false, loSeen := false, hiSeen := false, inward := false, told := false, soft := none,
    softNew := false, lim := (0, 0, 0, 0),
    next := none, restart := false, replan := false }

/-- No following. -/
def Follow.start : Follow :=
  { mode := 0, armed := false, pPrev := 0, pPrev2 := 0, pNext := 0, i := 0, missed := 0, ended := false, m0 := 0, g0 := 0, qLast := 0,
    phi0 := 0, t := 0, tAnchor := 0, seg := 0, newArm := false, tN := 0, tRep := false, slot := 0, num := 1, den := 1, rem := 0, mPrev := 0, kind := 0, idx := 0,
    reanchor := false, ferrArmed := true, lag := 0, counts := 0, stepIn := false, stepRun := 0, dirIn := false, dirRun := 0, dirAge := 0, outDir := false, outDirAge := 0, outAge := 0, outHigh := 0,
    outCell := 0, track := none }

/-- Control state at reset. -/
def Control.start : Control := { now := Ctl.start, work := Ctl.start, committed := true, overRun := 0 }

/-- An axis at reset. -/
def Axis.start : Axis := { mot := Motion.start, fol := Follow.start, ctl := Control.start, hom := Homing.start, ppl := People.start }

/-- Every register at its reset value, no image, no tick, nothing waiting (R542, R558). -/
def State.blank : State :=
  { pending := [], fresh := 0, regs := [], path := [], acc := Vector.replicate 15 Accessor.fresh, flt := Faults.start,
    tim := Timebase.start, img := Image.start, bore := Bore.start, axes := Vector.replicate 12 Axis.start,
    units := Vector.replicate 48 PwmUnit.start, stage := Stage.start, mods := Vector.replicate 24 Modu.start,
    seq := Seqr.start, pins := Pins.start, ports := Vector.replicate 8 Port.start, excs := Vector.replicate 4 Exc.start,
    frcs := Vector.replicate 8 Force.start, adcs := Vector.replicate 2 Adc.start, conv := Conv.start, cmps := Comps.start,
    net := Net.start, wld := World.start, pow := Power.start, host := Vector.replicate 2 ⟨0, []⟩ }

/-- The CORE clocks of the interval of the dedicated inputs (R263). -/
def dedInterval : Nat := 400000

/-- The part right after the release of its first power-on reset: the always-on domain has started fresh (STATUS.aon_new), por is the
recorded cause, one release is counted, the path-memory clear runs and the dedicated inputs resolve (R494, R544, R545, R558, R559). -/
def State.reset : State :=
  { State.blank with
    regs := [(0x0C, 0x1000), (0x10, 0x8000), (0x040200, 1)], pow := { Power.start with clearing := true },
    pins := { Pins.start with dedLeft := some dedInterval } }

end Sys2Proof.Machine
end

