-- ==== Sys2Proof/Machine/Ops.lean ====
section
/-! DEFINITION. The named operations: sparse tables in canonical form, path memory, register values, free values, and the
integer arithmetic (floors, roots, saturation) that the chapters use. -/

namespace Sys2Proof.Machine

/-! ### Sparse tables in canonical form -/

/-- What a sparse table holds at key `a`: the default where no entry stands. -/
def spGet {V : Type} (d : Nat → V) : List (Nat × V) → Nat → V
  | [], a => d a
  | (k, v) :: t, a => if a = k then v else spGet d t a

/-- The table with an entry `v` at key `a`, in the order of the keys. -/
def spIns {V : Type} : List (Nat × V) → Nat → V → List (Nat × V)
  | [], a, v => [(a, v)]
  | (k, w) :: t, a, v => if a = k then (a, v) :: t else if a < k then (a, v) :: (k, w) :: t else (k, w) :: spIns t a v

/-- The table without an entry at key `a`. -/
def spDel {V : Type} : List (Nat × V) → Nat → List (Nat × V)
  | [], _ => []
  | (k, w) :: t, a => if a = k then spDel t a else (k, w) :: spDel t a

/-- The table with `v` at key `a`; an entry equal to the default is not kept. -/
def spPut {V : Type} [DecidableEq V] (d : Nat → V) (m : List (Nat × V)) (a : Nat) (v : V) : List (Nat × V) :=
  if v = d a then spDel m a else spIns m a v

/-- Canonical form: keys rise strictly from at least `lo`, and no entry equals the default. -/
def spWfFrom {V : Type} [DecidableEq V] (d : Nat → V) : Nat → List (Nat × V) → Bool
  | _, [] => true
  | lo, (k, v) :: t => decide (lo ≤ k) && decide (v ≠ d k) && spWfFrom d (k + 1) t

/-- The canonical form of a whole table. -/
def spWf {V : Type} [DecidableEq V] (d : Nat → V) (m : List (Nat × V)) : Bool := spWfFrom d 0 m

/-! ### Path memory (R548-R550) -/

/-- What a byte of path memory that nothing has written reads as: the clear of R550 leaves 0. -/
def pathDefault (_ : Nat) : Byte := 0

/-- The byte of path memory at an address. -/
def pathByte (m : List Host.Cell) (a : Nat) : Byte := spGet pathDefault m a

/-- Path memory is in canonical form. -/
abbrev Memory.wf (m : List Host.Cell) : Prop := spWf pathDefault m = true

/-- The 32-bit word at address `a` (R549); which of its bytes lies lowest cannot be seen, and is the least significant here. -/
def pathWord (m : List Host.Cell) (a : Nat) : BitVec 32 :=
  pathByte m (a + 3) ++ pathByte m (a + 2) ++ pathByte m (a + 1) ++ pathByte m a

/-- Path memory after a write of all 32 bits at `a` (R549). -/
def pathWrite (m : List Host.Cell) (a : Nat) (w : BitVec 32) : List Host.Cell :=
  let put := spPut pathDefault
  put (put (put (put m a (w.extractLsb' 0 8)) (a + 1) (w.extractLsb' 8 8)) (a + 2) (w.extractLsb' 16 8)) (a + 3)
    (w.extractLsb' 24 8)

/-! ### Register values -/

/-- The register value whose _L word lies at `b`, as it stands. -/
def State.val (s : State) (b : Nat) : Val := spGet resetOf s.regs b

/-- The register file is in canonical form. -/
abbrev Regs.wf (m : List (Nat × Val)) : Prop := spWf resetOf m = true

/-- The state with value `v` in the register at `b`. -/
def State.setVal (s : State) (b : Nat) (v : Val) : State := { s with regs := spPut resetOf s.regs b v }

/-- The register value at `b` as a natural number. -/
def State.rd (s : State) (b : Nat) : Nat := (s.val b).toNat

/-- The register value at `b` as a two's complement number of `w` bits. -/
def State.rdI (s : State) (w b : Nat) : Int := ((s.val b).setWidth w).toInt

/-- The state with the natural number `v` in the register at `b`, modulo 2 ^ 64. -/
def State.wr (s : State) (b v : Nat) : State := s.setVal b (BitVec.ofNat 64 v)

/-- The state with the number `v` in the register at `b`, in two's complement of `w` bits. -/
def State.wrI (s : State) (w b : Nat) (v : Int) : State := s.setVal b ((BitVec.ofInt w v).setWidth 64)

/-- Bit `i` of the register at `b`. -/
def State.bit (s : State) (b i : Nat) : Bool := (s.val b).getLsbD i

/-- The state with bit `i` of the register at `b` set or cleared. -/
def State.setBit (s : State) (b i : Nat) (x : Bool) : State :=
  s.setVal b (if x then s.val b ||| BitVec.twoPow 64 i else s.val b &&& ~~~ BitVec.twoPow 64 i)

/-- Bits hi:lo of a number. -/
def fld (v hi lo : Nat) : Nat := v / 2 ^ lo % 2 ^ (hi - lo + 1)

/-- Field hi:lo of the register at `b`. -/
def State.fld (s : State) (b hi lo : Nat) : Nat := Machine.fld (s.rd b) hi lo

/-- The state with field hi:lo of the register at `b` set to `x`. -/
def State.setFld (s : State) (b hi lo x : Nat) : State :=
  let v := s.rd b
  let m := 2 ^ (hi - lo + 1)
  s.wr b (v - v / 2 ^ lo % m * 2 ^ lo + x % m * 2 ^ lo)

/-- A count that stops at 0xFFFF goes up by `k`. -/
def State.bump (s : State) (b : Nat) (k : Nat := 1) : State := s.wr b (min 0xFFFF (s.rd b + k))

/-- The registers of AX[n] as numbers. -/
def State.axr (s : State) (n : Fin 12) (o : Nat) : Nat := s.rd (axBase n + o)
/-- A signed 16-bit register of AX[n]. -/
def State.ax16 (s : State) (n : Fin 12) (o : Nat) : Int := s.rdI 16 (axBase n + o)
/-- A signed 32-bit register of AX[n]. -/
def State.ax32 (s : State) (n : Fin 12) (o : Nat) : Int := s.rdI 32 (axBase n + o)
/-- A signed 48-bit register of AX[n]. -/
def State.ax48 (s : State) (n : Fin 12) (o : Nat) : Int := s.rdI 48 (axBase n + o)
/-- Bit `i` of a register of AX[n]. -/
def State.axb (s : State) (n : Fin 12) (o i : Nat) : Bool := s.bit (axBase n + o) i

/-- The value of a register that the running tick uses: a write since the last edge acts from the next one (R142, R193). -/
def State.rdu (s : State) (b : Nat) : Nat := match s.seq.inUse.find? (fun e => e.1 == b) with | some e => e.2 | none => s.rd b
/-- Field hi:lo of the value that the running tick uses. -/
def State.fldu (s : State) (b hi lo : Nat) : Nat := Machine.fld (s.rdu b) hi lo
/-- A register of AX[n] as the running tick uses it. -/
def State.axu (s : State) (n : Fin 12) (o : Nat) : Nat := s.rdu (axBase n + o)
/-- A signed 16-bit register of AX[n] as the running tick uses it. -/
def State.axu16 (s : State) (n : Fin 12) (o : Nat) : Int := (BitVec.ofNat 16 (s.axu n o)).toInt
/-- Bit `i` of a register of AX[n] as the running tick uses it. -/
def State.axub (s : State) (n : Fin 12) (o i : Nat) : Bool := (s.axu n o).testBit i

/-- A write to the register at `b` that the running tick does not see: the value that it uses is kept (R142, R193). -/
def State.keepUse (s : State) (b : Nat) : State :=
  if s.seq.inUse.any (fun e => e.1 == b) then s else { s with seq := { s.seq with inUse := (b, s.rd b) :: s.seq.inUse } }

/-! ### Structures of the state -/

/-- A table with one entry changed by `f`. -/
def vupd {V : Type} {k : Nat} (v : Vector V k) (i : Fin k) (f : V → V) : Vector V k := v.set i (f v[i])

/-- The state with axis n changed. -/
def State.onAx (s : State) (n : Fin 12) (f : Axis → Axis) : State := { s with axes := vupd s.axes n f }
/-- The state with the motion of axis n changed. -/
def State.onMot (s : State) (n : Fin 12) (f : Motion → Motion) : State := s.onAx n (fun a => { a with mot := f a.mot })
/-- The state with the following of axis n changed. -/
def State.onFol (s : State) (n : Fin 12) (f : Follow → Follow) : State := s.onAx n (fun a => { a with fol := f a.fol })
/-- The motion of axis n. -/
def State.mot (s : State) (n : Fin 12) : Motion := s.axes[n].mot
/-- The following of axis n. -/
def State.fol (s : State) (n : Fin 12) : Follow := s.axes[n].fol
/-- The state of axis n (R91). -/
def State.st (s : State) (n : Fin 12) : AxState := (s.mot n).st
/-- The valve-map record of axis n (R61). -/
def State.recd (s : State) (n : Fin 12) : AxRec := s.img.map[n]
/-- The state with its fault manager changed. -/
def State.onFlt (s : State) (f : Faults → Faults) : State := { s with flt := f s.flt }
/-- The state with its timebase changed. -/
def State.onTim (s : State) (f : Timebase → Timebase) : State := { s with tim := f s.tim }
/-- The state with its load buffer changed. -/
def State.onBore (s : State) (f : Bore → Bore) : State := { s with bore := f s.bore }
/-- The state with accessor `a` changed. -/
def State.onAcc (s : State) (a : Fin 15) (f : Accessor → Accessor) : State := { s with acc := vupd s.acc a f }

/-- The record at `b` is replaced: it is newer than the snapshots taken of it (R355). -/
def State.replaced (s : State) (b : Nat) : State :=
  { s with acc := s.acc.map (fun a => if a.shadows.any (fun e => e.1 == b) && !a.newer.contains b then { a with newer := b :: a.newer } else a) }

/-- Every axis in ascending order. -/
def allAxes : List (Fin 12) := List.finRange 12
/-- `f` over a list, from the left. -/
def overList {A : Type} (l : List A) (f : State → A → State) (s : State) : State := l.foldl f s

/-- A request among the others: behind older ones, and in a tick by ascending number (R42). -/
def insertItem (x : Item) : List Item → List Item
  | [] => [x]
  | y :: t => if y.age = 0 ∧ x.who < y.who then x :: y :: t else y :: insertItem x t
/-- A reserve item is requested (R42). -/
def State.request (s : State) (who kind cycles : Nat) : State :=
  { s with seq := { s.seq with reserve := insertItem ⟨who, kind, cycles, 0⟩ s.seq.reserve } }

/-! ### Domains that run -/

/-- Only the always-on domain runs: the part is in reset, or in the shelf state (R18, R557). -/
def State.asleep (s : State) : Bool := s.pow.inReset || s.pow.shelf == .shelf

/-- An effect on the domains that a reset and the shelf state stop: it takes place only while they run (R18, R557, R566). -/
def State.awake (s : State) (f : State → State) : State := if s.asleep then s else f s

/-- An effect of the sequencer or of an axis engine: a debug halt stops them too (R215). -/
def State.working (s : State) (f : State → State) : State := s.awake (fun s => if s.stage.halt then s else f s)

/-! ### Free values -/

/-- A free value of `w` bits, and the state that has used it. -/
def State.free (s : State) (w : Nat) : BitVec w × State := (Config.freeValue w s.fresh, { s with fresh := s.fresh + 1 })

/-! ### Integer arithmetic -/

/-- Division rounded toward minus infinity (R87, R110). -/
def fdiv (a b : Int) : Int := Int.fdiv a b
/-- Division of naturals rounded up. -/
def cdiv (a b : Nat) : Nat := (a + b - 1) / b
/-- The root rounded down of a number below 2 ^ 192, bit by bit from bit `k - 1` down. -/
def isqrtFrom (x : Nat) : Nat → Nat → Nat
  | 0, r => r
  | k + 1, r => if (r + 2 ^ k) * (r + 2 ^ k) ≤ x then isqrtFrom x k (r + 2 ^ k) else isqrtFrom x k r
/-- The integer square root rounded down (R98). -/
def isqrt (x : Nat) : Nat := isqrtFrom x 96 0
/-- `x` limited to lo..hi. -/
def clampI (x lo hi : Int) : Int := if x < lo then lo else if hi < x then hi else x
/-- `x` limited to the signed range of `w` bits. -/
def satI (w : Nat) (x : Int) : Int := clampI x (-(2 ^ (w - 1))) (2 ^ (w - 1) - 1)
/-- `x` taken modulo 2 ^ w into the signed range. -/
def wrapI (w : Nat) (x : Int) : Int := (BitVec.ofInt w x).toInt
/-- The sign of a number as 1, 0 or -1. -/
def sgn (x : Int) : Int := if x < 0 then -1 else if x = 0 then 0 else 1
/-- A quotient whose rounding the spec leaves open (`site` says which): its floor, or one above it where it is not whole. -/
def openDiv (site : Nat) (a b : Int) : Int :=
  let q := fdiv a b
  if q * b = a then q else if Config.roundsUp site a b then q + 1 else q

end Sys2Proof.Machine
end

