-- ==== Sys2Proof/Machine/Flags.lean ====
section
/-! DEFINITION. Status codes, W1C flags with their hidden counts, interrupts, lifetime counters, and the logging of events
with their reactions (17_faults.md, 18_register_interface.md). -/

namespace Sys2Proof.Machine

/-- The status codes of R480. -/
inductive Status where
  | done | unknown | state | range | world | locked | full | budget | image | timeout | link | buserr
  deriving DecidableEq, Repr

/-- The code of a status (R480). -/
def Status.code : Status → Nat
  | .done => 0 | .unknown => 1 | .state => 2 | .range => 3 | .world => 4 | .locked => 5 | .full => 6 | .budget => 7
  | .image => 8 | .timeout => 9 | .link => 10 | .buserr => 11

/-- Block b is secure under the active map (R454). -/
def State.secureBlock (s : State) (b : Nat) : Bool := s.bit (wldA WLD.BLK + 4 * (b / 16)) (b % 16)

/-- Path region r is secure under the active map (R454). -/
def State.secureRegion (s : State) (r : Nat) : Bool := s.bit (wldA WLD.REG) r

/-- The part serves register accesses: out of reset, not in the shelf state, and 70 µs after the release, or after the path-memory
clear of a cold boot (R513, R544, R559). -/
def State.ready (s : State) : Bool := !s.pow.inReset && !s.pow.clearing && decide (28000 ≤ s.pow.relClk)

/-- Lifetime counter k goes up, and stops at 0xFFFF_FFFF (R494); nothing counts while the controller die is in reset. -/
def State.life (s : State) (k : Nat) : State :=
  let a := fltA FLT.LIFE + 8 * k
  if s.pow.inReset then s else s.wr a (min 0xFFFFFFFF (s.rd a + 1))

/-! ### W1C flags (R495) and interrupts (R527) -/

/-- The name of a flag: its register and bit in one number. -/
def flagKey (a i : Nat) : Nat := a * 16 + i

/-- The counts of a flag: bits 7:0 events, bits 15:8 collisions (R495). -/
def State.flagCounts (s : State) (k : Nat) : Word := spGet (fun _ => (0 : Word)) s.flt.counts k

/-- The event count of a flag goes up and wraps. -/
def State.countEvent (s : State) (k : Nat) : State :=
  let c := s.flagCounts k
  let c' : Word := c.extractLsb' 8 8 ++ (c.extractLsb' 0 8 + 1)
  s.onFlt (fun f => { f with counts := spPut (fun _ => (0 : Word)) f.counts k c' })

/-- Hardware sets a bit in this clock and its event counts, without more. -/
def State.flagOnly (s : State) (a i : Nat) : State :=
  ((s.setBit a i true).countEvent (flagKey a i)).onFlt (fun f => { f with setNow := flagKey a i :: f.setNow })

/-- Pending bit b of the two banks sets: in the IRQA bank not while block b is secure (R527). -/
def State.irq (s : State) (b : Nat) : State :=
  let o := 4 * (b / 16)
  let t := if b ≤ 57 && s.secureBlock b then s else s.flagOnly (devA DEV.IRQA_PEND + o) (b % 16)
  t.flagOnly (devA DEV.IRQS_PEND + o) (b % 16)

/-- A set and a clear of one flag in one CORE clock: the collision counts (R495). -/
def State.collide (s : State) (k : Nat) : State :=
  let c := s.flagCounts k
  let c' : Word := (c.extractLsb' 8 8 + 1) ++ c.extractLsb' 0 8
  let s1 := s.onFlt (fun f => { f with counts := spPut (fun _ => (0 : Word)) f.counts k c' })
  (((s1.bump (fltA FLT.COLLCNT)).life 15).flagOnly (fltA FLT.STATUS) 12).irq 54

/-- The attention cause that a flag is, by the block whose pending bit it sets (R527). -/
def flagCause (a i : Nat) : Option Nat :=
  if 0x080000 ≤ a ∧ a < 0x0B0000 then some ((a - 0x080000) / 0x4000)
  else if 0x0E0000 ≤ a ∧ a < 0x0E1000 then some (12 + (a - 0x0E0000) / 0x100)
  else if 0x0E1000 ≤ a ∧ a < 0x0F0000 then some (20 + (a - 0x0E1000) / 0x100)
  else if 0x0F0000 ≤ a ∧ a < 0x100000 then some (24 + (a - 0x0F0000) / 0x100)
  else if 0x0D8000 ≤ a ∧ a < 0x0DA000 then some (32 + (a - 0x0D8000) / 0x1000)
  else if 0x0D0000 ≤ a ∧ a < 0x0D0800 then some 34
  else if 0x100000 ≤ a ∧ a < 0x100400 then some 35
  else if a = gpioA GPIO.EDGA ∨ a = gpioA GPIO.CHTA then some (36 + i / 6)
  else if a = gpioA GPIO.EDGB ∨ a = gpioA GPIO.CHTB then some (36 + (16 + i) / 6)
  else if 0x0C0000 ≤ a ∧ a < 0x0C3000 then some (40 + (a - 0x0C0000) / 0x100 / 4)
  else if 0x0C3000 ≤ a ∧ a < 0x0C4000 then some (50 + (a - 0x0C3000) / 0x100 / 4)
  else if 0x100800 ≤ a ∧ a < 0x110000 then
    (if azBlock ((a - 0x100800) / 4) = 35 then none else some (azBlock ((a - 0x100800) / 4)))
  else if 0x050000 ≤ a ∧ a < 0x058000 then some 52
  else if a = timA TIM.STATUS then some 53
  else if a = fltA FLT.STATUS then some 54
  else if a = devA DEV.PROT ∨ a = cmpA CMP.WEVT ∨ a = cmpA CMP.WKSTAT then some 55
  else none

/-- Hardware sets a W1C flag: it counts, it may collide with a clear of this clock, and it is an attention cause (R495, R527). -/
def State.flag (s : State) (a i : Nat) : State :=
  let k := flagKey a i
  let s1 := s.flagOnly a i
  let s2 := if k ∈ s1.flt.clrNow then s1.collide k else s1
  match flagCause a i with
  | some b => s2.irq b
  | none => s2

/-- Software clears bit i of a W1C register (R11). A set by hardware in the same CORE clock, before it (R602) or after it, prevails
and collides with it (R495). -/
def State.clearFlag (s : State) (a i : Nat) : State :=
  let k := flagKey a i
  if k ∈ s.flt.setNow then s.collide k
  else (s.onFlt (fun f => { f with clrNow := k :: f.clrNow })).setBit a i false

/-- A CORE clock of its own begins: what was set or cleared before no longer collides. -/
def State.newClock (s : State) : State := s.onFlt (fun f => { f with clrNow := [], setNow := [], hardClr := [], logNow := 0 })

/-- Hardware clears a bit of a register against a write of it in the same CORE clock: the clear prevails (R148). -/
def State.hardClear (s : State) (b i : Nat) : State := (s.setBit b i false).onFlt (fun f => { f with hardClr := (b, i) :: f.hardClr })

/-- What a write leaves in a register some of whose bits hardware has cleared in this CORE clock (R148). -/
def State.afterClear (s : State) (b : Nat) (v : Val) : Val :=
  s.flt.hardClr.foldl (fun v e => if e.1 = b then v &&& ~~~ BitVec.twoPow 64 e.2 else v) v

/-- A command register's CMDSTAT takes the echo and the status, an attention cause of block b (R527). -/
def State.cmdstat (s : State) (a b op : Nat) (st : Status) : State := (s.wr a (op * 256 + st.code)).irq b

/-! ### Events (R481-R493) -/

/-- The level of a code. -/
def levelOfNat : Nat → Level
  | 0 => .note | 1 => .warn | 2 => .stop | 3 => .mute | _ => .trip
/-- The number of a level (R483). -/
def Level.rank : Level → Nat
  | .note => 0 | .warn => 1 | .stop => 2 | .mute => 3 | .trip => 4

/-- What an event concerns (R482). -/
inductive Bind where
  | axis (n : Fin 12)
  | noAxis                       -- axis-bound, but no axis owns the unit (an empty set)
  | set (l : List (Fin 12))
  | device
  | log
  deriving DecidableEq, Repr

/-- Device time in whole nanoseconds (R21). -/
def State.now (s : State) : BitVec 64 := s.tim.time.extractLsb' 48 64

/-- The level of a code in the reaction table now (R483); the reset level where its word is uncorrectable (R498). -/
def State.levelOf (s : State) (c : Nat) : Nat :=
  if c ∈ s.flt.tableBad then ((evRow c).map (·.level)).getD 0 else s.rd (rtAddr c) % 8

/-- The axes of an event (R482). -/
def State.bound (s : State) : Bind → List (Fin 12)
  | .axis n => [n]
  | .noAxis => []
  | .set l => l
  | .device => allAxes.filter (fun n => s.bit (fltA FLT.DEVMASK) n.val)
  | .log => []

/-- Insertion of an entry among those of its clock: ascending code, then ascending detail word 1 (R489). -/
def insertEntry (e : HistEntry) : List HistEntry → List HistEntry
  | [] => [e]
  | x :: t => if e.code < x.code ∨ (e.code = x.code ∧ e.w6 < x.w6) then e :: x :: t else x :: insertEntry e t

/-- Numbers given to entries in order. -/
def renumber (q : BitVec 32) : List HistEntry → List HistEntry
  | [] => []
  | x :: t => { x with seq := q } :: renumber (q + 1) t

/-- An entry enters the history queue, with the next number, in the order of its clock; a full queue loses its oldest (R489, R492). -/
def State.pushEntry (s : State) (e : HistEntry) : State :=
  let h := s.flt.hist
  let k := min s.flt.logNow h.length
  let old := h.take (h.length - k)
  let nu := renumber (s.flt.nextSeq - BitVec.ofNat 32 k) (insertEntry e (h.drop (h.length - k)))
  let all := old ++ nu
  let s1 := s.onFlt (fun f => { f with hist := if all.length ≤ 32 then all else all.drop 1,
                                       nextSeq := f.nextSeq + 1, logNow := min 32 (k + 1) })
  if all.length ≤ 32 then s1 else ((s1.bump (fltA FLT.HOVF)).flag (fltA FLT.STATUS) 13).life 15

/-- An entry enters the history queue; none while the controller die is in reset (R562). -/
def State.push (s : State) (e : HistEntry) : State := if s.pow.inReset then s else s.pushEntry e

/-- The part logs event `c` with two detail words: an entry, the flags of its level, and its reaction for the next edge (R482-R484, R488). -/
def State.log (s : State) (c d1 d2 : Nat) (b : Bind) : State :=
  let lv := s.levelOf c
  let obj := match b with | .axis n => n.val | _ => 29
  let isSet := match b with | .set _ => 1 | _ => 0
  let w5 := obj * 1024 + lv * 128 + (if s.flt.injNow then 64 else 0) + isSet * 16
  let s1 := s.push ⟨s.now, 0, BitVec.ofNat 16 c, BitVec.ofNat 16 w5, BitVec.ofNat 16 d1, BitVec.ofNat 16 d2⟩
  let s2 := if 1 ≤ lv then s1.flag (fltA FLT.STATUS) 14 else s1
  let ax := (s.bound b).map Fin.val
  if lv = 4 then
    ((s2.flag (fltA FLT.STATUS) 15).life 4).onFlt (fun f => { f with due := f.due ++ [⟨List.range 12, .trip⟩] })
  else if 2 ≤ lv ∧ ax ≠ [] then s2.onFlt (fun f => { f with due := f.due ++ [⟨ax, levelOfNat lv⟩] })
  else s2

/-- A TRIP has been logged since the last edge: its reaction is due there, and the outputs are muted until then (R484). -/
def State.tripDue (s : State) : Bool := s.flt.due.any (fun d => d.level == .trip)

/-- What `f` does in the course of an injection, where `on` holds: its entries carry W5.inj (R502). -/
def State.injected (s : State) (on : Bool) (f : State → State) : State :=
  if on then (f (s.onFlt (fun x => { x with injNow := true }))).onFlt (fun x => { x with injNow := false }) else f s

/-- A refusal entry: command `op` with argument `arg` was refused with STATE in world block `blk` (R487). -/
def State.logRefusal (s : State) (blk op arg acc : Nat) : State :=
  let obj := if blk ≤ 11 then blk else if 24 ≤ blk ∧ blk ≤ 31 then 12 + (blk - 24) else 29
  s.push ⟨s.now, 0, BitVec.ofNat 16 blk, BitVec.ofNat 16 (obj * 1024 + 32), BitVec.ofNat 16 (op * 256 + arg),
    BitVec.ofNat 16 acc⟩

/-- A block's command completes: CMDSTAT takes its status, and a STATE refusal leaves an entry (R94, R487). -/
def State.finish (s : State) (cmdstatA blk op arg acc : Nat) (st : Status) : State :=
  let s1 := s.cmdstat cmdstatA blk op st
  if st = .state then s1.logRefusal blk op arg acc else s1

end Sys2Proof.Machine
end

