-- ==== Sys2Proof/Machine/Accessors.lean ====
section
/-! DEFINITION. Who accesses the part, and which blocks an accessor may reach (R454-R457). -/

namespace Sys2Proof.Machine

/-- The accessor acts in the secure world (R456): HPS, the preload, and sessions opened secure. -/
def State.secureAcc (s : State) (acc : Nat) : Bool :=
  if acc = 1 ∨ acc = 14 then true
  else if 2 ≤ acc ∧ acc ≤ 9 then s.bit (netsBase (acc - 2) + NETS.SSTAT) 14
  else false

/-- The accessor may access the registers of block b (R457). -/
def State.mayAccess (s : State) (acc b : Nat) : Bool := s.secureAcc acc || !s.secureBlock b

/-- A bus error of an accessor counts (R521). -/
def State.busError (s : State) (acc : Fin 15) : State :=
  s.onAcc acc (fun a => { a with becnt := if a.becnt = 0xFFFF then a.becnt else a.becnt + 1 })

/-- The state after a word of an accessor, its bus error counted; while the part is not ready nothing counts (R513, R521). -/
def State.counted (acc : Fin 15) (r : Status × State) : State :=
  if r.1 = .buserr ∧ r.2.ready then r.2.busError acc else r.2

end Sys2Proof.Machine
end

