-- ==== Sys2Proof/Machine/Planner.lean ====
section
/-! DEFINITION. The rate multiplier (R87) and the move planner (R98-R103, R603), over plain integers: positions in
2^-32 mstep, velocities in 2^-24 vu, accelerations in 2^-24 au. -/

namespace Sys2Proof.Machine

/-- The registers of a rate multiplier as integers (R87). -/
structure RM where
  p : Int
  v : Int
  a : Int
  j : Int
  deriving DecidableEq, Repr

/-- The largest integer part of vel (R87). -/
def velTop : Int := 2 ^ 39 - 1

/-- vel with its integer part limited to ±(2^39 - 1) vu (R87). -/
def satVel (v : Int) : Int :=
  if velTop < fdiv v (2 ^ 24) then velTop * 2 ^ 24 else if fdiv v (2 ^ 24) < -velTop then -velTop * 2 ^ 24 else v

/-- One CORE clock of the rate multiplier (R87); the wrap of pos is applied where pos is stored (R89). -/
def rmClock (r : RM) : RM :=
  let a := satI 57 (r.a + r.j)
  let v := satVel (r.v + fdiv a (2 ^ 24))
  ⟨r.p + fdiv v (2 ^ 24), v, a, r.j⟩

/-- The last clock of a segment: vel reaches `ve` exactly, and acc takes the remainder for that clock (R100). -/
def rmLast (r : RM) (ve : Int) : RM := ⟨r.p + fdiv ve (2 ^ 24), ve, satI 57 ((ve - r.v) * 2 ^ 24), r.j⟩

/-- The sum of floor((a * i + b) / m) over i below n, for m > 0, by Euclid's steps (the fuel is the number of steps). -/
def floorSum : Nat → Nat → Int → Int → Int → Int
  | 0, _, _, _, _ => 0
  | k + 1, n, m, a, b =>
    let base := fdiv a m * ((n : Int) * (n - 1) / 2) + fdiv b m * n
    let ra := a % m
    let y := ra * n + b % m
    if y < m then base else base + floorSum k (y / m).toNat ra m (y % m)

/-- `n` clocks at the constant acceleration `r.a`, in closed form. -/
def constRun (n : Nat) (r : RM) : RM :=
  let s := fdiv r.a (2 ^ 24)
  ⟨r.p + floorSum 128 n (2 ^ 24) s (r.v + s), r.v + s * n, r.a, r.j⟩

/-- One clock of a segment: vel does not pass the velocity `cap` that its ramp leads to (R603). -/
def rmStep (cap : Option Int) (r : RM) : RM :=
  let q := rmClock r
  match cap with
  | none => q
  | some c => if (r.v ≤ c ∧ c < q.v) ∨ (c ≤ r.v ∧ q.v < c) then { q with v := c, p := r.p + fdiv c (2 ^ 24) } else q

/-- `n` clocks at the constant acceleration `r.a`, which stay at the velocity `cap` once they would pass it, in closed form. -/
def constCap (cap : Option Int) (n : Nat) (r : RM) : RM :=
  let s := fdiv r.a (2 ^ 24)
  match cap with
  | none => constRun n r
  | some c =>
    if (0 < s ∧ r.v ≤ c) ∨ (s < 0 ∧ c ≤ r.v) then
      let k := min n ((c - r.v).natAbs / s.natAbs)
      let q := constRun k r
      if k = n then q else { q with v := c, p := q.p + (n - k : Nat) * fdiv c (2 ^ 24) }
    else constRun n r

/-- `n` clocks one by one (R87). -/
def clockRun (cap : Option Int) : Nat → RM → RM
  | 0, r => r
  | n + 1, r => clockRun cap n (rmStep cap r)

/-- `n` clocks of a segment, the last of which reaches `vEnd` where the segment names it. -/
def segRun (n : Nat) (vEnd cap : Option Int) (r : RM) : RM :=
  let go := fun (k : Nat) => if r.j = 0 then constCap cap k r else clockRun cap k r
  match n, vEnd with
  | 0, _ => r
  | k + 1, some ve => rmLast (go k) ve
  | k + 1, none => go (k + 1)

/-- The rate multiplier over a whole plan: each segment sets acc and jrk at its start. -/
def segsRun : List Seg → RM → RM
  | [], r => r
  | sg :: t, r => segsRun t (segRun sg.n sg.vEnd sg.cap ⟨r.p, r.v, sg.acc, sg.jrk⟩)

/-- A change of velocity from `v0` with acceleration `a0` to `v1`: limit `amax` [au], jerk limit `jmax` (R98, R99, R603).
With jmax = 0 one segment of ceil(|dv| / amax) clocks; otherwise jerk-up, constant part and jerk-down, each rounded up (R100). What the
rounded durations add does not carry vel past `v1`: it stays there to the last clock. DESIGN CHOICE (log 50): R603 lets vel never
change sign, and the spec does not say how jerk-limited segments of whole clocks meet the end velocity. -/
def rampSegs (v0 a0 v1 : Int) (amax jmax : Nat) : List Seg :=
  if jmax = 0 then
    if v0 = v1 then [] else [⟨cdiv (v1 - v0).natAbs amax, sgn (v1 - v0) * amax * 2 ^ 24, 0, some v1, none⟩]
  else
    let net := (v1 - v0) * (2 * jmax * 2 ^ 24) - a0 * a0.natAbs
    if net = 0 ∧ a0 = 0 then [] else
    let sg : Int := if net < 0 then -1 else 1
    let d := (sg * (v1 - v0))
    let b := sg * a0
    let sq := d * (jmax * 2 ^ 24) + fdiv (b * b) 2
    let pk : Int := isqrt sq.toNat
    let top : Int := amax * 2 ^ 24
    let p := if top < pk then top else pk
    let t1 := cdiv (p - b).natAbs jmax
    let t3 := cdiv p.toNat jmax
    let ends := if top < b then b * b else 2 * top * top - b * b
    let cst := if top < pk then d * (2 * jmax * 2 ^ 24) - ends else 0
    let t2 := if cst ≤ 0 ∨ p ≤ 0 then 0 else cdiv cst.toNat (2 * jmax * p.toNat)
    let up : Int := if p < b then -1 else 1
    ([⟨t1, a0, sg * up * jmax, none, some v1⟩, ⟨t2, sg * p, 0, none, some v1⟩].filter (fun x : Seg => 0 < x.n)) ++
      [⟨max 1 t3, sg * p, -(sg * (jmax : Int)), some v1, some v1⟩]

/-- The distance a plan covers [2^-32 mstep]. -/
def segsDist (v0 a0 : Int) (l : List Seg) : Int := (segsRun l ⟨0, v0, a0, 0⟩).p

/-- The magnitude of a velocity in whole vu. -/
def wholeVu (v : Int) : Nat := v.natAbs / 2 ^ 24

/-- The stopping distance from `v0`, `a0` in whole mstep (R98, R99), from v² [vu²] = 512 × a [au] × s [mstep]. -/
def stopDist (v0 a0 : Int) (dmax jmax : Nat) : Nat :=
  let v := wholeVu v0
  if jmax = 0 then v * v / (512 * dmax)
  else if a0 ≠ 0 then (segsDist v0 a0 (rampSegs v0 a0 0 dmax jmax)).natAbs / 2 ^ 32
  else if dmax * dmax ≤ v * jmax then (v * v * jmax + v * dmax * dmax) / (512 * dmax * jmax)
  else v * isqrt (v * 2 ^ 48 / jmax) / 2 ^ 32

/-- The least `m` in lo..lo + 2^k that meets `f m`, for an `f` that stays true once true. -/
def leastFrom (f : Nat → Bool) : Nat → Nat → Nat
  | 0, lo => lo
  | k + 1, lo => if f (lo + 2 ^ k - 1) then leastFrom f k lo else leastFrom f k (lo + 2 ^ k)

/-- Of the velocities below 2^`k`, the one whose end position lies nearest the target, and of two equally near the smaller (R100).
`e m` is the end position for magnitude m, as the distance covered in the direction of the move; `t` is the distance to cover. -/
def nearest (k : Nat) (e : Nat → Int) (t : Int) : Nat :=
  let hi := leastFrom (fun m => decide (t ≤ e m)) k 0
  if hi = 0 then 0
  else
    let below := e (hi - 1)
    let lo := leastFrom (fun m => decide (below ≤ e m)) k 0
    if t - below ≤ e hi - t then lo else hi

/-- Limits of a move: VMAX [vu], AMAX and DMAX [au], JMAX. -/
structure Limits where
  vmax : Nat
  amax : Nat
  dmax : Nat
  jmax : Nat
  deriving DecidableEq, Repr

/-- The distance from position `p` [2^-32 mstep] to the target `t` [mstep], in whole mstep. -/
def wholeDist (p t : Int) : Int := t - fdiv p (2 ^ 32)

/-- The approach from `p0`, `v0`, `a0` to the target `t` [mstep], with no reversal: accelerate, cruise, decelerate (R98). The velocity of
the cruise, or the peak, and the clocks of the cruise come from whole vu, au and mstep, with roots rounded down; then R100 takes the
velocity, with its fraction, that ends nearest the target. -/
def approach (p0 v0 a0 t : Int) (l : Limits) : List Seg :=
  let d := wholeDist p0 t
  let sg : Int := if d < 0 then -1 else 1
  let s := d.natAbs
  let u := wholeVu v0
  let acc := fun (m : Int) => rampSegs v0 a0 (sg * m) l.amax l.jmax
  let dec := fun (m : Int) => rampSegs (sg * m) 0 0 l.dmax l.jmax
  let need := fun (m : Int) => sg * (segsDist v0 a0 (acc m) + segsDist (sg * m) 0 (dec m))
  let peak :=
    if l.jmax = 0 then isqrt ((512 * l.amax * l.dmax * s + l.dmax * (u * u)) / (l.amax + l.dmax))
    else leastFrom (fun m => decide ((s : Int) * 2 ^ 32 < need (m * 2 ^ 24))) (Nat.log2 (l.vmax + 1) + 1) 0 - 1
  let cruises := decide (l.vmax ≤ peak)
  let v := if cruises then l.vmax else peak
  let gap :=
    if l.jmax = 0 then
      cdiv ((512 * l.amax * l.dmax * s + l.dmax * (u * u) - (l.amax + l.dmax) * (v * v)) * 2 ^ 23) (l.amax * l.dmax * v)
    else cdiv ((s : Int) * 2 ^ 32 - need (v * 2 ^ 24)).toNat v
  let away := sg * (t * 2 ^ 32 - p0)
  let plan := fun (k : Nat) (m : Int) => acc m ++ ([⟨k, 0, 0, none, none⟩].filter (fun x : Seg => 0 < x.n)) ++ dec m
  let reach := fun (k : Nat) (m : Nat) => sg * segsDist v0 a0 (plan k m)
  let nc := if cruises ∧ 0 < v then gap + cdiv (away - reach gap (v * 2 ^ 24)).toNat v else 0
  if d = 0 ∧ v0 = 0 then [] else plan nc (nearest (Nat.log2 (v + 1) + 26) (reach nc) away)

/-- The plan of a move to target `t` [mstep] from the present state (R98). -/
def planMove (p0 v0 a0 : Int) (t : Int) (l : Limits) : List Seg :=
  let d := wholeDist p0 t
  if v0 ≠ 0 ∧ (sgn d ≠ sgn v0 ∨ d.natAbs < stopDist v0 a0 l.dmax l.jmax) then
    let st := rampSegs v0 a0 0 l.dmax l.jmax
    let e := segsRun st ⟨p0, v0, a0, 0⟩
    st ++ approach e.p 0 0 t l
  else if (l.vmax : Int) * 2 ^ 24 < v0.natAbs then
    let sl := rampSegs v0 a0 (sgn v0 * l.vmax * 2 ^ 24) l.dmax l.jmax
    let e := segsRun sl ⟨p0, v0, a0, 0⟩
    sl ++ approach e.p e.v 0 t l
  else approach p0 v0 a0 t l

/-- A ramp to a velocity (R101): AMAX where speed grows, DMAX where it falls; through rest where the direction changes. -/
def planVel (v0 a0 v1 : Int) (l : Limits) : List Seg :=
  if v0 ≠ 0 ∧ v1 ≠ 0 ∧ sgn v0 ≠ sgn v1 then
    rampSegs v0 a0 0 l.dmax l.jmax ++ rampSegs 0 0 v1 l.amax l.jmax
  else if v0.natAbs < v1.natAbs then rampSegs v0 a0 v1 l.amax l.jmax
  else rampSegs v0 a0 v1 l.dmax l.jmax

/-- A stop (R102, R603). -/
def planStop (v0 a0 : Int) (d j : Nat) : List Seg := rampSegs v0 a0 0 d j

end Sys2Proof.Machine
end

