-- ==== Sys2Proof/Machine/Motion.lean ====
section
/-! DEFINITION. The axis engine: its CORE clock, plans and stops, soft limits, landing and rest, state changes and
reactions (R87-R107, R603, R604). -/

namespace Sys2Proof.Machine

/-! ### The engine's registers -/

/-- The rate multiplier of a motion as integers. -/
def Motion.rm (m : Motion) : RM := ⟨m.pos.toInt, m.vel.toInt, m.acc.toInt, m.jrk.toInt⟩

/-- A motion with the rate multiplier `r`; pos wraps (R89). -/
def Motion.put (m : Motion) (r : RM) : Motion :=
  { m with pos := BitVec.ofInt 80 r.p, vel := BitVec.ofInt 64 r.v, acc := BitVec.ofInt 57 r.a, jrk := BitVec.ofInt 33 r.j }

/-- The integer part of pos [mstep] (R88). -/
def Motion.ipos (m : Motion) : Int := fdiv m.pos.toInt (2 ^ 32)
/-- The integer part of vel [vu] (R88). -/
def Motion.ivel (m : Motion) : Int := fdiv m.vel.toInt (2 ^ 24)
/-- The integer part of acc [au] (R88). -/
def Motion.iacc (m : Motion) : Int := fdiv m.acc.toInt (2 ^ 24)

/-- The state the axis is in once the state changes of this tick are counted (R94, R602). -/
def Motion.eff (m : Motion) : AxState := m.next.getD m.st

/-- The first segment of a plan is in force: the planner sets acc and jrk (R87). -/
def Motion.load (m : Motion) (l : List Seg) (g : Goal) : Motion :=
  match l with
  | [] => { m with segs := [], goal := g, acc := 0, jrk := 0 }
  | x :: _ => { m with segs := l, goal := g, acc := BitVec.ofInt 57 x.acc, jrk := BitVec.ofInt 33 x.jrk }

/-- vel, acc and jrk become 0 and every plan is dropped; pos keeps its value (R95). -/
def Motion.still (m : Motion) : Motion :=
  { m with vel := 0, acc := 0, jrk := 0, segs := [], goal := .none, req := none, next := none }

/-- The rate multiplier after one clock of the plan in force (R87, R100). -/
def Motion.clockRM (m : Motion) : RM :=
  match m.segs with
  | ⟨1, _, _, some ve, _⟩ :: _ => rmLast m.rm ve
  | x :: _ => rmStep x.cap m.rm
  | [] => rmClock m.rm

/-- The plan with one clock less of its first segment. -/
def Motion.countSegs (m : Motion) : List Seg :=
  match m.segs with
  | [] => []
  | x :: t => { x with n := x.n - 1 } :: t

/-- One CORE clock of the engine (R87). -/
def Motion.clock (m : Motion) : Motion := { m.put m.clockRM with segs := m.countSegs }

/-- The last segment in force has run out. -/
def Motion.segDone (m : Motion) : Bool := match m.segs with | [] => true | x :: _ => x.n == 0

/-- A segment has ended within a plan, or the one that reaches the velocity to keep (R87). -/
def Motion.segEnds (m : Motion) : Bool :=
  match m.segs with
  | [] => false
  | [x] => x.n == 0 && m.goal == .cruise
  | x :: _ => x.n == 0

/-- Nothing of the plan is left. -/
def Motion.planDone (m : Motion) : Bool := match m.segs with | [] => true | [x] => x.n == 0 | _ => false

/-! ### Registers of one axis -/

/-- The axis is of Glide class (R61). -/
def State.glide (s : State) (n : Fin 12) : Bool := (s.recd n).glide
/-- The axis's role (R61). -/
def State.role (s : State) (n : Fin 12) : Nat := (s.recd n).role
/-- A power axis (R14). -/
def State.isPower (s : State) (n : Fin 12) : Bool := s.role n == 1 || s.role n == 2
/-- Option bit i of the valve map (R61). -/
def State.opt (s : State) (n : Fin 12) (i : Nat) : Bool := (s.recd n).options.testBit i

/-- The limits in force: those that the last edge took from the registers (R97, R101, R125). -/
def State.limits (s : State) (n : Fin 12) : Limits :=
  match (s.mot n).lim with | (v, a, d, j) => ⟨v, a, d, j⟩

/-- MPOS: pos modulo L with the offset it was last set by (R90). -/
def State.mpos (s : State) (n : Fin 12) : Int :=
  let l : Int := s.axr n AX.MODLEN
  if l = 0 then 0 else ((s.mot n).ipos + (s.mot n).modOff) % l

/-- The soft limits as the registers give them: on a linear axis with sl_en (R106). -/
def State.softRegs (s : State) (n : Fin 12) : Option (Int × Int) :=
  if s.axb n AX.CFG 0 ∧ !s.axb n AX.CFG 1 then some (s.ax48 n AX.SLMIN, s.ax48 n AX.SLMAX) else none
/-- Soft limits act (R106): those that the last edge took (R101). -/
def State.slOn (s : State) (n : Fin 12) : Bool := (s.mot n).soft.isSome
/-- The lower soft limit in force. -/
def State.slMin (s : State) (n : Fin 12) : Int := ((s.mot n).soft.getD (0, 0)).1
/-- The upper soft limit in force. -/
def State.slMax (s : State) (n : Fin 12) : Int := ((s.mot n).soft.getD (0, 0)).2

/-- The axis is energised: its outputs carry current (R91, R104). -/
def State.energised (s : State) (n : Fin 12) : Bool :=
  match s.st n with
  | .hold | .move | .paused | .follow | .homing | .yield => true
  | .stopping => !(s.mot n).toFault
  | _ => false

/-! ### Homing status -/

/-- A homing method ends with a result (R273, R279). -/
def State.homeEnd (s : State) (n : Fin 12) (result : Nat) : State :=
  let a := hmBase n + HM.HSTAT
  if s.fld a 15 12 = 1 then ((s.setFld a 15 12 result).setFld a 11 8 0).irq n.val else s

/-- An identification that the axis leaves before its end has result 6 (R406). -/
def State.identEnd (s : State) (n : Fin 12) : State :=
  let a := axBase n + AX.FPSTAT
  if s.fld a 10 8 = 1 then s.setFld a 10 8 6 else s

/-! ### States (R95, R96) -/

/-- A pulse-out axis holds STEP low in the state (R91). -/
def AxState.stepLow : AxState → Bool
  | .off | .mute | .fault | .unplugged | .identify => true
  | _ => false

/-- AX[n].STATE changes: an attention cause (R527). What belongs to the state that is left ends. -/
def State.setSt (s : State) (n : Fin 12) (x : AxState) : State :=
  if s.st n = x then s.onMot n (fun m => { m with next := none })
  else
    let s0 := if s.st n = .homing then s.homeEnd n 7 else s
    let s1 := if s.st n = .identify then s0.identEnd n else s0
    let s2 := s1.onMot n (fun m => { m with
        st := x, next := none, remValid := x == .paused && m.remValid,
        vmode := x == .move && m.vmode, hasTarget := (x == .move || x == .stopping) && m.hasTarget,
        toFault := x == .stopping && m.toFault})
    (s2.onFol n (fun f => { f with
      armed := x == .follow && f.armed, track := none, outHigh := if x.stepLow then 0 else f.outHigh })).irq n.val

/-- MUTE, OFF, FAULT and UNPLUGGED stop the rate multiplier in one clock (R95). -/
def State.enterStill (s : State) (n : Fin 12) (x : AxState) : State := (s.setSt n x).onMot n Motion.still

/-- The deceleration and jerk limit of the class stop (R102, R103). -/
def State.stopLimits (s : State) (n : Fin 12) : Nat × Nat :=
  let d := s.axr n AX.DMAX
  (if s.glide n then d else if s.axr n AX.SDEC = 0 then d else s.axr n AX.SDEC, s.axr n AX.JMAX)

/-- The stop ramp begins now, from pos, vel and acc as they stand (R603, R604). -/
def State.stopNow (s : State) (n : Fin 12) : State :=
  let (d, j) := s.stopLimits n
  s.onMot n (fun m => { m.load (planStop m.vel.toInt m.acc.toInt d j) .rest with req := none })

/-- A stop keeps the remaining distance: Hold class, in a move to a target (R102). -/
def State.stopKeeps (s : State) (n : Fin 12) : Bool :=
  !s.glide n && (s.mot n).eff == .move && (s.mot n).hasTarget

/-- The class stop found at a tick edge: STOPPING now, the ramp at clock 64 (R604). -/
def State.classStop (s : State) (n : Fin 12) : State :=
  let k := s.stopKeeps n
  ((s.setSt n .stopping).onMot n (fun m => { m with keep := k, req := some .stop }))

/-- The class stop found by the engine between edges: the ramp begins in this clock, STATE follows at the edge (R604, R94). -/
def State.classStopEngine (s : State) (n : Fin 12) : State :=
  let k := s.stopKeeps n
  (s.stopNow n).onMot n (fun m => { m with keep := k, next := some .stopping })

/-- States from which a STOP reaction stops the axis (R96). -/
def AxState.moving : AxState → Bool
  | .move | .follow | .homing | .yield => true
  | _ => false

/-- A STOP reaction at an edge (R96, R483): the stop, counted in lifetime counter 6 (R494). -/
def State.reactStop (s : State) (n : Fin 12) : State :=
  if (s.st n).moving then (s.classStop n).life 6 else s

/-- The transition "Reaction MUTE or TRIP, or TOFF" of R96, with the Glide ramp of R104. -/
def State.toFault (s : State) (n : Fin 12) : State :=
  match s.st n with
  | .off | .unplugged | .fault => s
  | x =>
    if (s.mot n).toFault ∨ s.role n = 0 then s
    else if s.glide n ∧ (x.moving = true ∨ x = .stopping) ∧ (s.mot n).vel ≠ 0 then
      if x = .stopping then s.onMot n (fun m => { m with toFault := true, keep := false })
      else (s.classStop n).onMot n (fun m => { m with toFault := true, keep := false })
    else s.enterStill n .fault

/-- A MUTE reaction at an edge, counted in lifetime counter 5 where it makes the transition (R494). -/
def State.reactMute (s : State) (n : Fin 12) : State :=
  let t := s.toFault n
  if t.st n = s.st n ∧ (t.mot n).toFault = (s.mot n).toFault then t else t.life 5

/-- The strongest level due for an axis (R485). -/
def State.dueLevel (s : State) (n : Fin 12) : Nat :=
  s.flt.due.foldl (fun k d => if n.val ∈ d.axes then max k d.level.rank else k) 0

/-- The reaction due at this edge is applied to axis n (R483-R485). -/
def State.react (s : State) (n : Fin 12) : State :=
  match s.dueLevel n with
  | 2 => s.reactStop n
  | 3 => s.reactMute n
  | 4 => if s.role n = 0 then s else s.toFault n
  | _ => s

/-- The state change of the past tick takes effect at the edge (R94); a stop that keeps its distance leaves it in REM (R102). -/
def State.flushSt (s : State) (n : Fin 12) : State :=
  match (s.mot n).next with
  | none => s
  | some .paused =>
    (s.onMot n (fun m => { m with rem := BitVec.ofInt 48 (m.target - m.ipos), remValid := true })).setSt n .paused
  | some .hold => (s.onMot n (fun m => { m with rem := 0 })).setSt n .hold
  | some .fault => s.enterStill n .fault
  | some x => s.setSt n x

/-! ### Plans -/

/-- Watching of the soft limits begins anew: a limit is watched once pos has been inside (R106). `inward` says that a motion which begins
beyond a limit has been accepted because it leads inward. -/
def State.watchLimits (s : State) (n : Fin 12) (inward : Bool) : State :=
  let p := (s.mot n).ipos
  let i := decide (s.slMin n ≤ p) && decide (p ≤ s.slMax n)
  s.onMot n (fun m => { m with loSeen := i, hiSeen := i, inward := inward && !i, told := false })

/-- An edge takes the limits and the soft limits committed since the last one (R101, R107): a motion beyond a new soft limit is watched
from the first clock within it, or in which it leads outward (R106). -/
def State.takeSoft (s : State) (n : Fin 12) : State :=
  let x := s.softRegs n
  let s1 := s.onMot n (fun m => { m with lim := (s.axr n AX.VMAX, s.axr n AX.AMAX, s.axr n AX.DMAX, s.axr n AX.JMAX) })
  if x = (s1.mot n).soft then s1
  else (s1.onMot n (fun m => { m with soft := x, softNew := true })).watchLimits n false

/-- The position a plan reaches at the end of each segment. -/
def segEnds : List Seg → RM → List Int
  | [], _ => []
  | x :: t, r =>
    let e := segRun x.n x.vEnd x.cap ⟨r.p, r.v, x.acc, x.jrk⟩
    e.p :: segEnds t e

/-- The side on which a path that has been inside leaves the soft limits: 0 lower, 1 upper (R106, R107). -/
def leavesLimits (lo hi : Int) : Bool → List Int → Option Nat
  | _, [] => none
  | ins, p :: t =>
    let q := fdiv p (2 ^ 32)
    if ins ∧ q < lo then some 0 else if ins ∧ hi < q then some 1
    else leavesLimits lo hi (ins || (decide (lo ≤ q) && decide (q ≤ hi))) t

/-- 0x0103 with sl_hit (R107). -/
def State.softEvent (s : State) (n : Fin 12) (how side : Nat) : State :=
  ((s.log 0x0103 how side (.axis n)).flag (axBase n + AX.STATUS) 7).onMot n (fun m => { m with told := true })

/-- The segments of a jog to `v` [vu] (R101): with soft limits on, a jog toward a limit that it can still meet at DMAX
comes to rest exactly there; otherwise the limit is crossed, on the side named (R107). -/
def State.jogPlan (s : State) (n : Fin 12) (r : RM) (v : Int) : List Seg × Goal × Option Nat :=
  let l := s.limits n
  let v := clampI v (-(l.vmax : Int)) l.vmax
  let free := (planVel r.v r.a (v * 2 ^ 24) l, (if v = 0 then Goal.rest else Goal.cruise))
  if s.slOn n ∧ v ≠ 0 then
    let lim := if 0 < v then s.slMax n else s.slMin n
    let gap := wholeDist r.p lim * sgn v
    if 0 ≤ gap ∧ ¬ (sgn r.v = sgn v ∧ gap < stopDist r.v r.a l.dmax l.jmax) then
      (planMove r.p r.v r.a lim { l with vmax := v.natAbs }, .restAt lim, none)
    else (free.1, free.2, some (if 0 < v then 1 else 0))
  else (free.1, free.2, none)

/-- The plan that waits for clock 64 begins (R93, R604). -/
def State.beginPlan (s : State) (n : Fin 12) : State :=
  match (s.mot n).req with
  | none => s
  | some .stop => s.stopNow n
  | some (.target t) =>
    (s.onMot n (fun m => { m.load (planMove m.pos.toInt m.vel.toInt m.acc.toInt t (s.limits n)) (.land t) with
      req := none }))
  | some (.jog v) =>
    let (l, g, _) := s.jogPlan n (s.mot n).rm v
    s.onMot n (fun m => { m.load l g with req := none })
  | some (.homeTo t v) =>
    s.onMot n (fun m => { m.load (planMove m.pos.toInt m.vel.toInt m.acc.toInt t { s.limits n with vmax := v.toNat }) .rest with
      req := none })
  | some (.home v) =>
    let l := s.limits n
    let w := clampI v (-(l.vmax : Int)) l.vmax
    s.onMot n (fun m => { m.load (planVel m.vel.toInt m.acc.toInt (w * 2 ^ 24) l) .cruise with req := none })

/-- The 0x0103 of a plan that will cross a limit, at the edge that plans it (R107): predicted from the snapshot of the edge (R88). -/
def State.predictLimit (s : State) (n : Fin 12) : State :=
  let m := s.mot n
  if !s.slOn n ∨ m.told then s else
  let r : RM := ⟨m.snapPos.toInt * 2 ^ 32, m.snapVel.toInt * 2 ^ 24, m.acc.toInt, 0⟩
  let ins := decide (s.slMin n ≤ m.snapPos.toInt) && decide (m.snapPos.toInt ≤ s.slMax n)
  match m.req with
  | some (.target t) =>
    match leavesLimits (s.slMin n) (s.slMax n) ins (segEnds (planMove r.p r.v r.a t (s.limits n)) r) with
    | some side => s.softEvent n 1 side
    | none => s
  | some (.jog v) => match (s.jogPlan n r v).2.2 with | some side => s.softEvent n 1 side | none => s
  | _ => s

/-- A move to `t` is accepted at an edge: MOVE, no landing yet, the plan at clock 64 (R93, R98, R100). -/
def State.startMove (s : State) (n : Fin 12) (t : Int) : State :=
  let s1 := (s.setSt n .move).onMot n (fun m => { m with
      atTarget := false, vmode := false, hasTarget := true,
      target := t, keep := false, req := some (.target t), rem := 0, remValid := false})
  (s1.watchLimits n true).predictLimit n

/-- A jog to `v` is accepted at an edge (R101). -/
def State.startJog (s : State) (n : Fin 12) (v : Int) : State :=
  let s1 := (s.setSt n .move).onMot n (fun m => { m with
      atTarget := false, vmode := true, hasTarget := false,
      target := v, keep := false, req := some (.jog v), rem := 0, remValid := false})
  (s1.watchLimits n true).predictLimit n

/-! ### Engine events -/

/-- The end of a planned segment: the planner changes jrk and acc for the next (R87). -/
def State.segBoundary (s : State) (n : Fin 12) : State :=
  if (s.mot n).segEnds then s.onMot n (fun m => m.load (m.segs.drop 1) m.goal) else s

/-- The clock that ends the last segment of a position move: pos := T, the motion state 0, at_target (R100); HOLD follows at the edge
(R96). Where a newer move, jog or homing waits for clock 64, the target reached is no longer the present one. -/
def State.land (s : State) (n : Fin 12) : State :=
  match (s.mot n).goal, (s.mot n).planDone with
  | .land t, true =>
    s.onMot n (fun m =>
      let newer := match m.req with | none | some .stop => false | _ => true
      { m with
        pos := BitVec.ofInt 80 (t * 2 ^ 32), vel := 0, acc := 0, jrk := 0, segs := [], goal := .none,
        hasTarget := newer && m.hasTarget, atTarget := !newer,
        next := if m.eff = .move ∧ !newer then some .hold else m.next})
  | _, _ => s

/-- The state that a rest leads to (R96). A jog that rests at a soft limit takes HOLD as one to JOGV = 0 does. DESIGN CHOICE (log 48):
the table of R96 names HOLD after a jog only for JOGV = 0. -/
def Motion.afterRest (m : Motion) : Option AxState :=
  match m.eff with
  | .stopping => some (if m.toFault then .fault else if m.keep then .paused else .hold)
  | .move => if m.req.isSome then m.next else some .hold
  | _ => m.next

/-- A ramp has ended at rest (R603): HOLD, PAUSED or FAULT at the next edge (R96); a homing phase rests within HOMING, and a jog toward a
soft limit exactly at the limit (R107). -/
def State.restEnd (s : State) (n : Fin 12) : State :=
  match (s.mot n).goal, (s.mot n).planDone with
  | .rest, true =>
    s.onMot n (fun m => { m with vel := 0, acc := 0, jrk := 0, segs := [], goal := .none, next := m.afterRest })
  | .restAt t, true =>
    s.onMot n (fun m => { m with
      pos := BitVec.ofInt 80 (t * 2 ^ 32), vel := 0, acc := 0, jrk := 0, segs := [], goal := .none, next := m.afterRest })
  | _, _ => s

/-- The limit that pos has passed in a watched motion: 0 lower, 1 upper (R106). A motion that began beyond a limit, and was not accepted
because it leads inward, meets it as soon as it leads outward. DEDUCED (log 50): a plan that ends on the limit itself does not meet it
within the 1 mstep by which its last segment may end beside its target (R100). -/
def State.limitPassed (s : State) (n : Fin 12) : Option Nat :=
  let m := s.mot n
  let onto (x : Int) : Bool := (match m.goal with | .land t | .restAt t => t == x | _ => false) && decide ((m.ipos - x).natAbs ≤ 1)
  if s.slOn n ∧ (m.eff = .move ∨ m.eff = .follow) then
    if m.ipos < s.slMin n ∧ !onto (s.slMin n) ∧ (m.loSeen ∨ (!m.inward ∧ m.ivel < 0)) then some 0
    else if s.slMax n < m.ipos ∧ !onto (s.slMax n) ∧ (m.hiSeen ∨ (!m.inward ∧ 0 < m.ivel)) then some 1
    else none
  else none

/-- A soft limit is reached: the class stop begins in this clock; 0x0103 is logged in FOLLOW, and in a motion whose crossing has not been
predicted (R107). -/
def State.limitReached (s : State) (n : Fin 12) : State :=
  match s.limitPassed n with
  | none => s
  | some side =>
    let s1 := if (s.mot n).eff = .follow ∨ !(s.mot n).told then s.softEvent n 2 side else s
    s1.classStopEngine n

/-- Soft limits or sl_en committed while the axis moves outward beyond the new limit: event and class stop at the edge (R107). -/
def State.limitBehind (s : State) (n : Fin 12) : State :=
  let m := s.mot n
  let s1 := s.onMot n (fun m => { m with softNew := false })
  if s.slOn n ∧ m.softNew ∧ (s.st n = .move ∨ s.st n = .follow) then
    if s.slMax n < m.ipos ∧ 0 < m.ivel then (s1.softEvent n 2 1).classStop n
    else if m.ipos < s.slMin n ∧ m.ivel < 0 then (s1.softEvent n 2 0).classStop n
    else s1
  else s1

/-- Limits committed in flight: one replan at the edge, and the event of a path that now crosses a soft limit (R101, R107). -/
def State.replanAt (s : State) (n : Fin 12) : State :=
  let m := s.mot n
  let s1 := s.onMot n (fun m => { m with replan := false, restart := false })
  if m.req.isSome then s1
  else if m.replan ∧ s.st n = .move then
    (s1.onMot n (fun m => { m with req := some (if m.vmode then .jog m.target else .target m.target) })).predictLimit n
  else if m.restart ∧ s.st n = .stopping ∧ !s.glide n ∧ !m.toFault then s1.onMot n (fun m => { m with req := some .stop })
  else s1

/-- One CORE clock of axis n: the plan due at clock 64, the rate multiplier, the wrap of pos, and the watch of the limits. -/
def State.clockAxis (s : State) (n : Fin 12) : State :=
  let s1 := if s.tim.clk = 64 then s.beginPlan n else s
  let m := s1.mot n
  let r := m.clockRM
  let s2 := s1.onMot n Motion.clock
  let s3 := if -(2 ^ 79) ≤ r.p ∧ r.p < 2 ^ 79 then s2
    else
      let k : Int := if r.p < 0 then -(2 ^ 48) else 2 ^ 48
      (s2.onMot n (fun m => { m with modOff := m.modOff + k })).flag (axBase n + AX.STATUS) 8
  let p := (s3.mot n).ipos
  s3.onMot n (fun m => if s3.slMin n ≤ p ∧ p ≤ s3.slMax n then { m with loSeen := true, hiSeen := true } else m)

end Sys2Proof.Machine
end

