-- ==== Sys2Proof/Machine/Follow.lean ====
section
/-! DEFINITION. Following: the cyclic interpolator, gears, tables, STEP input and output, and the tracker (R108-R118). -/

namespace Sys2Proof.Machine

/-- CORE clocks per tick (R34). -/
def State.tpr (s : State) : Nat := s.rd (timA TIM.TICKPER)
/-- Ticks per network cycle (R34). -/
def State.cycM (s : State) : Nat := s.rd (timA TIM.CYCM)

/-! ### Cyclic targets (R108, R109) -/

/-- The interpolated position due at the next edge [2^-32 mstep], rounded down (R108). -/
def Follow.interp (f : Follow) (m : Nat) : Int :=
  f.pPrev * 2 ^ 32 + (if m = 0 then 0 else fdiv ((f.pNext - f.pPrev) * f.i * 2 ^ 32) m)

/-- The velocity of the interpolated stream [2^-24 vu] (R108). -/
def Follow.interpVel (f : Follow) (m tpr : Nat) : Int :=
  if m * tpr = 0 then 0 else fdiv ((f.pNext - f.pPrev) * 2 ^ 56) (m * tpr)

/-- A cycle boundary brings target `p`, or none: a missed cycle is extrapolated once, twice with miss2 (R108, R109). -/
def Follow.boundary (f : Follow) (p : Option Int) (miss2 : Bool) : Follow :=
  let g := { f with pPrev2 := f.pPrev, pPrev := f.pNext, i := 0 }
  match p with
  | some x => { g with pNext := x, missed := 0 }
  | none =>
    if f.missed = 0 ∨ (f.missed = 1 ∧ miss2) then { g with pNext := 2 * g.pPrev - g.pPrev2, missed := f.missed + 1 }
    else { g with missed := f.missed + 1, ended := true }

/-- The axis takes its master from a subscription entry: FOLLOW_CYCLIC, or a gear of kind 1. -/
def State.onEntry (s : State) (n : Fin 12) : Option Nat :=
  let f := s.fol n
  if s.st n = .follow ∧ (f.mode = 0 ∨ ((f.mode = 2 ∨ f.mode = 3) ∧ f.kind = 1)) then some f.idx else none

/-- The cycle boundary of a follower of entry k: its target enters the interpolator, or the cycle is missed (R109). -/
def State.cycleTarget (s : State) (n : Fin 12) (p : Option Int) : State :=
  let s1 := s.onFol n (fun f => f.boundary p (s.axb n AX.CFG 2))
  match p with
  | some _ => s1
  | none => s1.flag (axBase n + AX.STATUS) 6

/-! ### Masters (R114) -/

/-- The position of the master of axis n at this edge [mstep], predicted where the configuration says so (R114). -/
def State.master (s : State) (n : Fin 12) : Int :=
  let f := s.fol n
  if f.kind = 0 then
    if h : f.idx < 12 then
      let m := s.mot ⟨f.idx, h⟩
      m.snapPos.toInt + (if s.axb n AX.CFG 3 then fdiv (m.snapVel.toInt * s.tpr) (2 ^ 32) else 0)
    else 0
  else fdiv (f.interp s.cycM) (2 ^ 32)

/-- The velocity of the master [2^-24 vu]. -/
def State.masterVel (s : State) (n : Fin 12) : Int :=
  let f := s.fol n
  if f.kind = 0 then
    if h : f.idx < 12 then (s.mot ⟨f.idx, h⟩).snapVel.toInt * 2 ^ 24 else 0
  else f.interpVel s.cycM s.tpr

/-- The chain of gears from axis m leads back to n (R114). -/
def State.gearLoop (s : State) (n : Fin 12) : Nat → Nat → Bool
  | 0, _ => false
  | k + 1, m =>
    if m = n.val then true
    else if h : m < 12 then
      let f := s.fol ⟨m, h⟩
      if s.st ⟨m, h⟩ = .follow ∧ (f.mode = 2 ∨ f.mode = 3) ∧ f.kind = 0 then State.gearLoop s n k f.idx else false
    else false

/-! ### Tables (R115-R118) -/

/-- The byte address of word w of slot i (R117). -/
def slotAddr (i w : Nat) : Nat := pathLo + 8 * i + 4 * w

/-- A path-memory word as an axis or the table check reads it (R117). -/
def State.slot (s : State) (i w : Nat) : Nat := (pathWord s.path (slotAddr i w)).toNat

/-- A path-memory word is uncorrectable (R498). -/
def State.pathBad (s : State) (a : Nat) : Bool := s.flt.upsets.any (fun u => u.store == .path && u.index == a && u.dbl)

/-- x of point i of the table at slot h (R117). -/
def State.ptX (s : State) (h i : Nat) : Int := s.slot (h + 1 + i) 0
/-- y of point i of the table at slot h (R117). -/
def State.ptY (s : State) (h i : Nat) : Int := (BitVec.ofNat 32 (s.slot (h + 1 + i) 1)).toInt

/-- x strictly increases over points i, i+1, ... of the table (R118). -/
def State.risingFrom (s : State) (h : Nat) : Nat → Nat → Bool
  | 0, _ => true
  | k + 1, i => decide (s.ptX h i < s.ptX h (i + 1)) && State.risingFrom s h k (i + 1)

/-- The checks of R118 in their order: 0 passes, 1 RANGE, 2 WORLD. -/
def State.tableCheck (s : State) (n : Fin 12) (kind : Nat) : Status :=
  let h := s.axr n AX.CAMBASE
  let sec := s.secureBlock n.val
  if s.secureRegion (h / 8192) != sec then .world
  else
    let w := s.slot h 0
    let cnt := w % 2 ^ 17
    if Machine.fld w 31 28 ≠ (if kind = 2 then 2 else 1) ∨ cnt < 2 ∨ 131071 < h + cnt then .range
    else if ((List.range 16).any (fun r => decide (h / 8192 ≤ r) && decide (r ≤ (h + cnt) / 8192) && (s.secureRegion r != sec))) then
      .world
    else if s.ptX h 0 ≠ 0 ∨ s.ptY h 0 ≠ 0 ∨ !s.risingFrom h (cnt - 1) 0 then .range
    else .done

/-- What one evaluation of a table gives (R115): y and the slope dy/dx, the segment to start from next, a bad point, or an uncorrectable word. -/
inductive TableOut where
  | value (y dy dx : Int) (seg : Int)
  | badPoint
  | badWord (slot w : Nat)
  deriving DecidableEq, Repr

/-- The first uncorrectable word of points i and i + 1. -/
def State.badPair (s : State) (h i : Nat) : Option (Nat × Nat) :=
  [(h + 1 + i, 0), (h + 1 + i, 1), (h + 2 + i, 0), (h + 2 + i, 1)].find? (fun q => s.pathBad (slotAddr q.1 q.2))

/-- The search of R115: from segment g toward `phi`, which lies in the table, over at most k segments. DESIGN CHOICE (log 48): the segment
that the search starts from is the first of the 16; R115 does not say whether it counts. -/
def State.tableSearch (s : State) (h : Nat) (phi : Int) : Nat → Nat → Int → Int → Int → TableOut
  | 0, g, y, dy, dx => .value y dy dx g
  | k + 1, g, _, _, _ =>
    match s.badPair h g with
    | some (sl, w) => .badWord sl w
    | none =>
      let x0 := s.ptX h g
      let x1 := s.ptX h (g + 1)
      let y0 := s.ptY h g
      let y1 := s.ptY h (g + 1)
      if x1 ≤ x0 then .badPoint
      else if x0 ≤ phi ∧ phi < x1 then .value (y0 + fdiv ((y1 - y0) * (phi - x0)) (x1 - x0)) (y1 - y0) (x1 - x0) g
      else if x1 ≤ phi then State.tableSearch s h phi k (g + 1) y1 (y1 - y0) (x1 - x0)
      else State.tableSearch s h phi k (g - 1) y0 (y1 - y0) (x1 - x0)

/-- The table of axis n at coordinate phi (R115): a repeating table is searched at phi mod L, and takes k × y of its last point. -/
def State.tableEval (s : State) (n : Fin 12) (phi : Int) : TableOut :=
  let f := s.fol n
  let l := s.ptX f.slot (f.tN - 1)
  let yN := s.ptY f.slot (f.tN - 1)
  if !f.tRep ∧ phi < 0 then .value 0 0 1 f.seg
  else if !f.tRep ∧ l ≤ phi then .value yN 0 1 f.seg
  else if l ≤ 0 then .badPoint
  else
    let k := fdiv phi l
    match s.tableSearch f.slot (phi - k * l) 16 f.seg.toNat 0 0 1 with
    | .value y dy dx g => .value (y + k * yN) dy dx g
    | r => r

/-- The coordinate of a table that is due at the next edge (R115). -/
def State.tablePhi (s : State) (n : Fin 12) (t : Nat) : Int :=
  let f := s.fol n
  if f.kind = 2 then f.phi0 + fdiv (((t : Int) - f.tAnchor) * f.num) f.den
  else f.phi0 + fdiv (wrapI 48 (s.master n - f.m0) * f.num) f.den

/-- The rate of change of the coordinate, as a fraction whose denominator is given second [2^-24 vu] (R115). -/
def State.phiRate (s : State) (n : Fin 12) : Int × Int :=
  let f := s.fol n
  if f.kind = 2 then (f.num * 2 ^ 56, f.den * s.tpr) else (satVel (s.masterVel n) * f.num, f.den)

/-! ### The per-tick target -/

/-- GNUM or GDEN committed: the ratio re-anchors at the edge (R114, R115). -/
def State.reanchorAt (s : State) (n : Fin 12) : State :=
  let f := s.fol n
  if f.reanchor ∧ s.st n = .follow then
    let m := s.master n
    let phi := s.tablePhi n f.t
    s.onFol n (fun f => { f with
      reanchor := false, m0 := m, mPrev := m, rem := 0, g0 := if f.mode = 2 then fdiv f.qLast (2 ^ 32) else f.g0,
      phi0 := if f.mode = 3 then phi else f.phi0, tAnchor := f.t, num := s.ax32 n AX.GNUM, den := s.axr n AX.GDEN })
  else s.onFol n (fun f => { f with reanchor := false })

/-- A point that reads wrong ends FOLLOW in the class stop, with camerr (R115). -/
def State.camError (s : State) (n : Fin 12) : State := (s.flag (axBase n + AX.STATUS) 4).classStop n

/-- An uncorrectable word is found (R498): STATUS.ecc and lifetime counter 3 record it; it is logged once until it is
written, and the 16 most recent are remembered. -/
def State.eccFound (s : State) (st : Store) (key slot w : Nat) (b : Bind) : State :=
  let s1 := (s.flag (fltA FLT.STATUS) 11).life 3
  if (st, key) ∈ s.flt.eccLogged then s1
  else
    let num := match st with | .path => 1 | .image => 2 | .table => 3 | .subs => 4
    let s2 := s1.onFlt (fun f => { f with eccLogged := ((st, key) :: f.eccLogged).take 16 })
    s2.log 0x0A03 (num + w * 256 + (slot / 65536) * 512) (slot % 65536) b

/-- Single-bit errors in the words that the search from segment g0 to segment g has read are corrected and written back (R496, R497). -/
def State.correctRead (s : State) (h cnt : Nat) (g0 g : Int) : State :=
  if s.flt.upsets = [] then s
  else overList (List.range ((g - g0).natAbs + 1)) (fun s k =>
    let i := ((min g0 g + k) % ((cnt : Int) - 1)).toNat
    overList [(h + 1 + i, 0), (h + 1 + i, 1), (h + 2 + i, 0), (h + 2 + i, 1)] (fun s q =>
      match s.flt.upsets.find? (fun u => u.store == .path && u.index == slotAddr q.1 q.2 && !u.dbl) with
      | some u => (s.onFlt (fun f => { f with upsets := f.upsets.erase u })).life 2
      | none => s) s) s

/-- One tick of a ratio gear whose master stands at `m` (R114): the slave's target and the remainder carried to the next tick. Each tick
adds the master's change since the last one, so that target and remainder are those of the whole change since the anchor; the product
saturates at 80 bits (R89). -/
def Follow.gearStep (f : Follow) (m : Int) : Int × Int :=
  let t := satI 80 (wrapI 48 (m - f.mPrev) * f.num + f.rem)
  (f.g0 + fdiv t f.den, if f.den = 0 then 0 else t % f.den)

/-- The target q [2^-32 mstep] and its velocity w [2^-24 vu] that a follower hands to the tracker at this edge. -/
def State.followTarget (s : State) (n : Fin 12) : State :=
  let f := s.fol n
  if s.st n ≠ .follow then s
  else if f.ended then s.classStop n
  else match f.mode with
  | 0 =>
    let g := { f with i := f.i + 1 }
    let q := g.interp s.cycM
    s.onFol n (fun _ => { g with qLast := q, track := some (q, g.interpVel s.cycM s.tpr) })
  | 1 =>
    let q := f.qLast + f.counts * s.axr n AX.STEPSZ * 2 ^ 32
    let w := if s.tpr = 0 then 0 else fdiv (f.counts * s.axr n AX.STEPSZ * 2 ^ 56) s.tpr
    s.onFol n (fun f => { f with qLast := q, counts := 0, track := some (q, w) })
  | 2 =>
    let s1 := s.onFol n (fun f => { f with i := f.i + 1 })
    let m := s1.master n
    let (g, r) := f.gearStep m
    let w := satVel (fdiv (s1.masterVel n * f.num) f.den)
    s1.onFol n (fun f => { f with g0 := g, rem := r, mPrev := m, qLast := g * 2 ^ 32, track := some (g * 2 ^ 32, w) })
  | _ =>
    if f.armed then s.onFol n (fun f => { f with newArm := false, qLast := f.g0 * 2 ^ 32, track := some (f.g0 * 2 ^ 32, 0) })
    else
      let s1 := s.onFol n (fun f => { f with i := f.i + 1, t := if f.kind = 2 then f.t + 1 else f.t })
      let phi := s1.tablePhi n (s1.fol n).t
      match s1.tableEval n phi with
      | .value y dy dx g =>
        let (rn, rd) := s1.phiRate n
        let w := if dx * rd = 0 then 0 else satVel (fdiv (dy * rn) (dx * rd))
        let q := (f.g0 + y) * 2 ^ 32
        (s1.correctRead f.slot f.tN f.seg g).onFol n (fun f => { f with seg := g, qLast := q, track := some (q, w) })
      | .badPoint => s1.camError n
      | .badWord sl w => (s1.eccFound .path (slotAddr sl w) sl w (.axis n)).classStop n

/-! ### The tracker (R110, R111) -/

/-- The lag of axis n [mstep] (R111): the tracker's, or BACKLOG × STEPSZ of a pulse-out axis where that is larger. -/
def State.lagOf (s : State) (n : Fin 12) : Int :=
  let held : Int := s.rd (axBase n + AX.BACKLOG) * s.axr n AX.STEPSZ
  if (s.fol n).lag.natAbs ≤ held then held else (s.fol n).lag

/-- FERR shows the lag, and the lag event occurs (R111): |ferr| first above FERRMAX sets the flag and logs 0x0102; armed again below
FERRMAX / 2. -/
def State.lagCheck (s : State) (n : Fin 12) : State :=
  let ferr := satI 32 (s.lagOf n)
  let s0 := s.wrI 32 (axBase n + AX.FERR) ferr
  let mx := s.axr n AX.FERRMAX
  if mx = 0 then s0
  else if (s.fol n).ferrArmed ∧ mx < ferr.natAbs then
    let v := BitVec.ofInt 32 ferr
    let s1 := s0.onFol n (fun f => { f with ferrArmed := false })
    (s1.flag (axBase n + AX.STATUS) 5).log 0x0102 (v.extractLsb' 0 16).toNat (v.extractLsb' 16 16).toNat (.axis n)
  else if 2 * ferr.natAbs < mx then s0.onFol n (fun f => { f with ferrArmed := true })
  else s0

/-- The velocity the tracker sets for target `q` moving at `w`, from pos `p` and vel `v` (R110), in 2^-32 mstep and 2^-24 vu; its
quotients and its root are whole vu. -/
def trackVel (q w p v : Int) (l : Limits) (tpr : Nat) : Int :=
  let e := q - p
  let vreq := fdiv e tpr * 2 ^ 24
  let vbrk : Int := isqrt (512 * l.dmax * e.natAbs / 2 ^ 32) * 2 ^ 24
  let v1 := clampI vreq (w - vbrk) (w + vbrk)
  let dv : Int := fdiv (l.amax * tpr) (2 ^ 24) * 2 ^ 24
  let v2 := clampI v1 (v - dv) (v + dv)
  clampI v2 (-(l.vmax * 2 ^ 24)) (l.vmax * 2 ^ 24)

/-- Clock 1 of a tick in FOLLOW (R110): the velocity of the tick, held with acc = 0, and the lag. -/
def State.track (s : State) (n : Fin 12) : State :=
  match (s.fol n).track, (s.mot n).eff with
  | some (q, w), .follow =>
    if s.tpr = 0 then s else
    let m := s.mot n
    let e := wrapI 80 (q - m.pos.toInt)
    let p := q - e
    let v := trackVel q w p m.vel.toInt (s.limits n) s.tpr
    let lag := fdiv e (2 ^ 32) - fdiv (w * s.tpr) (2 ^ 56)
    let s1 := s.onMot n (fun m => { m with vel := BitVec.ofInt 64 v, acc := 0, jrk := 0, segs := [], goal := .none })
    (s1.onFol n (fun f => { f with track := none, lag := lag })).lagCheck n
  | _, _ => s

/-! ### Engagement (R108, R112, R114, R116) -/

/-- FOLLOW begins: the interpolator, the anchor and the lag event start from the present position. A gear on a subscription entry takes
its master's interpolator from there too. DESIGN CHOICE (log 48): R114 bridges such a master under R108 and does not say what it starts
from before a value has come. -/
def State.engage (s : State) (n : Fin 12) (mode kind idx : Nat) : State :=
  let p := (s.mot n).ipos
  let s1 := (s.setSt n .follow).onMot n (fun m => { m with atTarget := false, keep := false, req := none })
  let s2 := s1.onFol n (fun f => { f with
    mode := mode, kind := kind, idx := idx, armed := false, pPrev := p, pPrev2 := p, pNext := p, i := 0,
    missed := 0, ended := false, g0 := p, qLast := p * 2 ^ 32, phi0 := 0, t := 0, tAnchor := 0, seg := 0, newArm := false, rem := 0, lag := 0,
    num := s.ax32 n AX.GNUM, den := s.axr n AX.GDEN, reanchor := false, ferrArmed := true, counts := 0, track := none })
  let m0 := if mode = 2 ∨ mode = 3 then s2.master n else 0
  (s2.onFol n (fun f => { f with m0 := m0, mPrev := m0 })).watchLimits n false

/-- A table engages: its header is copied, a time table is armed (R116, R117). -/
def State.engageTable (s : State) (n : Fin 12) (kind idx : Nat) : State :=
  let h := s.axr n AX.CAMBASE
  let w := s.slot h 0
  let s1 := s.engage n 3 kind idx
  (s1.onFol n (fun f => { f with slot := h, tN := w % 2 ^ 17, tRep := w.testBit 27, armed := kind == 2, newArm := kind == 2 })).wr
    (axBase n + AX.CAMTAG) (s.slot h 1)

/-- An armed time table starts at a cycle boundary after the edge that engaged it: PSTART, or the first one under pnow (R116). DESIGN
CHOICE (log 48): PSTART and pnow are read at the boundary; R116 does not say whether the command latches them. -/
def State.tableStart (s : State) (n : Fin 12) : State :=
  let f := s.fol n
  if s.st n = .follow ∧ f.mode = 3 ∧ f.armed ∧ !f.newArm ∧ (s.axb n AX.CFG 4 ∨ s.tim.cyc.toNat = s.axr n AX.PSTART) then
    s.onFol n (fun f => { f with armed := false, t := 0, tAnchor := 0, seg := 0, phi0 := 0 })
  else s

/-- A single-pass time table whose coordinate has reached L ends in a planned move to its last point (R116). -/
def State.tableDone (s : State) (n : Fin 12) : State :=
  let f := s.fol n
  if s.st n = .follow ∧ f.mode = 3 ∧ f.kind = 2 ∧ !f.armed ∧ !f.tRep ∧ s.ptX f.slot (f.tN - 1) ≤ s.tablePhi n f.t then
    s.startMove n (f.g0 + s.ptY f.slot (f.tN - 1))
  else s

/-! ### STEP input and output (R112, R113) -/

/-- The STEP and DIR inputs of axis n after one CORE clock in which their pins read `step` and `dir` after inversion: a level counts once it
has been stable for STEPFILT clocks (R112). -/
def Follow.filter (f : Follow) (filt : Nat) (step dir : Bool) : Follow :=
  let sr := if step = f.stepIn then 0 else f.stepRun + 1
  let dr := if dir = f.dirIn then 0 else f.dirRun + 1
  { f with
    stepIn := if filt ≤ sr then step else f.stepIn, stepRun := if filt ≤ sr then 0 else sr,
    dirIn := if filt ≤ dr then dir else f.dirIn, dirRun := if filt ≤ dr then 0 else dr,
    dirAge := if dir ≠ f.dirIn ∧ filt ≤ dr then 0 else f.dirAge + 1 }

/-- A qualified active STEP edge: one count in the direction of DIR (R112). -/
def State.stepEdge (s : State) (n : Fin 12) (dir : Bool) : State :=
  if s.st n = .follow ∧ (s.fol n).mode = 1 then
    let d : Int := if dir then 1 else -1
    let a := axBase n + AX.STEPCNT
    (s.onFol n (fun f => { f with counts := f.counts + d })).wrI 32 a (s.rdI 32 a + d)
  else s

/-- The STEP cell of the present position: floor(pos / STEPSZ) (R113). -/
def State.stepCell (s : State) (n : Fin 12) : Int :=
  let z : Int := s.axr n AX.STEPSZ
  if z = 0 then 0 else fdiv (s.mot n).ipos z

/-- A STEP pulse is emitted now: STEP high for PW clocks (R113). -/
def State.emitStep (s : State) (n : Fin 12) : State :=
  s.onFol n (fun f => { f with outAge := 0, outHigh := s.axr n AX.PW })

/-- The STEP output of a pulse-out axis emits: the axis moves in a state that emits, and is not muted as Hold class under TRIP (R91, R113, R484). -/
def State.stepEmits (s : State) (n : Fin 12) : Bool :=
  s.role n == 3 && (match s.st n with | .off | .mute | .fault | .unplugged => false | _ => true) &&
    (!(s.bit (fltA FLT.STATUS) 15 || s.tripDue) || s.glide n)

/-- pos crosses a multiple of STEPSZ, or a held pulse falls due (R113): a pulse now where spacing and DIR setup allow it,
otherwise it is held in BACKLOG with stepovr; BACKLOG × STEPSZ counts as lag (R111). DESIGN CHOICE (log 48): pulses held when the axis
stops emitting stay in BACKLOG and follow once it emits again, and pulses held over a reversal leave under the new DIR level; R113
says neither. -/
def State.stepPulse (s : State) (n : Fin 12) : State :=
  if !s.stepEmits n then s else
  let c := s.stepCell n
  let f := s.fol n
  let a := axBase n + AX.BACKLOG
  let back := s.rd a
  let d : Int := c - f.outCell
  let ready := decide (2 * s.axr n AX.PW ≤ f.outAge) && decide (s.axr n AX.DIRSU ≤ f.outDirAge)
  if d ≠ 0 then
    let dir := decide (0 < d)
    let turned := dir != f.outDir
    let s1 := s.onFol n (fun f => { f with
      outCell := c, outDir := dir, outDirAge := if turned then 0 else f.outDirAge })
    let ok := ready && !(turned && decide (0 < s.axr n AX.DIRSU)) && back == 0
    let held := min 65535 (back + d.natAbs - (if ok then 1 else 0))
    let s2 := (if ok then s1.emitStep n else s1).wr a held
    if held = 0 then s2 else (s2.flag (axBase n + AX.STATUS) 3).lagCheck n
  else if 0 < back ∧ ready then ((s.emitStep n).wr a (back - 1)).lagCheck n
  else s

/-- A STEP pulse is due on axis n in this clock. -/
def State.stepDue (s : State) (n : Fin 12) : Bool :=
  let f := s.fol n
  s.stepEmits n && (s.stepCell n != f.outCell ||
    (decide (0 < s.rd (axBase n + AX.BACKLOG)) && decide (2 * s.axr n AX.PW ≤ f.outAge) && decide (s.axr n AX.DIRSU ≤ f.outDirAge)))

/-- One CORE clock of the STEP and DIR output timers of axis n (R113). -/
def Follow.clock (f : Follow) : Follow := { f with
  outAge := f.outAge + 1, outDirAge := f.outDirAge + 1, outHigh := f.outHigh - 1 }

/-! ### Meanings -/

/-- TIME_TABLE_START (R116). -/
def execTimeTableStart (n : Fin 12) (s : State) : Host.Outcome State Fault Refusal := .next (s.awake fun s => s.tableStart n)
/-- TABLE_END (R116). -/
def execTableEnd (n : Fin 12) (s : State) : Host.Outcome State Fault Refusal := .next (s.awake fun s => s.tableDone n)
/-- FOLLOW_TRACK (R110). -/
def execFollowTrack (n : Fin 12) (s : State) : Host.Outcome State Fault Refusal := .next (s.working fun s => s.track n)
/-- STEP_INPUT_EDGE (R112): `dir` is the filtered DIR level. -/
def execStepInputEdge (n : Fin 12) (dir : Bool) (s : State) : Host.Outcome State Fault Refusal := .next (s.awake fun s => s.stepEdge n dir)
/-- STEP_PULSE (R113). -/
def execStepPulse (n : Fin 12) (s : State) : Host.Outcome State Fault Refusal := .next (s.working fun s => s.stepPulse n)
/-- SEGMENT_BOUNDARY (R87). -/
def execSegmentBoundary (n : Fin 12) (s : State) : Host.Outcome State Fault Refusal := .next (s.working fun s => s.segBoundary n)
/-- LANDING (R100). -/
def execLanding (n : Fin 12) (s : State) : Host.Outcome State Fault Refusal := .next (s.working fun s => s.land n)
/-- REST (R603, R96). -/
def execRestReached (n : Fin 12) (s : State) : Host.Outcome State Fault Refusal := .next (s.working fun s => s.restEnd n)
/-- SOFT_LIMIT_REACHED (R107). -/
def execSoftLimitReached (n : Fin 12) (s : State) : Host.Outcome State Fault Refusal := .next (s.working fun s => s.limitReached n)
/-- REPLAN (R101): limits committed in flight take effect, with a single replan. -/
def execReplan (n : Fin 12) (s : State) : Host.Outcome State Fault Refusal := .next (s.working fun s => s.replanAt n)
/-- TABLE_CHECK_DONE (R118): the pending GEAR with a table applies at the next edge. -/
def execTableCheckDone (n : Fin 12) (s : State) : Host.Outcome State Fault Refusal :=
  .next (s.awake fun s => s.onMot n (fun m => { m with tableOk := m.cmd.isSome }))

end Sys2Proof.Machine
end

