-- ==== Sys2Proof/Machine/Numbers.lean ====
section
/-! DEFINITION. Fixed-point numbers of the control loops: roundings the spec leaves open, trigonometry, embouchure values,
and which legs, channels and modulators belong to an axis (R61-R63, R127, R335). -/

namespace Sys2Proof.Machine

/-! ### Numbers -/

/-- A whole number for `x`: its floor, or one above it where it is not whole; the spec does not say which (`site` names the place). -/
def rnd (site : Nat) (x : Rat) : Int := openDiv site x.num x.den
/-- `x` in units of 2^-32. -/
def q32 (site : Nat) (x : Rat) : Int := rnd site (x * 2 ^ 32)
/-- A number kept in units of 2^-32. -/
def fx (v : Int) : Rat := (v : Rat) / 2 ^ 32
/-- The nearest whole number, ties up (R143, R196). -/
def nearestR (x : Rat) : Int := (x + 1 / 2).floor
/-- A fraction rounded toward zero (R139). -/
def truncR (x : Rat) : Int := if x < 0 then -(-x).floor else x.floor
/-- `x` limited to lo..hi. -/
def clampR (x lo hi : Rat) : Rat := if x < lo then lo else if hi < x then hi else x
/-- The magnitude of a fraction. -/
def absR (x : Rat) : Rat := if x < 0 then -x else x
/-- The root of a fraction, in steps of 2^-32. -/
def sqrtR (x : Rat) : Rat := if x ≤ 0 then 0 else ((isqrt ((x * 2 ^ 64).floor.toNat) : Nat) : Rat) / 2 ^ 32
/-- The circle constant, to 15 decimals. -/
def piR : Rat := 3141592653589793 / 1000000000000000

/-- The sine of h/131072 of a circle, up to a quarter, in units of 2^-60 (its series to the 25th power). -/
def sinH (h : Nat) : Int :=
  let x : Int := h * 1811004864519280710 / 2 ^ 15
  let q := x * x / 2 ^ 60
  let s := [600, 506, 420, 342, 272, 210, 156, 110, 72, 42, 20, 6].foldl (fun (acc d : Int) => 2 ^ 60 - q * acc / 2 ^ 60 / d) (2 ^ 60)
  x * s / 2 ^ 60

/-- The sine of a 16-bit angle in units of 2^-60. -/
def sin60 (th : Nat) : Int :=
  let r := th % 16384
  match th / 16384 % 4 with
  | 0 => sinH (2 * r)
  | 1 => if r = 0 then 2 ^ 60 else sinH (32768 - 2 * r)
  | 2 => -sinH (2 * r)
  | _ => if r = 0 then -2 ^ 60 else -sinH (32768 - 2 * r)

/-- The sine of a 16-bit angle, exact to 16 bits (R128): the multiple of 2^-16 at or next above it. -/
def sinT (th : Nat) : Rat := (openDiv 16 (sin60 th) (2 ^ 44) : Rat) / 65536

/-- The cosine of a 16-bit angle. -/
def cosT (th : Nat) : Rat := sinT (th + 16384)

/-- The greatest angle of the first quarter [2^-17 circle] whose tangent does not exceed y/x, searched bit by bit. -/
def atanFrom (y x : Int) : Nat → Nat → Nat
  | 0, r => r
  | k + 1, r =>
    let m := r + 2 ^ k
    if m ≤ 32768 ∧ sinH m * x ≤ sinH (32768 - m) * y then atanFrom y x k m else atanFrom y x k r

/-- The angle of a vector (x, y), not (0, 0), in 2^-17 circle rounded down, and whether it is exact in 2^-16 circle. -/
def atanHalf (y x : Int) : Nat × Bool :=
  let (q, a, b) : Nat × Int × Int :=
    if 0 < x ∧ 0 ≤ y then (0, x, y) else if x ≤ 0 ∧ 0 < y then (1, y, -x) else if x < 0 ∧ y ≤ 0 then (2, -x, -y) else (3, -y, x)
  if b = 0 then (32768 * q, true) else if a = b then (32768 * q + 16384, true) else (32768 * q + atanFrom b a 16 0, false)

/-- The angle of the vector (x, y) as 16 bits: the value at or next above the exact one; for no vector at all it is free (R175, R178). -/
def atan2 (y x : Int) : Nat :=
  if y = 0 ∧ x = 0 then Config.noAngle
  else
    let (h, exact) := atanHalf y x
    (h / 2 + (if !exact && Config.roundsUp 17 y x then 1 else 0)) % 65536

/-- The angle of the vector (x, y) rounded to the nearest 16-bit value; for no vector at all it is free (R300). -/
def atan2Near (y x : Int) : Nat := if y = 0 ∧ x = 0 then Config.noAngle else ((atanHalf y x).1 + 1) / 2 % 65536

/-- A number of electrical cycles as a 16-bit angle. -/
def angle16 (site : Nat) (x : Rat) : Nat := (rnd site (x * 65536) % 65536).toNat

/-! ### Embouchure values -/

/-- A learned value after an update to `x`, clamped to lo..hi; its history keeps the last `k` values (R145-R148). -/
def Learn.step (l : Learn) (k : Nat) (x lo hi : Int) : Learn :=
  let v := clampI x lo hi
  { v := v, hist := (l.v :: l.hist).take k, run := if v = lo ∨ v = hi then (if l.v = v then l.run + 1 else 1) else 0 }

/-- It has changed by less than `thr` over its last `k` updates. -/
def Learn.settled (l : Learn) (k : Nat) (thr : Rat) : Bool :=
  match l.hist[k - 1]? with
  | some v => decide (absR ((l.v - v : Int) : Rat) < thr)
  | none => false

/-- It has stood at one clamp bound for 4,096 consecutive updates. -/
def Learn.diverged (l : Learn) : Bool := decide (4096 ≤ l.run)

/-! ### The legs, channels and modulators of an axis -/

/-- The PWM units of winding end e (0, 1 winding A; 2, 3 winding B), the lead unit first (R62, R63). -/
def AxRec.endUnits (r : AxRec) (e : Nat) : List Nat :=
  match r.role with
  | 1 => if r.par then let b := 4 * r.base + (if e < 2 then 0 else 4) + e % 2; [b, b + 2] else [4 * r.base + e]
  | 2 => [40 + 4 * r.base + e]
  | _ => []

/-- All units of the axis. -/
def AxRec.units (r : AxRec) : List Nat := [0, 1, 2, 3].flatMap r.endUnits

/-- The modulators of winding w (0 A, 1 B), the first of a pair first (R62, R63, R335). -/
def AxRec.mods (r : AxRec) (w : Nat) : List Nat :=
  match r.role with
  | 1 => if r.par then [2 * r.base + 2 * w, 2 * r.base + 2 * w + 1] else [2 * r.base + w]
  | 2 => [20 + 2 * r.base + w]
  | _ => []

/-- The leg groups of the axis. -/
def AxRec.groups (r : AxRec) : List Nat := if r.role = 1 then (if r.par then [r.base, r.base + 1] else [r.base]) else []

/-- The full scale I_FS of an axis [A] (R62, R63). -/
def AxRec.fullScale (r : AxRec) : Rat :=
  match r.role with
  | 1 => if r.par then 4 else 2
  | 2 => if r.shunt = 0 then 0 else 100000 / (r.shunt : Rat)
  | _ => 0

/-- The axis that unit u belongs to. -/
def State.unitAxis (s : State) (u : Nat) : Option (Fin 12) := allAxes.find? (fun n => (s.recd n).units.contains u)

/-- The winding end of an axis that unit u serves. -/
def AxRec.endOf (r : AxRec) (u : Nat) : Option Nat := [0, 1, 2, 3].find? (fun e => (r.endUnits e).contains u)

/-- The lead unit of the end that unit u serves; u itself otherwise (R199). -/
def State.leadOf (s : State) (u : Nat) : Nat :=
  match s.unitAxis u with
  | some n => match (s.recd n).endOf u with | some e => ((s.recd n).endUnits e).headD u | none => u
  | none => u

/-- Unit u is a partner of a paralleled end (R199). -/
def State.isPartner (s : State) (u : Nat) : Bool := s.leadOf u != u

/-- The units of the pair of u, or u alone. -/
def State.pairOf (s : State) (u : Nat) : List Nat :=
  match s.unitAxis u with
  | some n => match (s.recd n).endOf u with | some e => (s.recd n).endUnits e | none => [u]
  | none => [u]

/-- The axis that modulator i belongs to, and its winding. -/
def State.modAxis (s : State) (i : Nat) : Option (Fin 12 × Nat) :=
  allAxes.findSome? (fun n =>
    if ((s.recd n).mods 0).contains i then some (n, 0) else if ((s.recd n).mods 1).contains i then some (n, 1) else none)

/-- What an event concerns: the axis of a unit (R482). -/
def State.unitBind (s : State) (u : Nat) : Bind := match s.unitAxis u with | some n => .axis n | none => .noAxis

/-- A PWM unit by index. -/
def State.unit (s : State) (u : Nat) : PwmUnit := (s.units.toList[u]?).getD PwmUnit.start

/-- The state with unit u changed. -/
def State.onUnit (s : State) (u : Nat) (f : PwmUnit → PwmUnit) : State :=
  if h : u < 48 then { s with units := vupd s.units ⟨u, h⟩ f } else s

/-- The state with the power stage changed. -/
def State.onStage (s : State) (f : Stage → Stage) : State := { s with stage := f s.stage }

/-- A modulator by index. -/
def State.modu (s : State) (i : Nat) : Modu := (s.mods.toList[i]?).getD Modu.start

/-- The state with modulator i changed. -/
def State.onMod (s : State) (i : Nat) (f : Modu → Modu) : State :=
  if h : i < 24 then { s with mods := vupd s.mods ⟨i, h⟩ f } else s

/-- The control state of axis n as the running tick has it. -/
def State.ctl (s : State) (n : Fin 12) : Ctl := s.axes[n].ctl.work

/-- The state with the running control state of axis n changed. -/
def State.onCtl (s : State) (n : Fin 12) (f : Ctl → Ctl) : State :=
  s.onAx n (fun a => { a with ctl := { a.ctl with work := f a.ctl.work } })

/-- Register values that commit with the tick (R134): offsets in the axis window. -/
def Ctl.report (c : Ctl) (l : List (Nat × Int)) : Ctl := { c with rep := c.rep ++ l }

/-- The tick period [s] (R34). -/
def State.tt (s : State) : Rat := (s.tpr : Rat) / 400000000

/-- The VM reading [vlt] (R351). -/
def State.vm (s : State) : Int := s.rdI 16 (adcBase 0 + ADC.VM)

/-- The current loop of axis n runs (R128). -/
def State.loopRuns (s : State) (n : Fin 12) : Bool := s.img.active && s.isPower n && s.energised n

end Sys2Proof.Machine
end

