-- ==== Sys2Proof/Machine/Current.lean ====
section
/-! DEFINITION. Winding current control: levels and frames, the current loop, the winding tracker, the detent compensator
and open-winding detection (R126-R161, R249, R250). -/

namespace Sys2Proof.Machine

/-! ### Winding values, voltages, averages -/

/-- The integer part of an estimate of the tracker, as of the last committed tick (R134). -/
def State.learned (s : State) (n : Fin 12) (k : Nat) : Nat :=
  (((s.axes[n]).ctl.now.trk.toList[k]?.getD (Learn.at 0)).v / 65536).toNat

/-- The winding resistance of w in use [Ω] (R153), as of the last committed tick (R134). DESIGN CHOICE (log 48): a learned value in use
is the integer part that its register shows; R153 does not say whether the fraction bits count. -/
def State.rUse (s : State) (n : Fin 12) (w : Nat) : Rat :=
  ((if s.axub n AX.ICFG 9 then s.learned n w else s.axu n AX.RNOM : Nat) : Rat) / 1000

/-- The winding inductance of w in use [H] (R153), as `rUse`. -/
def State.lUse (s : State) (n : Fin 12) (w : Nat) : Rat :=
  ((if s.axub n AX.ICFG 9 then s.learned n (2 + w) else s.axu n AX.LNOM : Nat) : Rat) / 1000000

/-- A winding value in use is 0 (R144), as the registers have it: a value written is in use from the next edge (R154). -/
def State.windingZero (s : State) (n : Fin 12) : Bool :=
  if s.axb n AX.ICFG 9 then (List.range 4).any (fun k => s.axr n (AX.RA + 4 * k) == 0) else s.axr n AX.RNOM == 0 || s.axr n AX.LNOM == 0

/-- ENERGIZE of axis n lacks a gain (R144). -/
def State.gainMissing (s : State) (n : Fin 12) : Bool :=
  ((s.axb n AX.ICFG 5 || s.axb n AX.ICFG 7) && s.windingZero n) || (!s.axb n AX.ICFG 7 && s.axr n AX.KP == 0)

/-- One amount of current [A] of `x` cu (R126). -/
def State.amp (s : State) (n : Fin 12) (x : Rat) : Rat := x * (s.recd n).fullScale / 32768

/-- The winding average of one interval from its modulators' averages; none where one is marked invalid (R62, R129, R335). -/
def joinAvg : List (Int × Bool) → Option Int
  | [] => none
  | [(a, inv)] => if inv then none else some a
  | (a, i) :: (b, j) :: _ => if i || j then none else some (fdiv (a + b) 2)

/-- The mean over the k periods of the past tick [2^-32 cu]; none where an average is invalid or missing (R129). -/
def State.tickAvg (s : State) (n : Fin 12) (w : Nat) : Option Int :=
  let r := s.recd n
  let k := 2 ^ r.kexp
  let per := (List.range k).map (fun p => joinAvg (((r.mods w).map (fun i => (s.modu i).tick[p]?)).reduceOption))
  if per.all Option.isSome then some (q32 1 (((per.map (fun x => x.getD 0)).sum : Int) / (k : Rat))) else none

/-- The sign of a current for the dead-time error (R162). -/
def deadSign (cu : Rat) : Rat := clampR (cu / 512) (-1) 1

/-- The frequency of the PWM of axis n [Hz] (R37). -/
def State.fPwm (s : State) (n : Fin 12) : Rat := if s.tpr = 0 then 0 else 2 ^ (s.recd n).kexp / s.tt

/-- The effective dead-time error of unit u [s] (R201, R202). -/
def State.teSec (s : State) (u : Nat) : Rat := (s.rdI 16 (unitBase u + PU.TE) : Rat) * 78125 / 1000000000000000

/-- The voltage that two duties put on winding w at current `cu` [vlt] (R162). -/
def State.windingVolt (s : State) (n : Fin 12) (w : Nat) (d1 d2 cu : Rat) : Rat :=
  let r := s.recd n
  let u1 := (r.endUnits (2 * w)).headD 0
  let u2 := (r.endUnits (2 * w + 1)).headD 0
  (s.vm : Rat) * (d1 - d2) - s.vm * s.fPwm n * deadSign cu * (s.teSec u1 + s.teSec u2)

/-- One PWM period of axis n [u] (R194). -/
def State.pwmP (s : State) (n : Fin 12) : Int := 32 * s.tpr / 2 ^ (s.recd n).kexp

/-- The most recent period average of the current out of unit u's node [cu] (R201). -/
def State.nodeCurrent (s : State) (u : Nat) : Int :=
  match s.unitAxis u with
  | none => 0
  | some n =>
    match (s.recd n).endOf u with
    | none => 0
    | some e =>
      let l := ((s.recd n).mods (e / 2)).map (fun i => (s.modu i).runs.headD ((s.modu i).tick.getLastD (0, true)))
      let i := (joinAvg l).getD 0
      if e % 2 = 0 then i else -i

/-- What the dead-time compensation adds to the window of unit u [u] (R201). -/
def State.compOf (s : State) (u : Nat) : Int :=
  if s.bit (unitBase u + PU.PCFG) 6 then rnd 40 (deadSign (s.nodeCurrent u) * s.rdI 16 (unitBase u + PU.TE)) else 0

/-- The voltage of the duties now in the PWM units of winding w [vlt], with their compensation (R130, R201); none while a unit has not
started switching (R141, R214). -/
def State.voltNow (s : State) (n : Fin 12) (w : Nat) (cu : Rat) : Rat :=
  let r := s.recd n
  let p : Rat := s.pwmP n
  let u (e : Nat) : Nat := (r.endUnits e).headD 0
  let d (e : Nat) : Rat := ((s.unit (u e)).duty : Rat) / 2 ^ 24 + (if p = 0 then 0 else s.compOf (u e) / p)
  if (s.unit (u (2 * w))).on && (s.unit (u (2 * w + 1))).on then s.windingVolt n w (d (2 * w)) (d (2 * w + 1)) cu else 0

/-- The applied voltage of the tick that ends, as the units drove it (R162, R163). -/
def State.appliedVolt (s : State) (n : Fin 12) (w : Nat) (cu : Rat) : Rat :=
  let r := s.recd n
  let d (e : Nat) : Rat := fx (s.unit ((r.endUnits e).headD 0)).applied
  s.windingVolt n w (d (2 * w)) (d (2 * w + 1)) cu

/-- A unit of axis n holds its trip latch (R163). -/
def State.anyTrip (s : State) (n : Fin 12) : Bool := (s.recd n).units.any (fun u => s.bit (unitBase u + PU.PSTAT) 15)

/-- At an edge the averages of the past tick enter: an invalid one is replaced by the prediction, or by the last valid one (R129). -/
def State.measEdge (s : State) (n : Fin 12) : State :=
  let c := s.ctl n
  let pred := s.axb n AX.ICFG 5
  let ma := s.tickAvg n 0
  let mb := s.tickAvg n 1
  s.onCtl n (fun _ => { c with
    iaPrev := c.ia, ibPrev := c.ib, ia := ma.getD (if pred then c.predA else c.lastA), ib := mb.getD (if pred then c.predB else c.lastB),
    lastA := ma.getD c.lastA, lastB := mb.getD c.lastB, inv := ma.isNone || mb.isNone })

/-- At an edge the applied voltages of the past tick enter the history (R130, R162); a tick in which a leg tripped is skipped (R163). -/
def State.voltEdge (s : State) (n : Fin 12) : State :=
  let c := s.ctl n
  let units := (s.recd n).units
  let va := q32 2 (s.appliedVolt n 0 (fx c.ia))
  let vb := q32 2 (s.appliedVolt n 1 (fx c.ib))
  let skip := s.anyTrip n || units.any (fun u => (s.unit u).tripped)
  let carried := units.any (fun u => s.bit (unitBase u + PU.PSTAT) 8)
  overList units (fun s u => s.onUnit u (fun x => { x with tripped := false })) (s.onCtl n (fun c => { c with
    vaPrev := c.va, vbPrev := c.vb, va := if skip then c.va else va, vb := if skip then c.vb else vb,
    vSkip := skip, carry := carried }))

/-- The lower duty ceiling of the channels of axis n, as a fraction: 1 on internal legs (R132, R209). -/
def State.mmax (s : State) (n : Fin 12) : Rat :=
  if s.role n = 2 then
    ((((s.recd n).units.map (fun u => s.rd (unitBase u + PU.MMAX))).foldl min 65535 : Nat) : Rat) / 65536
  else 1

/-! ### Run and hold level (R139-R141) -/

/-- ILIMEFF: the smaller of ILIM and the governor's limit (R141). -/
def State.ilimEff (s : State) (n : Fin 12) : Nat := min (s.axu n AX.ILIM) s.stage.axLim[n]

/-- The step of the ramp from IRUN to IHOLD, or none while the rest timer has not reached HOLDDLY (R139). -/
def State.holdStep (s : State) (n : Fin 12) : Option Nat :=
  match (s.ctl n).rest with
  | some t => if s.axb n AX.ICFG 1 ∧ s.axr n AX.HOLDDLY ≤ t then some (t - s.axr n AX.HOLDDLY) else none
  | none => none

/-- I_lvl [cu] before ILIMEFF (R139, R141); HCUR in the search of homing method 5 (R274). -/
def State.level (s : State) (n : Fin 12) : Int :=
  let seek := s.st n == .homing && s.fld (hmBase n + HM.HSTAT) 2 0 == 5 && s.fld (hmBase n + HM.HSTAT) 11 8 == 1
  let run : Int := if seek then s.rd (hmBase n + HM.HCUR) else s.axr n AX.IRUN
  let hold : Int := s.axr n AX.IHOLD
  let ramp : Int := s.axr n AX.HOLDRAMP
  match (s.ctl n).enRamp with
  | some i => if ramp ≤ i then run else truncR ((run * i : Int) / (ramp : Rat))
  | none =>
    match s.holdStep n with
    | none => run
    | some i => if ramp ≤ i then hold else run + truncR (((hold - run) * i : Int) / (ramp : Rat))

/-- A soften acts on axis n: TCFG.act is 3 and a touch stands on one of its channels (R401). -/
def State.softened (s : State) (n : Fin 12) : Bool :=
  s.fld (axBase n + AX.TCFG) 1 0 == 3 && (List.range 8).any (fun m => (s.recd n).fmask.testBit m && s.bit (frcBase m + FRC.FSTAT) 14)

/-- The level register and its flags at an edge: I_lvl limited to ILIMEFF, hold, gov and ilim (R139, R141). -/
def State.holdLevel (s : State) (n : Fin 12) : State :=
  let l := if s.softened n then min (s.level n) (s.axr n AX.ITOUCH) else s.level n
  let lim := s.ilimEff n
  let a := axBase n + AX.ISTAT
  let held := match s.holdStep n with | some i => decide (0 < i) || s.axr n AX.HOLDRAMP == 0 | none => false
  let s1 := ((s.onCtl n (fun c => { c with lvl := min l lim })).wr (axBase n + AX.ILIMEFF) lim).setBit a 12
    (held && (s.ctl n).enRamp.isNone)
  let s2 := s1.setBit a 13 (decide (s.stage.axLim[n] < s.axr n AX.ILIM))
  if lim < l then s2.flag a 14 else s2

/-- The rest timer and the ramp after ENERGIZE advance at an edge, after the one that applies ENERGIZE (R139, R141). The timer counts
with hold_en = 1. DESIGN CHOICE (log 48): with hold_en = 0 it keeps its value; R139 says only when it counts. -/
def State.levelEdge (s : State) (n : Fin 12) : State :=
  let ramp := s.axr n AX.HOLDRAMP
  let st := s.st n
  let resting := st == .hold || st == .paused
  let adv (c : Ctl) : Ctl :=
    if !s.energised n then { c with enRamp := none, rest := none, lvl := 0 }
    else if c.enAge == some 0 then c
    else if !resting then { c with enRamp := none, rest := none }
    else match c.enRamp with
    | some i => if ramp ≤ i + 1 then { c with enRamp := none, rest := some 0, restIn := st == .paused }
                else { c with enRamp := some (i + 1) }
    | none =>
      match c.rest with
      | some t => if c.restIn == (st == .paused) then { c with rest := some (if s.axb n AX.ICFG 1 then t + 1 else t) }
                  else { c with rest := some 0, restIn := st == .paused }
      | none => { c with rest := some 0, restIn := st == .paused }
  (s.onCtl n adv).holdLevel n

/-- ENERGIZE takes effect on the control of axis n (R141): integrators and history at 0, the ramp at step 0. -/
def State.startLoop (s : State) (n : Fin 12) : State :=
  let zero := s.axr n AX.HOLDRAMP == 0
  s.onCtl n (fun c => { c with
    zd := 0, zq := 0, zeta := 0, va := 0, vb := 0, vaPrev := 0, vbPrev := 0, predA := 0, predB := 0, frame := false,
    idMove := none, enRamp := if zero then none else some 0, rest := if zero then some 0 else none, restIn := false,
    enAge := some 0, probe := none, probeReq := false })

/-! ### Frames (R131, R136, R137) -/

/-- corr(θ) of the detent compensator [mstep] (R149). -/
def State.detCorr (s : State) (n : Fin 12) (th : Nat) : Rat :=
  let c := s.ctl n
  let t (i h : Nat) : Rat := fx (c.det.toList[i]?.getD (Learn.at 0)).v * cosT (h * th) +
    fx (c.det.toList[i + 1]?.getD (Learn.at 0)).v * sinT (h * th)
  if s.axub n AX.ICFG 11 then t 0 1 + t 2 2 + t 4 4 else 0

/-- σ of R168. -/
def State.sSign (s : State) (n : Fin 12) : Int := if s.axb n AX.OCFG 8 then -1 else 1

/-- The sensor angle on the motor, 16 bits, before its advance to the edge (R168). -/
def State.sensMot (s : State) (n : Fin 12) (raw : Nat) : Nat :=
  ((s.axr n AX.SRATIO * s.sSign n * raw + s.axr n AX.SOFS) % 65536).toNat

/-- The rotor electrical angle at this edge and its change per tick, 16-bit units, from source `k` (R131, R168). -/
def State.rotorOf (s : State) (n : Fin 12) (k : Nat) : Option (Nat × Rat) :=
  let c := s.ctl n
  match k with
  | 1 => (c.sPrev).map (fun a =>
      let w := ((c.sChg.sum : Int) : Rat) / (max 1 c.sChg.length : Nat)
      let age : Rat := s.rd (prtBase (s.recd n).port + PRT.AGE)
      let adv := if s.tpr = 0 then 0 else w * age * 2 / (5 * (s.tpr : Rat))
      ((rnd 4 (s.sensMot n a + adv) % 65536).toNat, w))
  | 2 => some (c.thPub, fx c.wHat * s.tt * 65536)
  | _ => none

/-- The rotor angle of the selected source (R131, R171). -/
def State.rotor (s : State) (n : Fin 12) : Option (Nat × Rat) := s.rotorOf n (s.ctl n).src

/-- The commanded angle at the middle of tick j + 1 [mstep], without correction (R131). -/
def State.cmdAngle (s : State) (n : Fin 12) : Int :=
  let m := s.mot n
  m.snapPos.toInt + fdiv (3 * s.tpr * m.snapVel.toInt) (2 ^ 33)

/-- The commanded frame angle, 16 bits (R131). -/
def State.thCmd (s : State) (n : Fin 12) : Nat :=
  let p := s.cmdAngle n
  let th := match s.rotor n with | some (a, _) => a | none => (4 * (p % 16384)).toNat
  (rnd 3 (4 * ((p : Rat) + s.detCorr n th)) % 65536).toNat

/-- A rotor angle at the edge, advanced by 1.5 ticks at its speed (R131). -/
def ahead15 (p : Nat × Rat) : Nat := (rnd 4 ((p.1 : Rat) + p.2 * 3 / 2) % 65536).toNat

/-- The rotor frame angle, 16 bits (R131). -/
def State.thRotor (s : State) (n : Fin 12) : Nat :=
  match s.rotor n with
  | some p => ahead15 p
  | none => s.thCmd n

/-- The angle error ea [mstep] (R136); 0 without a valid source. The correction is that at the rotor angle of the edge (R149). -/
def State.angleErr (s : State) (n : Fin 12) : Int :=
  match s.rotor n with
  | some p => wrapI 14 (s.cmdAngle n + rnd 5 (s.detCorr n p.1) - rnd 6 ((ahead15 p : Rat) / 4))
  | none => 0

/-- The frame of the tick is settled at its edge; a change leaves the voltage vector as it is (R137, R172). The edge that applies ENERGIZE
starts in the commanded frame (R141). -/
def State.frameEdge (s : State) (n : Fin 12) : State :=
  let c := s.ctl n
  let want := decide (c.src ≠ 0) && s.axb n AX.ICFG 3 && s.energised n && c.enAge != some 0
  let a := axBase n + AX.ISTAT
  if want = c.frame then s.setBit a 3 want
  else
    let thOld := if c.frame then (if c.src = 0 then c.thLeft else s.thRotor n) else s.thCmd n
    let thNew := if want then s.thRotor n else s.thCmd n
    let dth := thOld + 65536 - thNew
    let zd := fx c.zd * cosT dth - fx c.zq * sinT dth
    let zq := fx c.zd * sinT dth + fx c.zq * cosT dth
    let id := fx c.ia * cosT thNew + fx c.ib * sinT thNew
    let iq := fx c.ib * cosT thNew - fx c.ia * sinT thNew
    let zeta := iq - (s.axr n AX.KPOS * s.angleErr n : Int) / 256
    let ramp := s.axr n AX.HOLDRAMP
    (s.onCtl n (fun c => { c with
      zd := q32 7 zd, zq := q32 7 zq, frame := want, zeta := if want then q32 7 zeta else c.zeta,
      idMove := if want ∧ 0 < ramp then some (q32 7 id, 0) else none })).setBit a 3 want

/-- A change between two rotor sources rotates the integrators by the angle between them (R172). -/
def State.rotateSources (s : State) (n : Fin 12) (thOld thNew : Nat) : State :=
  let dth := thOld + 65536 - thNew
  s.onCtl n (fun c => { c with
    zd := q32 7 (fx c.zd * cosT dth - fx c.zq * sinT dth), zq := q32 7 (fx c.zd * sinT dth + fx c.zq * cosT dth) })

/-! ### Gains (R143) -/

/-- KP and KI as autogain computes them (R143). -/
def State.autoGains (s : State) (n : Fin 12) : Nat × Nat :=
  let ft : Rat := if s.tpr = 0 then 0 else 400000000 / (s.tpr : Rat)
  let bw : Rat := min (s.axr n AX.IBW) (ft / 10).floor.toNat
  let r := (s.rUse n 0 + s.rUse n 1) / 2
  let l := (s.lUse n 0 + s.lUse n 1) / 2
  let fs := (s.recd n).fullScale
  let lim (x : Int) : Nat := min 65535 x.toNat
  (lim (nearestR (32 * piR * bw * l * fs)), lim (nearestR (2 * piR * bw * r * fs * 1024 / ft)))

/-- With autogain the computed values are written into KP and KI at each tick (R143). -/
def State.autogain (s : State) (n : Fin 12) : State :=
  if s.axb n AX.ICFG 7 ∧ 0 < s.tpr then
    let g := s.autoGains n
    (s.wr (axBase n + AX.KP) g.1).wr (axBase n + AX.KI) g.2
  else s

/-! ### Winding tracker (R145-R148, R152) -/

/-- The trimmer has settled, or its values are fixed (R204). -/
def State.unitSettled (s : State) (u : Nat) : Bool :=
  let x := s.unit u
  !s.bit (unitBase u + PU.PCFG) 5 ||
    (x.te.settled 256 (13 * 65536) && x.dtr.settled 256 (13 * 65536) && x.dtf.settled 256 (13 * 65536))

/-- Every dead-time trimmer of the axis is settled (R152). -/
def State.dtSettled (s : State) (n : Fin 12) : Bool :=
  (s.recd n).units.all (fun u => s.isPartner u || s.unitSettled u)

/-- A freeze condition of the tracker holds (R152). -/
def State.trkFrozen (s : State) (n : Fin 12) : Bool :=
  !s.axub n AX.ICFG 8 || !s.energised n || (s.mot n).toFault || !s.dtSettled n || s.axu n AX.RNOM == 0 ||
    s.axu n AX.LNOM == 0 || ((s.mot n).snapVel != 0 && !(s.ctl n).obsValid)

/-- A burst adds its voltage in this tick (R177). -/
def Ctl.inBurst (c : Ctl) : Bool := match c.injT with | some t => decide (t < 6) | none => false

/-- The tick makes no update of either loop: limit, invalid average, injection, probe (R152, R163). -/
def State.loopsSkip (s : State) (n : Fin 12) : Bool :=
  let c := s.ctl n
  c.vsat || c.inv || c.inBurst || c.probe.isSome || c.vSkip

/-- The back-EMF that predictor and tracker take [V] (R130). -/
def State.emf (s : State) (n : Fin 12) (w : Nat) : Rat :=
  let c := s.ctl n
  if s.opt n 0 ∧ c.obsValid then fx (if w = 0 then c.ea else c.eb) / 512 else 0

/-- The residual voltage, mean current and current slope that the tracker sees on winding w (R145). -/
def State.trkSignals (s : State) (n : Fin 12) (w : Nat) : Rat × Rat × Rat :=
  let c := s.ctl n
  let i := s.amp n (fx (if w = 0 then c.ia else c.ib))
  let ip := s.amp n (fx (if w = 0 then c.iaPrev else c.ibPrev))
  let v := fx (if w = 0 then c.va else c.vb) / 512
  let vp := fx (if w = 0 then c.vaPrev else c.vbPrev) / 512
  let r := ((c.trk.toList[w]?.getD (Learn.at 0)).v : Rat) / 65536 / 1000
  let l := ((c.trk.toList[2 + w]?.getD (Learn.at 0)).v : Rat) / 65536 / 1000000
  let im := (i + ip) / 2
  let di := if s.tt = 0 then 0 else (i - ip) / s.tt
  ((v + vp) / 2 - s.emf n w - r * im - l * di, im, di)

/-- The running control state and the committed one of axis n changed together. -/
def State.onBoth (s : State) (n : Fin 12) (f : Ctl → Ctl) : State :=
  s.onAx n (fun a => { a with ctl := { a.ctl with now := f a.ctl.now, work := f a.ctl.work } })

/-- An update of estimate k of the tracker in the running tick; its register takes it at the commit (R134, R145). -/
def State.stepTrk (s : State) (n : Fin 12) (k : Fin 4) (l : Learn) : State := s.onCtl n (fun c => { c with trk := c.trk.set k l })

/-- Estimate k of the tracker set from now on; its register reads the integer part (R145, R154). -/
def State.setTrk (s : State) (n : Fin 12) (k : Fin 4) (l : Learn) : State :=
  (s.onBoth n (fun c => { c with trk := c.trk.set k l })).wr (axBase n + AX.RA + 4 * k) (l.v / 65536).toNat

/-- The change of L of winding w that this tick's current step asks for [2^-16 µH] (R145). -/
def State.lStep (s : State) (n : Fin 12) (w : Fin 2) : Rat :=
  let (res, _, di) := s.trkSignals n w
  if di = 0 then 0 else res / di * 1000000 * 65536 / 2 ^ s.fldu (axBase n + AX.TRKCFG) 11 8

/-- One L update of winding w by `d` (R145). -/
def State.trkL (s : State) (n : Fin 12) (w : Fin 2) (d : Rat) : State :=
  let k : Fin 4 := ⟨2 + w, by omega⟩
  let l := (s.ctl n).trk[k]
  let nom : Int := s.axu n AX.LNOM * 65536
  s.stepTrk n k (l.step 256 (rnd 8 ((l.v : Rat) + d)) (nom / 4) (2 * nom))

/-- One tick of the tracker for winding w (R145): R on a steady tick, L on a changing one. -/
def State.trkStep (s : State) (n : Fin 12) (w : Fin 2) : State :=
  let c := s.ctl n
  let di := fx (if w = 0 then c.ia - c.iaPrev else c.ib - c.ibPrev)
  if absR di < (s.fldu (axBase n + AX.TRKCFG) 7 0 * 4 : Nat) then
    let (res, im, _) := s.trkSignals n w
    if absR (fx (if w = 0 then c.ia + c.iaPrev else c.ib + c.ibPrev)) / 2 ≥ 2048 then
      let k : Fin 4 := ⟨w, by omega⟩
      let r := c.trk[k]
      let nom : Int := s.axu n AX.RNOM * 65536
      let d := if im = 0 then 0 else res / im * 1000 * 65536 / 2 ^ s.fldu (axBase n + AX.TRKCFG) 15 12
      s.stepTrk n k (r.step 256 (rnd 8 ((r.v : Rat) + d)) (nom / 2) (2 * nom))
    else s
  else (s.trkL n w (s.lStep n w)).onCtl n (fun c => { c with tLast := 0 })

/-- The tracker in one tick, with its freeze status (R145, R152). -/
def State.tracker (s : State) (n : Fin 12) : State :=
  if !s.opt n 4 then s else
  let fr := s.trkFrozen n
  let s1 := s.setBit (axBase n + AX.ISTAT) 10 fr
  if fr || s.loopsSkip n || (s.ctl n).carry then s1 else (s1.trkStep n 0).trkStep n 1

/-- ISTAT.trk_settled (R147). -/
def Ctl.trkSettled (c : Ctl) : Bool := c.trk.toList.all (fun l => l.settled 256 (absR (l.v : Rat) / 64))

/-- Which tracker estimate has diverged (R148). -/
def State.trkDiverged (s : State) (n : Fin 12) : Option Nat := (s.ctl n).trk.toList.findIdx? Learn.diverged

/-- The tracker starts again from RNOM and LNOM (R148, R153). -/
def State.trkSeed (s : State) (n : Fin 12) : State :=
  let r := Learn.at (s.axr n AX.RNOM * 65536)
  let l := Learn.at (s.axr n AX.LNOM * 65536)
  (((s.setTrk n 0 r).setTrk n 1 r).setTrk n 2 l).setTrk n 3 l

/-- Divergence of the tracker (R148); a write of trk_learn in the same CORE clock does not set it again. -/
def State.trkDiverge (s : State) (n : Fin 12) : State :=
  match s.trkDiverged n with
  | none => s
  | some k => ((((s.trkSeed n).hardClear (axBase n + AX.ICFG) 8).flag (axBase n + AX.ISTAT) 9).log 0x0108 1 k (.axis n))

/-! ### Detent compensator (R149-R152) -/

/-- A freeze condition of the compensator holds (R152). -/
def State.detFrozen (s : State) (n : Fin 12) : Bool :=
  let v := (s.mot n).snapVel.toInt
  let c := s.ctl n
  !s.axub n AX.ICFG 10 || !s.energised n || (s.mot n).toFault || !s.dtSettled n || c.src == 0 ||
    decide ((v.natAbs : Nat) < s.axu n AX.DETVMIN * 65536) || decide (s.axu n AX.DETVMAX * 65536 < v.natAbs) ||
    decide (v.natAbs < 64 * (v - c.velPrev).natAbs)

/-- An update of coefficient k of the compensator in the running tick; its register takes it at the commit (R134, R150). -/
def State.stepDet (s : State) (n : Fin 12) (k : Fin 6) (l : Learn) : State := s.onCtl n (fun c => { c with det := c.det.set k l })

/-- Coefficient k of the compensator set from now on; its register reads the integer part (R149, R154). -/
def State.setDet (s : State) (n : Fin 12) (k : Fin 6) (l : Learn) : State :=
  (s.onBoth n (fun c => { c with det := c.det.set k l })).wrI 16 (axBase n + AX.DETA1 + 4 * k) (fdiv l.v (2 ^ 32))

/-- One coefficient takes its share of the ripple `eps` [mstep] at the trigonometric value `t` (R150). -/
def State.detStep (s : State) (n : Fin 12) (k : Fin 6) (eps t : Rat) : State :=
  let l := (s.ctl n).det[k]
  let lim : Int := s.axu n AX.DETLIM * 2 ^ 32
  s.stepDet n k (l.step 1024 (l.v + q32 9 (eps * t / 2 ^ s.fldu (axBase n + AX.DETCFG) 11 8)) (-lim) lim)

/-- The compensator in one tick, with its freeze status (R150, R152): the ripple at the rotor angle of the edge. -/
def State.detent (s : State) (n : Fin 12) : State :=
  if !s.opt n 5 then s else
  let fr := s.detFrozen n
  let s1 := s.setBit (axBase n + AX.ISTAT) 7 fr
  if fr || s.loopsSkip n then s1
  else
    let ea : Rat := s.angleErr n
    let m := fx (s.ctl n).detM
    let eps := ea - m
    let th := match s.rotor n with | some p => p.1 | none => s.thCmd n
    let t1 := s1.onCtl n (fun c => { c with detM := q32 9 (m + (ea - m) / 64) })
    let t2 := (t1.detStep n 0 eps (cosT th)).detStep n 1 eps (sinT th)
    let t3 := (t2.detStep n 2 eps (cosT (2 * th))).detStep n 3 eps (sinT (2 * th))
    (t3.detStep n 4 eps (cosT (4 * th))).detStep n 5 eps (sinT (4 * th))

/-- ISTAT.det_settled (R150). -/
def Ctl.detSettled (c : Ctl) : Bool := c.det.toList.all (fun l => l.settled 1024 (2 * 2 ^ 32))

/-- The freeze flags of both loops as an edge finds them (R152). -/
def State.frozenEdge (s : State) (n : Fin 12) : State :=
  let a := axBase n + AX.ISTAT
  let s1 := if s.opt n 4 then s.setBit a 10 (s.trkFrozen n) else s
  if s.opt n 5 then s1.setBit a 7 (s.detFrozen n) else s1

/-- Divergence of the compensator (R151): the harmonic of the coefficient names it. -/
def State.detDiverge (s : State) (n : Fin 12) : State :=
  match (s.ctl n).det.toList.findIdx? Learn.diverged with
  | none => s
  | some k =>
    let z := (List.finRange 6).foldl (fun s k => s.setDet n k (Learn.at 0)) s
    (((z.hardClear (axBase n + AX.ICFG) 10).flag (axBase n + AX.ISTAT) 6).log 0x0108 2 (2 ^ (k / 2)) (.axis n))

/-! ### Probe (R146) -/

/-- The d-axis offset of the running probe [cu] (R146): the first four ticks that begin after its item has started. -/
def State.probeAmp (s : State) (n : Fin 12) : Int :=
  match (s.ctl n).probe with
  | some t => if t = 1 ∨ t = 2 then s.axu n AX.TRKAMP else if t = 3 ∨ t = 4 then -(s.axu n AX.TRKAMP : Int) else 0
  | none => 0

/-- A probe is due: TRKPROBE rest ticks since the last update, no injection running or due in this tick (R146). -/
def State.probeDue (s : State) (n : Fin 12) : Bool :=
  let c := s.ctl n
  let p := s.axr n AX.TRKPROBE
  s.opt n 4 && (s.st n == .hold || s.st n == .paused) && p != 0 && decide (p ≤ c.tLast) && c.probe.isNone && !c.probeReq &&
    c.injT.isNone && !s.trkFrozen n

/-- The tracker requests the reserve item of a probe (R146). -/
def State.probeStart (s : State) (n : Fin 12) : State :=
  if s.probeDue n then (s.onCtl n (fun c => { c with probeReq := true, tLast := 0 })).request n 1 600 else s

/-- The probe is over. -/
def State.probeStop (s : State) (n : Fin 12) : State :=
  (s.onCtl n (fun c => { c with probe := none, probeReq := false, probeStep := none, tLast := 0 })).setBit (axBase n + AX.ISTAT) 5 false

/-- The probe at an edge, after its commands (R146): leaving rest ends it; one whose item has started waits for a tick without injection. -/
def State.probeEdge (s : State) (n : Fin 12) : State :=
  let c := s.ctl n
  let resting := s.st n == .hold || s.st n == .paused
  if !resting then (if c.probe.isSome || c.probeReq then s.probeStop n else s.onCtl n (fun c => { c with tLast := 0 }))
  else match c.probe with
  | none => s.onCtl n (fun c => { c with tLast := if c.probeReq then 0 else c.tLast + 1 })
  | some 0 => if c.injT.isSome then s else s.onCtl n (fun c => { c with probe := some 1 })
  | some t => s.onCtl n (fun c => { c with probe := some (t + 1) })

/-- The two current steps of a probe (R146): the first stands in the averages of the third tick, the second in those of the fifth, and the
item, once it has all its lane-cycles, makes one L update per winding. DESIGN CHOICE (log 52): the mean of what the two steps ask for. -/
def State.probeTask (s : State) (n : Fin 12) : State :=
  let c := s.ctl n
  let d (w : Fin 2) : Int := q32 9 (s.lStep n w)
  match c.probe with
  | some t =>
    if t = 3 then s.onCtl n (fun c => { c with probeStep := some (d 0, d 1) })
    else if 5 ≤ t ∧ s.seq.reserve.all (fun i => i.kind != 1 || i.who != n.val) then
      match c.probeStep with
      | some (a, b) =>
        if s.trkFrozen n then s.probeStop n
        else ((s.trkL n 0 ((fx a + fx (d 0)) / 2)).trkL n 1 ((fx b + fx (d 1)) / 2)).probeStop n
      | none => s.probeStop n
    else s
  | none => s

/-! ### The current loop (R128-R136) -/

/-- The two steps of the predictor (R130): the average of tick j, and the part of the tick j + 1 average already fixed [A]. -/
def predictW (i vp vn r l e tt : Rat) : Rat × Rat :=
  if l = 0 then (i, i) else
  let g := tt / l
  let i1 := i + g * ((vp + vn) / 2 - r * i - e)
  (i1, i1 + g * (vn / 2 - r * i1 - e))

/-- What the loop regulates on winding w [cu]: the predicted average of the running tick, and the value regulated (R129, R130); a tick
without an applied voltage is not predicted (R163). -/
def State.feedback (s : State) (n : Fin 12) (w : Nat) : Int × Rat :=
  let c := s.ctl n
  let i := if w = 0 then c.ia else c.ib
  let fs := (s.recd n).fullScale
  let vp := fx (if w = 0 then c.va else c.vb) / 512
  let vn := s.voltNow n w (fx i) / 512
  let (i1, i2) := predictW (s.amp n (fx i)) vp vn (s.rUse n w) (s.lUse n w) (s.emf n w) s.tt
  let cu (x : Rat) : Rat := if fs = 0 then 0 else x * 32768 / fs
  if c.vSkip then (i, fx i) else (q32 10 (cu i1), if s.axub n AX.ICFG 5 then cu i2 else fx i)

/-- The references of one run of the loop. -/
structure LoopRef where
  idr : Rat                  -- [cu]
  iqr : Rat
  zeta : Int                 -- the angle-error integrator after it [2^-32 cu]
  iqSat : Bool               -- iqr is clamped at I_lvl (R180)
  lim : Bool                 -- a limit of R141 acts

/-- The references of the loop (R135, R136, R141). -/
def State.reference (s : State) (n : Fin 12) : LoopRef :=
  let c := s.ctl n
  let lim : Rat := s.ilimEff n
  let pr : Rat := s.probeAmp n
  if c.frame then
    let ref : Rat := s.axu16 n AX.IDREF
    let ramp : Rat := s.axu n AX.HOLDRAMP
    let idr0 := match c.idMove with
      | some (i0, k) => if ramp = 0 then ref else fx i0 + (ref - fx i0) * k / ramp
      | none => ref
    let idr := clampR idr0 (-lim) lim
    let ea : Rat := s.angleErr n
    let lvl : Rat := c.lvl
    let u := s.axu n AX.KPOS * ea / 256 + fx c.zeta
    let iq1 := clampR u (-lvl) lvl
    let z := if iq1 = u then q32 11 (clampR (fx c.zeta + s.axu n AX.KIPOS * ea / 65536) (-lvl) lvl) else c.zeta
    let room := sqrtR (lim * lim - idr * idr)
    let iqr := clampR iq1 (-room) room
    ⟨idr + pr, iqr, z, iq1 ≠ u ∧ absR iqr = lvl, idr ≠ idr0 ∨ iqr ≠ iq1⟩
  else ⟨c.lvl + pr, 0, c.zeta, false, false⟩

/-- The voltage that a standstill burst adds in this tick [vlt], along the current vector turned by φ (R177). -/
def State.injectVolt (s : State) (n : Fin 12) (ia ib : Int) : Rat × Rat :=
  match (s.ctl n).injT with
  | some t =>
    let u : Rat := (if t % 2 = 0 then 1 else -1) * (s.axu n AX.INJV : Rat)
    let th := atan2 ib ia + 8192 * (t / 2)
    if t < 6 then (u * cosT th, u * sinT th) else (0, 0)
  | none => (0, 0)

/-- The two duties of a winding voltage (R133), as fractions of 2^24. -/
def State.dutiesOf (s : State) (n : Fin 12) (v : Rat) : Int × Int :=
  let vm : Rat := s.vm
  let x := if vm ≤ 0 then 0 else clampR (v / vm) (-1) 1
  let q (d : Rat) : Int := rnd 12 (d * 2 ^ 24)
  if s.axub n AX.ICFG 4 then (q (if 0 ≤ x then x else 0), q (if x < 0 then -x else 0))
  else (q (1 / 2 + x / 2), q (1 / 2 - x / 2))

/-- One run of a count of consecutive ticks, reported when it is `own`: a skipped tick neither counts nor breaks it, and reports nothing. -/
def runOf (own k : Nat) (skip met : Bool) : Nat := if skip then (if k = own then k + 1 else k) else if met then k + 1 else 0

/-- VM lies under its window (R375, R563). -/
def State.vmUnder (s : State) : Bool := s.bit (cmpA CMP.WSTAT) 0

/-- The counts of the open and sharing criteria in this tick (R249, R250); they restart while VM is under its window (R563). -/
def State.openEval (s : State) (n : Fin 12) (ir : Nat → Rat) (iw vw : Nat → Rat) (vlim : Rat) : State :=
  let c := s.ctl n
  let owMin : Rat := s.rdu (devA DEV.OWMIN)
  let met (w : Nat) : Bool := decide (owMin ≤ absR (ir w)) && decide (absR (iw w) < absR (ir w) / 8) && decide (vlim / 2 ≤ absR (vw w))
  let share (w : Nat) : Bool :=
    match (s.recd n).mods w with
    | [a, b] =>
      let f (i : Nat) : Int := (((s.modu i).tick.map Prod.fst).sum)
      let k : Int := 2 ^ (s.recd n).kexp
      decide (owMin * k ≤ (f a + f b).natAbs) &&
        decide ((f a + f b).natAbs * s.rdu (devA DEV.OWSHARE) < (f a - f b).natAbs * 64)
    | _ => false
  let o := s.rdu (devA DEV.OWN)
  s.onCtl n (fun _ => { c with openRun := if s.vmUnder then Vector.replicate 4 0 else #v[
    runOf o c.openRun[0] c.vSkip (met 0), runOf o c.openRun[1] c.vSkip (met 1),
    runOf o c.openRun[2] c.vSkip (share 0), runOf o c.openRun[3] c.vSkip (share 1)] })

/-- One run of task 0 (R128): the winding voltages from the tick averages, the staged duties, and both learning loops. DESIGN CHOICE
(log 48): the reported currents and voltages are taken modulo 2^16; R157 does not say what a value beyond 16 bits reads as. -/
def State.currentLoop (s : State) (n : Fin 12) : State :=
  if !s.loopRuns n then s else
  let c := s.ctl n
  let (pa, fa) := s.feedback n 0
  let (pb, fb) := s.feedback n 1
  let th := if c.frame then s.thRotor n else s.thCmd n
  let cs := cosT th
  let sn := sinT th
  let id := fa * cs + fb * sn
  let iq := fb * cs - fa * sn
  let r := s.reference n
  let kp : Rat := s.axu n AX.KP
  let ki : Rat := s.axu n AX.KI
  let vd := fx c.zd + kp * (r.idr - id) / 1024
  let vq := fx c.zq + kp * (r.iqr - iq) / 1024
  let va := vd * cs - vq * sn
  let vb := vd * sn + vq * cs
  let vlim := (s.vm : Rat) * s.mmax n
  let big := if absR va < absR vb then absR vb else absR va
  let sat := decide (vlim < big)
  let k : Rat := if sat then (if big = 0 then 0 else vlim / big) else 1
  let hold := sat || c.inv || c.inBurst
  let zd := if hold then c.zd else q32 13 (clampR (fx c.zd + ki * (r.idr - id) / 65536) (-vlim) vlim)
  let zq := if hold then c.zq else q32 13 (clampR (fx c.zq + ki * (r.iqr - iq) / 65536) (-vlim) vlim)
  let (ja, jb) := s.injectVolt n c.ia c.ib
  let (a1, a2) := s.dutiesOf n (va * k + ja)
  let (b1, b2) := s.dutiesOf n (vb * k + jb)
  let ea := s.angleErr n
  let rep : List (Nat × Int) := [(AX.IA, rnd 14 (fx c.ia)), (AX.IB, rnd 14 (fx c.ib)), (AX.ID, rnd 14 id), (AX.IQ, rnd 14 iq),
    (AX.IDR, rnd 14 r.idr), (AX.IQR, rnd 14 r.iqr), (AX.VD, rnd 14 (vd * k)), (AX.VQ, rnd 14 (vq * k)), (AX.THETA, th), (AX.AERR, ea)]
  let s1 := s.onCtl n (fun c => { c with
    zd := zd, zq := zq, zeta := r.zeta, predA := pa, predB := pb, aerr := ea, iqSat := r.iqSat, vsat := sat,
    duty := #v[a1, a2, b1, b2], rep := rep,
    idMove := c.idMove.bind (fun (i0, j) => if j + 1 < s.axu n AX.HOLDRAMP then some (i0, j + 1) else none) })
  let a := axBase n + AX.ISTAT
  let s2 := if sat then s1.flag a 15 else s1
  let s3 := if c.inv then s2.flag a 4 else s2
  let s4 := if r.lim then s3.flag a 14 else s3
  let s5 := ((s4.tracker n).probeTask n).detent n
  s5.openEval n (fun w => if w = 0 then r.idr * cs - r.iqr * sn else r.idr * sn + r.iqr * cs) (fun w => fx (if w = 0 then c.ia else c.ib))
    (fun w => fx (if w = 0 then c.va else c.vb)) vlim

/-! ### Open winding (R249, R250) -/

/-- The windings whose open criterion has come about in this tick, A and B; both, where the other one has stood since earlier (R249, R402). -/
def State.openNow (s : State) (n : Fin 12) : Bool × Bool :=
  let o := s.rdu (devA DEV.OWN)
  let a := (s.ctl n).openRun[0]
  let b := (s.ctl n).openRun[1]
  if (a = o ∨ b = o) ∧ o ≤ a ∧ o ≤ b then (true, true) else (a == o, b == o)

/-- Open windings are logged (R249): both at once are an unplug where hp_en is set, and 0x0105 with detail 4 otherwise. -/
def State.openWinding (s : State) (n : Fin 12) : State :=
  let c := s.ctl n
  let i (x : Int) : Nat := (BitVec.ofInt 16 (rnd 14 (fx x))).toNat
  match s.openNow n with
  | (true, true) => if s.axb n AX.FPCFG 0 then s else s.log 0x0105 4 (i c.ia) (.axis n)
  | (true, false) => s.log 0x0105 0 (i c.ia) (.axis n)
  | (false, true) => s.log 0x0105 1 (i c.ib) (.axis n)
  | _ => s

/-- A partner pair that differs is logged (R250): detail 2 for winding A, 3 for B, with the difference. -/
def State.sharingFault (s : State) (n : Fin 12) : State :=
  let o := s.rdu (devA DEV.OWN)
  let delta (w : Nat) : Nat :=
    match (s.recd n).mods w with
    | [a, b] =>
      let k : Int := 2 ^ (s.recd n).kexp
      (BitVec.ofInt 16 (rnd 15 ((((s.modu a).tick.map Prod.fst).sum - ((s.modu b).tick.map Prod.fst).sum : Int) / (k : Rat)))).toNat
    | _ => 0
  let s1 := if (s.ctl n).openRun[2] = o then s.log 0x0105 2 (delta 0) (.axis n) else s
  if (s.ctl n).openRun[3] = o then s1.log 0x0105 3 (delta 1) (.axis n) else s1

/-! ### Commit (R43, R134) -/

/-- A baseline of the stall monitor set from now on, with its register (R154, R183). -/
def State.setSbl (s : State) (n : Fin 12) (k : Fin 16) (l : Learn) : State :=
  (s.onBoth n (fun c => { c with sbl := c.sbl.set k l })).wrI 16 (axBase n + AX.SBL + 4 * k) (fdiv l.v 256)

/-- The registers of the learned values take them as the axis commits, with their settled flags; a value written in this tick stays
(R134, R147, R150, R154, R184). -/
def State.showLearned (s : State) (n : Fin 12) : State :=
  let c := s.ctl n
  let b := axBase n
  let s1 := overList (List.finRange 4) (fun s k => s.wr (b + AX.RA + 4 * k) (c.trk[k].v / 65536).toNat) s
  let s2 := overList (List.finRange 6) (fun s k => s.wrI 16 (b + AX.DETA1 + 4 * k) (fdiv c.det[k].v (2 ^ 32))) s1
  let s3 := overList (List.finRange 16) (fun s k => s.wrI 16 (b + AX.SBL + 4 * k) (fdiv c.sbl[k].v 256)) s2
  let s4 := overList (s.seq.seeds.filter (fun e => decide (b ≤ e.1) && decide (e.1 < b + 0x4000))) (fun s e => s.wr e.1 e.2) s3
  let s5 := if s.opt n 4 then s4.setBit (b + AX.ISTAT) 11 c.trkSettled else s4
  if s.opt n 5 then s5.setBit (b + AX.ISTAT) 8 c.detSettled else s5

/-- The axis commits its tick: its control state, its register values and its duties stand (R43, R134). -/
def State.axisCommit (s : State) (n : Fin 12) : State :=
  let l := (s.ctl n).rep
  let s0 := if s.isPower n then s.showLearned n else s
  let s1 := l.foldl (fun s p => s.wrI (if p.1 = AX.OBSV then 32 else 16) (axBase n + p.1) p.2) s0
  s1.onAx n (fun a => { a with ctl := { a.ctl with
    now := { a.ctl.work with rep := [] }, work := { a.ctl.work with rep := [] }, committed := true } })

/-- The results of an overblown tick are discarded; the source selection and the applied voltage stand (R44, R134, R174). -/
def Ctl.discard (c w : Ctl) : Ctl :=
  { c with src := w.src, sPrev := w.sPrev, sChg := w.sChg, sGood := w.sGood, sLost := w.sLost, sLast := w.sLast, thLeft := w.thLeft,
           probe := w.probe, probeReq := w.probeReq, va := w.va, vb := w.vb,
           vaPrev := w.vaPrev, vbPrev := w.vbPrev, vSkip := w.vSkip, velPrev := w.velPrev, reinit := w.reinit, rep := [] }

/-! ### Written values (R142, R154, R193) -/

/-- A learned value is written: its register shows it at once, and the loop takes it from the next edge (R154). -/
def State.seed (s : State) (b v : Nat) : State :=
  let t := s.wr b v
  { t with seq := { t.seq with seeds := (b, v) :: t.seq.seeds.filter (fun e => e.1 != b) } }

/-- A learned value written in the past tick enters its loop (R154). -/
def State.takeSeed (s : State) (e : Nat × Nat) : State :=
  if h : 0x080000 ≤ e.1 ∧ e.1 < 0x0B0000 then
    let n : Fin 12 := ⟨(e.1 - 0x080000) / 0x4000, by omega⟩
    let o := (e.1 - 0x080000) % 0x4000
    let i16 : Int := (BitVec.ofNat 16 e.2).toInt
    if h : AX.RA ≤ o ∧ o ≤ AX.LB then s.setTrk n ⟨(o - AX.RA) / 4, by unfold AX.RA AX.LB at *; omega⟩ (Learn.at (e.2 * 65536))
    else if h : AX.DETA1 ≤ o ∧ o ≤ AX.DETB4 then
      s.setDet n ⟨(o - AX.DETA1) / 4, by unfold AX.DETA1 AX.DETB4 at *; omega⟩ (Learn.at (i16 * 2 ^ 32))
    else if h : AX.SBL ≤ o ∧ o < AX.SBL + 64 then s.setSbl n ⟨(o - AX.SBL) / 4, by omega⟩ (Learn.at (i16 * 256))
    else s
  else s

/-- A register of the open-winding test (R254). -/
def openTest (b : Nat) : Bool := decide (devA DEV.OWMIN ≤ b) && decide (b ≤ devA DEV.OWSHARE)

/-- The settings of a sensor port: they act from its next slot boundary (R310). -/
def portReg (b : Nat) : Bool := decide (0x0E0000 ≤ b) && decide (b < 0x0E0800)

/-- At an edge the writes of the past tick come into use (R142, R154, R193, R334, R414); those to the open-winding test restart its counts
(R254). -/
def State.takeWrites (s : State) : State :=
  let s1 := overList s.seq.seeds (fun s e => s.takeSeed e) s
  let t := if s.seq.inUse.any (fun e => openTest e.1) then
    overList allAxes (fun s n => s.onBoth n (fun c => { c with openRun := Vector.replicate 4 0 })) s1 else s1
  { t with seq := { t.seq with inUse := t.seq.inUse.filter (fun e => portReg e.1), seeds := [] } }

/-- AERR of an axis whose loop does not report it (R136). -/
def State.aerrEdge (s : State) (n : Fin 12) : State :=
  if s.loopRuns n && (s.rotor n).isSome then s else s.wrI 16 (axBase n + AX.AERR) (s.angleErr n)

/-! ### Meanings -/

/-- CURRENT_LOOP (R128). -/
def execCurrentLoop (n : Fin 12) (s : State) : Host.Outcome State Fault Refusal := .next (s.working fun s => s.currentLoop n)
/-- The fixed work of axis n is complete in the clock (R43). -/
def State.fixedDone (s : State) (n : Fin 12) : Bool :=
  (s.img.items.filter (fun i => i.axis == n.val)).all (fun i => decide (i.start + i.len ≤ s.tim.clk))

/-- Axis n may commit: its fixed work is complete and no reserve item of it waits (R43). -/
def State.mayCommit (s : State) (n : Fin 12) : Bool :=
  !(s.axes[n]).ctl.committed && s.fixedDone n && s.seq.reserve.all (fun i => i.who != n.val) && s.seq.done.all (fun i => i.who != n.val)

/-- AXIS_COMMIT (R43): the axis commits once its fixed work and its reserve items are complete; before that the command does nothing. -/
def execAxisCommit (n : Fin 12) (s : State) : Host.Outcome State Fault Refusal := .next (s.working fun s => if s.mayCommit n then s.axisCommit n else s)
/-- OPEN_WINDING (R249). -/
def execOpenWinding (n : Fin 12) (s : State) : Host.Outcome State Fault Refusal := .next (s.working fun s => s.openWinding n)
/-- SHARING_CRITERION (R250). -/
def execSharingCriterion (n : Fin 12) (s : State) : Host.Outcome State Fault Refusal := .next (s.working fun s => s.sharingFault n)
/-- HOLD_REDUCTION (R139): the level of the present rest-timer value is in force. -/
def execHoldReduction (n : Fin 12) (s : State) : Host.Outcome State Fault Refusal := .next (s.awake fun s => s.holdLevel n)
/-- TRACKER_PROBE (R146). -/
def execTrackerProbe (n : Fin 12) (s : State) : Host.Outcome State Fault Refusal := .next (s.awake fun s => s.probeStart n)
/-- TRACKER_DIVERGE (R148). -/
def execTrackerDiverge (n : Fin 12) (s : State) : Host.Outcome State Fault Refusal := .next (s.awake fun s => s.trkDiverge n)
/-- DETENT_DIVERGE (R151). -/
def execDetentDiverge (n : Fin 12) (s : State) : Host.Outcome State Fault Refusal := .next (s.awake fun s => s.detDiverge n)

end Sys2Proof.Machine
end

