-- ==== Sys2Proof/Machine/Observer.lean ====
section
/-! DEFINITION. The back-EMF observer, the sensor angle on the motor, the choice of the angle source, the load angle,
standstill injection, and the stall monitor with its baseline tracker (R162-R193). -/

namespace Sys2Proof.Machine

/-! ### The observer (R164-R167) -/

/-- The address of OSTAT of axis n. -/
def ostat (n : Fin 12) : Nat := axBase n + AX.OSTAT

/-- The observer runs (R164, R189): in every state of the axis. -/
def State.obsRuns (s : State) (n : Fin 12) : Bool := s.img.active && s.isPower n && s.opt n 0 && s.axub n AX.OCFG 2

/-- |ω̂| in vu (R166): 2^32 vu are 400,000,000 mstep/s. -/
def Ctl.wVu (c : Ctl) : Rat := fx c.wHat * 16384 * 2 ^ 32 / 400000000

/-- The back-EMF that the constant KE gives at |ω̂| [vlt]. -/
def State.keMag (s : State) (n : Fin 12) (w : Rat) : Rat := s.axu n AX.KE * absR w * 16384 * 512 / 1000000000

/-- One run of the observer (R164). -/
def State.observer (s : State) (n : Fin 12) : State :=
  let c := s.ctl n
  if !s.obsRuns n || c.vSkip || s.tt == 0 then s else
  let back (e v i ip : Int) (w : Nat) : Rat :=
    let res := fx v - 512 * (s.rUse n w * s.amp n (fx i)) - 512 * (s.lUse n w * s.amp n (fx (i - ip)) / s.tt)
    fx e + (res - fx e) / 4
  let ea := back c.ea c.va c.ia c.iaPrev 0
  let eb := back c.eb c.vb c.ib c.ibPrev 1
  let mag := sqrtR (ea * ea + eb * eb)
  let th := angle16 20 (fx c.thMid)
  let sg : Rat := if c.wHat = 0 then sgn (s.mot n).snapVel.toInt else sgn c.wHat
  let eps := if mag = 0 then 0 else -(ea * cosT th + eb * sinT th) * sg / mag
  let bw : Rat := s.axu n AX.OBSBW
  let w := fx c.wHat + 2 * piR * bw * bw * s.tt * eps
  let thm := fx c.thMid + w * s.tt + 2 * bw * s.tt * eps
  let pub := angle16 21 (thm + w * s.tt * 3 / 2)
  s.onCtl n (fun c => { c with
    ea := q32 22 ea, eb := q32 22 eb, wHat := q32 22 w, thMid := q32 22 thm, thPub := pub, eps := q32 22 eps, emag := q32 22 mag,
    rep := c.rep ++ [(AX.OTHETA, (pub : Int)), (AX.OBSV, rnd 23 (w * 16384 * 2 ^ 24 / 400000000)), (AX.EA, rnd 23 ea), (AX.EB, rnd 23 eb)] })

/-- The amplitude test of R166 holds. -/
def State.ampOk (s : State) (n : Fin 12) : Bool :=
  let c := s.ctl n
  let k := s.keMag n (fx c.wHat)
  s.axr n AX.KE == 0 || (decide (k / 2 ≤ fx c.emag) && decide (fx c.emag ≤ k * 3 / 2))

/-- The counts of consecutive edges that R166 uses, while the observer runs. -/
def State.obsCount (s : State) (n : Fin 12) : State :=
  let c := s.ctl n
  if !s.obsRuns n then s.onCtl n (fun c => { c with obsRun := 0, errRun := 0, ampRun := 0 }) else
  let e := absR (fx c.eps)
  let met := decide ((s.axr n AX.VOBS : Rat) * 65536 ≤ absR c.wVu) && decide (e ≤ 383 / 1000) && s.ampOk n
  s.onCtl n (fun c => { c with
    obsRun := if met then c.obsRun + 1 else 0, errRun := if 707 / 1000 < e then c.errRun + 1 else 0,
    ampRun := if s.ampOk n then 0 else c.ampRun + 1 })

/-- The observer becomes valid after OBSN edges (R166). -/
def State.obsValidate (s : State) (n : Fin 12) : State :=
  if s.obsRuns n ∧ s.axr n AX.OBSN ≤ (s.ctl n).obsRun ∧ !(s.ctl n).obsValid then
    (s.onCtl n (fun c => { c with obsValid := true })).setBit (ostat n) 11 true
  else s

/-- A valid observer has stood off by more than 45° at 4 edges: lock_lost, and validity ends (R166); at speed in the commanded
frame a re-initialisation is requested (R167). -/
def State.obsLockLost (s : State) (n : Fin 12) : State :=
  let c := s.ctl n
  if c.errRun < 4 ∨ !c.obsValid then s else
  let s1 := ((s.onCtl n (fun c => { c with obsValid := false, obsRun := 0, errRun := 0 })).setBit (ostat n) 11 false).flag (ostat n) 6
  if s.axr n AX.VOBS * 65536 ≤ (s.mot n).snapVel.toInt.natAbs ∧ !c.frame ∧ c.reinit.isNone then
    (s1.onCtl n (fun c => { c with reinit := some 1, seedAge := 0 })).request n 0 900
  else s1

/-- The other ends of validity (R166). -/
def State.obsInvalidate (s : State) (n : Fin 12) : State :=
  let c := s.ctl n
  if c.obsValid ∧ (!s.obsRuns n ∨ absR c.wVu < (s.axr n AX.VOBS : Rat) * 65536 * 3 / 4 ∨ (s.axr n AX.KE ≠ 0 ∧ 16 ≤ c.ampRun)) then
    (s.onCtl n (fun c => { c with obsValid := false, obsRun := 0 })).setBit (ostat n) 11 false
  else s

/-- Validity of the observer at an edge (R166, R174). -/
def State.obsEdge (s : State) (n : Fin 12) : State :=
  (((s.obsCount n).obsValidate n).obsLockLost n).obsInvalidate n

/-- The speed bin of vel_s (R183). -/
def State.speedBin (s : State) (n : Fin 12) : Fin 16 :=
  let v := (s.mot n).snapVel.toInt
  let k := s.axu n AX.STLBIN * 65536
  let b := if k = 0 then 7 else min 7 (v.natAbs / k)
  if 0 ≤ v then ⟨b % 8, by omega⟩ else ⟨8 + b % 8, by omega⟩

/-- The baseline of the present bin [mstep] (R183). -/
def State.binBase (s : State) (n : Fin 12) : Rat := ((s.ctl n).sbl[s.speedBin n].v : Rat) / 256

/-- The baseline that criterion 1 and TLOAD use: 0 with sbl_use = 0 (R176, R180, R186). -/
def State.baseline (s : State) (n : Fin 12) : Rat := if s.axub n AX.STLCFG 6 then s.binBase n else 0

/-- The observer restarts from a seed angle [cycles, middle of tick j - 1] and speed [cycles per second] (R167). -/
def State.obsSeed (s : State) (n : Fin 12) (th w : Rat) (zero : Bool) : State :=
  let a := angle16 20 th
  let k := s.axr n AX.KE * w * 16384 * 512 / 1000000000
  s.onCtl n (fun c => { c with
    thMid := q32 22 th, wHat := q32 22 w, thPub := angle16 21 (th + w * s.tt * 3 / 2), obsRun := 0, errRun := 0, ampRun := 0,
    ea := if zero then 0 else if s.axr n AX.KE = 0 then c.ea else q32 22 (-(k * sinT a)),
    eb := if zero then 0 else if s.axr n AX.KE = 0 then c.eb else q32 22 (k * cosT a) })

/-- The commanded angle and speed as a seed (R167). -/
def State.cmdSeed (s : State) (n : Fin 12) : Rat × Rat :=
  let m := s.mot n
  let w : Rat := (m.snapVel.toInt : Rat) * 400000000 / 2 ^ 32 / 16384
  ((m.snapPos.toInt : Rat) / 16384 - w * s.tt / 2, w)

/-- The reserve item of the observer completes (R167). -/
def State.obsReinit (s : State) (n : Fin 12) : State :=
  let c := s.ctl n
  match c.reinit with
  | none => s
  | some k =>
    let s1 :=
      if k = 0 then
        let w := fx c.seed.2
        (s.obsSeed n (fx c.seed.1 + w * s.tt * ((c.seedAge : Rat) - 1 / 2)) w false).onCtl n (fun c => { c with obsValid := true })
      else
        let (th, w) := s.cmdSeed n
        s.obsSeed n (th - s.binBase n / 16384) w false
    ((s1.onCtl n (fun c => { c with reinit := none })).setBit (ostat n) 11 (s1.ctl n).obsValid).flag (ostat n) 7

/-- ENERGIZE seeds the observer at the commanded angle, speed 0 (R167). -/
def State.obsEnergize (s : State) (n : Fin 12) : State :=
  if s.opt n 0 then
    ((s.obsSeed n ((s.mot n).ipos / 16384 : Rat) 0 true).onCtl n (fun c => { c with obsValid := false, reinit := none })).setBit (ostat n) 11 false
  else s

/-! ### The sensor (R168-R170) -/

/-- The port of the axis, if it has one. -/
def State.port (s : State) (n : Fin 12) : Option Nat := if (s.recd n).port < 8 then some (s.recd n).port else none

/-- The sensor angle carries no invalid mark: PSTAT.valid of its port is 0 (R307). -/
def State.sensMarked (s : State) (n : Fin 12) : Bool :=
  match s.port n with | some p => !s.bit (prtBase p + PRT.PSTAT) 15 | none => true

/-- The angle of the tick that ends enters: its change, and whether it is a valid source; a valid one is kept for the hand-over
(R167, R168, R169). -/
def State.sensEdge (s : State) (n : Fin 12) : State :=
  match s.port n with
  | none => s
  | some p =>
    let c := s.ctl n
    let raw := s.rd (prtBase p + PRT.ANG)
    let d : Int := match c.sPrev with | some a => wrapI 16 ((raw : Int) - a) | none => 0
    let m := s.axr n AX.SRATIO * s.sSign n * d
    let ok := !s.sensMarked n && s.bit (ostat n) 9 && decide (m.natAbs < 16384)
    let was := s.bit (ostat n) 10
    let s1 := (s.onCtl n (fun c => { c with
      sPrev := some raw, sChg := if c.sPrev.isSome then (wrapI 16 m :: c.sChg).take 4 else [],
      sGood := if ok then c.sGood + 1 else 0, sLost := c.sLost || (was && !ok) })).setBit (ostat n) 10 ok
    if ok then s1.onCtl n (fun c => { c with sLast := (s1.rotorOf n 1).map (fun p => (p.1, q32 24 p.2)) }) else s1

/-- Automatic alignment, HOLDRAMP + 64 ticks after ENERGIZE (R170). -/
def State.align (s : State) (n : Fin 12) : State :=
  let c := s.ctl n
  match c.sPrev with
  | some raw =>
    if s.axb n AX.OCFG 9 ∧ !s.bit (ostat n) 9 ∧ c.enAge = some (s.axr n AX.HOLDRAMP + 64) ∧ s.st n = .hold ∧ !c.frame ∧ !s.sensMarked n then
      (s.wr (axBase n + AX.SOFS) ((4 * ((s.mot n).ipos % 16384) - s.axr n AX.SRATIO * s.sSign n * raw) % 65536).toNat).setBit (ostat n) 9 true
    else s
  | none => s

/-! ### The choice of the source (R171-R174) -/

/-- The difference of the sensor angle from the present source [16-bit] (R173). -/
def State.sensDiff (s : State) (n : Fin 12) : Nat :=
  match s.rotorOf n 1, s.rotor n with
  | some (a, _), some (b, _) => (wrapI 16 ((a : Int) - b)).natAbs
  | _, _ => 0

/-- A lost sensor may be selected again (R173). -/
def State.sensBack (s : State) (n : Fin 12) : Bool :=
  let c := s.ctl n
  !c.sLost || (decide (s.axr n AX.SRECOV ≤ c.sGood) && (c.src == 0 || decide (s.sensDiff n < 4096)))

/-- The source that R171 selects. -/
def State.pickSource (s : State) (n : Fin 12) : Nat :=
  let m := s.fld (axBase n + AX.OCFG) 11 10
  if (m = 0 ∨ m = 1) ∧ s.bit (ostat n) 10 ∧ s.sensBack n then 1
  else if (m = 0 ∨ m = 2) ∧ (s.ctl n).obsValid then 2
  else 0

/-- A sensor that is back is no longer lost (R173); one that disagrees sets smis. -/
def State.sensRecover (s : State) (n : Fin 12) : State :=
  let c := s.ctl n
  if c.sLost ∧ s.bit (ostat n) 10 ∧ s.axr n AX.SRECOV ≤ c.sGood then
    if s.sensBack n then s.onCtl n (fun c => { c with sLost := false }) else s.flag (ostat n) 5
  else s

/-- The rotor angle of source `k` at this edge and its speed per tick; of a sensor without a valid angle, the last valid one carried on. -/
def State.lastOf (s : State) (n : Fin 12) (k : Nat) : Nat × Rat :=
  if k = 1 ∧ !s.bit (ostat n) 10 then
    match (s.ctl n).sLast with
    | some (a, w) => ((rnd 4 ((a : Rat) + fx w) % 65536).toNat, fx w)
    | none => (0, 0)
  else (s.rotorOf n k).getD (0, 0)

/-- The source of the tick is selected, with the effects of a change (R171, R172). The hand-over to the observer starts from the last valid
sensor angle (R167); a change to the observer by OCFG.src starts from the present one. -/
def State.sourceEdge (s : State) (n : Fin 12) : State :=
  let new := s.pickSource n
  let old := (s.ctl n).src
  let s0 := s.sensRecover n
  let c := s0.ctl n
  if new = old then s0 else
  let lost := !s.bit (ostat n) 10
  let s1 := if old = 1 ∧ lost then s0.flag (ostat n) 4 else s0
  let s2 :=
    if old = 1 ∧ new = 2 then
      let (a, w) := c.sLast.getD (0, 0)
      let wc := if s.tt = 0 then 0 else fx w / 65536 / s.tt
      (s1.onCtl n (fun c => { c with
        reinit := some 0, seed := (q32 24 ((a : Rat) / 65536), q32 24 wc), seedAge := if lost then 1 else 0 })).request n 0 900
    else if old = 2 ∧ new = 1 ∧ c.frame then s1.rotateSources n (ahead15 (s.lastOf n 2)) (ahead15 (s.lastOf n 1))
    else s1
  (s2.onCtl n (fun c => { c with src := new, thLeft := ahead15 (s.lastOf n old) })).setFld (ostat n) 13 12 new

/-! ### Load angle (R175, R176) -/

/-- The source of the load angle that is available: 1 sensor, 2 observer, 3 injection, 0 none (R175). -/
def State.loadSource (s : State) (n : Fin 12) : Nat :=
  let c := s.ctl n
  if s.bit (ostat n) 10 then 1 else if c.obsValid then 2
  else match c.injRes with
  | some (_, age) => if age ≤ 2 * s.axr n AX.INJPER then 3 else 0
  | none => 0

/-- The load angle and the load torque of an edge (R175, R176). The measured current vector is the mean over the past tick, and the rotor
angle is taken in the middle of that tick, so that LANG equals AERR in steady motion. DEDUCED (log 52). -/
def State.loadEdge (s : State) (n : Fin 12) : State :=
  let c := s.ctl n
  let mag := sqrtR (fx c.ia * fx c.ia + fx c.ib * fx c.ib)
  let k := if mag < 1024 then 0 else s.loadSource n
  let ang := atan2 c.ib c.ia
  let lang : Int :=
    match k with
    | 0 => c.lang
    | 3 => match c.injRes with | some (x, _) => x | none => c.lang
    | j => match s.rotorOf n j with | some (a, w) => wrapI 14 (rnd 25 (((wrapI 16 ((ang : Int) - a) : Int) : Rat) / 4 + w / 8)) | none => c.lang
  let new := k = 1 ∨ k = 2 ∨ (k = 3 ∧ (c.injRes.map Prod.snd) = some 0)
  let tl := mag * (sinT (4 * lang % 65536).toNat - sinT (rnd 26 (4 * s.baseline n) % 65536).toNat)
  let s1 := (s.onCtl n (fun c => { c with lang := lang, lsrc := k, langNew := new, injRes := c.injRes.map (fun p => (p.1, p.2 + 1)) }))
  let s2 := ((s1.wrI 16 (axBase n + AX.LANG) lang).setFld (ostat n) 15 14 k).setBit (ostat n) 8 (k != 0)
  if k = 0 then s2 else s2.wrI 16 (axBase n + AX.TLOAD) (satI 16 (rnd 27 tl))

/-! ### Standstill injection (R177-R179) -/

/-- The conditions of R177 hold. -/
def State.injOk (s : State) (n : Fin 12) : Bool :=
  s.opt n 2 && s.axb n AX.OCFG 3 && s.energised n && (match s.st n with | .yield => false | _ => true) &&
    decide ((s.mot n).snapVel.toInt.natAbs < s.axr n AX.VOBS * 65536) && !(s.ctl n).obsValid

/-- A burst is due (R177, R179). -/
def State.burstDue (s : State) (n : Fin 12) : Bool :=
  let c := s.ctl n
  s.injOk n && c.injT.isNone && c.probe.isNone && decide (s.axr n AX.INJPER ≤ c.injWait)

/-- A burst starts (R177). -/
def State.burstStart (s : State) (n : Fin 12) : State :=
  if s.burstDue n then
    (s.onCtl n (fun c => { c with injT := some 0, injWait := 0, injI := [], injTh := atan2 c.ib c.ia })).setBit (ostat n) 3 true
  else s

/-- A burst at an edge, or its abandonment (R179). The voltage that tick t adds stands in the averages of the tick after it, so the seven
averages that R178 compares are those that the edges after the start bring: of the start's own tick, and of the six after it. -/
def State.burstEdge (s : State) (n : Fin 12) (overblown : Bool) : State :=
  let c := s.ctl n
  match c.injT with
  | none => s.onCtl n (fun c => { c with injWait := if s.injOk n then c.injWait + 1 else c.injWait })
  | some t =>
    if (t < 6 ∧ (!s.injOk n ∨ c.vsat)) ∨ c.inv ∨ overblown then
      (s.onCtl n (fun c => { c with injT := none, injI := [], injBad := c.injBad + 1, injWait := c.injWait + 1 })).setBit (ostat n) 3 false
    else
      (s.onCtl n (fun c => { c with injT := if t < 6 then some (t + 1) else none, injI := (c.ia, c.ib) :: c.injI, injWait := c.injWait + 1 })).setBit
        (ostat n) 3 (decide (t < 5))

/-- The burst is evaluated in task 1 of the tick after its last (R178). -/
def State.injEval (s : State) (n : Fin 12) : State :=
  let c := s.ctl n
  if c.injT.isSome ∨ c.injI.length < 7 then s else
  let i := c.injI.reverse
  let along (k phi : Nat) : Rat :=
    let p := i.getD k (0, 0)
    s.amp n (fx p.1 * cosT (c.injTh + phi) + fx p.2 * sinT (c.injTh + phi))
  let di (j : Nat) : Rat := ((along (2 * j + 1) (8192 * j) - along (2 * j) (8192 * j)) - (along (2 * j + 2) (8192 * j) - along (2 * j + 1) (8192 * j))) / 2
  let l (j : Nat) : Rat := if di j = 0 then 0 else (s.axu n AX.INJV : Rat) / 512 * s.tt / di j
  let l0 := (l 0 + l 2) / 2
  let ca := (l 0 - l 2) / 2
  let cb := l 1 - l0
  let aniso := if l0 = 0 then 0 else sqrtR (ca * ca + cb * cb) / l0
  let s1 := (s.onCtl n (fun c => { c with injI := [], injBad := 0 })).wr (axBase n + AX.ANISO) (min 65535 (rnd 28 (aniso * 1024)).toNat)
  if aniso < (s.axu n AX.INJMIN : Rat) / 1024 then s1.onCtl n (fun c => { c with injLow := true, injRes := none })
  else
    let psi := wrapI 16 (atan2 (q32 29 cb) (q32 29 ca))
    let lang := rnd 30 (-((psi : Rat) / 8) * s.axu n AX.INJK / 256)
    s1.onCtl n (fun c => { c with injLow := false, injRes := some (clampI lang (-8192) 8191, 0) })

/-- Task 1: the observer and the evaluation of a burst (R164, R178). -/
def State.task1 (s : State) (n : Fin 12) : State := (s.observer n).injEval n

/-! ### Stall monitor (R180-R182) -/

/-- The address of STLSTAT of axis n. -/
def stlstat (n : Fin 12) : Nat := axBase n + AX.STLSTAT

/-- The stall monitor runs (R180). -/
def State.stallRuns (s : State) (n : Fin 12) : Bool := s.img.active && s.opt n 1 && s.axub n AX.STLCFG 4

/-- Why the load angle is unobservable (R182). -/
def State.unobsCause (s : State) (n : Fin 12) : Option Nat :=
  let c := s.ctl n
  if c.lsrc ≠ 0 then none
  else if c.injLow then some 1
  else if !(s.opt n 2 && s.axb n AX.OCFG 3) then some 2
  else if 3 ≤ c.injBad ∧ s.injOk n then some 3
  else none

/-- The transitions into and out of the unobservable condition (R182). -/
def State.unobsEdge (s : State) (n : Fin 12) : State :=
  let was := s.bit (ostat n) 2
  match s.unobsCause n with
  | some k => if was then s else (s.setBit (ostat n) 2 true).log 0x0107 k 0 (.axis n)
  | none => if (s.ctl n).lsrc ≠ 0 then s.setBit (ostat n) 2 false else s

/-- What a criterion gives at this edge: not evaluated, or whether it holds (R180); 3 and 4 need VM in its window (R563). -/
def State.criterion (s : State) (n : Fin 12) (k : Nat) : Option Bool :=
  let c := s.ctl n
  let v := (s.mot n).snapVel.toInt
  let seen := c.lsrc ≠ 0 ∧ c.langNew ∧ !s.bit (ostat n) 2
  match k with
  | 0 => if seen then some (decide ((s.axu n AX.STLTHR : Rat) < absR (c.lang - s.baseline n))) else none
  | 1 => if seen then some (decide (3840 ≤ c.lang.natAbs)) else none
  | 2 => if s.axub n AX.STLCFG 5 ∧ c.obsValid ∧ !s.vmUnder then
           some (decide ((v.natAbs : Rat) * s.axu n AX.STLVTOL / 64 < absR (c.wVu - v))) else none
  | _ => if c.frame ∧ !s.vmUnder then some (c.iqSat && decide (4096 < c.aerr.natAbs)) else none

/-- The count of a criterion after an evaluation. -/
def critCount (k : Nat) : Option Bool → Nat
  | none => k
  | some true => k + 1
  | some false => 0

/-- The stall criteria of one edge: a stall is due when one has held STLN times, and none stands; a stall stands until 64 evaluations in a
row have found no criterion (R180, R181). -/
def State.stallEval (s : State) (n : Fin 12) : State :=
  let c := s.ctl n
  let cr := (List.range 4).map (s.criterion n)
  let cnt := fun (i : Fin 4) => critCount c.crit[i] (cr.getD i none)
  let held := cr.any (fun x => x == some true)
  let quiet := match c.quiet with
    | some k => if held then some 0 else if cr.all Option.isNone then some k else if 64 ≤ k + 1 then none else some (k + 1)
    | none => none
  let stln := s.fldu (axBase n + AX.STLCFG) 11 8
  let due := if c.quiet.isSome then none else ((List.finRange 4).find? (fun i => decide (stln ≤ cnt i) && cr.getD i none == some true)).map (fun i => i.val + 1)
  s.onCtl n (fun c => { c with crit := Vector.ofFn cnt, quiet := quiet, stallDue := due })

/-- A stall is raised (R181). -/
def State.stallRaise (s : State) (n : Fin 12) : State :=
  match (s.ctl n).stallDue with
  | none => s
  | some k =>
    let a := stlstat n
    let s1 := (s.onCtl n (fun c => { c with stallDue := none, quiet := some 0, crit := Vector.replicate 4 0 })).flag a 15
    let s2 := if (s.ctl n).frame then s1 else s1.flag a 14
    (((s2.setFld a 10 8 k).bump (axBase n + AX.STLCNT)).life 10).log 0x0101 k (BitVec.ofInt 16 (s.ctl n).lang).toNat (.axis n)

/-! ### Stall-baseline tracker (R183-R185) -/

/-- A freeze condition of the baseline tracker holds (R184). -/
def State.sblFrozen (s : State) (n : Fin 12) : Bool :=
  let c := s.ctl n
  let dv := ((s.mot n).snapVel.toInt - c.velPrev).natAbs
  !s.axub n AX.STLCFG 7 || !s.energised n || s.st n == .yield || decide (s.axu n AX.STLACC * s.tpr < dv * 2 ^ 24) ||
    s.bit (stlstat n) 15 || s.bit (ostat n) 2 || !s.dtSettled n

/-- An update of a baseline in the running tick; its register takes it at the commit (R134, R183, R184). -/
def State.stepSbl (s : State) (n : Fin 12) (k : Fin 16) (l : Learn) : State := s.onCtl n (fun c => { c with sbl := c.sbl.set k l })

/-- The baseline tracker at an edge (R183-R185). -/
def State.sblStep (s : State) (n : Fin 12) : State :=
  let c := s.ctl n
  let k := s.speedBin n
  let fr := s.sblFrozen n
  let s1 := (s.setBit (stlstat n) 12 fr).setFld (stlstat n) 7 4 k
  let s2 :=
    if fr || !c.langNew || c.vsat || c.inv then s1
    else
      let l := c.sbl[k]
      s1.stepSbl n k (l.step 256 (rnd 31 ((l.v : Rat) + (c.lang * 256 - l.v : Int) / (2 ^ s.fldu (axBase n + AX.STLCFG) 15 12 : Nat))) (-4096 * 256) (4095 * 256))
  s2.setBit (stlstat n) 13 ((s2.ctl n).sbl[k].settled 256 (32 * 256))

/-- Divergence of the baseline tracker (R185). -/
def State.sblDiverge (s : State) (n : Fin 12) : State :=
  match (s.ctl n).sbl.toList.findIdx? Learn.diverged with
  | none => s
  | some k =>
    let z := (List.finRange 16).foldl (fun s k => s.setSbl n k (Learn.at 0)) s
    (((z.hardClear (axBase n + AX.STLCFG) 7).flag (stlstat n) 11).log 0x0108 3 k (.axis n))

/-- Task 2 (R180-R185): the monitor while it runs, and the baseline tracker in any case. A stall no longer stands once the axis has left
the energised states (R181), and without the monitor the load angle does not count as unobservable (R182). -/
def State.task2 (s : State) (n : Fin 12) : State :=
  if !s.img.active || !s.opt n 1 then s
  else
    let s0 := if s.energised n then s else s.onCtl n (fun c => { c with quiet := none })
    let s1 :=
      if s0.stallRuns n then (s0.unobsEdge n).stallEval n
      else (s0.onCtl n (fun c => { c with crit := Vector.replicate 4 0, stallDue := none })).setBit (ostat n) 2 false
    s1.sblStep n

/-- What the angle sources of axis n do at an edge, after the port angles are published (R171, R174). -/
def State.angleEdge (s : State) (n : Fin 12) : State :=
  if s.isPower n then
    let s0 := s.onCtl n (fun c => { c with
      seedAge := c.seedAge + 1, enAge := if s.energised n then c.enAge.map (· + 1) else none })
    let s1 := ((s0.sensEdge n).obsEdge n).align n
    (s1.sourceEdge n).loadEdge n
  else s

/-! ### Meanings -/

/-- OBSERVER (R164, R178). -/
def execObserver (n : Fin 12) (s : State) : Host.Outcome State Fault Refusal := .next (s.working fun s => s.task1 n)
/-- OBSERVER_VALID (R166). -/
def execObserverValid (n : Fin 12) (s : State) : Host.Outcome State Fault Refusal := .next (s.awake fun s => s.obsValidate n)
/-- OBSERVER_LOCK_LOST (R166). -/
def execObserverLockLost (n : Fin 12) (s : State) : Host.Outcome State Fault Refusal := .next (s.awake fun s => s.obsLockLost n)
/-- OBSERVER_REINIT (R167). -/
def execObserverReinit (n : Fin 12) (s : State) : Host.Outcome State Fault Refusal := .next (s.working fun s => s.obsReinit n)
/-- SENSOR_ALIGN (R170). -/
def execSensorAlign (n : Fin 12) (s : State) : Host.Outcome State Fault Refusal := .next (s.awake fun s => s.align n)
/-- SENSOR_RECOVERY (R173): the selection runs again with the recovered sensor. -/
def execSensorRecovery (n : Fin 12) (s : State) : Host.Outcome State Fault Refusal := .next (s.awake fun s => s.sourceEdge n)
/-- INJECTION_BURST (R177). -/
def execInjectionBurst (n : Fin 12) (s : State) : Host.Outcome State Fault Refusal := .next (s.awake fun s => s.burstStart n)
/-- STALL_MONITOR (R180). -/
def execStallMonitor (n : Fin 12) (s : State) : Host.Outcome State Fault Refusal := .next (s.working fun s => s.task2 n)
/-- SBL_DIVERGE (R185). -/
def execSblDiverge (n : Fin 12) (s : State) : Host.Outcome State Fault Refusal := .next (s.awake fun s => s.sblDiverge n)

end Sys2Proof.Machine
end

