-- ==== Sys2Proof/Machine/Pwm.lean ====
section
/-! DEFINITION. The PWM units: output states, edges, minimum pulses and carry, bootstrap refresh, dead-time trimmer,
delay-line lock, debug halt, trip latches (R194-R218, R229). -/

namespace Sys2Proof.Machine

/-! ### Output states (R213, R214) -/

/-- The address of PSTAT of unit u. -/
def pstat (u : Nat) : Nat := unitBase u + PU.PSTAT

/-- A TOFF input is asserted, or counts as asserted while unresolved (R238). -/
def State.toffOn (s : State) (i : Fin 2) : Bool := s.stage.toff[i] != .high

/-- The gates of a unit, high and low side, after the edges that `f` takes. -/
def PwmUnit.gatesAt (x : PwmUnit) (f : GateEdge → Bool) : Bool × Bool :=
  x.edges.foldl (fun g e => if f e then (if e.high then (e.on, g.2) else (g.1, e.on)) else g) (x.hi, x.lo)

/-- Which gates of unit u are commanded on in this CORE clock: high side, low side. -/
def State.gates (s : State) (u : Nat) : Bool × Bool := (s.unit u).gatesAt (fun e => decide (e.clk ≤ s.tim.clk))

/-- A unit whose gates stand as given, with no edge to come. -/
def PwmUnit.still (x : PwmUnit) (hi lo : Bool) : PwmUnit := { x with hi := hi, lo := lo, edges := [] }

/-- Output and cause of unit u by the first row of R213 that applies: 0 switching, 1 Float, 2 Brake, 3 probe. -/
def State.outOf (s : State) (u : Nat) : Nat × Nat :=
  if s.toffOn 0 || s.toffOn 1 then (1, 1)
  else if s.pow.inReset ∨ (s.pow.shelf ≠ .running ∧ s.pow.shelf ≠ .testing) then (1, 5)
  else if s.bit (pstat u) 15 then (1, 2)
  else if s.stage.strobeLost then (s.stage.dieForm.toList.getD u 1, 4)
  else match s.unitAxis u with
  | none => (1, 5)
  | some n =>
    let mute := if (s.recd n).brake then 2 else 1
    if !s.img.active then (1, 5)
    else match s.st n with
    | .off | .unplugged => (1, 4)
    | .mute | .fault => if s.stage.halt then (mute, 3) else (mute, 4)
    | .identify => if s.stage.halt then (mute, 3) else if s.tripDue then (mute, 4) else if (s.unit u).probe then (3, 4) else (1, 4)
    | _ => if s.stage.halt then (mute, 3) else if s.tripDue || (s.mot n).toFault || !(s.unit (s.leadOf u)).on then (mute, 4) else (0, 0)

/-- The gates of unit u in output `o`, which it has just taken from output `was` (R213, R214): Float turns both off at once; into Brake the
high side turns off at once and the low side turns on after DTF, unless it is on already; from Float to Brake it turns on at the edge. -/
def State.muteGates (s : State) (u o was : Nat) (x : PwmUnit) : PwmUnit :=
  let (_, lo) := s.gates u
  if o = 2 then
    (if was = 2 then x
     else if was = 1 ∨ lo then x.still false true
     else
       let t := 32 * s.tim.clk + s.rd (unitBase u + PU.DTF)
       { x.still false false with edges := [⟨false, true, t / 32, t % 32⟩] })
  else x.still false false

/-- Unit u takes the output that R213 gives it; Float turns to Brake only at an edge (R214); leaving switching clears its carry (R206). -/
def State.setOut (s : State) (u : Nat) (edge : Bool) : State :=
  let (o, c) := s.outOf u
  let was := s.fld (pstat u) 5 4
  let o' := if o = 2 ∧ was = 1 ∧ !edge then 1 else o
  let s1 := (s.setFld (pstat u) 5 4 o').setFld (pstat u) 2 0 c
  if o' = 0 then s1
  else (s1.onUnit u (fun x => s.muteGates u o' was { x with on := false, carry := 0, full := 0, pulse := false })).wr (unitBase u + PU.CARRY) 0

/-- The power dies latch the mute form of every unit, as they do at a valve-map change (R216): Brake where its axis has it, Float otherwise. -/
def State.latchForms (s : State) : State :=
  s.onStage (fun g => { g with dieForm := Vector.ofFn (fun u : Fin 48 =>
    match s.unitAxis u with | some n => if (s.recd n).brake then 2 else 1 | none => 1) })

/-- Every unit takes the output that R213 gives it. -/
def State.setOuts (s : State) (edge : Bool) : State := overList (List.range 48) (fun s u => s.setOut u edge) s

/-- A TRIP mutes every switching unit in the CORE clock after it is logged, before its reaction at the edge (R484). -/
def State.tripClock (s : State) : State := if s.tripDue then s.setOuts false else s

/-- The outputs of the units of axis n. -/
def State.axisOuts (s : State) (n : Fin 12) (edge : Bool) : State := overList (s.recd n).units (fun s u => s.setOut u edge) s

/-- The outputs of the units of axis n follow a change that `f` makes to its state, as it does at an edge (R213, R214). -/
def State.withOuts (s : State) (n : Fin 12) (f : State → State) : State := (f s).axisOuts n true

/-- Unit u is switching (R213). -/
def State.switching (s : State) (u : Nat) : Bool := s.fld (pstat u) 5 4 == 0

/-! ### Trip latches (R217, R218, R243, R252) -/

/-- The sources of unit u that are active now, in the order of LSTAT bits 8 to 14 (R243): oc vds trip guard buv cp ot. With both switches off
the comparator sees nothing; the hard limit senses a switch that conducts against its command (R228). -/
def State.sourcesOf (s : State) (u : Nat) : List Bool :=
  let st := s.stage
  let (hi, lo) := s.gates u
  let above := st.above.toList.getD u false
  let tripHit (i : Fin 4) : Bool :=
    let c := s.rd (devA DEV.TRIPCFG + 4 * i)
    c.testBit 14 && (match st.trip[i] with | .unres => true | .high => c.testBit 15 | .low => !c.testBit 15) &&
      (if u < 40 then c.testBit 13 else c.testBit (u - 40))
  [(u < 40 && above && (hi || lo)) || st.hard.toList.getD u false, 40 ≤ u && above && lo, (List.finRange 4).any tripHit, st.guard.toList.getD u 0 != 0,
    40 ≤ u && st.buv.toList.getD (u - 40) false, u < 40 && !s.bit (devA DEV.PROT) 10, u < 40 && st.ot.toList.getD (u / 4) false]

/-- LSTAT bits 6:0 take the sources that are active while the latch is set (R252). -/
def State.showSources (s : State) (u : Nat) : State :=
  let l := s.sourcesOf u
  let a := unitBase u + PU.LSTAT
  if s.bit (pstat u) 15 then (List.range 7).foldl (fun s k => if l.getD k false then s.setBit a k true else s) s else s

/-- A source sets the latch of unit v alone: its LSTAT bit `k`, PSTAT.trip with the sources that are active, and Float (R213, R217, R252). -/
def State.latchOne (s : State) (v k : Nat) : State :=
  ((((s.setBit (unitBase v + PU.LSTAT) k true).flag (pstat v) 15).onUnit v (fun x => { x with tripped := true })).showSources v).setOut v false

/-- A source sets the latches of unit u and of its partner (R217, R226): `k` is the LSTAT bit of the source. -/
def State.latch (s : State) (u k : Nat) : State := overList (s.pairOf u) (fun s v => s.latchOne v k) s

/-- A trip source of unit u or of its partner is active (R218, R199). -/
def State.tripActive (s : State) (u : Nat) : Bool := (s.pairOf u).any (fun v => (s.sourcesOf v).any id)

/-- The latches of unit u and its partner clear, with their sources; the output resumes at the next edge (R218). -/
def State.unlatch (s : State) (u : Nat) : State :=
  overList (s.pairOf u) (fun s v =>
    let a := unitBase v + PU.LSTAT
    ((((s.clearFlag (pstat v) 15).setFld a 7 0 0).onUnit v (fun x => { x with on := false })).showSources v).setOut v false) s

/-- A write of PSTAT.trip = 1: cleared, or LOCKED while a source is active (R218); where no latch of the pair is set there is nothing to clear. -/
def State.tripClear (s : State) (u : Nat) : Status × State :=
  if s.tripActive u then (.locked, s)
  else if (s.pairOf u).any (fun v => s.bit (pstat v) 15) then (.done, s.unlatch u)
  else (.done, s)

/-! ### Periods (R194-R210) -/

/-- The stagger that stag_auto gives a lead unit [P/64] (R198). -/
def autoStag (u : Nat) : Int :=
  if u < 40 then 4 * (u / 2 % 10 % 8 : Nat) - 14 else [-12, -4, 4, 12].getD ((u - 40) / 2) 0

/-- The first unit of the winding of unit u; the even unit of its pair where no axis owns it (R198). -/
def State.windingFirst (s : State) (u : Nat) : Nat :=
  match s.unitAxis u with
  | some n => match (s.recd n).endOf u with | some e => ((s.recd n).endUnits (e / 2 * 2)).headD u | none => u
  | none => u / 2 * 2

/-- The stagger of the winding of unit u: that of the winding's first unit (R198). -/
def State.stagOf (s : State) (u : Nat) : Int :=
  let f := s.windingFirst u
  if s.bit (unitBase f + PU.PCFG) 7 then autoStag f else wrapI 5 (s.fld (unitBase f + PU.PCFG) 12 8)

/-- The lower interval length and window bounds: hmin, lmin and TMIN [u] (R206). -/
def State.minPulse (s : State) (u : Nat) : Int × Int × Int :=
  let t : Int := s.rd (unitBase u + PU.TMIN)
  (s.rd (unitBase u + PU.DTR) + t, s.rd (unitBase u + PU.DTF) + t, t)

/-- t_ref of a refresh pulse (R208). -/
def State.tRef (s : State) (u : Nat) : Int :=
  max (s.rd (unitBase u + PU.REFW)) (s.rd (unitBase u + PU.DTR) + s.rd (unitBase u + PU.DTF) + s.rd (unitBase u + PU.TMIN))

/-- MMAX of a GD unit (R209). -/
def State.setMmax (s : State) (u : Nat) (p : Int) : State :=
  let n : Rat := s.rd (unitBase u + PU.REFN)
  if p ≤ 0 ∨ n = 0 then s
  else s.wr (unitBase u + PU.MMAX) (65536 * (1 - (s.tRef u : Rat) / (n * p))).floor.toNat

/-- What the high window of R206 becomes: the window emitted, the carry left, and what a saturation loses. -/
def highWindow (h c hmin tmin : Int) : Int × Int × Int :=
  let h2 := h + c
  if h2 ≤ 0 then (0, max h2 (-tmin), max h2 (-tmin) - h2)
  else if h2 < hmin then (0, min h2 tmin, h2 - min h2 tmin)
  else (h2, 0, 0)

/-- A saturation of the carry (R207): csat and CSATCNT, and 0x0206 where 1,024 periods have passed without one. -/
def State.carrySat (s : State) (u : Nat) (lost : Int) : State :=
  if lost = 0 then s.onUnit u (fun x => { x with satQuiet := x.satQuiet + 1 })
  else
    let s1 := (s.flag (pstat u) 14).bump (unitBase u + PU.CSATCNT)
    let s2 := if 1024 ≤ (s.unit u).satQuiet then s1.log 0x0206 u (min 0xFFFF lost.natAbs) (s.unitBind u) else s1
    s2.onUnit u (fun x => { x with satQuiet := 0 })

/-- A gate edge at position `x` of period `m` (R195, R211): `lag` is λ, `coarse` whole-clock placement of the position. -/
def placeEdge (p m lag : Int) (coarse high on : Bool) (x : Int) : GateEdge :=
  let x' := if coarse then fdiv (x + 16) 32 * 32 else x
  let t := m * p + x' - lag
  if t < 0 then ⟨high, on, 0, 0⟩ else ⟨high, on, t.toNat / 32, if coarse then 0 else t.toNat % 32⟩

/-- A turn-on edge that the interlock holds for `high` or `low` u until the outgoing gate senses off (R229). -/
def GateEdge.held (e : GateEdge) (high low : Nat) : GateEdge :=
  if e.on then
    let t := 32 * e.clk + e.tap + (if e.high then high else low)
    { e with clk := t / 32, tap := t % 32 }
  else e

/-- What one period of a unit emits (R206, R208): the length of the window and its bounds, whether the low interval before it is
suppressed, and the carry left with what was lost. -/
structure Emission where
  hw : Int
  xs : Int
  xe : Int
  short : Bool
  carry : Int
  lost : Int

/-- The window of a period and the low interval before it, in emission order (R197, R206, R208): `h` the requested window after
compensation, `c` the carry, `low` the low interval so far, `tref` where a refresh pulse begins the period. DESIGN CHOICE (log 53): a low
interval is measured to the start that its window has with the carry before it. -/
def emission (h c low p o hmin lmin tmin : Int) (tref : Option Int) : Emission :=
  let window (c : Int) : Int × Int × Int := if p ≤ h + c then (p, 0, 0) else highWindow h c hmin tmin
  let start (hw : Int) : Int :=
    let half : Int := (hw + 1) / 2
    (if hw = p then p / 2 else clampI (p / 2 + o) half (p - half)) - fdiv hw 2
  let clip (x : Int) : Int := match tref with | some t => max t x | none => x
  let (h0, c0, lost0) := window c
  let l := low + clip (start h0)
  if tref.isNone ∧ 0 < h0 ∧ 0 < l ∧ l < lmin then
    let c1 := max (c - l) (-tmin)
    let (hw, c2, lost) := window c1
    ⟨hw, start hw, start hw + hw, true, c2, lost + (c1 - (c - l))⟩
  else
    let xe := start h0 + h0
    ⟨if xe ≤ clip (start h0) then 0 else h0, clip (start h0), xe, false, c0, lost0⟩

/-- A GD unit is to begin a period with a refresh pulse (R208). -/
def State.pulseDue (s : State) (u : Nat) : Bool :=
  decide (40 ≤ u) && decide (s.rd (unitBase u + PU.REFN) ≤ (s.unit u).full) && s.switching u

/-- A GD unit begins the next period with a refresh pulse (R208): the pulse counts once. -/
def State.refreshPulse (s : State) (u : Nat) : State :=
  if s.pulseDue u && !(s.unit u).pulse then
    let a := unitBase u + PU.REFCNT
    (s.setFld a 15 8 (min 255 (s.fld a 15 8 + 1))).onUnit u (fun x => { x with pulse := true, pulsed := true })
  else s

/-- Unit u places its edges on whole CORE clocks (R211, R212). -/
def State.coarse (s : State) (u : Nat) : Bool :=
  !s.bit (pstat u) 11 || s.bit (unitBase u + PU.PCFG) 4 || (s.unit u).dllOut

/-- The edges of an emission of unit u in their order (R197, R208): a refresh pulse at the period start, the start of the window unless the
low interval before it is suppressed, and its end; none at full duty. -/
def State.edgesOf (s : State) (u : Nat) (p : Int) (e : Emission) (pulse : Bool) : List GateEdge :=
  let x := s.unit u
  let b := unitBase u
  let dtr : Int := s.rd (b + PU.DTR)
  let dtf : Int := s.rd (b + PU.DTF)
  let at_ (high on : Bool) (t : Int) : GateEdge := placeEdge p x.period (s.rd (b + PU.DLLLAG)) (s.coarse u) high on t
  let lead (t : Int) : List GateEdge := [at_ false false t, at_ true true (t + dtr)]
  let trail : List GateEdge := if e.xe < p then [at_ true false e.xe, at_ false true (e.xe + dtf)] else []
  if pulse then
    [at_ true false 0, at_ false true dtf] ++ (if e.hw = 0 then [] else lead (if e.xs = s.tRef u then e.xs - dtr else e.xs) ++ trail)
  else if e.hw = 0 ∨ e.hw = p then []
  else (if e.short then [] else lead e.xs) ++ trail

/-- One period of a switching unit (R196, R197, R201, R206, R208, R210, R231), without the trimmer. -/
def State.emit (s : State) (u : Nat) (n : Fin 12) (held : GateHold) : State :=
  let x := s.unit u
  let b := unitBase u
  let p := s.pwmP n
  let h0 := nearestR ((x.duty : Rat) * p / 2 ^ 24)
  let (hmin, lmin, tmin) := s.minPulse u
  let e := emission (h0 + s.compOf u) x.carry x.low p (fdiv (s.stagOf u * p) 64) hmin lmin tmin (if x.pulse then some (s.tRef u) else none)
  let gone := decide (e.hw = 0) && decide (0 < h0)
  let out := if e.hw = 0 then 0 else if e.short then e.xe + x.low else e.xe - e.xs
  let (hi, lo) := x.gatesAt (fun _ => true)
  let t := (s.carrySat u e.lost).onUnit u (fun y => { y with
    carry := e.carry, carried := y.carried || e.carry ≠ 0, low := if e.hw = 0 then y.low + p else p - e.xe, sumH := y.sumH + out,
    full := if e.hw = p then (if x.pulse then 1 else y.full + 1) else 0, period := y.period + 1, pulse := false,
    skip := e.short || decide (e.hw = 0) || decide (e.hw = p) || x.pulse, drive := if 40 ≤ u then s.rd (b + PU.GDRIVE) else y.drive,
    hi := hi, lo := lo, edges := (s.edgesOf u p e x.pulse).map (fun g => g.held held.high held.low) })
  let t1 := ((t.wr (b + PU.HIGH) out.toNat).wrI 16 (b + PU.CARRY) e.carry).wr (b + PU.PERIOD) p.toNat
  let t2 := t1.bump (b + PU.SUPCNT) ((if gone then 1 else 0) + (if e.short then 1 else 0))
  if 40 ≤ u then t2.setFld (b + PU.REFCNT) 7 0 (min 255 (t2.unit u).full) else t2

/-- The interlock of unit u counts the turn-on edges that it has held in a period (R229). -/
def State.heldEdges (s : State) (u : Nat) (x : GateHold) : State :=
  s.bump (unitBase u + PU.GUARDCNT) ((if x.high = 0 then 0 else 1) + (if x.low = 0 then 0 else 1))

/-! ### Dead-time trimmer (R202-R204) -/

/-- A freeze condition of the trimmer holds (R203). -/
def State.dtFrozen (s : State) (u : Nat) : Bool :=
  !s.bit (unitBase u + PU.PCFG) 5 || !s.switching u || s.isPartner u || !s.bit (pstat u) 11 || decide (s.vm < 4096)

/-- PSTAT.dt_frozen and dt_settled of unit u and its partner (R203, R204). -/
def State.dtShow (s : State) (u : Nat) : State :=
  overList (s.pairOf u) (fun s v => (s.setBit (pstat v) 9 (s.dtFrozen v)).setBit (pstat v) 10 (s.unitSettled (s.leadOf v))) s

/-- What the trimmer of an end takes from its nodes (R202): the shortfall of the node high time [u] and the natural edge, for a paralleled end
the mean of the two shortfalls and the later of the two natural edges. -/
def nodeView (h : Int) (own : NodeEdges) (mate : Option NodeEdges) : Rat × Option Int :=
  let err (x : NodeEdges) : Int := h - (x.fall - x.rise)
  match mate with
  | none => (err own, own.nat)
  | some y => (((err own + err y : Int) : Rat) / 2, match own.nat, y.nat with | some a, some b => some (max a b) | _, _ => none)

/-- The trimmer after a period (R202, R203). -/
def State.trim (s : State) (u : Nat) (own : NodeEdges) (mate : Option NodeEdges) : State :=
  let x := s.unit u
  if s.dtFrozen u || x.skip then s else
  let i := s.nodeCurrent u
  let sh : Rat := 2 ^ s.fld (unitBase u + PU.PCFG) 3 0
  let dmax : Int := s.rd (unitBase u + PU.DTMAX) * 65536
  let dmin : Int := s.rd (unitBase u + PU.DTMIN) * 65536
  let marg : Int := s.rd (unitBase u + PU.DTMARG)
  let (err, nat) := nodeView (s.rd (unitBase u + PU.HIGH)) own mate
  let te := if 512 ≤ i.natAbs then x.te.step 256 (rnd 41 ((x.te.v : Rat) + ((sgn i : Rat) * err * 65536 - x.te.v) / sh)) (-dmax) dmax else x.te
  let dt (l : Learn) (t : Int) : Learn := l.step 256 (rnd 42 ((l.v : Rat) + ((t + marg) * 65536 - l.v : Int) / sh)) dmin dmax
  let learn := decide (s.rd (unitBase u + PU.DTIMIN) ≤ i.natAbs)
  let (dtr, dtf) := match nat with
    | some t => if learn then (if 0 < i then (x.dtr, dt x.dtf t) else (dt x.dtr t, x.dtf)) else (x.dtr, x.dtf)
    | none => (x.dtr, x.dtf)
  let s1 := s.onUnit u (fun y => { y with te := te, dtr := dtr, dtf := dtf })
  (((s1.wrI 16 (unitBase u + PU.TE) (fdiv te.v 65536)).wr (unitBase u + PU.DTR) (dtr.v / 65536).toNat).wr (unitBase u + PU.DTF)
    (dtf.v / 65536).toNat)

/-- The trimmer of unit u starts from value `v` [u] in all three (R204). -/
def State.dtSeed (s : State) (u : Nat) (v : Nat) : State :=
  let l := Learn.at (v * 65536)
  (((s.onUnit u (fun y => { y with te := l, dtr := l, dtf := l })).wr (unitBase u + PU.TE) v).wr (unitBase u + PU.DTR) v).wr
    (unitBase u + PU.DTF) v

/-- The trimmer has diverged (R204): DTR or DTF at DTMAX, or TE at one of its bounds. -/
def State.dtDiverged (s : State) (u : Nat) : Bool :=
  let x := s.unit u
  let dmax : Int := s.rd (unitBase u + PU.DTMAX) * 65536
  (x.te.diverged && x.te.v.natAbs == dmax.natAbs) || (x.dtr.diverged && x.dtr.v == dmax) || (x.dtf.diverged && x.dtf.v == dmax)

/-- Divergence of the trimmer (R204). -/
def State.dtDiverge (s : State) (u : Nat) : State :=
  if s.dtDiverged u then
    ((((s.dtSeed u (s.rd (unitBase u + PU.DTNOM))).hardClear (unitBase u + PU.PCFG) 5).dtShow u).flag (pstat u) 13).log
      0x0108 4 u (s.unitBind u)
  else s

/-- A partner's unit takes what its lead emits, with the turn-on edges that its own interlock holds (R199, R229). -/
def State.mirror (s : State) (lead v : Nat) (held : GateHold) : State :=
  let x := s.unit lead
  (s.onUnit v (fun y => { y with
    edges := x.edges.map (fun g => g.held held.high held.low), hi := x.hi, lo := x.lo, carry := x.carry, low := x.low })).heldEdges v held

/-- One PWM period of unit u (R197, R202): the unit emits its edges, and the trimmer takes the node crossings. A partner mirrors its lead
unit (R199). -/
def State.pwmPeriod (s : State) (u : Nat) (own mate : NodeEdges) (held : GateHold × GateHold) : State :=
  match s.unitAxis u with
  | some n =>
    if !s.switching u || s.isPartner u then s
    else
      let partners := (s.pairOf u).drop 1
      let s1 := (((s.refreshPulse u).emit u n held.1).heldEdges u held.1).trim u own (if partners = [] then none else some mate)
      (overList partners (fun t v => t.mirror u v held.2) s1).dtShow u
  | none => s

/-- The lag λ of the tick edge behind its grid point, in u from 0 to 31 (R195). -/
def State.edgeLag (s : State) : Nat :=
  (clampI (rnd 44 (((s.tim.time.toNat : Int) - (s.tim.gridH * 2 ^ 47 : Nat) : Int) * 64 / 5 / 2 ^ 48)) 0 31).toNat

/-- At an edge the lead unit u of an end and its partner close their tick (R162, R210, R221): the mean window as applied, periods not
reported at the duty in force, and whether a carry or a refresh pulse fell in it. -/
def State.unitClose (s : State) (u : Nat) (n : Fin 12) : State :=
  let x := s.unit u
  let k : Nat := 2 ^ (s.recd n).kexp
  let p := s.pwmP n
  let idle : Rat := clampR (p * x.duty / 2 ^ 24 + s.compOf u) 0 p
  let mean : Rat := if p = 0 then 0 else ((x.sumH : Rat) + ((k - x.period : Nat) : Rat) * idle) / (k * p)
  let out := if s.switching u then q32 43 mean else 0
  let s1 := overList (s.pairOf u) (fun s v =>
    ((s.onUnit v (fun y =>
      let (hi, lo) := y.gatesAt (fun _ => true)
      { y.still hi lo with applied := out, sumH := 0, period := 0, carried := false, pulsed := false })).setBit (pstat v) 8 x.carried).setBit
      (pstat v) 7 x.pulsed) s
  (if 40 ≤ u then s1.setMmax u p else s1).dtShow u

/-- At an edge unit u measures the lag and closes its tick (R195, R199). -/
def State.unitEdge (s : State) (u : Nat) : State :=
  let s1 := s.wr (unitBase u + PU.DLLLAG) s.edgeLag
  match s1.unitAxis u with
  | some n => if s1.isPartner u then s1 else s1.unitClose u n
  | none => s1

/-- One CORE clock of the channels: how long their low sides have been off (R233). -/
def State.gateClock (s : State) : State :=
  overList (List.range 8) (fun s g =>
    let lo := (s.gates (40 + g)).2
    s.onUnit (40 + g) (fun x => { x with offLow := if lo then 0 else min 65535 (x.offLow + 1) })) s

/-! ### Delay-line lock (R211, R212) -/

/-- One update of the delay-line lock with phase error `ph` [1/16 tap] (R211). -/
def State.dllUpdate (s : State) (u : Nat) (ph : Int) : State :=
  let x := s.unit u
  let run := if ph.natAbs ≤ 2 then x.dllRun + 1 else 0
  let l := if s.bit (unitBase u + PU.PCFG) 15 then x.dll else x.dll.step 1 (x.dll.v - ph * 16384) 0 (1023 * 65536)
  let lock := if 32 < ph.natAbs then false else if 8 ≤ run then true else s.bit (pstat u) 11
  ((s.onUnit u (fun y => { y with dll := l, dllRun := run })).wr (unitBase u + PU.DLLCODE) (l.v / 65536).toNat).setBit (pstat u) 11 lock

/-- Divergence of the delay-line lock (R212): whole-clock placement until dll_freeze is cleared. -/
def State.dllDiverge (s : State) (u : Nat) : State :=
  if (s.unit u).dll.diverged then
    ((((s.onUnit u (fun y => { y with dll := Learn.at (512 * 65536), dllOut := true })).wr (unitBase u + PU.DLLCODE) 512).setBit
      (unitBase u + PU.PCFG) 15 true).flag (pstat u) 12).log 0x0108 5 u (s.unitBind u)
  else s

/-! ### Debug halt and strobe (R215, R216) -/

/-- A debug halt begins: every switching unit takes the mute form (R215). -/
def State.debugHalt (s : State) : State :=
  let sw := Vector.ofFn (fun n : Fin 12 => s.isPower n && (s.recd n).units.any (fun u => s.switching u))
  (s.onStage (fun g => { g with halt := true, haltMute := if g.halt then g.haltMute else sw })).setOuts false

/-- A debug halt ends: the axes that were switching enter MUTE at the first edge after it (R215). The tick in which the sequencer has
stood still overblows no axis. -/
def State.debugResume (s : State) : State :=
  if !s.stage.halt then s else
  (overList allAxes (fun s n => s.onAx n (fun a => { a with ctl := { a.ctl with committed := true } }))
    (s.onStage (fun g => { g with halt := false }))).setOuts false

/-- The first edge after a halt: every power axis that was switching enters MUTE (R215). -/
def State.haltEdge (s : State) : State :=
  if s.stage.halt then s
  else
    (overList allAxes (fun s n => if s.stage.haltMute[n] ∧ s.energised n then s.enterStill n .mute else s) s).onStage
      (fun g => { g with haltMute := Vector.replicate 12 false })

/-! ### Meanings -/

/-- PWM_PERIOD (R197, R202, R206, R210, R229): what the unit's node and gates show, and those of its partner where it has one. -/
def execPwmPeriod (u : Fin 48) (own mate : NodeEdges) (held : GateHold × GateHold) (s : State) : Host.Outcome State Fault Refusal :=
  .next (s.awake fun s => s.pwmPeriod u own mate held)
/-- BOOTSTRAP_REFRESH (R208). -/
def execBootstrapRefresh (u : Fin 48) (s : State) : Host.Outcome State Fault Refusal := .next (s.awake fun s => s.refreshPulse u)
/-- DT_DIVERGE (R204). -/
def execDtDiverge (u : Fin 48) (s : State) : Host.Outcome State Fault Refusal := .next (s.awake fun s => s.dtDiverge u)
/-- DLL_UPDATE (R211): `ph` is the measured phase error. -/
def execDllUpdate (u : Fin 48) (ph : Int) (s : State) : Host.Outcome State Fault Refusal := .next (s.awake fun s => s.dllUpdate u ph)
/-- DLL_DIVERGE (R212). -/
def execDllDiverge (u : Fin 48) (s : State) : Host.Outcome State Fault Refusal := .next (s.awake fun s => s.dllDiverge u)
/-- DEBUG_HALT (R215). -/
def execDebugHalt (s : State) : Host.Outcome State Fault Refusal := .next (s.awake fun s => s.debugHalt)
/-- DEBUG_RESUME (R215). -/
def execDebugResume (s : State) : Host.Outcome State Fault Refusal := .next (s.awake fun s => s.debugResume)

end Sys2Proof.Machine
end

