-- ==== Sys2Proof/Machine/Power.lean ====
section
/-! DEFINITION. The power stage: protection of legs and channels, supplies of the gates, trip inputs, torque off, thermal
groups and the budget governor (R223-R258). -/

namespace Sys2Proof.Machine

/-- V12 lies within its window (R375, R376). -/
def State.v12 (s : State) : Bool := !s.bit (cmpA CMP.WSTAT) 1 && !s.bit (cmpA CMP.WSTAT) 9

/-- The address of DEV.PROT. -/
def protA : Nat := devA DEV.PROT

/-- One entry of a table of the stage set to `x`. -/
def putAt {V : Type} {k : Nat} (v : Vector V k) (i : Nat) (x : V) : Vector V k := if h : i < k then v.set i x else v

/-! ### Legs and channels (R227-R234) -/

/-- The unit that an event of unit u names: the lead of its pair (R226). -/
def State.eventUnit (s : State) (u : Nat) : Nat := s.leadOf u

/-- A protection comparator qualifies what it sees of a switch (R227): above its threshold, after the blanking of the turn-on, for OCQ
consecutive CORE clocks. A partner uses its lead's values (R226). -/
def State.qualified (s : State) (u : Nat) (x : Excess) : Bool :=
  let b := unitBase (s.leadOf u)
  decide (s.rd (b + PU.OCQ) ≤ min x.clocks (x.age - s.rd (b + PU.OCBLANK)))

/-- The comparator of unit u stands above its threshold, or has fallen below it (R243). -/
def State.setAbove (s : State) (u : Nat) (x : Bool) : State := s.onStage (fun g => { g with above := putAt g.above u x })

/-- A trip of unit u by a comparator (R227, R234, R244): the latch with source `k`, OCCNT, and 0x0201 once per setting with detail `why`. -/
def State.overTrip (s : State) (u k why : Nat) : State :=
  let was := s.bit (pstat u) 15
  let s1 := (s.bump (unitBase u + PU.OCCNT)).latch u k
  if was then s1 else (s1.life 7).log 0x0201 (s.eventUnit u) why (s.unitBind u)

/-- The overcurrent comparator of leg u on whichever of its switches is on (R227): above OCTHR [62.5 mA] it counts as active (R243), and
qualified it trips. -/
def State.legOvercurrent (s : State) (u : Nat) (x : Excess) : State :=
  let (hi, lo) := s.gates u
  let above := decide (125 * s.rd (unitBase (s.leadOf u) + PU.OCTHR) < 2 * x.level)
  let s1 := s.setAbove u above
  if (hi || lo) && above && s.qualified u x then s1.overTrip u 0 0 else s1.showSources u

/-- Switch current of leg u above the hard limit, or below it again (R228, R243, R251, R494). -/
def State.hardLimit (s : State) (u : Nat) (on : Bool) : State :=
  let s1 := s.onStage (fun g => { g with hard := putAt g.hard u on })
  if on then (s1.overTrip u 0 1).setBit (unitBase u + PU.LSTAT) 7 true else s1.showSources u

/-- The shoot-through guard of unit u (R230): `why` 1 a stuck gate, 2 both gates on; 0 ends the condition (R243). Each condition that
arises is logged. -/
def State.guardTrip (s : State) (u why : Nat) : State :=
  let was := s.stage.guard.toList.getD u 0
  let s1 := s.onStage (fun g => { g with guard := putAt g.guard u why })
  if why = 0 then s1.showSources u
  else
    let s2 := if s.bit (pstat u) 15 then s1.latch u 3 else (s1.latch u 3).life 7
    if was = why then s2 else s2.log 0x0205 (s.eventUnit u) why (s.unitBind u)

/-- The drain-source voltage of the low side of channel g while GLg is on (R234): above VDSTHR [25 mV] it counts as active (R243), and
qualified it trips. -/
def State.vdsTrip (s : State) (g : Nat) (x : Excess) : State :=
  let u := 40 + g
  let above := decide (25 * s.rd (unitBase u + PU.VDSTHR) < x.level)
  let s1 := s.setAbove u above
  if (s.gates u).2 && above && s.qualified u x then s1.overTrip u 1 2 else s1.showSources u

/-- The bootstrap voltage of channel g [mV] (R233, R243): compared with BUVTHR [100 mV] while the high side is on, not within 2 µs of GLg; once
low, the source ends above BUVTHR + 0.5 V. -/
def State.bootstrapUv (s : State) (g : Nat) (mV : Nat) : State :=
  let u := 40 + g
  let thr := 100 * s.rd (unitBase u + PU.BUVTHR)
  let was := s.stage.buv.toList.getD g false
  let put (x : Bool) : State := s.onStage (fun t => { t with buv := putAt t.buv g x })
  if (s.gates u).1 ∧ 800 ≤ (s.unit u).offLow ∧ mV < thr then
    let s1 := (put true).latch u 4
    if was then s1 else s1.log 0x0204 u 0 (s.unitBind u)
  else if thr + 500 < mV then (put false).showSources u
  else s

/-! ### Charge pump (R224, R225) -/

/-- The internal units. -/
def internalUnits : List Nat := List.range 40

/-- The axes that own units of a list. -/
def State.axesOf (s : State) (l : List Nat) : List (Fin 12) := allAxes.filter (fun n => (s.recd n).units.any l.contains)

/-- The charge pump starts when V12 lies within its window and neither TOFF input is asserted; a running one stops when TOFF1 asserts or V12
leaves its window (R224, R238). DEDUCED (log 53) of V12: the pump runs from it. -/
def State.pumpStep (s : State) : State :=
  s.onStage (fun g => { g with pump := s.v12 && !s.toffOn 1 && (g.pump || !s.toffOn 0) })

/-- The rail of the running charge pump rises: cp_ok, and undervoltage detection arms (R224, R225). -/
def State.cpReady (s : State) : State :=
  if !s.stage.pump then s
  else
    let s1 := (s.setBit protA 10 true).onStage (fun g => { g with cpArmed := true })
    overList internalUnits (fun s u => s.showSources u) s1

/-- cp_ok falls (R225): while armed it latches every internal unit and logs 0x0204. -/
def State.cpFall (s : State) : State :=
  if !s.bit protA 10 then s else
  let s1 := s.setBit protA 10 false
  if !s.stage.cpArmed then overList internalUnits (fun s u => s.showSources u) s1
  else
    let s2 := overList internalUnits (fun s u => s.latch u 5) s1
    ((s2.flag protA 14).onStage (fun g => { g with cpArmed := false })).log 0x0204 0x00FF 0 (.set (s.axesOf internalUnits))

/-! ### Trip inputs (R236, R237) -/

/-- TRIPi is enabled and asserted at level `p` (R236, R237). -/
def State.tripAsserted (s : State) (i : Fin 4) (p : Pin) : Bool :=
  let c := s.rd (devA DEV.TRIPCFG + 4 * i)
  c.testBit 14 && (match p with | .unres => true | .high => c.testBit 15 | .low => !c.testBit 15)

/-- The units that TRIPi maps (R236). -/
def State.tripUnits (s : State) (i : Fin 4) : List Nat :=
  let c := s.rd (devA DEV.TRIPCFG + 4 * i)
  (if c.testBit 13 then internalUnits else []) ++ ((List.range 8).filter c.testBit).map (40 + ·)

/-- PROT.trip_act of TRIPi and the sources of every unit follow the input. -/
def State.tripShow (s : State) (i : Fin 4) : State :=
  overList (List.range 48) (fun s u => s.showSources u) (s.setBit protA (4 + i) (s.tripAsserted i s.stage.trip[i] && s.stage.trip[i] != .unres))

/-- TRIPi acts where it is asserted: latches of the mapped units, and 0x0203 once per assertion, not while it is unresolved
(R236, R237). -/
def State.tripAct (s : State) (i : Fin 4) : State :=
  if !s.tripAsserted i s.stage.trip[i] then s
  else
    let c := s.rd (devA DEV.TRIPCFG + 4 * i)
    let l := s.tripUnits i
    let s1 := overList l (fun s u => s.latch u 2) s
    if s.stage.tripLog[i] ∨ s.stage.trip[i] = .unres then s1
    else (s1.onStage (fun g => { g with tripLog := g.tripLog.set i true })).log 0x0203 i (c % 256 + (if c.testBit 13 then 256 else 0))
      (.set (s.axesOf l))

/-- TRIPi has stood at its asserted level for `clocks` CORE clocks (R236): filt of them assert it; an unresolved input keeps that state (R237). -/
def State.tripInput (s : State) (i : Fin 4) (clocks : Nat) : State :=
  let lvl := if s.bit (devA DEV.TRIPCFG + 4 * i) 15 then Pin.high else Pin.low
  if clocks < s.fld (devA DEV.TRIPCFG + 4 * i) 11 8 then s
  else if s.stage.trip[i] = .unres then s.tripAct i
  else ((s.onStage (fun g => { g with trip := g.trip.set i lvl })).tripShow i).tripAct i

/-- TRIPi deasserts: its source ends and its event re-arms (R236); an unresolved input still counts as asserted (R265). -/
def State.tripRelease (s : State) (i : Fin 4) : State :=
  let lvl := if s.bit (devA DEV.TRIPCFG + 4 * i) 15 then Pin.low else Pin.high
  if s.stage.trip[i] = .unres then s
  else (s.onStage (fun g => { g with trip := g.trip.set i lvl, tripLog := g.tripLog.set i false })).tripShow i

/-- While an enabled TRIP input is unresolved it counts as asserted: the latches of its mapped units set (R237, R265). -/
def State.tripWait (s : State) : State :=
  overList (List.finRange 4) (fun s i =>
    if s.stage.trip[i] = .unres ∧ s.tripAsserted i .unres then
      overList ((s.tripUnits i).filter (fun u => !s.bit (pstat u) 15)) (fun s u => s.latch u 2) s
    else s) s

/-! ### Torque off (R238-R241) -/

/-- PROT shows the TOFF inputs and gd_rdy (R239, R241, R256). -/
def State.toffShow (s : State) : State :=
  let rdy := s.v12 && !s.toffOn 1 && (match s.stage.gdClk with | some k => decide (20000 ≤ k) | none => false)
  ((((s.setBit protA 8 (s.toffOn 0)).setBit protA 9 (s.toffOn 1)).setBit protA 3 (s.stage.toff[0] == .unres || s.stage.toff[1] == .unres))).setBit
    protA 11 rdy

/-- TOFFi takes a level: an assertion is due at the next edge; TOFF1 disarms the detection of
charge-pump undervoltage and disconnects the gate-drive level (R225, R238, R241). -/
def State.toffInput (s : State) (i : Fin 2) (p : Pin) : State :=
  let was := s.stage.toff[i]
  let s1 := s.onStage (fun g => { g with
    toff := g.toff.set i p,
    toffDue := g.toffDue.set i (g.toffDue[i] || (was == .high && p != .high)),
    toffLog := g.toffLog.set i (g.toffLog[i] || (p == .low && was != .low)) })
  let s2 := if i = 1 ∧ p ≠ .high then s1.onStage (fun g => { g with cpArmed := false, gdClk := none })
            else if i = 1 ∧ p = .high then s1.onStage (fun g => { g with gdClk := some 0 }) else s1
  let s3 := s2.onStage (fun g => { g with
    toffDiff := if g.toff[0] != g.toff[1] then some (g.toffDiff.getD 0) else none, toffSaid := g.toffSaid && g.toff[0] != g.toff[1] })
  let s4 := s3.pumpStep
  (if p = .low ∧ was ≠ .low then s4.life 8 else s4).toffShow.setOuts false

/-- What torque off brings at a tick edge (R239): every axis toward FAULT, and 0x0203 once per assertion. -/
def State.toffEdge (s : State) : State :=
  let hit := s.stage.toffDue[0] || s.stage.toffDue[1] || (s.stage.toff[0] == .unres) || (s.stage.toff[1] == .unres)
  let s1 := if hit then overList allAxes (fun s n => s.toFault n) s else s
  let one (s : State) (i : Fin 2) : State :=
    if s.stage.toffLog[i] then
      (s.onStage (fun g => { g with toffLog := g.toffLog.set i false })).log 0x0203 (0x10 + i) 0 (.set allAxes)
    else s
  (one (one s1 0) 1).onStage (fun g => { g with toffDue := Vector.replicate 2 false })

/-- TOFF inputs that have differed for longer than TOFFDISC: logged once for each difference (R240). -/
def State.toffDisc (s : State) : State :=
  if s.stage.toff[0] != s.stage.toff[1] && !s.stage.toffSaid then
    ((s.onStage (fun g => { g with toffSaid := true })).flag protA 15).log 0x0203 0x20 0 .device
  else s

/-- One CORE clock of the torque-off timers; true where the discrepancy time has run out and is not logged yet (R240, R241). -/
def State.toffClock (s : State) : State × Bool :=
  let lim := s.rd (devA DEV.TOFFDISC) * 400000
  let s1 := s.onStage (fun g => { g with toffDiff := g.toffDiff.map (· + 1), gdClk := g.gdClk.map (fun k => min 20000 (k + 1)) })
  (if s.stage.gdClk = some 19999 then s1.toffShow else s1, !s.stage.toffSaid && (match s1.stage.toffDiff with | some k => decide (lim < k) | none => false))

/-- The stage that axis n needs is ready (R241). -/
def State.stageReady (s : State) (n : Fin 12) : Bool :=
  !s.toffOn 0 && !s.toffOn 1 && (match s.role n with | 1 => s.bit protA 10 | 2 => s.bit protA 11 | _ => true)

/-! ### Thermal groups and the governor (R245-R248) -/

/-- The temperature of group g [°C] as the SAR sequence has it (R245). -/
def State.groupT (s : State) (g : Nat) : Rat := (s.rdI 16 (devA DEV.TJG + 4 * g) : Rat) / 4

/-- The thermal window of group g trips (R245). -/
def State.groupOver (s : State) (g : Nat) : State :=
  let s1 := (s.onStage (fun t => { t with ot := putAt t.ot g true })).setBit (cmpA CMP.TSTAT) g true
  let l := [4 * g, 4 * g + 1, 4 * g + 2, 4 * g + 3]
  let s2 := overList l (fun s u => s.latch u 6) s1
  if s.stage.ot.toList.getD g false then s2 else s2.log 0x0202 g (s.rd (devA DEV.TJG + 4 * g)) (.set (s.axesOf l))

/-- The current through leg x [A] and the power it dissipates in this tick [mW] (R246). -/
def State.legPower (s : State) (x : Nat) : Rat :=
  match s.unitAxis x with
  | none => 0
  | some n =>
    let t := (s.modu (x / 2)).tick.map Prod.fst
    let i : Rat := absR (if t = [] then 0 else ((t.sum : Int) : Rat) / t.length) * 2 / 32768
    let rds := 110 * (1 + 45 * (s.groupT (x / 4) - 25) / 10000) / 1000
    let sw := if s.stage.switched.toList.getD x false then (s.vm : Rat) / 512 * i * 15 * s.fPwm n / 1000000000 else 0
    1000 * (i * i * rds + sw)

/-- A tick's share of the power sums (R246). -/
def State.powerEdge (s : State) : State :=
  let p (g : Nat) : Nat := (List.range 4).foldl (fun a j => a + (q32 50 (s.legPower (4 * g + j))).toNat) 0
  s.onStage (fun t => { t with pSum := Vector.ofFn (fun g : Fin 10 => t.pSum[g] + p g), pCnt := t.pCnt + 1 })

/-- A group of axis n satisfies `f`. -/
def State.anyGroup (s : State) (n : Fin 12) (f : Rat → Bool) : Bool := (s.recd n).groups.any (fun g => f (s.groupT g))

/-- The axes on internal legs. -/
def State.governed (s : State) : List (Fin 12) := allAxes.filter (fun n => s.role n == 1)

/-- κ of axis n after a governor step (R247). -/
def State.kappaNext (s : State) (n : Fin 12) (ppkg : Nat) : Nat :=
  let k := s.rd (devA DEV.GOVK + 4 * n)
  let tg : Rat := s.rd (devA DEV.TGOV)
  let bud := s.rd (devA DEV.PBUDGET)
  let hot := s.anyGroup n (fun t => decide (tg < t))
  let cool := !s.anyGroup n (fun t => decide (tg - 5 ≤ t))
  if decide (bud < ppkg) || hot then max (s.rd (devA DEV.KMIN)) (k - 4)
  else if ppkg * 20 < bud * 19 ∧ cool then min 256 (k + 1) else k

/-- axlim of axis n for κ (R247). -/
def State.axLimOf (s : State) (n : Fin 12) (k : Nat) : Nat :=
  if k = 256 then 32767 else k * max (s.axr n AX.IRUN) (s.axr n AX.IHOLD) / 256

/-- A governor step (R246-R248). -/
def State.governorStep (s : State) : State :=
  let cnt := s.stage.pCnt
  let pg (g : Fin 10) : Nat := if cnt = 0 then 0 else min 65535 (rnd 51 (fx s.stage.pSum[g] / cnt)).toNat
  let s1 := (List.finRange 10).foldl (fun s g => s.wr (devA DEV.PG + 4 * g) (pg g)) s
  let ppkg := min 65535 (s.rd (devA DEV.PSTATIC) + s.rd (devA DEV.PGD) + (List.finRange 10).foldl (fun a g => a + pg g) 0)
  let pkg := decide (s.rd (devA DEV.PBUDGET) < ppkg)
  let hot := s.governed.any (fun n => s.anyGroup n (fun t => decide ((s.rd (devA DEV.TGOV) : Rat) < t)))
  let s2 := (s1.wr (devA DEV.PPKG) ppkg).onStage (fun t => { t with pSum := Vector.replicate 10 0, pCnt := 0 })
  let s3 := overList s.governed (fun t n =>
    let k := s.kappaNext n ppkg
    (t.wr (devA DEV.GOVK + 4 * n) k).onStage (fun g => { g with axLim := g.axLim.set n (s.axLimOf n k) })) s2
  let low : List (Fin 12) := s.governed.filter (fun (n : Fin 12) => decide (s3.rd (devA DEV.GOVK + 4 * n) < 256))
  let mask := low.foldl (fun a n => a + 2 ^ n.val) 0
  let s4 := s3.wr (devA DEV.GOVSTAT) (mask + (if pkg then 0x8000 else 0) + (if hot then 0x4000 else 0))
  if low = [] then s4.onStage (fun t => { t with govArm := true })
  else if s4.stage.govArm then
    (s4.onStage (fun t => { t with govArm := false })).log 0x0804 mask ((if pkg then 1 else 0) + (if hot then 2 else 0)) (.set low)
  else s4

/-! ### Meanings -/

/-- LEG_OVERCURRENT (R227): what the comparator sees of the switch that is on. -/
def execLegOvercurrent (x : LegExcess) (s : State) : Host.Outcome State Fault Refusal := .next (s.awake fun s => s.legOvercurrent x.leg x.seen)
/-- HARD_LIMIT (R228): `on` the current stands above 6 A, or has fallen below. -/
def execHardLimit (u : Fin 40) (on : Bool) (s : State) : Host.Outcome State Fault Refusal := .next (s.awake fun s => s.hardLimit u on)
/-- SHOOT_THROUGH_GUARD (R230): `why` 1 stuck gate, 2 both gates on, 0 the condition ends. -/
def execShootThroughGuard (u : Fin 48) (why : Fin 3) (s : State) : Host.Outcome State Fault Refusal := .next (s.awake fun s => s.guardTrip u why)
/-- VDS_TRIP (R234): what the monitor sees of the low side. -/
def execVdsTrip (x : GateExcess) (s : State) : Host.Outcome State Fault Refusal := .next (s.awake fun s => s.vdsTrip x.channel x.seen)
/-- BOOTSTRAP_UNDERVOLTAGE (R233): the bootstrap voltage. -/
def execBootstrapUndervoltage (g : Fin 8) (mV : Nat) (s : State) : Host.Outcome State Fault Refusal := .next (s.awake fun s => s.bootstrapUv g mV)
/-- CHARGE_PUMP_UNDERVOLTAGE (R225). -/
def execChargePumpUndervoltage (s : State) : Host.Outcome State Fault Refusal := .next (s.awake fun s => s.cpFall)
/-- CHARGE_PUMP_READY (R224). -/
def execChargePumpReady (s : State) : Host.Outcome State Fault Refusal := .next (s.awake fun s => s.cpReady)
/-- TRIP_INPUT (R236). -/
def execTripInput (x : TripLevel) (s : State) : Host.Outcome State Fault Refusal := .next (s.awake fun s => s.tripInput x.input x.clocks)
/-- TRIP_INPUT_RELEASE (R236). -/
def execTripInputRelease (i : Fin 4) (s : State) : Host.Outcome State Fault Refusal := .next (s.awake fun s => s.tripRelease i)
/-- GROUP_OVERTEMPERATURE (R245). -/
def execGroupOvertemperature (g : Fin 10) (s : State) : Host.Outcome State Fault Refusal := .next (s.awake fun s => s.groupOver g)
/-- TORQUE_OFF (R238). -/
def execTorqueOff (i : Fin 2) (s : State) : Host.Outcome State Fault Refusal := .next (s.awake fun s => s.toffInput i .low)
/-- TORQUE_OFF_RELEASE (R241). -/
def execTorqueOffRelease (i : Fin 2) (s : State) : Host.Outcome State Fault Refusal := .next (s.awake fun s => s.toffInput i .high)
/-- TOFF_DISCREPANCY (R240). -/
def execToffDiscrepancy (s : State) : Host.Outcome State Fault Refusal := .next (s.awake fun s => s.toffDisc)
/-- GOVERNOR_STEP (R247). -/
def execGovernorStep (s : State) : Host.Outcome State Fault Refusal := .next (s.awake fun s => s.governorStep)

end Sys2Proof.Machine
end

