-- ==== Sys2Proof/Machine/Inputs.lean ====
section
/-! DEFINITION. General-purpose pins: resolution, debounce, capture, chatter, limit switches, the enabling switch, the pendant
stop and outputs; and the homing methods (R259-R282). -/

namespace Sys2Proof.Machine

/-- The state with the pins changed. -/
def State.onPins (s : State) (f : Pins → Pins) : State := { s with pins := f s.pins }
/-- The state with the homing of axis n changed. -/
def State.onHom (s : State) (n : Fin 12) (f : Homing → Homing) : State := s.onAx n (fun a => { a with hom := f a.hom })
/-- The homing of axis n. -/
def State.hom (s : State) (n : Fin 12) : Homing := s.axes[n].hom

/-! ### Pins (R259-R269) -/

/-- Every pin. -/
def allPins : List (Fin 24) := List.finRange 24

/-- The record of pin p: function code, inversion, default (R284). -/
def State.pinRec (s : State) (p : Fin 24) : Nat := s.rd (gpioA GPIO.FUNC + 4 * p)
/-- The function code of pin p (R259); general input without an image. -/
def State.pinCode (s : State) (p : Fin 24) : Nat := s.pinRec p / 256
/-- The inversion flag. -/
def State.pinInv (s : State) (p : Fin 24) : Bool := (s.pinRec p).testBit 1
/-- A pin in analogue mode (R261), as the last edge took it (R288). -/
def State.pinAna (s : State) (p : Fin 24) : Bool := s.pins.ana[p]

/-- The valve map takes the pin as the STEP or DIR output of a pulse-out axis (R259). -/
def State.pinTaken (s : State) (p : Fin 24) : Bool :=
  allAxes.any (fun n => s.role n == 3 && ((s.recd n).stepPin == p.val || (s.recd n).dirPin == p.val))

/-- The pin is an output (R259). -/
def State.pinOut (s : State) (p : Fin 24) : Bool := 0x80 ≤ s.pinCode p || (s.pinCode p == 0 && s.pinTaken p)

/-- Address and bit of pin p in a pair of GPIO words A and B. -/
def pinBit (a : Nat) (p : Fin 24) : Nat × Nat := if p.val < 16 then (a, p.val) else (a + 4, p.val - 16)

/-- The logical value that an output pin outputs, before the inversion acts at the land (R282, R283). -/
def State.outValue (s : State) (p : Fin 24) : Bool :=
  match s.pinCode p with
  | 0x80 => decide (0 < s.pins.tow)
  | 0x81 => decide (0 < s.pins.cow)
  | 0x90 => s.pins.out[p]
  | _ => allAxes.any (fun n => s.role n == 3 && (((s.recd n).stepPin == p.val && decide (0 < (s.fol n).outHigh)) ||
          ((s.recd n).dirPin == p.val && (s.fol n).outDir)))

/-- The qualified level after inversion, with the treatment of an unresolved input (R261, R265, R283). -/
def State.pinOn (s : State) (p : Fin 24) : Bool :=
  if s.pinAna p then false
  else if s.pinOut p then s.pins.drive[p] && s.outValue p
  else if s.pins.res[p] && s.pins.newRes[p].isNone then s.pins.qual[p] != s.pinInv p
  else if 0x10 ≤ s.pinCode p ∧ s.pinCode p < 0x30 then true
  else (s.pinRec p).testBit 0

/-- The pin with function code c, if one has it. -/
def State.pinOf (s : State) (c : Nat) : Option (Fin 24) := if s.img.active then allPins.find? (fun p => s.pinCode p == c) else none

/-- The limit of axis n on a side (0 negative, 1 positive) is asserted, or unresolved (R271). -/
def State.limitOn (s : State) (n : Fin 12) (side : Nat) : Bool :=
  match s.pinOf ((if side = 0 then 0x10 else 0x20) + n) with | some p => s.pinOn p | none => false

/-- The home switch of axis n is asserted. -/
def State.homeOn (s : State) (n : Fin 12) : Bool := match s.pinOf (0x30 + n) with | some p => s.pinOn p | none => false

/-- A pendant stop is asserted for axis n (R281). -/
def State.pendantOn (s : State) (n : Fin 12) : Bool :=
  s.bit (gpioA GPIO.PSTOPMASK) n && s.img.active && allPins.any (fun p => s.pinCode p == 0x70 && s.pinOn p)

/-- The axis that the function of a limit or home pin names (R259). -/
def State.pinAxis (s : State) (p : Fin 24) : Option (Fin 12) :=
  let c := s.pinCode p
  if 0x10 ≤ c ∧ c < 0x40 then (if h : c % 16 < 12 then some ⟨c % 16, h⟩ else none) else none

/-- An input resolves to a level for good, which is no edge of a step input (R264). -/
def State.resolvePin (s : State) (p : Fin 24) (l : Bool) : State :=
  if s.pins.res[p] || s.pinAna p || s.pins.gpLeft.isNone && !s.bit (gpioA GPIO.RSTAT) 15 then s
  else
    let b := pinBit (gpioA GPIO.UNRA) p
    let s1 := overList (allAxes.filter (fun (n : Fin 12) => s.pinCode p == 0x40 && s.fld (axBase n + AX.STEPIN) 12 8 == p.val)) (fun s n =>
      s.onFol n (fun f => { f with stepIn := l != s.pinInv p, stepRun := 0 })) s
    (s1.onPins (fun g => { g with
      res := g.res.set p true, newRes := g.newRes.set p (some l), lvl := g.lvl.set p l, edged := g.edged.set p false })).setBit b.1 b.2 false

/-- A raw edge of pin p to a level (R262, R268, R269). -/
def State.rawEdge (s : State) (p : Fin 24) (l : Bool) : State :=
  let pos := match s.pinAxis p with | some n => (s.mot n).ipos | none => s.pins.latch[p]
  let chat := s.fldu (gpioA GPIO.DEB + 4 * p) 15 8
  let w := if chat = 0 then none else match s.pins.win[p] with | some (t, k) => some (t, k + 1) | none => some (0, 1)
  s.onPins (fun g => { g with
    lvl := g.lvl.set p l, age := g.age.set p 0, edged := g.edged.set p true, latch := g.latch.set p pos, win := g.win.set p w })

/-- A chatter window closes at an edge (R269): the first edge after its opening lies less than one tick after it. -/
def State.chatterClose (s : State) (p : Fin 24) : State :=
  match s.pins.win[p] with
  | none => s
  | some (t, k) =>
    if t ≤ s.rd (gpioA GPIO.CHATWIN) then s
    else
      let s1 := s.onPins (fun g => { g with win := g.win.set p none })
      if s.fld (gpioA GPIO.DEB + 4 * p) 15 8 < k then
        let b := pinBit (gpioA GPIO.CHTA) p
        (s1.flag b.1 b.2).log 0x0901 p k .device
      else s1

/-- The chatter windows count a tick edge. -/
def State.chatterEdge (s : State) (p : Fin 24) : State :=
  (s.onPins (fun g => { g with win := g.win.set p (g.win[p].map (fun x => (x.1 + 1, x.2))) })).chatterClose p

/-! ### Homing (R273-R279) -/

/-- The search direction d (R273). -/
def State.homeD (s : State) (n : Fin 12) : Int := if s.bit (hmBase n + HM.HCFG) 0 then 1 else -1

/-- HSTAT of axis n with a result (R287). -/
def State.hstat (s : State) (n : Fin 12) (result : Nat) : State :=
  let h := s.hom n
  let ph := if result = 1 then (match h.leg with | some l => l.phase | none => 0) else 0
  let a := hmBase n + HM.HSTAT
  let s1 := s.wr a (result * 4096 + ph * 256 + (if h.rev then 128 else 0) + h.m % 8)
  if s.fld a 15 12 = 1 ∧ result ≠ 1 then s1.irq n.val else s1

/-- The legs of method 3, and of methods 4 and 6 (R274). -/
def State.homeLegs3 (s : State) (n : Fin 12) (m : Nat) : List HomeStep :=
  let d := s.homeD n
  (if s.homeOn n then [] else [.leg ⟨1, d, false, [⟨2, true, 0⟩], m == 4, false⟩]) ++
    [.leg ⟨2, -d, true, [⟨2, false, if m = 6 then 0 else 1⟩], false, false⟩] ++
    (if m = 6 then [.leg ⟨3, d, true, [⟨2, true, 1⟩, ⟨2, false, 2⟩], false, false⟩] else [])

/-- The legs of method m at its start (R274). -/
def State.homeLegs (s : State) (n : Fin 12) (m : Nat) : List HomeStep :=
  let d := s.homeD n
  match m with
  | 1 => (if s.limitOn n 0 then [] else [.leg ⟨1, -1, false, [⟨0, true, 0⟩], false, false⟩]) ++ [.leg ⟨2, 1, true, [⟨0, false, 1⟩], false, false⟩]
  | 2 => (if s.limitOn n 1 then [] else [.leg ⟨1, 1, false, [⟨1, true, 0⟩], false, false⟩]) ++ [.leg ⟨2, -1, true, [⟨1, false, 1⟩], false, false⟩]
  | 5 => [.leg ⟨1, d, true, [], false, false⟩, .leg ⟨2, -d, false, [], false, true⟩]
  | 0 | 7 => []
  | _ => s.homeLegs3 n m

/-- The direction in which method m moves first; 0 for none (R271, R273). -/
def State.homeFirst (s : State) (n : Fin 12) (m : Nat) : Int :=
  match (s.homeLegs n m).head? with | some (.leg l) => l.dir | _ => 0

/-- pos is relabelled by `d` mstep (R125, R277): fraction kept, wrapped, no STEP pulse; MPOS anew. -/
def State.relabel (s : State) (n : Fin 12) (d : Int) : State :=
  let m := s.mot n
  let p := m.pos.toInt + d * 2 ^ 32
  let s1 := s.onMot n (fun m => { m with
    pos := BitVec.ofInt 80 p, snapPos := m.snapPos + BitVec.ofInt 48 d, prevPos := m.prevPos + BitVec.ofInt 48 d, modOff := 0 })
  let s2 := s1.onFol n (fun f => { f with outCell := s1.stepCell n })
  if -(2 ^ 79) ≤ p ∧ p < 2 ^ 79 then s2 else s2.flag (axBase n + AX.STATUS) 8

/-- A homing method completes at a captured position (R277). -/
def State.homeComplete (s : State) (n : Fin 12) (capt : Int) : State :=
  let b := hmBase n
  let delta := s.rdI 48 (b + HM.HOFS) - capt
  let d2 := if s.isPower n then 16384 * fdiv (delta + 8192) 16384 else delta
  let s1 := if s.bit (b + HM.HCFG) 1 then s else s.relabel n d2
  let s2 := (s1.wrI 48 (b + HM.HCAPT) capt).wrI 16 (b + HM.HRES) (delta - d2)
  let s3 := s2.onMot n (fun m => { m with rem := 0 })
  ((s3.onHom n (fun h => { h with mode := .idle, leg := none, todo := [] })).hstat n 2).setSt n .hold

/-- A homing method ends without success: `result` 3 to 6, the class stop, and 0x0109 for 4 to 6 (R275, R276). -/
def State.homeFail (s : State) (n : Fin 12) (result : Nat) (engine : Bool) : State :=
  let ph := s.fld (hmBase n + HM.HSTAT) 11 8
  let s1 := (s.onHom n (fun h => { h with mode := .idle, todo := [] })).hstat n result
  let s2 := if 4 ≤ result then s1.log 0x0109 result ph (.axis n) else s1
  if engine then s2.classStopEngine n else s2.classStop n

/-- The next leg starts, or the method completes (R273, R274). -/
def State.homeNext (s : State) (n : Fin 12) : State :=
  let h := s.hom n
  let todo := match h.todo with | .again :: t => s.homeLegs3 n h.m ++ t | t => t
  match todo with
  | .leg l :: t =>
    let v : Int := s.rd (hmBase n + (if l.slow then HM.HVSLOW else HM.HVFAST)) * 65536
    let p := (s.mot n).ipos
    let s1 := (s.onHom n (fun h => { h with mode := if l.back then .stop else .search, leg := some l, todo := t, p0 := p, ticks := 0 })).hstat n 1
    s1.onMot n (fun m => { m with
      req := some (if l.back then .homeTo (p + l.dir * s.rd (hmBase n + HM.HBACK)) v else .home (l.dir * v)) })
  | _ => s.homeComplete n (if h.m = 6 then fdiv (h.capA + h.capB) 2 else h.capA)

/-- HOME applies with method m in HOLD (R273, R274). -/
def State.homeStart (s : State) (n : Fin 12) (m : Nat) : State :=
  let s1 := (s.setSt n .homing).onHom n (fun _ => { Homing.start with m := m, todo := s.homeLegs n m })
  let s2 := (s1.onMot n (fun x => { x with atTarget := false, keep := false })).hstat n 1
  match m with
  | 0 => s2.homeComplete n (s.mot n).ipos
  | 7 =>
    if s.bit (ostat n) 10 then
      let th : Int := s.rd (prtBase (s.recd n).port + PRT.ANG)
      s2.homeComplete n ((s.mot n).ipos - s.sSign n * fdiv (s.axr n AX.SRATIO * th) 4)
    else s2.homeFail n 6 false
  | _ => s2.homeNext n

/-- The phase in progress ends: the axis stops at DMAX from clock 64 (R273, R604). -/
def State.homeStop (s : State) (n : Fin 12) : State :=
  (s.onHom n (fun h => { h with mode := .stop })).onMot n (fun m => { m with req := some (.home 0) })

/-- The axis rests at the end of a phase, and the next begins at this edge (R273). -/
def State.homePhase (s : State) (n : Fin 12) : State :=
  let m := s.mot n
  if s.st n = .homing ∧ (s.hom n).mode = .stop ∧ m.req.isNone ∧ m.vel = 0 ∧ (m.segs = [] ∨ m.planDone) then
    (s.onMot n (fun m => { m with segs := [], acc := 0, jrk := 0, goal := .none })).homeNext n
  else s

/-- The distance of the phase exceeds HMAXD (R273, R276). -/
def State.homeFar (s : State) (n : Fin 12) : Bool :=
  let d := s.rd (hmBase n + HM.HMAXD)
  s.st n == .homing && (s.hom n).mode != .idle && d != 0 && decide (d < ((s.mot n).ipos - (s.hom n).p0).natAbs)

/-- A method whose phase is too long fails in that clock (R276). -/
def State.homeDistance (s : State) (n : Fin 12) : State := if s.homeFar n then s.homeFail n 4 true else s

/-- Method 5 finds no load angle after the first HOLDRAMP ticks of P1 (R276). -/
def State.homeUnobs (s : State) (n : Fin 12) : State :=
  let h := s.hom n
  let s1 := s.onHom n (fun h => { h with ticks := h.ticks + 1 })
  if s.st n = .homing ∧ h.m = 5 ∧ h.mode = .search ∧ s.axr n AX.HOLDRAMP ≤ h.ticks ∧ s.bit (ostat n) 2 then s1.homeFail n 5 false else s1

/-- The stall that ends P1 of method 5: recorded, logged with 0x80, without reaction (R278). -/
def State.homeStall (s : State) (n : Fin 12) : State :=
  match (s.ctl n).stallDue with
  | none => s
  | some k =>
    let a := stlstat n
    let s1 := ((s.onCtl n (fun c => { c with stallDue := none, quiet := some 0, crit := Vector.replicate 4 0 })).flag a 15).setFld a 10 8 k
    let s2 := if (s.ctl n).frame then s1 else s1.flag a 14
    let due := s2.flt.due
    let s3 := (((s2.bump (axBase n + AX.STLCNT)).life 10).log 0x0101 (0x80 + k) (BitVec.ofInt 16 (s.ctl n).lang).toNat (.axis n)).onFlt
      (fun f => { f with due := due })
    let cap := (s.mot n).snapPos.toInt
    (s3.onMot n (fun m => { m with vel := 0, acc := 0, jrk := 0, segs := [], goal := .none, req := none })).onHom n
      (fun h => { h with mode := .stop, capA := cap })

/-- A stall of axis n, in the search of method 5 or elsewhere (R181, R278). -/
def State.stallHit (s : State) (n : Fin 12) : State :=
  if s.st n = .homing ∧ (s.hom n).m = 5 ∧ (s.hom n).mode = .search then s.homeStall n else s.stallRaise n

/-- A switch of a homing axis takes a qualified level: true where the method expected it (R274, R275). -/
def State.homeSwitch (s : State) (n : Fin 12) (sw : Nat) (on : Bool) (cap : Int) : Bool × State :=
  let h := s.hom n
  let d := s.homeD n
  match h.mode, h.leg with
  | .search, some l =>
    match l.wait with
    | w :: t =>
      if w.sw = sw ∧ w.on = on then
        let s1 := s.onHom n (fun h => { h with
          capA := if w.cap = 1 then cap else h.capA, capB := if w.cap = 2 then cap else h.capB, leg := some { l with wait := t } })
        (true, if t = [] then s1.homeStop n else s1)
      else if l.p1 ∧ on ∧ sw = (if 0 < d then 1 else 0) then
        let back : Leg := ⟨1, -d, false, [⟨2, true, 0⟩, ⟨2, false, 0⟩], false, false⟩
        (true, ((s.onHom n (fun h => { h with rev := true, todo := [.leg back, .again] })).hstat n 1).homeStop n)
      else (false, s)
    | [] => (false, s)
  | _, _ => (false, s)

/-! ### Limit switches (R270) -/

/-- A qualified assertion of a limit of axis n on pin p (R270, R275). -/
def State.limitAct (s : State) (n : Fin 12) (side : Nat) (p : Fin 24) (cap : Int) : State :=
  let v := (s.mot n).snapVel.toInt
  let toward := if side = 0 then decide (v < 0) else decide (0 < v)
  let ev (s : State) (x : Nat) : State := s.log 0x0104 p (side + x) (.axis n)
  match s.st n with
  | .move | .follow => if toward then (ev s 0).classStop n else ev s 0x200
  | .stopping => ev s (if toward then 0 else 0x200)
  | .hold | .paused => ev s 0x200
  | .yield => ev s (if toward then 0 else 0x200)
  | .homing =>
    match s.homeSwitch n side true cap with
    | (true, t) => t
    | (false, t) => (ev t (0x100 + (if toward then 0 else 0x200))).homeFail n 3 false
  | _ => s

/-! ### Qualification at an edge (R267, R270, R281) -/

/-- What a qualified change of pin p does; `on` is its level after inversion. -/
def State.pinChanged (s : State) (p : Fin 24) (on : Bool) : State :=
  let c := s.pinCode p
  match s.pinAxis p with
  | some n =>
    if s.role n = 0 then s
    else if c < 0x30 then
      let side := if c < 0x20 then 0 else 1
      if on then s.limitAct n side p s.pins.latch[p]
      else if s.st n = .homing then (s.homeSwitch n side false s.pins.latch[p]).2 else s
    else if s.st n = .homing then (s.homeSwitch n 2 on s.pins.latch[p]).2 else s
  | none =>
    if c = 0x70 ∧ on then
      let s1 := overList allAxes (fun s n => if s.bit (gpioA GPIO.PSTOPMASK) n then s.reactStop n else s) s
      s1.log 0x0903 p 0 .device
    else s

/-- A raw edge that has stood for the debounce time changes the qualified level (R267). -/
def State.qualify (s : State) (p : Fin 24) : State :=
  let g := s.pins
  if s.pinCode p = 0x40 then s.onPins (fun g => { g with qual := g.qual.set p g.lvl[p] })
  else if g.edged[p] ∧ s.fld (gpioA GPIO.DEB + 4 * p) 7 0 * s.tpr ≤ g.age[p] then
    let s1 := s.onPins (fun g => { g with qual := g.qual.set p g.lvl[p], edged := g.edged.set p false })
    if g.lvl[p] = g.qual[p] then s1
    else
      let b := pinBit (gpioA GPIO.EDGA) p
      let s2 := s1.flag b.1 b.2
      s2.pinChanged p (g.lvl[p] != s.pinInv p)
  else s

/-- Input qualification of pin p at an edge (R264, R267, R272): a level that has resolved qualifies without debounce and without an
edge, and a raw edge since then is judged after it. -/
def State.pinEdge (s0 : State) (p : Fin 24) : State :=
  let s := s0.chatterEdge p
  if s.pinOut p ∨ s.pinAna p ∨ !s.pins.res[p] then s
  else match s.pins.newRes[p] with
    | some l => (s.onPins (fun g => { g with newRes := g.newRes.set p none, qual := g.qual.set p l })).qualify p
    | none => s.qualify p

/-- The qualified levels of the enabling contacts and of the panic contact (R280). -/
def State.enLevels (s : State) : Bool × Bool × Bool :=
  let f (c : Nat) : Bool := match s.pinOf c with | some p => s.pinOn p | none => false
  (f 0x60, f 0x61, f 0x62)

/-- GPIO.ENSTAT.state takes a value: a change is an attention cause (R527). -/
def State.enTo (s : State) (x : Nat) : State :=
  if s.fld (gpioA GPIO.ENSTAT) 1 0 = x then s else (s.setFld (gpioA GPIO.ENSTAT) 1 0 x).irq 36

/-- The enabling state moves to DISCREPANCY, with 0x0904 (R280). -/
def State.enDiscrepancy (s : State) : State :=
  let (a, b, _) := s.enLevels
  let e := gpioA GPIO.ENSTAT
  if a != b ∧ s.fld e 1 0 ≠ 3 ∧ s.bit e 2 then
    (s.enTo 3).log 0x0904 ((if a then 1 else 0) + (if b then 2 else 0)) 0 .device
  else s

/-- The enabling switch at an edge: the first row of R280 that applies. -/
def State.enableEdge (s : State) : State :=
  let e := gpioA GPIO.ENSTAT
  if !s.bit e 2 then s else
  let (a, b, pan) := s.enLevels
  let st := s.fld e 1 0
  if pan then s.enTo 2
  else if st ≠ 3 ∧ s.rd (gpioA GPIO.ENDISC) * 400000 < s.pins.enClk then s.enDiscrepancy
  else if st = 2 ∨ st = 3 then (if !a && !b then s.enTo 0 else s)
  else if st = 0 then (if a && b then s.enTo 1 else s)
  else if !a || !b then s.enTo 0 else s

/-- Modes and output data written since the last edge come into use (R288). -/
def State.modesEdge (s : State) : State :=
  s.onPins (fun g => { g with
    ana := Vector.ofFn (fun (p : Fin 24) => decide (16 ≤ p.val) && s.bit (gpioA GPIO.MODE + 4 * p) 5),
    out := Vector.ofFn (fun (p : Fin 24) => s.bit (pinBit (gpioA GPIO.OUTA) p).1 (pinBit (gpioA GPIO.OUTA) p).2) })

/-- All inputs at a tick edge, before the commands (R272, R280). -/
def State.inputsEdge (s0 : State) : State :=
  let s := s0.modesEdge
  if s.img.active then (overList allPins (fun s p => s.pinEdge p) s).enableEdge else s

/-- What the outputs do at a tick edge (R261, R282). -/
def State.outputsEdge (s : State) (cycle : Bool) : State :=
  let w := min (s.rd (gpioA GPIO.TOW)) (s.tpr - 4)
  let s1 := s.onPins (fun g => { g with tow := w, cow := if cycle then w else g.cow })
  overList allPins (fun s p =>
    if s.pinOut p then
      let b := pinBit (gpioA GPIO.UNRA) p
      (s.onPins (fun g => { g with drive := g.drive.set p true })).setBit b.1 b.2 false
    else s) s1

/-- One CORE clock of the pins' timers. -/
def State.pinsClock (s : State) : State :=
  let (a, b, _) := s.enLevels
  s.onPins (fun g => { g with
    age := g.age.map (· + 1), tow := g.tow - 1, cow := g.cow - 1, enClk := if a != b then g.enClk + 1 else 0,
    gpLeft := g.gpLeft.map (· - 1), dedLeft := g.dedLeft.map (· - 1) })

/-! ### The STEP and DIR inputs (R112) -/

/-- The synchronised level of the pin that a field of STEPIN names, after inversion; low where it names none that takes step inputs. -/
def State.stepPin (s : State) (k : Nat) : Bool :=
  if h : k < 24 then s.pinCode ⟨k, h⟩ == 0x40 && (s.pins.lvl[k] != s.pinInv ⟨k, h⟩) else false

/-- A step input counts: it has resolved, by the last edge (R264, R265). -/
def State.stepLive (s : State) (k : Nat) : Bool :=
  if h : k < 24 then s.pins.res[k] && s.pins.newRes[k].isNone && !s.pinAna ⟨k, h⟩ else false

/-- The filters of axis n take one CORE clock (R112). -/
def State.stepFilter (s : State) (n : Fin 12) : State :=
  let w := s.axr n AX.STEPIN
  s.onFol n (fun f => f.filter (s.axr n AX.STEPFILT) (s.stepPin (Machine.fld w 12 8)) (s.stepPin (Machine.fld w 4 0)))

/-- The qualified active STEP edge that this clock brings from the state before it to `t` (R112): the direction is the filtered DIR, and a
free value where DIR has not been stable for 2 × STEPFILT clocks, as the rule asks. DESIGN CHOICE (log 51). Unresolved inputs count no
edges (R265). -/
def State.stepInDue (s : State) (n : Fin 12) (t : State) : List Instr × State :=
  let w := t.axr n AX.STEPIN
  if !(t.fol n).stepIn ∨ (s.fol n).stepIn ∨ !t.stepLive (Machine.fld w 12 8) ∨ !t.stepLive (Machine.fld w 4 0) then ([], t)
  else if 2 * t.axr n AX.STEPFILT ≤ (t.fol n).dirAge then ([.stepInputEdge n (t.fol n).dirIn], t)
  else
    let (b, u) := t.free 1
    ([.stepInputEdge n (b == 1)], u)

/-- The interval of the dedicated inputs ends, or that of the pins, after its time (R263, R266). -/
def State.resolveEnd (s : State) (gp : Bool) : State :=
  let r := gpioA GPIO.RSTAT
  if (if gp then s.pins.gpLeft else s.pins.dedLeft) ≠ some 0 then s
  else if gp then
    let s1 := (s.onPins (fun g => { g with gpLeft := none })).setBit r 15 true
    overList allPins (fun s p =>
      if s.pins.res[p] || s.pinOut p || s.pinAna p then s
      else s.log 0x0902 p (s.pinCode p) .device) s1
  else
    let s1 := (s.onPins (fun g => { g with dedLeft := none })).setBit r 14 true
    let s2 := (List.finRange 2).foldl (fun (s : State) (i : Fin 2) => if s.stage.toff[i] = .unres then s.log 0x0902 (0x20 + i) 0xFF .device else s) s1
    (List.finRange 4).foldl (fun (s : State) (i : Fin 4) => if s.stage.trip[i] = .unres then s.log 0x0902 (0x30 + i) 0xFF .device else s) s2

/-- A dedicated input resolves: TOFF0, TOFF1, TRIP0-TRIP3 (R237, R239, R264). -/
def State.resolveDed (s : State) (i : Fin 6) (l : Bool) : State :=
  if h : i.val < 2 then
    if s.stage.toff[i.val]'h = .unres then s.toffInput ⟨i, h⟩ (if l then .high else .low) else s
  else
    let k : Fin 4 := ⟨i.val - 2, by omega⟩
    if s.stage.trip[k] = .unres then
      ((s.onStage (fun g => { g with trip := g.trip.set k (if l then .high else .low) })).tripShow k).tripAct k
    else s

/-! ### Meanings -/

/-- INPUT_RESOLVE (R264): GP0-GP23 as 0-23, then TOFF0, TOFF1 and TRIP0-TRIP3; `high` is the level. -/
def execInputResolve (i : Fin 30) (high : Bool) (s : State) : Host.Outcome State Fault Refusal :=
  .next (s.awake fun s => if h : i.val < 24 then s.resolvePin ⟨i, h⟩ high else s.resolveDed ⟨i.val - 24, by omega⟩ high)
/-- RESOLVE_INTERVAL_END (R266): of the pins, or of the dedicated inputs. -/
def execResolveIntervalEnd (gp : Bool) (s : State) : Host.Outcome State Fault Refusal := .next (s.awake fun s => s.resolveEnd gp)
/-- RAW_EDGE (R268). -/
def execRawEdge (p : Fin 24) (high : Bool) (s : State) : Host.Outcome State Fault Refusal := .next (s.awake fun s => s.rawEdge p high)
/-- CHATTER_WINDOW_CLOSE (R269). -/
def execChatterWindowClose (p : Fin 24) (s : State) : Host.Outcome State Fault Refusal := .next (s.awake fun s => s.chatterClose p)
/-- ENABLING_DISCREPANCY (R280). -/
def execEnablingDiscrepancy (s : State) : Host.Outcome State Fault Refusal := .next (s.awake fun s => s.enDiscrepancy)
/-- HOMING_PHASE_START (R273). -/
def execHomingPhaseStart (n : Fin 12) (s : State) : Host.Outcome State Fault Refusal := .next (s.awake fun s => s.homePhase n)
/-- HOMING_DISTANCE_EXCEEDED (R276). -/
def execHomingDistanceExceeded (n : Fin 12) (s : State) : Host.Outcome State Fault Refusal := .next (s.awake fun s => s.homeDistance n)
/-- HOMING_COMPLETE (R277): the last phase of a method has come to rest. -/
def execHomingComplete (n : Fin 12) (s : State) : Host.Outcome State Fault Refusal :=
  .next (s.awake fun s => if (s.hom n).todo = [] then s.homePhase n else s)
/-- STALL (R181, R278). -/
def execStallRaised (n : Fin 12) (s : State) : Host.Outcome State Fault Refusal := .next (s.awake fun s => s.stallHit n)

end Sys2Proof.Machine
end

