-- ==== Sys2Proof/Machine/Ports.lean ====
section
/-! DEFINITION. Position sensor ports and excitation drivers: synthesis, settling, opens and shorts, the amplitude test, spoiled
slots, demodulation and publication (R289-R305). -/

namespace Sys2Proof.Machine

/-- The state with driver d changed. -/
def State.onExc (s : State) (d : Fin 4) (f : Exc → Exc) : State := { s with excs := vupd s.excs d f }
/-- The state with port p changed. -/
def State.onPort (s : State) (p : Fin 8) (f : Port → Port) : State := { s with ports := vupd s.ports p f }
/-- The address of ESTAT of driver d. -/
def estat (d : Fin 4) : Nat := excBase d + EXC.ESTAT
/-- The address of PSTAT of port p. -/
def prtStat (p : Fin 8) : Nat := prtBase p + PRT.PSTAT
/-- The driver of port p (R289). -/
def drvOf (p : Fin 8) : Fin 4 := ⟨p / 2, by omega⟩
/-- The two ports of driver d. -/
def portsOf (d : Fin 4) : List (Fin 8) := [⟨2 * d, by omega⟩, ⟨2 * d + 1, by omega⟩]

/-- The axis that port p belongs to. -/
def State.portAxis (s : State) (p : Fin 8) : Option (Fin 12) := allAxes.find? (fun n => s.isPower n && (s.recd n).port == p.val)
/-- The axis of a port as the binding of an event (R481). -/
def State.portBind (s : State) (p : Fin 8) : Bind := match s.portAxis p with | some n => .axis n | none => .noAxis
/-- The axes of a driver's ports as a set (R481). -/
def State.drvBind (s : State) (d : Fin 4) : Bind := .set ((portsOf d).filterMap s.portAxis)

/-- INC of driver d for a frequency [Hz], ties up (R289). -/
def incOf (f : Nat) : Nat := (f * 2 ^ 32 + 200000000) / 400000000

/-- The age at which slot boundary j of driver d falls: φ crosses 0 or 2^31 (R296). -/
def State.slotAge (s : State) (d : Fin 4) (j : Nat) : Nat := cdiv (j * 2 ^ 31) (max 1 (s.rd (excBase d + EXC.INC)))

/-- The latest slot boundary at or before an age (R296). -/
def State.slotAt (s : State) (d : Fin 4) (age : Nat) : Nat := age * s.rd (excBase d + EXC.INC) / 2 ^ 31

/-- T_exc in CORE clocks, rounded up. -/
def State.tExc (s : State) (d : Fin 4) : Nat := cdiv (2 ^ 32) (max 1 (s.rd (excBase d + EXC.INC)))

/-! ### Drivers (R289-R293) -/

/-- The image enables driver d. -/
def State.excOn (s : State) (d : Fin 4) : Bool := s.rd (excBase d + EXC.ECFG) != 0 && s.img.active

/-- Driver d starts from phase 0 (R290); it does not run while V12 lies outside its window. -/
def State.excStart (s : State) (d : Fin 4) : State :=
  if !s.excOn d then s else
  let run := s.v12
  let s0 := s.onExc d (fun _ => { Exc.start with run := run })
  let s1 := overList (portsOf d) (fun s p => s.onPort p (fun q => { q with smp := [], sel := none, selOld := none, fit := none })) s0
  ((((s1.setBit (estat d) 14 false).setBit (estat d) 12 false).setBit (estat d) 11 false).setBit (estat d) 10 run).wr
    (excBase d + EXC.INC) (incOf (s.rd (excBase d + EXC.FREQ)))

/-- Driver d stops: no image, no V12, a short. -/
def State.excStop (s : State) (d : Fin 4) : State :=
  (((s.onExc d (fun e => { e with run := false, settleAt := none })).setBit (estat d) 10 false).setBit (estat d) 11 false).setBit (estat d) 14 false

/-- A notice spoils a port from its onset on (R298). -/
def State.spoil (s : State) (p : Fin 8) (onset : Int) (isOpen : Bool) : State :=
  let std := (s.ports[p]).spoils.any (fun x => x.until_.isNone && x.isOpen == isOpen)
  let s1 := if std then s else s.onPort p (fun q => { q with spoils := (⟨onset, none, isOpen⟩ :: q.spoils).take 8 })
  ((s1.onPort p (fun q => { q with pass := if isOpen then q.pass else 0 })).setBit (prtStat p) 12 true)

/-- A notice shows on a port: brk and BRKCNT (R302). -/
def State.notice (s : State) (p : Fin 8) : State := (s.flag (prtStat p) 13).bump (prtBase p + PRT.BRKCNT)

/-- An open of driver d (R292, R293, R298): both its ports are spoiled from T_exc before; `missing` at the settle moment. -/
def State.excOpen (s : State) (d : Fin 4) (missing : Bool) : State :=
  let e := s.excs[d]
  if !e.run ∨ (e.settleAt.isNone ∧ !missing) then s
  else if s.bit (estat d) 14 then s
  else
    let s1 := (((s.setBit (estat d) 14 true).flag (estat d) 13).bump (excBase d + EXC.OPCNT)).onExc d
      (fun e => { e with missing := missing, logOpen := !missing })
    let s2 := overList (portsOf d) (fun s p => (s.spoil p ((e.age : Int) - s.tExc d) true).notice p) s1
    if missing then s2.log 0x0401 d (s.rd (excBase d + EXC.IAMP)) (s.drvBind d) else s2

/-- Sixteen periods after the start (R290): IREF and IPH are captured, the driver is settled; a missing load is an open (R292). -/
def State.excSettle (s : State) (d : Fin 4) (iref iph : Nat) : State :=
  let e := s.excs[d]
  if !e.run ∨ e.settleAt.isSome then s
  else
    let b := excBase d
    let s1 := (((s.onExc d (fun e => { e with settleAt := some e.age })).setBit (estat d) 11 true).wr (b + EXC.IREF) (iref % 65536)).wr
      (b + EXC.IPH) (iph % 65536)
    let s2 := s1.wr (b + EXC.IAMP) (iref % 65536)
    if iref % 65536 < s.rd (b + EXC.IOMIN) then s2.excOpen d true else s2

/-- Recovery of the ports of driver d from an open: slots that end later are not spoiled (R303). -/
def State.unspoil (s : State) (p : Fin 8) (isOpen : Bool) : State :=
  let age := (s.excs[drvOf p]).age
  let s1 := s.onPort p (fun q => { q with
    spoils := q.spoils.map (fun x => if x.isOpen == isOpen ∧ x.until_.isNone then { x with until_ := some age } else x) })
  s1.setBit (prtStat p) 12 ((s1.ports[p]).spoils.any (fun x => x.until_.isNone))

/-- The open of driver d clears at a measured current amplitude (R293). -/
def State.excOpenClear (s : State) (d : Fin 4) (iamp : Nat) : State :=
  let b := excBase d
  let lim := if (s.excs[d]).missing then s.rd (b + EXC.IOMIN) else cdiv (s.rd (b + EXC.IREF)) 2
  let s0 := s.wr (b + EXC.IAMP) (iamp % 65536)
  if s.bit (estat d) 14 ∧ lim ≤ iamp then
    overList (portsOf d) (fun s p => s.unspoil p true) ((s0.setBit (estat d) 14 false))
  else s0

/-- A short of driver d (R293): `why` 1 the current limit, 2 low voltage. -/
def State.excShort (s : State) (d : Fin 4) (why : Nat) : State :=
  if !(s.excs[d]).run then s
  else
    let s1 := ((s.excStop d).flag (estat d) 15).bump (excBase d + EXC.SHCNT)
    (if why = 1 then s1.setBit (estat d) 12 true else s1).log 0x0402 d why (s.drvBind d)

/-- A write of ESTAT.short = 1 clears the latch and restarts the driver (R293). -/
def State.shortClear (s : State) (d : Fin 4) : State :=
  if s.bit (estat d) 15 then
    let s1 := s.clearFlag (estat d) 15
    if s1.bit (estat d) 15 then s1 else s1.excStart d
  else s

/-! ### The amplitude test (R297, R298, R303) -/

/-- What an amplitude test finds wrong (R297, R302; cause DC where INJ_PORT has asked for it, R502): bits 3:0 the cause, bit 8 SIN, bit 9
COS; 0 passes. DESIGN CHOICE (log 55): of several causes the first of DC, clamp, low, high, and a bad amplitude implicates both channels. -/
def State.ampTest (s : State) (p : Fin 8) (amp : Nat) (mSin mCos : Int) (cSin cCos : Bool) : Nat :=
  let b := prtBase p
  let dc := s.rdu (b + PRT.DCMAX)
  let dS := decide (dc < mSin.natAbs)
  let dC := decide (dc < mCos.natAbs)
  let ch (x y : Bool) : Nat := (if x then 256 else 0) + (if y then 512 else 0)
  if s.flt.injPort.contains p.val then 3 + ch true true
  else if dS || dC then 3 + ch dS dC
  else if cSin || cCos then 4 + ch cSin cCos
  else if amp < s.rdu (b + PRT.AMIN) then 1 + ch true true
  else if s.rdu (b + PRT.AMAX) < amp then 2 + ch true true
  else 0

/-- A slot boundary of port p (R297): the test passes or brings a notice; 8 passes in a row end a spoiling (R303). -/
def State.slotBoundary (s : State) (p : Fin 8) (amp : Nat) (mSin mCos : Int) (cSin cCos : Bool) : State :=
  let d := drvOf p
  let e := s.excs[d]
  if !e.run ∨ e.settleAt.isNone then s
  else
    let c := s.ampTest p amp mSin mCos cSin cCos
    let s0 := s.onFlt (fun f => { f with injPort := f.injPort.erase p.val })
    if c = 0 then
      let k := (s.ports[p]).pass + 1
      let s1 := s0.onPort p (fun q => { q with pass := k })
      if k = 8 then s1.unspoil p false else s1
    else
      let std := (s.ports[p]).spoils.any (fun x => x.until_.isNone && !x.isOpen)
      let s1 := (s0.spoil p ((e.age : Int) - 2 * s.tExc d) false).notice p
      if std then s1 else s1.onPort p (fun q => { q with logTest := true, cause := c, inj := s.flt.injPort.contains p.val })

/-- A port recovers after 8 passing tests, or after its open has cleared (R303). -/
def State.portRecover (s : State) (p : Fin 8) : State :=
  let s1 := if 8 ≤ (s.ports[p]).pass then s.unspoil p false else s
  if s1.bit (estat (drvOf p)) 14 then s1 else s1.unspoil p true

/-! ### Demodulation (R299, R300) -/

/-- The fit of one channel over its samples (value [codes], φ) (R300): in-phase and quadrature amplitude, mean, count, conditioning. -/
def fitChannel (phase : Nat) (l : List (Int × Nat)) : Rat × Rat × Rat × Nat × Bool :=
  let n := l.length
  if n = 0 then (0, 0, 0, 0, true) else
  let m : Rat := ((l.map Prod.fst).sum : Int) / (n : Rat)
  let th (k : Nat) : Nat := ((k : Int) - phase * 65536) % 2 ^ 32 / 65536 |>.toNat
  let rq := l.map (fun (x, k) => ((x : Rat) - m, sinT (th k), cosT (th k)))
  let sum (f : Rat × Rat × Rat → Rat) : Rat := rq.foldl (fun a t => a + f t) 0
  let srr := sum (fun t => t.2.1 * t.2.1)
  let sqq := sum (fun t => t.2.2 * t.2.2)
  let srq := sum (fun t => t.2.1 * t.2.2)
  let sxr := sum (fun t => t.1 * t.2.1)
  let sxq := sum (fun t => t.1 * t.2.2)
  let det := srr * sqq - srq * srq
  let cond := decide (n < 12) || decide (det < srr * sqq / 4)
  if det = 0 then (0, 0, m, n, true) else ((sxr * sqq - sxq * srq) / det, (sxq * srr - sxr * srq) / det, m, n, cond)

/-- A sample is clamped (R294). -/
def clamped (l : List (Int × Nat)) : Bool := l.any (fun x => decide (8064 ≤ x.1.natAbs))

/-- The samples of one channel in the window that ends at slot boundary j, each with its φ (R295, R296, R300). -/
def State.window (s : State) (p : Fin 8) (j : Nat) (cos : Bool) : List (Int × Nat) :=
  let d := drvOf p
  let lo := s.slotAge d (j - 2)
  let hi := s.slotAge d j
  ((s.ports[p]).smp.filter (fun x => x.1 == cos && decide (lo ≤ x.2.2) && decide (x.2.2 < hi))).map
    (fun x => (x.2.1, x.2.2 * s.rd (excBase d + EXC.INC) % 2 ^ 32))

/-- Task 4 fits the selected window of port p (R300), over the samples of its two channels. -/
def State.demodulate (s : State) (p : Fin 8) : State :=
  match (s.ports[p]).sel with
  | none => s
  | some j =>
    if s.stage.halt then s else
    let sin := s.window p j false
    let cos := s.window p j true
    let ph := s.rdu (prtBase p + PRT.PHASE)
    let (aS, bS, mS, nS, kS) := fitChannel ph sin
    let (aC, bC, mC, nC, kC) := fitChannel ph cos
    let q (x : Rat) : Int := q32 60 x
    s.onPort p (fun t => { t with
      fit := some ⟨q aS, q aC, q bS, q bC, q mS, q mC, nS, nC, clamped sin || clamped cos, kS || kC⟩ })

/-- The slot ends spoiled (R298, R303). -/
def Port.spoiledAt (q : Port) (age : Nat) (kind : Bool) : Bool :=
  q.spoils.any (fun x => x.isOpen == kind && decide (x.onset < age) && (match x.until_ with | some t => decide (age < t) | none => true))

/-- The published registers of a fit (R300). -/
def State.putFit (s : State) (p : Fin 8) (f : Fit) : State :=
  let b := prtBase p
  let aS := fx f.aSin
  let aC := fx f.aCos
  let m2 := aS * aS + aC * aC
  let amp := sqrtR m2
  let quad := if m2 = 0 then 0 else rnd 61 (1024 * (fx f.bSin * aS + fx f.bCos * aC) / m2)
  let s1 := (s.wr (b + PRT.ANG) (atan2Near f.aSin f.aCos % 65536)).wr (b + PRT.AMP) (min 65535 (rnd 62 amp).toNat)
  let s2 := ((s1.wrI 16 (b + PRT.QUAD) quad).wrI 16 (b + PRT.ASIN) (rnd 63 aS)).wrI 16 (b + PRT.ACOS) (rnd 63 aC)
  ((s2.wrI 16 (b + PRT.MSIN) (rnd 63 (fx f.mSin))).wrI 16 (b + PRT.MCOS) (rnd 63 (fx f.mCos))).wr (b + PRT.NSMP)
    (min 255 f.nSin * 256 + min 255 f.nCos)

/-- The cause exc of R301: driver d is disabled, not running, or has open or short standing. -/
def State.excCause (s : State) (d : Fin 4) : Bool := !s.excOn d || !(s.excs[d]).run || s.bit (estat d) 14 || s.bit (estat d) 15

/-- The causes of the invalid mark at the publishing edge, as PSTAT bits 7:0 (R301). -/
def State.markBits (s : State) (p : Fin 8) (j : Nat) (f : Option Fit) : Nat :=
  let d := drvOf p
  let e := s.excs[d]
  let b := prtBase p
  let q := s.ports[p]
  let a1 := s.slotAge d j
  let a0 := s.slotAge d (j - 1)
  let settle := match e.settleAt with | some t => decide (s.slotAge d (j - 2) < t) | none => true
  let sp := q.spoiledAt a1 true || q.spoiledAt a0 true || q.spoiledAt a1 false || q.spoiledAt a0 false
  let dcm : Rat := s.rdu (b + PRT.DCMAX)
  let g := f.getD ⟨0, 0, 0, 0, 0, 0, 0, 0, false, true⟩
  let amp := sqrtR (fx g.aSin * fx g.aSin + fx g.aCos * fx g.aCos)
  let bits := [g.cond, g.clamp, decide (dcm < absR (fx g.mSin)) || decide (dcm < absR (fx g.mCos)),
    decide ((s.rdu (b + PRT.AMAX) : Rat) < amp), decide (amp < (s.rdu (b + PRT.AMIN) : Rat)), sp, s.excCause d, settle]
  (bits.zipIdx.map (fun (x, i) => if x then 2 ^ i else 0)).sum

/-- The break events of a publication (R302). -/
def State.breakEvents (s : State) (p : Fin 8) (j : Nat) : State :=
  let d := drvOf p
  let q := s.ports[p]
  let hit (k : Bool) : Bool := q.spoiledAt (s.slotAge d j) k || q.spoiledAt (s.slotAge d (j - 1)) k
  let s1 := if (s.excs[d]).logOpen ∧ hit true then
      (s.onExc d (fun e => { e with logOpen := false })).log 0x0401 d (s.rd (excBase d + EXC.IAMP)) (s.drvBind d) else s
  if q.logTest ∧ hit false then
    let s2 := s1.onPort p (fun t => { t with logTest := false })
    if s.bit (estat d) 14 || s.bit (estat d) 15 then s2
    else s2.injected q.inj (fun s2 => s2.log 0x0403 p q.cause (s.portBind p))
  else s1

/-- Publication of port p at an edge, and the window selected for the next (R299, R301). -/
def State.portEdge (s : State) (p : Fin 8) : State :=
  match s.portAxis p with
  | none => s
  | some _ =>
    let d := drvOf p
    let e := s.excs[d]
    let q := s.ports[p]
    let s1 :=
      match q.sel with
      | none => if s.stage.halt then s else (s.setFld (prtStat p) 7 0 (if s.excCause d then 192 else 128)).setBit (prtStat p) 15 false
      | some j =>
        if s.stage.halt then s
        else
          let m := s.markBits p j q.fit
          let mid := (s.slotAge d j + s.slotAge d (j - 2)) / 2
          let s2 := match q.fit with | some f => s.putFit p f | none => s
          let s3 := (s2.wr (prtBase p + PRT.AGE) ((e.age - mid) * 5 / 2)).setFld (prtStat p) 7 0 m
          let s4 := (s3.setBit (prtStat p) 15 (m == 0)).setBit (prtStat p) 14 (q.selOld != some j)
          s4.breakEvents p j
    let lag := 2 * s.tExc d
    let new := if e.run ∧ lag ≤ e.age ∧ 2 ≤ s.slotAt d (e.age - lag) then some (s.slotAt d (e.age - lag)) else none
    if s.stage.halt then s1
    else
      let keep := match new with | some j => s.slotAge d (j - 2) | none => 0
      s1.onPort p (fun t => { t with
        selOld := t.sel, sel := new, fit := if t.sel = new then t.fit else none, smp := t.smp.filter (fun x => decide (keep ≤ x.2.2)) })

/-- The monitor of a running driver reports the half period that has ended (R292). DESIGN CHOICE (log 55): no command measures the two
amplitudes then, so they are free values. -/
def State.monitor (s : State) (d : Fin 4) : State :=
  let (i, s1) := s.free 16
  let (v, s2) := s1.free 16
  (s2.wr (excBase d + EXC.IAMP) i.toNat).wr (excBase d + EXC.VMEAS) v.toNat

/-- One CORE clock of the drivers (R289); at a slot boundary the settings written to a port come into use (R310). -/
def State.excClock (s : State) : State :=
  let t : State := { s with excs := s.excs.map (fun e => if e.run then { e with age := e.age + 1 } else e) }
  let passed := (List.finRange 4).filter (fun d => t.slotAt d (t.excs[d]).age != s.slotAt d (s.excs[d]).age)
  let t1 : State := { t with seq := { t.seq with
    inUse := t.seq.inUse.filter (fun e => !(portReg e.1 && passed.any (fun d => d.val == (e.1 - 0x0E0000) / 0x200))) } }
  overList passed (fun s d => s.monitor d) t1

/-! ### Meanings -/

/-- EXCITATION_START (R290). -/
def execExcitationStart (d : Fin 4) (s : State) : Host.Outcome State Fault Refusal := .next (s.awake fun s => s.excStart d)
/-- EXCITATION_SETTLED (R290): `iref` and `iph` are the current amplitude and phase of the last period. -/
def execExcitationSettled (d : Fin 4) (iref iph : Nat) (s : State) : Host.Outcome State Fault Refusal := .next (s.awake fun s => s.excSettle d iref iph)
/-- EXCITATION_OPEN (R293). -/
def execExcitationOpen (d : Fin 4) (s : State) : Host.Outcome State Fault Refusal := .next (s.awake fun s => s.excOpen d false)
/-- EXCITATION_OPEN_CLEAR (R293): `iamp` is the current amplitude. -/
def execExcitationOpenClear (d : Fin 4) (iamp : Nat) (s : State) : Host.Outcome State Fault Refusal := .next (s.awake fun s => s.excOpenClear d iamp)
/-- EXCITATION_SHORT (R293): by low voltage, or by the current limit. -/
def execExcitationShort (d : Fin 4) (low : Bool) (s : State) : Host.Outcome State Fault Refusal :=
  .next (s.awake fun s => s.excShort d (if low then 2 else 1))
/-- SLOT_BOUNDARY (R297): the amplitude and means of the window that ends, and its clamped samples. -/
def execSlotBoundary (p : Fin 8) (amp : Nat) (mSin mCos : Int) (cSin cCos : Bool) (s : State) : Host.Outcome State Fault Refusal :=
  .next (s.awake fun s => s.slotBoundary p amp mSin mCos cSin cCos)
/-- PORT_RECOVERY (R303). -/
def execPortRecovery (p : Fin 8) (s : State) : Host.Outcome State Fault Refusal := .next (s.awake fun s => s.portRecover p)
/-- DEMODULATION (R300). -/
def execDemodulation (p : Fin 8) (s : State) : Host.Outcome State Fault Refusal := .next (s.working fun s => s.demodulate p)

end Sys2Proof.Machine
end

