-- ==== Sys2Proof/Machine/ForceCh.lean ====
section
/-! DEFINITION. Force channels: charge arithmetic, publication, range changes, reset and drift, touch detection (R311-R334). -/

namespace Sys2Proof.Machine

/-- The state with channel m changed. -/
def State.onFrc (s : State) (m : Fin 8) (f : Force → Force) : State := { s with frcs := vupd s.frcs m f }
/-- The address of FSTAT of channel m. -/
def fstat (m : Fin 8) : Nat := frcBase m + FRC.FSTAT
/-- A field of FCFG of channel m as the running tick uses it (R334). -/
def State.fcfg (s : State) (m : Fin 8) (i : Nat) : Bool := (s.rdu (frcBase m + FRC.FCFG)).testBit i
/-- Channel m is enabled (R313). -/
def State.frcOn (s : State) (m : Fin 8) : Bool := s.bit (frcBase m + FRC.FCFG) 7
/-- The axis that owns channel m (R61). -/
def State.frcAxis (s : State) (m : Fin 8) : Option (Fin 12) := allAxes.find? (fun n => (s.recd n).fmask.testBit m)
/-- The axis of a channel as the binding of an event. -/
def State.frcBind (s : State) (m : Fin 8) : Bind := match s.frcAxis m with | some n => .axis n | none => .noAxis
/-- The present range. -/
def State.frcRange (s : State) (m : Fin 8) : Nat := s.fld (fstat m) 1 0
/-- Channel m is the yield source of an axis in YIELD (R325, R329). -/
def State.yieldSource (s : State) (m : Fin 8) : Bool := allAxes.any (fun n => s.st n == .yield && (s.recd n).ysrc == m.val)
/-- OFS of channel m [qc]. -/
def State.frcOfs (s : State) (m : Fin 8) : Int := s.rdI 32 (frcBase m + FRC.OFS)

/-- A value of Q or OFS saturated to 32 bits; a saturation sets qsat (R314). -/
def State.qSat (s : State) (m : Fin 8) (x : Int) : Int × State :=
  if satI 32 x = x then (x, s) else (satI 32 x, s.flag (fstat m) 6)

/-- OFS of channel m takes a value (R314). -/
def State.setOfs (s : State) (m : Fin 8) (x : Int) : State :=
  let (v, t) := s.qSat m x
  t.wrI 32 (frcBase m + FRC.OFS) v

/-! ### Touch (R326, R327) -/

/-- The charge counts as a touch of the configured sign (R326). -/
def State.touchHit (s : State) (m : Fin 8) (q : Int) : Bool :=
  let d := s.fldu (frcBase m + FRC.FCFG) 3 2
  decide ((s.rd (frcBase m + FRC.TTHR) : Int) ≤ q.natAbs) && (d == 0 || (d == 1 && decide (0 < q)) || (d == 2 && decide (q < 0)))

/-- A touch sets on channel m (R327): the axis reaction is due at the next edge. -/
def State.touchSetOn (s : State) (m : Fin 8) : State :=
  let f := s.frcs[m]
  if s.bit (fstat m) 14 ∨ !s.frcOn m ∨ f.on < s.rd (frcBase m + FRC.TN) then s
  else
    let s1 := (((s.setBit (fstat m) 14 true).flag (fstat m) 13).bump (frcBase m + FRC.TCNT)).onFrc m (fun g => { g with on := 0, off := 0, retract := true })
    s1.log 0x0B01 m (if f.q < 0 then 1 else 0) (s.frcBind m)

/-- The standing touch of channel m releases (R326). -/
def State.touchOff (s : State) (m : Fin 8) : State :=
  let f := s.frcs[m]
  if !s.bit (fstat m) 14 ∨ f.off < s.rd (frcBase m + FRC.TN) then s
  else (s.setBit (fstat m) 14 false).onFrc m (fun g => { g with on := 0, off := 0 })

/-- The touch test of one usable sample (R326). -/
def State.touchTest (s : State) (m : Fin 8) (q : Int) : State :=
  if !s.fcfg m 0 then s
  else if s.bit (fstat m) 14 then
    let low := decide (q.natAbs < s.rd (frcBase m + FRC.TREL))
    (s.onFrc m (fun g => { g with off := if low then g.off + 1 else 0 })).touchOff m
  else (s.onFrc m (fun g => { g with on := if s.touchHit m q then g.on + 1 else 0 })).touchSetOn m

/-- One converted sample of channel m (R314, R315, R320): `marked` it carries the settle mark. -/
def State.frcSample (s : State) (m : Fin 8) (x : Int) (marked : Bool) : State :=
  if !s.frcOn m ∨ marked ∨ 0 < (s.frcs[m]).settle then s
  else
    let s0 := s.wrI 16 (frcBase m + FRC.FRAW) x
    if 8064 ≤ x.natAbs then
      ((s0.flag (fstat m) 9).setBit (fstat m) 10 true).onFrc m (fun g => { g with clamped := true, xLast := x })
    else
      let (q, s1) := s0.qSat m (x * 4 * 10 ^ s.frcRange m + s.frcOfs m)
      (s1.onFrc m (fun g => { g with q := q, sumQ := g.sumQ + q, n := g.n + 1, xMax := max g.xMax x.natAbs, xLast := x })).touchTest m q

/-- The urgent conversion of the held output of a step down (R318). -/
def State.frcHeld (s : State) (m : Fin 8) (x : Int) : State :=
  match (s.frcs[m]).held with
  | some (r, r') =>
    (s.setOfs m (s.frcOfs m + x * 4 * (10 ^ r - 10 ^ r'))).onFrc m (fun g => { g with held := none, settle := g.settle + 800 })
  | none => s

/-! ### Publication (R316) -/

/-- Channel m publishes its tick at an edge (R316); a touch or an invalid value ends the quiet run (R325). -/
def State.frcPublish (s : State) (m : Fin 8) : State :=
  if !s.frcOn m then s else
  let f := s.frcs[m]
  let b := frcBase m
  let s1 :=
    if f.n = 0 then s.setBit (fstat m) 15 false
    else
      let fq := Int.tdiv f.sumQ f.n
      let g := fq * (if s.fcfg m 4 then -1 else 1)
      let force := satI 16 (Int.tdiv (g * s.rd (b + FRC.FSENS)) (2 ^ 20))
      ((s.wrI 32 (b + FRC.FQ) fq).wrI 16 (b + FRC.FORCE) force).setBit (fstat m) 15 (!s.bit (fstat m) 10)
  let s2 := s1.wr (b + FRC.NSMP) f.n
  let calm := s2.bit (fstat m) 15 && decide ((s2.rdI 32 (b + FRC.FQ)).natAbs ≤ s.rd (b + FRC.RSTBAND))
  let low := decide (0 < f.n) && decide (f.xMax < 410)
  (s2.setBit (fstat m) 8 (s2.bit (fstat m) 8 && decide (7373 ≤ f.xMax))).onFrc m (fun g => { g with
    quiet := if calm then g.quiet + 1 else 0, down := if low then g.down + 1 else 0 })

/-! ### Range changes (R317-R322) -/

/-- Channel m takes range r' in clock 0 of an edge (R317, R318, R321, R322): `why` is bits 9:8 of the log. -/
def State.frcStep (s : State) (m : Fin 8) (r' : Nat) (why : Nat) : State :=
  let r := s.frcRange m
  if r = r' then s else
  let b := frcBase m
  let s1 := (((s.setFld (fstat m) 1 0 r').flag (fstat m) 7).bump (b + FRC.RNGCNT)).setBit (fstat m) 8 false
  let s2 := s1.onFrc m (fun g => { g with
    settle := max g.settle (if r < r' then 1600 else 800), held := if r' < r then some (r, r') else g.held, down := 0, quiet := 0 })
  let s3 := if r' < r then s2.request (12 + m) 2 60 else s2
  if why ≠ 0 ∨ s.fcfg m 1 then s3.log 0x0B02 m (r * 16 + r' + why * 256) (s.frcBind m) else s3

/-- The reset of channel m at an edge (R323), lasting `settle` clocks with the switch closed for `closed`. -/
def State.frcReset (s : State) (m : Fin 8) (settle closed : Nat) : State :=
  let s1 := ((s.wr (frcBase m + FRC.OFS) 0).setBit (fstat m) 10 false).setBit (fstat m) 8 false
  s1.onFrc m (fun g => { g with
    q := 0, frac := 0, on := 0, off := 0, down := 0, quiet := 0, settle := settle, resetting := closed, held := none, clamped := false })

/-- Automatic reset is due (R325). -/
def State.autoResetDue (s : State) (m : Fin 8) : Bool :=
  s.frcOn m && s.fcfg m 5 && decide (s.rd (frcBase m + FRC.RSTQT) ≤ (s.frcs[m]).quiet) && !s.bit (fstat m) 14 && !s.yieldSource m

/-- The automatic reset (R325). -/
def State.autoReset (s : State) (m : Fin 8) : State := if s.autoResetDue m then s.frcReset m 8000 3200 else s

/-- A command of channel m as it applies at its edge (R94, R333). -/
def State.frcCmd (s : State) (m : Fin 8) (op arg : Nat) : Status × State :=
  if !s.frcOn m then (.state, s)
  else match op with
  | 1 =>
    if s.bit (fstat m) 14 ∨ 0 < (s.frcs[m]).resetting ∨ s.yieldSource m then (.state, s)
    else if arg ≠ 0 then (.range, s) else (.done, s.frcReset m 8000 3200)
  | 2 =>
    let r := s.frcRange m
    let x := (s.frcs[m]).xLast.natAbs
    let wouldClamp := decide (8064 * 10 ^ arg ≤ x * 10 ^ r)
    if s.yieldSource m ∧ arg ≤ 3 ∧ wouldClamp ∧ !s.fcfg m 6 then (.state, s)
    else if 3 < arg then (.range, s)
    else (.done, (s.frcStep m arg 1).onFrc m (fun g => { g with down := 0 }))
  | _ => (.unknown, s)

/-- A pending command of channel m applies at the edge (R333); a writer that the map no longer admits to the block is refused with WORLD (R468). -/
def State.frcApply (s : State) (m : Fin 8) (c : PendCmd) : State :=
  let s0 := (s.onFrc m (fun g => { g with cmd := none })).setBit (fstat m) 5 false
  let (st, t) := if s0.mayAccess c.acc (24 + m) then s0.frcCmd m c.op c.arg else (.world, s0)
  t.finish (frcBase m + FRC.FCMDSTAT) (24 + m) c.op c.arg c.acc st

/-- What channel m does in clock 0 of an edge, after step 8 of R39 (R319, R320, R324, R325, R328, R333). -/
def State.frcEdge (s : State) (m : Fin 8) : State :=
  if !s.frcOn m then (match (s.frcs[m]).cmd with | some c => s.frcApply m c | none => s) else
  let f := s.frcs[m]
  let b := frcBase m
  let d := f.frac + s.rdI 32 (b + FRC.DRIFT)
  let s1 := (s.setOfs m (s.frcOfs m - fdiv d 4096)).onFrc m (fun g => { g with frac := d % 4096 })
  let r := s.frcRange m
  let up := decide (7373 ≤ f.xMax)
  let clr (s : State) : State := s.onFrc m (fun g => { g with sumQ := 0, n := 0, xMax := 0, clamped := false })
  match f.cmd with
  | some c => clr ((s1.frcApply m c).onFrc m (fun g => { g with down := 0 }))
  | none =>
    if s1.autoResetDue m then clr ((s1.autoReset m).onFrc m (fun g => { g with down := 0 }))
    else if f.clamped then clr (if r < 3 then s1.frcStep m (r + 1) 2 else s1)
    else if s.fcfg m 6 ∧ up then clr (if r < 3 then s1.frcStep m (r + 1) 0 else s1.setBit (fstat m) 8 true)
    else if s.fcfg m 6 ∧ 16 ≤ f.down ∧ 0 < r then clr (s1.frcStep m (r - 1) 0)
    else clr s1

/-- One CORE clock of the channels: settle and reset times (R321, R323). -/
def State.frcClock (s : State) : State :=
  let s1 := { s with frcs := s.frcs.map (fun g => { g with settle := g.settle - 1, resetting := g.resetting - 1 }) }
  (List.finRange 8).foldl (fun s m =>
    if s.bit (fstat m) 12 != decide (0 < (s.frcs[m]).settle) ∨ s.bit (fstat m) 11 != decide (0 < (s.frcs[m]).resetting) then
      (s.setBit (fstat m) 12 (decide (0 < (s.frcs[m]).settle))).setBit (fstat m) 11 (decide (0 < (s.frcs[m]).resetting))
    else s) s1

/-- A channel starts with its image: range 0 and a reset of 200 µs (R313). -/
def State.frcStart (s : State) (m : Fin 8) : State :=
  ((s.onFrc m (fun _ => { Force.start with settle := 80000, resetting := 80000 })).wr (frcBase m + FRC.OFS) 0).setFld (fstat m) 1 0 0

/-! ### Meanings -/

/-- AUTO_RESET (R325). -/
def execAutoReset (m : Fin 8) (s : State) : Host.Outcome State Fault Refusal := .next (s.awake fun s => s.autoReset m)
/-- TOUCH_RELEASE (R326). -/
def execTouchRelease (m : Fin 8) (s : State) : Host.Outcome State Fault Refusal := .next (s.awake fun s => s.touchOff m)
/-- RESET of a force channel, as it applies at its edge (R323, R333). -/
def execForceReset (m : Fin 8) (acc : Fin 15) (arg : Byte) (s : State) : Host.Outcome State Fault Refusal :=
  .next (s.awake fun s => s.frcApply m ⟨1, arg.toNat, acc⟩)
/-- RANGE of a force channel, as it applies at its edge (R333). -/
def execForceRange (m : Fin 8) (acc : Fin 15) (arg : Byte) (s : State) : Host.Outcome State Fault Refusal :=
  .next (s.awake fun s => s.frcApply m ⟨2, arg.toNat, acc⟩)

end Sys2Proof.Machine
end

