-- ==== Sys2Proof/Machine/Conversion.lean ====
section
/-! DEFINITION. Current modulators and SAR converters: period averages, failures, sequences, delivery, the cross-check,
failover, urgent requests and the commands of ACMD (R335-R371). -/

namespace Sys2Proof.Machine

/-! ### Modulators (R335-R343) -/

/-- The address of MSTAT of modulator i. -/
def mstat (i : Fin 24) : Nat := modBase i + MOD.MSTAT
/-- The axis of a modulator as the binding of an event (R482). -/
def State.modBind (s : State) (i : Nat) : Bind := match s.modAxis i with | some (n, _) => .axis n | none => .noAxis

/-- The nearest whole number; the spec does not say which way a tie goes (`site` names the place). -/
def nearO (site : Nat) (x : Rat) : Int := if x - x.floor = 1 / 2 then rnd site x else nearestR x

/-- Modulator i starts with its integrator states at 0 and a settle time of 2 µs (R336). -/
def State.modStart (s : State) (i : Fin 24) : State :=
  let s1 := s.onMod i (fun m => { m with
    running := true, settle := 800, dirty := true, bad := false, s1 := 0, restart := false, window := s.fld (modBase i + MOD.MCFG) 7 0 })
  (s1.setBit (mstat i) 12 true).setBit (mstat i) 11 true

/-- Modulator i stops (R336). -/
def State.modStop (s : State) (i : Fin 24) : State :=
  let s1 := s.onMod i (fun m => { Modu.start with fails := m.fails, dead := m.dead })
  (s1.setBit (mstat i) 12 false).setBit (mstat i) 11 false

/-- The dead bit of modulator i in its two registers (R342). -/
def State.showDead (s : State) (i : Fin 24) (x : Bool) : State :=
  let s1 := (s.onMod i (fun m => { m with dead := x })).setBit (mstat i) 13 x
  if i.val < 16 then s1.setBit (modbA MODB.MDEADA) i x else s1.setBit (modbA MODB.MDEADB) (i - 16) x

/-- A check of R342 fails on a running modulator: the fourth failure within 256 ticks stops it for good. An overload suspends the
stuck check (R341). -/
def State.modFail (s : State) (i : Fin 24) (cause : Nat) : State :=
  let m := s.modu i
  if !m.running ∨ m.dead ∨ (cause = 1 ∧ s.bit (mstat i) 10) then s
  else
    let s1 := (((s.onMod i (fun m => { m with bad := true, fails := 0 :: m.fails, restart := true })).flag (mstat i) 15).setFld (mstat i) 2 0
      cause).bump (modBase i + MOD.FAILCNT)
    let s2 := (s1.life 14).log 0x0302 i cause (s1.modBind i)
    if 3 ≤ m.fails.length then
      ((s2.showDead i true).onMod i (fun m => { m with running := false, restart := false })).setBit (mstat i) 12 false
    else s2

/-- The average of a part of `p` units with sum `bits` and state change `ds` (R338). -/
def average (site : Nat) (bits ds : Int) (p : Rat) : Int :=
  if p = 0 then 0 else nearO site (40960 * ((bits : Rat) / 256 + (ds : Rat) / 64) / (p / 256))

/-- An interval of modulator i ends (R338-R343): the average and the window figure are published with their marks. -/
def State.closeInterval (s : State) (i : Fin 24) (v : Interval) : State :=
  let m0 := s.modu i
  if !m0.running ∧ !m0.dead then s
  else
    let b := modBase i
    let far := decide ((256 : Int) < ((v.n : Int) * 256 - v.p).natAbs)
    let s0 := if 256 < v.s1.natAbs then s.modFail i 2 else if far then s.modFail i 3 else s
    let m := s0.modu i
    let avg := average 70 v.bits (v.s1 - m.s1) v.p
    let inv := m.dead || m.bad || m.dirty || decide (0 < m.settle)
    let sat := decide (32768 ≤ avg) || decide (avg ≤ -32768)
    let a := satI 16 avg
    let w := satI 16 (average 71 v.wBits v.wState ((v.p : Rat) * m.window / 256))
    let k := m.runs.length % 4
    let hi := (if inv then 2 ^ 14 else 0) + (if sat then 2 ^ 13 else 0) + k * 2 ^ 11 + s0.tim.tick.toNat % 2048
    let rec_ : Nat := (a % 65536).toNat + (w % 65536).toNat * 65536 + hi * 2 ^ 32
    let s1 := (((s0.wr (b + MOD.PAVG) rec_).replaced (b + MOD.PAVG)).wr (b + MOD.NSMP) (v.n % 65536)).onMod i (fun m =>
      { m with
        runs := (a, inv) :: m.runs, dirty := decide (0 < m.settle), bad := false, s1 := v.s1, window := s0.fld (b + MOD.MCFG) 7 0 })
    let s2 := (s1.setBit (mstat i) 9 inv).setBit (mstat i) 10 v.ovl
    if sat then (s2.flag (mstat i) 14).bump (b + MOD.SATCNT) else s2

/-- The edge of modulator i (R340, R342, R367): its averages are handed over, and a restart that waits takes place. -/
def State.modEdge (s : State) (i : Fin 24) : State :=
  let m := s.modu i
  let s1 := s.onMod i (fun m => { m with tick := m.runs.reverse, runs := [], fails := (m.fails.map (· + 1)).filter (· < 256) })
  if m.restart then s1.modStart i else s1

/-- One CORE clock of the modulators: the settle times (R336). -/
def State.modClock (s : State) : State :=
  let s1 := { s with mods := s.mods.map (fun m => { m with settle := m.settle - 1 }) }
  overList ((List.finRange 24).filter (fun i => (s.mods[i]).settle == 1)) (fun s i => s.setBit (mstat i) 11 false) s1

/-- An MCLR restart of modulator i (R367): accepted only while it is dead and its axis is in OFF, MUTE or FAULT. -/
def State.modRestart (s : State) (i : Fin 24) : Status × State :=
  let still := match s.modAxis i with
    | some (n, _) => s.st n == .off || s.st n == .mute || s.st n == .fault
    | none => false
  if (s.modu i).dead && still then (.done, (s.showDead i false).onMod i (fun m => { m with restart := true, fails := [] }))
  else (.state, s)

/-- Bit 0 of MCLR clears the counts of modulator i (R366). -/
def State.modCountClear (s : State) (i : Fin 24) : State := (s.wr (modBase i + MOD.FAILCNT) 0).wr (modBase i + MOD.SATCNT) 0

/-! ### Converters: sequences and results (R344-R355) -/

/-- The state with converter c changed. -/
def State.onAdc (s : State) (c : Fin 2) (f : Adc → Adc) : State := { s with adcs := vupd s.adcs c f }
/-- The address of ASTAT of converter c. -/
def astat (c : Fin 2) : Nat := adcBase c + ADC.ASTAT
/-- The role of converter c: 0 normal, 1 survivor, 2 failed, 3 offline (R369). -/
def State.adcRole (s : State) (c : Fin 2) : Nat := s.fld (astat c) 15 14
/-- The other converter. -/
def otherAdc (c : Fin 2) : Fin 2 := if c = 0 then 1 else 0
/-- The sequence of converter c (R346). -/
def State.seqOf (s : State) (c : Fin 2) : List Nat := (s.img.sar[c.val]?).getD []
/-- The multiplexer input of a sequence entry (R368). -/
def entInput (e : Nat) : Nat := fld e 13 8
/-- The owner of a sequence entry. -/
def entOwner (e : Nat) : Nat := e % 256

/-- The set of axes that own entries of converter c (R481). -/
def State.adcOwners (s : State) (c : Fin 2) : List (Fin 12) := allAxes.filter (fun n => (s.seqOf c).any (fun e => entOwner e == n.val))

/-- The word RES_L of a result (R369), also the form of URES_L. -/
def resWord (x : Int) (settle : Bool) : Nat :=
  (if 8064 ≤ x.natAbs then 2 ^ 15 else 0) + (if settle then 2 ^ 14 else 0) + (x % 16384).toNat

/-- Whether a conversion of `input` sampled now carries the settle mark of its filter or pin (R354). -/
def State.inputSettling (s : State) (input : Nat) : Bool :=
  let j := if 24 ≤ input ∧ input < 32 then some (input - 24) else if 58 ≤ input ∧ input < 62 then some (input - 50) else none
  match j with
  | some j => decide (0 < (s.conv.inSettle.toList[j]?).getD 0)
  | none => if h : 16 ≤ input ∧ input < 24 then decide (0 < (s.frcs[input - 16]).settle) else false

/-- The age of the driver whose port an input belongs to. -/
def State.inputAge (s : State) (input : Nat) : Nat := if h : input < 16 then (s.excs[input % 8 / 2]).age else 0

/-- A host urgent result is written and reported (R353). -/
def State.hostResult (s : State) (c : Fin 2) (input : Nat) (x : Int) (settle : Bool) : State :=
  ((s.wr (adcBase c + ADC.URES) (resWord x settle + input * 65536)).replaced (adcBase c + ADC.URES)).cmdstat (adcBase c + ADC.ACMDSTAT) (32 + c) 1 .done

/-- A sample reaches the consumer of its input (R350): port, force channel, VM reading or thermal monitor. -/
def State.consume (s : State) (q : Sample) : State :=
  if h : q.input < 16 then
    let p : Fin 8 := ⟨q.input % 8, by omega⟩
    if q.settle then s else s.onPort p (fun t => { t with smp := (decide (8 ≤ q.input), q.x, q.age) :: t.smp })
  else if h : 16 ≤ q.input ∧ q.input < 24 then s.frcSample ⟨q.input - 16, by omega⟩ q.x q.settle
  else if q.input = 32 ∧ !q.settle then { s with conv := { s.conv with vmSum := s.conv.vmSum + 5 * q.x, vmN := s.conv.vmN + 1 } }
  else if 38 ≤ q.input ∧ q.input < 48 then s.wrI 16 (devA DEV.TJG + 4 * (q.input - 38)) (Config.thermal (q.input - 38) q.x)
  else if q.input = 48 then s.wrI 16 (cmpA CMP.TJDIE) (Config.thermal 10 q.x)
  else s

/-- A held sample of converter c is delivered (R350, R355). -/
def State.deliverOne (c : Fin 2) (s : State) (q : Sample) : State :=
  match q.kind with
  | 2 => if h : q.e < 8 then s.frcHeld ⟨q.e, h⟩ q.x else s
  | 3 => s.hostResult c q.input q.x q.settle
  | k =>
    let a := adcBase k + ADC.RES + 8 * q.e
    ((s.wr a (resWord q.x q.settle + (s.rd a / 65536 + 1) % 16384 * 65536)).replaced a).consume q

/-- Every held sample of converter c is delivered at the end of the slot of a passing reference (R350). -/
def State.deliver (s : State) (c : Fin 2) : State :=
  let l := (s.adcs[c]).held
  overList l (State.deliverOne c) (s.onAdc c (fun a => { a with held := [] }))

/-- A held sample of converter c is discarded (R360); what an urgent request held is asked for again. -/
def State.discardOne (c : Fin 2) (s : State) (q : Sample) : State :=
  match q.kind with
  | 2 => s.onAdc c (fun a => { a with queue := a.queue ++ [(false, q.e)] })
  | 3 => s.onAdc c (fun a => { a with queue := a.queue ++ [(true, q.e)] })
  | k =>
    let r := adcBase k + ADC.RES + 8 * q.e
    let n := (s.rd r / 65536 + 1) % 16384
    (((s.wr r (s.rd r % 65536 + (n + 16384) * 65536)).replaced r).bump (adcBase c + ADC.DISCCNT)).flag (astat c) 11

/-- UPEND shows the length of the urgent queue (R368). -/
def State.showQueue (s : State) (c : Fin 2) : State := s.wr (adcBase c + ADC.UPEND) (s.adcs[c]).queue.length

/-- The samples that converter c holds are discarded as it goes out (R360), and its urgent requests move to `b` (R359). -/
def State.adcEmpty (s : State) (c : Fin 2) (b : Option (Fin 2)) : State :=
  let l := (s.adcs[c]).held
  let s1 := overList l (State.discardOne c) (s.onAdc c (fun a => { a with held := [] }))
  match b with
  | some b =>
    let q := (s1.adcs[c]).queue
    let acc := (s1.adcs[c]).hostAcc
    let s2 := (s1.onAdc c (fun a => { a with queue := [] })).onAdc b (fun a => { a with
      queue := a.queue ++ q, hostAcc := if q.any (fun x => x.1) then acc else a.hostAcc })
    (s2.showQueue c).showQueue b
  | none => s1.showQueue c

/-- Failover (R359): `b` becomes the survivor and takes over the sequence of the other converter from its entry 0. -/
def State.failover (s : State) (b : Fin 2) : State :=
  let s1 := (s.setFld (astat b) 15 14 1).onAdc b (fun a => { a with adopt := 0, foLog := true })
  { s1 with seq := { s1.seq with failLeft := s1.rd (timA TIM.FOSHARE) } }

/-- Converter c fails (R358). -/
def State.adcFail (s : State) (c : Fin 2) (cause : Nat) (r : Int) : State :=
  if 2 ≤ s.adcRole c then s
  else
    let b := otherAdc c
    let fit := s.adcRole b == 0
    let s1 := (((s.flag (astat c) 12).setFld (astat c) 15 14 2).setFld (astat c) 3 0 cause).life 14
    let s2 := s1.log 0x0301 (cause * 256 + c) (r % 65536).toNat (.set (s.adcOwners c))
    let s3 := s2.adcEmpty c (if fit then some b else none)
    if fit then s3.failover b else s3

/-- The latest reference result of converter c, if it was delivered within the last tick (R356). -/
def State.recentRef (s : State) (c : Fin 2) : Option Int :=
  let a := s.adcs[c]
  if a.refEdge = 0 ∨ (a.refEdge = 1 ∧ s.tim.clk ≤ a.refClk) then a.ref else none

/-- A reference conversion of converter c reads r (R356, R357). -/
def State.reference_ (s : State) (c : Fin 2) (r : Int) (adopted : Bool) : State :=
  let b := otherAdc c
  let exp : Int := s.rd (adcBase c + ADC.REFEXP)
  let tol := s.rd (adcBase c + ADC.REFTOL)
  let off (x : Int) : Bool := decide (tol < (x - exp).natAbs)
  let prev := s.recentRef b
  let s1 := (s.wrI 16 (adcBase c + ADC.REFRES) r).onAdc c (fun a => { a with ref := some r, refEdge := 0, refClk := s.tim.clk })
  let bad := s.bit (astat c) 13
  if !off r then
    ((if bad then (s1.setBit (astat 0) 13 false).setBit (astat 1) 13 false else s1)).deliver c
  else if adopted ∨ 2 ≤ s.adcRole b then s1.adcFail c 1 r
  else match prev with
    | none => s1.adcFail c 1 r
    | some q =>
      if !off q then s1.adcFail c 1 r
      else if 2 * (r - q).natAbs ≤ tol then
        if bad then s1.deliver c
        else
          let s2 := overList [0, 1] (fun s (k : Fin 2) => (s.setBit (astat k) 13 true).setFld (astat k) 3 0 4) s1
          (s2.log 0x0301 0x0402 (r % 65536).toNat
            (.set (allAxes.filter (fun n => (s.adcOwners 0).contains n || (s.adcOwners 1).contains n)))).deliver c
      else (s1.adcFail b 3 q).adcFail c 3 r

/-- An entry loses one of the settle-marked conversions it still has (R354). -/
def takeYoung (l : List (Nat × Nat)) (k : Nat) : List (Nat × Nat) :=
  (l.map (fun x => if x.1 = k then (x.1, x.2 - 1) else x)).filter (fun x => decide (0 < x.2))

/-- Converter c ends the slot of its next entry (R345, R359): `x` is the code, or none when the conversion did not complete (R357). -/
def State.sarSlot (s : State) (c : Fin 2) (x : Option Int) : State :=
  let role := s.adcRole c
  let a := s.adcs[c]
  let adopted := role == 1 && a.idx % 2 == 1
  let w := if adopted then otherAdc c else c
  let seq := s.seqOf w
  if !s.img.active ∨ 2 ≤ role ∨ seq = [] then s
  else match x with
  | none => s.adcFail c 2 (a.ref.getD 0)
  | some x0 =>
    let e := (if adopted then a.adopt else a.pos) % seq.length
    let ent := (seq[e]?).getD 0
    let inp := entInput ent
    let isRef := inp == 63
    let inj := isRef && s.flt.injSar.contains c.val
    let x := clampI (if inj then s.rd (adcBase c + ADC.REFEXP) + 4 * s.rd (adcBase c + ADC.REFTOL) else x0) (-8192) 8191
    let key := w.val * 32 + e
    let settle := a.young.any (fun y => y.1 == key) || s.inputSettling inp
    let s1 := s.onAdc c (fun a => { a with
      held := a.held ++ [⟨w, e, inp, x, settle, s.inputAge inp - 39⟩], young := takeYoung a.young key, idx := a.idx + 1,
      slotAt := a.slotAt + 40, slots := a.slots + 1, pos := if adopted then a.pos else (e + 1) % seq.length,
      adopt := if adopted then (e + 1) % seq.length else a.adopt, foLog := a.foLog && !adopted })
    let s2 := if adopted ∧ a.foLog then s1.log 0x0303 c w .device else s1
    let s3 := if inj then s2.onFlt (fun f => { f with injSar := f.injSar.erase c.val }) else s2
    if isRef then s3.injected inj (fun s => s.reference_ c x adopted) else s3

/-! ### Urgent requests (R352, R353) -/

/-- An urgent request joins the queue of converter c (R352): the conversion that runs in the next clock is abandoned. -/
def State.urgentAdd (s : State) (c : Fin 2) (q : Bool × Nat) : State :=
  let a := s.adcs[c]
  let runs := s.img.active && decide (s.adcRole c < 2) && decide (s.seqOf c ≠ [])
  let abort := runs && decide (a.queue = []) && decide (a.slotAt ≤ s.tim.clk) && decide (a.slotAt + 39 < s.tpr)
  let s1 := s.onAdc c (fun a => { a with
    queue := a.queue ++ [q], slotAt := if a.queue = [] then max (if abort then 0 else a.slotAt) (s.tim.clk + 1) else a.slotAt })
  (if abort then s1.bump (adcBase c + ADC.ABORTCNT) else s1).showQueue c

/-- The converter that takes the step down of channel m (R352): the one whose sequence holds the channel's first entry, or the survivor. -/
def State.stepDownAdc (s : State) (m : Fin 8) : Fin 2 :=
  let c : Fin 2 := if (s.seqOf 0).any (fun e => entInput e == 16 + m.val) then 0 else 1
  if 2 ≤ s.adcRole c then otherAdc c else c

/-- The step downs of this edge are queued (R318, R352). -/
def State.queueStepDowns (s : State) : State :=
  overList (List.finRange 8) (fun s m =>
    let waits := (List.finRange 2).any (fun c => (s.adcs[c]).queue.contains (false, m.val) ||
      (s.adcs[c]).held.any (fun q => q.kind == 2 && q.e == m.val))
    if (s.frcs[m]).held.isSome && !waits then s.urgentAdd (s.stepDownAdc m) (false, m) else s) s

/-- Converter c ends the conversion of its oldest urgent request with code x (R352). -/
def State.urgentSlot (s : State) (c : Fin 2) (x : Int) : State :=
  match (s.adcs[c]).queue with
  | [] => s
  | (host, k) :: t =>
    if 2 ≤ s.adcRole c then s
    else
      let inp := if host then k else 16 + k
      let s1 := s.onAdc c (fun a => { a with
        queue := t, held := a.held ++ [⟨if host then 3 else 2, k, inp, clampI x (-8192) 8191, s.inputSettling inp, 0⟩],
        slotAt := a.slotAt + 40, slots := a.slots + 1 })
      s1.showQueue c

/-! ### Commands (R353, R361, R370) -/

/-- A command of ACMD on converter c, judged at once (R370): URGENT and RECHECK that are accepted report later. DESIGN CHOICE (log 48): an
urgent conversion belongs to no axis, and in the request order of R42 that of a force channel's step-down has place 12 + m and that of the
host place 20 + c, behind every axis; neither holds back a commit. -/
def State.adcCmd (s : State) (c : Fin 2) (op arg acc : Nat) : Option Status × State :=
  let a := s.adcs[c]
  let role := s.adcRole c
  match op with
  | 1 =>
    if 2 ≤ role then (some .state, s)
    else if 64 ≤ arg ∨ (49 ≤ arg ∧ arg ≤ 57) then (some .range, s)
    else if a.hostTaken ∨ 4 ≤ a.queue.length then (some .full, s)
    else
      let s1 := (s.urgentAdd c (true, arg)).onAdc c (fun a => { a with hostTaken := true, hostAcc := acc })
      (none, s1.request (20 + c) 2 60)
  | 2 =>
    if role < 2 then (some .state, s)
    else if arg ≠ 0 then (some .range, s)
    else (none, s.onAdc c (fun a => { a with recheck := true }))
  | 3 =>
    if role ≠ 0 ∨ s.adcRole (otherAdc c) ≠ 0 then (some .state, s)
    else if arg ≠ 0 then (some .range, s)
    else (some .done, ((s.setFld (astat c) 15 14 3).adcEmpty c (some (otherAdc c))).failover (otherAdc c))
  | _ => (some .unknown, s)

/-- A write of ACMD (R370). -/
def State.adcCommand (s : State) (c : Fin 2) (op arg acc : Nat) : State :=
  match s.adcCmd c op arg acc with
  | (some st, t) => t.finish (adcBase c + ADC.ACMDSTAT) (32 + c) op arg acc st
  | (none, t) => t

/-- The recheck of converter c ends (R361). -/
def State.recheckEnd (s : State) (c : Fin 2) (ok : Bool) : State :=
  if !(s.adcs[c]).recheck then s
  else
    let s1 := s.onAdc c (fun a => { a with recheck := false, rejoin := ok })
    if ok then s1 else s1.cmdstat (adcBase c + ADC.ACMDSTAT) (32 + c) 2 .locked

/-! ### The edge and the clock -/

/-- The first conversions of every entry of converter c carry the settle mark (R354). -/
def State.allYoung (s : State) (c : Fin 2) (k : Nat) : List (Nat × Nat) :=
  (List.range (s.seqOf c).length).map (fun e => (c.val * 32 + e, k))

/-- Converter c rejoins (R361): both sequences run at full rate from entry 0. -/
def State.adcRejoin (s : State) (c : Fin 2) : State :=
  let b := otherAdc c
  let s1 := (s.setFld (astat c) 15 14 0).setFld (astat b) 15 14 (if s.adcRole b = 1 then 0 else s.adcRole b)
  let s2 := s1.onAdc c (fun a => { a with rejoin := false, young := s.allYoung c 2 })
  (s2.onAdc b (fun a => { a with foLog := false })).cmdstat (adcBase c + ADC.ACMDSTAT) (32 + c) 2 .done

/-- The wrap of the sequences at an edge (R345, R39 step 4): entries left over are skipped; a converter that passed its recheck rejoins. -/
def State.adcWrap (s : State) (c : Fin 2) : State :=
  let a := s.adcs[c]
  let role := s.adcRole c
  let skip := s.img.active && decide (role < 2) && (decide (a.pos ≠ 0) || (role == 1 && decide (a.adopt ≠ 0)))
  let s1 := if skip then (s.flag (astat c) 10).bump (adcBase c + ADC.SKIPCNT) else s
  let s2 := (s1.wr (adcBase c + ADC.SLOTS) a.slots).onAdc c (fun a => { a with
    pos := 0, adopt := 0, idx := 0, slotAt := 1, slots := 0, hostTaken := false, refEdge := a.refEdge + 1 })
  if a.rejoin then s2.adcRejoin c else s2

/-- The VM reading of the past tick (R351). -/
def State.vmEdge (s : State) : State :=
  let k := s.conv
  let s1 := { s with conv := { s.conv with vmSum := 0, vmN := 0 } }
  if k.vmN = 0 then s1.wr (adcBase 0 + ADC.VMSTAT) 1
  else (s1.wrI 16 (adcBase 0 + ADC.VM) (rnd 72 ((k.vmSum : Rat) / k.vmN))).wr (adcBase 0 + ADC.VMSTAT) 0

/-- One CORE clock of the filtered inputs' settle times (R354). -/
def State.convClock (s : State) : State := { s with conv := { s.conv with inSettle := s.conv.inSettle.map (· - 1) } }

/-- Input j of R348 settles for at least `t` CORE clocks (R354). -/
def State.settleInput (s : State) (j t : Nat) : State :=
  { s with conv := { s.conv with inSettle := Vector.ofFn (fun (i : Fin 12) => if i.val = j then max t s.conv.inSettle[i] else s.conv.inSettle[i]) } }

/-- The settle time of a filter code [CORE clocks] (R354). -/
def filtTime : Nat → Nat
  | 0 => 0 | 1 => 160 | 2 => 800 | _ => 4000

/-- The converters take the sequences of the active image (R355, R361, R368). -/
def State.adcStart (s : State) (c : Fin 2) (full : Bool) (old : List Nat) : State :=
  let q := s.seqOf c
  let s1 := s.wr (adcBase c + ADC.SEQLEN) q.length
  let s2 := overList (List.range 32) (fun s e => s.wr (adcBase c + ADC.ENT + 4 * e) ((q[e]?).getD 0)) s1
  if full then
    let s3 := ((s2.setFld (astat c) 15 14 0).setBit (astat c) 13 false).onAdc c (fun _ => { Adc.start with young := s.allYoung c 2 })
    (overList (List.range 32) (fun s e => s.wr (adcBase c + ADC.RES + 8 * e) 0) s3).showQueue c
  else if old = q then s2
  else s2.onAdc c (fun a => { a with
    pos := 0, idx := 0, slotAt := 1,
    young := (a.young.filter (fun y => decide (y.1 / 32 ≠ c.val))) ++
      ((List.range q.length).filter (fun e => decide (q[e]? ≠ old[e]?))).map (fun e => (c.val * 32 + e, 1)) })

/-! ### Meanings -/

/-- CLOSE_INTERVAL (R338). -/
def execCloseInterval (i : Fin 24) (iv : Interval) (s : State) : Host.Outcome State Fault Refusal := .next (s.awake fun s => s.closeInterval i iv)
/-- MODULATOR_FAIL (R342): causes 1 stuck, 2 state, 3 clock. -/
def execModulatorFail (i : Fin 24) (why : Fin 3) (s : State) : Host.Outcome State Fault Refusal := .next (s.awake fun s => s.modFail i (why + 1))
/-- SAR_CONVERSION (R345). -/
def execSarConversion (c : Fin 2) (x : Option Int) (s : State) : Host.Outcome State Fault Refusal := .next (s.awake fun s => s.sarSlot c x)
/-- URGENT_CONVERSION (R352). -/
def execUrgentConversion (c : Fin 2) (x : Int) (s : State) : Host.Outcome State Fault Refusal := .next (s.awake fun s => s.urgentSlot c x)
/-- URGENT (R353, R370). -/
def execUrgentCommand (c : Fin 2) (acc : Fin 15) (arg : Byte) (s : State) : Host.Outcome State Fault Refusal :=
  .next (s.awake fun s => s.adcCommand c 1 arg.toNat acc)
/-- RECHECK (R361, R370). -/
def execRecheckAdc (c : Fin 2) (acc : Fin 15) (arg : Byte) (s : State) : Host.Outcome State Fault Refusal :=
  .next (s.awake fun s => s.adcCommand c 2 arg.toNat acc)
/-- RECHECK_COMPLETE (R361): whether every reference conversion passed. -/
def execRecheckComplete (c : Fin 2) (ok : Bool) (s : State) : Host.Outcome State Fault Refusal := .next (s.awake fun s => s.recheckEnd c ok)
/-- OFFLINE (R361, R370). -/
def execOfflineAdc (c : Fin 2) (acc : Fin 15) (arg : Byte) (s : State) : Host.Outcome State Fault Refusal :=
  .next (s.awake fun s => s.adcCommand c 3 arg.toNat acc)

end Sys2Proof.Machine
end

