-- ==== Sys2Proof/Machine/Comparators.lean ====
section
/-! DEFINITION. Comparators and window monitors: supply and thermal windows, general and wake comparators, the comparator
auto-zero and the self-check (R372-R394). -/

namespace Sys2Proof.Machine

/-- The address of AZTRIM of comparator c. -/
def azA (c : Nat) : Nat := cmpA CMP.AZTRIM + 4 * c
/-- The address of CSTAT of CMP m. -/
def cstat (m : Fin 8) : Nat := cmpBase m + CMPC.CSTAT
/-- The state with the comparators changed. -/
def State.onCmps (s : State) (f : Comps → Comps) : State := { s with cmps := f s.cmps }

/-- The PWM unit whose protection comparator c is (R373). -/
def cmpUnit (c : Nat) : Option Nat := if c < 48 then some c else if 92 ≤ c ∧ c ≤ 99 then some (c - 52) else none

/-- CMP m is on (R379). -/
def State.cmpOn (s : State) (m : Fin 8) : Bool := s.pins.ana[16 + m.val]

/-- The mode of comparator c (R372, R373): 0 Sprint, 1 Run, 2 Walk, 3 Doze. -/
def State.cmpMode (s : State) (c : Nat) : Nat :=
  if c < 48 then (if s.switching c then 0 else 2)
  else if 60 ≤ c ∧ c < 82 then 2
  else if 82 ≤ c ∧ c < 90 then s.fld (cmpBase (c - 82) + CMPC.CCFG) 15 14
  else if c = 90 ∨ c = 91 then (if s.bit (cmpA CMP.WCFG + 4 * (c - 90)) 15 || s.pow.shelf == .shelf then 3 else 2)
  else 1

/-- The delay of a mode [CORE clocks], rounded up (R372). -/
def modeDelay : Nat → Nat
  | 0 => 5 | 1 => 48 | 2 => 800 | _ => 16000

/-! ### Supply and thermal windows (R375-R378) -/

/-- Supply k enters over or under (R376): WSTAT, WEVT and one event. V12 outside its window stops the excitation drivers (R290) and drops gd_rdy (R241). -/
def State.supplyOut (s : State) (k : Nat) (isOver : Bool) : State :=
  let i := if isOver then 8 + k else k
  let j := if isOver then 6 + k else k
  if s.bit (cmpA CMP.WSTAT) i then s
  else
    let s1 := (s.setBit (cmpA CMP.WSTAT) i true).flag (cmpA CMP.WEVT) i
    let vm := (s.rdI 16 (adcBase 0 + ADC.VM) % 65536).toNat
    let s2 :=
      if !((s.cmps.armed.toList[j]?).getD false) then s1
      else
        let t := s1.onCmps (fun c => { c with armed := putAt c.armed j false })
        if k = 0 then t.log (if isOver then 0x0802 else 0x0801) vm 0 .device
        else t.log 0x0806 k (if isOver then 1 else 0) .device
    if k = 1 then (overList (List.finRange 4) (fun s d => s.excStop d) s2).pumpStep.toffShow else s2

/-- Supply k returns within its window (R376): its events are armed again; V12 restarts the excitation drivers (R290). -/
def State.supplyBack (s : State) (k : Nat) : State :=
  let was := s.bit (cmpA CMP.WSTAT) k || s.bit (cmpA CMP.WSTAT) (8 + k)
  let s1 := ((s.setBit (cmpA CMP.WSTAT) k false).setBit (cmpA CMP.WSTAT) (8 + k) false).onCmps (fun c =>
    { c with armed := putAt (putAt c.armed k true) (6 + k) true })
  if k = 1 ∧ was then
    (overList (List.finRange 4) (fun s d => if s.bit (estat d) 15 then s else s.excStart d) s1).pumpStep.toffShow
  else s1

/-- The controller die rises through DIETRIP (R377). -/
def State.dieOver (s : State) : State :=
  let s1 := s.setBit (cmpA CMP.TSTAT) 10 true
  if s.cmps.dieArmed then (s1.onCmps (fun c => { c with dieArmed := false })).log 0x0803 10 2 .device else s1

/-- Thermal window j falls through its lower threshold (R243, R377). -/
def State.thermalBack (s : State) (j : Fin 11) : State :=
  let s1 := s.setBit (cmpA CMP.TSTAT) j false
  if h : j.val < 10 then
    overList [4 * j.val, 4 * j.val + 1, 4 * j.val + 2, 4 * j.val + 3] (fun s u => s.showSources u)
      (s1.onStage (fun g => { g with ot := g.ot.set j.val false }))
  else s1.onCmps (fun c => { c with dieArmed := true })

/-- The temperature warnings at an edge (R378). -/
def State.warnEdge (s : State) : State :=
  overList (List.finRange 11) (fun s j =>
    let t := if j.val < 10 then s.rdI 16 (devA DEV.TJG + 4 * j) else s.rdI 16 (cmpA CMP.TJDIE)
    let lim : Int := s.rd (cmpA CMP.TWARN)
    let put (x : Bool) : State := (s.setBit (cmpA CMP.TWSTAT) j x).onCmps (fun c => { c with warned := c.warned.set j x })
    if lim ≤ t ∧ !s.cmps.warned[j] then (put true).log 0x0803 j 1 .device
    else if t < lim - 20 ∧ s.cmps.warned[j] then put false
    else s) s

/-! ### General and wake comparators (R379, R380) -/

/-- The qualified output of CMP m changes (R379): `back` CORE clocks ago the comparator output changed. -/
def State.cmpChange (s : State) (m : Fin 8) (rise : Bool) (back : Nat) : State :=
  if s.bit (cstat m) 13 == rise then s
  else
    let b := cmpBase m
    let here := decide (back ≤ s.tim.clk)
    let clk := if here then s.tim.clk - back else s.tpr + s.tim.clk - back
    let tick := if here then s.tim.tick else s.tim.tick - 1
    let s1 := ((s.setBit (cstat m) 13 rise).flag (cstat m) (if rise then 15 else 14)).bump (b + CMPC.ECNT)
    (s1.wr (b + CMPC.ECLK) (clk % 65536)).wr (b + CMPC.ETICK) (tick.toNat % 65536)

/-- A filtered change of CMP m (R379, R389): during a hold it waits for the hold's end. -/
def State.cmpEdge (s : State) (m : Fin 8) (rise : Bool) : State :=
  if !s.cmpOn m then s
  else if 0 < s.cmps.hold[m] then s.onCmps (fun c => { c with held := c.held.set m (some rise) })
  else s.cmpChange m rise (2 + s.fld (cmpBase m + CMPC.CCFG) 7 0)

/-- The output of CMP m is held for `k` CORE clocks (R372, R382). -/
def State.cmpHold (s : State) (m : Fin 8) (k : Nat) : State := s.onCmps (fun c => { c with hold := c.hold.set m (max k c.hold[m]) })

/-- The auto-zero slots of the general comparators at an edge (R382). -/
def State.cmpTick (s : State) : State :=
  overList (List.finRange 8) (fun s m =>
    let k := s.cmps.azTick[m] + 1
    let due := decide (s.rd (cmpBase m + CMPC.CAZPER) ≤ k)
    let s1 := s.onCmps (fun c => { c with azTick := c.azTick.set m (if due then 0 else k) })
    if due && s.cmpOn m && s.bit (cmpBase m + CMPC.CCFG) 10 then s1.cmpHold m 400 else s1) s

/-- A wake event is latched for the wake logic while the controller die is off or goes off (R567, R568). -/
def State.wakeLatch (s : State) (i : Fin 2) : State :=
  if s.pow.inReset ∨ s.pow.shelf ≠ .running then { s with pow := { s.pow with wakeBits := s.pow.wakeBits ||| 2 ^ (15 - i.val) } } else s

/-- A wake input reaches a level through its filter (R380): an enabled one that asserts sets its flag. -/
def State.wakeLevel (s : State) (i : Fin 2) (on : Bool) : State :=
  let s1 := (s.setBit (cmpA CMP.WKSTAT) (13 - i) on).onCmps (fun c => { c with wakeLeft := if on then c.wakeLeft else c.wakeLeft.set i 0 })
  if !on ∨ s.bit (cmpA CMP.WKSTAT) (13 - i) ∨ !s.bit (cmpA CMP.WCFG + 4 * i) 13 then s1
  else (s1.flag (cmpA CMP.WKSTAT) (15 - i)).wakeLatch i

/-- A write of WCFG of wake input i begins a new filter interval where the input is asserted [31.25 µs] (R380, R394). -/
def State.wakeAgain (s : State) (i : Fin 2) (v : Nat) : State :=
  s.onCmps (fun c => { c with
    wakeLeft := c.wakeLeft.set i (if v.testBit 13 && s.bit (cmpA CMP.WKSTAT) (13 - i) then Machine.fld v 11 8 * 12500 + 1 else 0) })

/-! ### Comparator auto-zero (R381-R385) -/

/-- A supply is within its window. -/
def State.supplyIn (s : State) (k : Nat) : Bool := !s.bit (cmpA CMP.WSTAT) k && !s.bit (cmpA CMP.WSTAT) (8 + k)

/-- A freeze condition of R383 holds for comparator c. -/
def State.azFrozen (s : State) (c : Nat) : Bool :=
  !s.bit (azA c) 15 ||
  (match cmpUnit c with | some u => !s.switching u | none => false) ||
  (if h : 82 ≤ c ∧ c < 90 then !s.bit (cmpBase (c - 82) + CMPC.CCFG) 10 || !s.cmpOn ⟨c - 82, by omega⟩ else false) ||
  s.cmpMode c == 3 || !s.supplyIn 3 || s.cmps.swapped.contains c

/-- The trim of comparator c [0.25 mV] (R381). -/
def State.azTrim (s : State) (c : Nat) : Int := (BitVec.ofNat 6 (s.fld (azA c) 5 0)).toInt
/-- The state with that trim. -/
def State.setTrim (s : State) (c : Nat) (x : Int) : State := s.setFld (azA c) 5 0 (x % 64).toNat

/-- The last 64 trims lie within one step of one value (R384). -/
def trimSettled (l : List Int) : Bool :=
  decide (64 ≤ l.length) && decide (l.foldl max (-32) - l.foldl min 32 ≤ 2)

/-- One auto-zero sample with output o (R381, R384). -/
def State.azSample (s : State) (c : Fin 101) (o : Bool) : State :=
  if s.azFrozen c || s.cmps.tests.any (fun t => t.1 == c.val) then s
  else
    let z := s.cmps.az[c]
    let a := if o then z.acc + 1 else z.acc - 1
    let moved := decide (a.natAbs = 4)
    let t := if moved then clampI (s.azTrim c - sgn a) (-31) 31 else s.azTrim c
    let hist := if moved then (t :: z.hist).take 64 else z.hist
    let run := if t.natAbs = 31 then z.run + 1 else 0
    let s1 := s.onCmps (fun k => { k with az := k.az.set c ⟨if moved then 0 else a, hist, run⟩ })
    if moved then (s1.setTrim c t).setBit (azA c) 14 (trimSettled hist) else s1

/-- The auto-zero of comparator c has diverged (R384). -/
def State.azDiverged (s : State) (c : Fin 101) : Bool := decide (4096 ≤ (s.cmps.az[c]).run)

/-- The divergence of the auto-zero of comparator c (R384). -/
def State.azDiverge (s : State) (c : Fin 101) : State :=
  if !s.azDiverged c then s
  else
    let s1 := (((s.setTrim c 0).hardClear (azA c) 15).setBit (azA c) 14 false).onCmps (fun k => { k with az := k.az.set c ⟨0, [], 0⟩ })
    (s1.flag (azA c) 12).log 0x0108 6 c .device

/-! ### Self-check (R386-R388) -/

/-- The event of a failed test of comparator c (R387): why 1 or 2 the tie test, 3 the swap test. -/
def State.testFail (s : State) (c : Nat) (why : Nat) : State :=
  let s1 := s.setBit (azA c) 11 true
  match cmpUnit c with
  | some u => s1.log 0x0207 c why (s.unitBind u)
  | none =>
    if 82 ≤ c ∧ c ≤ 89 then s1.log 0x0905 c why .device
    else if c = 90 ∨ c = 91 then s1.log 0x0805 c why .device
    else if !s.bit (azA c) 10 then ((s1.setBit (azA c) 10 true).onCmps (fun k => { k with swapped := c :: k.swapped })).log 0x0805 c why .device
    else
      let s2 := s1.log 0x0805 c (16 + why) .device
      if c < 60 then s2.supplyOut ((c - 48) / 2) (c % 2 == 1)
      else if c < 80 then s2.groupOver ((c - 60) / 2)
      else if c < 82 then s2.dieOver
      else s2.cpFall

/-- A failed test of a wake comparator abandons a shelf entry in its first step (R565). -/
def State.shelfAbandon (s : State) (c result : Nat) : State :=
  if 90 ≤ c ∧ c ≤ 91 ∧ result ≠ 0 ∧ s.pow.shelf = .testing then { s with pow := { s.pow with shelf := .running, wakeBits := 0 } } else s

/-- A test of comparator c ends (R386, R387): 0 it passes; a SELFTEST in progress reports (R388). -/
def State.testEnd (s : State) (c : Nat) (result : Nat) : State :=
  let s1 := if result = 0 then s.setBit (azA c) 11 false else s.testFail c result
  let s2 := (s1.onCmps (fun k => { k with tests := k.tests.filter (fun t => t.1 != c) })).shelfAbandon c result
  match s.cmps.stAcc with
  | some (d, acc) =>
    if d = c then (s2.onCmps (fun k => { k with stAcc := none })).finish (cmpA CMP.STCMDSTAT) 55 1 c acc (if result = 0 then .done else .locked)
    else s2
  | none => s2

/-- A test may run on comparator c: not while its unit switches, and not while a CMP is off (R386, R388). -/
def State.testable (s : State) (c : Nat) : Bool :=
  (match cmpUnit c with | some u => !s.switching u | none => true) &&
  (if h : 82 ≤ c ∧ c < 90 then s.cmpOn ⟨c - 82, by omega⟩ else true)

/-- A self-check of comparator c has a swap test after its tie test (R386). -/
def swapTested (c : Nat) : Bool := (decide (48 ≤ c) && decide (c < 90)) || c == 100

/-- The CORE clocks of a self-check of comparator c: 4 delays of its mode and 200 ns for each test (R386). -/
def State.testTime (s : State) (c : Nat) : Nat := (if swapTested c then 2 else 1) * (4 * modeDelay (s.cmpMode c) + 80)

/-- A self-check of comparator c starts; a CMP holds its output meanwhile (R386). -/
def State.testStart (s : State) (c : Nat) : State :=
  if !s.testable c ∨ s.cmps.tests.any (fun t => t.1 == c) then s
  else
    let s1 := if h : 82 ≤ c ∧ c < 90 then s.cmpHold ⟨c - 82, by omega⟩ (s.testTime c) else s
    s1.onCmps (fun k => { k with tests := k.tests ++ [(c, s.testTime c)] })

/-- The self-checks of every second (R386): the protection comparators of units that do not switch, and every window. DESIGN CHOICE
(log 55): they fall on the whole seconds since release. -/
def State.checksDue (s : State) : State :=
  if s.pow.relClk % 400000000 ≠ 0 then s
  else overList (List.range 82 ++ (List.range 9).map (· + 92)) (fun s c => s.testStart c) s

/-- A test of a comparator of unit u is in progress: the unit does not start (R386). -/
def State.unitTested (s : State) (u : Nat) : Bool := s.cmps.tests.any (fun t => cmpUnit t.1 == some u)

/-- Self-check failed on a comparator of a unit of axis n (R387). -/
def State.checkFailed (s : State) (n : Fin 12) : Bool :=
  (s.recd n).units.any (fun u => s.bit (azA u) 11 || (decide (40 ≤ u) && s.bit (azA (u + 52)) 11))

/-- The command SELFTEST (R388), judged at once; `may` says whether the writer's world holds the comparator's trim word. -/
def State.selftest (s : State) (op arg acc : Nat) (may : Bool) : State :=
  let no (st : Status) : State := s.finish (cmpA CMP.STCMDSTAT) 55 op arg acc st
  if op ≠ 1 then no .unknown
  else if 100 < arg then no .range
  else if !may then no .world
  else if !s.testable arg ∨ s.cmps.stAcc.isSome ∨ s.cmps.tests.any (fun t => t.1 == arg) then no .state
  else (s.testStart arg).onCmps (fun k => { k with stAcc := some (arg, acc) })

/-- One CORE clock of the filter interval that a write of WCFG of an asserted wake input begins (R394). -/
def State.wakeClock (s : State) : State :=
  overList (List.finRange 2) (fun s i =>
    let k := s.cmps.wakeLeft[i]
    if k = 0 then s
    else
      let s1 := s.onCmps (fun c => { c with wakeLeft := c.wakeLeft.set i (k - 1) })
      if k = 1 ∧ s.bit (cmpA CMP.WCFG + 4 * i) 13 ∧ s.bit (cmpA CMP.WKSTAT) (13 - i) then (s1.flag (cmpA CMP.WKSTAT) (15 - i)).wakeLatch i else s1) s

/-- The holds, the wake filters and the self-checks in progress take one CORE clock (R386, R389): a test that no SELF_CHECK has failed ends
as passed. -/
def State.holdsClock (s : State) : State :=
  let ends := (List.finRange 8).filter (fun (m : Fin 8) => s.cmps.hold[m] == 1)
  let fin := s.cmps.tests.filter (fun t => t.2 ≤ 1)
  let s1 := s.onCmps (fun c => { c with hold := c.hold.map (· - 1), tests := c.tests.map (fun t => (t.1, t.2 - 1)) })
  let s2 := overList ends (fun s m =>
    match s.cmps.held[m] with
    | some r => (s.onCmps (fun c => { c with held := c.held.set m none })).cmpChange m r 0
    | none => s) s1
  overList fin (fun s t => s.testEnd t.1 0) s2

/-- One CORE clock of the comparators: the self-checks that fall due begin (R386). -/
def State.cmpClock (s : State) : State := s.wakeClock.holdsClock.checksDue

/-! ### Meanings -/

/-- SUPPLY_RETURN (R376). -/
def execSupplyReturn (k : Fin 6) (s : State) : Host.Outcome State Fault Refusal := .next (s.awake fun s => s.supplyBack k)
/-- DIE_OVERTEMPERATURE (R377). -/
def execDieOvertemperature (s : State) : Host.Outcome State Fault Refusal := .next (s.awake fun s => s.dieOver)
/-- THERMAL_WINDOW_RELEASE (R377): windows 0-9 leg groups, 10 the controller die. -/
def execThermalWindowRelease (j : Fin 11) (s : State) : Host.Outcome State Fault Refusal := .next (s.awake fun s => s.thermalBack j)
/-- CMP_EDGE (R379). -/
def execCmpEdge (m : Fin 8) (rise : Bool) (s : State) : Host.Outcome State Fault Refusal := .next (s.awake fun s => s.cmpEdge m rise)
/-- AUTOZERO_SAMPLE (R381). -/
def execAutozeroSample (c : Fin 101) (o : Bool) (s : State) : Host.Outcome State Fault Refusal := .next (s.awake fun s => s.azSample c o)
/-- AZ_DIVERGE (R384). -/
def execAzDiverge (c : Fin 101) (s : State) : Host.Outcome State Fault Refusal := .next (s.awake fun s => s.azDiverge c)
end Sys2Proof.Machine
end

