-- ==== Sys2Proof/Machine/People.lean ====
section
/-! DEFINITION. Working beside people: yield mode, touch action, hot-plug detection, identification and the commands of FPCMD
(R395-R414). -/

namespace Sys2Proof.Machine

/-- The state with yield, touch and hot-plug of axis n changed. -/
def State.onPpl (s : State) (n : Fin 12) (f : People → People) : State := s.onAx n (fun a => { a with ppl := f a.ppl })
/-- Yield, touch and hot-plug of axis n. -/
def State.ppl (s : State) (n : Fin 12) : People := s.axes[n].ppl
/-- The address of YSTAT of axis n. -/
def ystat (n : Fin 12) : Nat := axBase n + AX.YSTAT
/-- The address of FPSTAT of axis n. -/
def fpstat (n : Fin 12) : Nat := axBase n + AX.FPSTAT

/-! ### Yield mode (R395-R400) -/

/-- The yield source is valid (R395). -/
def State.yieldValid (s : State) (n : Fin 12) : Bool :=
  let y := (s.recd n).ysrc
  if y < 8 then s.bit (frcBase y + FRC.FSTAT) 15 else if y = 0xFE then s.bit (ostat n) 8 else false

/-- The yield input before sign and bias. -/
def State.yieldSrc (s : State) (n : Fin 12) : Int :=
  let y := (s.recd n).ysrc
  if y < 8 then s.rdI 16 (frcBase y + FRC.FORCE) else s.ax16 n AX.TLOAD

/-- The enabling switch is missing where YCFG.en_req asks for it (R395, R398). -/
def State.enMissing (s : State) (n : Fin 12) : Bool := s.axb n AX.YCFG 11 && s.rd (gpioA GPIO.ENSTAT) % 4 != 1

/-- A forced exit (R398): 0x010C, fexit and cause, and the exit of R399 begins. -/
def State.forceExit (s : State) (n : Fin 12) (cause : Nat) : State :=
  if s.bit (ystat n) 15 ∨ s.st n ≠ .yield then s
  else
    let yin := s.axr n AX.YIN % 65536
    (((s.log 0x010C cause yin (.axis n)).flag (ystat n) 12).setFld (ystat n) 11 8 cause).setBit (ystat n) 15 true

/-- The target velocity limited toward the limits of the axis (R397), and whether a soft limit or a switch acts. -/
def State.limitToward (s : State) (n : Fin 12) (vt : Rat) : Rat × Bool × Bool :=
  let p := (s.mot n).ipos
  let up := decide (0 < vt)
  let room : Int := if up then s.slMax n - p else p - s.slMin n
  let cap : Rat := if room ≤ 0 then 0 else (isqrt (512 * s.axr n AX.DMAX * room.toNat) : Nat)
  let (v1, soft) := if s.slOn n && decide (cap < absR vt) then (if up then cap else -cap, true) else (vt, false)
  let sw := decide (v1 ≠ 0) && s.limitOn n (if up then 1 else 0)
  (if sw then 0 else v1, soft, sw)

/-- The model's velocity after one tick (R396, R399): `vt` its target, `step` the largest change, `lag` the divisor. -/
def State.yieldStep (s : State) (n : Fin 12) (vt step : Rat) (lag : Nat) : State :=
  let q := s.ppl n
  let v0 : Rat := if q.held then (s.mot n).snapVel.toInt else fx q.v
  let (w, soft, sw) := s.limitToward n vt
  let v := v0 + clampR ((w - v0) / lag) (-step) step
  (s.onPpl n (fun q => { q with v := q32 80 v, held := soft || sw })).setBit (ystat n) 14 soft

/-- Task 3 (R396-R399). -/
def State.yieldModel (s : State) (n : Fin 12) : State :=
  if s.st n ≠ .yield then s
  else if s.bit (ystat n) 15 then
    s.yieldStep n 0 ((s.axr n AX.DMAX : Rat) * s.tpr / 2 ^ 24) 1
  else
    let ok := s.yieldValid n
    let q := s.ppl n
    if !ok ∧ s.axu n AX.YMISS < q.miss + 1 then (s.onPpl n (fun q => { q with miss := q.miss + 1 })).forceExit n 3
    else
      let f0 := if ok then s.yieldSrc n else q.flast
      let s1 := s.onPpl n (fun q => { q with flast := f0, miss := if ok then 0 else q.miss + 1 })
      let s2 := if ok then s1 else s1.flag (ystat n) 13
      let f := (if s.axub n AX.YCFG 10 then -f0 else f0) - s.axu16 n AX.YBIAS
      let s3 := s2.wrI 16 (axBase n + AX.YIN) (satI 16 f)
      if (s.axu n AX.YFMAX : Int) < f.natAbs then s3.forceExit n 2
      else
        let fe := sgn f * max ((f.natAbs : Int) - s.axu n AX.YDEAD) 0
        let top : Int := s.axu n AX.YVMAX * 65536
        s3.yieldStep n (clampI (fe * s.axu n AX.YGAIN * 16) (-top) top) ((s.axu n AX.YAMAX : Rat) * s.tpr / 2 ^ 24)
          (2 ^ s.fldu (axBase n + AX.YCFG) 15 12)

/-- The enabling switch is released in YIELD: a forced exit, before the commands of the edge (R398, R410, R414). -/
def State.enableExit (s : State) (n : Fin 12) : State := if s.st n = .yield ∧ s.enMissing n then s.forceExit n 1 else s

/-- Yield mode at an edge (R399, R400): the committed v enters the rate multiplier at clock 1; an exit ends in HOLD at v = 0. -/
def State.yieldEdge (s : State) (n : Fin 12) (committed : Bool) : State :=
  if s.st n ≠ .yield then s
  else
    let q := s.ppl n
    let v := if committed then q.v else q.vDone
    let s1 := s.onPpl n (fun q => { q with v := v, vDone := v })
    if s1.bit (ystat n) 15 ∧ v = 0 then ((s1.setBit (ystat n) 15 false).setBit (ystat n) 14 false).enterStill n .hold
    else s1.onMot n (fun m => { m with vel := BitVec.ofInt 64 (rnd 81 (fx v * 2 ^ 24)), acc := 0, jrk := 0, segs := [], req := none, goal := .none })

/-- YIELD_ENTER in HOLD (R395); `n` has the yield model. -/
def State.cmdYieldEnter (s : State) (n : Fin 12) (arg : Nat) : Status × State :=
  let r := s.recd n
  if s.st n ≠ .hold ∨ !s.isPower n ∨ !s.opt n 3 ∨ r.ysrc = 0xFF then (.state, s)
  else if arg ≠ 0 ∨ s.axr n AX.YGAIN = 0 ∨ s.axr n AX.DMAX = 0 ∨ s.axr n AX.YAMAX = 0 then (.range, s)
  else if s.enMissing n ∨ !s.yieldValid n ∨ s.pendantOn n then (.locked, s)
  else
    let s1 := ((s.setSt n .yield).onMot n (fun m => { m with atTarget := false })).onPpl n (fun q => { q with
      v := 0, vDone := 0, flast := 0, miss := 0, held := false })
    (.done, (s1.setBit (ystat n) 15 false).setBit (ystat n) 14 false)

/-- YIELD_EXIT in YIELD (R399). -/
def State.cmdYieldExit (s : State) (n : Fin 12) (arg : Nat) : Status × State :=
  if s.st n ≠ .yield then (.state, s)
  else if arg ≠ 0 then (.range, s)
  else (.done, s.setBit (ystat n) 15 true)

/-! ### Touch action (R401) -/

/-- The touch action of axis n at the edge, after its reactions (R401). -/
def State.touchAct (s : State) (n : Fin 12) : State :=
  let act := s.fld (axBase n + AX.TCFG) 1 0
  if act = 1 ∨ act = 2 then
    match s.st n with
    | .yield => s.forceExit n 4
    | .move | .follow | .homing =>
      let d := -(sgn (s.mot n).snapVel.toInt)
      (s.classStop n).onPpl n (fun q => { q with retract := if act = 2 ∧ d ≠ 0 then some d else none })
    | _ => s
  else s

/-- The touches found since the last edge act on their axes (R401, R410): not where a reaction MUTE or TRIP is due. -/
def State.touchEdge (s : State) (hard : List (Fin 12)) : State :=
  overList (List.finRange 8) (fun s m =>
    if !(s.frcs[m]).retract then s
    else
      let s1 := s.onFrc m (fun g => { g with retract := false })
      match s.frcAxis m with
      | some n => if hard.contains n then s1 else s1.touchAct n
      | none => s1) s

/-- After rest from a touch stop the retract begins, unless its target is refused (R106, R271, R401). -/
def State.retract (s : State) (n : Fin 12) : State :=
  match (s.ppl n).retract with
  | none => s
  | some d =>
    if s.st n ≠ .hold ∧ s.st n ≠ .paused then s
    else
      let p := (s.mot n).ipos
      let t := p + d * s.axr n AX.TRETR
      let s1 := s.onPpl n (fun q => { q with retract := none })
      let out := s.slOn n && (decide (t < s.slMin n) || decide (s.slMax n < t))
      if out || t == p || satI 48 t != t || s.limitOn n (if 0 < d then 1 else 0) || s.axr n AX.VMAX == 0 || s.axr n AX.AMAX == 0 || s.axr n AX.DMAX == 0
      then s1
      else (s1.onPpl n (fun q => { q with back := true })).startMove n t

/-- A retract that can no longer take place is dropped, and one that has ended no longer shows (R401). -/
def State.retractEdge (s : State) (n : Fin 12) : State :=
  let alive := s.st n == .stopping || s.st n == .hold || s.st n == .paused
  (s.onPpl n (fun q => { q with retract := if alive then q.retract else none, back := q.back && s.st n == .move })).retract n

/-- The bits touch and tact of YSTAT as they read now (R401, R412). -/
def State.touchBits (s : State) (n : Fin 12) : Nat :=
  let q := s.ppl n
  let touch := (List.finRange 8).any (fun (m : Fin 8) => (s.recd n).fmask.testBit m && s.bit (fstat m) 14)
  (if touch then 128 else 0) + (if q.retract.isSome || q.back || (s.softened n && s.energised n) then 64 else 0)

/-! ### Hot-plug detection (R402-R404) -/

/-- Hot-plug detection runs (R402). -/
def State.hotPlug (s : State) (n : Fin 12) : Bool := s.isPower n && s.axub n AX.FPCFG 0

/-- A continuity probe may run: MUTE with mute form Float, or UNPLUGGED, and no torque off (R402, R404). -/
def State.probeRuns (s : State) (n : Fin 12) : Bool :=
  s.hotPlug n && !s.toffOn 0 && !s.toffOn 1 && ((s.st n == .mute && !(s.recd n).brake) || s.st n == .unplugged)

/-- The probes' schedule at an edge (R402, R404): one starts every UNPPER ticks in MUTE or UNPLUGGED, and lasts 4 ticks. -/
def State.probeTick (s : State) (n : Fin 12) : State :=
  let q := s.ppl n
  if s.st n ≠ .mute ∧ s.st n ≠ .unplugged then s.onPpl n (fun q => { q with probeTick := 0, probe := none, probes := 0 })
  else
    let k := q.probeTick + 1
    let due := decide (s.axr n AX.UNPPER ≤ k)
    s.onPpl n (fun q => { q with
      probeTick := if due then 0 else k,
      probe := if !s.probeRuns n then none else if due then some 4 else q.probe.map (· - 1) })

/-- A continuity probe ends with its finding on each winding (R402, R404). -/
def State.contProbe (s : State) (n : Fin 12) (a b : Bool) : State :=
  if !s.probeRuns n ∨ (s.ppl n).probe ≠ some 0 then s
  else
    let s1 := ((s.onPpl n (fun q => { q with probe := none })).setBit (fpstat n) 11 (a && b)).setBit (fpstat n) 12 (a != b)
    let hit := if s.st n = .mute then !a && !b else a && b
    s1.onPpl n (fun q => { q with probes := if hit then q.probes + 1 else 0 })

/-- The axis is unplugged (R403): `how` 0 the loop criterion, 1 the probe. -/
def State.unplugNow (s : State) (n : Fin 12) (how old : Nat) : State :=
  let s1 := (s.enterStill n .unplugged).onMot n (fun m => { m with rem := 0, remValid := false })
  let s2 := (((s1.log 0x010A how old (.axis n)).flag (fpstat n) 14).bump (axBase n + AX.PLUGCNT)).life 11
  let s3 := (s2.setBit (ostat n) 9 false).onPpl n (fun q => { q with probes := 0, probeTick := 0, probe := none, retract := none, back := false })
  overList (List.finRange 16) (fun s k => s.setSbl n k (Learn.at 0)) s3

/-- The code of a state in AX[n].STATE (R91). -/
def AxState.code : AxState → Nat
  | .off => 0 | .mute => 1 | .hold => 2 | .move => 3 | .stopping => 4 | .paused => 5 | .follow => 6 | .homing => 7 | .yield => 8
  | .identify => 9 | .unplugged => 14 | .fault => 15

/-- An unplug is found at the edge (R402): both windings open in the loop, or three probes without continuity. -/
def State.unplugEdge (s : State) (n : Fin 12) : State :=
  if !s.hotPlug n then s
  else if s.energised n ∧ s.openNow n = (true, true) then s.unplugNow n 0 (s.st n).code
  else if s.st n = .mute ∧ s.probeRuns n ∧ 3 ≤ (s.ppl n).probes then s.unplugNow n 1 1
  else s

/-- Identification begins (R405). -/
def State.identStart (s : State) (n : Fin 12) (fromUnplug : Bool) : State :=
  ((s.setSt n .identify).setFld (fpstat n) 10 8 1).onPpl n (fun q => { q with fromUnplug := fromUnplug, idTick := 0, probes := 0 })

/-- A motor is plugged in again (R404). -/
def State.replugEdge (s : State) (n : Fin 12) : State :=
  if s.st n = .unplugged ∧ s.probeRuns n ∧ 3 ≤ (s.ppl n).probes then
    let s1 := ((s.log 0x010B 0 0 (.axis n)).flag (fpstat n) 15).onPpl n (fun q => { q with probes := 0, probeTick := 0, probe := none })
    if s.axb n AX.FPCFG 1 then s1.identStart n true else s1.enterStill n .mute
  else s

/-- hp_en = 0 in UNPLUGGED moves the axis to MUTE at the edge (R404). -/
def State.hotPlugOff (s : State) (n : Fin 12) : State :=
  if s.st n = .unplugged ∧ !s.axb n AX.FPCFG 0 then
    (s.enterStill n .mute).onPpl n (fun q => { q with probes := 0, probeTick := 0, probe := none })
  else s

/-- The hot-plug detectors at an edge; torque off restarts the probe count (R402). -/
def State.plugEdge (s : State) (n : Fin 12) : State :=
  let s1 := if s.toffOn 0 || s.toffOn 1 then s.onPpl n (fun q => { q with probes := 0 }) else s
  (((s1.probeTick n).unplugEdge n).replugEdge n).hotPlugOff n

/-! ### Identification (R405-R409) -/

/-- IDENTIFY in OFF and MUTE (R405). -/
def State.cmdIdentify (s : State) (n : Fin 12) (arg : Nat) : Status × State :=
  if (s.st n ≠ .off ∧ s.st n ≠ .mute) ∨ !s.isPower n then (.state, s)
  else if arg ≠ 0 then (.range, s)
  else if !s.stageReady n || s.checkFailed n then (.locked, s)
  else (.done, s.identStart n false)

/-- The units of winding w (0 A, 1 B). -/
def AxRec.windingUnits (r : AxRec) (w : Nat) : List Nat := r.endUnits (2 * w) ++ r.endUnits (2 * w + 1)

/-- Winding voltage `u` [vlt] on winding w of axis n as duties of its units. -/
def State.probeDuty (s : State) (n : Fin 12) (w : Nat) (u : Rat) : State :=
  let (d1, d2) := s.dutiesOf n u
  let r := s.recd n
  let s1 := overList (r.endUnits (2 * w)) (fun s x => s.onUnit x (fun y => { y with duty := d1, probe := true })) s
  overList (r.endUnits (2 * w + 1)) (fun s x => s.onUnit x (fun y => { y with duty := d2, probe := true })) s1

/-- One tick of the identification (R405): one winding is driven and the other floats. The regulated voltages of steps 2 to 5 are
free values within the limits, because the spec does not place their samples in the ticks. -/
def State.identEdge (s : State) (n : Fin 12) : State :=
  let s0 := overList (s.recd n).units (fun s x => if (s.unit x).probe then s.onUnit x (fun y => { y with probe := false }) else s) s
  if s.st n ≠ .identify then s0
  else
    let i := (s.ppl n).idTick
    let w := i / 369
    let t := i % 369
    let s1 := s0.onPpl n (fun q => { q with idTick := i + 1 })
    if 2 ≤ w ∨ 353 ≤ t then s1
    else if t = 0 then s1.probeDuty n w (s.axr n AX.IDVMAX)
    else
      let (b, s2) := s1.free 17
      let lim : Int := s.axr n AX.IDVMAX + (if 321 ≤ t ∧ t < 337 then s.axr n AX.IDVL else 0)
      s2.probeDuty n w (clampI b.toInt (-lim) lim)

/-- A trip of a unit ends the identification with result 7 (R406). -/
def State.identTrip (s : State) (n : Fin 12) : State :=
  if s.st n = .identify ∧ s.anyTrip n then (s.setFld (fpstat n) 10 8 7).enterStill n .mute else s

/-- R [mΩ] and L [µH] of a winding from its measurements (R405), or none for an open winding. -/
def State.identify (s : State) (n : Fin 12) (m : IdWinding) : Option (Nat × Nat) :=
  let iFs := (s.recd n).fullScale
  let idcur := s.axr n AX.IDCUR
  if m.di.natAbs < 64 ∨ m.sa * 8 < idcur * 64 ∨ m.si = 0 then none
  else
    let amp (x : Rat) : Rat := x * iFs / 32768
    let volt (x : Rat) : Rat := x / 512
    let r := rnd 82 (1000 * volt m.sv / amp m.si)
    let dd := amp ((m.dp - m.dm : Int) / 8)
    let l := if dd = 0 then 65535 else rnd 83 (1000000 * 2 * volt (s.axr n AX.IDVL) * s.tt / dd)
    some ((clampI r 0 65535).toNat, (clampI l 0 65535).toNat)

/-- An estimate lies outside its band (R407). -/
def outside (x nom tol : Nat) : Bool := decide (nom * tol < 256 * ((x : Int) - nom).natAbs)

/-- The identification ends with its results (R406-R408). -/
def State.identDone (s : State) (n : Fin 12) (a b : IdWinding) : State :=
  if s.st n ≠ .identify ∨ s.fld (fpstat n) 10 8 ≠ 1 then s
  else
    let q := axBase n
    let leave (s : State) (x : AxState) : State := s.onMot n (fun m => { m with next := some x })
    let put (s : State) (ra rb la lb : Nat) : State :=
      (((s.wr (q + AX.IDRA) ra).wr (q + AX.IDRB) rb).wr (q + AX.IDLA) la).wr (q + AX.IDLB) lb
    match s.identify n a, s.identify n b with
    | some (ra, la), some (rb, lb) =>
      let s1 := put s ra rb la lb
      let rn := s.axr n AX.RNOM
      let ln := s.axr n AX.LNOM
      if rn = 0 ∨ ln = 0 then leave (s1.setFld (fpstat n) 10 8 4) .mute
      else
        let rt := s.axr n AX.FPRTOL
        let lt := s.axr n AX.FPLTOL
        let bits := (if outside ra rn rt then 1 else 0) + (if outside rb rn rt then 2 else 0) +
          (if outside la ln lt then 4 else 0) + (if outside lb ln lt then 8 else 0)
        let s2 := s1.setFld (fpstat n) 7 4 bits
        if bits = 0 then
          let s3 := (s2.setFld (fpstat n) 10 8 2).setBit (fpstat n) 13 false
          let sd (s : State) (k : Fin 4) (v : Nat) : State := s.setTrk n k (Learn.at (v * 65536))
          leave (if s.axb n AX.FPCFG 3 ∧ s.opt n 4 then sd (sd (sd (sd s3 0 ra) 1 rb) 2 la) 3 lb else s3) .mute
        else
          let s3 := overList (List.finRange 6) (fun s k => s.setDet n k (Learn.at 0)) (s2.trkSeed n)
          let s4 := (s3.setFld (fpstat n) 10 8 3).setBit (fpstat n) 13 true
          leave (s4.log 0x0106 bits (min 65535 ((ra + rb) / 2)) (.axis n)) .mute
    | r, _ =>
      let s1 := match r with | some (ra, la) => put s ra (s.rd (q + AX.IDRB)) la (s.rd (q + AX.IDLB)) | none => s
      let s2 := (s1.setFld (fpstat n) 10 8 5).onPpl n (fun q => { q with probes := 0 })
      leave s2 (if (s.ppl n).fromUnplug then .unplugged else .mute)

/-- A command of FPCMD, judged at once (R409). -/
def State.fpCmd (s : State) (n : Fin 12) (op arg : Nat) : Status × State :=
  let q := axBase n
  let res := s.fld (fpstat n) 10 8
  match op with
  | 1 =>
    if !s.isPower n ∨ (s.st n ≠ .off ∧ s.st n ≠ .mute) ∨ (res ≠ 2 ∧ res ≠ 3) then (.state, s)
    else if arg ≠ 0 then (.range, s)
    else
      let s1 := (s.wr (q + AX.RNOM) ((s.axr n AX.IDRA + s.axr n AX.IDRB) / 2)).wr (q + AX.LNOM) ((s.axr n AX.IDLA + s.axr n AX.IDLB) / 2)
      (.done, s1.setBit (fpstat n) 13 false)
  | 2 => if !s.isPower n then (.state, s) else if arg ≠ 0 then (.range, s) else (.done, s.wr (q + AX.PLUGCNT) 0)
  | _ => (.unknown, s)

/-- A write of FPCMD (R409). -/
def State.fpCommand (s : State) (n : Fin 12) (op arg acc : Nat) : State :=
  let (st, t) := s.fpCmd n op arg
  t.finish (axBase n + AX.FPCMDSTAT) n op arg acc st

/-! ### Meanings -/

/-- TOUCH (R326, R327). -/
def execTouchSet (m : Fin 8) (s : State) : Host.Outcome State Fault Refusal := .next (s.awake fun s => s.touchSetOn m)
/-- YIELD_MODEL (R396). -/
def execYieldModel (n : Fin 12) (s : State) : Host.Outcome State Fault Refusal := .next (s.working fun s => s.yieldModel n)
/-- TOUCH_RETRACT (R401). -/
def execTouchRetract (n : Fin 12) (s : State) : Host.Outcome State Fault Refusal := .next (s.awake fun s => s.retract n)
/-- CONTINUITY_PROBE (R402): whether windings A and B are continuous. -/
def execContinuityProbe (n : Fin 12) (a b : Bool) (s : State) : Host.Outcome State Fault Refusal := .next (s.awake fun s => s.contProbe n a b)
/-- UNPLUG (R403). -/
def execUnplug (n : Fin 12) (s : State) : Host.Outcome State Fault Refusal := .next (s.awake fun s => s.withOuts n (fun s => s.unplugEdge n))
/-- REPLUG (R404). -/
def execReplug (n : Fin 12) (s : State) : Host.Outcome State Fault Refusal := .next (s.awake fun s => s.withOuts n (fun s => s.replugEdge n))
/-- HOTPLUG_DISABLE (R404). -/
def execHotplugDisable (n : Fin 12) (s : State) : Host.Outcome State Fault Refusal := .next (s.awake fun s => s.withOuts n (fun s => s.hotPlugOff n))
/-- IDENTIFY_COMPLETE (R407): what was measured on windings A and B. -/
def execIdentifyComplete (n : Fin 12) (a b : IdWinding) (s : State) : Host.Outcome State Fault Refusal := .next (s.awake fun s => s.identDone n a b)
/-- ACCEPT (R409). -/
def execAcceptMotor (n : Fin 12) (acc : Fin 15) (arg : Byte) (s : State) : Host.Outcome State Fault Refusal :=
  .next (s.awake fun s => s.fpCommand n 1 arg.toNat acc)
/-- CLRCNT (R409). -/
def execClrcnt (n : Fin 12) (acc : Fin 15) (arg : Byte) (s : State) : Host.Outcome State Fault Refusal :=
  .next (s.awake fun s => s.fpCommand n 2 arg.toNat acc)

end Sys2Proof.Machine
end

