-- ==== Sys2Proof/Machine/AxisCmds.lean ====
section
/-! DEFINITION. The commands of AX[n].CMD as they are judged and applied at their edge (R92-R97, R105, R106, R108-R118, R271,
R273, R281, R466). -/

namespace Sys2Proof.Machine

/-! ### The checks -/

/-- The limits that a command uses are missing, or too fast for a pulse-out axis (R97). -/
def State.limitsBad (s : State) (n : Fin 12) : Bool :=
  let v := s.axr n AX.VMAX
  v == 0 || s.axr n AX.AMAX == 0 || s.axr n AX.DMAX == 0 ||
    (s.role n == 3 && decide (s.axr n AX.STEPSZ * 2 ^ 32 < v * (2 * s.axr n AX.PW)))

/-- A motion in direction d toward `t` breaks a soft limit (R106): the target lies outside, or it leads outward from beyond. -/
def State.softBad (s : State) (n : Fin 12) (d : Int) (t : Option Int) : Bool :=
  let p := (s.mot n).ipos
  s.slOn n && ((match t with | some t => decide (t < s.slMin n) || decide (s.slMax n < t) | none => false) ||
    (decide (s.slMax n < p) && decide (0 < d)) || (decide (p < s.slMin n) && decide (d < 0)))

/-- A limit switch on the side of direction d is asserted (R271). -/
def State.switchBad (s : State) (n : Fin 12) (d : Int) : Bool :=
  (decide (0 < d) && s.limitOn n 1) || (decide (d < 0) && s.limitOn n 0)

/-- A patch between acceptance and its edge affects axis n (R79). -/
def State.patchHolds (s : State) (n : Fin 12) : Bool := s.bore.affected.contains n.val

/-- Torque off, an unready stage or a standing TRIP locks the axis (R241, R484). -/
def State.locked (s : State) (n : Fin 12) : Bool := s.bit (fltA FLT.STATUS) 15 || !s.stageReady n

/-! ### The commands -/

/-- ENERGIZE (R95, R144, R241, R387, R408, R484). -/
def State.cmdEnergize (s : State) (n : Fin 12) (arg : Nat) : Status × State :=
  match s.st n with
  | .off | .mute =>
    if s.patchHolds n then (.state, s)
    else if arg ≠ 0 ∨ (s.isPower n ∧ s.gainMissing n) then (.range, s)
    else if s.bit (fltA FLT.STATUS) 15 ∨ (s.isPower n ∧ (!s.stageReady n ∨ s.checkFailed n ∨
        (s.axb n AX.FPCFG 2 ∧ s.bit (fpstat n) 13))) then (.locked, s)
    else
      let s1 := s.setSt n .hold
      (.done, if s.isPower n then (s1.startLoop n).obsEnergize n else s1)
  | .hold => (if arg ≠ 0 then .range else .done, s)
  | _ => (.state, s)

/-- MUTE (R95). -/
def State.cmdMute (s : State) (n : Fin 12) (arg : Nat) : Status × State :=
  match s.st n with
  | .unplugged | .fault => (.state, s)
  | .mute => (if arg ≠ 0 then .range else .done, s)
  | _ =>
    if (s.mot n).toFault then (.state, s)
    else if arg ≠ 0 then (.range, s)
    else (.done, s.enterStill n .mute)

/-- The states in which a move or a jog is accepted (R95). -/
def AxState.movable : AxState → Bool
  | .hold | .move | .paused => true
  | _ => false

/-- What MOVE_ABS aims at (R90): none where the argument or the target is bad. -/
def State.absTarget (s : State) (n : Fin 12) (arg : Nat) : Option Int :=
  let t := s.ax48 n AX.TGT
  let p := (s.mot n).ipos
  if s.axb n AX.CFG 1 then
    let l : Int := s.axr n AX.MODLEN
    if 2 < arg ∨ t < 0 ∨ l ≤ t then none
    else
      let d := (t - s.mpos n) % l
      some (p + (if (arg = 2 ∨ (arg = 0 ∧ l - d < d)) ∧ d ≠ 0 then d - l else d))
  else if arg ≠ 0 then none else some t

/-- A move to `t` is judged and started (R89, R97, R106, R271, R281). -/
def State.moveTo (s : State) (n : Fin 12) (t : Int) : Status × State :=
  let d := sgn (t - (s.mot n).ipos)
  if s.limitsBad n ∨ satI 48 t ≠ t ∨ s.softBad n d (some t) ∨ s.switchBad n d then (.range, s)
  else if s.pendantOn n then (.locked, s)
  else (.done, s.startMove n t)

/-- MOVE_ABS (R90, R95). -/
def State.cmdMoveAbs (s : State) (n : Fin 12) (arg : Nat) : Status × State :=
  if !(s.st n).movable then (.state, s)
  else match s.absTarget n arg with
    | some t => s.moveTo n t
    | none => (.range, s)

/-- MOVE_REL (R92): the distance counts from the present target in a move to a position, and from pos otherwise. -/
def State.cmdMoveRel (s : State) (n : Fin 12) (arg : Nat) : Status × State :=
  let m := s.mot n
  if !(s.st n).movable then (.state, s)
  else if arg ≠ 0 then (.range, s)
  else s.moveTo n ((if s.st n = .move ∧ m.hasTarget ∧ !m.vmode then m.target else m.ipos) + s.ax48 n AX.TGT)

/-- JOG_VEL (R95, R97, R101). -/
def State.cmdJog (s : State) (n : Fin 12) (arg : Nat) : Status × State :=
  let v := s.rdI 40 (axBase n + AX.JOGV)
  if !(s.st n).movable then (.state, s)
  else if arg ≠ 0 ∨ s.limitsBad n ∨ (s.axr n AX.VMAX : Int) < v.natAbs ∨ s.softBad n (sgn v) none ∨ s.switchBad n (sgn v) then (.range, s)
  else if s.pendantOn n then (.locked, s)
  else (.done, s.startJog n v)

/-- What every follow command asks for (R95, R97, R271). -/
def State.followBad (s : State) (n : Fin 12) : Bool := s.limitsBad n || s.limitOn n 0 || s.limitOn n 1

/-- The subscription entry that GSRC names can be followed (R442): in use, three words wide. -/
def State.entryOk (s : State) (k : Nat) : Bool :=
  decide (k < 1024) && s.bit (subBase k + SUB.SSTAT) 15 && s.fld (subBase k + SUB.SEL) 1 0 == 3

/-- FOLLOW_CYCLIC (R92, R108). -/
def State.cmdFollowCyclic (s : State) (n : Fin 12) (arg : Nat) : Status × State :=
  let g := s.axr n AX.GSRC
  if s.st n ≠ .hold then (.state, s)
  else if arg ≠ 0 ∨ s.followBad n ∨ g / 16384 ≠ 1 ∨ !s.entryOk (g % 1024) then (.range, s)
  else if s.pendantOn n then (.locked, s)
  else (.done, s.engage n 0 1 (g % 1024))

/-- FOLLOW_STEP (R92, R112): both pins of STEPIN carry the step-input function of the axis's pins. -/
def State.cmdFollowStep (s : State) (n : Fin 12) (arg : Nat) : Status × State :=
  let w := s.axr n AX.STEPIN
  let okPin (k : Nat) : Bool := if h : k < 24 then s.pinCode ⟨k, h⟩ == 0x40 && s.img.active else false
  if s.st n ≠ .hold then (.state, s)
  else if arg ≠ 0 ∨ s.followBad n ∨ !okPin (Machine.fld w 12 8) ∨ !okPin (Machine.fld w 4 0) then (.range, s)
  else if s.pendantOn n then (.locked, s)
  else (.done, s.engage n 1 0 0)

/-- GEAR (R114-R118, R466): argument 0 ratio, 1 table. -/
def State.cmdGear (s : State) (n : Fin 12) (arg : Nat) : Status × State :=
  let g := s.axr n AX.GSRC
  let kind := g / 16384
  let idx := g % 1024
  let d := (s.axr n AX.PSTART - s.tim.cyc.toNat + 2 ^ 32) % 2 ^ 32
  if s.st n ≠ .hold then (.state, s)
  else if 1 < arg ∨ s.followBad n ∨ (arg = 0 ∧ 2 ≤ kind) then (.range, s)
  else if kind = 0 ∧ (11 < idx ∨ idx = n.val ∨ (s.img.map.toList[idx]?.map (·.role)).getD 0 = 0 ∨ s.gearLoop n 12 idx) then (.range, s)
  else if kind = 1 ∧ !s.entryOk idx then (.range, s)
  else if kind = 0 ∧ s.secureBlock n ∧ !s.secureBlock idx then (.world, s)
  else
    let st := if arg = 1 then s.tableCheck n kind else Status.done
    if st ≠ .done then (st, s)
    else if arg = 1 ∧ kind = 2 ∧ !s.axb n AX.CFG 4 ∧ (d = 0 ∨ 2 ^ 31 ≤ d) then (.range, s)
    else if s.pendantOn n then (.locked, s)
    else (.done, if arg = 1 then s.engageTable n kind idx else s.engage n 2 kind idx)

/-- STOP (R95, R102, R103). -/
def State.cmdStop (s : State) (n : Fin 12) (arg : Nat) : Status × State :=
  match s.st n with
  | .move | .follow | .homing => if arg ≠ 0 then (.range, s) else (.done, s.classStop n)
  | _ => (.state, s)

/-- RESUME (R105). -/
def State.cmdResume (s : State) (n : Fin 12) (arg : Nat) : Status × State :=
  let p := (s.mot n).ipos
  let rem := (s.mot n).rem.toInt
  let t := p + rem
  let out := s.slOn n && ((decide (s.slMax n < t) && decide (0 < rem)) || (decide (t < s.slMin n) && decide (rem < 0)))
  if s.st n ≠ .paused then (.state, s)
  else if arg ≠ 0 ∨ s.limitsBad n ∨ satI 48 t ≠ t ∨ out ∨ s.switchBad n (sgn rem) then (.range, s)
  else if s.pendantOn n then (.locked, s)
  else (.done, s.startMove n t)

/-- ABANDON (R95 note d, R105). -/
def State.cmdAbandon (s : State) (n : Fin 12) (arg : Nat) : Status × State :=
  match s.st n with
  | .paused => if arg ≠ 0 then (.range, s) else (.done, (s.onMot n (fun m => { m with rem := 0 })).setSt n .hold)
  | .stopping =>
    if (s.mot n).toFault then (.state, s)
    else if arg ≠ 0 then (.range, s)
    else (.done, s.onMot n (fun m => { m with keep := false }))
  | _ => (.state, s)

/-- A switch that method m needs has no pin (R273). -/
def State.homePinMissing (s : State) (n : Fin 12) (m : Nat) : Bool :=
  let no (c : Nat) : Bool := (s.pinOf (c + n)).isNone
  match m with
  | 1 => no 0x10
  | 2 => no 0x20
  | 3 | 6 => no 0x30
  | 4 => no 0x30 || no (if s.homeD n = 1 then 0x20 else 0x10)
  | _ => false

/-- HOME with method m (R273). -/
def State.cmdHome (s : State) (n : Fin 12) (m : Nat) : Status × State :=
  let b := hmBase n
  let fast := s.rd (b + HM.HVFAST)
  let slow := s.rd (b + HM.HVSLOW)
  let r := s.role n
  if s.st n ≠ .hold ∨ (r = 4 ∧ m ≠ 0) ∨ (r = 3 ∧ (m = 5 ∨ m = 7)) ∨ (m = 5 ∧ (!s.opt n 1 ∨ !s.axb n AX.STLCFG 4)) ∨
      (m = 7 ∧ 8 ≤ (s.recd n).port) then (.state, s)
  else if 7 < m ∨ s.homePinMissing n m ∨ s.limitsBad n ∨ (1 ≤ m ∧ m ≤ 6 ∧ (slow = 0 ∨ fast < slow)) ∨
      (m = 5 ∧ s.rd (b + HM.HCUR) = 0) ∨ (r = 3 ∧ s.axr n AX.STEPSZ * 2 ^ 32 < fast * 65536 * (2 * s.axr n AX.PW)) ∨
      s.switchBad n (s.homeFirst n m) then (.range, s)
  else if s.pendantOn n then (.locked, s)
  else (.done, s.homeStart n m)

/-- CLEAR_FAULT (R95 note f, R218, R241, R484): the latches of the axis's units clear. -/
def State.cmdClearFault (s : State) (n : Fin 12) (arg : Nat) : Status × State :=
  if s.st n ≠ .fault then (.state, s)
  else if arg ≠ 0 then (.range, s)
  else if s.locked n ∨ (s.recd n).units.any s.tripActive then (.locked, s)
  else (.done, (overList (s.recd n).units (fun s u => s.unlatch u) s).enterStill n .mute)

/-- The opcodes of R92. -/
def axisOps : List Nat := [0x01, 0x02, 0x10, 0x11, 0x12, 0x13, 0x14, 0x15, 0x20, 0x21, 0x22, 0x30, 0x40, 0x41, 0x50, 0x7F]

/-- A command of AX[n].CMD judged and applied (R92-R95); none but MUTE, IDENTIFY and CLEAR_FAULT while the image store has an
uncorrectable word (R498). -/
def State.axisCmd (s : State) (n : Fin 12) (op arg : Nat) : Status × State :=
  if s.role n = 0 then
    (if axisOps.contains op then .state else .unknown, s)
  else if s.flt.imageBad ∧ op ∈ [0x01, 0x10, 0x11, 0x12, 0x13, 0x14, 0x15, 0x20, 0x21, 0x22, 0x30, 0x40, 0x41] then (.state, s)
  else match op with
  | 0x01 => s.cmdEnergize n arg
  | 0x02 => s.cmdMute n arg
  | 0x10 => s.cmdMoveAbs n arg
  | 0x11 => s.cmdMoveRel n arg
  | 0x12 => s.cmdJog n arg
  | 0x13 => s.cmdFollowCyclic n arg
  | 0x14 => s.cmdFollowStep n arg
  | 0x15 => s.cmdGear n arg
  | 0x20 => s.cmdStop n arg
  | 0x21 => s.cmdResume n arg
  | 0x22 => s.cmdAbandon n arg
  | 0x30 => s.cmdHome n arg
  | 0x40 => s.cmdYieldEnter n arg
  | 0x41 => s.cmdYieldExit n arg
  | 0x50 => if s.patchHolds n then (.state, s) else s.cmdIdentify n arg
  | 0x7F => s.cmdClearFault n arg
  | _ => (.unknown, s)

/-- The state in which a command of axis n is judged: its register is free again (R93), and the limits committed since the last edge are in
use (R101, R107). -/
def State.judged (s : State) (n : Fin 12) : State := (s.onMot n (fun m => { m with cmd := none, tableOk := false })).takeSoft n

/-- The pending command of axis n applies at its edge (R93): CMDSTAT takes echo and status, cmd_pend clears; a writer that the map
no longer admits to the block is refused with WORLD (R468). -/
def State.axisApply (s : State) (n : Fin 12) (c : PendCmd) : State :=
  let s0 := s.judged n
  let (st, t) := if s0.mayAccess c.acc n then s0.axisCmd n c.op c.arg else (.world, s0)
  t.finish (axBase n + AX.CMDSTAT) n c.op c.arg c.acc st

/-- What the edge does with a command that is pending (R93): a GEAR with a table waits for its check (R118). -/
def State.axisCmdEdge (s : State) (n : Fin 12) : State :=
  match (s.mot n).cmd with
  | none => s
  | some c => if c.op = 0x15 ∧ c.arg = 1 ∧ !(s.mot n).tableOk then s else s.axisApply n c

/-- A command as its row gives it: judged and applied at its edge, with the outputs of the axis's units after it (R93, R213). -/
def State.axisNow (s : State) (n : Fin 12) (c : PendCmd) : State := s.withOuts n (fun s => s.axisApply n c)

/-! ### Meanings: each is the command as it applies at its edge -/

/-- ENERGIZE (R95). -/
def execEnergize (n : Fin 12) (acc : Fin 15) (arg : Byte) (s : State) : Host.Outcome State Fault Refusal :=
  .next (s.awake fun s => s.axisNow n ⟨0x01, arg.toNat, acc⟩)
/-- MUTE (R95). -/
def execMuteAxis (n : Fin 12) (acc : Fin 15) (arg : Byte) (s : State) : Host.Outcome State Fault Refusal :=
  .next (s.awake fun s => s.axisNow n ⟨0x02, arg.toNat, acc⟩)
/-- MOVE_ABS (R90, R95). -/
def execMoveAbs (n : Fin 12) (acc : Fin 15) (arg : Byte) (s : State) : Host.Outcome State Fault Refusal :=
  .next (s.awake fun s => s.axisNow n ⟨0x10, arg.toNat, acc⟩)
/-- MOVE_REL (R92, R95). -/
def execMoveRel (n : Fin 12) (acc : Fin 15) (arg : Byte) (s : State) : Host.Outcome State Fault Refusal :=
  .next (s.awake fun s => s.axisNow n ⟨0x11, arg.toNat, acc⟩)
/-- JOG_VEL (R95, R101). -/
def execJogVel (n : Fin 12) (acc : Fin 15) (arg : Byte) (s : State) : Host.Outcome State Fault Refusal :=
  .next (s.awake fun s => s.axisNow n ⟨0x12, arg.toNat, acc⟩)
/-- FOLLOW_CYCLIC (R95, R108). -/
def execFollowCyclic (n : Fin 12) (acc : Fin 15) (arg : Byte) (s : State) : Host.Outcome State Fault Refusal :=
  .next (s.awake fun s => s.axisNow n ⟨0x13, arg.toNat, acc⟩)
/-- FOLLOW_STEP (R95, R112). -/
def execFollowStep (n : Fin 12) (acc : Fin 15) (arg : Byte) (s : State) : Host.Outcome State Fault Refusal :=
  .next (s.awake fun s => s.axisNow n ⟨0x14, arg.toNat, acc⟩)
/-- GEAR (R95, R114). -/
def execGear (n : Fin 12) (acc : Fin 15) (arg : Byte) (s : State) : Host.Outcome State Fault Refusal :=
  .next (s.awake fun s => s.axisNow n ⟨0x15, arg.toNat, acc⟩)
/-- STOP (R95, R102, R103). -/
def execStopAxis (n : Fin 12) (acc : Fin 15) (arg : Byte) (s : State) : Host.Outcome State Fault Refusal :=
  .next (s.awake fun s => s.axisNow n ⟨0x20, arg.toNat, acc⟩)
/-- RESUME (R105). -/
def execResumeMove (n : Fin 12) (acc : Fin 15) (arg : Byte) (s : State) : Host.Outcome State Fault Refusal :=
  .next (s.awake fun s => s.axisNow n ⟨0x21, arg.toNat, acc⟩)
/-- ABANDON (R105). -/
def execAbandonRem (n : Fin 12) (acc : Fin 15) (arg : Byte) (s : State) : Host.Outcome State Fault Refusal :=
  .next (s.awake fun s => s.axisNow n ⟨0x22, arg.toNat, acc⟩)
/-- HOME (R273). -/
def execHomeAxis (n : Fin 12) (acc : Fin 15) (arg : Byte) (s : State) : Host.Outcome State Fault Refusal :=
  .next (s.awake fun s => s.axisNow n ⟨0x30, arg.toNat, acc⟩)
/-- YIELD_ENTER (R395). -/
def execYieldEnter (n : Fin 12) (acc : Fin 15) (arg : Byte) (s : State) : Host.Outcome State Fault Refusal :=
  .next (s.awake fun s => s.axisNow n ⟨0x40, arg.toNat, acc⟩)
/-- YIELD_EXIT (R399). -/
def execYieldExit (n : Fin 12) (acc : Fin 15) (arg : Byte) (s : State) : Host.Outcome State Fault Refusal :=
  .next (s.awake fun s => s.axisNow n ⟨0x41, arg.toNat, acc⟩)
/-- IDENTIFY (R405). -/
def execIdentifyAxis (n : Fin 12) (acc : Fin 15) (arg : Byte) (s : State) : Host.Outcome State Fault Refusal :=
  .next (s.awake fun s => s.axisNow n ⟨0x50, arg.toNat, acc⟩)
/-- CLEAR_FAULT (R95, R218). -/
def execClearFault (n : Fin 12) (acc : Fin 15) (arg : Byte) (s : State) : Host.Outcome State Fault Refusal :=
  .next (s.awake fun s => s.axisNow n ⟨0x7F, arg.toNat, acc⟩)

end Sys2Proof.Machine
end

