-- ==== Sys2Proof/Machine/Timebase.lean ====
section
/-! DEFINITION. Device time, the time servo, the states of the timebase, the tick grid, and the lane-cycle reserve
(02_tick_and_timebase.md). -/

namespace Sys2Proof.Machine

/-! ### The state machine of R27 -/

/-- 200 ppm in units of 2^-40 (R28). -/
def rMax : Int := 219902326

/-- The rate as a number. -/
def State.rateI (s : State) : Int := s.tim.rate.toInt

/-- The last good rate [2^-40]. -/
def State.rateGood (s : State) : BitVec 32 := (s.val (timA TIM.RATEGOOD)).setWidth 32

/-- The timebase takes a state of R27: a change is an attention cause (R527), HOLDOVER an unrepaired
fault until LOCKED or MASTER (R499), and these two let the node publish (R438). -/
def State.tbTo (s : State) (x : TbState) : State :=
  if s.tim.st = x then s
  else
    let s1 := (s.onTim (fun t => { t with st := x })).irq 53
    match x with
    | .holdover => s1.setBit (fltA FLT.CONT) 1 true
    | .locked | .master =>
      let s2 := s1.setBit (fltA FLT.CONT) 1 false
      { s2 with net := { s2.net with locked := true } }
    | _ => s1

/-- ACQUIRE begins with integ at `i`; the runs of Syncs start anew, that of R30 too. DESIGN CHOICE (log 48): R30 does not say whether
its count of Syncs with integ at the limit goes on through LOCKED to ACQUIRE. -/
def State.tbAcquire (s : State) (i : BitVec 32) : State :=
  (s.tbTo .acquire).onTim (fun t => { t with integ := i, goodRun := 0, outRun := 0, limRun := 0 })

/-- HOLDOVER begins with cause 1 (timeout or loss of the path) or 2 (divergence): 0x0503 and its lifetime counter (R27, R494). -/
def State.tbHoldover (s : State) (cause : Nat) : State :=
  let r := s.rateGood
  let keep := s.tim.st = .acquire ∧ cause = 1
  (((s.tbTo .holdover).onTim (fun t => { t with rate := if keep then t.rate else r, servoSlew := false })).life 13).log
    0x0503 cause 0 .device

/-- The slave port's Syncs or its path are lost (R27). -/
def State.tbLost (s : State) : State := if s.tim.st = .acquire ∨ s.tim.st = .locked then s.tbHoldover 1 else s

/-- MASTER begins: the rate is held (R27). -/
def State.tbMaster (s : State) : State := (s.tbTo .master).onTim (fun t => { t with servoSlew := false })

/-- A port is slave. -/
def Timebase.hasSlave (t : Timebase) : Bool := t.role[0] == .slave || t.role[1] == .slave
/-- A port is master and none is slave: the part is grandmaster, which gm_capable permits (R25). -/
def State.tbWins (s : State) : Bool :=
  !s.tim.hasSlave && (s.tim.role[0] == .master || s.tim.role[1] == .master) && s.bit (timA TIM.CTRL) 2

/-- The state of the timebase follows the roles that the BMCA gives, and a new grandmaster (R27). -/
def State.tbRoles (s : State) (newGm : Bool) : State :=
  let slave := s.tim.hasSlave
  match s.tim.st with
  | .free => if slave then s.tbAcquire s.tim.rate else if s.tbWins then s.tbMaster else s
  | .acquire => if slave then s else (fun s : State => if s.tbWins then s.tbMaster else s) s.tbLost
  | .locked =>
    if slave then (if newGm then s.tbAcquire s.tim.integ else s) else (fun s : State => if s.tbWins then s.tbMaster else s) s.tbLost
  | .holdover => if slave then (if s.tim.mute then s else s.tbAcquire s.rateGood) else if s.tbWins then s.tbMaster else s
  | .master => if slave then s.tbAcquire s.tim.rate else s

/-- The role that a code of the BMCA's result names (R49). -/
def roleOf : Nat → PortRole
  | 1 => .master | 2 => .slave | 3 => .passive | _ => .disabled

/-- 2^k seconds in CORE clocks, for a log interval of 4 bits (R23). -/
def logClocks (k : Nat) : Nat := if k < 8 then 400000000 * 2 ^ k else 400000000 / 2 ^ (16 - k)

/-- The BMCA ends with roles r0 and r1 under grandmaster `gm`, 0 for none (R25, R27, R30). The Sync receipt timeout of a new slave port
begins (R23). -/
def State.bmca (s : State) (gm r0 r1 : Nat) : State :=
  let newGm := gm != s.tim.gmId
  let wait := 3 * logClocks (s.fld (timA TIM.PTPCFG) 3 0)
  let roles : Vector PortRole 2 := #v[roleOf r0, roleOf r1]
  (s.onTim (fun t => { t with
    role := roles, gmId := gm, mute := t.mute && gm == 0,
    syncLeft := if roles.toList.contains .slave then (if roles = t.role then t.syncLeft else some wait) else none,
    relay := if roles.toList.contains .slave then t.relay else none })).tbRoles newGm

/-- An Announce arrives on port p and the BMCA ends (R23, R25): the port's receipt timeout starts anew, at three intervals of 1 s. -/
def State.announced (s : State) (p : Fin 2) (gm r0 r1 : Nat) : State :=
  (s.onTim (fun t => { t with ptp := vupd t.ptp p (fun x => { x with annLeft := some 1200000000 }) })).bmca gm r0 r1

/-- No Announce has arrived on port p for three intervals: its master is forgotten, and the BMCA ends without it (R23). -/
def State.announceLost (s : State) (p : Fin 2) (gm r0 r1 : Nat) : State :=
  (s.onTim (fun t => { t with ptp := vupd t.ptp p (fun x => { x with ann := none, annLeft := none }) })).bmca gm r0 r1

/-- No Sync has arrived for three intervals, or the slave port is lost (R23, R27). -/
def State.syncLost (s : State) : State := (s.onTim (fun t => { t with syncLeft := none })).tbLost

/-- One CORE clock of the receipt timeouts (R23). -/
def State.receiptClock (s : State) : State :=
  s.onTim (fun t => { t with syncLeft := t.syncLeft.map (· - 1), ptp := t.ptp.map (fun x => { x with annLeft := x.annLeft.map (· - 1) }) })

/-- Port p loses its link: it has no role and is not asCapable; a part that was master on its own is FREE (R24, R27). -/
def State.tbPortDown (s : State) (p : Fin 2) (bothDown : Bool) : State :=
  let s1 := s.onTim (fun t => { t with
    role := t.role.set p .disabled, asCap := t.asCap.set p false, pdGood := t.pdGood.set p 0, pdBad := t.pdBad.set p 0,
    ptp := vupd t.ptp p (fun x => { x with sync := none, t1 := none, t2 := none, prev := none, ann := none, annLeft := none }) })
  if s.tim.st = .master then (if bothDown then s1.tbTo .free else s1)
  else if s1.tim.hasSlave then s1 else s1.tbLost

/-! ### The servo (R28-R33) -/

/-- A time step is permitted (R32). -/
def State.stepPermitted (s : State) : Bool :=
  s.bit (timA TIM.CTRL) 1 && allAxes.all (fun n =>
    match s.st n with
    | .off | .mute | .unplugged | .fault => true
    | _ => false)

/-- The servo is frozen for a Sync on port p (R31), outliers apart. -/
def State.servoFrozen (s : State) (p : Fin 2) : Bool :=
  s.bit (timA TIM.CTRL) 0 || !(s.tim.st == .acquire || s.tim.st == .locked) || !s.tim.asCap[p] || s.tim.step.isSome || s.tim.slewing

/-- The timebase enters LOCKED after 8 Syncs within the threshold (R27). -/
def State.servoLock (s : State) : State :=
  if s.tim.st = .acquire ∧ 8 ≤ s.tim.goodRun then
    ((s.tbTo .locked).onTim (fun t => { t with outRun := 0, servoSlew := false })).setVal (timA TIM.RATEGOOD) (s.tim.rate.setWidth 64)
  else s

/-- The fourth consecutive outlier returns the timebase to ACQUIRE (R29). -/
def State.outlierReturn (s : State) : State :=
  if s.tim.st = .locked ∧ 4 ≤ s.tim.outRun then s.tbAcquire s.tim.integ else s

/-- The servo has diverged after 16 Syncs with integ at its limit (R30). -/
def State.servoDiverge (s : State) : State :=
  if (s.tim.st = .acquire ∨ s.tim.st = .locked) ∧ 16 ≤ s.tim.limRun then
    ((s.flag (timA TIM.STATUS) 10).onTim (fun t => { t with mute := true, limRun := 0 })).tbHoldover 2
  else s

/-- In LOCKED the last good rate is the mean of the last 64 Syncs' rates (R27). -/
def State.rateMean (s : State) : State :=
  if s.tim.st = .locked then
    s.wrI 32 (timA TIM.RATEGOOD) (openDiv 100 ((s.tim.rates.map BitVec.toInt).sum) s.tim.rates.length)
  else s

/-- A slew of the servo ends when an offset is within the step threshold again (R49). -/
def State.servoSlewEnd (s : State) : State := s.onTim (fun t => { t with servoSlew := false })

/-- The servo update (R28). A Sync that asks for a step lies outside the lock threshold and ends the run of good ones (R27). -/
def State.servo (s : State) (theta : Int) (ts : Nat) : State :=
  let far := decide (1000 * s.rd (timA TIM.STEPTHR) < theta.natAbs)
  if s.tim.st = .acquire ∧ far ∧ s.stepPermitted then s.onTim (fun t => { t with step := some theta, stepAdj := false, goodRun := 0 })
  else
    let g := openDiv 101 (theta * 2 ^ 40) ts
    let integ := clampI (s.tim.integ.toInt + openDiv 102 g (2 ^ s.fld (timA TIM.CTRL) 11 8)) (-rMax) rMax
    let rate := clampI (integ + openDiv 103 g (2 ^ s.fld (timA TIM.CTRL) 7 4)) (-rMax) rMax
    let near := theta.natAbs < s.rd (timA TIM.LOCKTHR)
    let s1 := s.onTim (fun t => { t with
      integ := BitVec.ofInt 32 integ, rate := BitVec.ofInt 32 rate, rates := (BitVec.ofInt 32 rate :: t.rates).take 64,
      goodRun := if near then t.goodRun + 1 else 0, limRun := if integ.natAbs = rMax.natAbs then t.limRun + 1 else 0,
      servoSlew := t.st == .acquire && far })
    ((((s1.wrI 32 (timA TIM.OFFS) (satI 32 theta)).rateMean).servoLock).servoDiverge)

/-- What a Sync of the slave port does to the servo (R28-R31). -/
def State.useSync (s : State) (p : Fin 2) (theta : Int) (ts : Nat) : State :=
  if s.tim.role[p] ≠ .slave ∨ s.tim.mute ∨ s.servoFrozen p then s
  else if s.tim.st = .locked ∧ 8 * s.rd (timA TIM.LOCKTHR) < theta.natAbs then
    let s1 := (s.onTim (fun t => { t with outRun := t.outRun + 1 })).outlierReturn
    if s1.tim.st = .acquire then s1.servo theta ts else s1
  else (s.onTim (fun t => { t with outRun := 0 })).servo theta ts

/-- A Sync is received on port p with offset θ [ns] and interval ts [ns] (R28-R31): the receipt timeout of the slave port starts anew (R23). -/
def State.onSync (s : State) (p : Fin 2) (theta : Int) (ts : Nat) : State :=
  (if s.tim.role[p] = .slave then s.onTim (fun t => { t with syncLeft := some (3 * ts * 2 / 5) }) else s).useSync p theta ts

/-- A peer-delay exchange on port p ends with a measured delay [ns], or fails (R24). A delay of exactly the threshold is neither below
it nor exceeds it: it ends both runs. -/
def State.pdelay (s : State) (p : Fin 2) (delay : Option Nat) : State :=
  match delay with
  | some d =>
    let s1 := s.onTim (fun t => { t with delay := t.delay.set p d })
    if d < 800 then
      s1.onTim (fun t => { t with pdGood := t.pdGood.set p (t.pdGood[p] + 1), pdBad := t.pdBad.set p 0,
                                  asCap := t.asCap.set p (t.asCap[p] || decide (2 ≤ t.pdGood[p] + 1)) })
    else if d = 800 then s1.onTim (fun t => { t with pdGood := t.pdGood.set p 0, pdBad := t.pdBad.set p 0 })
    else
      s1.onTim (fun t => { t with pdGood := t.pdGood.set p 0, pdBad := t.pdBad.set p (t.pdBad[p] + 1),
                                  asCap := t.asCap.set p (t.asCap[p] && decide (t.pdBad[p] + 1 < 3)) })
  | none =>
    s.onTim (fun t => { t with pdGood := t.pdGood.set p 0, pdBad := t.pdBad.set p (t.pdBad[p] + 1),
                               asCap := t.asCap.set p (t.asCap[p] && decide (t.pdBad[p] + 1 < 3)) })

/-- A commit of TIM.RATE (R33). -/
def State.timRate (s : State) (w : BitVec 32) : Status × State :=
  if s.bit (timA TIM.CTRL) 0 ∨ s.tim.st = .free ∨ s.tim.st = .master then
    (.done, s.onTim (fun t => { t with rate := w, integ := w }))
  else (.state, s)

/-- A commit of TIM.ADJ (R33): a step where R32 permits one, and a slew otherwise, which replaces a slew in progress. -/
def State.timAdj (s : State) (w : BitVec 48) : Status × State :=
  if s.tim.st = .free ∨ s.tim.st = .master then
    if s.stepPermitted then (.done, s.onTim (fun t => { t with step := some w.toInt, stepAdj := true, slew := 0, slewing := false }))
    else (.done, s.onTim (fun t => { t with step := none, slew := w.toInt * 2 ^ 48, slewing := decide (w ≠ 0) }))
  else (.state, s)

/-- A slew from TIM.ADJ ends (R33). -/
def State.slewComplete (s : State) : State := if s.tim.slew = 0 then s.onTim (fun t => { t with slewing := false }) else s

/-! ### Device time and the grid (R21, R35, R36) -/

/-- Device time in half nanoseconds. -/
def Timebase.half (t : Timebase) : Nat := t.time.toNat / 2 ^ 47

/-- Device time moves by one CORE clock (R21), with what a slew adds (R33) [2^-48 ns]. -/
def State.timeClock (s : State) : State :=
  let t := s.tim
  let lim : Int := 640 * 109951163
  let d := clampI t.slew (-lim) lim
  s.onTim (fun t => { t with
    time := t.time + BitVec.ofInt 112 (5 * 2 ^ 47 + 640 * t.rate.toInt + d), slew := t.slew - d, clk := t.clk + 1 })

/-- The tick period in half nanoseconds. -/
def State.tickH (s : State) : Nat := 5 * s.rd (timA TIM.TICKPER)
/-- The cycle C in half nanoseconds (R35). -/
def State.cycleH (s : State) : Nat := s.tickH * s.rd (timA TIM.CYCM)

/-- The first grid point at or after a time [0.5 ns]; past the wrap of device time it is 0. -/
def State.gridFrom (s : State) (h : Nat) : Nat :=
  let t := s.tickH
  if t = 0 then 0 else
  let g := cdiv h t * t
  if 2 ^ 65 ≤ g then 0 else g

/-- Device time has reached the grid point that the next edge waits for (R36). -/
def State.edgeDue (s : State) : Bool :=
  s.tim.ticking && decide ((s.tim.half + 2 ^ 65 - s.tim.gridH) % 2 ^ 65 < 2 ^ 64) && s.tickH != 0

/-- The grid point of this edge is a cycle boundary (R35). -/
def State.atBoundary (s : State) : Bool := s.tim.gridH % s.cycleH == 0

/-- The edge counts and is recorded (R36, R38, R39 step 8); the cycle number follows device time. -/
def State.recordEdge (s : State) : State :=
  let c := s.cycleH
  let h := s.tim.half
  let s1 := s.onTim (fun t => { t with tick := t.tick + 1, edgeH := BitVec.ofNat 65 h, cyc := BitVec.ofNat 32 (h / c), clk := 0,
                                       gridH := s.gridFrom (t.gridH + 1) })
  s1

/-- A requested step moves device time, where it is still permitted; the next edge is the first grid point a tick period later (R32).
Where it no longer is, a step of TIM.ADJ applies as a slew (R33), and an offset of the servo is slewed by the Syncs to come (R28). -/
def State.timeStep (s : State) : State :=
  match s.tim.step with
  | none => s
  | some d =>
    if s.stepPermitted then
      let s1 := s.onTim (fun t => { t with time := t.time + BitVec.ofInt 112 (d * 2 ^ 48), step := none, stepCycle := true })
      s1.onTim (fun t => { t with gridH := s1.gridFrom (t.half + s1.tickH), cyc := BitVec.ofNat 32 (t.half / s1.cycleH) })
    else if s.tim.stepAdj then s.onTim (fun t => { t with step := none, slew := d * 2 ^ 48, slewing := decide (d ≠ 0) })
    else s.onTim (fun t => { t with step := none })

/-! ### The lane-cycle reserve (R41-R46) -/

/-- The end of the fixed work of a lane (R42, R65). -/
def State.laneEnd (s : State) (l : Nat) : Nat :=
  (s.img.items.filter (fun i => i.lane == l)).foldl (fun m i => max m (i.start + i.len)) 1

/-- The lanes free for the reserve in CORE clock k of the tick. -/
def State.freeLanes (s : State) (k : Nat) : Nat := ((List.range 4).filter (fun l => decide (s.laneEnd l ≤ k))).length

/-- The lane-cycles of fixed work in clock k. -/
def State.busyLanes (s : State) (k : Nat) : Nat :=
  (s.img.items.filter (fun i => decide (i.start ≤ k) && decide (k < i.start + i.len))).length

/-- `f` lane-cycles to the waiting items, the first first: what waits, what completed, and what was not used (R42). -/
def serve : Nat → List Item → List Item × List Item × Nat
  | f, [] => ([], [], f)
  | f, x :: t =>
    if x.left ≤ f then
      let r := serve (f - x.left) t
      (r.1, x :: r.2.1, r.2.2)
    else ({ x with left := x.left - f } :: t, [], 0)

/-- The item of a probe receives its first lane-cycle: the probe starts (R146). -/
def State.probeItem (s : State) (n : Fin 12) : State :=
  if (s.axes[n]).ctl.work.probeReq then
    (s.onAx n (fun a => { a with ctl := { a.ctl with work := { a.ctl.work with probeReq := false, probe := some 0, probeStep := none } } })).setBit
      (axBase n + AX.ISTAT) 5 true
  else s

/-- The probes whose items the reserve has begun to serve, from what waited before. -/
def State.probesStart (s : State) (before : List Item) : State :=
  overList allAxes (fun s n =>
    if before.any (fun i => i.kind == 1 && i.who == n.val) && s.seq.reserve.all (fun i => i.kind != 1 || i.who != n.val || decide (i.left < 600)) then
      s.probeItem n
    else s) s

/-- The reserve of one CORE clock: the failover's share first, then the requests in order (R42). -/
def State.serveReserve (s : State) : State :=
  let k := s.tim.clk
  let f := s.freeLanes k
  let a := min f s.seq.failLeft
  let r := serve (f - a) s.seq.reserve
  ({ s with seq := { s.seq with
      failLeft := s.seq.failLeft - a, reserve := r.1, done := s.seq.done ++ r.2.1,
      used := s.seq.used + s.busyLanes k + (f - r.2.2) } } : State).probesStart s.seq.reserve

/-- The load of the tick that an edge ends is recorded (R46), and the items that wait grow older. -/
def State.laneEdge (s : State) : State :=
  let u := s.seq.used
  let a := timA TIM.LOADMAX
  let s1 := s.wr a (max (s.rd a) u)
  { s1 with seq := { s1.seq with used := 0, load := u, reserve := s1.seq.reserve.map (fun i => { i with age := i.age + 1 }) } }

/-- A write to TIM.OVBCLR (R46): an increment in the same CORE clock prevails. -/
def State.ovbClear (s : State) (w : Word) : State :=
  let atEdge := s.tim.clk = 0 ∧ 0 < s.tim.tick.toNat
  let s1 := overList (allAxes.filter (fun n => w.getLsbD n.val)) (fun s n =>
    s.wr (axBase n + AX.OVBCNT) (if atEdge ∧ 0 < (s.axes[n]).ctl.overRun then 1 else 0)) s
  if w.getLsbD 15 then
    (s1.wr (timA TIM.OVBTOT) (if atEdge ∧ s1.seq.overAny then 1 else 0)).wr (timA TIM.LOADMAX) (if atEdge then s1.seq.load else 0)
  else s1

/-! ### Meanings -/

/-- SYNC (R28). -/
def execSyncMsg (p : Fin 2) (theta : Int) (ts : Nat) (s : State) : Host.Outcome State Fault Refusal := .next (s.awake fun s => s.onSync p theta ts)
/-- SERVO_LOCK (R27). -/
def execServoLock (s : State) : Host.Outcome State Fault Refusal := .next (s.awake fun s => s.servoLock)
/-- OUTLIER_RETURN (R29). -/
def execOutlierReturn (s : State) : Host.Outcome State Fault Refusal := .next (s.awake fun s => s.outlierReturn)
/-- SERVO_DIVERGE (R30). -/
def execServoDiverge (s : State) : Host.Outcome State Fault Refusal := .next (s.awake fun s => s.servoDiverge)
/-- SYNC_RECEIPT_TIMEOUT (R27). -/
def execSyncReceiptTimeout (s : State) : Host.Outcome State Fault Refusal := .next (s.awake fun s => s.syncLost)
/-- ANNOUNCE (R25, R27). -/
def execAnnounceMsg (p : Fin 2) (gm r0 r1 : Nat) (s : State) : Host.Outcome State Fault Refusal :=
  .next (s.awake fun s => s.announced p gm r0 r1)
/-- ANNOUNCE_RECEIPT_TIMEOUT (R23): the BMCA ends without the master of port p. -/
def execAnnounceReceiptTimeout (p : Fin 2) (gm r0 r1 : Nat) (s : State) : Host.Outcome State Fault Refusal :=
  .next (s.awake fun s => s.announceLost p gm r0 r1)
/-- PDELAY_EXCHANGE (R24). -/
def execPdelayExchange (p : Fin 2) (delay : Option Nat) (s : State) : Host.Outcome State Fault Refusal := .next (s.awake fun s => s.pdelay p delay)
/-- TIME_STEP (R32). -/
def execTimeStep (s : State) : Host.Outcome State Fault Refusal := .next (s.awake fun s => s.timeStep)
/-- SLEW_COMPLETE (R33): the slew of TIM.ADJ that has nothing left to move ends, and the servo's slew ends. -/
def execSlewComplete (s : State) : Host.Outcome State Fault Refusal := .next (s.awake fun s => s.slewComplete.servoSlewEnd)

end Sys2Proof.Machine
end

