-- ==== Sys2Proof/Machine/RegWrite.lean ====
section
/-! DEFINITION. Writes to plain registers: what each accepts (its range and its state), and what a write changes beside the
value itself (R11, R517, and the write rules of the chapters). -/

namespace Sys2Proof.Machine

/-! ### Judging -/

/-- How a write is judged (R94): the state rule first, then the range. -/
def verdict (badState badRange : Bool) : Status := if badState then .state else if badRange then .range else .done

/-- The value of a row as a number. -/
def Row.num (r : Row) (v : Val) : Int := if r.sgn then (v.setWidth r.width).toInt else (v.setWidth r.width).toNat

/-- The value lies in the range of its row. -/
def Row.inRange (r : Row) (v : Val) : Bool := decide (r.lo ≤ r.num v) && decide (r.num v ≤ r.hi)

/-- The bits of a register of AX[n] whose option the valve map does not enable: they read 0 and ignore writes (R158, R189, R191). -/
def State.deadBits (s : State) (n : Fin 12) (o : Nat) : Nat :=
  let off (i m : Nat) : Nat := if s.opt n i then 0 else m
  if o = AX.ICFG then off 5 0xC00 + off 4 0x300
  else if o = AX.OCFG then off 2 8 + off 0 4
  else if o = AX.STLCFG then off 1 0xD0
  else 0

/-- Axis n rests without current: OFF or MUTE. -/
def State.isOff (s : State) (n : Fin 12) : Bool := s.st n == .off || s.st n == .mute
/-- OFF, MUTE or HOLD. -/
def State.isStill (s : State) (n : Fin 12) : Bool := s.isOff n || s.st n == .hold

/-- Limits may not be zero in these states (R124). -/
def State.inMotion (s : State) (n : Fin 12) : Bool :=
  match s.st n with
  | .move | .stopping | .follow | .homing | .yield => true
  | _ => false

/-- Motion registers (R106, R124, R125): the broken state rule and the broken range rule. -/
def State.judgeMotion (s : State) (n : Fin 12) (o : Nat) (old v : Nat) : Bool × Bool :=
  if o = AX.AMAX ∨ o = AX.DMAX then (v == 0 && s.inMotion n, false)
  else if o = AX.YAMAX then (v == 0 && s.st n == .yield, false)
  else if o = AX.SETPOS then (!s.isOff n, false)
  else if o = AX.CFG then
    (v.testBit 1 != old.testBit 1 && !s.isStill n,
      (v.testBit 1 && s.axr n AX.MODLEN == 0) || (v.testBit 0 && !old.testBit 0 && decide (s.ax48 n AX.SLMAX ≤ s.ax48 n AX.SLMIN)))
  else if o = AX.MODLEN then (!s.isStill n, v == 0 && s.axb n AX.CFG 1)
  else if o = AX.SLMIN then (false, s.axb n AX.CFG 0 && decide (s.ax48 n AX.SLMAX ≤ (BitVec.ofNat 48 v).toInt))
  else if o = AX.SLMAX then (false, s.axb n AX.CFG 0 && decide ((BitVec.ofNat 48 v).toInt ≤ s.ax48 n AX.SLMIN))
  else if o = AX.GSRC then
    let i := Machine.fld v 9 0
    (false, match Machine.fld v 15 14 with | 0 => decide (11 < i) | 1 => false | 2 => i != 0 | _ => true)
  else (false, false)

/-- Current-control registers (R138, R143, R144, R154, R160, R161). -/
def State.judgeCurrent (s : State) (n : Fin 12) (o : Nat) (old v : Nat) : Bool × Bool :=
  let up (i : Nat) : Bool := v.testBit i && !old.testBit i
  if o = AX.ICFG then
    (false, (up 3 && ((!s.opt n 0 && (s.recd n).port == 0xFF) || s.axr n AX.KPOS == 0)) ||
      ((up 5 || up 7) && s.energised n && s.windingZero n))
  else if o = AX.KP ∨ o = AX.KI then (s.axb n AX.ICFG 7, false)
  else if o = AX.IBW then (false, decide (v < 100) || decide ((if s.tpr = 0 then 12500 else 40000000 / s.tpr) < v))
  else if o = AX.RNOM ∨ o = AX.LNOM then (!s.isOff n, false)
  else if AX.RA ≤ o ∧ o ≤ AX.LB then (!s.isOff n && s.axb n AX.ICFG 8, false)
  else if AX.DETA1 ≤ o ∧ o ≤ AX.DETB4 then (!s.isOff n && s.axb n AX.ICFG 10, false)
  else if o = AX.TRKCFG then (false, decide (Machine.fld v 15 12 < 2) || decide (Machine.fld v 11 8 < 2) || Machine.fld v 7 0 == 0)
  else if o = AX.DETCFG then (false, decide (Machine.fld v 11 8 < 2))
  else if o = AX.DETVMIN then (false, decide (s.axr n AX.DETVMAX ≤ v))
  else if o = AX.DETVMAX then (false, decide (v ≤ s.axr n AX.DETVMIN))
  else (false, false)

/-- Observation registers (R165, R186, R191, R193). -/
def State.judgeObs (s : State) (n : Fin 12) (o : Nat) (old v : Nat) : Bool × Bool :=
  if o = AX.OBSBW then (false, decide (v < 10) || decide ((if s.tpr = 0 then 6250 else 20000000 / s.tpr) < v))
  else if o = AX.SRATIO ∨ o = AX.SOFS then (!s.isStill n, false)
  else if o = AX.OCFG then (v.testBit 8 != old.testBit 8 && !s.isStill n, false)
  else if o = AX.STLCFG then (false, decide (Machine.fld v 15 12 < 2) || Machine.fld v 11 8 == 0)
  else if AX.SBL ≤ o then (!s.isOff n && s.axb n AX.STLCFG 7, false)
  else (false, false)

/-- Registers of yield, touch and identification (R414). -/
def State.judgePeople (s : State) (n : Fin 12) (o : Nat) (v : Nat) : Bool × Bool :=
  (s.st n == .identify && (o == AX.IDCUR || o == AX.IDVMAX || o == AX.IDVL || o == AX.FPRTOL || o == AX.FPLTOL),
    o == AX.IDVL && decide (s.axr n AX.IDVMAX < v))

/-- Registers of AX[n]. Those of current control, observation and working beside people belong to power axes (R157, R188, R411). -/
def State.judgeAx (s : State) (n : Fin 12) (o : Nat) (old v : Nat) : Bool × Bool :=
  if 0x200 ≤ o ∧ !s.isPower n then (true, false)
  else if o < 0x200 ∨ o = AX.YAMAX then s.judgeMotion n o old v
  else if o < 0x300 then s.judgeCurrent n o old v
  else if o < 0x400 then s.judgeObs n o old v
  else s.judgePeople n o v

/-- Registers of a PWM unit (R205, R212, R222, R254); those of a partner refuse every write (R199). -/
def State.judgeUnit (s : State) (u : Nat) (o : Nat) (old v : Nat) : Bool × Bool :=
  let sw := s.switching u
  let b := unitBase u
  let r (x : Nat) : Nat := s.rd (b + x)
  let now (x : Nat) : Nat := if o = x then v else r x
  let te : Int := (BitVec.ofNat 16 (now PU.TE)).toInt
  let order := decide (now PU.DTNOM < now PU.DTMIN) || decide (now PU.DTMAX < now PU.DTNOM) ||
    decide (now PU.DTR < now PU.DTMIN) || decide (now PU.DTMAX < now PU.DTR) || decide (now PU.DTF < now PU.DTMIN) ||
    decide (now PU.DTMAX < now PU.DTF) || decide ((now PU.DTMAX : Int) < te.natAbs)
  if s.isPartner u then (true, false)
  else if o = PU.PCFG then (Machine.fld v 12 7 != Machine.fld old 12 7 && sw, decide (Machine.fld v 3 0 < 2))
  else if o = PU.DTR ∨ o = PU.DTF ∨ o = PU.TE then (sw && s.bit (b + PU.PCFG) 5, order)
  else if o = PU.DTNOM ∨ o = PU.DTMIN ∨ o = PU.DTMAX then (sw, order)
  else if o = PU.DTMARG ∨ o = PU.DTIMIN ∨ o = PU.TMIN ∨ o = PU.REFN ∨ o = PU.REFW ∨ o = PU.OCTHR ∨ o = PU.OCBLANK ∨ o = PU.OCQ ∨
      o = PU.VDSTHR ∨ o = PU.BUVTHR then (sw, false)
  else if o = PU.DLLCODE then (!s.bit (b + PU.PCFG) 15, false)
  else (false, false)

/-- Registers of the pins and of homing (R284, R288). -/
def State.judgeGpio (s : State) (a : Nat) (old v : Nat) : Bool × Bool :=
  if 0x111000 ≤ a then
    (match (allAxes[(a - 0x111000) / 0x40]?) with | some n => s.st n == .homing | none => false, false)
  else if gpioA GPIO.MODE ≤ a then
    let p := (a - gpioA GPIO.MODE) / 4
    (v.testBit 5 && !old.testBit 5 && (s.fld (gpioA GPIO.FUNC + 4 * p) 15 8 != 0 || (if h : p < 24 then s.pinTaken ⟨p, h⟩ else false)), Machine.fld v 3 2 == 3)
  else (false, false)

/-- Registers of the comparators (R385, R392, R394). -/
def State.judgeCmp (s : State) (a : Nat) (old v : Nat) : Bool × Bool :=
  let r (x : Nat) : Nat := s.rd (cmpA x)
  let i16 (x : Nat) : Int := (BitVec.ofNat 16 x).toInt
  if a = cmpA CMP.VMUV then (false, decide (r CMP.VMOV < v + 20))
  else if a = cmpA CMP.VMOV then (false, decide (v < r CMP.VMUV + 20))
  else if a = cmpA CMP.OTREL then (false, decide (i16 (r CMP.OTTRIP) < i16 v + 20))
  else if a = cmpA CMP.OTTRIP then (false, decide (i16 v < i16 (r CMP.OTREL) + 20))
  else if cmpA CMP.WCFG ≤ a ∧ a < cmpA CMP.WKSTAT then (false, decide (Machine.fld v 5 0 < 8))
  else if cmpA CMP.AZTRIM ≤ a then (Machine.fld v 5 0 != Machine.fld old 5 0 && old.testBit 15, Machine.fld v 5 0 == 32)
  else (false, false)

/-- Registers of the backbone (R420, R453). -/
def State.judgeNet (s : State) (b : Nat) (old v : Nat) : Bool × Bool :=
  let addressed := s.rd (netA NET.ADDR) != 0 || s.fld (netA NET.NSTAT) 13 12 != 0
  let eq (p : Nat) : Bool := s.bit (netpBase p + NETP.EQ) 15 && s.bit (netpBase p + NETP.PSTAT) 15
  if b = netA NET.ADDRREQ ∨ b = netA NET.CFG then (addressed, false)
  else if b = netA NET.TXDLY then (false, decide (0 < s.cycleH) && decide (s.cycleH ≤ 200 * v))
  else if b = netpBase 0 + NETP.EQ ∨ b = netpBase 1 + NETP.EQ then
    (Machine.fld old 11 8 != Machine.fld v 11 8 && eq (if b = netpBase 0 + NETP.EQ then 0 else 1), false)
  else if b = netpBase 0 + NETP.DFE1 ∨ b = netpBase 0 + NETP.DFE2 then (eq 0, false)
  else if b = netpBase 1 + NETP.DFE1 ∨ b = netpBase 1 + NETP.DFE2 then (eq 1, false)
  else (false, false)

/-- The state rule and the range rule that a write of `v` to the register at `b` would break. -/
def State.broken (s : State) (b : Nat) (old v : Nat) : Bool × Bool :=
  if h : 0x080000 ≤ b ∧ b < 0x0B0000 then s.judgeAx ⟨(b - 0x080000) / 0x4000, by omega⟩ ((b - 0x080000) % 0x4000) old v
  else if 0x0C0000 ≤ b ∧ b < 0x0C3000 then s.judgeUnit ((b - 0x0C0000) / 0x100) (b % 0x100) old v
  else if 0x0C3000 ≤ b ∧ b < 0x0D0000 then s.judgeUnit (40 + (b - 0x0C3000) / 0x100) (b % 0x100) old v
  else if 0x0D0000 ≤ b ∧ b < 0x0D0800 then
    (false, Machine.fld v 7 0 == 0 || decide (256 < Machine.fld v 15 8 + Machine.fld v 7 0))
  else if 0x0E0000 ≤ b ∧ b < 0x0E1000 then
    let p := prtBase ((b - 0x0E0000) / 0x100)
    (false, (b == p + PRT.AMIN && decide (s.rd (p + PRT.AMAX) ≤ v)) || (b == p + PRT.AMAX && decide (v ≤ s.rd (p + PRT.AMIN))))
  else if 0x0F0000 ≤ b ∧ b < 0x100000 then
    let f := frcBase ((b - 0x0F0000) / 0x100)
    (false, (b == f + FRC.FCFG && Machine.fld v 3 2 == 3) || (b == f + FRC.TREL && decide (s.rd (f + FRC.TTHR) ≤ v)) ||
      (b == f + FRC.TTHR && decide (v ≤ s.rd (f + FRC.TREL))))
  else if 0x100000 ≤ b ∧ b < 0x110000 then s.judgeCmp b old v
  else if 0x110000 ≤ b ∧ b < 0x112000 then s.judgeGpio b old v
  else if devA DEV.TRIPCFG ≤ b ∧ b < devA DEV.TRIPCFG + 16 then (false, Machine.fld v 11 8 == 0)
  else if b = timA TIM.PTPCFG then
    let i4 (x : Nat) : Int := (BitVec.ofNat 4 x).toInt
    (false, !(decide (-2 ≤ i4 (Machine.fld v 7 4)) && decide (i4 (Machine.fld v 7 4) ≤ 3) && decide (-5 ≤ i4 (Machine.fld v 3 0)) && decide (i4 (Machine.fld v 3 0) ≤ 0)))
  else if 0x050000 ≤ b ∧ b < 0x058000 then s.judgeNet b old v
  else if fltA FLT.RT ≤ b ∧ b < 0x050000 then (false, decide (((evRow (rtCode b)).map (·.max)).getD 0 < v % 16))
  else (false, false)

/-- The judgement of a write that would leave `v` in a register. -/
def State.judge (s : State) (r : Row) (b : Nat) (v : Val) : Status :=
  let x := s.broken b (s.rd b) v.toNat
  verdict x.1 (!r.inRange v || x.2)

/-! ### What a write changes beside the value -/

/-- Registers of AX[n] after a write (R90, R101, R114, R125, R153, R170). -/
def State.afterAx (s : State) (n : Fin 12) (o : Nat) (old v : Nat) : State :=
  let zero (s : State) : State := s.onMot n (fun m => { m with modOff := 0 })
  if o = AX.SETPOS then
    let p : Int := (BitVec.ofNat 48 v).toInt
    let s1 := zero (s.onMot n (fun m => { m with
      pos := BitVec.ofInt 80 (p * 2 ^ 32), snapPos := BitVec.ofInt 48 p, prevPos := BitVec.ofInt 48 p, rem := 0, remValid := false,
      keep := false, atTarget := false }))
    s1.onFol n (fun f => { f with outCell := s1.stepCell n })
  else if o = AX.MODLEN then zero s
  else if o = AX.CFG then (if v.testBit 1 && !old.testBit 1 then zero s else s)
  else if o = AX.VMAX ∨ o = AX.AMAX ∨ o = AX.DMAX ∨ o = AX.JMAX then s.onMot n (fun m => { m with replan := true })
  else if o = AX.SDEC then s.onMot n (fun m => { m with restart := true })
  else if o = AX.GNUM ∨ o = AX.GDEN then s.onFol n (fun f => { f with reanchor := true })
  else if o = AX.STEPSZ then s.onFol n (fun f => { f with outCell := s.stepCell n })
  else if o = AX.RNOM then (s.seed (axBase n + AX.RA) v).seed (axBase n + AX.RB) v
  else if o = AX.LNOM then (s.seed (axBase n + AX.LA) v).seed (axBase n + AX.LB) v
  else if (AX.RA ≤ o ∧ o ≤ AX.LB) ∨ (AX.DETA1 ≤ o ∧ o ≤ AX.DETB4) ∨ (AX.SBL ≤ o ∧ o < AX.SBL + 64) then s.seed (axBase n + o) v
  else if o = AX.SOFS then s.setBit (ostat n) 9 true
  else if o = AX.SRATIO then s.setBit (ostat n) 9 false
  else if o = AX.OCFG then (if v.testBit 8 != old.testBit 8 then s.setBit (ostat n) 9 false else s)
  else s

/-- Registers of a PWM unit after a write (R198, R203-R205, R212): whole-clock placement after a divergence ends with dll_freeze. -/
def State.afterUnit (s : State) (u : Nat) (o : Nat) (v : Nat) : State :=
  let i16 : Int := (BitVec.ofNat 16 v).toInt
  if o = PU.DTR then s.onUnit u (fun x => { x with dtr := Learn.at (v * 65536) })
  else if o = PU.DTF then s.onUnit u (fun x => { x with dtf := Learn.at (v * 65536) })
  else if o = PU.TE then s.onUnit u (fun x => { x with te := Learn.at (i16 * 65536) })
  else if o = PU.DLLCODE then s.onUnit u (fun x => { x with dll := Learn.at (v * 65536) })
  else if o = PU.PCFG then
    let s1 := if v.testBit 7 then s.setFld (unitBase u + PU.PCFG) 12 8 (autoStag (s.windingFirst u) % 32).toNat else s
    (if v.testBit 15 then s1 else s1.onUnit u (fun x => { x with dllOut := false })).dtShow u
  else s

/-- DEV.TRIPCFGi after a write (R258): an input enabled while asserted sets the latches of its units. -/
def State.tripConfig (s : State) (i : Fin 4) : State :=
  let s1 := s.tripShow i
  if s1.tripAsserted i s1.stage.trip[i] then s1.tripAct i
  else s1.onStage (fun g => { g with tripLog := g.tripLog.set i false })

/-- The times that a CMP output is held after a change of mode: twice the delay of the slower mode (R372). -/
def holdTime (a b : Nat) : Nat := 2 * max (modeDelay a) (modeDelay b)

/-- What a write of `v` over `old` at `b` changes beside the value. -/
def State.after (s : State) (b : Nat) (old v : Nat) : State :=
  if h : 0x080000 ≤ b ∧ b < 0x0B0000 then s.afterAx ⟨(b - 0x080000) / 0x4000, by omega⟩ ((b - 0x080000) % 0x4000) old v
  else if 0x0C0000 ≤ b ∧ b < 0x0C3000 then s.afterUnit ((b - 0x0C0000) / 0x100) (b % 0x100) v
  else if 0x0C3000 ≤ b ∧ b < 0x0D0000 then s.afterUnit (40 + (b - 0x0C3000) / 0x100) (b % 0x100) v
  else if h : adcBase 0 + ADC.FILT ≤ b ∧ b < adcBase 0 + ADC.FILT + 48 then
    s.settleInput ((b - (adcBase 0 + ADC.FILT)) / 4) (max (filtTime (old % 4)) (filtTime (v % 4)))
  else if h : 0x0F0000 ≤ b ∧ b < 0x0F0800 then
    let m : Fin 8 := ⟨(b - 0x0F0000) / 0x100, by omega⟩
    if b = frcBase m + FRC.TN then s.onFrc m (fun g => { g with on := 0, off := 0 })
    else if b = frcBase m + FRC.RSTBAND ∨ b = frcBase m + FRC.RSTQT then s.onFrc m (fun g => { g with quiet := 0 })
    else s
  else if h : 0x100000 ≤ b ∧ b < 0x100200 then
    let m : Fin 8 := ⟨(b - 0x100000) / 0x40, by omega⟩
    if b = cmpBase m + CMPC.CCFG ∧ Machine.fld old 15 14 ≠ Machine.fld v 15 14 then s.cmpHold m (holdTime (Machine.fld old 15 14) (Machine.fld v 15 14)) else s
  else if h : cmpA CMP.WCFG ≤ b ∧ b < cmpA CMP.WCFG + 8 then s.wakeAgain ⟨(b - cmpA CMP.WCFG) / 4, by omega⟩ v
  else if h : cmpA CMP.AZTRIM ≤ b ∧ b < cmpA CMP.AZTRIM + 404 then
    let c : Fin 101 := ⟨(b - cmpA CMP.AZTRIM) / 4, by omega⟩
    if Machine.fld old 5 0 ≠ Machine.fld v 5 0 then s.onCmps (fun k => { k with az := k.az.set c ⟨0, [], 0⟩ }) else s
  else if gpioA GPIO.MODE + 64 ≤ b ∧ b < gpioA GPIO.MODE + 96 then s.settleInput ((b - (gpioA GPIO.MODE + 64)) / 4) 4000
  else if h : devA DEV.TRIPCFG ≤ b ∧ b < devA DEV.TRIPCFG + 16 then s.tripConfig ⟨(b - devA DEV.TRIPCFG) / 4, by omega⟩
  else if 0x040440 ≤ b ∧ b ≤ 0x0406FC then
    s.onFlt (fun f => { f with
      tableBad := f.tableBad.filter (· != rtCode b), upsets := f.upsets.filter (fun u => !(u.store == .table && u.index == rtCode b)),
      eccLogged := f.eccLogged.filter (fun e => !(e.1 == .table && e.2 == rtCode b)) })
  else s

/-! ### Writes -/

/-- Outputs take data only on pins of function 0x90 (R283). -/
def State.outMask (s : State) (b : Nat) : Nat :=
  if b = gpioA GPIO.OUTA ∨ b = gpioA GPIO.OUTB then
    let k := if b = gpioA GPIO.OUTA then 0 else 16
    ((List.range 16).filter (fun i => decide (k + i < 24) && s.fld (gpioA GPIO.FUNC + 4 * (k + i)) 15 8 == 0x90)).foldl (fun m i => m + 2 ^ i) 0
  else 0xFFFF

/-- The bits that a write can change now. -/
def State.writable (s : State) (r : Row) (b : Nat) : Nat :=
  let m := if h : 0x080000 ≤ b ∧ b < 0x0B0000 then
      r.wm &&& (0xFFFFFFFFFFFFFFFF ^^^ s.deadBits ⟨(b - 0x080000) / 0x4000, by omega⟩ ((b - 0x080000) % 0x4000))
    else r.wm
  if gpioA GPIO.MODE ≤ b ∧ b < gpioA GPIO.MODE + 64 then m &&& 0xFFDF
  else if b = netA NET.PUB + 4 then m &&& 0x3FFF
  else if b = netA NET.PUB + 8 then 0
  else if b = wldA WLD.SBLK + 12 then m &&& 0x00FF
  else if r.words = 1 then m &&& s.outMask b else m

/-- `data` merged into `old` under `mask`. -/
def mergeBits (old data : Val) (mask : Nat) : Val :=
  (old &&& ~~~ BitVec.ofNat 64 mask) ||| (data &&& BitVec.ofNat 64 mask)

/-- The flags that a write of ones clears. -/
def State.clearBits (s : State) (b : Nat) (bits : Nat) : State :=
  overList ((List.range 16).filter bits.testBit) (fun s i => s.clearFlag b i) s

/-- The W1C bits of a write take effect (R11): a trip latch and a short latch clear under their own rules (R218, R293). -/
def State.w1c (s : State) (b : Nat) (bits : Nat) : Status × State :=
  if bits = 0 then (.done, s)
  else if 0x0C0000 ≤ b ∧ b < 0x0D0000 ∧ b % 0x100 = PU.PSTAT ∧ bits.testBit 15 then
    let u := if b < 0x0C3000 then (b - 0x0C0000) / 0x100 else 40 + (b - 0x0C3000) / 0x100
    let r := s.tripClear u
    if r.1 = .done then (.done, r.2.clearBits b (bits % 2 ^ 15)) else r
  else if h : 0x0E1000 ≤ b ∧ b < 0x0E1400 ∧ b % 0x100 = EXC.ESTAT ∧ bits.testBit 15 then
    (.done, (s.shortClear ⟨(b - 0x0E1000) / 0x100, by omega⟩).clearBits b (bits % 2 ^ 15))
  else (.done, s.clearBits b bits)

/-- The value that a commit completes: words not staged take it (R519). -/
def State.held (s : State) (b : Nat) : Val := if b = timA TIM.RATE then s.tim.rate.setWidth 64 else s.val b

/-- A power-axis register of an axis that is not a power axis: every write is refused (R157, R188, R411). -/
def State.foreignAx (s : State) (b : Nat) : Bool :=
  if h : 0x080000 ≤ b ∧ b < 0x0B0000 then decide (0x200 ≤ (b - 0x080000) % 0x4000) && !s.isPower ⟨(b - 0x080000) / 0x4000, by omega⟩ else false

/-- A value as its words hold it: a signed one narrower than them is sign-extended through their unused high bits (R10). -/
def Row.fill (r : Row) (v : Val) : Val :=
  if r.sgn ∧ r.width < 16 * r.words then (((v.setWidth r.width).signExtend (16 * r.words)).setWidth 64) else v

/-- The driver of the port whose register lies at `b` runs. -/
def State.portDriven (s : State) (b : Nat) : Bool := if h : (b - 0x0E0000) / 0x200 < 4 then (s.excs[(b - 0x0E0000) / 0x200]).run else false

/-- A register whose writes act from the next tick edge, or a port's from its next slot boundary (R310): current control, observation, work beside people, the configuration of the force
channels, the open-winding test, and the chatter limits (R142, R193, R254, R288, R334, R414). -/
def State.actsNext (s : State) (b : Nat) : Bool :=
  (portReg b && s.portDriven b) || s.tim.ticking && ((decide (0x080000 ≤ b) && decide (b < 0x0B0000) && decide (0x200 ≤ (b - 0x080000) % 0x4000)) ||
    (decide (0x0F0000 ≤ b) && decide (b < 0x0F0800) && b % 0x100 == FRC.FCFG) || openTest b ||
    (decide (gpioA GPIO.DEB ≤ b) && decide (b < gpioA GPIO.DEB + 96)))

/-- A value enters a register; bits that hardware has cleared in this CORE clock stay clear (R148). -/
def State.place (s : State) (r : Row) (b : Nat) (v : Val) : State :=
  (if s.actsNext b then s.keepUse b else s).setVal b (s.afterClear b (r.fill v))

/-- A write of `data` under `mask` to a plain register (R517, R519): judged as one value, and changed as one. -/
def State.regWrite (s : State) (r : Row) (b : Nat) (mask : Nat) (data : Val) : Status × State :=
  let m := mask &&& s.writable r b
  let old := s.held b
  let v := mergeBits old data m
  let c := mask &&& r.cm &&& data.toNat
  if b = timA TIM.RATE then s.timRate (v.setWidth 32)
  else if b = timA TIM.ADJ then
    let x := s.timAdj (v.setWidth 48)
    (x.1, if x.1 = .done then x.2.setVal b v else x.2)
  else
    let st := if r.wm = 0 then (if s.foreignAx b then Status.state else Status.done) else s.judge r b v
    if st ≠ .done then (st, s)
    else if r.wm = 0 then s.w1c b c
    else
      let w := s.w1c b c
      if w.1 ≠ .done then (w.1, s)
      else (.done, ((w.2.place r b (mergeBits (w.2.val b) data m)).after b old.toNat v.toNat))

/-! ### Clear registers -/

/-- The counters that the bits of a write-only clear register clear (R517). -/
def clearTargets (b : Nat) : List (Nat × Nat) :=
  if 0x080000 ≤ b ∧ b < 0x0B0000 then (if (b - 0x080000) % 0x4000 = AX.STLCLR then [(0, b - AX.STLCLR + AX.STLCNT)] else [])
  else if 0x0C0000 ≤ b ∧ b < 0x0D0000 then
    (let u := b - b % 0x100
     if b % 0x100 = PU.PCLR then [(0, u + PU.SUPCNT), (1, u + PU.CSATCNT)] ++ (if 0x0C3000 ≤ b then [(2, u + PU.REFCNT)] else [])
     else [(0, u + PU.OCCNT), (1, u + PU.GUARDCNT)])
  else if 0x0D8000 ≤ b ∧ b < 0x0DA000 then
    (let u := b - b % 0x1000; [(0, u + ADC.ABORTCNT), (1, u + ADC.SKIPCNT), (2, u + ADC.DISCCNT)])
  else if 0x0E0000 ≤ b ∧ b < 0x0E1000 then [(0, b - PRT.PCLR + PRT.BRKCNT)]
  else if 0x0E1000 ≤ b ∧ b < 0x0F0000 then [(0, b - EXC.ECLR + EXC.OPCNT), (1, b - EXC.ECLR + EXC.SHCNT)]
  else if 0x0F0000 ≤ b ∧ b < 0x100000 then [(0, b - FRC.FCLR + FRC.TCNT), (1, b - FRC.FCLR + FRC.RNGCNT)]
  else if 0x100000 ≤ b ∧ b < 0x110000 then [(0, b - CMPC.CCLR + CMPC.ECNT)]
  else if b = fltA FLT.FCLR then [(0, fltA FLT.HOVF), (1, fltA FLT.COLLCNT)]
  else if b = netA NET.NCLR then [(0, netA NET.DUPEVCT), (1, netA NET.MISSCNT), (2, netA NET.CYCERR), (3, netA NET.FULLCNT)]
  else if b = netpBase 0 + NETP.PCLR ∨ b = netpBase 1 + NETP.PCLR then
    (let u := b - NETP.PCLR
     [(0, u + NETP.RXFRM), (0, u + NETP.TXFRM), (1, u + NETP.CRCERR), (1, u + NETP.CODEERR), (2, u + NETP.DROPCNT), (2, u + NETP.DROP3),
      (3, u + NETP.LDCNT), (4, u + NETP.CLOAD)])
  else []

/-- A write of ones to a clear register; REFCNT keeps its present count and loses the total (R219). -/
def State.clearReg (s : State) (b : Nat) (bits : Nat) : State :=
  overList (clearTargets b) (fun s t =>
    if bits.testBit t.1 then (if 0x0C3000 ≤ t.2 ∧ t.2 < 0x0C4000 ∧ t.2 % 0x100 = PU.REFCNT then s.setFld t.2 15 8 0 else s.wr t.2 0) else s) s

/-- MOD.MCLR (R366, R367). -/
def State.mclr (s : State) (w : Nat) : Status × State :=
  if h : Machine.fld w 12 8 < 24 then
    let i : Fin 24 := ⟨Machine.fld w 12 8, h⟩
    let r := if w.testBit 1 then s.modRestart i else (.done, s)
    if r.1 ≠ .done then r
    else (.done, if w.testBit 0 then r.2.modCountClear i else r.2)
  else (.range, s)

end Sys2Proof.Machine
end

