-- ==== Sys2Proof/Machine/ImageCheck.lean ====
section
/-! DEFINITION. The bore image as bytes: its layout (R52-R71) and the checks 1 to 14 of R72 (03_bore_image.md). A check answers the
byte offset of the first item that fails it. -/

namespace Sys2Proof.Machine

/-! ### Layout -/

/-- The little-endian number of `k` bytes at offset `i`. -/
def imgN (b : List Byte) (i k : Nat) : Nat := leNat ((b.drop i).take k)

/-- A section: type, offset, length. -/
structure Sect where
  typ : Nat
  off : Nat
  len : Nat
  deriving DecidableEq, Repr

/-- The kind of an image: 1 full, 2 patch (R53). -/
def imgKind (b : List Byte) : Nat := imgN b 6 2
/-- The image is a bore patch. -/
def isPatch (b : List Byte) : Bool := imgKind b == 2
/-- The directory (R54). -/
def sects (b : List Byte) : List Sect :=
  (List.range (imgN b 0x0C 2)).map (fun i => ⟨imgN b (0x40 + 12 * i) 2, imgN b (0x44 + 12 * i) 4, imgN b (0x48 + 12 * i) 4⟩)
/-- The section of a type. -/
def sect? (b : List Byte) (t : Nat) : Option Sect := (sects b).find? (fun s => s.typ == t)
/-- The offset of a section, 0 if absent. -/
def sectOff (b : List Byte) (t : Nat) : Nat := ((sect? b t).map (·.off)).getD 0
/-- The bytes of a section. -/
def sectBytes (b : List Byte) (t : Nat) : List Byte := match sect? b t with | some s => (b.drop s.off).take s.len | none => []

/-- `n` pieces of `k` bytes. -/
def pieces (k : Nat) : Nat → List Byte → List (List Byte)
  | 0, _ => []
  | n + 1, l => l.take k :: pieces k n (l.drop k)

/-- A byte of a piece. -/
def byteAt (l : List Byte) (i : Nat) : Nat := ((l[i]?).getD 0).toNat

/-- The axes whose records the valve map carries (R60). -/
def mapAxes (b : List Byte) : List Nat := (List.range 12).filter (imgN (sectBytes b 1) 0 2).testBit
/-- The bytes of its records. -/
def mapBytes (b : List Byte) : List (Nat × List Byte) :=
  let a := mapAxes b
  a.zip (pieces 16 a.length ((sectBytes b 1).drop 4))
/-- One axis record (R61). -/
def recOf (l : List Byte) : AxRec :=
  let f := byteAt l 1
  { role := byteAt l 0, glide := f.testBit 0, brake := f.testBit 1, par := f.testBit 2, kexp := fld f 5 4, base := byteAt l 2,
    port := byteAt l 3, fmask := byteAt l 4, ysrc := byteAt l 5, stepPin := byteAt l 6, dirPin := byteAt l 7, options := imgN l 8 2,
    shunt := imgN l 10 2 }
/-- The valve map that the image leaves in force: a patch changes only its records. -/
def State.newMap (s : State) (b : List Byte) : Vector AxRec 12 :=
  let old := if isPatch b then s.img.map else Vector.replicate 12 AxRec.none
  (mapBytes b).foldl (fun v x => if h : x.1 < 12 then v.set x.1 (recOf x.2) else v) old

/-- The head of the schedule: sched, foshare, and the items (R65). -/
def schedTotal (b : List Byte) : Nat := imgN (sectBytes b 2) 0 4
/-- The reserve set aside for failover. -/
def schedShare (b : List Byte) : Nat := imgN (sectBytes b 2) 4 4
/-- The items of the schedule. -/
def schedItems (b : List Byte) : List SchedItem :=
  let l := sectBytes b 2
  (pieces 8 (imgN l 8 2) (l.drop 12)).map (fun x => ⟨byteAt x 0, byteAt x 1, byteAt x 2, imgN x 4 2, imgN x 6 2⟩)

/-- One entry of a SAR sequence (R346). -/
structure SarEntry where
  input : Nat
  gain : Nat
  owner : Nat
  rsv : Nat
  deriving DecidableEq, Repr

/-- The entry as a 16-bit ENT word (R368). -/
def SarEntry.word (e : SarEntry) : Nat := e.gain * 16384 + e.input * 256 + e.owner
/-- The entry that an ENT word stands for. -/
def sarEntry (w : Nat) : SarEntry := ⟨fld w 13 8, w / 16384, w % 256, 0⟩
/-- The sequences of a section (R66). -/
def sarParse (l : List Byte) : List (List SarEntry) :=
  let one (l : List Byte) : List SarEntry :=
    (pieces 4 (min 33 (imgN l 0 2)) (l.drop 4)).map (fun x => ⟨byteAt x 0, byteAt x 1, byteAt x 2, byteAt x 3⟩)
  [one l, one (l.drop (4 + 4 * imgN l 0 2))]
/-- The sequences that the image leaves in force. -/
def State.newSar (s : State) (b : List Byte) : List (List SarEntry) :=
  match sect? b 3 with
  | some _ => sarParse (sectBytes b 3)
  | none => s.img.sar.map (fun q => q.map sarEntry)
/-- The excitation records that the image leaves in force: enable, frequency, amplitude (R68). -/
def State.newExc (s : State) (b : List Byte) : List (Nat × Nat × Nat) :=
  match sect? b 5 with
  | some _ => (pieces 8 4 (sectBytes b 5)).map (fun x => (imgN x 0 2, imgN x 2 2, imgN x 4 2))
  | none => if isPatch b then s.img.exc else []
/-- An excitation record; none is a disabled driver. -/
def excRec (l : List (Nat × Nat × Nat)) (d : Nat) : Nat × Nat × Nat := (l[d]?).getD (0, 0, 0)

/-! ### The checks -/

/-- The offset of the first item of a list that breaks its rule. -/
def firstBad {A : Type} (l : List A) (bad : A → Bool) (off : A → Nat) : Option Nat := (l.find? bad).map off
/-- An offset where a condition does not hold. -/
def demand (ok : Bool) (off : Nat) : Option Nat := if ok then none else some off

/-- Check 1: the length (R52). -/
def check1 (b : List Byte) : Option Nat :=
  demand (decide (256 ≤ b.length) && decide (b.length ≤ 65536) && b.length % 4 == 0 && imgN b 8 4 == b.length) 8

/-- Check 2: magic, version, kind, stepping, reserved bytes (R53). -/
def check2 (b : List Byte) : Option Nat :=
  demand (imgN b 0 4 == 0x45524F42) 0 <|> demand (imgN b 4 2 == 1) 4 <|> demand (imgKind b == 1 || imgKind b == 2) 6 <|>
  demand (imgN b 0x0E 2 == 0xB1) 0x0E <|> firstBad (List.range 28) (fun i => imgN b (0x24 + i) 1 != 0) (fun i => 0x24 + i)

/-- The trailer key (R56). -/
def trailerKey (b : List Byte) : List Byte := (b.drop (b.length - 128)).take 64

/-- Every key slot is blank (R58). -/
def Bore.unbound (t : Bore) : Bool := t.keys.toList.all Option.isNone

/-- Check 3: the key slot (R57), demand the part is unbound. -/
def State.check3 (s : State) (b : List Byte) : Option Nat :=
  if s.bore.unbound then none
  else
    let k := imgN b 0x1A 2
    match (s.bore.keys.toList[k]?).getD none with
    | none => some 0x1A
    | some h =>
      if ((s.bore.revoked.toList[k]?).getD true) then some 0x1A
      else demand (beNat (sha256 (trailerKey b)) == h.toNat) (b.length - 128)

/-- Check 4: the signature (R56). -/
def check4 (b : List Byte) : Option Nat :=
  let n := b.length
  let c (i : Nat) : Nat := beNat ((b.drop (n - 128 + 32 * i)).take 32)
  demand (ecdsaVerify (c 0) (c 1) (c 2) (c 3) (beNat (sha256 (b.take (n - 64))))) (n - 64)

/-- The section types of an image of this kind: required, then allowed (R55). -/
def allowedSects (patch : Bool) : List Nat × List Nat :=
  if patch then ([1, 2], [1, 2, 3, 5, 9]) else ([1, 2, 3, 4], [1, 2, 3, 4, 5, 6, 7, 8, 9])

/-- Check 5: the directory (R54, R55), and zero bytes between the sections (R52). -/
def check5 (b : List Byte) : Option Nat :=
  let n := imgN b 0x0C 2
  let l := sects b
  let idx := (List.range n).zip l
  let dirEnd := 0x40 + 12 * n
  let al := allowedSects (isPatch b)
  demand (decide (1 ≤ n) && decide (n ≤ 16) && decide (dirEnd ≤ b.length - 128)) 0x0C <|>
  firstBad idx (fun x => imgN b (0x42 + 12 * x.1) 2 != 0 || !al.2.contains x.2.typ || x.2.off % 4 != 0 || decide (x.2.off < dirEnd) ||
    decide (b.length - 128 < x.2.off + x.2.len) ||
    idx.any (fun y => decide (y.1 < x.1) && (y.2.typ == x.2.typ || (decide (x.2.off < y.2.off + y.2.len) && decide (y.2.off < x.2.off + x.2.len)))))
    (fun x => 0x40 + 12 * x.1) <|>
  demand (al.1.all (fun t => l.any (fun x => x.typ == t))) 0x40 <|>
  firstBad ((List.range (b.length - 128)).zip b) (fun x => decide (dirEnd ≤ x.1) && x.2 != 0 &&
    !l.any (fun y => decide (y.off ≤ x.1) && decide (x.1 < y.off + y.len))) Prod.fst

/-- Check 6: the tick grid (R34). -/
def State.check6 (s : State) (b : List Byte) : Option Nat :=
  let t := imgN b 0x1C 2
  let m := imgN b 0x1E 2
  demand (decide (3200 ≤ t) && decide (t ≤ 51200)) 0x1C <|>
  demand (decide (4 ≤ m) && decide (m ≤ 4096) && decide (50000 ≤ t * m)) 0x1E <|>
  (if isPatch b then demand (t == s.tpr) 0x1C <|> demand (m == s.rd (timA TIM.CYCM)) 0x1E else none)

/-- Check 7: a patch's base and level. -/
def State.check7 (s : State) (b : List Byte) : Option Nat :=
  if isPatch b then
    demand (s.img.active && imgN b 0x14 4 == s.rd (borA BOR.ID)) 0x14 <|> demand (imgN b 0x18 2 == s.rd (borA BOR.LEVEL) + 1) 0x18
  else none

/-- What an axis takes for itself: units, sensor port, force channels, pins, each under a number of its own kind (R14). -/
def AxRec.takes (r : AxRec) : List Nat :=
  r.units ++ (if r.port < 8 then [100 + r.port] else []) ++ ((List.range 8).filter r.fmask.testBit).map (200 + ·) ++
  (if r.role = 3 then [300 + r.stepPin, 300 + r.dirPin] else [])

/-- The record of an axis obeys R61 to R64. -/
def recOk (n : Nat) (l : List Byte) (tickper : Nat) (exc : List (Nat × Nat × Nat)) : Bool :=
  let r := recOf l
  let power := r.role == 1 || r.role == 2
  let f := byteAt l 1
  decide (r.role ≤ 4) && fld f 7 6 == 0 && !f.testBit 3 && decide (r.kexp ≤ 2) &&
  (match r.role with
    | 1 => decide (r.base ≤ 9) && (!r.par || (decide (r.base ≤ 8) && r.base != 4)) && decide (4000 * 2 ^ r.kexp ≤ tickper)
    | 2 => decide (r.base ≤ 1) && !r.par && decide (2000 * 2 ^ r.kexp ≤ tickper)
    | _ => r.base == 0xFF && !r.par) &&
  (r.port == 0xFF || (decide (r.port < 8) && power && (excRec exc (r.port / 2)).1 == 1)) &&
  (r.fmask == 0 || (power && decide (((List.range 8).filter r.fmask.testBit).length ≤ 2))) &&
  (r.ysrc == 0xFF || r.ysrc == 0xFE || (decide (r.ysrc < 8) && r.fmask.testBit r.ysrc)) &&
  (if r.role = 3 then decide (r.stepPin < 24) && decide (r.dirPin < 24)
   else r.stepPin == 0xFF && r.dirPin == 0xFF) &&
  decide (r.options < 64) && (r.options == 0 || power) && (!r.options.testBit 3 || r.ysrc != 0xFF) &&
  (!r.glide || (decide (n ≤ 3) && r.role != 0)) && (!r.brake || power) &&
  (if r.role = 2 then decide (1000 ≤ r.shunt) else r.shunt == 0) && imgN l 12 4 == 0

/-- Check 8: the valve map (R60-R64, R14). -/
def State.check8 (s : State) (b : List Byte) : Option Nat :=
  let o := sectOff b 1
  let v := sectBytes b 1
  let m := imgN v 0 2
  let k := (mapAxes b).length
  let new := s.newMap b
  let rows := (List.range k).zip (mapBytes b)
  let others (n : Nat) : List Nat := (List.range 12).filter (· != n)
  demand (decide (m < 4096) && imgN v 2 2 == 0 && (isPatch b || m == 0xFFF)) o <|> demand (v.length == 4 + 16 * k) o <|>
  firstBad rows (fun x => !recOk x.2.1 x.2.2 (imgN b 0x1C 2) (s.newExc b) ||
    (others x.2.1).any (fun j => ((new.toList[j]?).getD AxRec.none).takes.any (recOf x.2.2).takes.contains)) (fun x => o + 4 + 16 * x.1)

/-- The tasks that an axis needs (R65, R156, R187, R305). -/
def AxRec.tasks (r : AxRec) : List Nat :=
  if r.role = 1 ∨ r.role = 2 then
    [0] ++ (if r.options.testBit 0 || r.options.testBit 2 then [1] else []) ++ (if r.options.testBit 1 then [2] else []) ++
    (if r.options.testBit 3 then [3] else []) ++ (if r.port < 8 then [4] else [])
  else []

/-- Check 9: the schedule (R65). -/
def State.check9 (s : State) (b : List Byte) : Option Nat :=
  let o := sectOff b 2
  let l := schedItems b
  let idx := (List.range l.length).zip l
  let new := (s.newMap b).toList
  let tasksOf (a : Nat) : List Nat := ((new[a]?).map AxRec.tasks).getD []
  let raw := pieces 8 l.length ((sectBytes b 2).drop 12)
  demand ((sectBytes b 2).length == 12 + 8 * imgN (sectBytes b 2) 8 2 && imgN (sectBytes b 2) 10 2 == 0) o <|>
  firstBad (idx.zip raw) (fun y => let x := y.1
    byteAt y.2 3 != 0 || decide (3 < x.2.lane) || x.2.start == 0 || !(tasksOf x.2.axis).contains x.2.task ||
    idx.any (fun z => decide (z.1 < x.1) && ((z.2.axis == x.2.axis && z.2.task == x.2.task) ||
      (z.2.lane == x.2.lane && decide (x.2.start < z.2.start + z.2.len) && decide (z.2.start < x.2.start + x.2.len)))) ||
    idx.any (fun z => z.2.axis == x.2.axis && decide (z.2.task < x.2.task) && decide (x.2.start < z.2.start + z.2.len)))
    (fun y => o + 12 + 8 * y.1.1) <|>
  demand ((List.range 12).all (fun a => (tasksOf a).all (fun t => l.any (fun x => x.axis == a && x.task == t)))) (o + 8) <|>
  demand (schedTotal b == (l.map (·.len)).sum) o

/-- The shortest tick (R36) [CORE clocks]. -/
def minTick (tickper : Nat) : Nat := tickper - (cdiv tickper 5000 + 1)

/-- The largest reserve item that can arise (R146, R167, R352). -/
def largestItem (m : List AxRec) : Nat :=
  if m.any (fun r => r.options.testBit 0) then 900 else if m.any (fun r => r.options.testBit 4) then 600 else 60

/-- Check 10: the ceiling and the reserve (R41, R42). -/
def State.check10 (s : State) (b : List Byte) : Option Nat :=
  let o := sectOff b 2
  let l := schedItems b
  let t := imgN b 0x1C 2
  let laneEnd (k : Nat) : Nat := (l.filter (fun i => i.lane == k)).foldl (fun m i => max m (i.start + i.len)) 1
  let reserve := ((List.range 4).map (fun k => minTick t - laneEnd k)).sum
  firstBad ((List.range l.length).zip l) (fun x => decide (9 * t / 10 + 1 < x.2.start + x.2.len)) (fun x => o + 12 + 8 * x.1) <|>
  demand (decide (largestItem (s.newMap b).toList + schedShare b ≤ reserve)) (o + 4)

/-- The owner that the valve map gives an input (R349): none where no axis takes it. -/
def inputOwner (m : List AxRec) (input : Nat) : Option Nat :=
  if input < 16 then m.findIdx? (fun r => r.port == input % 8)
  else if input < 24 then m.findIdx? (fun r => r.fmask.testBit (input - 16))
  else if 58 ≤ input ∧ input ≤ 61 then some ((m.findIdx? (fun r => r.role == 2 && r.base == (input - 58) / 2)).getD 0xF0)
  else some 0xF0

/-- The CORE clocks of a tick at which an input is converted: at full rate, or with survivor `c` (R345, R359). -/
def instants (q : List (List SarEntry)) (slots : Nat) (surv : Option Nat) (input : Nat) : List Nat :=
  let ent (c i : Nat) : Option Nat :=
    let l := (q[c]?).getD []
    (l[i % max 1 l.length]?).map (·.input)
  (List.range slots).flatMap (fun i =>
    let hits := match surv with
      | none => [ent 0 i, ent 1 i]
      | some c => [if i % 2 = 0 then ent c (i / 2) else ent (1 - c) (i / 2)]
    (hits.filter (· == some input)).map (fun _ => 1 + 40 * i))

/-- The fewest conversions of an input in any half excitation period of `h` clocks (R295). -/
def fewest (l : List Nat) (cmin h : Nat) : Nat :=
  let all := (List.range (h / max 1 cmin + 2)).flatMap (fun j => l.map (· + j * cmin))
  match l.map (fun t => (all.filter (fun x => decide (t < x) && decide (x ≤ t + h))).length) with
  | [] => 0
  | x :: r => r.foldl min x

/-- Rules 1 to 4 of R349: the offset of the first entry that breaks one. -/
def sarEntriesBad (q : List (List SarEntry)) (m : List AxRec) (o : Nat → Nat → Nat) : Option Nat :=
  (List.range 2).findSome? (fun c =>
    let l := (q[c]?).getD []
    demand (decide (1 ≤ l.length) && decide (l.length ≤ 32)) (o c 0) <|>
    firstBad ((List.range l.length).zip l) (fun x =>
      let e := x.2
      e.rsv != 0 || decide (63 < e.input) || (decide (49 ≤ e.input) && decide (e.input ≤ 57)) || decide (3 < e.gain) ||
      (e.gain != 0 && !((decide (24 ≤ e.input) && decide (e.input ≤ 31)) || (decide (58 ≤ e.input) && decide (e.input ≤ 61)))) ||
      (x.1 == 0) != (e.input == 63) || inputOwner m e.input != some e.owner) (fun x => o c x.1))

/-- Rules 5 to 7 of R349, with the counts of R295 and R315; the slots of urgent conversions are set aside in those of rule 6 only. -/
def sarRatesOk (q : List (List SarEntry)) (m : List AxRec) (exc : List (Nat × Nat × Nat)) (tickper share : Nat) : Bool :=
  let cmin := minTick tickper
  let all := (cmin - 1) / 40
  let slots := all - 4
  let power := m.any (fun r => r.role == 1 || r.role == 2)
  [none, some 0, some 1].all (fun sv =>
    let n (i : Nat) : List Nat := instants q slots sv i
    (!power || decide (2 ≤ (instants q all sv 32).length)) &&
    m.all (fun r =>
      ((List.range 8).filter r.fmask.testBit).all (fun k => decide ((if sv = none then 8 else 4) ≤ (n (16 + k)).length)) &&
      (decide (8 ≤ r.port) ||
        (let h := 200000000 / max 1 (excRec exc (r.port / 2)).2.1
         decide (6 ≤ fewest (n r.port) cmin h) && decide (6 ≤ fewest (n (8 + r.port)) cmin h))))) &&
  decide (24 * cdiv all 2 ≤ share)

/-- Check 11: the SAR sequences (R349). -/
def State.check11 (s : State) (b : List Byte) : Option Nat :=
  let q := s.newSar b
  let m := (s.newMap b).toList
  let o3 := sectOff b 3
  let n0 := ((q[0]?).getD []).length
  let present := (sect? b 3).isSome
  let l := sectBytes b 3
  demand (!present || (imgN l 2 2 == 0 && imgN l (6 + 4 * n0) 2 == 0 && decide (imgN l 0 2 ≤ 32) &&
    l.length == 8 + 4 * n0 + 4 * imgN l (4 + 4 * n0) 2)) o3 <|>
  sarEntriesBad q m (fun c i => if present then o3 + 4 + (if c = 0 then 4 * i else 4 + 4 * n0 + 4 * i) else sectOff b 2 + 4) <|>
  demand (sarRatesOk q m (s.newExc b) (imgN b 0x1C 2) (schedShare b)) (if present then o3 else sectOff b 2 + 4)

/-- The pin records of the input defaults: code, flags, debounce, chatter (R67). -/
def pinRecs (b : List Byte) : List (List Nat) := (pieces 4 24 ((sectBytes b 4).drop 4)).map (fun x => x.map BitVec.toNat)

/-- The input defaults are within range (R67, R260). -/
def inputsBad (b : List Byte) (m : List AxRec) : Option Nat :=
  let o := sectOff b 4
  let v := sectBytes b 4
  let l := pinRecs b
  let g (p i : Nat) : Nat := (((l[p]?).getD [])[i]?).getD 0
  let code (p : Nat) : Nat := g p 0
  let uses (c : Nat) : Nat := ((List.range 24).filter (fun p => code p == c)).length
  let known (c : Nat) : Bool := [0, 0x40, 0x60, 0x61, 0x62, 0x70, 0x80, 0x81, 0x90].contains c ||
    (decide (1 ≤ c / 16) && decide (c / 16 ≤ 3) && decide (c % 16 < 12))
  let single (c : Nat) : Bool := [0x60, 0x61, 0x62].contains c || (decide (1 ≤ c / 16) && decide (c / 16 ≤ 3))
  demand (v.length == 100 && decide (100 ≤ imgN v 0 2) && decide (imgN v 0 2 ≤ 10000) && imgN v 2 2 == 0) o <|>
  firstBad (List.range 24) (fun p =>
    !known (code p) || decide (3 < g p 1) || ([0x40, 0x80, 0x81, 0x90].contains (code p) && (g p 2 != 0 || g p 3 != 0)) ||
    ([0x60, 0x61].contains (code p) && (g p 1).testBit 0) || ([0x62, 0x70].contains (code p) && !(g p 1).testBit 0) ||
    (single (code p) && decide (1 < uses (code p))) || (code p == 0x60 && uses 0x61 == 0) || (code p == 0x61 && uses 0x60 == 0) ||
    (code p == 0x62 && uses 0x60 == 0) ||
    (code p != 0 && m.any (fun r => r.role == 3 && (r.stepPin == p || r.dirPin == p)))) (fun p => o + 4 + 4 * p)

/-- The drivers whose ports serve an axis that the valve map of the image changes. -/
def State.patchDrivers (s : State) (b : List Byte) : List Nat :=
  let new := (s.newMap b).toList
  (mapAxes b).flatMap (fun n => [s.img.map.toList[n]?, new[n]?].filterMap (fun r =>
    match r with | some r => if r.port < 8 then some (r.port / 2) else none | none => none))

/-- The excitation section is within range (R68). DEDUCED (log 49): the ranges of frequency and amplitude bind the records of enabled
drivers; a record that enables nothing describes no output. -/
def State.excBad (s : State) (b : List Byte) : Option Nat :=
  let o := sectOff b 5
  let v := sectBytes b 5
  let l := s.newExc b
  if (sect? b 5).isNone then none
  else
    demand (v.length == 32) o <|>
    firstBad (List.range 4) (fun d =>
      let r := excRec l d
      decide (1 < r.1) || imgN v (8 * d + 6) 2 != 0 ||
      (r.1 == 1 && !(decide (2000 ≤ r.2.1) && decide (r.2.1 ≤ 40000) && decide (1000 ≤ r.2.2) && decide (r.2.2 ≤ 7000))) ||
      (isPatch b && !(s.patchDrivers b).contains d && r != excRec s.img.exc d)) (fun d => o + 8 * d)

/-- The network settings and the world map are within range (R69, R70). -/
def netBad (b : List Byte) : Option Nat :=
  let n := sectBytes b 6
  let w := sectBytes b 7
  (if (sect? b 6).isSome then
    demand (n.length == 8) (sectOff b 6) <|> demand (decide (imgN n 2 2 ≤ 4094)) (sectOff b 6 + 2) <|>
    demand (decide (byteAt n 4 ≤ 7) && decide (byteAt n 5 ≤ 7)) (sectOff b 6 + 4) <|>
    demand (decide (imgN n 6 2 ≤ 0x7FFE)) (sectOff b 6 + 6)
   else none) <|>
  (if (sect? b 7).isSome then demand (w.length == 10 && fld (imgN w 6 2) 9 8 == 3) (sectOff b 7) else none)

/-- Check 12: input defaults, excitation, network and world map (R67-R70, R260). A patch's STEP and DIR pins meet the active defaults. -/
def State.check12 (s : State) (b : List Byte) : Option Nat :=
  let m := (s.newMap b).toList
  let pinsOk := m.all (fun r => r.role != 3 || (((s.img.dflt[r.stepPin]?).getD (0, 0)).1 == 0 && ((s.img.dflt[r.dirPin]?).getD (0, 0)).1 == 0))
  (if isPatch b then demand pinsOk (sectOff b 1) else inputsBad b m) <|> s.excBad b <|> netBad b

/-- The axis that axis n follows, gears to or takes a cam from now (R78). -/
def State.masterAxis (s : State) (n : Fin 12) : Option Nat :=
  let f := s.fol n
  if s.st n = .follow ∧ (f.mode = 2 ∨ f.mode = 3) ∧ f.kind = 0 then some f.idx else none

/-- The axes of a list together with those that follow one of them, `k` links deep. -/
def State.withFollowers (s : State) : Nat → List Nat → List Nat
  | 0, l => l
  | k + 1, l => s.withFollowers k (l ++ (allAxes.filter (fun n =>
      !l.contains n.val && (match s.masterAxis n with | some m => l.contains m | none => false))).map Fin.val)

/-- The axes that a patch affects (R78). -/
def State.affectedBy (s : State) (b : List Byte) : List Nat :=
  let exc := s.newExc b
  let byPort := allAxes.filter (fun n =>
    [(s.newMap b)[n], s.recd n].any (fun r => decide (r.port < 8) && excRec exc (r.port / 2) != excRec s.img.exc (r.port / 2)))
  let l := s.withFollowers 12 (mapAxes b ++ byPort.map Fin.val)
  (List.range 12).filter l.contains

/-- Entries of the preload: address and word (R71). -/
def preload (b : List Byte) : List (Nat × Nat) :=
  let v := sectBytes b 9
  (pieces 8 (v.length / 8) v).map (fun x => (imgN x 0 4, imgN x 4 4))

/-- The registers of a set of axes, over the old and the new valve map (R78). -/
def State.ofAxes (s : State) (b : List Byte) (l : List Nat) (a : Nat) : Bool :=
  let recs := l.flatMap (fun n => [s.img.map.toList[n]?, (s.newMap b).toList[n]?].filterMap id)
  let within (lo len : Nat) : Bool := decide (lo ≤ a) && decide (a < lo + len)
  l.any (fun n => within (axBase n) 0x4000) || (decide (0x040000 ≤ a) && decide (a < 0x050000)) ||
  recs.any (fun r => r.units.any (fun u => within (unitBase u) 0x100) ||
    (decide (r.port < 8) && (within (prtBase r.port) 0x100 || within (excBase (r.port / 2)) 0x100)) ||
    ((List.range 8).filter r.fmask.testBit).any (fun m => within (frcBase m) 0x100))

/-- Check 13: containment of a patch (R78, R349). -/
def State.check13 (s : State) (b : List Byte) : Option Nat :=
  if !isPatch b then none
  else
    let aff := s.affectedBy b
    let o := sectOff b 2
    let new := (List.range (schedItems b).length).zip (schedItems b)
    let keeps (w : SarEntry) : Bool := w.owner == 0xF0 || !aff.contains w.owner
    let nq := s.newSar b
    let oq := s.img.sar.map (fun q => q.map sarEntry)
    firstBad new (fun x => !aff.contains x.2.axis && !s.img.items.contains x.2) (fun x => o + 12 + 8 * x.1) <|>
    demand (s.img.items.all (fun i => aff.contains i.axis || (schedItems b).contains i)) o <|>
    demand ((List.range 2).all (fun c => (List.range 32).all (fun i =>
      let e := (((oq[c]?).getD [])[i]?)
      let e' := (((nq[c]?).getD [])[i]?)
      e == e' || !((e.map keeps).getD false || (e'.map keeps).getD false)))) (sectOff b 3) <|>
    firstBad ((List.range (preload b).length).zip (preload b)) (fun x => !s.ofAxes b aff x.2.1) (fun x => sectOff b 9 + 8 * x.1)

/-- An address that the preload may name (R71). -/
def preloadOk (a : Nat) : Bool :=
  a % 4 == 0 &&
  ((decide (0x080000 ≤ a) && decide (a < 0x112000)) || (decide (0x040000 ≤ a) && decide (a < 0x050000))) &&
  (match locate a with
    | some l => (match l.row.acc with | .rw | .wc | .rw2 | .w1c | .fm => true | _ => false)
    | none => false)

/-- Check 14: the preload (R71). -/
def check14 (b : List Byte) : Option Nat :=
  let o := sectOff b 9
  demand ((sectBytes b 9).length % 8 == 0) o <|>
  firstBad ((List.range (preload b).length).zip (preload b)) (fun x => !preloadOk x.2.1) (fun x => o + 8 * x.1)

/-- What the checks 1 to 14 find (R72): the number of the first that fails, and the offset of its item. -/
def State.checkImage (s : State) (b : List Byte) : Option (Nat × Nat) :=
  let c (k : Nat) (r : Option Nat) : Option (Nat × Nat) := r.map (fun o => (k, o))
  c 1 (check1 b) <|> c 2 (check2 b) <|> c 3 (s.check3 b) <|> c 4 (check4 b) <|> c 5 (check5 b) <|> c 6 (s.check6 b) <|>
  c 7 (s.check7 b) <|> c 8 (s.check8 b) <|> c 9 (s.check9 b) <|> c 10 (s.check10 b) <|> c 11 (s.check11 b) <|>
  c 12 (s.check12 b) <|> c 13 (s.check13 b) <|> c 14 (check14 b)

/-- The status of a failed check (R72). -/
def checkStatus (k : Nat) : Status := if k = 10 ∨ k = 11 then .budget else if k = 15 then .state else .image

end Sys2Proof.Machine
end

