-- ==== Sys2Proof/Machine/WordWrite.lean ====
section
/-! DEFINITION. One written word of a register that is no command register: the accessor's own words, staged words and their
commit (R517, R519, R490, R495, R442). -/

namespace Sys2Proof.Machine

/-- A word under its mask (R7). -/
def maskWord (old : Nat) (mask data : Nat) : Nat := (old &&& (0xFFFF ^^^ mask)) ||| (data &&& mask)

/-- The W1C flag that an address and a bit name (R495). -/
def flagAt (a i : Nat) : Bool :=
  match locate a with
  | some l => l.word == 0 && l.row.cm.testBit i
  | none => false

/-- Word `w` of a value of 16-bit words. -/
def wordOf (v w : Nat) : Nat := v / 65536 ^ w % 65536
/-- The value with word `w` replaced. -/
def putWord (v w x : Nat) : Nat := v - wordOf v w * 65536 ^ w + x % 65536 * 65536 ^ w

/-- Words that every accessor has for itself (R442, R490, R495): a write to one of them, if `b` is one. -/
def State.ownWrite (s : State) (acc : Fin 15) (b w mask data : Nat) : Option (Status × State) :=
  let a := s.acc[acc]
  if b = fltA FLT.HSEL then some (.done, s.onAcc acc (fun x => { x with hsel := BitVec.ofNat 5 (maskWord a.hsel.toNat (mask &&& 0x1F) data) }))
  else if b = fltA FLT.FSEL then
    let v := putWord a.fsel.toNat w (maskWord (wordOf a.fsel.toNat w) mask data)
    some (if 2 ^ 24 ≤ v then (.range, s) else (.done, s.onAcc acc (fun x => { x with fsel := BitVec.ofNat 24 v })))
  else if b = fltA FLT.FSELBIT then
    let v := maskWord a.fselbit.toNat (mask &&& 0xF) data
    some (if flagAt a.fsel.toNat v then (.done, s.onAcc acc (fun x => { x with fselbit := BitVec.ofNat 4 v })) else (.range, s))
  else if b = netA NET.SIDX then
    let v := maskWord a.sidx.toNat mask data
    some (if 1023 < v then (.range, s) else (.done, s.onAcc acc (fun x => { x with sidx := BitVec.ofNat 16 v })))
  else if b = netA NET.SNEW then
    let v := putWord a.snew.toNat w (maskWord (wordOf a.snew.toNat w) (if w = 1 then mask &&& 0xF01F else mask) data)
    some (if 12 ≤ v / 2 ^ 28 ∧ v / 2 ^ 28 ≤ 14 then (.range, s) else (.done, s.onAcc acc (fun x => { x with snew := BitVec.ofNat 32 v })))
  else if b = netA NET.SNEW_SEL then
    some (.done, s.onAcc acc (fun x => { x with snewSel := BitVec.ofNat 16 (maskWord a.snewSel.toNat (mask &&& 0x1F03) data) }))
  else none

/-- The words staged by an accessor for the value at `b`, as one mask and one number. -/
def Accessor.stagedFor (a : Accessor) (b words : Nat) : Nat × Nat :=
  (List.range words).foldl (fun (x : Nat × Nat) w =>
    match a.staged.find? (fun e => e.1 == b + 4 * w) with
    | some e => (x.1 + e.2.mask.toNat * 65536 ^ w, x.2 + e.2.data.toNat * 65536 ^ w)
    | none => x) (0, 0)

/-- A word is staged under its mask (R519). -/
def State.stageWord (s : State) (acc : Fin 15) (a mask data : Nat) : State :=
  s.onAcc acc (fun x =>
    let old := ((x.staged.find? (fun e => e.1 == a)).map Prod.snd).getD ⟨0, 0⟩
    let m := BitVec.ofNat 16 mask
    { x with staged := (a, ⟨old.mask ||| m, (old.data &&& ~~~ m) ||| (BitVec.ofNat 16 data &&& m)⟩) :: x.staged.filter (fun e => e.1 != a) })

/-- The staged words of a value are cleared. -/
def State.unstage (s : State) (acc : Fin 15) (b words : Nat) : State :=
  s.onAcc acc (fun x => { x with staged := x.staged.filter (fun e => !(decide (b ≤ e.1) && decide (e.1 < b + 4 * words))),
                                 lostStage := x.lostStage.filter (· != b) })

/-- A commit of the value at `b` (R519): the staged words and the highest word as one write; refused with WORLD where a change of
the map has discarded the staging (R468). -/
def State.commitValue (s : State) (acc : Fin 15) (r : Row) (b mask data : Nat) : Status × State :=
  if (s.acc[acc]).lostStage.contains b then (.world, s.unstage acc b r.words)
  else
    let st := (s.acc[acc]).stagedFor b r.words
    let k := 65536 ^ (r.words - 1)
    let x := s.regWrite r b (st.1 + mask * k) (BitVec.ofNat 64 (st.2 + data * k))
    (x.1, x.2.unstage acc b r.words)

/-- A written word of a register that is neither a command nor a clear register (R517, R519). A mask of 0 changes nothing (R7). -/
def State.wordWrite (s : State) (acc : Fin 15) (l : Loc) (mask data : Nat) : Status × State :=
  if mask = 0 then (.done, s)
  else match s.ownWrite acc l.base l.word mask data with
  | some r => r
  | none =>
    match l.row.acc with
    | .wc =>
      if l.word + 1 < l.row.words then (.done, s.stageWord acc (l.base + 4 * l.word) mask data)
      else s.commitValue acc l.row l.base mask data
    | _ => s.regWrite l.row l.base (mask * 65536 ^ l.word) (BitVec.ofNat 64 (data * 65536 ^ l.word))

/-- The copies of an accessor are those of a new one (R541). -/
def State.freshAcc (s : State) (acc : Fin 15) : State := s.onAcc acc (fun _ => Accessor.fresh)

end Sys2Proof.Machine
end

