-- ==== Sys2Proof/Machine/Worlds.lean ====
section
/-! DEFINITION. World violations, the master token, changes of the world map, and the WLD commands (16_worlds.md). -/

namespace Sys2Proof.Machine

/-- The state with the backbone changed. -/
def State.onNet (s : State) (f : Net → Net) : State := { s with net := f s.net }
/-- The state with reset, shelf and JTAG changed. -/
def State.onPow (s : State) (f : Power → Power) : State := { s with pow := f s.pow }
/-- The state with the device key changed. -/
def State.onWld (s : State) (f : World → World) : State := { s with wld := f s.wld }

/-! ### Violations (R457-R460) -/

/-- The secure master (R461). -/
def State.master_ (s : State) : Nat := s.fld (wldA WLD.STATUS) 15 12
/-- An accessor holds the master rights (R456, R462). -/
def State.isMaster (s : State) (acc : Nat) : Bool := acc == 14 || acc == s.master_

/-- The place among the accessors where the violations of an identifier are remembered for the tick: 0xF0 takes the unused 13 (R460). -/
def vioSlot (id : Nat) : Fin 15 := if h : id < 15 then ⟨id, h⟩ else ⟨13, by omega⟩

/-- A world violation of accessor `id` (0xF0 an unauthenticated frame): counted, recorded, and logged once per accessor and tick (R459, R460). -/
def State.violate (s : State) (id kind blk : Nat) : State :=
  let s1 := if id ≤ 9 then s.bump (wldA WLD.VIOCNT + 4 * id) else s
  let s2 := (((s1.wr (wldA WLD.LASTVIO) (id * 256 + kind)).wr (wldA WLD.LASTBLK) blk).setBit (wldA WLD.STATUS) 9 true).irq 57
  if (s2.acc[vioSlot id]).vioTick then s2
  else (s2.onAcc (vioSlot id) (fun a => { a with vioTick := true })).log 0x0601 (id * 256 + kind) blk .log

/-- A new interval of R460 begins for every accessor. -/
def State.vioClear (s : State) : State := { s with acc := s.acc.map (fun a => { a with vioTick := false }) }

/-! ### The load buffer and the token (R82, R463, R464) -/

/-- The load buffer becomes EMPTY and holds nothing (R86). -/
def State.boreEmpty (s : State) : State :=
  (s.onBore (fun b => { b with buf := .empty, bytes := [], apply := false, boot := false, alt := false, src := 0, affected := [] })).wr
    (borA BOR.PENDING) 0

/-- The load buffer is discarded because the master token moves: a pending patch is refused with WORLD and logged (R82, R86). -/
def State.boreDiscard (s : State) : State :=
  let patch := s.bore.buf == .pending && isPatch s.bore.bytes
  let src := s.bore.src
  let s1 := s.boreEmpty
  if patch then (s1.cmdstat (borA BOR.CMDSTAT) 56 3 .world).log 0x0A02 Status.world.code src .log else s1

/-- The staged map takes the active map (R464, R478). -/
def State.revertMap (s : State) : State :=
  let s1 := overList (List.range 4) (fun s w => s.wr (wldA WLD.SBLK + 4 * w) (s.rd (wldA WLD.BLK + 4 * w))) s
  s1.wr (wldA WLD.SREG) (s1.rd (wldA WLD.REG))

/-- The token moves to accessor `who` (R464). -/
def State.tokenMove (s : State) (who : Nat) : State :=
  if who = s.master_ then s
  else ((s.setFld (wldA WLD.STATUS) 15 12 who).revertMap.onWld (fun w => { w with dkw := Vector.replicate 8 none })).boreDiscard

/-! ### Sessions (R444, R463) -/

/-- Session k is open. -/
def State.sessOpen (s : State) (k : Nat) : Bool := decide (k < 8) && s.bit (netsBase k + NETS.SSTAT) 15

/-- A GIVE whose move has not yet taken place returns STATE (R465). -/
def State.giveFails (s : State) : State :=
  match s.wld.tokenDue with
  | some (h, a, acc) =>
    if h = 1 then s else (s.onWld (fun w => { w with tokenDue := none })).finish (wldA WLD.CMDSTAT) 57 0x10 a.toNat acc .state
  | none => s

/-- Session k closes: its requests and unsent replies are dropped, its staged words are discarded, and the token leaves it. -/
def State.closeSession (s : State) (k : Fin 8) : State :=
  if !s.sessOpen k then s
  else
    let a := netsBase k + NETS.SSTAT
    let s1 := (s.wr a (s.rd a % 256)).onNet (fun x => { x with
      sess := x.sess.set k Sess.start, reqs := x.reqs.filter (fun r => r.k != k.val),
      port := x.port.map (fun p => { p with txq := p.txq.filter (fun f => f.k != k.val) }) })
    let s2 := s1.onAcc ⟨2 + k.val, by omega⟩ (fun x => { x with staged := [], lostStage := [] })
    let due := (s2.wld.tokenDue.map Prod.fst).getD 1
    let s3 := if s2.master_ = 2 + k.val ∨ due = 2 + k.val then s2.giveFails else s2
    if s3.master_ = 2 + k.val then s3.tokenMove 1 else s3

/-- Every session closes. -/
def State.closeAll (s : State) : State := overList (List.finRange 8) (fun s (k : Fin 8) => s.closeSession k) s

/-! ### The map (R467, R468) -/

/-- The block whose world decides accesses to a register (R540). -/
def blockOf (a : Nat) : Option Nat := match guardOf a with | .block b => some b | _ => none

/-- The value that a staged word belongs to. -/
def valueOf (a : Nat) : Nat := match locate a with | some l => l.base | none => a

/-- Staged words and snapshots of one accessor in the blocks that `f` names are discarded (R468). -/
def Accessor.dropBlocks (a : Accessor) (f : Nat → Bool) : Accessor :=
  let inBlk (x : Nat) : Bool := match blockOf x with | some b => f b | none => false
  let gone := (a.staged.filter (fun e => inBlk e.1)).map (fun e => valueOf e.1)
  let snap := (a.shadows.filter (fun e => inBlk e.1)).map Prod.fst
  { a with staged := a.staged.filter (fun e => !inBlk e.1), lostStage := (a.lostStage ++ gone).dedup,
           shadows := a.shadows.filter (fun e => !inBlk e.1), lostSnap := (a.lostSnap ++ snap).dedup }

/-- The active map takes the values `m` for blocks and `r` for regions, with the effects of R468 and R536. -/
def State.setMap (s : State) (m : List Nat) (r : Nat) : State :=
  let old (b : Nat) : Bool := s.secureBlock b
  let nu (b : Nat) : Bool := ((m[b / 16]?).getD 0).testBit (b % 16)
  let ch (b : Nat) : Bool := decide (b < 64) && old b != nu b
  let s1 := overList (List.range 4) (fun s w => s.wr (wldA WLD.BLK + 4 * w) ((m[w]?).getD 0)) s
  let s2 := s1.wr (wldA WLD.REG) r
  let s3 := { s2 with acc := s2.acc.map (fun a => a.dropBlocks ch) }
  if nu 55 ∧ !old 55 ∧ !s.flt.tm then
    (if s3.stage.halt then s3.debugResume else s3).onPow (fun p => { p with haltReq := false, rstReq := false })
  else s3

/-- The staged map becomes the active map in the next CORE clock; nothing where they are equal (R467). -/
def State.commitMap (s : State) : State :=
  let m := (List.range 4).map (fun w => s.rd (wldA WLD.SBLK + 4 * w))
  let r := s.rd (wldA WLD.SREG)
  if m = (List.range 4).map (fun w => s.rd (wldA WLD.BLK + 4 * w)) ∧ r = s.rd (wldA WLD.REG) then s
  else s.onWld (fun w => { w with mapDue := some (m, r) })

/-- A CORE clock begins: the map committed in the last one becomes active, then the token moves (R463, R467, R470). -/
def State.wldClock (s : State) : State :=
  let s1 := match s.wld.mapDue with | some (m, r) => s.setMap m r | none => s
  let s2 := match s.wld.tokenDue with | some (h, _) => s1.tokenMove h | none => s1
  s2.onWld (fun w => { w with mapDue := none, tokenDue := none, imageMap := false })

/-! ### The device key (R472) -/

/-- All eight DKEY words are staged. -/
def World.staged (w : World) : Bool := w.dkw.toList.all Option.isSome

/-- The 16 bytes of a key. -/
def keyBytes (k : BitVec 128) : List Byte := beBytes 16 k.toNat

/-- The staged words are programmed as the device key, and KCV reports its check value. -/
def State.programKey (s : State) : State :=
  let k : BitVec 128 := BitVec.ofNat 128 (s.wld.dkw.toList.foldl (fun a w => a * 65536 + (w.getD 0).toNat) 0)
  (s.onWld (fun w => { w with dkey := some k, dkw := Vector.replicate 8 none })).wr (wldA WLD.KCV)
    (beNat ((cmac (keyBytes k) (List.replicate 16 0)).take 2))

/-! ### The WLD commands (R478) -/

/-- Session k is open and secure (R463). -/
def State.secureSession (s : State) (k : Nat) : Bool :=
  decide (k < 8) && s.bit (netsBase k + NETS.SSTAT) 15 && s.bit (netsBase k + NETS.SSTAT) 14

/-- The effect of a WLD command that its accessor may give, and its status; the map and the token follow in the next CORE clock (R463,
R465, R467). -/
def State.wldEffect (s : State) (acc : Fin 15) (op arg : Nat) : Status × State :=
  match op with
  | 0x01 => if s.wld.imageMap then (.state, s) else if arg ≠ 0 then (.range, s) else (.done, s.commitMap)
  | 0x02 => if arg ≠ 0 then (.range, s) else (.done, s.revertMap)
  | 0x10 => if 7 < arg then (.range, s) 
    else if !s.secureSession arg ∨ s.wld.tokenDue.any (fun t => t.1 == 1) then (.state, s)
    else (.done, s.onWld (fun w => { w with tokenDue := some (2 + arg, BitVec.ofNat 8 arg, acc) }))
  | 0x11 =>
    if arg ≠ 0 then (.range, s)
    else
      let t := s.giveFails
      (.done, if s.master_ = 1 then t else t.onWld (fun w => { w with tokenDue := some (1, 0, acc) }))
  | _ => if s.wld.dkey.isSome ∨ !s.wld.staged then (.state, s) else if arg ≠ 0 then (.range, s) else (.done, s.programKey)

/-- The accessor may give the WLD command (R478). -/
def State.wldAllowed (s : State) (acc op : Nat) : Bool :=
  match op with
  | 0x01 | 0x02 | 0x10 => s.isMaster acc
  | 0x11 => acc == 1
  | _ => acc == 1 && s.master_ == 1

/-- An accessor writes a command to WLD.CMD (R457, R478): the status of the word, and the state after it. -/
def State.wldCmd (s : State) (acc : Fin 15) (op arg : Nat) : Status × State :=
  if !s.ready then (.buserr, s)
  else if !s.secureAcc acc then (.world, s.violate acc 1 57)
  else if !([0x01, 0x02, 0x10, 0x11, 0x20].contains op) then (.done, s.finish (wldA WLD.CMDSTAT) 57 op arg acc .unknown)
  else if !s.wldAllowed acc op then (.world, s.violate acc 3 57)
  else
    let r := s.wldEffect acc op arg
    (.done, r.2.finish (wldA WLD.CMDSTAT) 57 op arg acc r.1)

/-! ### Meanings: each is the command word as the accessor writes it to WLD.CMD -/

/-- COMMIT (R467, R468). -/
def execCommitMap (acc : Fin 15) (arg : Byte) (s : State) : Host.Outcome State Fault Refusal := .next (s.awake fun s => (s.wldCmd acc 0x01 arg.toNat).2)
/-- REVERT (R478). -/
def execRevertMap (acc : Fin 15) (arg : Byte) (s : State) : Host.Outcome State Fault Refusal := .next (s.awake fun s => (s.wldCmd acc 0x02 arg.toNat).2)
/-- GIVE (R463, R464). -/
def execGiveToken (acc : Fin 15) (arg : Byte) (s : State) : Host.Outcome State Fault Refusal := .next (s.awake fun s => (s.wldCmd acc 0x10 arg.toNat).2)
/-- RECLAIM (R463, R464). -/
def execReclaimToken (acc : Fin 15) (arg : Byte) (s : State) : Host.Outcome State Fault Refusal := .next (s.awake fun s => (s.wldCmd acc 0x11 arg.toNat).2)
/-- PROGRAM_DKEY (R472). -/
def execProgramDkey (acc : Fin 15) (arg : Byte) (s : State) : Host.Outcome State Fault Refusal := .next (s.awake fun s => (s.wldCmd acc 0x20 arg.toNat).2)

end Sys2Proof.Machine
end

