-- ==== Sys2Proof/Machine/BoreImage.lean ====
section
/-! DEFINITION. The load buffer and its commands, verification, the application of full images and patches, and the boot load
(R57-R59, R72-R86, R561, R605). -/

namespace Sys2Proof.Machine

/-! ### Registers that an image resets -/

/-- The registers from `lo` on, `len` bytes, at their reset values. -/
def State.resetRange (s : State) (lo len : Nat) : State :=
  { s with regs := s.regs.filter (fun e => decide (e.1 < lo) || decide (lo + len ≤ e.1)) }

/-- Bits `m` of a register set. -/
def State.setBits (s : State) (a m : Nat) : State := s.wr a (s.rd a ||| m)

/-- The registers of AX[n] at their reset values, those marked image from the valve map in force (R76, R80, R158, R189, R191, R542). -/
def State.axisRegs (s : State) (n : Fin 12) : State :=
  let b := axBase n
  let o (i m : Nat) : Nat := if s.opt n i then m else 0
  let s1 := (s.resetRange b 0x4000).setBit (b + AX.STATUS) 2 (s.glide n)
  if s.isPower n then
    ((s1.setBits (b + AX.ICFG) (o 5 0xC00 + o 4 0x300)).setBits (b + AX.OCFG) (o 2 8 + o 0 4)).setBits (b + AX.STLCFG) (o 1 0xD0)
  else s1

/-- Axis n made anew: OFF, its registers and learned values reset, its reserve items and writes not yet in use discarded, kappa 256
(R76, R80, R247). -/
def State.axisFresh (s : State) (n : Fin 12) : State :=
  let keep (e : Nat × Nat) : Bool := decide (e.1 < axBase n) || decide (axBase n + 0x4000 ≤ e.1)
  let s1 := { s with axes := s.axes.set n Axis.start,
                     seq := { s.seq with
                       reserve := s.seq.reserve.filter (fun i => i.who != n.val), done := s.seq.done.filter (fun i => i.who != n.val),
                       inUse := s.seq.inUse.filter keep, seeds := s.seq.seeds.filter keep } }
  (s1.axisRegs n).wr (devA DEV.GOVK + 4 * n) 256

/-- The registers of unit u at their reset values: the trip latch with its sources, the delay-line code, lock and freeze stay (R605). -/
def State.unitFresh (s : State) (u : Nat) : State :=
  let b := unitBase u
  let trip := s.bit (pstat u) 15
  let lock := s.bit (pstat u) 11
  let l := s.rd (b + PU.LSTAT)
  let code := s.rd (b + PU.DLLCODE)
  let fr := s.bit (b + PU.PCFG) 15
  let s1 := ((((s.resetRange b 0x100).setBit (pstat u) 15 trip).setBit (pstat u) 11 lock).wr (b + PU.LSTAT) l).wr (b + PU.DLLCODE) code
  let s2 := (s1.setBit (b + PU.PCFG) 15 fr).setFld (b + PU.PCFG) 12 8 (autoStag (s.windingFirst u) % 32).toNat
  (s2.onUnit u (fun x => { PwmUnit.start with dll := x.dll, dllRun := x.dllRun, dllOut := x.dllOut })).showSources u

/-- Modulator i runs for its axis, or stops (R336). -/
def State.modOwned (s : State) (i : Fin 24) : State := if (s.modAxis i).isSome then s.modStart i else s.modStop i

/-- Port p begins or ends its service (R80, R305). -/
def State.portFresh (s : State) (p : Fin 8) : State :=
  let s1 := s.onPort p (fun _ => Port.start)
  if (s.portAxis p).isSome then s1 else ((s1.setFld (prtStat p) 7 0 0).setBit (prtStat p) 15 false).setBit (prtStat p) 12 false

/-- Force channel m starts for its axis, or is powered down (R313). -/
def State.frcOwned (s : State) (m : Fin 8) : State :=
  let on := allAxes.any (fun n => (s.recd n).fmask.testBit m.val)
  let s1 := (s.setBit (frcBase m + FRC.FCFG) 7 on).setBit (fstat m) 15 false
  if on then s1.frcStart m else s1.onFrc m (fun _ => Force.start)

/-- Driver d takes its record and restarts (R68, R80, R290). -/
def State.excRecord (s : State) (d : Fin 4) : State :=
  let r := excRec s.img.exc d
  let b := excBase d
  let s1 := (((s.wr (b + EXC.ECFG) r.1).wr (b + EXC.FREQ) r.2.1).wr (b + EXC.VAMP) r.2.2).wr (b + EXC.INC) (if r.2.1 = 0 then 0 else incOf r.2.1)
  if r.1 = 1 then s1.excStart d else (s1.excStop d).onExc d (fun _ => Exc.start)

/-! ### What an image puts into registers -/

/-- The preload: its writes in list order, with the master rights under identifier 14, over fresh copies (R71, R462). -/
def State.preloadRun (s : State) (l : List (Nat × Nat)) : State :=
  (l.foldl (fun (s : State) e =>
    match locate e.1 with
    | some x => (s.wordWrite ⟨14, by omega⟩ x (e.2 / 65536) (e.2 % 65536)).2
    | none => s) (s.freshAcc ⟨14, by omega⟩)).freshAcc ⟨14, by omega⟩

/-- The schedule's registers (R41, R42, R48). -/
def State.putSchedule (s : State) (b : List Byte) : State :=
  ((s.wr (timA TIM.SCHED) (schedTotal b)).wr (timA TIM.CEIL) (4 * (9 * s.tpr / 10))).wr (timA TIM.FOSHARE) (schedShare b)

/-- The grid of a full image: where it changes, no edge before the first cycle boundary of the new one (R35, R76). -/
def State.putGrid (s : State) (b : List Byte) : State :=
  let t := imgN b 0x1C 2
  let m := imgN b 0x1E 2
  if s.img.active ∧ t = s.tpr ∧ m = s.cycM then s
  else
    let s1 := (s.wr (timA TIM.TICKPER) t).wr (timA TIM.CYCM) m
    let c := 5 * t * m
    let g := if c = 0 then 0 else cdiv (s.tim.half + 1) c * c
    (s1.onTim (fun x => { x with gridH := if 2 ^ 65 ≤ g then 0 else g, ticking := true })).onBore (fun x => { x with newGrid := true })

/-- The input defaults (R67, R263, R284, R285). -/
def State.putInputs (s : State) (b : List Byte) : State :=
  let l := pinRecs b
  let g (p i : Nat) : Nat := (((l[p]?).getD [])[i]?).getD 0
  let iv := imgN (sectBytes b 4) 0 2
  let s1 := overList allPins (fun s p =>
    (s.wr (gpioA GPIO.FUNC + 4 * p) (g p 0 * 256 + g p 1)).wr (gpioA GPIO.DEB + 4 * p) (g p 3 * 256 + g p 2)) s
  let s2 := (s1.setFld (gpioA GPIO.RSTAT) 13 0 iv).setBit (gpioA GPIO.ENSTAT) 2 ((List.range 24).any (fun p => g p 0 == 0x60))
  if s.pins.gpLeft.isNone && !s.bit (gpioA GPIO.RSTAT) 15 then s2.onPins (fun x => { x with gpLeft := some (iv * 400) }) else s2

/-- The network settings, or the defaults of the backbone (R69, R449). -/
def State.putNetwork (s : State) (b : List Byte) : State :=
  let v := sectBytes b 6
  let has := (sect? b 6).isSome
  let g (x d : Nat) : Nat := if has then x else d
  (((s.wr (netA NET.ETYPE) (g (imgN v 0 2) 0x88B5)).wr (netA NET.VID) (g (imgN v 2 2) 0)).wr (netA NET.PCP)
    (g (byteAt v 5 * 256 + byteAt v 4) 0x406)).wr (netA NET.ADDRREQ) (g (imgN v 6 2) 0)

/-- The world map of a full image, and the map of R455 without a section: active and staged (R455, R467). -/
def State.putMap (s : State) (b : List Byte) : State :=
  let v := sectBytes b 7
  let has := (sect? b 7).isSome
  let w (i : Nat) : Nat := if has then imgN v (2 * i) 2 else 0
  let m := [w 0, w 1, w 2, (if has then w 3 else 0x03E0) % 1024]
  ((s.setMap m (w 4)).revertMap).onWld (fun x => { x with mapDue := none, imageMap := has })

/-- The reaction table of a full image in list order; a bad entry is skipped and shows in rtskip (R486). -/
def State.putReactions (s : State) (b : List Byte) : State :=
  let v := sectBytes b 8
  (pieces 4 (v.length / 4) v).foldl (fun (s : State) x =>
    let c := imgN x 0 2
    let l := imgN x 2 2
    match evRow c with
    | some r => if l ≤ r.max then s.setFld (rtAddr c) 2 0 l else s.flag (fltA FLT.STATUS) 10
    | none => s.flag (fltA FLT.STATUS) 10) s

/-- The subscription table is cleared (R76, R442). -/
def State.subsClear (s : State) : State :=
  ((s.resetRange (subBase 0) 0x8000).wr (netA NET.SUBUSED) 0).onNet (fun n => { n with pend := [], added := [], missSrc := [] })

/-- The image store holds new words: its upsets are gone, and so is their mark (R498). -/
def State.imageStored (s : State) : State :=
  s.onFlt (fun f => { f with upsets := f.upsets.filter (fun u => u.store != .image), imageBad := false,
                             eccLogged := f.eccLogged.filter (fun e => e.1 != .image) })

/-- Self-checks of the protection comparators of an axis's units (R386). -/
def State.unitTests (s : State) (l : List Nat) : State :=
  overList l (fun s u => let s1 := s.testStart u; if 40 ≤ u then s1.testStart (u + 52) else s1) s

/-! ### Applying a full image (R76) -/

/-- The trims of every comparator take 0, but for the two of the always-on domain, and replaced comparators learn again (R383, R385). -/
def State.trimsClear (s0 : State) : State :=
  let s := s0.onCmps (fun k => { k with swapped := [] })
  overList ((List.finRange 101).filter (fun c => c.val != 90 && c.val != 91)) (fun s c =>
    (s.setTrim c 0).onCmps (fun k => { k with az := k.az.set c ⟨0, [], 0⟩ })) s

/-- The state of the image in force from the bytes of a full image. -/
def State.fullImage (s : State) (b : List Byte) : Image :=
  let pins := pinRecs b
  { active := true, map := s.newMap b, items := schedItems b, sar := (s.newSar b).map (fun q => q.map SarEntry.word),
    dflt := pins.map (fun x => ((x[0]?).getD 0, (x[1]?).getD 0)), exc := s.newExc b,
    source := s.bore.src, keyslot := imgN b 0x1A 2 % 4, alt := s.bore.alt }

/-- A full image applies (R76, R86, R245, R605). Acyclic sessions close: the chapter that owns them says so (R444, R12). -/
def State.applyFull (s : State) : State :=
  let b := s.bore.bytes
  let boot := s.bore.boot
  let s2 := ({ s.putGrid b with img := s.fullImage b }).imageStored
  let s3 := ((s2.putSchedule b).putInputs b).trimsClear
  let s4 := overList allAxes (fun s n => s.axisFresh n) s3
  let s5 := ((overList (List.range 48) (fun s u => s.unitFresh u) s4).setOuts false).latchForms
  let s6 := overList (List.finRange 24) (fun s i => s.modOwned i) s5
  let s7 := overList (List.finRange 2) (fun s c => s.adcStart c true []) s6
  let s8 := overList (List.finRange 4) (fun s d => s.excRecord d) s7
  let s9 := overList (List.finRange 8) (fun s p => (s.portFresh p).frcOwned p) s8
  let s10 := { s9 with
    seq := Seqr.start, stage := { s9.stage with pSum := Vector.replicate 10 0, pCnt := 0 } }
  let s11 := (((s10.putNetwork b).subsClear).putMap b).putReactions b
  let s12 := s11.onNet (fun n => { n with autoDue := true })
  let s13 := (s12.resetRange (devA DEV.TJG) 40).unitTests (allAxes.flatMap (fun n => (s12.recd n).units))
  let s14 := ((s13.wr (borA BOR.ID) (imgN b 0x10 4)).wr (borA BOR.LEVEL) 0).wr (borA BOR.TOOL) (imgN b 0x20 4)
  let s15 := s14.preloadRun (preload b)
  let s16 := s15.boreEmpty.closeAll
  if boot then s16.onBore (fun x => { x with bootDone := true }) else s16.cmdstat (borA BOR.CMDSTAT) 56 3 .done

/-! ### Applying a patch (R80) -/

/-- Every axis that a list names is in OFF or MUTE. -/
def State.allOff (s : State) (l : List Nat) : Bool := allAxes.all (fun n => !l.contains n.val || s.isOff n)

/-- A patch is refused at its applying edge: check 15 is reported, EMPTY, APPLY STATE and 0x0A02 (R72, R80, R86). -/
def State.patchRefuse (s : State) : State :=
  let src := s.bore.src
  ((((s.boreEmpty).wr (borA BOR.ERRINFO) 15).wr (borA BOR.ERROFS) 0).cmdstat (borA BOR.CMDSTAT) 56 3 .state).log 0x0A02 (15 * 256 + Status.state.code) src .log

/-- The pending patch applies (R80, R81, R605). -/
def State.patchApply (s : State) : State :=
  let b := s.bore.bytes
  let aff := s.bore.affected
  let old := s.img
  let oldSar := old.sar
  let new : Image := { old with map := s.newMap b, items := schedItems b, sar := (s.newSar b).map (fun q => q.map SarEntry.word), exc := s.newExc b }
  let owner (m : Vector AxRec 12) (f : AxRec → Bool) : Option Nat := m.toList.findIdx? f
  let moved (f : AxRec → Bool) : Bool := owner old.map f != owner new.map f
  let affUnits := aff.flatMap (fun a => ((new.map.toList[a]?).map AxRec.units).getD [] ++ ((old.map.toList[a]?).map AxRec.units).getD [])
  let units := (List.range 48).filter (fun u => affUnits.contains u || moved (fun r => r.units.contains u))
  let mods := (List.finRange 24).filter (fun i => moved (fun r => (r.mods 0).contains i.val || (r.mods 1).contains i.val))
  let ports := (List.finRange 8).filter (fun p => moved (fun r => r.port == p.val))
  let frcs := (List.finRange 8).filter (fun m => moved (fun r => r.fmask.testBit m.val))
  let drvs := (List.finRange 4).filter (fun (d : Fin 4) => excRec old.exc d != excRec new.exc d)
  let s1 := ({ s with img := new }).imageStored.putSchedule b
  let s2 := overList (allAxes.filter (fun n => aff.contains n.val)) (fun s n => s.axisFresh n) s1
  let s3 := ((overList units (fun s u => s.unitFresh u) s2).setOuts true).latchForms
  let s4 := overList mods (fun s i => s.modOwned i) s3
  let s5 := overList (List.finRange 2) (fun s c => s.adcStart c false ((oldSar[c.val]?).getD [])) s4
  let s6 := overList drvs (fun s (d : Fin 4) => s.excRecord d) s5
  let s7 := overList frcs (fun s m => s.frcOwned m) (overList ports (fun s p => s.portFresh p) s6)
  let s8 := s7.unitTests (units.filter (fun u => (s7.unitAxis u).isSome))
  let s9 := s8.preloadRun (preload b)
  let s10 := s9.wr (borA BOR.LEVEL) (s9.rd (borA BOR.LEVEL) + 1)
  let s11 := s10.onNet (fun n => { n with pend := n.pend.filter (fun e =>
    let o := s.fld (subBase e.1 + SUB.SRC_H) 15 12
    !aff.contains o) })
  (s11.boreEmpty).cmdstat (borA BOR.CMDSTAT) 56 3 .done

/-- What the edge does with a pending image, after step 8 (R40, R76, R80). DESIGN CHOICE (log 48): a full image whose axes have meanwhile
left OFF and MUTE stays pending and applies at the first edge that finds them there again; R76 does not say what becomes of it. -/
def State.imageEdge (s : State) : State :=
  if s.bore.buf ≠ .pending then s
  else if isPatch s.bore.bytes then (if s.allOff s.bore.affected then s.patchApply else s.patchRefuse)
  else if s.allOff (List.range 12) then s.applyFull else s

/-! ### Verification (R72, R73, R86) -/

/-- What a failed check logs (R73). -/
def State.logCheck (s : State) (k : Nat) (patch : Bool) : State :=
  if k = 3 ∨ k = 4 then s.log 0x0A01 (k * 256 + (k - 2)) s.bore.src .log
  else if patch then s.log 0x0A02 (k * 256 + (checkStatus k).code) s.bore.src .log
  else s.log 0x0A01 (k * 256 + 3) s.bore.src .log

/-- Check 15 (R76, R79). -/
def State.check15 (s : State) : Bool :=
  if isPatch s.bore.bytes then s.allOff s.bore.affected else !s.img.active || s.allOff (List.range 12)

/-- Check 15 fails on APPLY: the image stays verified (R86). -/
def State.applyRefuse (s : State) (acc : Nat) : State :=
  let s1 := ((s.onBore (fun b => { b with buf := .verified, affected := [] })).wr (borA BOR.PENDING) 0).wr (borA BOR.ERRINFO) 15
  (s1.wr (borA BOR.ERROFS) 0).finish (borA BOR.CMDSTAT) 56 3 0 acc .state

/-- An APPLY of a verified image: the axes that a patch affects are taken now, check 15 runs, and the image is pending; without an
active image a full image applies at once (R76, R79, R86). -/
def State.makePending (s : State) (acc : Nat) : State :=
  let aff := if isPatch s.bore.bytes then (if s.bore.affected = [] then s.affectedBy s.bore.bytes else s.bore.affected) else []
  let s1 := s.onBore (fun b => { b with affected := aff })
  if !s1.check15 then s1.applyRefuse acc
  else
    let s2 := (s1.onBore (fun b => { b with buf := .pending })).wr (borA BOR.PENDING) ((aff.map (2 ^ ·)).sum)
    if !isPatch s.bore.bytes ∧ !s.img.active then s2.applyFull else s2

/-- A flash image fails: the secondary is read after the primary, and the part stays without an image after the secondary (R74, R561). -/
def State.bootFail (s : State) : State :=
  if s.bore.alt then (s.boreEmpty).onBore (fun b => { b with bootDone := true })
  else s.onBore (fun b => { b with bytes := [], alt := true })

/-- Verification ends (R72, R73, R86). -/
def State.verifyDone (s : State) : State :=
  let t := s.bore
  if t.buf ≠ .verifying then s
  else
    let op := if t.apply then 3 else 2
    let found := if t.boot ∧ isPatch t.bytes ∧ (check1 t.bytes).isNone then (check2 t.bytes).elim (some (2, 6)) (fun o => some (2, o)) else s.checkImage t.bytes
    match found with
    | some (k, o) =>
      let s1 := if t.boot then (s.logCheck k false).bootFail
        else ((s.logCheck k (isPatch t.bytes)).onBore (fun b => { b with buf := .opened, affected := [] })).wr (borA BOR.PENDING) 0
      let s2 := (s1.wr (borA BOR.ERRINFO) k).wr (borA BOR.ERROFS) o
      if t.boot then s2 else s2.cmdstat (borA BOR.CMDSTAT) 56 op (checkStatus k)
    | none =>
      if t.boot then s.applyFull
      else if t.apply then s.makePending s.master_
      else (s.onBore (fun b => { b with buf := .verified })).cmdstat (borA BOR.CMDSTAT) 56 2 .done

/-! ### The BOR commands (R59, R75, R85) -/

/-- A shelf entry refuses every BOR command with STATE (R564). -/
def State.shelving (s : State) : Bool := s.pow.shelf != .running

/-- The buffer states in which a command is allowed (R85); OPEN, VERIFY and APPLY are not while the boot load runs (R561). -/
def borAllowed (op : Nat) (b : BufSt) : Bool :=
  match op with
  | 0x01 => b == .empty || b == .opened || b == .verified
  | 0x02 => b == .opened
  | 0x03 => b == .opened || b == .verified
  | 0x04 => b != .empty
  | 0x10 => b == .opened
  | _ => true

/-- The source that BOR.STATUS names for a master (R73). -/
def sourceOf (acc : Nat) : Nat := if acc = 1 then 2 else 3

/-- The axes that a patch in the open buffer would affect are held from the acceptance of APPLY on, whatever its checks will find (R79). -/
def State.holdAffected (s : State) : State :=
  let b := s.bore.bytes
  if isPatch b then
    let aff := s.affectedBy b
    if s.allOff aff then (s.onBore (fun t => { t with affected := aff })).wr (borA BOR.PENDING) ((aff.map (2 ^ ·)).sum) else s
  else s

/-- PROGRAM_KEY (R59). -/
def State.programSlot (s : State) (k : Nat) : Status × State :=
  if s.bore.bytes.length < 32 ∨ ((s.bore.keys.toList[k]?).getD none).isSome then (.state, s)
  else if h : k < 4 then
    (.done, s.onBore (fun b => { b with keys := b.keys.set k (some (BitVec.ofNat 256 (beNat (b.bytes.take 32)))), progs := b.progs + 1 }))
  else (.range, s)

/-- REVOKE_KEY (R59). -/
def State.revokeSlot (s : State) (k : Nat) : Status × State :=
  if h : k < 4 then (.done, s.onBore (fun b => { b with revoked := b.revoked.set k true })) else (.range, s)

/-- A BOR command that the master gives: none where it completes later (R85, R86). -/
def State.borEffect (s : State) (acc op arg : Nat) : Option Status × State :=
  if !([0x01, 0x02, 0x03, 0x04, 0x10, 0x11].contains op) then (some .unknown, s)
  else if s.shelving ∨ !borAllowed op s.bore.buf then (some .state, s)
  else if (op < 0x10 ∧ arg ≠ 0) ∨ (0x10 ≤ op ∧ 3 < arg) then (some .range, s)
  else match op with
  | 0x01 =>
    (some .done, ((s.onBore (fun b => { b with buf := .opened, bytes := [], apply := false, src := sourceOf acc, affected := [], bootDone := true })).wr
      (borA BOR.ERRINFO) 0).wr (borA BOR.ERROFS) 0)
  | 0x02 => (none, s.onBore (fun b => { b with buf := .verifying, apply := false, src := sourceOf acc }))
  | 0x03 =>
    if s.bore.buf = .verified then (none, s.makePending acc)
    else (none, (s.holdAffected).onBore (fun b => { b with buf := .verifying, apply := true, src := sourceOf acc }))
  | 0x04 => (some .done, (s.boreEmpty).onBore (fun b => { b with bootDone := true }))
  | 0x10 => let r := s.programSlot arg; (some r.1, r.2)
  | _ => let r := s.revokeSlot arg; (some r.1, r.2)

/-- An accessor writes a command to BOR.CMD (R75, R457, R462): the status of the word, and the state after it. -/
def State.borCmd (s : State) (acc op arg : Nat) : Status × State :=
  if !s.ready then (.buserr, s)
  else if !s.secureAcc acc then (.world, s.violate acc 1 56)
  else if !s.isMaster acc then (.world, s.violate acc 3 56)
  else
    let r := s.borEffect acc op arg
    (.done, match r.1 with | some st => r.2.finish (borA BOR.CMDSTAT) 56 op arg acc st | none => r.2)

/-- A feed word (R75): two bytes, bits 7:0 first; a bus error otherwise. -/
def State.feedWord (s : State) (acc mask data : Nat) : Status × State :=
  if !s.ready then (.buserr, s)
  else if !s.secureAcc acc then (.world, s.violate acc 1 56)
  else if !s.isMaster acc then (.world, s.violate acc 3 56)
  else if mask ≠ 0xFFFF ∨ s.bore.buf ≠ .opened ∨ 65536 < s.bore.bytes.length + 2 then (.buserr, s)
  else (.done, s.onBore (fun b => { b with bytes := b.bytes ++ [BitVec.ofNat 8 data, BitVec.ofNat 8 (data / 256)] }))

/-! ### The boot load (R74, R561) -/

/-- An image read from boot flash enters the buffer; `alt` where it is the secondary, which is read only after the primary has failed.
Nothing is read once the load has ended or the master has opened the buffer (R561). -/
def State.bootLoad (s : State) (bytes : List Byte) (alt : Bool) : State :=
  if s.img.active ∨ s.bore.bootDone ∨ (s.bore.boot ∧ s.bore.alt ≠ alt) then s
  else s.onBore (fun b => { b with buf := .verifying, bytes := bytes.take 65536, boot := true, alt := alt, src := 1, apply := false, affected := [] })

/-! ### Meanings: a command is the word as the accessor writes it to BOR.CMD -/

/-- OPEN (R85). -/
def execOpenBuf (acc : Fin 15) (arg : Byte) (s : State) : Host.Outcome State Fault Refusal := .next (s.awake fun s => (s.borCmd acc 0x01 arg.toNat).2)
/-- FEED (R75). -/
def execFeed (acc : Fin 15) (mask data : Word) (s : State) : Host.Outcome State Fault Refusal :=
  .next (s.awake fun s => State.counted acc (s.feedWord acc mask.toNat data.toNat))
/-- VERIFY (R85). -/
def execVerifyImage (acc : Fin 15) (arg : Byte) (s : State) : Host.Outcome State Fault Refusal := .next (s.awake fun s => (s.borCmd acc 0x02 arg.toNat).2)
/-- VERIFY_COMPLETE (R72, R73, R86). -/
def execVerifyComplete (s : State) : Host.Outcome State Fault Refusal := .next (s.awake fun s => s.verifyDone)
/-- APPLY (R76, R79, R85). -/
def execApplyImage (acc : Fin 15) (arg : Byte) (s : State) : Host.Outcome State Fault Refusal := .next (s.awake fun s => (s.borCmd acc 0x03 arg.toNat).2)
/-- ABORT (R82, R85). -/
def execAbortLoad (acc : Fin 15) (arg : Byte) (s : State) : Host.Outcome State Fault Refusal := .next (s.awake fun s => (s.borCmd acc 0x04 arg.toNat).2)
/-- PROGRAM_KEY (R59). -/
def execProgramKey (acc : Fin 15) (arg : Byte) (s : State) : Host.Outcome State Fault Refusal := .next (s.awake fun s => (s.borCmd acc 0x10 arg.toNat).2)
/-- REVOKE_KEY (R59). -/
def execRevokeKey (acc : Fin 15) (arg : Byte) (s : State) : Host.Outcome State Fault Refusal := .next (s.awake fun s => (s.borCmd acc 0x11 arg.toNat).2)
/-- FULL_IMAGE_APPLY (R76): the pending full image applies where every axis is in OFF or MUTE. -/
def execFullImageApply (s : State) : Host.Outcome State Fault Refusal :=
  .next (s.awake fun s => if s.bore.buf = .pending ∧ !isPatch s.bore.bytes ∧ s.allOff (List.range 12) then s.applyFull else s)
/-- PATCH_APPLY (R80): the pending patch applies, or is refused. -/
def execPatchApply (s : State) : Host.Outcome State Fault Refusal :=
  .next (s.awake fun s => if s.bore.buf = .pending ∧ isPatch s.bore.bytes then
    (if s.allOff s.bore.affected then s.patchApply else s.patchRefuse) else s)
/-- BOOT_LOAD (R74): the image that the flash holds at one of its two addresses is read. -/
def execBootLoad (bytes : List Byte) (alt : Bool) (s : State) : Host.Outcome State Fault Refusal := .next (s.awake fun s => s.bootLoad bytes alt)

end Sys2Proof.Machine
end

