-- ==== Sys2Proof/Machine/Reads.lean ====
section
/-! DEFINITION. What a register reads as for an accessor: the register file, and over it the values that the part forms from its
other state or keeps for each accessor (R10, R355, R490, R495, R499, R518, R526, R541). -/

namespace Sys2Proof.Machine

/-- A number with bit `i` set to `x`. -/
def withBit (v i : Nat) (x : Bool) : Nat := if v.testBit i = x then v else if x then v + 2 ^ i else v - 2 ^ i
/-- A number with field hi:lo set to `x`. -/
def withFld (v hi lo x : Nat) : Nat := v - fld v hi lo * 2 ^ lo + x % 2 ^ (hi - lo + 1) * 2 ^ lo

/-- The bits of word `w` of an IRQA bank that an accessor may see and write (R526). -/
def State.irqMask (s : State) (acc w : Nat) : Nat :=
  (List.range 16).foldl (fun m i => if 57 < 16 * w + i ∨ s.mayAccess acc (16 * w + i) then m + 2 ^ i else m) 0

/-- The bits of a GPIO word (0 A, 1 B) whose pins' groups an accessor may access (R540). -/
def State.pinMask (s : State) (acc w : Nat) : Nat :=
  (List.range 16).foldl (fun m i => if 24 ≤ 16 * w + i ∨ s.mayAccess acc (36 + (16 * w + i) / 6) then m + 2 ^ i else m) 0

/-- The pins for which `f` holds, as word A or B. -/
def pinWord (w : Nat) (f : Fin 24 → Bool) : Nat :=
  allPins.foldl (fun m p => if p.val / 16 = w ∧ f p then m + 2 ^ (p.val % 16) else m) 0

/-- DEV registers (R524, R529, R544). -/
def State.shownDev (s : State) (acc : Fin 15) (b : Nat) : Nat :=
  let a := s.acc[acc]
  if b = devA DEV.STATUS then withBit (withBit (withBit (s.rd b) 15 s.ready) 14 s.img.active) 13 s.stage.halt
  else if b = devA DEV.LSTAT then a.status.toNat * 256 + (if a.partialW then 128 else 0)
  else if b = devA DEV.LWORDS then a.words.toNat
  else if b = devA DEV.BECNT then a.becnt.toNat
  else if b = devA DEV.PARTCNT then (if 2 ≤ acc.val ∧ acc.val ≤ 9 then 0 else a.partcnt.toNat)
  else if devA DEV.IRQA_PEND ≤ b ∧ b < devA DEV.IRQS_PEND then s.rd b &&& s.irqMask acc ((b - devA DEV.IRQA_PEND) / 4 % 4)
  else s.rd b

/-- The number of a timebase state (R49). -/
def TbState.code : TbState → Nat
  | .free => 0 | .acquire => 1 | .locked => 2 | .holdover => 3 | .master => 4
/-- The number of a port role (R49). -/
def PortRole.code : PortRole → Nat
  | .disabled => 0 | .master => 1 | .slave => 2 | .passive => 3

/-- TIM.STATUS (R49). -/
def State.timStatus (s : State) : Nat :=
  let t := s.tim
  let v := t.st.code + t.role[0].code * 8 + t.role[1].code * 32
  withBit (withBit (withBit (withBit v 7 t.asCap[0]) 8 t.asCap[1]) 9 (t.slewing || t.servoSlew)) 10 (s.bit (timA TIM.STATUS) 10)

/-- TIM registers (R48). -/
def State.shownTim (s : State) (acc : Fin 15) (b : Nat) : Nat :=
  let t := s.tim
  if b = timA TIM.STATUS then s.timStatus
  else if b = timA TIM.NOW then s.now.toNat
  else if b = timA TIM.TEDGE then t.edgeH.toNat / 2
  else if b = timA TIM.TEDGE_HNS then (if (s.acc[acc]).edgeHalf then 1 else 0)
  else if b = timA TIM.TICK then t.tick.toNat
  else if b = timA TIM.CYC then t.cyc.toNat
  else if b = timA TIM.RATE then t.rate.toNat
  else s.rd b

/-- The number of a buffer state (R84). -/
def BufSt.code : BufSt → Nat
  | .empty => 0 | .opened => 1 | .verifying => 2 | .verified => 3 | .pending => 4

/-- BOR registers (R83, R84). -/
def State.shownBor (s : State) (b : Nat) : Nat :=
  if b = borA BOR.STATUS then
    (if s.bore.unbound then 2048 else 0) + (if s.img.alt then 1024 else 0) +
      (if s.bore.boot then 1 else s.img.source) % 4 * 256 + s.img.keyslot % 4 * 64 + s.bore.buf.code * 8 +
      (if 1 ≤ s.rd (borA BOR.LEVEL) then 4 else 0) + (if s.img.active then 2 else 0)
  else if b = borA BOR.FILL then s.bore.bytes.length
  else if b = borA BOR.KEYS then
    (List.finRange 4).foldl (fun m (k : Fin 4) => m + (if s.bore.revoked[k] then 2 ^ (4 + k.val) else 0) +
      (if s.bore.keys[k].isSome then 2 ^ k.val else 0)) 0
  else s.rd b

/-- WLD registers (R476, R477). -/
def State.shownWld (s : State) (acc : Fin 15) (b : Nat) : Nat :=
  if b = wldA WLD.STATUS then
    let diff := decide (s.rd (wldA WLD.SREG) ≠ s.rd (wldA WLD.REG)) ||
      (List.range 4).any (fun w => decide (s.rd (wldA WLD.SBLK + 4 * w) ≠ s.rd (wldA WLD.BLK + 4 * w)))
    withBit (withBit (withBit (s.rd b) 11 s.wld.dkey.isSome) 10 diff) 8 s.wld.staged
  else if b = wldA WLD.WHO then
    (if s.secureAcc acc then 32768 else 0) + (if s.isMaster acc then 16384 else 0) + acc.val
  else s.rd b

/-- Word `w` of a history entry (R488). -/
def HistEntry.word (e : HistEntry) (w : Nat) : Nat :=
  if w < 4 then e.time.toNat / 65536 ^ w % 65536
  else if w = 4 then e.code.toNat else if w = 5 then e.w5.toNat else if w = 6 then e.w6.toNat else e.w7.toNat

/-- The entry that an accessor's HSEL selects; none beyond the queue (R490). -/
def State.histSel (s : State) (acc : Fin 15) : Option HistEntry := s.flt.hist[(s.acc[acc]).hsel.toNat]?

/-- The blocks whose world decides over the counts of a flag: its register's, and those that its bit follows (R495, R526, R540). -/
def flagBlocks (a i : Nat) : List Nat :=
  if devA DEV.IRQA_PEND ≤ a ∧ a < devA DEV.IRQA_PEND + 16 then
    (let k := 16 * ((a - devA DEV.IRQA_PEND) / 4) + i; if k ≤ 57 then [k] else [])
  else
    (match blockOf a with | some b => [b] | none => []) ++
    (if a = gpioA GPIO.EDGA ∨ a = gpioA GPIO.CHTA then [36 + i / 6]
     else if a = gpioA GPIO.EDGB ∨ a = gpioA GPIO.CHTB then [36 + (16 + i) / 6] else [])

/-- The block of the flag that an accessor's selection names and that it may not access, if there is one (R495). -/
def State.fcntBlock (s : State) (acc : Fin 15) : Option Nat :=
  let a := s.acc[acc]
  if flagAt a.fsel.toNat a.fselbit.toNat then (flagBlocks a.fsel.toNat a.fselbit.toNat).find? (fun b => !s.mayAccess acc b) else none

/-- FLT.CONT (R499): bits 0 and 1 stand from the fault to its repair, the others follow the registers that show the fault. -/
def State.cont (s : State) : Nat :=
  let adc := decide (s.fld (astat 0) 15 14 = 1 ∨ s.fld (astat 0) 15 14 = 2 ∨ s.fld (astat 1) 15 14 = 1 ∨ s.fld (astat 1) 15 14 = 2)
  let wire := (List.finRange 8).any (fun (p : Fin 8) => (s.portAxis p).isSome && s.bit (prtStat p) 12)
  let miss := s.regs.any (fun e => decide (subBase 0 ≤ e.1) && decide (e.1 < subBase 1024) && decide (e.1 % 0x20 = SUB.SSTAT) &&
    e.2.getLsbD 15 && decide (e.2.toNat % 256 ≠ 0))
  withBit (withBit (withBit (s.rd (fltA FLT.CONT)) 2 adc) 3 wire) 4 miss

/-- FLT registers (R505-R507). -/
def State.shownFlt (s : State) (acc : Fin 15) (b : Nat) : Nat :=
  let a := s.acc[acc]
  let snap (w : Nat) : Nat := match a.hsnap with | some e => e.word w | none => 0
  if b = fltA FLT.STATUS then withBit (s.rd b) 9 s.flt.tm
  else if b = fltA FLT.HCOUNT then s.flt.hist.length
  else if b = fltA FLT.HSEL then a.hsel.toNat
  else if b = fltA FLT.HSEQ then (match a.hsnap with | some e => e.seq.toNat | none => 0)
  else if b = fltA FLT.HE0 then (match s.histSel acc with | some e => e.word 0 | none => 0)
  else if fltA FLT.HE1 ≤ b ∧ b < fltA FLT.HE1 + 28 then snap ((b - fltA FLT.HE0) / 4)
  else if b = fltA FLT.CONT then s.cont
  else if b = fltA FLT.FSEL then a.fsel.toNat
  else if b = fltA FLT.FSELBIT then a.fselbit.toNat
  else if b = fltA FLT.FCNT then
    (if flagAt a.fsel.toNat a.fselbit.toNat then (s.flagCounts (flagKey a.fsel.toNat a.fselbit.toNat)).toNat else 0)
  else if b = fltA FLT.TMSTAT then
    (if s.flt.tm then 32768 else 0) + (if s.pow.lock then 16384 else 0) + (if s.flt.tenSeen then 8192 else 0) +
      (if s.flt.eccArm.isSome then 4096 else 0) + s.flt.injLink % 4 * 1024
  else s.rd b

/-- The requests of session k that wait for their reply (R445). -/
def State.outstanding (s : State) (k : Nat) : Nat := (s.net.reqs.filter (fun r => r.k == k)).length

/-- NET registers (R449-R451). -/
def State.shownNet (s : State) (acc : Fin 15) (b : Nat) : Nat :=
  let a := s.acc[acc]
  if b = netA NET.NSTAT then
    let up (p : Nat) : Bool := s.bit (netpBase p + NETP.PSTAT) 15
    let open_ := ((List.range 8).filter (fun k => s.bit (netsBase k + NETS.SSTAT) 15)).length
    withBit (withFld (withBit (s.rd b) 8 (up 0 && up 1)) 7 4 open_) 3 s.net.claimer.isSome
  else if b = netA NET.SIDX then a.sidx.toNat
  else if b = netA NET.SNEW then a.snew.toNat
  else if b = netA NET.SNEW_SEL then a.snewSel.toNat
  else if b = netA NET.DUPUSED then s.net.dups.length
  else if b = netpBase 0 + NETP.PSTAT ∨ b = netpBase 1 + NETP.PSTAT then
    let u := b - NETP.PSTAT
    withBit (s.rd b) 7 (!s.bit (u + NETP.EQ) 15 || !s.bit (u + NETP.PCFG) 15 || s.bit b 14)
  else if h : netsBase 0 ≤ b ∧ b < netsBase 8 then
    let k : Fin 8 := ⟨(b - netsBase 0) / 0x20, by simp only [netsBase] at h; simp only [netsBase]; omega⟩
    if b % 0x20 = NETS.SSTAT then
      let n := s.outstanding k
      withFld (withBit (s.rd b) 10 (decide (0 < n))) 13 11 (n - 1)
    else if b % 0x20 = NETS.SLAST then (match (s.net.sess[k]).hi with | some x => x.toNat | none => 0)
    else if b % 0x20 = NETS.SIDLE then min 0xFFFF ((s.net.sess[k]).idle / 400000)
    else s.rd b
  else if subBase 0 ≤ b ∧ b < subBase 1024 ∧ b % 0x20 = SUB.SSTAT then
    let o := s.fld (b - SUB.SSTAT + SUB.SRC_H) 15 12
    withBit (s.rd b) 12 (s.bit b 15 && (if h : o < 12 then s.role ⟨o, h⟩ == 0 else false))
  else s.rd b

/-- AX registers (R88, R119-R121, R157, R412). -/
def State.shownAx (s : State) (n : Fin 12) (b : Nat) : Nat :=
  let o := b - axBase n
  let m := s.mot n
  if o = AX.STATE then m.st.code
  else if o = AX.STATUS then
    withBit (withFld (withBit (withBit (withBit (withBit (s.rd b) 15 m.cmd.isSome) 14 m.atTarget) 13 m.remValid) 12
      (m.st == .move && m.vmode)) 11 10 (if m.st = .follow then (s.fol n).mode else 0)) 9 (s.fol n).armed
  else if o = AX.POS then (BitVec.ofInt 48 m.ipos).toNat
  else if o = AX.VEL then (BitVec.ofInt 64 m.ivel).toNat
  else if o = AX.ACC then (BitVec.ofInt 64 m.iacc).toNat
  else if o = AX.REM then m.rem.toNat
  else if o = AX.MPOS then (if s.axb n AX.CFG 1 then (s.mpos n).toNat % 2 ^ 32 else 0)
  else if 0x200 ≤ o ∧ o < 0x500 ∧ !s.isPower n then (resetOf b).toNat
  else if o = AX.YSTAT then withFld (s.rd b) 7 6 (s.touchBits n / 64)
  else s.rd b &&& (0xFFFFFFFFFFFFFFFF ^^^ s.deadBits n o)

/-- Registers of a PWM unit: the timing and overcurrent registers of a partner are those of its lead (R199, R226); the trip sources show as
they stand (R252). -/
def State.shownUnit (s : State) (u : Nat) (o : Nat) : Nat :=
  if o = PU.PSTAT then withBit (s.rd (unitBase u + o)) 6 (s.isPartner u)
  else if o = PU.LSTAT then
    (List.range 7).foldl (fun v k => withBit v (8 + k) ((s.sourcesOf u).getD k false)) (s.rd (unitBase u + o) % 256)
  else if (PU.PERIOD ≤ o ∧ o ≤ PU.TMIN) ∨ (PU.OCTHR ≤ o ∧ o ≤ PU.OCQ) then s.rd (unitBase (s.leadOf u) + o)
  else s.rd (unitBase u + o)

/-- GPIO registers (R283): each bit of the pin words follows the group of its pin as well. -/
def State.shownGpio (s : State) (acc : Fin 15) (b : Nat) : Nat :=
  let o := b - gpioA 0
  let w := o / 4 % 2
  if o < 0x30 then
    (if o < 8 then pinWord w s.pinOn
     else if o < 16 then pinWord w (fun p => s.pins.lvl[p] && !s.pinAna p)
     else s.rd b) &&& s.pinMask acc w
  else s.rd b

/-- What the value whose _L word lies at `b` reads as for an accessor. -/
def State.shown (s : State) (acc : Fin 15) (b : Nat) : Val :=
  BitVec.ofNat 64
    (if b < 0x010000 then s.shownDev acc b
     else if b < 0x020000 then s.shownTim acc b
     else if b < 0x030000 then s.shownBor b
     else if b < 0x040000 then s.shownWld acc b
     else if b < 0x050000 then s.shownFlt acc b
     else if b < 0x080000 then s.shownNet acc b
     else if h : b < 0x0B0000 then s.shownAx ⟨(b - 0x080000) / 0x4000 % 12, by omega⟩ b
     else if b < 0x0C3000 then s.shownUnit ((b - 0x0C0000) / 0x100) (b % 0x100)
     else if b < 0x0D0000 then s.shownUnit (40 + (b - 0x0C3000) / 0x100) (b % 0x100)
     else if h : 0x100000 ≤ b ∧ b < 0x100200 ∧ b % 0x40 = CMPC.CSTAT then
       let m : Fin 8 := ⟨(b - 0x100000) / 0x40, by omega⟩
       withBit (withBit (s.rd b) 12 (s.cmpOn m)) 11 (decide (0 < s.cmps.hold[m]))
     else if 0x100800 ≤ b ∧ b < 0x110000 then withBit (s.rd b) 13 (s.azFrozen ((b - 0x100800) / 4))
     else if 0x110000 ≤ b ∧ b < 0x110030 then s.shownGpio acc b
     else s.rd b)

/-- The records that carry the bit newer in their last word (R355): MOD PAVG, ADC RES and URES. -/
def hasNewer (b : Nat) : Bool :=
  (decide (0x0D0000 ≤ b) && decide (b < 0x0D0800) && decide (b % 0x40 = MOD.PAVG)) ||
  (decide (0x0D8000 ≤ b) && decide (b < 0x0DA000) && (decide (b % 0x1000 = ADC.URES) || (decide (ADC.RES ≤ b % 0x1000) && decide (b % 0x1000 < 0x200))))

/-- A snapshot of the value at `b` is installed as the reader's shadow (R518, R490). -/
def State.takeSnap (s : State) (acc : Fin 15) (b : Nat) : State :=
  let v := s.shown acc b
  let half := s.tim.edgeH.getLsbD 0
  if b = fltA FLT.HE0 then s.onAcc acc (fun a => { a with hsnap := s.flt.hist[a.hsel.toNat]? })
  else s.onAcc acc (fun a => { a with
    shadows := (b, v) :: a.shadows.filter (fun e => e.1 != b), lostSnap := a.lostSnap.filter (· != b), newer := a.newer.filter (· != b),
    edgeHalf := if b = timA TIM.TEDGE then half else a.edgeHalf })

/-- A register word as an accessor reads it, once its world has been judged (R518): the status, the word, and the violation that it is.
Words of a value above _L come from the reader's shadow; the words of FLT.HSEQ, which no snapshot of their own covers, are read as they stand. -/
def State.readReg (s : State) (acc : Fin 15) (l : Loc) : Status × Nat :=
  let a := s.acc[acc]
  match l.row.acc with
  | .cmd | .wo => (.done, 0)
  | _ =>
    if l.word = 0 ∨ l.base = fltA FLT.HSEQ then (.done, (s.shown acc l.base).toNat / 65536 ^ l.word % 65536)
    else if a.lostSnap.contains l.base then (.world, 0)
    else
      let v := match a.shadows.find? (fun e => e.1 == l.base) with | some e => e.2.toNat | none => 0
      let w := v / 65536 ^ l.word % 65536
      (.done, if l.word + 1 = l.row.words ∧ hasNewer l.base then withBit w 15 (a.newer.contains l.base) else w)

end Sys2Proof.Machine
end

