-- ==== Sys2Proof/Machine/Gptp.lean ====
section
/-! DEFINITION. The egress queues of the ports, and the 802.1AS messages that the part sends and receives (R23-R26, R429). The layout of
these messages is that of IEEE 802.1AS. PRESUMED (log 54). -/

namespace Sys2Proof.Machine

/-! ### Names -/

/-- The state with port n changed. -/
def State.onNp (s : State) (n : Fin 2) (f : NetPort → NetPort) : State := s.onNet (fun x => { x with port := vupd x.port n f })
/-- PSTAT of port n. -/
def npStat (n : Fin 2) : Nat := netpBase n + NETP.PSTAT
/-- The other port. -/
def otherPort (n : Fin 2) : Fin 2 := if n = 0 then 1 else 0
/-- Port n is up (R416). -/
def State.portUp (s : State) (n : Fin 2) : Bool := s.bit (npStat n) 15
/-- Port n is enabled. -/
def State.portEn (s : State) (n : Fin 2) : Bool := s.bit (netpBase n + NETP.PCFG) 15
/-- The confirmed address, 0 for none. -/
def State.devAddr (s : State) : Nat := s.rd (netA NET.ADDR)
/-- The MAC address as a number (R435). -/
def State.mac (s : State) : Nat := s.rd (netA NET.MAC)
/-- NSTAT.astate: 0 unaddressed, 1 claiming, 2 waiting for an offer, 3 confirmed. -/
def State.astate (s : State) : Nat := s.fld (netA NET.NSTAT) 13 12
/-- The big-endian 16-bit number at offset `i`. -/
def u16 (l : List Byte) (i : Nat) : Nat := beNat ((l.drop i).take 2)
/-- The session of a frame that is no reply. -/
def noSess : Nat := 8

/-! ### Egress queues (R429) -/

/-- Bytes that wait in the buffer of a port, FCS included. -/
def NetPort.hold (p : NetPort) : Nat := (p.txq.map (fun f => f.bytes.length + 4)).sum
/-- What the buffer may hold before frames of a queue are dropped. -/
def queueLimit : Nat → Nat
  | 3 => 16384 | 2 => 14336 | _ => 12288

/-- A frame is stored in its queue of port n, or dropped (R428, R429). -/
def State.enqueue (s : State) (n : Fin 2) (f : Frame) : State :=
  if !s.portUp n then s
  else
    let h := (s.net.port[n]).hold
    if queueLimit f.q < h ∨ 16384 < h + f.bytes.length + 4 then s.bump (netpBase n + (if f.q = 3 then NETP.DROP3 else NETP.DROPCNT))
    else s.onNp n (fun p => { p with txq := p.txq ++ [f] })

/-- The oldest frame of the highest queue that is not empty, and the frames that stay. -/
def popFrame (l : List Frame) : Option (Frame × List Frame) :=
  let q := l.foldl (fun m f => max m f.q) 0
  match l.find? (fun f => f.q == q) with
  | some f => some (f, l.erase f)
  | none => none

/-- Bytes padded with zeros to a frame of 64 bytes with its FCS. -/
def padFrame (l : List Byte) : List Byte := l ++ List.replicate (60 - l.length) 0

/-! ### 802.1AS messages (R22, R23, R25) -/

/-- The clockIdentity: the MAC address with FF-FE in its middle (R23). -/
def State.clockId (s : State) : Nat := s.mac / 2 ^ 24 * 2 ^ 40 + 0xFFFE * 2 ^ 24 + s.mac % 2 ^ 24

/-- A time as a timestamp of 802.1AS: whole seconds and nanoseconds. -/
def ptpTime (h : Nat) : List Byte := beBytes 6 (h / 2 / 10 ^ 9) ++ beBytes 4 (h / 2 % 10 ^ 9)

/-- The nanoseconds of a timestamp at offset `i`. -/
def ptpNs (b : List Byte) (i : Nat) : Nat := beNat ((b.drop i).take 6) * 10 ^ 9 + beNat ((b.drop (i + 6)).take 4)

/-- The correction field of a message [2^-16 ns]. -/
def ptpCorr (b : List Byte) : Int := (BitVec.ofNat 64 (beNat ((b.drop 22).take 8))).toInt

/-- A message of type `typ` on port n: domain 0, untagged, to the link-local address (R22, R23). `flags` are the two flag bytes, `corr` the
correction [2^-16 ns], `log` the interval. -/
def State.ptpFrame (s : State) (n : Fin 2) (typ flags : Nat) (corr : Int) (seq : BitVec 16) (ctl log : Nat) (body : List Byte) : List Byte :=
  padFrame (beBytes 6 0x0180C200000E ++ beBytes 6 s.mac ++ beBytes 2 0x88F7 ++ beBytes 1 (16 + typ) ++ [2] ++ beBytes 2 (34 + body.length) ++
    [0, 0] ++ beBytes 2 flags ++ beBytes 8 (BitVec.ofInt 64 corr).toNat ++ beBytes 4 0 ++ beBytes 8 s.clockId ++ beBytes 2 (n.val + 1) ++
    beBytes 2 seq.toNat ++ beBytes 1 ctl ++ beBytes 1 log ++ body)

/-- A message waits in the highest queue of port n. -/
def State.sendPtp (s : State) (n : Fin 2) (bytes : List Byte) : State :=
  (s.enqueue n ⟨3, bytes, false, noSess⟩).onTim (fun x => { x with msgs := x.msgs + 1 })

/-- What port n keeps of the messages, changed. -/
def State.onPtp (s : State) (n : Fin 2) (f : PtpPort → PtpPort) : State := s.onTim (fun t => { t with ptp := vupd t.ptp n f })

/-- The signed 4-bit log interval `k` as the signed byte of a message. -/
def logByte (k : Nat) : Nat := if k < 8 then k else 240 + k

/-- The grandmaster's attributes that the part announces for itself (R25): priority1, class, accuracy, variance, priority2, identity. -/
def State.ownRoot (s : State) : Nat :=
  let prio := s.rd (timA TIM.PRIO)
  let p1 := if s.bit (timA TIM.CTRL) 2 then prio / 256 % 256 else 255
  ((((p1 * 256 + 248) * 256 + 0xFE) * 65536 + 0x436A) * 256 + prio % 256) * 2 ^ 64 + s.clockId

/-- The best priority vector (smaller is better): the own one and those of the ports that are up and asCapable, one step further (R25). -/
def State.bestVector (s : State) : Nat :=
  (List.finRange 2).foldl (fun m (n : Fin 2) =>
    match s.tim.ptp[n].ann with
    | some v => if s.portUp n && s.tim.asCap[n] then min m (v + 2 ^ 80) else m
    | none => m) (s.ownRoot * 2 ^ 96 + s.clockId * 65536)

/-- The role that the BMCA gives port n (R23). -/
def State.bmcaRole (s : State) (n : Fin 2) : Nat :=
  let best := s.bestVector
  if !(s.portUp n && s.tim.asCap[n]) then 0
  else match s.tim.ptp[n].ann with
    | none => 1
    | some v => if v + 2 ^ 80 = best then 2 else if v < best / 2 ^ 80 * 2 ^ 80 + s.clockId * 65536 + n.val + 1 then 3 else 1

/-- The grandmaster that the BMCA elects: 0 where no other part is better. -/
def State.bmcaGm (s : State) : Nat := if s.bestVector / 2 ^ 96 = s.ownRoot then 0 else s.bestVector / 2 ^ 96 % 2 ^ 64

/-- An Announce of port n (R25): the grandmaster's attributes, the steps from it, the time source, and the path. -/
def State.announceBody (s : State) : List Byte :=
  let best := s.bestVector
  let root := best / 2 ^ 96
  beBytes 10 0 ++ beBytes 2 0 ++ [0] ++ beBytes 14 root ++ beBytes 2 (best / 2 ^ 80 % 65536) ++ beBytes 1 0xA0 ++
    beBytes 2 8 ++ beBytes 2 8 ++ beBytes 8 s.clockId

/-- The body of a Follow_Up: the precise origin, and the cumulative rate ratio in its information TLV. -/
def followBody (origin : List Byte) (rate : Int) : List Byte :=
  origin ++ beBytes 2 3 ++ beBytes 2 28 ++ beBytes 3 0x0080C2 ++ beBytes 3 1 ++ beBytes 4 (BitVec.ofInt 32 rate).toNat ++ beBytes 18 0

/-- Every master port sends a Sync (R23). -/
def State.sendSync (s : State) : State :=
  overList (List.finRange 2) (fun s (n : Fin 2) =>
    if s.portUp n ∧ s.tim.role[n] = .master then
      let q := s.tim.ptp[n].seqSync
      (s.sendPtp n (s.ptpFrame n 0 0x0208 0 q 0 (logByte (s.fld (timA TIM.PTPCFG) 3 0)) (beBytes 10 0))).onPtp n (fun x => { x with seqSync := q + 1 })
    else s) s

/-- Every master port sends an Announce (R23, R25). -/
def State.sendAnnounce (s : State) : State :=
  overList (List.finRange 2) (fun s (n : Fin 2) =>
    if s.portUp n ∧ s.tim.role[n] = .master then
      let q := s.tim.ptp[n].seqAnn
      (s.sendPtp n (s.ptpFrame n 11 0x0008 0 q 5 0 s.announceBody)).onPtp n (fun x => { x with seqAnn := q + 1 })
    else s) s

/-- Every port that is up sends a Pdelay_Req; an exchange of it that has not ended has failed (R23, R24). -/
def State.sendPdelay (s : State) : State :=
  overList (List.finRange 2) (fun s (n : Fin 2) =>
    if s.portUp n then
      let s1 := if s.tim.ptp[n].t1.isSome then s.pdelay n none else s
      let q := s1.tim.ptp[n].seqPd + 1
      (s1.sendPtp n (s1.ptpFrame n 2 8 0 q 5 (logByte (s.fld (timA TIM.PTPCFG) 7 4)) (beBytes 20 0))).onPtp n (fun x => { x with
        seqPd := q, t1 := none, t2 := none })
    else s) s

/-- The part originates 802.1AS messages (R23): 0 Sync, whose Follow_Up leaves after it, and 1 Announce on master ports, 2 Pdelay_Req on each
port. -/
def State.gptp (s : State) (kind : Nat) : State :=
  match kind with
  | 0 => s.sendSync
  | 1 => s.sendAnnounce
  | _ => s.sendPdelay

/-- A message of 802.1AS of the part itself leaves port n (R23, R26): an event message takes its transmit timestamp, and the message that
carries the timestamp follows. A relay gives the origin of its own master, with the residence time and its rate. -/
def State.sentPtp (s : State) (n : Fin 2) (b : List Byte) : State :=
  if u16 b 12 ≠ 0x88F7 then s
  else
    let t := s.tim.half + s.rd (timA (if n = 0 then TIM.EGLAT0 else TIM.EGLAT1))
    let sub : Int := (t % 2 * 2 ^ 15 : Nat)
    let seq := BitVec.ofNat 16 (u16 b 44)
    match byteAt b 14 % 16 with
    | 0 =>
      let log := byteAt b 47
      match s.tim.relay with
      | some r =>
        let stay : Int := (t : Int) - r.rx
        let corr := r.corr + stay * 2 ^ 15 + openDiv 106 (stay * 2 ^ 15 * r.rate) (2 ^ 41)
        s.sendPtp n (s.ptpFrame n 8 8 corr seq 2 log (followBody (ptpTime (2 * r.origin)) r.rate))
      | none => s.sendPtp n (s.ptpFrame n 8 8 sub seq 2 log (followBody (ptpTime t) 0))
    | 2 => s.onPtp n (fun x => { x with t1 := some t })
    | 3 => s.sendPtp n (s.ptpFrame n 10 8 sub seq 5 0x7F (ptpTime t ++ (b.drop 58).take 10))
    | _ => s

/-! ### Reception (R23-R26) -/

/-- The interval of a Sync [ns] from its log interval, a signed byte. -/
def syncNs (k : Nat) : Nat := if k < 128 then 10 ^ 9 * 2 ^ k else 10 ^ 9 / 2 ^ (256 - k)

/-- A Follow_Up completes the Sync of its number on port n (R23, R28): the offset after the corrections for path delay and rate ratio, and on
a time-aware relay the Sync of the other port. -/
def State.gotFollow (s : State) (n : Fin 2) (b : List Byte) : State :=
  let x := s.tim.ptp[n]
  match x.sync with
  | none => s
  | some (q, rx) =>
    if q ≠ u16 b 44 then s
    else
      let s1 := s.onPtp n (fun y => { y with sync := none })
      if s.tim.role[n] ≠ .slave then s1
      else
        let rate := (BitVec.ofNat 32 (beNat ((b.drop 68).take 4))).toInt + x.nrr
        let d : Int := s.tim.delay[n]
        let corr := ptpCorr b + d * 2 ^ 16 + openDiv 107 (d * 2 ^ 16 * rate) (2 ^ 41)
        let origin := ptpNs b 48
        let theta := openDiv 108 ((origin : Int) * 2 ^ 16 + corr - (rx : Int) * 2 ^ 15) (2 ^ 16)
        let s2 := (s1.onTim (fun t => { t with relay := some ⟨origin, corr, rate, rx⟩ })).onSync n theta (syncNs (byteAt b 47))
        if s.tim.asCap[0] && s.tim.asCap[1] then s2.sendSync else s2

/-- An Announce arrives on port n (R23, R25): one of the part itself, or with its own identity in the path, does not count. -/
def State.gotAnnounce (s : State) (n : Fin 2) (b : List Byte) : State :=
  let path := (List.range (u16 b 80 / 8)).map (fun i => beNat ((b.drop (82 + 8 * i)).take 8))
  if beNat ((b.drop 34).take 8) = s.clockId ∨ 255 ≤ u16 b 75 ∨ path.contains s.clockId then s
  else
    let v := (beNat ((b.drop 61).take 14) * 65536 + u16 b 75) * 2 ^ 80 + beNat ((b.drop 34).take 10)
    let s1 := s.onPtp n (fun x => { x with ann := some v })
    s1.announced n s1.bmcaGm (s1.bmcaRole 0) (s1.bmcaRole 1)

/-- The last message of a peer-delay exchange of port n (R24): the delay [ns] from its four timestamps, and the neighbour's rate. -/
def State.gotPdelay (s : State) (n : Fin 2) (b : List Byte) : State :=
  let x := s.tim.ptp[n]
  match x.t1, x.t2 with
  | some t1, some (t2, t4) =>
    let t3 : Int := 2 * (ptpNs b 48 : Int) + openDiv 109 (ptpCorr b) (2 ^ 15)
    let out : Int := (t4 : Int) - t1
    let nrr := match x.prev with
      | some (p3, p4) => if p4 < t4 then openDiv 111 ((t3 - p3) * 2 ^ 41) ((t4 - p4 : Nat) : Int) - 2 ^ 41 else x.nrr
      | none => x.nrr
    let d := openDiv 112 (out + openDiv 113 (out * nrr) (2 ^ 41) - (t3 - t2)) 4
    (s.onPtp n (fun y => { y with t1 := none, t2 := none, prev := some (t3.toNat, t4), nrr := nrr })).pdelay n (some d.toNat)
  | _, _ => s

/-- An 802.1AS message arrives on port n (R23, R26): those of another domain and one-step Syncs are discarded. -/
def State.gotPtp (s : State) (n : Fin 2) (b : List Byte) : State :=
  let rx := s.tim.half + s.rd (timA (if n = 0 then TIM.INLAT0 else TIM.INLAT1))
  let mine := decide ((b.drop 58).take 10 = beBytes 8 s.clockId ++ beBytes 2 (n.val + 1)) && u16 b 44 == s.tim.ptp[n].seqPd.toNat
  if byteAt b 18 ≠ 0 then s
  else match byteAt b 14 % 16 with
  | 0 => if (byteAt b 20).testBit 1 then s.onPtp n (fun x => { x with sync := some (u16 b 44, rx) }) else s
  | 2 => s.sendPtp n (s.ptpFrame n 3 0x0208 ((rx % 2 * 2 ^ 15 : Nat) : Int) (BitVec.ofNat 16 (u16 b 44)) 5 0x7F (ptpTime rx ++ (b.drop 34).take 10))
  | 3 => if mine then s.onPtp n (fun x => { x with t2 := some (2 * ptpNs b 48 + (fdiv (ptpCorr b) (2 ^ 15)).toNat, rx) }) else s
  | 8 => s.gotFollow n b
  | 10 => if mine then s.gotPdelay n b else s
  | 11 => s.gotAnnounce n b
  | _ => s

/-! ### Transmission (R429) -/

/-- Port n sends its next frame (R429): counted, and of queue Q3 in the load of the cycle (R448); an 802.1AS event message takes its
timestamp (R26). -/
def State.transmit (s : State) (n : Fin 2) : State :=
  if !s.portUp n then s
  else match popFrame (s.net.port[n]).txq with
  | none => s
  | some (f, rest) =>
    ((s.onNp n (fun p => { p with txq := rest, wire := some f, load := if f.q = 3 then p.load + f.bytes.length + 24 else p.load })).wr
      (netpBase n + NETP.TXFRM) ((s.rd (netpBase n + NETP.TXFRM) + 1) % 2 ^ 32)).sentPtp n f.bytes

end Sys2Proof.Machine
end

