-- ==== Sys2Proof/Machine/Network.lean ====
section
/-! DEFINITION. The backbone (15_backbone.md): links and equalisers, frames, forwarding, the duplicate filter, addresses, the
cyclic exchange, subscriptions, and the reception of requests. -/

namespace Sys2Proof.Machine

/-! ### Frames that the part originates (R421, R424, R431) -/

/-- The Jisil header (R424). -/
def jisilHeader (typ hops path src dst seq cyc len : Nat) (secure : Bool) : List Byte :=
  beBytes 1 (16 + typ) ++ beBytes 1 hops ++ beBytes 2 (path * 32768 + src) ++ beBytes 2 dst ++ beBytes 2 seq ++ beBytes 4 cyc ++
    beBytes 2 len ++ beBytes 1 (if secure then 1 else 0) ++ [0]

/-- The tag of a frame (R471): the header with hops and path 0, then the payload. -/
def frameTag (key : List Byte) (header payload : List Byte) : List Byte :=
  let h := header.set 1 0
  (cmac key (h.set 2 (h.getD 2 0 &&& 0x7F) ++ payload)).take 8

/-- One copy of a frame that the part originates, for port `path`. -/
def State.jisilFrame (s : State) (typ pcp : Nat) (dstMac : List Byte) (src dst seq cyc : Nat) (payload : List Byte)
    (key : Option (BitVec 128)) (path : Nat) : List Byte :=
  let h := jisilHeader typ (s.rd (netA NET.HOPS)) path src dst seq cyc payload.length key.isSome
  let tag := match key with | some k => frameTag (keyBytes k) h payload | none => []
  padFrame (dstMac ++ beBytes 6 s.mac ++ beBytes 2 0x8100 ++ beBytes 2 (pcp * 8192 + s.rd (netA NET.VID) % 4096) ++
    beBytes 2 (s.rd (netA NET.ETYPE)) ++ h ++ payload ++ tag)

/-- A frame leaves on both ports with one sequence number (R431). -/
def State.originate (s : State) (q typ pcp : Nat) (dstMac : List Byte) (src dst cyc : Nat) (payload : List Byte)
    (key : Option (BitVec 128)) (k : Nat) : State :=
  let seq := s.rd (netA NET.SEQ)
  let s1 := s.wr (netA NET.SEQ) ((seq + 1) % 65536)
  overList (List.finRange 2) (fun s (n : Fin 2) =>
    s.enqueue n ⟨q, s.jisilFrame typ pcp dstMac src dst seq cyc payload key n, false, k⟩) s1

/-- The acyclic priority (R424). -/
def State.pcpAcyclic (s : State) : Nat := s.fld (netA NET.PCP) 10 8

/-- A management frame leaves (R422, R427). -/
def State.manage (s : State) (op addr mac : Nat) : State :=
  s.originate 2 4 s.pcpAcyclic (beBytes 6 0x034A53020000) s.devAddr 0x7FFF s.tim.cyc.toNat
    (beBytes 1 op ++ [0] ++ beBytes 2 addr ++ beBytes 6 mac) none noSess

/-- A reply leaves for the client's device (R426, R446, R474). -/
def State.reply (s : State) (dst : Nat) (payload : List Byte) (key : Option (BitVec 128)) (k : Nat) : State :=
  s.originate 2 3 s.pcpAcyclic (beBytes 4 0x034A5301 ++ beBytes 2 dst) s.devAddr dst s.tim.cyc.toNat payload key k

/-! ### The duplicate filter (R432, R433) -/

/-- The filter's entry of a source is made anew. -/
def State.dupNew (s : State) (src : Nat) (seq : BitVec 16) : State :=
  let rest := s.net.dups.filter (fun d => d.src != src)
  let s1 := s.onNet (fun x => { x with dups := (⟨src, seq, 0⟩ :: rest).take 2048 })
  if 2048 ≤ rest.length then (s1.flag (netA NET.NSTAT) 9).bump (netA NET.DUPEVCT) else s1

/-- The decision of R432 on an entry: the entry after it, or none for a frame that is dropped. -/
def Dup.accept (e : Dup) (seq : BitVec 16) : Option Dup :=
  let d := (seq - e.hi).toNat
  if d = 0 then none
  else if d ≤ 32767 then some { e with hi := seq, map := (if 64 ≤ d then 0 else e.map <<< d) ||| (if d ≤ 64 then BitVec.twoPow 64 (d - 1) else 0) }
  else
    let b := 65536 - d
    if b ≤ 64 ∧ !e.map.getLsbD (b - 1) then some { e with map := e.map ||| BitVec.twoPow 64 (b - 1) } else none

/-- A frame of a source passes the filter or is dropped. -/
def State.dupFilter (s : State) (src : Nat) (seq : BitVec 16) : Bool × State :=
  match s.net.dups.find? (fun d => d.src == src) with
  | none => (true, s.dupNew src seq)
  | some e =>
    let front (e : Dup) : State := s.onNet (fun x => { x with dups := e :: x.dups.filter (fun d => d.src != src) })
    match e.accept seq with
    | some e' => (true, front e')
    | none => (false, front e)

/-! ### Addresses (R434-R439) -/

/-- The claim in progress no longer belongs to a command. -/
def State.claimDone (s : State) (st : Status) : State :=
  match s.net.claimer with
  | some acc => (s.onNet (fun x => { x with claimer := none })).finish (netA NET.NCMDSTAT) 52 0x10 0 acc st
  | none => s

/-- NSTAT.astate takes a value; addr_ok follows it. -/
def State.setAstate (s : State) (x : Nat) : State := (s.setFld (netA NET.NSTAT) 13 12 x).setBit (netA NET.NSTAT) 15 (x == 3)

/-- A claim of address `a` begins (R435): the first CLAIM. -/
def State.claimAddr (s : State) (a : Nat) : State :=
  ((s.setAstate 1).onNet (fun x => { x with cand := a, claims := 1, claimClk := 0 })).manage 1 a s.mac

/-- A claim of ADDRREQ begins, or the manager is asked (R435, R436). -/
def State.startClaim (s : State) : State :=
  let a := s.rd (netA NET.ADDRREQ)
  let s1 := s.onNet (fun x => { x with autoDue := false })
  if a = 0 then ((s1.setAstate 2).onNet (fun x => { x with asked := 1, claimClk := 0 })).manage 3 0 s.mac else s1.claimAddr a

/-- The status with which a failed claim ends the command (R452). -/
def claimStatus : Nat → Status
  | 3 => .timeout | 4 => .full | _ => .state

/-- The claim fails (R437). -/
def State.claimFail (s : State) (cause : Nat) : State :=
  let s1 := (s.setAstate 0).log 0x0504 (if cause ≤ 2 then s.net.cand else 0) cause .log
  (s1.flag (netA NET.NSTAT) 11).claimDone (claimStatus cause)

/-- 10 ms have passed since the last CLAIM of a claim in progress (R435). -/
def State.claimWaited (s : State) : Bool := s.astate == 1 && decide (4000000 ≤ s.net.claimClk)

/-- 1 s has passed since the last REQUEST without an answer (R436). -/
def State.requestWaited (s : State) : Bool := s.astate == 2 && decide (400000000 ≤ s.net.claimClk)

/-- The next of the three CLAIMs, 10 ms after the last (R435). -/
def State.claimResend (s : State) : State :=
  if s.claimWaited ∧ s.net.claims < 3 then (s.onNet (fun x => { x with claims := x.claims + 1, claimClk := 0 })).manage 1 s.net.cand s.mac else s

/-- The address is confirmed, 30 ms after the first CLAIM (R435). -/
def State.claimConfirm (s : State) : State :=
  if s.claimWaited ∧ 3 ≤ s.net.claims then ((s.wr (netA NET.ADDR) s.net.cand).setAstate 3).claimDone .done else s

/-- A REQUEST without an answer is repeated, and fails after the third (R436, R437). -/
def State.requestRetry (s : State) : State :=
  if s.requestWaited then
    if s.net.asked < 3 then (s.onNet (fun x => { x with asked := x.asked + 1, claimClk := 0 })).manage 3 0 s.mac else s.claimFail 3
  else s

/-- The manager's list takes an address (R436). -/
def State.seeAddr (s : State) (a : Nat) : State :=
  if a = 0 ∨ 0x7FFE < a ∨ s.net.known.contains a then s else s.onNet (fun x => { x with known := a :: x.known })

/-- A received CLAIM of address `a` from MAC `m` (R432, R435). -/
def State.gotClaim (s : State) (a m : Nat) (seq : BitVec 16) : State :=
  let s1 := if a = 0 ∨ 0x7FFE < a then s else (s.dupNew a seq).seeAddr a
  if s1.astate = 3 ∧ s1.devAddr = a ∧ m ≠ s1.mac then s1.manage 2 a s1.mac
  else if s1.astate = 1 ∧ s1.net.cand = a ∧ m < s1.mac then s1.claimFail 2
  else s1

/-- A received DEFEND of address `a` (R437). -/
def State.gotDefend (s : State) (a : Nat) : State :=
  let s1 := s.seeAddr a
  if s1.astate = 1 ∧ s1.net.cand = a then s1.claimFail 1 else s1

/-- The lowest device address from `a` on that is free, over `k` candidates; 0 where none is (R436). -/
def State.freeAddr (s : State) : Nat → Nat → Nat
  | 0, _ => 0
  | k + 1, a => if s.net.known.contains a || s.devAddr == a then s.freeAddr k (a + 1) else a

/-- A received REQUEST from MAC `m` (R436): the addressed manager answers with an OFFER. -/
def State.gotRequest (s : State) (m : Nat) : State :=
  if s.bit (netA NET.CFG) 0 ∧ s.astate = 3 then s.manage 4 (s.freeAddr 0x7FFE 1) m else s

/-- A received OFFER of address `a` for MAC `m` (R436, R437). -/
def State.gotOffer (s : State) (a m : Nat) : State :=
  if s.astate = 2 ∧ m = s.mac then (if a = 0 then s.claimFail 4 else s.claimAddr a) else s

/-- A received LEAVE of address `a` (R436). -/
def State.gotLeave (s : State) (a : Nat) : State := s.onNet (fun x => { x with known := x.known.filter (· != a) })

/-- RELEASE (R439). -/
def State.releaseAddr (s : State) : State :=
  ((s.manage 5 s.devAddr s.mac).closeAll.wr (netA NET.ADDR) 0).setAstate 0

/-! ### Links (R416) -/

/-- Port n comes up: its PCS is in sync, negotiation is done, and the partner runs at 1000 Mb/s full duplex or shows otherwise. -/
def State.linkUp (s : State) (n : Fin 2) (ok : Bool) : State :=
  if s.portUp n ∨ !s.portEn n ∨ !s.bit (npStat n) 13 ∨ s.bit (npStat n) 14 ∨ s.flt.injLink.testBit n.val ∨ s.pow.inReset ∨ s.pow.shelf = .shelf then s
  else if !ok then s.setBit (npStat n) 9 true
  else
    let an := s.bit (netpBase n + NETP.PCFG) 13
    let s1 := (((s.setBit (npStat n) 9 false).setBit (npStat n) 11 false).setBit (npStat n) 12 an).setBit (npStat n) 15 true
    let s2 := if s1.portUp 0 && s1.portUp 1 then s1.setBit (fltA FLT.CONT) 0 false else s1
    if s2.net.autoDue ∧ s2.img.active ∧ s2.astate = 0 then s2.startClaim else s2

/-- Port n loses signal, sync or its partner, with cause 1 to 4 (R416); `rf` where a remote fault was received. -/
def State.linkDown (s : State) (n : Fin 2) (cause : Nat) (rf : Bool) : State :=
  let s0 := if cause = 1 then s.setBit (npStat n) 14 true else s
  let s1 := if cause ≠ 3 then s0.setBit (npStat n) 13 false else s0
  let s2 := (s1.setBit (npStat n) 12 false).setBit (npStat n) 11 (cause == 3 && rf)
  if !s.portUp n then s2
  else
    let s3 := (((s2.setBit (npStat n) 15 false).flag (npStat n) 10).bump (netpBase n + NETP.LDCNT)).life 12
    let s4 := (s3.setBit (fltA FLT.CONT) 0 true).onNp n (fun p => { p with txq := [] })
    (s4.log 0x0501 n.val cause .device).tbPortDown n (!s4.portUp (otherPort n))

/-- Signal appears or is lost (R417); the loss takes an up port down. -/
def State.signalDetect (s : State) (n : Fin 2) (on : Bool) : State :=
  if on then s.setBit (npStat n) 14 false
  else if s.portUp n then s.linkDown n 1 false
  else (s.setBit (npStat n) 14 true).setBit (npStat n) 13 false

/-- The PCS gains or loses sync (R417); the loss takes an up port down. -/
def State.pcsSync (s : State) (n : Fin 2) (on : Bool) : State :=
  if on then (if s.portEn n ∧ !s.bit (npStat n) 14 ∧ !s.flt.injLink.testBit n.val then s.setBit (npStat n) 13 true else s)
  else if s.portUp n then s.linkDown n 2 false
  else s.setBit (npStat n) 13 false

/-- A write of PCFG (R453): disabling takes the port down, and a change of mode or auto-negotiation restarts the link. -/
def State.afterPcfg (s : State) (n : Fin 2) (old : Nat) : State :=
  if !s.portEn n then s.linkDown n 4 false
  else if Machine.fld old 14 13 ≠ s.fld (netpBase n + NETP.PCFG) 14 13 then s.linkDown n 3 false
  else s

/-! ### The receive equaliser (R417-R420) -/

/-- EQ and the feedback taps of port n take values. -/
def State.setEq (s : State) (n : Fin 2) (boost : Nat) (h1 h2 : Int) : State :=
  ((s.setFld (netpBase n + NETP.EQ) 11 8 boost).wrI 16 (netpBase n + NETP.DFE1) h1).wrI 16 (netpBase n + NETP.DFE2) h2

/-- The loop may not learn: learn = 0, the port disabled, or no signal (R418). -/
def State.eqFrozen (s : State) (n : Fin 2) : Bool :=
  !s.bit (netpBase n + NETP.EQ) 15 || !s.portEn n || s.bit (npStat n) 14

/-- One step of acquisition (R417). -/
def State.eqAcquire (s : State) (n : Fin 2) : State :=
  if s.eqFrozen n ∨ s.bit (npStat n) 13 then s
  else s.setEq n ((s.fld (netpBase n + NETP.EQ) 11 8 + 1) % 16) 0 0

/-- No value has moved by more than one step over the last 256 updates (R419). -/
def eqSettled (l : List (Nat × Int × Int)) : Bool :=
  let near (f : Nat × Int × Int → Int) : Bool :=
    let v := l.map f
    decide (v.foldl max (v.headD 0) - v.foldl min (v.headD 0) ≤ 1)
  decide (256 ≤ l.length) && near (fun x => x.1) && near (fun x => x.2.1) && near (fun x => x.2.2)

/-- One update over 1,024 code groups with the sums of R417 and the invalid code groups in them. -/
def State.eqUpdate (s : State) (n : Fin 2) (s1 s2 sb : Int) (errs : Nat) : State :=
  let c := s.bump (netpBase n + NETP.CODEERR) errs
  if s.eqFrozen n ∨ !s.bit (npStat n) 13 ∨ 16 < errs then c
  else
    let b : Int := s.fld (netpBase n + NETP.EQ) 11 8
    let h1 := s.rdI 16 (netpBase n + NETP.DFE1)
    let h2 := s.rdI 16 (netpBase n + NETP.DFE2)
    let b' := if 128 ≤ sb.natAbs then clampI (b + sgn sb) 0 15 else b
    let h1' := if 64 ≤ s1.natAbs then clampI (h1 + sgn s1) (-31) 31 else h1
    let h2' := if 64 ≤ s2.natAbs then clampI (h2 + sgn s2) (-31) 31 else h2
    let p := s.net.port[n]
    let run (k : Fin 3) (atEnd : Bool) : Nat := if atEnd ∧ 0 < errs then p.runs[k] + 1 else 0
    let hist := ((b'.toNat, h1', h2') :: p.hist).take 256
    ((c.setEq n b'.toNat h1' h2').onNp n (fun p => { p with
      hist := hist, runs := #v[run 0 (b' == 0 || b' == 15), run 1 (h1'.natAbs == 31), run 2 (h2'.natAbs == 31)] })).setBit (npStat n) 8
        (eqSettled hist)

/-- The equaliser of port n has diverged (R419). -/
def State.eqDiverged (s : State) (n : Fin 2) : Bool := (s.net.port[n]).runs.toList.any (fun r => decide (4096 ≤ r))

/-- Divergence of the equaliser of port n (R419). -/
def State.eqDiverge (s : State) (n : Fin 2) : State :=
  if s.eqDiverged n then
    let s1 := ((s.setEq n 8 0 0).hardClear (netpBase n + NETP.EQ) 15).onNp n (fun p => { p with runs := Vector.replicate 3 0, hist := [] })
    ((s1.setBit (npStat n) 8 false).flag (npStat n) 6).log 0x0108 7 n.val .device
  else s

/-! ### The cyclic exchange (R425, R440-R443) -/

/-- The used subscription entries, with the numbers of their entries, rising. -/
def State.subsUsed (s : State) : List Nat :=
  (s.regs.filter (fun e => decide (subBase 0 ≤ e.1) && decide (e.1 < subBase 1024) && decide (e.1 % 0x20 = SUB.SSTAT) && e.2.getLsbD 15)).map
    (fun e => (e.1 - subBase 0) / 0x20)

/-- The source endpoint of entry k. -/
def State.subEp (s : State) (k : Nat) : Nat := s.rd (subBase k + SUB.SRC_L) + s.fld (subBase k + SUB.SRC_H) 4 0 * 65536
/-- The owner axis of entry k, none for the device. -/
def State.subOwner (s : State) (k : Nat) : Option (Fin 12) :=
  let o := s.fld (subBase k + SUB.SRC_H) 15 12
  if h : o < 12 then some ⟨o, h⟩ else none
/-- Entry k is suspended (R442). -/
def State.subSusp (s : State) (k : Nat) : Bool := match s.subOwner k with | some n => s.role n == 0 | none => false

/-- The value of entry k in a record (R442): none where its words do not lie within the record. -/
def State.subValue (s : State) (k : Nat) (words : List Word) : Option (BitVec 48) :=
  let o := s.fld (subBase k + SUB.SEL) 12 8
  let w := s.fld (subBase k + SUB.SEL) 1 0
  if words.length < o + w ∨ w = 0 then none
  else
    let l := (words.drop o).take w
    let v := l.foldl (fun (x : Nat) y => x * 65536 + y.toNat) 0
    some (BitVec.ofInt 48 ((BitVec.ofNat (16 * w) v).toInt))

/-- A cyclic frame of a source is consumed (R425, R441). -/
def State.cyclicFrame (s : State) (src : Nat) (cycle : BitVec 32) (items : List CycItem) : State :=
  if cycle ≠ s.tim.cyc then s.bump (netA NET.CYCERR)
  else if s.net.seen.contains src then s
  else
    let s1 := s.onNet (fun x => { x with seen := src :: x.seen })
    overList s1.subsUsed (fun s k =>
      let ep := s.subEp k
      if ep / 64 ≠ src ∨ s.subSusp k ∨ s.flt.subBad.contains k ∨ s.net.pend.any (fun e => e.1 == k) then s
      else match items.find? (fun i => i.obj == ep % 64) with
        | none => s
        | some i =>
          if !i.valid then s
          else match s.subValue k i.words with
            | some v => s.onNet (fun x => { x with pend := (k, v) :: x.pend })
            | none => s) s1

/-- The items of a cyclic payload (R425), over `fuel` items at most. -/
def cycItems : Nat → List Byte → List CycItem
  | 0, _ => []
  | f + 1, l =>
    if l.length < 4 then []
    else
      let n := byteAt l 1
      if n = 0 ∨ l.length < 4 + 2 * n then []
      else ⟨byteAt l 0 % 64, (byteAt l 2).testBit 0, (List.range n).map (fun i => BitVec.ofNat 16 (u16 l (4 + 2 * i)))⟩ :: cycItems f (l.drop (4 + 2 * n))

/-- A 48-bit value as three words, the high word first. -/
def words48 (v : BitVec 48) : List Nat := [v.toNat / 2 ^ 32, v.toNat / 65536 % 65536, v.toNat % 65536]

/-- The record of object i, and its valid bit; none where it is omitted (R425). -/
def State.record (s : State) (i : Nat) : Option (Bool × List Nat) :=
  let pad (l : List Nat) : List Nat := (l ++ List.replicate 8 0).take 8
  let show_ (a : Nat) : Nat := (s.shown 14 a).toNat % 65536
  if h : i < 12 then
    let n : Fin 12 := ⟨i, h⟩
    let m := s.mot n
    if s.role n = 0 then none
    else some (true, pad (words48 m.snapPos ++ words48 (m.snapVel.signExtend 48) ++
      [m.st.code + (if s.glide n then 16 else 0) + (if m.atTarget then 32 else 0) + (if s.bit (axBase n + AX.STATUS) 5 then 64 else 0)]))
  else if h : 12 ≤ i ∧ i < 20 then
    let m : Fin 8 := ⟨i - 12, by omega⟩
    let q := s.rd (frcBase m + FRC.FQ)
    if !s.frcOn m then none
    else some (s.bit (fstat m) 15, pad [s.rd (frcBase m + FRC.FORCE) % 65536, q / 65536 % 65536, q % 65536, s.rd (fstat m) % 65536])
  else if h : 20 ≤ i ∧ i < 28 then
    let p : Fin 8 := ⟨i - 20, by omega⟩
    if (s.portAxis p).isNone then none
    else some (s.bit (prtStat p) 15, pad [s.rd (prtBase p + PRT.ANG) % 65536, s.rd (prtBase p + PRT.AMP) % 65536, s.rd (prtStat p) % 65536])
  else if i = 28 then some (true, pad [show_ (gpioA GPIO.INA), show_ (gpioA GPIO.INB), show_ (gpioA GPIO.ENSTAT)])
  else if i = 29 then some (true, pad [show_ (devA DEV.PROT), s.timStatus])
  else if h : 48 ≤ i ∧ i < 64 then some (true, (s.net.uobj[(⟨i - 48, by omega⟩ : Fin 16)]).map (·.toNat))
  else none

/-- The payload of the publication (R440). -/
def State.publication (s : State) : List Byte :=
  (List.range 64).flatMap (fun i =>
    if s.bit (netA NET.PUB + 4 * (i / 16)) (i % 16) then
      match s.record i with
      | some (v, ws) => beBytes 1 i ++ beBytes 1 ws.length ++ beBytes 1 (if v then 1 else 0) ++ [0] ++ ws.flatMap (beBytes 2)
      | none => []
    else [])

/-- The edge applies a patch that affects the owner of entry k: a target that arrives at it is discarded (R81). -/
def State.patchTakes (s : State) (k : Nat) : Bool :=
  s.bore.buf == .pending && isPatch s.bore.bytes && s.allOff s.bore.affected &&
    (match s.subOwner k with | some n => s.bore.affected.contains n.val | none => false)

/-- Entry k at the boundary (R441): its pending value enters, or it has missed the cycle. -/
def State.subBoundary (s : State) (c : BitVec 32) (k : Nat) : State :=
  let a := subBase k + SUB.SSTAT
  if s.subSusp k ∨ (s.patchTakes k ∧ s.net.pend.any (fun e => e.1 == k)) then s.setBit a 14 false
  else match s.net.pend.find? (fun e => e.1 == k) with
  | some e => (((s.wr (subBase k + SUB.VAL) e.2.toNat).wr (subBase k + SUB.VCYC) (c.toNat % 65536)).setBit a 14 true).setFld a 7 0 0
  | none =>
    let s1 := s.setBit a 14 false
    if s.net.added.contains k then s1
    else (((s1.flag a 13).setFld a 7 0 (min 255 (s.fld a 7 0 + 1))).bump (netA NET.MISSCNT)).flag (netA NET.NSTAT) 10

/-- The entries that miss the cycle that ends. -/
def State.subsMissing (s : State) : List Nat :=
  s.subsUsed.filter (fun k => !s.subSusp k && !s.net.added.contains k && !s.net.pend.any (fun e => e.1 == k))

/-- 0x0502 of one source (R441). -/
def State.missLog (s : State) (missing : List Nat) (src : Nat) : State :=
  let l := missing.filter (fun k => s.subEp k / 64 == src)
  s.log 0x0502 src l.length (.set ((l.filterMap s.subOwner).dedup))

/-- The peak load of queue Q3 on port n is recorded at the end of a cycle (R448). -/
def State.portLoadEdge (s : State) (n : Fin 2) : State :=
  let p := s.net.port[n]
  let v := if s.cycleH = 0 then 0 else (openDiv 110 (p.load * 16 * 1024) s.cycleH).toNat
  (s.wr (netpBase n + NETP.CLOAD) (min 0xFFFF (max (s.rd (netpBase n + NETP.CLOAD)) v))).onNp n (fun p => { p with load := 0 })

/-- The node publishes at this boundary (R438). -/
def State.publishes (s : State) : Bool := s.devAddr != 0 && s.astate == 3 && s.net.locked

/-- The publication of the boundary is built (R438, R440). -/
def State.buildFrame (s : State) : State :=
  let c := if s.cycleH = 0 then s.tim.cyc else BitVec.ofNat 32 (s.tim.half / s.cycleH)
  let s1 := (s.onNet (fun x => { x with
    uobj := x.unext.foldl (fun v e => if h : e.1 < 16 then v.set e.1 e.2 h else v) x.uobj, unext := [] })).setBit (netA NET.NSTAT) 14 s.publishes
  let p := s1.publication
  s1.onNet (fun x => { x with
    built := if s.publishes ∧ p ≠ [] then some (s.devAddr, c, p) else none, txLeft := 40 * s.rd (netA NET.TXDLY) })

/-- Step 7 of the edge at a cycle boundary (R39, R441): pending values enter their entries and the interpolators, entries without
one miss the cycle, and the publication is built. -/
def State.boundary (s : State) : State :=
  let missing := s.subsMissing
  let srcs := ((missing.map (fun k => s.subEp k / 64)).dedup).mergeSort (· ≤ ·)
  let s1 := overList s.subsUsed (fun s k => s.subBoundary s.tim.cyc k) s
  let s2 := if s.tim.stepCycle then s1
    else overList (srcs.filter (fun x => !s.net.missSrc.contains x)) (fun s x => s.missLog missing x) s1
  let s3 := overList allAxes (fun s n => match s.onEntry n with
    | some k => s.cycleTarget n ((s2.net.pend.find? (fun e => e.1 == k)).map (fun e => e.2.toInt))
    | none => s) s2
  let s4 := (s3.onNet (fun x => { x with pend := [], added := [], seen := [], missSrc := srcs })).onTim (fun t => { t with stepCycle := false })
  (overList (List.finRange 2) (fun s (n : Fin 2) => s.portLoadEdge n) s4).buildFrame

/-- The built frame enters Q3 of both ports, TXDLY after its boundary (R440). -/
def State.cyclicTransmission (s : State) : State :=
  match s.net.built with
  | none => s
  | some (src, c, p) =>
    if 0 < s.net.txLeft then s
    else (s.onNet (fun x => { x with built := none })).originate 3 1 (s.fld (netA NET.PCP) 2 0)
      (beBytes 4 0x034A5300 ++ beBytes 2 (s.rd (netA NET.GROUP))) src 0x7FFF c.toNat p none noSess

/-- User objects are committed for the next boundary (R440). -/
def State.uobjCommit (s : State) (bits : Nat) : State :=
  overList ((List.range 16).filter bits.testBit) (fun s u =>
    s.onNet (fun x => { x with
      unext := x.unext.filter (fun e => e.1 != u) ++ [(u, (List.range 8).map (fun w => BitVec.ofNat 16 (s.rd (uobjBase u + 4 * w))))] })) s

/-! ### Requests (R426, R444, R445, R473-R475) -/

/-- A reply that only carries a status. -/
def State.replyStatus (s : State) (src : Nat) (echo : List Byte) (st : Nat) (key : Option (BitVec 128)) (k : Nat) : State :=
  s.reply src (echo ++ beBytes 1 st ++ beBytes 2 0) key k

/-- A FULL answer counts (R447). -/
def State.fullCount (s : State) : State := s.bump (netA NET.FULLCNT)

/-- Authentication has failed (R473, R474). -/
def State.authFail (s : State) (id blk : Nat) : State := (s.bump (wldA WLD.AUTHFAIL)).violate id 4 blk

/-- What the window of R445 decides. -/
inductive ReqVerdict where
  | exec (hi : BitVec 16) (map : BitVec 8)   -- executed: hi and the map after it
  | resend (payload : List Byte)             -- the cached reply is sent again
  | drop
  deriving DecidableEq, Repr

/-- The decision of R445 on request ID `r`. -/
def Sess.window (x : Sess) (r : BitVec 16) : ReqVerdict :=
  match x.hi with
  | none => .exec r 0
  | some hi =>
    let d := (r - hi).toNat
    let b := 65536 - d
    if 1 ≤ d ∧ d ≤ 32767 then
      .exec r ((if 8 ≤ d then 0 else x.map <<< d) ||| (if d ≤ 8 then BitVec.twoPow 8 (d - 1) else 0))
    else match x.cache.find? (fun e => e.1 == r) with
      | some e => .resend e.2
      | none => if d ≠ 0 ∧ b ≤ 8 ∧ !x.map.getLsbD (b - 1) then .exec hi (x.map ||| BitVec.twoPow 8 (b - 1)) else .drop

/-- A request for an open session of its own generation (R445, R475). -/
def State.acceptReq (s : State) (k : Fin 8) (r : Req) : State :=
  let x := s.net.sess[k]
  let s0 := s.onNet (fun n => { n with sess := n.sess.set k { x with idle := 0 } })
  if 8 ≤ s.outstanding k then (s0.replyStatus r.src r.echo Status.full.code x.key k).fullCount
  else match x.window r.rid with
  | .resend p => s0.reply r.src p x.key k
  | .drop => s0
  | .exec hi map =>
    if x.key.isSome ∧ 32767 ≤ x.count then s0.closeSession k
    else s0.onNet (fun n => { n with
      sess := n.sess.set k { x with idle := 0, hi := some hi, map := map, count := x.count + 1 }, reqs := n.reqs ++ [r] })

/-- The operations of R426. -/
def requestOps : List Nat := [0x01, 0x02, 0x10, 0x11, 0x12]

/-- A request frame for this node is consumed: `header` and `payload` as they arrived, `tag` where the secure flag is set. -/
def State.gotReq (s : State) (src : Nat) (header payload : List Byte) (tag : Option (List Byte)) : State :=
  if payload.length < 10 then s
  else
    let op := byteAt payload 4
    let kk := byteAt payload 1 % 8
    let tagOf (key : BitVec 128) : Bool := tag == some (frameTag (keyBytes key) header payload)
    let r : Req := ⟨src, kk, byteAt payload 0, BitVec.ofNat 16 (u16 payload 2), op, byteAt payload 5, beNat ((payload.drop 6).take 3),
      payload.drop 10, payload.take 9, match s.wld.dkey with | some key => tagOf key && decide (22 ≤ payload.length) | none => false⟩
    if op = 0x10 then (if payload.length < 14 then s else s.onNet (fun n => { n with reqs := n.reqs ++ [{ r with k := noSess }] }))
    else if h : kk < 8 then
      let k : Fin 8 := ⟨kk, h⟩
      if !s.sessOpen k ∨ s.fld (netsBase k + NETS.SSTAT) 7 0 ≠ r.gen then s.replyStatus src r.echo Status.timeout.code none noSess
      else match (s.net.sess[k]).key with
        | some key => if tagOf key then s.acceptReq k r else s.authFail (2 + k.val) k.val
        | none => s.acceptReq k r
    else s

/-! ### Reception (R423, R428, R430) -/

/-- The offset of the Jisil header of a frame that R423 classes as Jisil with a type of R424. -/
def State.jisilAt (s : State) (b : List Byte) : Option Nat :=
  let vid := s.rd (netA NET.VID) % 4096
  let at_ (h : Nat) : Option Nat :=
    if byteAt b h / 16 = 1 ∧ 1 ≤ byteAt b h % 16 ∧ byteAt b h % 16 ≤ 4 ∧ h + 16 ≤ b.length then some h else none
  if u16 b 12 = 0x8100 then
    (if u16 b 16 = s.rd (netA NET.ETYPE) ∧ u16 b 14 % 4096 = vid then at_ 18 else none)
  else if u16 b 12 = s.rd (netA NET.ETYPE) ∧ vid = 0 then at_ 14
  else none

/-- The frame is forwarded to the port other than the one it came in on (R428): cut through where nothing waits there, and stored
in full otherwise. A bad FCS ends a stored frame and is passed on by one that has been cut through. -/
def State.forward (s : State) (n : Fin 2) (q : Nat) (bytes : List Byte) (fcs : Bool) : State :=
  let o := otherPort n
  if fcs ∨ (s.net.port[o]).txq = [] then s.enqueue o ⟨q, bytes, !fcs, noSess⟩ else s

/-- The queue of a foreign frame (R429). -/
def foreignQueue (b : List Byte) : Nat :=
  if (u16 b 12 = 0x8100 ∨ u16 b 12 = 0x88A8) ∧ 4 ≤ u16 b 14 / 8192 then 1 else 0

/-- A management frame is consumed (R427, R435-R437). -/
def State.gotManage (s : State) (payload : List Byte) (seq : BitVec 16) : State :=
  if payload.length < 10 then s
  else
    let a := u16 payload 2 % 32768
    let m := beNat ((payload.drop 4).take 6)
    match byteAt payload 0 with
    | 1 => s.gotClaim a m seq
    | 2 => s.gotDefend a
    | 3 => s.gotRequest m
    | 4 => s.gotOffer a m
    | 5 => s.gotLeave a
    | _ => s

/-- A Jisil frame that passes the filter is consumed (R432, R441, R444, R474). -/
def State.consumeFrame (s : State) (b : List Byte) (h : Nat) : State :=
  let hdr := (b.drop h).take 16
  let typ := byteAt hdr 0 % 16
  let src := u16 hdr 2 % 32768
  let dst := u16 hdr 4 % 32768
  let seq : BitVec 16 := BitVec.ofNat 16 (u16 hdr 6)
  let len := u16 hdr 12
  let sec := (byteAt hdr 14).testBit 0
  let body := b.drop (h + 16)
  let mine := dst = s.devAddr ∧ s.devAddr ≠ 0
  let s0 := s.seeAddr src
  if body.length < len ∨ typ = 3 ∨ (typ = 2 ∧ !mine) then s0
  else
    let p := body.take len
    let f : Bool × State := if typ = 4 ∧ src = 0 then (true, s0) else s0.dupFilter src seq
    if !f.1 then f.2
    else match typ with
      | 1 => f.2.cyclicFrame src (BitVec.ofNat 32 (beNat ((hdr.drop 8).take 4))) (cycItems 64 p)
      | 2 => f.2.gotReq src hdr p (if sec then some ((body.drop len).take 8) else none)
      | _ => f.2.gotManage p seq

/-- A frame is received on port n: its bytes without the FCS, and whether that was good (R23, R415, R423, R428, R430). -/
def State.receive (s : State) (n : Fin 2) (b : List Byte) (fcs : Bool) : State :=
  if !s.portUp n then s
  else if b.length < 60 ∨ 1518 < b.length then s.bump (netpBase n + NETP.CRCERR)
  else
    let a := netpBase n
    let s1 := if fcs then s.wr (a + NETP.RXFRM) ((s.rd (a + NETP.RXFRM) + 1) % 2 ^ 32) else s.bump (a + NETP.CRCERR)
    let d := beNat (b.take 6)
    if 0x0180C2000000 ≤ d ∧ d ≤ 0x0180C200000F then (if fcs ∧ d = 0x0180C200000E ∧ u16 b 12 = 0x88F7 then s1.gotPtp n b else s1)
    else match s1.jisilAt b with
      | none => s1.forward n (foreignQueue b) b fcs
      | some h =>
        let src := u16 b (h + 2) % 32768
        let dst := u16 b (h + 4) % 32768
        let own := s1.devAddr
        let mineSrc := if own ≠ 0 then src == own else beNat ((b.drop 6).take 6) == s1.mac
        if mineSrc then s1
        else
          let hops := byteAt b (h + 1)
          let q := if byteAt b h % 16 = 1 then 3 else 2
          let s2 := if hops = 0 ∨ (own ≠ 0 ∧ dst = own) then s1 else s1.forward n q (b.set (h + 1) (BitVec.ofNat 8 (hops - 1))) fcs
          if fcs then s2.consumeFrame b h else s2

/-! ### NET commands (R442, R452) -/

/-- The lowest free entry of the subscription table. -/
def freeSub : Nat → Nat → List Nat → Nat
  | 0, k, _ => k
  | f + 1, k, l => if l.contains k then freeSub f (k + 1) l else k

/-- SUB_ADD by an accessor (R442, R466). -/
def State.subAdd (s : State) (acc : Fin 15) : Status × State :=
  let a := s.acc[acc]
  let hi := a.snew.toNat / 65536
  let o := hi / 4096
  let off := Machine.fld a.snewSel.toNat 12 8
  let w := Machine.fld a.snewSel.toNat 1 0
  if w = 0 ∨ 32 < off + w ∨ (12 ≤ o ∧ o ≤ 14) then (.range, s)
  else if o < 12 ∧ !s.mayAccess acc o then (.world, s.violate acc 1 o)
  else
    let used := s.subsUsed
    if 1024 ≤ used.length then (.full, s.fullCount)
    else
      let k := freeSub 1024 0 used
      let b := subBase k
      let s1 := (((s.wr (b + SUB.SRC_L) (a.snew.toNat % 65536)).wr (b + SUB.SRC_H) hi).wr (b + SUB.SEL) a.snewSel.toNat).wr (b + SUB.SSTAT) 0x8000
      let s2 := (s1.wr (b + SUB.VAL) 0).wr (b + SUB.VCYC) 0
      (.done, ((s2.wr (netA NET.SUBUSED) (used.length + 1)).onNet (fun x => { x with added := k :: x.added })).onAcc acc
        (fun x => { x with sidx := BitVec.ofNat 16 k }))

/-- SUB_DEL by an accessor (R442, R443, R466). -/
def State.subDel (s : State) (acc : Fin 15) : Status × State :=
  let k := (s.acc[acc]).sidx.toNat
  let b := subBase k
  if 1023 < k ∨ !s.bit (b + SUB.SSTAT) 15 ∨ allAxes.any (fun n => s.onEntry n == some k) then (.state, s)
  else if (match s.subOwner k with | some n => !s.mayAccess acc n | none => false) then
    (.world, s.violate acc 1 (match s.subOwner k with | some n => n.val | none => 0))
  else
    let s1 := overList [SUB.SRC_L, SUB.SRC_H, SUB.SEL, SUB.SSTAT, SUB.VAL, SUB.VCYC] (fun s o => s.wr (b + o) 0) s
    (.done, ((s1.wr (netA NET.SUBUSED) (s.subsUsed.length - 1)).onNet (fun x => { x with
      pend := x.pend.filter (fun e => e.1 != k), added := x.added.filter (· != k) })).onFlt (fun f => { f with
      subBad := f.subBad.filter (· != k), upsets := f.upsets.filter (fun u => !(u.store == .subs && u.index == k)),
      eccLogged := f.eccLogged.filter (fun e => !(e.1 == .subs && e.2 == k)) }))

/-- The effect of a NET command and its status; none for a CLAIM that has begun (R452). -/
def State.netEffect (s : State) (acc : Fin 15) (op arg : Nat) : Option Status × State :=
  match op with
  | 0x01 => if arg ≠ 0 then (some .range, s) else let r := s.subAdd acc; (some r.1, r.2)
  | 0x02 => let r := s.subDel acc; if r.1 ≠ .state ∧ arg ≠ 0 then (some .range, s) else (some r.1, r.2)
  | 0x10 =>
    if s.astate ≠ 0 then (some .state, s)
    else if arg ≠ 0 then (some .range, s)
    else if !s.portUp 0 && !s.portUp 1 then (some .link, s)
    else (none, (s.onNet (fun x => { x with claimer := some acc.val })).startClaim)
  | 0x11 => if s.astate ≠ 3 then (some .state, s) else if arg ≠ 0 then (some .range, s) else (some .done, s.releaseAddr)
  | 0x20 =>
    if h : arg < 8 then (if !s.sessOpen arg then (some .state, s) else (some .done, s.closeSession ⟨arg, h⟩)) else (some .range, s)
  | _ => (some .unknown, s)

/-- An accessor writes a command to NET.NCMD (R452): the status of the word, and the state after it. -/
def State.netCmd (s : State) (acc : Fin 15) (op arg : Nat) : Status × State :=
  if !s.ready then (.buserr, s)
  else if !s.mayAccess acc 52 then (.world, s.violate acc 1 52)
  else if s.net.claimer.isSome then (.buserr, s)
  else match s.netEffect acc op arg with
    | (some st, s1) => (if st = .world then .world else .done, s1.finish (netA NET.NCMDSTAT) 52 op arg acc st)
    | (none, s1) => (.done, s1)

/-! ### Meanings -/

/-- LINK_UP (R416): `ok` where the partner works at 1000 Mb/s full duplex. -/
def execLinkUp (p : Fin 2) (ok : Bool) (s : State) : Host.Outcome State Fault Refusal := .next (s.awake fun s => s.linkUp p ok)
/-- LINK_DOWN (R416): `cause` 0 to 3 for loss of signal, loss of sync, restart or remote fault (`rf`), and disabling. -/
def execLinkDown (p : Fin 2) (cause : Fin 4) (rf : Bool) (s : State) : Host.Outcome State Fault Refusal := .next (s.awake fun s => s.linkDown p (cause + 1) rf)
/-- SIGNAL_DETECT (R417). -/
def execSignalDetect (p : Fin 2) (on : Bool) (s : State) : Host.Outcome State Fault Refusal := .next (s.awake fun s => s.signalDetect p on)
/-- PCS_SYNC (R417). -/
def execPcsSync (p : Fin 2) (on : Bool) (s : State) : Host.Outcome State Fault Refusal := .next (s.awake fun s => s.pcsSync p on)
/-- EQ_ACQUIRE_STEP (R417). -/
def execEqAcquireStep (p : Fin 2) (s : State) : Host.Outcome State Fault Refusal := .next (s.awake fun s => s.eqAcquire p)
/-- EQ_UPDATE (R417). -/
def execEqUpdate (p : Fin 2) (s1 s2 sb : Int) (errs : Nat) (s : State) : Host.Outcome State Fault Refusal := .next (s.awake fun s => s.eqUpdate p s1 s2 sb errs)
/-- EQ_DIVERGE (R419). -/
def execEqDiverge (p : Fin 2) (s : State) : Host.Outcome State Fault Refusal := .next (s.awake fun s => s.eqDiverge p)
/-- FRAME_RECEIVE (R423). -/
def execFrameReceive (p : Fin 2) (bytes : List Byte) (fcs : Bool) (s : State) : Host.Outcome State Fault Refusal := .next (s.awake fun s => s.receive p bytes fcs)
/-- CYCLIC_FRAME (R441): a cyclic frame that has passed the filter. -/
def execCyclicFrame (src : Nat) (cycle : BitVec 32) (items : List CycItem) (s : State) : Host.Outcome State Fault Refusal :=
  .next (s.awake fun s => s.cyclicFrame src cycle items)
/-- TRANSMIT_FRAME (R429). -/
def execTransmitFrame (p : Fin 2) (s : State) : Host.Outcome State Fault Refusal := .next (s.awake fun s => s.transmit p)
/-- CYCLIC_TRANSMISSION (R440). -/
def execCyclicTransmission (s : State) : Host.Outcome State Fault Refusal := .next (s.awake fun s => s.cyclicTransmission)
/-- CYCLE_BOUNDARY (R39 step 7, R441). -/
def execCycleBoundary (s : State) : Host.Outcome State Fault Refusal := .next (s.awake fun s => s.boundary)
/-- SYNC_INTERVAL (R23). -/
def execSyncInterval (kind : Fin 3) (s : State) : Host.Outcome State Fault Refusal := .next (s.awake fun s => s.gptp kind)
/-- CLAIM_FRAME (R432, R435): a received CLAIM. -/
def execClaimFrame (a : Fin 32768) (mac : BitVec 48) (seq : BitVec 16) (s : State) : Host.Outcome State Fault Refusal :=
  .next (s.awake fun s => s.gotClaim a mac.toNat seq)
/-- DEFEND (R437): a received DEFEND. -/
def execAddrDefend (a : Fin 32768) (s : State) : Host.Outcome State Fault Refusal := .next (s.awake fun s => s.gotDefend a)
/-- REQUEST (R436): a received REQUEST. -/
def execAddrRequest (mac : BitVec 48) (s : State) : Host.Outcome State Fault Refusal := .next (s.awake fun s => s.gotRequest mac.toNat)
/-- OFFER (R436): a received OFFER. -/
def execAddrOffer (a : Fin 32768) (mac : BitVec 48) (s : State) : Host.Outcome State Fault Refusal := .next (s.awake fun s => s.gotOffer a mac.toNat)
/-- LEAVE (R436): a received LEAVE. -/
def execAddrLeave (a : Fin 32768) (s : State) : Host.Outcome State Fault Refusal := .next (s.awake fun s => s.gotLeave a)
/-- CLAIM_RESEND (R435). -/
def execClaimResend (s : State) : Host.Outcome State Fault Refusal := .next (s.awake fun s => s.claimResend)
/-- CLAIM_CONFIRM (R435). -/
def execClaimConfirm (s : State) : Host.Outcome State Fault Refusal := .next (s.awake fun s => s.claimConfirm)
/-- REQUEST_RETRY (R436). -/
def execRequestRetry (s : State) : Host.Outcome State Fault Refusal := .next (s.awake fun s => s.requestRetry)
/-- SUB_ADD (R442), as the accessor writes it to NET.NCMD. -/
def execSubAdd (acc : Fin 15) (arg : Byte) (s : State) : Host.Outcome State Fault Refusal := .next (s.awake fun s => State.counted acc (s.netCmd acc 0x01 arg.toNat))
/-- SUB_DEL (R442). -/
def execSubDel (acc : Fin 15) (arg : Byte) (s : State) : Host.Outcome State Fault Refusal := .next (s.awake fun s => State.counted acc (s.netCmd acc 0x02 arg.toNat))
/-- CLAIM (R435, R452). -/
def execClaimAddr (acc : Fin 15) (arg : Byte) (s : State) : Host.Outcome State Fault Refusal := .next (s.awake fun s => State.counted acc (s.netCmd acc 0x10 arg.toNat))
/-- RELEASE (R439). -/
def execReleaseAddr (acc : Fin 15) (arg : Byte) (s : State) : Host.Outcome State Fault Refusal := .next (s.awake fun s => State.counted acc (s.netCmd acc 0x11 arg.toNat))
/-- SESS_CLOSE (R444). -/
def execSessClose (acc : Fin 15) (arg : Byte) (s : State) : Host.Outcome State Fault Refusal := .next (s.awake fun s => State.counted acc (s.netCmd acc 0x20 arg.toNat))

end Sys2Proof.Machine
end

