-- ==== Sys2Proof/Machine/FaultCmds.lean ====
section
/-! DEFINITION. The commands of the fault manager, injection and the test lock, the scrubber, and the lifetime counter of seconds
(R490-R508). -/

namespace Sys2Proof.Machine

/-! ### History commands (R491) -/

/-- The `n` oldest entries leave the queue. -/
def State.popHist (s : State) (n : Nat) : State := s.onFlt (fun f => { f with hist := f.hist.drop n })

/-- The entries up to the one in the accessor's snapshot leave the queue; none where that one has left it. -/
def State.popSnap (s : State) (acc : Fin 15) : State :=
  match (s.acc[acc]).hsnap with
  | none => s
  | some e =>
    match s.flt.hist.findIdx? (fun x => x.seq == e.seq) with
    | some i => s.popHist (i + 1)
    | none => s

/-! ### Injection (R502, R503) -/

/-- INJ_EVENT: the event of INJCODE is logged, with the binding of INJOBJ. -/
def State.injEvent (s : State) : Status × State :=
  let c := s.rd (fltA FLT.INJCODE)
  let o := s.rd (fltA FLT.INJOBJ)
  let go (b : Bind) : Status × State :=
    (.done, s.injected true (fun s => s.log c (s.rd (fltA FLT.INJD1)) (s.rd (fltA FLT.INJD2)) b))
  if (evRow c).isNone then (.range, s)
  else if h : o < 12 then go (.axis ⟨o, h⟩)
  else if o = 29 then go .device
  else (.range, s)

/-- INJ_LINK: the ports of the set bits are held in loss of sync, the others are released. -/
def State.setInjLink (s : State) (m : Nat) : State :=
  overList (List.finRange 2) (fun s (n : Fin 2) =>
    if m.testBit n.val then s.injected true (fun s => s.pcsSync n false) else s) (s.onFlt (fun f => { f with injLink := m }))

/-- CLOSE_TEST: factory test mode ends for good. -/
def State.closeTest (s : State) : State :=
  ((s.setInjLink 0).onFlt (fun f => { f with eccArm := none, tm := false })).onPow (fun p => { p with lock := true })

/-- Every lifetime counter takes 0. -/
def State.lifeClear (s : State) : State := overList (List.range 16) (fun s k => s.wr (fltA FLT.LIFE + 8 * k) 0) s

/-- The effect of a FLT command and its status, in the order of R94 (R502, R503, R508). -/
def State.fltEffect (s : State) (acc : Fin 15) (op arg : Nat) : Status × State :=
  let tm := s.flt.tm
  match op with
  | 0x01 => if arg = 0 ∨ 32 < arg then (.range, s) else (.done, s.popHist arg)
  | 0x02 => if arg ≠ 0 then (.range, s) else (.done, s.popSnap acc)
  | 0x10 => if !tm then (.state, s) else if arg ≠ 0 then (.range, s) else s.injEvent
  | 0x11 =>
    if !tm then (.state, s) else if arg = 0 ∨ 2 < arg then (.range, s)
    else (.done, s.onFlt (fun f => { f with eccArm := some (s.rd (fltA FLT.INJADDR) / 4 * 4, arg) }))
  | 0x12 =>
    if !tm then (.state, s) else if 1 < arg then (.range, s)
    else (.done, s.onFlt (fun f => { f with injSar := arg :: f.injSar.filter (· != arg) }))
  | 0x13 =>
    if !tm then (.state, s)
    else if h : arg < 24 then
      (if !(s.modu arg).running then (.state, s) else (.done, s.injected true (fun s => s.modFail ⟨arg, h⟩ 1)))
    else (.range, s)
  | 0x14 => if !tm then (.state, s) else if 3 < arg then (.range, s) else (.done, s.setInjLink arg)
  | 0x15 =>
    if !tm then (.state, s) else if 7 < arg then (.range, s)
    else (.done, s.onFlt (fun f => { f with injPort := arg :: f.injPort.filter (· != arg) }))
  | 0x16 => if !tm then (.state, s) else if arg ≠ 0 then (.range, s) else (.done, s.lifeClear)
  | 0x1F => if !tm then (.state, s) else if arg ≠ 0xA5 then (.range, s) else (.done, s.closeTest)
  | _ => (.unknown, s)

/-- An accessor writes a command to FLT.CMD (R457, R508): the status of the word, and the state after it. -/
def State.fltCmd (s : State) (acc : Fin 15) (op arg : Nat) : Status × State :=
  if !s.ready then (.buserr, s)
  else if !s.mayAccess acc 54 then (.world, s.violate acc 1 54)
  else
    let r := s.fltEffect acc op arg
    (.done, r.2.finish (fltA FLT.CMDSTAT) 54 op arg acc r.1)

/-! ### The scrubber (R496-R498) -/

/-- Words of path memory. -/
def pathWords : Nat := 262144
/-- Words of the image store, as the model counts them. -/
def imageWords : Nat := 1024
/-- Words that one sweep of the scrubber reads. -/
def scrubWords : Nat := pathWords + imageWords + evTable.length + 1024

/-- The store and index of word i of the sweep: path memory by byte address, the reaction table by code. -/
def scrubWord (i : Nat) : Store × Nat :=
  if i < pathWords then (.path, pathLo + 4 * i)
  else if i < pathWords + imageWords then (.image, i - pathWords)
  else if i < pathWords + imageWords + evTable.length then (.table, ((evTable[i - pathWords - imageWords]?).map (·.code)).getD 0)
  else (.subs, i - pathWords - imageWords - evTable.length)

/-- An uncorrectable word that the scrubber finds (R498); the image store takes every axis down and refuses commands. -/
def State.scrubBad (s : State) (st : Store) (i : Nat) : State :=
  let anew := !s.flt.eccLogged.contains (st, i)
  match st with
  | .path => s.eccFound .path i ((i - pathLo) / 8) (i / 4 % 2) .device
  | .image =>
    let s1 := (s.eccFound .image i i 0 .device).onFlt (fun f => { f with imageBad := true })
    if anew ∧ s.levelOf 0x0A03 ≠ 4 then
      ((s1.flag (fltA FLT.STATUS) 15).life 4).onFlt (fun f => { f with due := f.due ++ [⟨List.range 12, .trip⟩] })
    else s1
  | .table => (s.eccFound .table i i 0 .device).onFlt (fun f => { f with tableBad := i :: f.tableBad.filter (· != i) })
  | .subs => (s.eccFound .subs i i 0 .device).onFlt (fun f => { f with subBad := i :: f.subBad.filter (· != i) })

/-- The scrubber checks its next word (R496): a single-bit error is corrected (R497), a double one is uncorrectable (R498). -/
def State.scrub (s : State) : State :=
  if s.pow.inReset then s else
  let w := scrubWord s.flt.scrubAt
  let s1 := s.onFlt (fun f => { f with scrubAt := (f.scrubAt + 1) % scrubWords })
  match s.flt.upsets.find? (fun u => u.store == w.1 && u.index == w.2) with
  | none => s1
  | some u => if u.dbl then s1.scrubBad w.1 w.2 else (s1.onFlt (fun f => { f with upsets := f.upsets.erase u })).life 2

/-! ### Path memory as an accessor reaches it (R498, R502, R549) -/

/-- A word of path memory is written: upsets of the word end, and an armed injection inverts bits of it. -/
def State.pathPut (s : State) (a : Nat) (w : BitVec 32) : State :=
  let s1 := ({ s with path := pathWrite s.path a w } : State).onFlt (fun f => { f with
    upsets := f.upsets.filter (fun u => !(u.store == .path && u.index == a)), eccLogged := f.eccLogged.filter (fun e => !(e.1 == .path && e.2 == a)) })
  match s.flt.eccArm with
  | some (b, k) => if b = a then s1.onFlt (fun f => { f with eccArm := none, upsets := ⟨.path, a, k == 2⟩ :: f.upsets }) else s1
  | none => s1

/-- A word of path memory is read by an accessor: corrected and written back, or for an uncorrectable word its stored bits with BUSERR. -/
def State.pathGet (s : State) (a : Nat) : Status × BitVec 32 × State :=
  let w := pathWord s.path a
  match s.flt.upsets.find? (fun u => u.store == .path && u.index == a) with
  | none => (.done, w, s)
  | some u =>
    if u.dbl then (.buserr, w ^^^ 3, s.eccFound .path a ((a - pathLo) / 8) (a / 4 % 2) .device)
    else (.done, w, (s.onFlt (fun f => { f with upsets := f.upsets.erase u })).life 2)

/-! ### Meanings -/

/-- POP (R491). -/
def execPopHistory (acc : Fin 15) (arg : Byte) (s : State) : Host.Outcome State Fault Refusal := .next (s.awake fun s => (s.fltCmd acc 0x01 arg.toNat).2)
/-- POP_SNAP (R491). -/
def execPopSnap (acc : Fin 15) (arg : Byte) (s : State) : Host.Outcome State Fault Refusal := .next (s.awake fun s => (s.fltCmd acc 0x02 arg.toNat).2)
/-- INJ_EVENT (R502). -/
def execInjEvent (acc : Fin 15) (arg : Byte) (s : State) : Host.Outcome State Fault Refusal := .next (s.awake fun s => (s.fltCmd acc 0x10 arg.toNat).2)
/-- INJ_ECC (R502). -/
def execInjEcc (acc : Fin 15) (arg : Byte) (s : State) : Host.Outcome State Fault Refusal := .next (s.awake fun s => (s.fltCmd acc 0x11 arg.toNat).2)
/-- INJ_SAR (R502). -/
def execInjSar (acc : Fin 15) (arg : Byte) (s : State) : Host.Outcome State Fault Refusal := .next (s.awake fun s => (s.fltCmd acc 0x12 arg.toNat).2)
/-- INJ_MOD (R502). -/
def execInjMod (acc : Fin 15) (arg : Byte) (s : State) : Host.Outcome State Fault Refusal := .next (s.awake fun s => (s.fltCmd acc 0x13 arg.toNat).2)
/-- INJ_LINK (R502). -/
def execInjLink (acc : Fin 15) (arg : Byte) (s : State) : Host.Outcome State Fault Refusal := .next (s.awake fun s => (s.fltCmd acc 0x14 arg.toNat).2)
/-- INJ_PORT (R502). -/
def execInjPort (acc : Fin 15) (arg : Byte) (s : State) : Host.Outcome State Fault Refusal := .next (s.awake fun s => (s.fltCmd acc 0x15 arg.toNat).2)
/-- LIFE_CLR (R502). -/
def execLifeClr (acc : Fin 15) (arg : Byte) (s : State) : Host.Outcome State Fault Refusal := .next (s.awake fun s => (s.fltCmd acc 0x16 arg.toNat).2)
/-- CLOSE_TEST (R503). -/
def execCloseTest (acc : Fin 15) (arg : Byte) (s : State) : Host.Outcome State Fault Refusal := .next (s.awake fun s => (s.fltCmd acc 0x1F arg.toNat).2)
/-- SCRUB (R496). -/
def execScrub (s : State) : Host.Outcome State Fault Refusal := .next (s.awake fun s => s.scrub)
/-- LIFETIME_SECOND (R494). -/
def execLifetimeSecond (s : State) : Host.Outcome State Fault Refusal := .next (s.awake fun s => if s.img.active then s.life 1 else s)

end Sys2Proof.Machine
end

