-- ==== Sys2Proof/Machine/PowerReset.lean ====
section
/-! DEFINITION. Resets, the boot's start, the shelf state and the JTAG port (R216, R531-R536, R544-R546, R552-R568). -/

namespace Sys2Proof.Machine

/-! ### What a reset keeps (R493, R542, R547, R558) -/

/-- The registers of the always-on domain that a reset keeps whole: STATUS.aon_new, RSTCAUSE, RET, the lifetime counters, WCFG0 and WCFG1. -/
def aonReg (a : Nat) : Bool :=
  a == devA DEV.STATUS || a == devA DEV.RSTCAUSE || (decide (devA DEV.RET ≤ a) && decide (a < devA DEV.RET + 512)) ||
  (decide (fltA FLT.LIFE ≤ a) && decide (a < fltA FLT.LIFE + 128)) || a == cmpA CMP.WCFG || a == cmpA CMP.WCFG + 4

/-- KCV shows the check value of the device key, which OTP gives at every release (R472, R558). -/
def State.showKcv (s : State) : State :=
  match s.wld.dkey with
  | some k => s.wr (wldA WLD.KCV) (beNat ((cmac (keyBytes k) (List.replicate 16 0)).take 2))
  | none => s

/-- The part with everything lost that a reset loses (R542, R558): `cold` a power-on or wake, `lost` VDD has left its window (R493).
The always-on domain, OTP and the TAP stand, and the model's own fields. -/
def State.reborn (s : State) (cold lost : Bool) : State :=
  let p := s.pow
  let t : State := { State.blank with
    pending := s.pending, fresh := s.fresh, regs := s.regs.filter (fun e => aonReg e.1), path := if cold then [] else s.path,
    flt := { Faults.start with
      hist := if cold || lost then [] else s.flt.hist, nextSeq := if cold || lost then 0 else s.flt.nextSeq,
      upsets := if cold then [] else s.flt.upsets.filter (fun u => u.store == .path) },
    bore := { Bore.start with keys := s.bore.keys, revoked := s.bore.revoked, progs := s.bore.progs },
    wld := { World.start with dkey := s.wld.dkey },
    pow := { Power.start with
      causes := p.causes, cold := cold, vddLost := lost, aonNew := p.aonNew, lock := p.lock, wakeBits := p.wakeBits, ir := p.ir,
      scan := p.scan, haltReq := p.haltReq, rstReq := p.rstReq, dbgStatus := p.dbgStatus, dbgData := p.dbgData } }
  ((t.setTrim 90 (s.azTrim 90)).setTrim 91 (s.azTrim 91)).wr (cmpA CMP.WKSTAT) (s.fld (cmpA CMP.WKSTAT) 13 12 * 4096)

/-! ### Entering and leaving reset (R545, R555, R557, R558) -/

/-- The part enters a reset, or another trigger joins the one in progress: `cause` is a bit of RSTCAUSE (R545, R555). An entry into the
shelf state ends with it (R568). -/
def State.enterReset (s : State) (cause : Nat) (cold lost : Bool) : State :=
  let p := s.pow
  let c := if p.inReset then p.causes ||| 2 ^ cause else 2 ^ cause
  let t := s.reborn (cold || (p.inReset && p.cold)) (lost || (p.inReset && p.vddLost))
  t.onPow (fun q => { q with inReset := true, causes := c, wakeBits := if p.inReset then p.wakeBits else 0 })

/-- The instructions of the JTAG port that hold a reset (R533). -/
def holdsReset (ir : Nat) : Bool := ir == 0 || ir == 3 || ir == 4

/-- Factory test mode begins at the release with TESTEN high, or TMSTAT shows that it was asked for (R501). -/
def State.testEntry (s : State) (testen : Bool) : State :=
  if !testen then s
  else if s.pow.lock then (s.onFlt (fun f => { f with tenSeen := true })).log 0x0A04 2 0 .log
  else (s.onFlt (fun f => { f with tm := true })).log 0x0A04 1 0 .log

/-- The release (R494, R501, R544, R545, R558, R559): the causes are recorded, the release counts, a cold boot clears path memory, and the
dedicated inputs start their resolve interval (R263). Nothing where a cause of the reset persists, or in the shelf state. -/
def State.release (s : State) (testen : Bool) : State :=
  let p := s.pow
  if !p.inReset ∨ p.shelf ≠ .running ∨ p.rstReq ∨ holdsReset p.ir then s
  else
    let t := s.reborn p.cold p.vddLost
    let old := if p.causes.testBit 15 then 0 else t.rd (devA DEV.RSTCAUSE)
    let t1 := t.wr (devA DEV.RSTCAUSE) (old ||| p.causes)
    let t2 := if p.aonNew then t1.setBit (devA DEV.STATUS) 12 true else t1
    let t3 := (t2.wr (cmpA CMP.WKSTAT) (t2.rd (cmpA CMP.WKSTAT) ||| p.wakeBits)).showKcv
    let t4 := t3.onPow (fun q => { q with causes := 0, cold := false, vddLost := false, aonNew := false, wakeBits := 0, clearing := p.cold })
    ((t4.life 0).onPins (fun g => { g with dedLeft := some dedInterval })).testEntry testen

/-- The path-memory clear of a cold boot ends, 655.36 µs after its start (R550): every word is 0 and the host ports serve. -/
def State.clearDone (s : State) : State :=
  if s.pow.inReset ∨ !s.pow.clearing ∨ s.pow.relClk < 290144 then s
  else { s with path := [], pow := { s.pow with clearing := false, relClk := max 28000 s.pow.relClk } }

/-- The always-on domain starts fresh (R544, R555): its content is lost, and the next release shows aon_new. -/
def State.aonFresh (s : State) : State :=
  let t := { s with regs := s.regs.filter (fun e => !aonReg e.1) }
  ((t.setTrim 90 0).setTrim 91 0).onPow (fun p => { p with aonNew := true })

/-! ### The shelf state (R564-R568) -/

/-- A wake starts (R567): the part waits in reset for its release, a cold one, with cause wake. -/
def State.wake (s : State) : State :=
  s.onPow (fun p => { p with shelf := .running, causes := p.causes ||| 2 ^ 10 })

/-- Only the always-on domain runs (R565 step 4, R566); a wake event that came during the entry wakes at once (R568). -/
def State.toShelf (s : State) : State :=
  let w := s.pow.wakeBits
  let t := (s.reborn true true).onPow (fun p => { p with inReset := true, causes := 0, shelf := .shelf })
  if w ≠ 0 then t.wake else t

/-- Step 2 of the entry (R565): the axes mute, every unit floats, the analogue engines stop, and the node leaves the ring. -/
def State.shelfLeave (s : State) : State :=
  let s1 := overList allAxes (fun s n => if s.st n = .off then s else s.enterStill n .mute) s
  let s2 := overList (List.finRange 4) (fun s d => s.excStop d) s1
  let s3 := overList (List.finRange 24) (fun s i => s.modStop i) s2
  let s4 := { s3 with frcs := Vector.replicate 8 Force.start, adcs := Vector.replicate 2 Adc.start }
  let s5 := if s4.astate = 3 then s4.releaseAddr else s4.closeAll
  (s5.onPow (fun p => { p with shelf := .leaving 40000 })).setOuts false

/-- The tests of step 1 are over. -/
def State.shelfTested (s : State) : Bool :=
  s.pow.shelf == .testing && !s.cmps.tests.any (fun t => t.1 == 90 || t.1 == 91)

/-- The conditions of R564. -/
def State.shelfAllowed (s : State) : Bool :=
  (!s.img.active || allAxes.all (fun n => [AxState.off, .mute, .fault, .unplugged].contains (s.st n))) &&
  (s.bore.buf == .empty || s.bore.buf == .opened || s.bore.buf == .verified) && !s.flt.tm &&
  (List.range 2).all (fun i => !(s.bit (cmpA CMP.WCFG + 4 * i) 13 && s.bit (cmpA CMP.WKSTAT) (13 - i)))

/-- Step 1 of the entry (R565): the enabled wake comparators are tested; without an image step 2 follows at once where there is nothing to test. -/
def State.shelfEnter (s : State) : State :=
  if s.shelving then s
  else
    let s1 := s.onPow (fun p => { p with shelf := .testing, wakeBits := 0 })
    let s2 := overList (List.range 2) (fun s i => if s.bit (cmpA CMP.WCFG + 4 * i) 13 then s.testStart (90 + i) else s) s1
    if s2.shelfTested ∧ !s2.img.active then s2.shelfLeave else s2

/-- Steps 3 and 4 of the entry, 100 µs after step 2 (R565). -/
def State.shelfPorts (s : State) : State :=
  match s.pow.shelf with
  | .leaving 0 => ((s.linkDown 0 4 false).linkDown 1 4 false).toShelf
  | _ => s

/-- A write of DEV.RSTKEY (R546). -/
def State.rstKey (s : State) (mask data : Nat) : Status × State :=
  if mask = 0xFFFF ∧ data = 0x5A5A then
    (.done, s.onPow (fun p => { p with softDue := some (p.softDue.getD 8) }))
  else (.range, s)

/-- A write of DEV.SHELFKEY (R546, R564). -/
def State.shelfKey (s : State) (mask data : Nat) : Status × State :=
  if ¬(mask = 0xFFFF ∧ data = 0xA5A5) then (.range, s)
  else if !s.shelfAllowed then (.state, s)
  else (.done, s.shelfEnter)

/-- An accessor writes one of the two key registers (R457, R546). -/
def State.keyWord (s : State) (acc : Fin 15) (f : State → Status × State) : Status × State :=
  if !s.ready then (.buserr, s)
  else if !s.mayAccess acc 55 then (.world, s.violate acc 1 55)
  else f s

/-- RESET_N is held low (R556): a pin reset, or a wake in the shelf state. -/
def State.pinReset (s : State) : State :=
  if s.pow.shelf = .shelf then (s.onPow (fun p => { p with causes := p.causes ||| 2 ^ 14 })).wake
  else s.enterReset 14 false false

/-- Supply `k` falls below its window (R555, R562, R566): a logic supply resets the part, and VAON leaves its mark in the shelf state. -/
def State.brownOut (s : State) (k : Nat) : State :=
  if s.pow.shelf = .shelf then (if k = 5 then s.onPow (fun p => { p with causes := p.causes ||| 2 ^ 13 }) else s)
  else if 2 ≤ k ∧ k ≤ 4 then s.enterReset 13 false (k == 4)
  else s

/-- Supply k enters over or under (R376, R562): VIO, VDDA or VDD under its window is a brown-out, which logs no event. In the shelf state
only the lower comparator of VAON runs (R566). -/
def State.supplyEnters (s : State) (k : Fin 6) (isOver : Bool) : State :=
  if s.pow.shelf = .shelf then (if isOver then s else s.brownOut k)
  else if 2 ≤ k.val ∧ k.val ≤ 4 ∧ !isOver then s.brownOut k
  else s.awake fun s => s.supplyOut k isOver

/-- A self-check of comparator c ends, or is run where R386 lets it: a window that fails with its shadow in use counts as out, and so
resets the part where it is the lower one of a logic supply (R387, R562). -/
def State.selfCheck (s : State) (c : Fin 101) (result : Nat) : State :=
  if s.testable c ∨ s.cmps.tests.any (fun t => t.1 == c.val) then
    let t := s.testEnd c result
    if result ≠ 0 ∧ s.bit (azA c) 10 ∧ 52 ≤ c.val ∧ c.val ≤ 56 ∧ c.val % 2 = 0 then t.brownOut ((c - 48) / 2) else t
  else s

/-- VDD rises through its power-on level (R531, R555): nothing in the shelf state and during a wake. -/
def State.powerOn (s : State) : State :=
  if s.pow.shelf = .shelf ∨ (s.pow.inReset ∧ s.pow.causes.testBit 10) then s
  else (s.onPow (fun p => { p with ir := 2, scan := [], haltReq := false, rstReq := false, dbgStatus := 0, dbgData := 0 })).enterReset 15 true true

/-- Wake source `w` (R567): WAKE0, WAKE1, or RESET_N. -/
def State.wakeBy (s : State) (w : Nat) : State :=
  if s.pow.shelf ≠ .shelf then s
  else if w = 2 then s.pinReset
  else if s.bit (cmpA CMP.WCFG + 4 * w) 13 then (s.onPow (fun p => { p with wakeBits := p.wakeBits ||| 2 ^ (15 - w) })).wake
  else s

/-- A wake input takes a level through its filter: its flag, and in the shelf state the wake (R380, R567). -/
def State.wakeInput (s : State) (i : Fin 2) (on : Bool) : State :=
  let new := on && s.bit (cmpA CMP.WCFG + 4 * i) 13 && !s.bit (cmpA CMP.WKSTAT) (13 - i)
  let s1 := s.wakeLevel i on
  if new ∧ s.pow.shelf = .shelf then s1.wake else s1

/-- The part drives BF_CS, the chip select of the boot flash: during reset and in the shelf state the pin is high impedance (R560). -/
def State.bfCsDriven (s : State) : Bool := !s.asleep

/-! ### The JTAG port (R531-R536) -/

/-- The JTAG port is clocked: not in the shelf state (R531). -/
def State.tapOn (s : State) : Bool := s.pow.shelf != .shelf

/-- An instruction becomes active (R532): those that need TESTEN select BYPASS without it, and EXTEST, CLAMP and HIGHZ reset the part (R533). -/
def State.instr (s : State) (code : Nat) (ok : Bool) : State :=
  if !s.tapOn then s
  else
    let c := if ok then code else 0xFF
    let s1 := s.onPow (fun p => { p with ir := c })
    if holdsReset c then s1.enterReset 9 false false else s1

/-- Halt and reset requests are honoured (R536). -/
def State.dbgGate (s : State) : Bool := !s.secureBlock 55 || s.flt.tm

/-- IDCODE (R532): version 1 for stepping B1, part 0x1240, the manufacturer, and 1. -/
def idcodeWord : BitVec 32 := (1 : BitVec 4) ++ (0x1240 : Word) ++ Config.jep106 ++ (1 : BitVec 1)

/-- What Capture-DR loads into DBG_CTRL (R534): the requests last taken, and gate, halted, ready and tm. -/
def State.dbgCtrl (s : State) : Word :=
  BitVec.ofNat 16 (s.pow.haltReq.toNat * 32768 + s.pow.rstReq.toNat * 16384 + s.dbgGate.toNat * 8 + s.stage.halt.toNat * 4 +
    s.ready.toNat * 2 + s.flt.tm.toNat)

/-- What Capture-DR loads into DBG_ACC (R535): the status and the word of the last access; none is in progress between two steps. -/
def State.dbgAcc (s : State) : BitVec 64 := (BitVec.ofNat 16 (s.pow.dbgStatus % 256)) ++ (0 : Word) ++ s.pow.dbgData

/-- Test-Logic-Reset (R531, R534). -/
def State.tapReset (s : State) : State :=
  (if s.stage.halt ∧ s.pow.haltReq then s.debugResume else s).onPow (fun p => { p with ir := 2, haltReq := false, rstReq := false })

/-- DBG_CTRL takes halt_req (R534). -/
def State.haltReq (s : State) (on : Bool) : State :=
  if !s.tapOn then s
  else
    let s1 := s.onPow (fun p => { p with ir := 0x10 })
    if on then
      (if s.dbgGate ∧ !s.pow.haltReq then (s1.onPow (fun p => { p with haltReq := true })).debugHalt else s1)
    else
      let s2 := s1.onPow (fun p => { p with haltReq := false })
      if s.pow.haltReq ∧ s.stage.halt then s2.debugResume else s2

/-- DBG_CTRL takes rst_req (R534). -/
def State.rstReq (s : State) (on : Bool) : State :=
  if !s.tapOn then s
  else
    let s1 := s.onPow (fun p => { p with ir := 0x10 })
    if !on then s1.onPow (fun p => { p with rstReq := false })
    else if s.dbgGate then (s1.onPow (fun p => { p with rstReq := true })).enterReset 9 false false
    else s1

/-! ### Meanings -/

/-- STROBE_LOSS (R216, R555): every unit takes the mute form latched in its die, and holds it until the controller resets. DESIGN CHOICE
(log 53): the reset begins with the next CORE clock; the spec gives no time between the two. -/
def execStrobeLoss (s : State) : Host.Outcome State Fault Refusal :=
  .next (s.awake fun s => (s.onStage (fun g => { g with strobeLost := true })).setOuts false)
/-- SUPPLY_WINDOW (R376): supply 0 VM, 1 V12, 2 VIO, 3 VDDA, 4 VDD, 5 VAON. -/
def execSupplyWindow (k : Fin 6) (isOver : Bool) (s : State) : Host.Outcome State Fault Refusal := .next (s.supplyEnters k isOver)
/-- SELF_CHECK (R386). -/
def execSelfCheck (c : Fin 101) (result : Fin 4) (s : State) : Host.Outcome State Fault Refusal := .next (s.awake fun s => s.selfCheck c result)
/-- WAKE_INPUT (R380, R567). -/
def execWakeInput (i : Fin 2) (on : Bool) (s : State) : Host.Outcome State Fault Refusal := .next (s.wakeInput i on)
/-- EXTEST (R533). -/
def execExtest (testen : Bool) (s : State) : Host.Outcome State Fault Refusal := .next (s.instr 0 testen)
/-- SAMPLE_PRELOAD (R532): the boundary-scan register is loaded with `cells`. -/
def execSamplePreload (testen : Bool) (cells : List Bool) (s : State) : Host.Outcome State Fault Refusal :=
  .next (if s.tapOn ∧ testen then (s.instr 1 true).onPow (fun p => { p with scan := cells }) else s.instr 1 testen)
/-- CLAMP (R533). -/
def execClampScan (testen : Bool) (s : State) : Host.Outcome State Fault Refusal := .next (s.instr 3 testen)
/-- HIGHZ (R533). -/
def execHighz (testen : Bool) (s : State) : Host.Outcome State Fault Refusal := .next (s.instr 4 testen)
/-- IDCODE (R532). -/
def execIdcode (s : State) : Host.Outcome State Fault Refusal := .next (s.instr 2 true)
/-- BYPASS (R532). -/
def execBypassScan (s : State) : Host.Outcome State Fault Refusal := .next (s.instr 0xFF true)
/-- TAP_RESET (R531). -/
def execTapReset (s : State) : Host.Outcome State Fault Refusal := .next s.tapReset
/-- HALT_REQ (R534). -/
def execHaltReq (on : Bool) (s : State) : Host.Outcome State Fault Refusal := .next (s.haltReq on)
/-- RST_REQ (R534). -/
def execRstReq (on : Bool) (s : State) : Host.Outcome State Fault Refusal := .next (s.rstReq on)
/-- SOFTWARE_RESET (R546): the word as an accessor writes it to DEV.RSTKEY. -/
def execSoftwareReset (acc : Fin 15) (mask data : Word) (s : State) : Host.Outcome State Fault Refusal :=
  .next (s.keyWord acc (fun s => s.rstKey mask.toNat data.toNat)).2
/-- SHELF_ENTRY (R564, R565): the word as an accessor writes it to DEV.SHELFKEY. -/
def execShelfEntry (acc : Fin 15) (mask data : Word) (s : State) : Host.Outcome State Fault Refusal :=
  .next (s.keyWord acc (fun s => s.shelfKey mask.toNat data.toNat)).2
/-- SHELF_DISABLE_PORTS (R565). -/
def execShelfDisablePorts (s : State) : Host.Outcome State Fault Refusal := .next s.shelfPorts
/-- WAKE (R567): by WAKE0, WAKE1 or RESET_N. -/
def execWakeUp (source : Fin 3) (s : State) : Host.Outcome State Fault Refusal := .next (s.wakeBy source)
/-- POWER_ON_RESET (R555). -/
def execPowerOnReset (s : State) : Host.Outcome State Fault Refusal := .next s.powerOn
/-- BROWN_OUT_RESET (R555, R566): supply 2 VIO, 3 VDDA, 4 VDD, or 5 VAON. -/
def execBrownOutReset (k : Fin 6) (s : State) : Host.Outcome State Fault Refusal := .next (s.brownOut k)
/-- PIN_RESET (R556). -/
def execPinReset (s : State) : Host.Outcome State Fault Refusal := .next s.pinReset
/-- RESET_RELEASE (R558). -/
def execResetRelease (testen : Bool) (s : State) : Host.Outcome State Fault Refusal := .next (s.release testen)
/-- PATH_MEMORY_CLEAR_DONE (R550). -/
def execPathMemoryClearDone (s : State) : Host.Outcome State Fault Refusal := .next s.clearDone
/-- VAON_POWER_UP (R555): in the shelf state the wake logic starts fresh as well, and the part waits for its release. -/
def execVaonPowerUp (s : State) : Host.Outcome State Fault Refusal :=
  .next (if s.pow.shelf = .shelf then s.aonFresh.onPow (fun p => { p with shelf := .running, causes := p.causes ||| 2 ^ 15, wakeBits := 0 }) else s.aonFresh)

end Sys2Proof.Machine
end

