-- ==== Sys2Proof/Machine/Bus.lean ====
section
/-! DEFINITION. Accesses to register and path-memory words, the transactions of the host ports, the accesses of the JTAG port, and the
commands that are a word of their own (R457-R462, R510-R525, R535, R549). -/

namespace Sys2Proof.Machine

/-! ### The world of an access (R457-R459, R462, R540) -/

/-- The words that every accessor may read (R458). -/
def publicWord (a : Nat) : Bool :=
  a == wldA WLD.STATUS || a == wldA WLD.WHO || (decide (wldA WLD.BLK ≤ a) && decide (a < wldA WLD.BLK + 16)) || a == wldA WLD.REG

/-- The words whose write is a right of the secure master, BOR.CMD under any mask among them (R75, R462); commands of WLD and feed words
are judged with their command. -/
def masterWord (a : Nat) : Bool :=
  a == borA BOR.CMD || (decide (wldA WLD.SBLK ≤ a) && decide (a < wldA WLD.SBLK + 16)) || a == wldA WLD.SREG ||
  (decide (wldA WLD.DKEY ≤ a) && decide (a < wldA WLD.DKEY + 32)) || (decide (0x040440 ≤ a) && decide (a ≤ 0x0406FC))

/-- The accessor holds the right to write a word of the secure master; the device key only HPS as the master (R462, R472). -/
def State.holdsRight (s : State) (acc a : Nat) : Bool :=
  s.isMaster acc && (!(decide (wldA WLD.DKEY ≤ a) && decide (a < wldA WLD.DKEY + 32)) || acc == 1)

/-- The world violation that an access to a word is: its kind and its block, or region from 0x40 on (R457, R460). -/
def State.violationOf (s : State) (acc : Fin 15) (a : Nat) (write : Bool) : Option (Nat × Nat) :=
  match guardOf a with
  | .open_ => none
  | .region r => if s.secureAcc acc || !s.secureRegion r then none else some (2, 0x40 + r)
  | .block b =>
    if publicWord a && !write then none
    else if !s.mayAccess acc b || (write && (b == 56 || b == 57) && !s.secureAcc acc) then some (1, b)
    else if write && masterWord a && !s.holdsRight acc a then some (3, b)
    else if a = fltA FLT.FCNT ∧ !write then (s.fcntBlock acc).map (fun k => (1, k))
    else none

/-! ### Written words (R517) -/

/-- A command register issues a command (R93, R333, R517). A command pending in it is a bus error; a mask of 0 issues nothing. -/
def State.issue (s : State) (acc : Fin 15) (b mask data : Nat) : Status × State :=
  let m := data &&& mask
  let op := m / 256
  let arg := m % 256
  if h : 0x080000 ≤ b ∧ b < 0x0B0000 then
    let n : Fin 12 := ⟨(b - 0x080000) / 0x4000, by omega⟩
    if b = axBase n + AX.CMD then
      if (s.mot n).cmd.isSome then (.buserr, s)
      else if mask = 0 then (.done, s)
      else if s.shelving then (.done, s.finish (axBase n + AX.CMDSTAT) n op arg acc .state)
      else (.done, s.onMot n (fun x => { x with cmd := some ⟨op, arg, acc⟩, tableOk := false }))
    else if mask = 0 then (.done, s)
    else (.done, s.fpCommand n op arg acc)
  else if h : 0x0F0000 ≤ b ∧ b < 0x0F0800 then
    let m : Fin 8 := ⟨(b - 0x0F0000) / 0x100, by omega⟩
    if (s.frcs[m]).cmd.isSome then (.buserr, s)
    else if mask = 0 then (.done, s)
    else if s.shelving then (.done, s.finish (frcBase m + FRC.FCMDSTAT) (24 + m) op arg acc .state)
    else (.done, (s.onFrc m (fun x => { x with cmd := some ⟨op, arg, acc⟩ })).setBit (fstat m) 5 true)
  else if b = netA NET.NCMD ∧ s.net.claimer.isSome then (.buserr, s)
  else if mask = 0 then (.done, s)
  else if h : 0x0D8000 ≤ b ∧ b < 0x0DA000 then (.done, s.adcCommand ⟨(b - 0x0D8000) / 0x1000, by omega⟩ op arg acc)
  else if b = cmpA CMP.STCMD then (.done, s.selftest op arg acc (s.mayAccess acc (azBlock arg)))
  else if b = borA BOR.CMD then s.borCmd acc op arg
  else if b = wldA WLD.CMD then s.wldCmd acc op arg
  else if b = netA NET.NCMD then s.netCmd acc op arg
  else s.fltCmd acc op arg

/-- WLD.VCLR (R476). -/
def State.vioWipe (s : State) (bits : Nat) : State :=
  let s1 := overList ((List.range 10).filter bits.testBit) (fun s a => s.wr (wldA WLD.VIOCNT + 4 * a) 0) s
  if bits.testBit 15 then
    (((s1.wr (wldA WLD.AUTHFAIL) 0).wr (wldA WLD.LASTVIO) 0).wr (wldA WLD.LASTBLK) 0).setBit (wldA WLD.STATUS) 9 false
  else s1

/-- A staged word of the device key (R472). -/
def State.stageKey (s : State) (i mask data : Nat) : State :=
  s.onWld (fun w => if h : i < 8 then
    { w with dkw := w.dkw.set i (some (BitVec.ofNat 16 (maskWord ((w.dkw[i]).getD 0).toNat mask data))) } else w)

/-- Write-only registers that are no command registers (R517). -/
def State.strobe (s : State) (acc : Fin 15) (b mask data : Nat) : Status × State :=
  let m := data &&& mask
  if b = devA DEV.RSTKEY then s.rstKey mask data
  else if b = devA DEV.SHELFKEY then s.shelfKey mask data
  else if 0x020400 ≤ b ∧ b < 0x020800 then s.feedWord acc mask data
  else if mask = 0 then (.done, s)
  else if s.foreignAx b then (.state, s)
  else if b = devA DEV.PCNTCLR then
    (.done, s.onAcc acc (fun a => { a with becnt := if m.testBit 0 then 0 else a.becnt, partcnt := if m.testBit 1 then 0 else a.partcnt }))
  else if b = timA TIM.OVBCLR then (.done, s.ovbClear (BitVec.ofNat 16 m))
  else if b = wldA WLD.VCLR then (.done, s.vioWipe m)
  else if wldA WLD.DKEY ≤ b ∧ b < wldA WLD.DKEY + 32 then (.done, s.stageKey ((b - wldA WLD.DKEY) / 4) mask data)
  else if b = netA NET.UCMT then (.done, s.uobjCommit m)
  else if b = (modbA MODB.MCLR) then s.mclr m
  else (.done, s.clearReg b m)

/-- The bits of a written word that the accessor can reach (R526, R540): those of the IRQA banks and of the pin words follow their blocks. -/
def State.reach (s : State) (acc : Fin 15) (a : Nat) : Nat :=
  if devA DEV.IRQA_PEND ≤ a ∧ a < devA DEV.IRQS_PEND then s.irqMask acc ((a - devA DEV.IRQA_PEND) / 4 % 4)
  else if gpioA 0 ≤ a ∧ a < gpioA 0x30 then s.pinMask acc ((a - gpioA 0) / 4 % 2)
  else 0xFFFF

/-- A written register word that the worlds permit (R11, R517). -/
def State.writeReg (s : State) (acc : Fin 15) (l : Loc) (a mask data : Nat) : Status × State :=
  match l.row.acc with
  | .ro => (if mask = 0 then .done else .buserr, s)
  | .cmd => s.issue acc l.base mask data
  | .wo => s.strobe acc l.base mask data
  | _ =>
    let r := s.wordWrite acc l (mask &&& s.reach acc a) data
    if r.1 = .done ∧ a = netpBase 0 + NETP.PCFG then (.done, r.2.afterPcfg 0 (s.rd a))
    else if r.1 = .done ∧ a = netpBase 1 + NETP.PCFG then (.done, r.2.afterPcfg 1 (s.rd a))
    else r

/-- A written word of an accessor, its bus error not yet counted: mask in bits 31:16 and data in bits 15:0 for a register (R7), all 32
bits for path memory (R549). An unlisted word is a bus error; a listed one is judged by its world first (R457, R521). -/
def State.writeWord (s : State) (acc : Fin 15) (a : Nat) (w : BitVec 32) : Status × State :=
  if !s.ready ∨ a % 4 ≠ 0 ∨ 0x500000 ≤ a then (.buserr, s)
  else
    let l := locate a
    if a < pathLo ∧ l.isNone then (.buserr, s)
    else match s.violationOf acc a true with
    | some (k, b) => (.world, s.violate acc k b)
    | none =>
      match l with
      | some x => s.writeReg acc x a (w.toNat / 65536) (w.toNat % 65536)
      | none => (.done, s.pathPut a w)

/-- A written word of an accessor. -/
def State.busWrite (s : State) (acc : Fin 15) (a : Nat) (w : BitVec 32) : Status × State :=
  let r := s.writeWord acc a w
  (r.1, State.counted acc r)

/-! ### Read words (R518) -/

/-- A word read by an accessor, its bus error not yet counted. A value whose snapshot a change of the map has discarded answers WORLD,
which is a violation only where the accessor may not access the block (R468). -/
def State.readWord (s : State) (acc : Fin 15) (a : Nat) : Status × BitVec 32 × State :=
  if !s.ready ∨ a % 4 ≠ 0 ∨ 0x500000 ≤ a then (.buserr, 0, s)
  else
    let l := locate a
    if a < pathLo ∧ l.isNone then (.buserr, 0, s)
    else match s.violationOf acc a false with
    | some (k, b) => (.world, 0, s.violate acc k b)
    | none =>
      match l with
      | some x => let r := s.readReg acc x; (r.1, BitVec.ofNat 32 r.2, s)
      | none => s.pathGet a

/-- A word read by an accessor. -/
def State.busRead (s : State) (acc : Fin 15) (a : Nat) : Status × BitVec 32 × State :=
  let r := s.readWord acc a
  (r.1, r.2.1, State.counted acc (r.1, r.2.2))

/-- The effect of a read at the first SCK edge of its slot (R516, R518, R490): a snapshot of a value of several words, or of a history entry. -/
def State.readTake (s : State) (acc : Fin 15) (a : Nat) : State :=
  match locate a with
  | some x => if x.word = 0 ∧ (1 < x.row.words ∨ x.base = fltA FLT.HE0) then s.takeSnap acc x.base else s
  | none => s

/-- A read with its effect: the value comes from before it. -/
def State.readFull (s : State) (acc : Fin 15) (a : Nat) : Status × BitVec 32 × State :=
  let r := s.busRead acc a
  if r.1 = .done then (r.1, r.2.1, r.2.2.readTake acc a) else r

/-! ### Bursts (R514, R520) -/

/-- What a burst has done: the state, the first status that was not DONE, the words completed, the words read, whether a word has ended it,
and whether a software reset cuts it off. -/
structure Burst where
  st : State
  first : Option Status
  n : Nat
  data : List (BitVec 32)
  ended : Bool
  soft : Bool
  deriving DecidableEq, Repr

/-- A burst that begins. -/
def Burst.begin (s : State) : Burst := ⟨s, none, 0, [], false, false⟩

/-- A status that ends a burst (R520). -/
def Status.ends (x : Status) : Bool := x == .buserr || x == .world

/-- The first status that was not DONE. -/
def firstErr (f : Option Status) (x : Status) : Option Status := if x = .done then f else some (f.getD x)

/-- The words of a WRITE, from address `a` on (R520, R546). -/
def burstWrite (acc : Fin 15) : List (BitVec 32) → Nat → Burst → Burst
  | [], _, b => b
  | w :: t, a, b =>
    let r := b.st.busWrite acc a w
    if r.1.ends then { b with st := r.2, first := firstErr b.first r.1, ended := true }
    else
      let b1 := { b with st := r.2, first := firstErr b.first r.1, n := b.n + 1 }
      if a = devA DEV.RSTKEY ∧ r.1 = .done then { b1 with soft := true } else burstWrite acc t (a + 4) b1

/-- The words of a READ, from address `a` on; after the word that ends it the part shifts zeros (R520). -/
def burstRead (acc : Fin 15) : Nat → Nat → Burst → Burst
  | 0, _, b => b
  | k + 1, a, b =>
    let r := b.st.readFull acc a
    if r.1.ends then
      { b with st := r.2.2, first := firstErr b.first r.1, data := b.data ++ r.2.1 :: List.replicate k 0, ended := true }
    else burstRead acc k (a + 4) { b with st := r.2.2, n := b.n + 1, data := b.data ++ [r.2.1] }

/-- A header whose address is not a multiple of 4 ends the burst before its first word (R521). -/
def State.header (s : State) (acc : Fin 15) (a : Nat) (f : Burst → Burst) : Burst :=
  if a % 4 ≠ 0 then { Burst.begin (s.busError acc) with first := some .buserr, ended := true } else f (Burst.begin s)

/-- A transaction or request is recorded for its accessor (R514, R524, R525). -/
def State.record_ (s : State) (acc : Fin 15) (st : Status) (n : Nat) (part : Bool) : State :=
  s.onAcc acc (fun a => { a with status := BitVec.ofNat 8 st.code, partialW := part, words := BitVec.ofNat 16 (min n 65535) })

/-! ### The host ports (R510-R514, R522) -/

/-- The accessor that a host port is (R456). -/
def portAcc (p : Fin 2) : Fin 15 := ⟨p.val, by omega⟩

/-- The bank of a host port (R527). -/
def bankOf (p : Fin 2) : Nat := if p = 0 then devA DEV.IRQA_PEND else devA DEV.IRQS_PEND

/-- The interrupt pin of a host port is asserted (R528); a secure block asserts nothing on IRQA (R527). -/
def State.irqPin (s : State) (p : Fin 2) : Bool :=
  s.ready && (List.range 4).any (fun w =>
    let v := s.rd (bankOf p + 4 * w) &&& s.rd (bankOf p + 16 + 4 * w)
    (List.range 16).any (fun i => v.testBit i && !(p == 0 && decide (16 * w + i ≤ 57) && s.secureBlock (16 * w + i))))

/-- The status word of a host port (R513). -/
def State.statusWord (s : State) (p : Fin 2) : Word :=
  let a := s.acc[portAcc p]
  if !s.ready then 0
  else BitVec.ofNat 16 (a.status.toNat * 256 + (if a.partialW then 128 else 0) + (if s.irqPin p then 64 else 0) + 32)

/-- What a host port drives. -/
def State.drive (s : State) (p : Fin 2) (w : Word) (data : List (BitVec 32)) : State := { s with host := s.host.set p ⟨w, data⟩ }

/-- A transaction ends at the rise of CS (R514, R522, R527): a partial word counts and marks it; bits 60 and 61 of the port's own bank. -/
def State.endTransaction (p : Fin 2) (b : Burst) (part : Bool) : State :=
  let acc := portAcc p
  let s1 := if part then
      ((b.st.busError acc).onAcc acc (fun a => { a with partcnt := if a.partcnt = 0xFFFF then a.partcnt else a.partcnt + 1 })).flagOnly (bankOf p + 12) 13
    else b.st
  let s2 := if b.ended || part then s1.flagOnly (bankOf p + 12) 12 else s1
  s2.record_ acc (b.first.getD (if part then .buserr else .done)) b.n part

/-- A WRITE transaction of words from address `a`; `part` where CS rises within a further word (R510, R522). HPS drives the status word during
the header (R512), HPA drives nothing. -/
def State.hostWrite (s : State) (p : Fin 2) (a : Nat) (ws : List (BitVec 32)) (part : Bool) : State :=
  if !s.ready then s.drive p 0 []
  else
    let s0 := s.drive p (if p = 1 then s.statusWord p else 0) []
    let b := s0.header (portAcc p) a (burstWrite (portAcc p) ws a)
    if b.soft then b.st else State.endTransaction p b part

/-- A READ transaction of `n` words shifted out whole from address `a`; `part` where CS rises within a further word, whose effect has taken
place (R510, R516, R522). -/
def State.hostRead (s : State) (p : Fin 2) (a n : Nat) (part : Bool) : State :=
  if !s.ready then s.drive p 0 []
  else
    let b := s.header (portAcc p) a (burstRead (portAcc p) n a)
    let b1 :=
      if part && !b.ended then
        (let r := b.st.readFull (portAcc p) (a + 4 * n)
         { b with st := r.2.2, first := firstErr b.first r.1, ended := r.1.ends })
      else b
    (State.endTransaction p b1 part).drive p (s.statusWord p) (if a % 4 = 0 then b.data else List.replicate n 0)

/-- A transaction of a header alone (R511, R512, R522): `op` its opcode; `cut` 1 where CS rises after the opcode and before the header is
complete, 2 where it rises within the opcode. STATUS is never recorded once its opcode is complete; another opcode than the three is
recorded UNKNOWN. -/
def State.hostHeader (s : State) (p : Fin 2) (op cut : Nat) : State :=
  if !s.ready then s.drive p 0 []
  else
    let w := if p = 1 ∨ ((op = 0x05 ∨ op = 0x0B) ∧ cut = 0) then s.statusWord p else 0
    let s0 := s.drive p w []
    if cut = 2 then State.endTransaction p (Burst.begin s0) true
    else if op = 0x05 then s0
    else if cut = 1 then State.endTransaction p (Burst.begin s0) true
    else if op = 0x02 ∨ op = 0x0B then State.endTransaction p (Burst.begin s0) false
    else State.endTransaction p { Burst.begin s0 with first := some .unknown } false

/-! ### The JTAG port's accesses (R535) -/

/-- The accessor of the JTAG port. -/
def jtagAcc : Fin 15 := ⟨10, by omega⟩

/-- An access of the JTAG port leaves its result (R535): not performed on a bad address or while the part is not ready. -/
def State.dbgResult (st : Status) (v : BitVec 32) (n : Nat) (s : State) : State :=
  (s.onPow (fun p => { p with ir := 0x11, dbgStatus := st.code, dbgData := v })).record_ jtagAcc st n false

/-- DBG_ACC with go and read. -/
def State.dbgRead (s : State) (a : Nat) : State :=
  if !s.tapOn then s
  else let r := s.readFull jtagAcc a; State.dbgResult r.1 r.2.1 (if r.1.ends then 0 else 1) r.2.2

/-- DBG_ACC with go and write. -/
def State.dbgWrite (s : State) (a : Nat) (w : BitVec 32) : State :=
  if !s.tapOn then s
  else let r := s.busWrite jtagAcc a w; State.dbgResult r.1 0 (if r.1.ends then 0 else 1) r.2

/-! ### Meanings: a command that is a register word is that word as the accessor writes or reads it -/

/-- A word of all mask bits. -/
def fullMask (x : Nat) : BitVec 32 := BitVec.ofNat 32 (0xFFFF0000 + x)
/-- A word that sets bit `i` under a mask of that bit. -/
def oneBit (i : Nat) : BitVec 32 := BitVec.ofNat 32 (2 ^ i * 65537)

/-- TIM_RATE_COMMIT (R33): the word written to TIM.RATE_H. -/
def execTimRateCommit (acc : Fin 15) (w : BitVec 32) (s : State) : Host.Outcome State Fault Refusal :=
  .next (s.awake fun s => (s.busWrite acc (timA TIM.RATE + 4) w).2)
/-- TIM_ADJ_COMMIT (R33): the word written to TIM.ADJ_H. -/
def execTimAdjCommit (acc : Fin 15) (w : BitVec 32) (s : State) : Host.Outcome State Fault Refusal :=
  .next (s.awake fun s => (s.busWrite acc (timA TIM.ADJ + 8) w).2)
/-- PTPCFG_WRITE (R51). -/
def execPtpcfgWrite (acc : Fin 15) (w : BitVec 32) (s : State) : Host.Outcome State Fault Refusal :=
  .next (s.awake fun s => (s.busWrite acc (timA TIM.PTPCFG) w).2)
/-- OVBCLR (R46). -/
def execOvbclr (acc : Fin 15) (w : BitVec 32) (s : State) : Host.Outcome State Fault Refusal :=
  .next (s.awake fun s => (s.busWrite acc (timA TIM.OVBCLR) w).2)
/-- SETPOS_COMMIT (R125): the word written to SETPOS_H of axis n. -/
def execSetposCommit (n : Fin 12) (acc : Fin 15) (w : BitVec 32) (s : State) : Host.Outcome State Fault Refusal :=
  .next (s.awake fun s => (s.busWrite acc (axBase n + AX.SETPOS + 8) w).2)
/-- TRIP_CLEAR (R218): PSTAT.trip of unit u is written 1. -/
def execTripClear (u : Fin 48) (acc : Fin 15) (s : State) : Host.Outcome State Fault Refusal :=
  .next (s.awake fun s => (s.busWrite acc (pstat u) (oneBit 15)).2)
/-- SHORT_CLEAR (R293): ESTAT.short of driver d is written 1. -/
def execShortClear (d : Fin 4) (acc : Fin 15) (s : State) : Host.Outcome State Fault Refusal :=
  .next (s.awake fun s => (s.busWrite acc (estat d) (oneBit 15)).2)
/-- MODULATOR_RESTART (R367): MCLR with bit 1 and index i. -/
def execModulatorRestart (i : Fin 24) (acc : Fin 15) (s : State) : Host.Outcome State Fault Refusal :=
  .next (s.awake fun s => (s.busWrite acc (modbA MODB.MCLR) (fullMask (i.val * 256 + 2))).2)
/-- MODULATOR_COUNT_CLEAR (R366): MCLR with bit 0 and index i. -/
def execModulatorCountClear (i : Fin 24) (acc : Fin 15) (s : State) : Host.Outcome State Fault Refusal :=
  .next (s.awake fun s => (s.busWrite acc (modbA MODB.MCLR) (fullMask (i.val * 256 + 1))).2)
/-- SELFTEST (R388): STCMD with opcode 0x01. -/
def execSelftest (acc : Fin 15) (arg : Byte) (s : State) : Host.Outcome State Fault Refusal :=
  .next (s.awake fun s => (s.busWrite acc (cmpA CMP.STCMD) (fullMask (256 + arg.toNat))).2)
/-- UOBJ_COMMIT (R440): NET.UCMT is written. -/
def execUobjCommit (acc : Fin 15) (w : BitVec 32) (s : State) : Host.Outcome State Fault Refusal :=
  .next (s.awake fun s => (s.busWrite acc (netA NET.UCMT) w).2)
/-- HISTORY_SNAPSHOT (R490): FLT.HE0 is read. -/
def execHistorySnapshot (acc : Fin 15) (s : State) : Host.Outcome State Fault Refusal :=
  .next (s.awake fun s => (s.readFull acc (fltA FLT.HE0)).2.2)
/-- FSELBIT_WRITE (R495). -/
def execFselbitWrite (acc : Fin 15) (w : BitVec 32) (s : State) : Host.Outcome State Fault Refusal :=
  .next (s.awake fun s => (s.busWrite acc (fltA FLT.FSELBIT) w).2)
/-- SNAPSHOT_READ (R518): a word is read, with its snapshot where it is an _L word. -/
def execSnapshotRead (acc : Fin 15) (a : BitVec 24) (s : State) : Host.Outcome State Fault Refusal :=
  .next (s.awake fun s => (s.readFull acc a.toNat).2.2)
/-- MULTIWORD_COMMIT (R519): a word is written to address `a`, the highest of its value. -/
def execMultiwordCommit (acc : Fin 15) (a : BitVec 24) (w : BitVec 32) (s : State) : Host.Outcome State Fault Refusal :=
  .next (s.awake fun s => (s.busWrite acc a.toNat w).2)
/-- REGISTER_WRITE (R517). -/
def execRegisterWrite (acc : Fin 15) (a : BitVec 24) (w : BitVec 32) (s : State) : Host.Outcome State Fault Refusal :=
  .next (s.awake fun s => (s.busWrite acc a.toNat w).2)
/-- HOST_WRITE (R510): a WRITE of `words` from address `a` on; `part` where CS rises within a further word. -/
def execHostWrite (p : Fin 2) (a : BitVec 24) (words : List (BitVec 32)) (part : Bool) (s : State) : Host.Outcome State Fault Refusal :=
  .next (s.hostWrite p a.toNat words part)
/-- HOST_READ (R510): a READ of `count` words from address `a` on; `part` where CS rises within a further word. -/
def execHostRead (p : Fin 2) (a : BitVec 24) (count : Nat) (part : Bool) (s : State) : Host.Outcome State Fault Refusal :=
  .next (s.hostRead p a.toNat count part)
/-- STATUS_TRANSACTION (R511): a header alone; opcode 0x05 is STATUS. -/
def execStatusTransaction (p : Fin 2) (op : Byte) (cut : Fin 3) (s : State) : Host.Outcome State Fault Refusal :=
  .next (s.hostHeader p op.toNat cut)
/-- DBG_ACC_READ (R535). -/
def execDbgAccRead (a : BitVec 24) (s : State) : Host.Outcome State Fault Refusal := .next (s.dbgRead a.toNat)
/-- DBG_ACC_WRITE (R535). -/
def execDbgAccWrite (a : BitVec 24) (w : BitVec 32) (s : State) : Host.Outcome State Fault Refusal := .next (s.dbgWrite a.toNat w)

end Sys2Proof.Machine
end

