-- ==== Sys2Proof/Machine/Edge.lean ====
section
/-! DEFINITION. The tick edge: the actions of R39 in their order, then the bore patch, the state changes of the past tick, the
reactions due and the commands pending (R40, R44, R45, R94, R602). -/

namespace Sys2Proof.Machine

/-! ### Overblow (R44, R45) -/

/-- The axes whose results of the past tick are not committed. -/
def State.overblown (s : State) : List (Fin 12) := allAxes.filter (fun n => s.role n != 0 && !(s.axes[n]).ctl.committed)

/-- Axis n has overblown: its staged results are discarded and counted; the second edge in a row logs 0x0701. -/
def State.overblowOne (s : State) (n : Fin 12) : State :=
  let k := (s.axes[n]).ctl.overRun + 1
  let s1 := (s.onAx n (fun a => { a with ctl := { a.ctl with work := Ctl.discard a.ctl.now a.ctl.work, overRun := k } })).bump
    (axBase n + AX.OVBCNT)
  if k = 2 then s1.log 0x0701 n 0 (.axis n) else s1

/-- The overblow check of an edge (R39 step 1). -/
def State.overblow (s : State) : State :=
  let l := s.overblown
  let s1 := overList (allAxes.filter (fun n => !l.contains n)) (fun s n =>
    s.onAx n (fun a => { a with ctl := { a.ctl with overRun := 0 } })) s
  let s2 := overList l (fun s n => s.overblowOne n) s1
  let s3 := { s2 with seq := { s2.seq with overAny := !l.isEmpty } }
  if l.isEmpty then s3 else (s3.bump (timA TIM.OVBTOT)).life 9

/-- The results of the tick that begins start from the control state as its edge leaves it; no axis has committed in it. -/
def State.tickBegins (s : State) : State :=
  overList allAxes (fun s n => s.onAx n (fun a => { a with ctl := { a.ctl with
    now := a.ctl.work, committed := s.bore.newGrid || s.stage.halt } })) s

/-! ### The actions of R39 -/

/-- The committed duties of axis n enter its units (R39 step 3); the first ones after ENERGIZE start the units, unless a self-check
of one of their comparators holds them back (R214, R386). -/
def State.dutiesIn (s : State) (n : Fin 12) : State :=
  let r := s.recd n
  let start := s.energised n && !(s.mot n).toFault
  overList (List.finRange 4) (fun s (e : Fin 4) =>
    let l := r.endUnits e
    let tested := l.any (fun u => s.unitTested u)
    overList l (fun s u => s.onUnit u (fun x => { x with duty := (s.ctl n).duty[e], on := x.on || (start && !tested) })) s) s

/-- The units close their tick, and the duties of the axes that have committed come into force (R39 step 3, R44). -/
def State.pwmEdge (s : State) (late : List (Fin 12)) : State :=
  let s1 := overList (List.range 48) (fun s u => s.unitEdge u) s
  if s.stage.halt then s1
  else overList (allAxes.filter (fun n => s.isPower n && !late.contains n)) (fun s n => s.dutiesIn n) s1

/-- The averages and the applied voltages of the past tick enter the current loops, once VM has its reading of the tick (R129, R162). -/
def State.samplesEdge (s : State) : State :=
  overList (allAxes.filter (fun n => s.isPower n)) (fun s n => (s.measEdge n).voltEdge n) s

/-- The snapshot of position and velocity (R39 step 6, R88). -/
def State.snapshot (s : State) (n : Fin 12) : State :=
  let m := s.mot n
  (s.onCtl n (fun c => { c with velPrev := m.snapVel.toInt })).onMot n (fun m => { m with
    prevPos := m.snapPos, snapPos := BitVec.ofInt 48 m.ipos, snapVel := BitVec.ofInt 40 m.ivel })

/-- Device time reaches the grid point that the edge waits for (R36). -/
def State.reachGrid (s : State) : State :=
  if s.edgeDue then s
  else s.onTim (fun t => { t with time := BitVec.ofNat 112 (t.gridH * 2 ^ 47) })

/-- The actions of R39 in their order; `late` are the axes that have overblown, `bnd` says that the edge is a cycle boundary. A time
step moves device time after TIM.TEDGE has taken it. DESIGN CHOICE (log 48): R32 does not say which of the two times it holds. -/
def State.edgeActions (s : State) (late : List (Fin 12)) (bnd : Bool) : State :=
  let s1 := (if s.stage.halt then s else s.overblow).takeWrites
  let s2 := overList (List.finRange 24) (fun s (i : Fin 24) => s.modEdge i) s1
  let s3 := s2.pwmEdge late
  let s4 := (overList (List.finRange 2) (fun s (c : Fin 2) => s.adcWrap c) s3).vmEdge.samplesEdge
  let s5 := overList (List.finRange 8) (fun s (p : Fin 8) => (s.portEdge p).frcPublish p) s4
  let s6 := (overList allAxes (fun s n => s.snapshot n) s5).laneEdge
  let s7 := if bnd then s6.boundary else s6
  s7.recordEdge.timeStep

/-! ### What follows them -/

/-- The power estimate of the tick, and the governor's step after 64 of them (R246). -/
def State.governorEdge (s : State) : State :=
  let s1 := s.powerEdge
  let s2 := if 64 ≤ s1.stage.pCnt then s1.governorStep else s1
  s2.onStage (fun t => { t with switched := Vector.ofFn (fun u : Fin 48 => s.switching u) })

/-- The angle sources and the burst of axis n (R171, R177). -/
def State.sensingEdge (s : State) (n : Fin 12) (late : Bool) : State :=
  if s.isPower n then (s.angleEdge n).burstEdge n late else s

/-- The reactions due act on every axis, and are spent (R94, R483). -/
def State.reactions (s : State) : State :=
  (overList allAxes (fun s n => s.react n) s).onFlt (fun f => { f with due := [] })

/-- A pending image, whose preload is in use at once, then state changes, reactions and commands in the order of R94 and R485, with the stops and retracts that the
edge finds (R602, R604). -/
def State.edgeOrders (s : State) : State :=
  let s1 := overList allAxes (fun s n => (s.flushSt n).takeSoft n) s.imageEdge.takeWrites
  let s2 := ((overList allAxes (fun s n => s.identTrip n) s1.inputsEdge).toffEdge).haltEdge
  let hard := allAxes.filter (fun n => decide (3 ≤ s2.dueLevel n))
  let s3 := s2.reactions.touchEdge hard
  let s4 := overList allAxes (fun s n => (((s.plugEdge n).enableExit n).retractEdge n).homePhase n) s3
  let s5 := overList allAxes (fun s n => (s.homeUnobs n).axisCmdEdge n) s4
  overList (List.finRange 8) (fun s (m : Fin 8) => s.frcEdge m) s5

/-- What the axis engine of axis n does at an edge, after its command: yield, identification, limits committed in flight, following,
current level and frame, bursts and probes, and what reads as frozen (R101, R107, R110, R116, R136, R137, R139, R146, R152, R177,
R399, R405). -/
def State.engineEdge (s : State) (n : Fin 12) (late bnd : Bool) : State :=
  let s1 := (((s.yieldEdge n (!late)).identEdge n).replanAt n).limitBehind n
  let s2 := s1.reanchorAt n
  let s3 := ((if bnd then s2.tableStart n else s2).tableDone n).followTarget n
  if s3.isPower n then
    (((((((s3.levelEdge n).autogain n).frameEdge n).burstStart n).probeEdge n).probeStart n).frozenEdge n).aerrEdge n
  else s3

/-- The end of an edge: warnings, slots, outputs, causes 58 and 59, and the reserve of the new tick (R42, R261, R378, R382, R460, R527). -/
def State.edgeClose (s : State) (bnd : Bool) : State :=
  let s1 := ((s.warnEdge.cmpTick).outputsEdge bnd).setOuts true
  let s2 := if s1.adcRole 0 == 1 || s1.adcRole 1 == 1 then s1.rd (timA TIM.FOSHARE) else 0
  let s3 := ({ s1 with seq := { s1.seq with failLeft := s2 } } : State).vioClear
  let s4 := s3.irq 58
  let s5 := (if bnd then s4.irq 59 else s4).tickBegins
  if s5.shelfTested then s5.shelfLeave else s5

/-- One tick edge. Without a grid, and in reset, there is none (R76). -/
def State.tickEdge (s : State) : State :=
  if !s.tim.ticking || s.pow.inReset then s
  else
    let s0 := (s.onBore (fun b => { b with newGrid := false })).reachGrid
    let bnd := s0.atBoundary
    let late := if s.stage.halt then [] else s0.overblown
    let s1 := (s0.edgeActions late bnd).governorEdge
    let s2 := overList allAxes (fun s n => s.sensingEdge n (late.contains n)) s1
    let s3 := s2.edgeOrders.queueStepDowns
    let s4 := if s3.stage.halt then s3 else overList allAxes (fun s n => s.engineEdge n (late.contains n) bnd) s3
    s4.edgeClose bnd

/-- TICK_EDGE (R39). -/
def execTickEdge (s : State) : Host.Outcome State Fault Refusal := .next (s.awake fun s => s.tickEdge)

end Sys2Proof.Machine
end

