-- ==== Sys2Proof/Machine/Sessions.lean ====
section
/-! DEFINITION. Acyclic requests as they are executed, one at a time in the order of their arrival (R426, R444-R446, R473-R475, R515). -/

namespace Sys2Proof.Machine

/-- The accessor of a session (R456). -/
def sessAcc (k : Fin 8) : Fin 15 := ⟨2 + k.val, by omega⟩

/-- The request is no longer outstanding. -/
def State.reqDone (s : State) (r : Req) : State :=
  s.onNet (fun n => { n with reqs := if n.reqs.head? = some r then n.reqs.tail else n.reqs })

/-- The lowest free session (R444). -/
def State.freeSession (s : State) : Option (Fin 8) := (List.finRange 8).find? (fun (k : Fin 8) => !s.sessOpen k)

/-- The session key of R473. -/
def State.sessionKey (s : State) (key : BitVec 128) (nc nd : List Byte) (client k gen : Nat) : BitVec 128 :=
  BitVec.ofNat 128 (beNat (cmac (keyBytes key)
    (beBytes 2 0x4B53 ++ nc ++ nd ++ beBytes 2 (s.rd (netA NET.ADDR)) ++ beBytes 3 client ++ beBytes 1 k ++ beBytes 1 gen)))

/-- Session k opens for a client (R444, R456, R541). -/
def State.openSession (s : State) (k : Fin 8) (client : Nat) (key : Option (BitVec 128)) (gen : Nat) : State :=
  let b := netsBase k
  (((s.wr (b + NETS.SSTAT) (32768 + (if key.isSome then 16384 else 0) + gen)).wr (b + NETS.SCLI) client).onNet (fun n =>
    { n with sess := n.sess.set k { Sess.start with key := key } })).freshAcc (sessAcc k)

/-- An OPEN is executed (R444, R473): authentication for world 1, the lowest free session, and the answer. -/
def State.execOpen (s : State) (r : Req) : State :=
  let world := byteAt r.data 3
  let client := beNat (r.data.take 3) % 2 ^ 21
  if 1 < world then s.replyStatus r.src r.echo Status.range.code none noSess
  else if world = 1 ∧ !r.tagOk then (s.replyStatus r.src r.echo Status.world.code none noSess).authFail 0xF0 0xFF
  else match s.freeSession with
  | none => (s.replyStatus r.src r.echo Status.full.code none noSess).fullCount
  | some k =>
    let gen := (s.fld (netsBase k + NETS.SSTAT) 7 0 + 1) % 256
    let echo := beBytes 1 gen ++ beBytes 1 k ++ (r.echo.drop 2) ++ beBytes 1 0 ++ beBytes 2 0
    match if world = 1 then s.wld.dkey else none with
    | none => (s.openSession k client none gen).reply r.src echo none k
    | some dk =>
      let x := s.free 64
      let nd := beBytes 8 x.1.toNat
      let ks := x.2.sessionKey dk ((r.data.drop 4).take 8) nd client k gen
      (x.2.openSession k client (some ks) gen).reply r.src (echo ++ nd) (some ks) k

/-- The words of a WRITE request. -/
def reqWords : Nat → List Byte → List (BitVec 32)
  | 0, _ => []
  | k + 1, l => BitVec.ofNat 32 (beNat (l.take 4)) :: reqWords k (l.drop 4)

/-- What a READ or WRITE request does to its words (R515), as a burst with the identity of its session. -/
def State.reqBurst (s : State) (k : Fin 8) (r : Req) : Burst :=
  if r.n = 0 ∨ (r.op = 0x02 ∧ r.data.length < 4 * r.n) then { Burst.begin s with first := some .range }
  else s.header (sessAcc k) r.addr (if r.op = 0x02 then burstWrite (sessAcc k) (reqWords r.n r.data) r.addr else burstRead (sessAcc k) r.n r.addr)

/-- The reply of a session leaves, and is kept in its cache (R445, R446); none where the session has closed meanwhile (R444). -/
def State.answer (s : State) (k : Fin 8) (r : Req) (st : Status) (data : List (BitVec 32)) (n : Nat) : State :=
  if !s.sessOpen k ∨ s.fld (netsBase k + NETS.SSTAT) 7 0 ≠ r.gen then s
  else
    let x := s.net.sess[k]
    let p := r.echo ++ beBytes 1 st.code ++ beBytes 2 n ++ (data.map (fun w => beBytes 4 w.toNat)).flatten
    (s.onNet (fun m => { m with sess := m.sess.set k { x with cache := ((r.rid, p) :: x.cache).take 8 } })).reply r.src p x.key k

/-- A READ or WRITE is executed, recorded for its session (R514) and answered; after a software reset nothing more happens (R546). -/
def State.execWords (s : State) (k : Fin 8) (r : Req) : State :=
  let b := s.reqBurst k r
  let st := b.first.getD .done
  if b.soft then b.st.reqDone r
  else
    ((b.st.record_ (sessAcc k) st b.n false).answer k r st (if r.op = 0x01 then b.data.take b.n else []) b.n).reqDone r

/-- A CLOSE is executed (R444): the session closes, and its answer still leaves. -/
def State.execClose (s : State) (k : Fin 8) (r : Req) : State :=
  let key := (s.net.sess[k]).key
  ((s.reqDone r).closeSession k).reply r.src (r.echo ++ beBytes 1 0 ++ beBytes 2 0) key noSess

/-- The oldest request is executed where `f` says that its operation is meant (R446). -/
def State.serve (s : State) (f : Nat → Bool) : State :=
  match s.net.reqs with
  | [] => s
  | r :: _ =>
    if !f r.op then s
    else if r.op = 0x10 then (s.execOpen r).reqDone r
    else if h : r.k < 8 then
      let k : Fin 8 := ⟨r.k, h⟩
      match r.op with
      | 0x01 => s.execWords k r
      | 0x02 => s.execWords k r
      | 0x11 => s.execClose k r
      | 0x12 => (s.answer k r .done [] 0).reqDone r
      | _ => (s.answer k r .unknown [] 0).reqDone r
    else s.reqDone r

/-- A session has had no request for SESSTO milliseconds (R444). -/
def State.sessLapsed (s : State) (k : Fin 8) : Bool :=
  s.sessOpen k && decide (s.rd (netA NET.SESSTO) * 400000 ≤ (s.net.sess[k]).idle)

/-! ### Meanings: the oldest request, where it is of the named operation -/

/-- OPEN_REQUEST (R444, R473). -/
def execOpenRequest (s : State) : Host.Outcome State Fault Refusal := .next (s.awake fun s => s.serve (fun op => op == 0x10))
/-- CLOSE (R444). -/
def execCloseRequest (s : State) : Host.Outcome State Fault Refusal := .next (s.awake fun s => s.serve (fun op => op == 0x11))
/-- NOP (R426): and an operation that R426 does not name, which is answered UNKNOWN without any access as well. -/
def execNopRequest (s : State) : Host.Outcome State Fault Refusal := .next (s.awake fun s => s.serve (fun op => op == 0x12 || !requestOps.contains op))
/-- READ_REQUEST (R515). -/
def execReadRequest (s : State) : Host.Outcome State Fault Refusal := .next (s.awake fun s => s.serve (fun op => op == 0x01))
/-- WRITE_REQUEST (R515). -/
def execWriteRequest (s : State) : Host.Outcome State Fault Refusal := .next (s.awake fun s => s.serve (fun op => op == 0x02))
/-- SESSION_TIMEOUT (R444). -/
def execSessionTimeout (k : Fin 8) (s : State) : Host.Outcome State Fault Refusal := .next (s.awake fun s => if s.sessLapsed k then s.closeSession k else s)

end Sys2Proof.Machine
end

