-- ==== Sys2Proof/Machine/Clock.lean ====
section
/-! DEFINITION. One CORE clock of the part on its own: what `step` does while no command waits. The clock moves device time and
the engines, and puts the rows of the opcode table that fall due in it into the queue, in the order of R602. DESIGN CHOICE (log 3). -/

namespace Sys2Proof.Machine

/-! ### Rows that fall due -/

/-- `i` where `b` holds. -/
def dueIf (b : Bool) (i : Instr) : List Instr := if b then [i] else []

/-- The engine events of axis n (R87, R100, R107, R113, R276, R603). -/
def State.engineDue (s : State) (n : Fin 12) : List Instr :=
  let m := s.mot n
  let boundary := m.segEnds
  let lands := match m.goal with | .land _ => m.planDone | _ => false
  let rests := match m.goal with | .rest | .restAt _ => m.planDone | _ => false
  dueIf boundary (.segmentBoundary n) ++ dueIf lands (.landing n) ++ dueIf rests (.restReached n) ++
    dueIf (s.limitPassed n).isSome (.softLimitReached n) ++ dueIf (s.homeFar n) (.homingDistanceExceeded n) ++
    dueIf (s.stepDue n) (.stepPulse n)

/-- The rows of one item of the fixed schedule, as it ends (R65). -/
def State.taskRows (s : State) (x : SchedItem) : List Instr :=
  if h : x.axis < 12 then
    let n : Fin 12 := ⟨x.axis, h⟩
    match x.task with
    | 0 => [.currentLoop n, .openWinding n, .sharingCriterion n]
    | 1 => [.observer n]
    | 2 => [.stallMonitor n, .stallRaised n]
    | 3 => [.yieldModel n]
    | _ => if hp : (s.recd n).port < 8 then [.demodulation ⟨(s.recd n).port, hp⟩] else []
  else []

/-- The sequencer runs: an image, its grid and no debug halt (R41, R76, R215). -/
def State.sequencing (s : State) : Bool := s.img.active && s.tim.ticking && !s.bore.newGrid && !s.stage.halt

/-- The tasks that end in this clock, the reserve items that have completed, and the axes that may commit, with what their learned values
then show (R42, R43, R65, R134, R167). -/
def State.sequencerDue (s : State) : List Instr × State :=
  if !s.sequencing then ([], s)
  else
    let tasks := (s.img.items.filter (fun x => x.start + x.len == s.tim.clk)).flatMap (fun x => s.taskRows x)
    let again := s.seq.done.flatMap (fun x => if h : x.who < 12 then (if x.kind = 0 then [.observerReinit ⟨x.who, h⟩] else []) else [])
    let s1 : State := { s with seq := { s.seq with done := [] } }
    (tasks ++ again ++ allAxes.flatMap (fun n =>
      if s1.role n != 0 && s1.mayCommit n then [.axisCommit n, .trackerDiverge n, .detentDiverge n, .sblDiverge n] else []), s1)

/-- The divergences that have come about (R148, R204, R212, R384, R419). -/
def State.divergeDue (s : State) : List Instr :=
  (List.finRange 48).flatMap (fun (u : Fin 48) => dueIf (s.dtDiverged u) (.dtDiverge u) ++ dueIf (s.unit u).dll.diverged (.dllDiverge u)) ++
  (List.finRange 101).flatMap (fun (c : Fin 101) => dueIf (s.azDiverged c) (.azDiverge c)) ++
  (List.finRange 2).flatMap (fun (p : Fin 2) => dueIf (s.eqDiverged p) (.eqDiverge p))

/-- The row of the oldest request (R426, R446). -/
def State.requestDue (s : State) : List Instr :=
  match s.net.reqs with
  | [] => []
  | r :: _ => [match r.op with | 0x01 => .readRequest | 0x02 => .writeRequest | 0x10 => .openRequest | 0x11 => .closeRequest | _ => .nopRequest]

/-- What the intervals and receipt timeouts of 802.1AS bring (R23). Pdelay runs at a quarter of a second until every port that is up is asCapable.
DESIGN CHOICE (log 54): one interval serves both ports. -/
def State.ptpDue (s : State) : List Instr :=
  let on (k : Nat) : Bool := s.pow.relClk % k == 0
  let slow := (List.finRange 2).all (fun n => !s.portUp n || s.tim.asCap[n])
  dueIf (on (logClocks (s.fld (timA TIM.PTPCFG) 3 0))) (.syncInterval 0) ++ dueIf (on 400000000) (.syncInterval 1) ++
  dueIf (on (if slow then logClocks (s.fld (timA TIM.PTPCFG) 7 4) else 100000000)) (.syncInterval 2) ++
  dueIf (s.tim.syncLeft == some 0) .syncReceiptTimeout ++
  (List.finRange 2).flatMap (fun (n : Fin 2) =>
    if s.tim.ptp[n].annLeft == some 0 then
      let t := s.onPtp n (fun x => { x with ann := none })
      [.announceReceiptTimeout n t.bmcaGm (t.bmcaRole 0) (t.bmcaRole 1)]
    else [])

/-- What the timers of the part bring (R33, R240, R266, R435, R436, R440, R444, R494, R496, R550, R565); `disc` the torque-off inputs have
differed for too long. -/
def State.timersDue (s : State) (disc : Bool) : List Instr :=
  dueIf disc .toffDiscrepancy ++
  dueIf (s.pins.gpLeft == some 0) (.resolveIntervalEnd true) ++ dueIf (s.pins.dedLeft == some 0) (.resolveIntervalEnd false) ++
  dueIf (s.tim.slewing && s.tim.slew == 0) .slewComplete ++
  dueIf (s.net.built.isSome && s.net.txLeft == 0) .cyclicTransmission ++
  dueIf (s.claimWaited && decide (s.net.claims < 3)) .claimResend ++ dueIf (s.claimWaited && decide (3 ≤ s.net.claims)) .claimConfirm ++
  dueIf s.requestWaited .requestRetry ++
  s.ptpDue ++
  (List.finRange 8).flatMap (fun (k : Fin 8) => dueIf (s.sessLapsed k) (.sessionTimeout k)) ++
  dueIf (s.pow.relClk % 32 == 0) .scrub ++ dueIf (s.pow.relClk % 400000000 == 0) .lifetimeSecond ++
  dueIf (s.pow.clearing && s.pow.relClk == 290144) .pathMemoryClearDone ++
  dueIf (match s.pow.shelf with | .leaving 0 => true | _ => false) .shelfDisablePorts

/-! ### The clock -/

/-- The timers of one CORE clock: the map and the token, power, sessions, the built frame, the software reset and the shelf entry (R440, R444, R546, R565). -/
def State.powerClock (s : State) : State :=
  let p := s.pow
  let s1 := ((s.newClock.wldClock).onPow (fun p => { p with
    relClk := p.relClk + 1, softDue := p.softDue.map (· - 1),
    shelf := match p.shelf with | .leaving k => .leaving (k - 1) | x => x })).onNet (fun x => { x with
      txLeft := x.txLeft - 1, claimClk := x.claimClk + 1, sess := x.sess.map (fun y => { y with idle := y.idle + 1 }) })
  if p.relClk < 20000 then s1 else s1.timeClock.receiptClock

/-- The STEP inputs of every axis take one CORE clock; their qualified edges are rows of this clock (R112). -/
def State.stepInputs (s : State) : List Instr × State :=
  let t := overList allAxes (fun s n => s.stepFilter n) s
  allAxes.foldl (fun (x : List Instr × State) n => let r := s.stepInDue n x.2; (x.1 ++ r.1, r.2)) ([], t)

/-- Clocks 1 and 64 of a tick set velocities and plans, and the rate multipliers take one clock (R87, R93, R110); none in a debug halt. -/
def State.engineClock (s : State) : State :=
  if s.stage.halt then s
  else overList allAxes (fun s n => ((if s.tim.clk = 1 then s.track n else s).clockAxis n).onFol n Follow.clock) s

/-- Without tick edges an interval of R460 ends at each whole multiple of 20 µs of device time. -/
def State.vioClock (s : State) (before : Nat) : State :=
  if !s.tim.ticking && s.tim.half / 40000 != before / 40000 then s.vioClear else s

/-- One CORE clock out of reset: the hardware of the clock, then the rows that fall due in it, the tick edge after them and the
words of sessions after the edge (R602). Clock 0 of a tick serves no reserve item (R42, R46). -/
def State.runClock (s : State) : State :=
  let s1 := (s.powerClock).engineClock
  let s2 := if s1.sequencing && !s1.edgeDue then s1.serveReserve else s1
  let s3 := ((s2.pinsClock.frcClock.modClock).convClock.cmpClock).excClock.vioClock s.tim.half
  let (s4, disc) := s3.tripClock.gateClock.tripWait.toffClock
  let (steps, s4) := s4.stepInputs
  let (rows, s5) := s4.sequencerDue
  let due := allAxes.flatMap (fun n => s5.engineDue n) ++ steps ++ rows ++ s5.divergeDue ++ s5.timersDue disc ++ dueIf s5.edgeDue .tickEdge ++ s5.requestDue
  { s5 with pending := s5.pending ++ due }

/-- One CORE clock with no command waiting. In reset and in the shelf state the part stands still; the reset after a lost strobe and a
software reset begin, and a shelf entry without tick edges goes on, in the clock in which they are due (R216, R546, R557, R565, R566). -/
def State.idle (s : State) : State :=
  if s.pow.inReset ∨ s.pow.shelf = .shelf then s
  else if s.stage.strobeLost then s.enterReset 12 false false
  else if s.pow.softDue = some 0 then s.enterReset 11 false false
  else if s.shelfTested ∧ !s.tim.ticking then s.shelfLeave
  else s.runClock

end Sys2Proof.Machine
end

