-- ==== Sys2Proof/Machine/Dispatch.lean ====
section
/-! DEFINITION. One arm per command: each calls that command's meaning. -/

namespace Sys2Proof.Machine

def exec (i : Instr) (s : State) : Host.Outcome State Fault Refusal :=
  match i with
  | .tickEdge => Sys2Proof.Machine.execTickEdge s
  | .cycleBoundary => Sys2Proof.Machine.execCycleBoundary s
  | .timeTableStart n => Sys2Proof.Machine.execTimeTableStart n s
  | .tableEnd n => Sys2Proof.Machine.execTableEnd n s
  | .syncMsg p theta ts => Sys2Proof.Machine.execSyncMsg p theta ts s
  | .servoLock => Sys2Proof.Machine.execServoLock s
  | .outlierReturn => Sys2Proof.Machine.execOutlierReturn s
  | .servoDiverge => Sys2Proof.Machine.execServoDiverge s
  | .syncReceiptTimeout => Sys2Proof.Machine.execSyncReceiptTimeout s
  | .announceMsg p gm r0 r1 => Sys2Proof.Machine.execAnnounceMsg p gm r0 r1 s
  | .pdelayExchange p delay => Sys2Proof.Machine.execPdelayExchange p delay s
  | .timeStep => Sys2Proof.Machine.execTimeStep s
  | .timRateCommit acc w => Sys2Proof.Machine.execTimRateCommit acc w s
  | .timAdjCommit acc w => Sys2Proof.Machine.execTimAdjCommit acc w s
  | .slewComplete => Sys2Proof.Machine.execSlewComplete s
  | .ptpcfgWrite acc w => Sys2Proof.Machine.execPtpcfgWrite acc w s
  | .ovbclr acc w => Sys2Proof.Machine.execOvbclr acc w s
  | .openBuf acc arg => Sys2Proof.Machine.execOpenBuf acc arg s
  | .feed acc mask data => Sys2Proof.Machine.execFeed acc mask data s
  | .verifyImage acc arg => Sys2Proof.Machine.execVerifyImage acc arg s
  | .verifyComplete => Sys2Proof.Machine.execVerifyComplete s
  | .applyImage acc arg => Sys2Proof.Machine.execApplyImage acc arg s
  | .abortLoad acc arg => Sys2Proof.Machine.execAbortLoad acc arg s
  | .programKey acc arg => Sys2Proof.Machine.execProgramKey acc arg s
  | .revokeKey acc arg => Sys2Proof.Machine.execRevokeKey acc arg s
  | .fullImageApply => Sys2Proof.Machine.execFullImageApply s
  | .patchApply => Sys2Proof.Machine.execPatchApply s
  | .bootLoad bytes alt => Sys2Proof.Machine.execBootLoad bytes alt s
  | .energize n acc arg => Sys2Proof.Machine.execEnergize n acc arg s
  | .muteAxis n acc arg => Sys2Proof.Machine.execMuteAxis n acc arg s
  | .moveAbs n acc arg => Sys2Proof.Machine.execMoveAbs n acc arg s
  | .moveRel n acc arg => Sys2Proof.Machine.execMoveRel n acc arg s
  | .jogVel n acc arg => Sys2Proof.Machine.execJogVel n acc arg s
  | .followCyclic n acc arg => Sys2Proof.Machine.execFollowCyclic n acc arg s
  | .followStep n acc arg => Sys2Proof.Machine.execFollowStep n acc arg s
  | .gear n acc arg => Sys2Proof.Machine.execGear n acc arg s
  | .tableCheckDone n => Sys2Proof.Machine.execTableCheckDone n s
  | .stopAxis n acc arg => Sys2Proof.Machine.execStopAxis n acc arg s
  | .resumeMove n acc arg => Sys2Proof.Machine.execResumeMove n acc arg s
  | .abandonRem n acc arg => Sys2Proof.Machine.execAbandonRem n acc arg s
  | .homeAxis n acc arg => Sys2Proof.Machine.execHomeAxis n acc arg s
  | .yieldEnter n acc arg => Sys2Proof.Machine.execYieldEnter n acc arg s
  | .yieldExit n acc arg => Sys2Proof.Machine.execYieldExit n acc arg s
  | .identifyAxis n acc arg => Sys2Proof.Machine.execIdentifyAxis n acc arg s
  | .clearFault n acc arg => Sys2Proof.Machine.execClearFault n acc arg s
  | .replan n => Sys2Proof.Machine.execReplan n s
  | .segmentBoundary n => Sys2Proof.Machine.execSegmentBoundary n s
  | .landing n => Sys2Proof.Machine.execLanding n s
  | .restReached n => Sys2Proof.Machine.execRestReached n s
  | .softLimitReached n => Sys2Proof.Machine.execSoftLimitReached n s
  | .setposCommit n acc w => Sys2Proof.Machine.execSetposCommit n acc w s
  | .followTrack n => Sys2Proof.Machine.execFollowTrack n s
  | .stepInputEdge n dir => Sys2Proof.Machine.execStepInputEdge n dir s
  | .stepPulse n => Sys2Proof.Machine.execStepPulse n s
  | .currentLoop n => Sys2Proof.Machine.execCurrentLoop n s
  | .openWinding n => Sys2Proof.Machine.execOpenWinding n s
  | .sharingCriterion n => Sys2Proof.Machine.execSharingCriterion n s
  | .axisCommit n => Sys2Proof.Machine.execAxisCommit n s
  | .holdReduction n => Sys2Proof.Machine.execHoldReduction n s
  | .trackerProbe n => Sys2Proof.Machine.execTrackerProbe n s
  | .trackerDiverge n => Sys2Proof.Machine.execTrackerDiverge n s
  | .detentDiverge n => Sys2Proof.Machine.execDetentDiverge n s
  | .observer n => Sys2Proof.Machine.execObserver n s
  | .observerValid n => Sys2Proof.Machine.execObserverValid n s
  | .observerLockLost n => Sys2Proof.Machine.execObserverLockLost n s
  | .observerReinit n => Sys2Proof.Machine.execObserverReinit n s
  | .sensorAlign n => Sys2Proof.Machine.execSensorAlign n s
  | .sensorRecovery n => Sys2Proof.Machine.execSensorRecovery n s
  | .injectionBurst n => Sys2Proof.Machine.execInjectionBurst n s
  | .stallMonitor n => Sys2Proof.Machine.execStallMonitor n s
  | .stallRaised n => Sys2Proof.Machine.execStallRaised n s
  | .sblDiverge n => Sys2Proof.Machine.execSblDiverge n s
  | .yieldModel n => Sys2Proof.Machine.execYieldModel n s
  | .demodulation p => Sys2Proof.Machine.execDemodulation p s
  | .pwmPeriod u own mate held => Sys2Proof.Machine.execPwmPeriod u own mate held s
  | .bootstrapRefresh u => Sys2Proof.Machine.execBootstrapRefresh u s
  | .dtDiverge u => Sys2Proof.Machine.execDtDiverge u s
  | .dllUpdate u ph => Sys2Proof.Machine.execDllUpdate u ph s
  | .dllDiverge u => Sys2Proof.Machine.execDllDiverge u s
  | .debugHalt => Sys2Proof.Machine.execDebugHalt s
  | .debugResume => Sys2Proof.Machine.execDebugResume s
  | .strobeLoss => Sys2Proof.Machine.execStrobeLoss s
  | .tripClear u acc => Sys2Proof.Machine.execTripClear u acc s
  | .legOvercurrent x => Sys2Proof.Machine.execLegOvercurrent x s
  | .hardLimit u on => Sys2Proof.Machine.execHardLimit u on s
  | .shootThroughGuard u why => Sys2Proof.Machine.execShootThroughGuard u why s
  | .vdsTrip x => Sys2Proof.Machine.execVdsTrip x s
  | .bootstrapUndervoltage g mV => Sys2Proof.Machine.execBootstrapUndervoltage g mV s
  | .chargePumpUndervoltage => Sys2Proof.Machine.execChargePumpUndervoltage s
  | .chargePumpReady => Sys2Proof.Machine.execChargePumpReady s
  | .tripInput x => Sys2Proof.Machine.execTripInput x s
  | .groupOvertemperature g => Sys2Proof.Machine.execGroupOvertemperature g s
  | .torqueOff k => Sys2Proof.Machine.execTorqueOff k s
  | .torqueOffRelease k => Sys2Proof.Machine.execTorqueOffRelease k s
  | .toffDiscrepancy => Sys2Proof.Machine.execToffDiscrepancy s
  | .governorStep => Sys2Proof.Machine.execGovernorStep s
  | .inputResolve k high => Sys2Proof.Machine.execInputResolve k high s
  | .resolveIntervalEnd gp => Sys2Proof.Machine.execResolveIntervalEnd gp s
  | .rawEdge p high => Sys2Proof.Machine.execRawEdge p high s
  | .chatterWindowClose p => Sys2Proof.Machine.execChatterWindowClose p s
  | .enablingDiscrepancy => Sys2Proof.Machine.execEnablingDiscrepancy s
  | .homingPhaseStart n => Sys2Proof.Machine.execHomingPhaseStart n s
  | .homingDistanceExceeded n => Sys2Proof.Machine.execHomingDistanceExceeded n s
  | .homingComplete n => Sys2Proof.Machine.execHomingComplete n s
  | .excitationStart d => Sys2Proof.Machine.execExcitationStart d s
  | .excitationSettled d iref iph => Sys2Proof.Machine.execExcitationSettled d iref iph s
  | .excitationOpen d => Sys2Proof.Machine.execExcitationOpen d s
  | .excitationOpenClear d iamp => Sys2Proof.Machine.execExcitationOpenClear d iamp s
  | .excitationShort d low => Sys2Proof.Machine.execExcitationShort d low s
  | .shortClear d acc => Sys2Proof.Machine.execShortClear d acc s
  | .slotBoundary p amp mSin mCos cSin cCos => Sys2Proof.Machine.execSlotBoundary p amp mSin mCos cSin cCos s
  | .portRecovery p => Sys2Proof.Machine.execPortRecovery p s
  | .autoReset m => Sys2Proof.Machine.execAutoReset m s
  | .touchSet m => Sys2Proof.Machine.execTouchSet m s
  | .touchRelease m => Sys2Proof.Machine.execTouchRelease m s
  | .forceReset m acc arg => Sys2Proof.Machine.execForceReset m acc arg s
  | .forceRange m acc arg => Sys2Proof.Machine.execForceRange m acc arg s
  | .closeInterval k iv => Sys2Proof.Machine.execCloseInterval k iv s
  | .modulatorFail k why => Sys2Proof.Machine.execModulatorFail k why s
  | .sarConversion c x => Sys2Proof.Machine.execSarConversion c x s
  | .urgentConversion c x => Sys2Proof.Machine.execUrgentConversion c x s
  | .urgentCommand c acc arg => Sys2Proof.Machine.execUrgentCommand c acc arg s
  | .recheckAdc c acc arg => Sys2Proof.Machine.execRecheckAdc c acc arg s
  | .recheckComplete c ok => Sys2Proof.Machine.execRecheckComplete c ok s
  | .offlineAdc c acc arg => Sys2Proof.Machine.execOfflineAdc c acc arg s
  | .modulatorRestart k acc => Sys2Proof.Machine.execModulatorRestart k acc s
  | .modulatorCountClear k acc => Sys2Proof.Machine.execModulatorCountClear k acc s
  | .supplyWindow k isOver => Sys2Proof.Machine.execSupplyWindow k isOver s
  | .dieOvertemperature => Sys2Proof.Machine.execDieOvertemperature s
  | .cmpEdge m rise => Sys2Proof.Machine.execCmpEdge m rise s
  | .wakeInput k on => Sys2Proof.Machine.execWakeInput k on s
  | .autozeroSample c o => Sys2Proof.Machine.execAutozeroSample c o s
  | .azDiverge c => Sys2Proof.Machine.execAzDiverge c s
  | .selfCheck c result => Sys2Proof.Machine.execSelfCheck c result s
  | .selftest acc arg => Sys2Proof.Machine.execSelftest acc arg s
  | .touchRetract n => Sys2Proof.Machine.execTouchRetract n s
  | .continuityProbe n a b => Sys2Proof.Machine.execContinuityProbe n a b s
  | .unplug n => Sys2Proof.Machine.execUnplug n s
  | .replug n => Sys2Proof.Machine.execReplug n s
  | .hotplugDisable n => Sys2Proof.Machine.execHotplugDisable n s
  | .identifyComplete n a b => Sys2Proof.Machine.execIdentifyComplete n a b s
  | .acceptMotor n acc arg => Sys2Proof.Machine.execAcceptMotor n acc arg s
  | .clrcnt n acc arg => Sys2Proof.Machine.execClrcnt n acc arg s
  | .linkUp p ok => Sys2Proof.Machine.execLinkUp p ok s
  | .linkDown p cause rf => Sys2Proof.Machine.execLinkDown p cause rf s
  | .eqAcquireStep p => Sys2Proof.Machine.execEqAcquireStep p s
  | .eqUpdate p s1 s2 sb errs => Sys2Proof.Machine.execEqUpdate p s1 s2 sb errs s
  | .eqDiverge p => Sys2Proof.Machine.execEqDiverge p s
  | .frameReceive p bytes fcs => Sys2Proof.Machine.execFrameReceive p bytes fcs s
  | .cyclicFrame src cycle items => Sys2Proof.Machine.execCyclicFrame src cycle items s
  | .transmitFrame p => Sys2Proof.Machine.execTransmitFrame p s
  | .openRequest => Sys2Proof.Machine.execOpenRequest s
  | .closeRequest => Sys2Proof.Machine.execCloseRequest s
  | .nopRequest => Sys2Proof.Machine.execNopRequest s
  | .readRequest => Sys2Proof.Machine.execReadRequest s
  | .writeRequest => Sys2Proof.Machine.execWriteRequest s
  | .sessionTimeout k => Sys2Proof.Machine.execSessionTimeout k s
  | .claimFrame a mac seq => Sys2Proof.Machine.execClaimFrame a mac seq s
  | .addrDefend a => Sys2Proof.Machine.execAddrDefend a s
  | .addrRequest mac => Sys2Proof.Machine.execAddrRequest mac s
  | .addrOffer a mac => Sys2Proof.Machine.execAddrOffer a mac s
  | .addrLeave a => Sys2Proof.Machine.execAddrLeave a s
  | .claimResend => Sys2Proof.Machine.execClaimResend s
  | .claimConfirm => Sys2Proof.Machine.execClaimConfirm s
  | .requestRetry => Sys2Proof.Machine.execRequestRetry s
  | .subAdd acc arg => Sys2Proof.Machine.execSubAdd acc arg s
  | .subDel acc arg => Sys2Proof.Machine.execSubDel acc arg s
  | .claimAddr acc arg => Sys2Proof.Machine.execClaimAddr acc arg s
  | .releaseAddr acc arg => Sys2Proof.Machine.execReleaseAddr acc arg s
  | .sessClose acc arg => Sys2Proof.Machine.execSessClose acc arg s
  | .uobjCommit acc w => Sys2Proof.Machine.execUobjCommit acc w s
  | .commitMap acc arg => Sys2Proof.Machine.execCommitMap acc arg s
  | .revertMap acc arg => Sys2Proof.Machine.execRevertMap acc arg s
  | .giveToken acc arg => Sys2Proof.Machine.execGiveToken acc arg s
  | .reclaimToken acc arg => Sys2Proof.Machine.execReclaimToken acc arg s
  | .programDkey acc arg => Sys2Proof.Machine.execProgramDkey acc arg s
  | .popHistory acc arg => Sys2Proof.Machine.execPopHistory acc arg s
  | .popSnap acc arg => Sys2Proof.Machine.execPopSnap acc arg s
  | .injEvent acc arg => Sys2Proof.Machine.execInjEvent acc arg s
  | .injEcc acc arg => Sys2Proof.Machine.execInjEcc acc arg s
  | .injSar acc arg => Sys2Proof.Machine.execInjSar acc arg s
  | .injMod acc arg => Sys2Proof.Machine.execInjMod acc arg s
  | .injLink acc arg => Sys2Proof.Machine.execInjLink acc arg s
  | .injPort acc arg => Sys2Proof.Machine.execInjPort acc arg s
  | .lifeClr acc arg => Sys2Proof.Machine.execLifeClr acc arg s
  | .closeTest acc arg => Sys2Proof.Machine.execCloseTest acc arg s
  | .historySnapshot acc => Sys2Proof.Machine.execHistorySnapshot acc s
  | .fselbitWrite acc w => Sys2Proof.Machine.execFselbitWrite acc w s
  | .scrub => Sys2Proof.Machine.execScrub s
  | .lifetimeSecond => Sys2Proof.Machine.execLifetimeSecond s
  | .hostWrite p a words part => Sys2Proof.Machine.execHostWrite p a words part s
  | .hostRead p a count part => Sys2Proof.Machine.execHostRead p a count part s
  | .statusTransaction p op cut => Sys2Proof.Machine.execStatusTransaction p op cut s
  | .snapshotRead acc a => Sys2Proof.Machine.execSnapshotRead acc a s
  | .multiwordCommit acc a w => Sys2Proof.Machine.execMultiwordCommit acc a w s
  | .registerWrite acc a w => Sys2Proof.Machine.execRegisterWrite acc a w s
  | .extest testen => Sys2Proof.Machine.execExtest testen s
  | .samplePreload testen cells => Sys2Proof.Machine.execSamplePreload testen cells s
  | .clampScan testen => Sys2Proof.Machine.execClampScan testen s
  | .highz testen => Sys2Proof.Machine.execHighz testen s
  | .idcode => Sys2Proof.Machine.execIdcode s
  | .bypassScan => Sys2Proof.Machine.execBypassScan s
  | .tapReset => Sys2Proof.Machine.execTapReset s
  | .haltReq on => Sys2Proof.Machine.execHaltReq on s
  | .rstReq on => Sys2Proof.Machine.execRstReq on s
  | .dbgAccRead a => Sys2Proof.Machine.execDbgAccRead a s
  | .dbgAccWrite a w => Sys2Proof.Machine.execDbgAccWrite a w s
  | .softwareReset acc mask data => Sys2Proof.Machine.execSoftwareReset acc mask data s
  | .shelfEntry acc mask data => Sys2Proof.Machine.execShelfEntry acc mask data s
  | .shelfDisablePorts => Sys2Proof.Machine.execShelfDisablePorts s
  | .wakeUp source => Sys2Proof.Machine.execWakeUp source s
  | .powerOnReset => Sys2Proof.Machine.execPowerOnReset s
  | .brownOutReset k => Sys2Proof.Machine.execBrownOutReset k s
  | .pinReset => Sys2Proof.Machine.execPinReset s
  | .resetRelease testen => Sys2Proof.Machine.execResetRelease testen s
  | .pathMemoryClearDone => Sys2Proof.Machine.execPathMemoryClearDone s
  | .announceReceiptTimeout p gm r0 r1 => Sys2Proof.Machine.execAnnounceReceiptTimeout p gm r0 r1 s
  | .syncInterval kind => Sys2Proof.Machine.execSyncInterval kind s
  | .supplyReturn k => Sys2Proof.Machine.execSupplyReturn k s
  | .tripInputRelease k => Sys2Proof.Machine.execTripInputRelease k s
  | .thermalWindowRelease j => Sys2Proof.Machine.execThermalWindowRelease j s
  | .signalDetect p on => Sys2Proof.Machine.execSignalDetect p on s
  | .pcsSync p on => Sys2Proof.Machine.execPcsSync p on s
  | .vaonPowerUp => Sys2Proof.Machine.execVaonPowerUp s
  | .cyclicTransmission => Sys2Proof.Machine.execCyclicTransmission s

end Sys2Proof.Machine
end

