-- ==== Sys2Proof/Safety.lean ====
section
/-! DEFINITION. What a good state of the part is, and what a safe run is. -/

namespace Sys2Proof.Machine

/-- The stored data is in its one form and within the bounds of the spec: the register file and path memory in canonical form, at most
32 entries in the history queue (R490), at most 16 remembered ECC words (R498). -/
structure State.Canon (s : State) : Prop where
  regs : Regs.wf s.regs
  path : Memory.wf s.path
  hist : s.flt.hist.length ≤ 32
  ecc : s.flt.eccLogged.length ≤ 16

/-- A run of `k` steps that neither faults nor is refused, through good states only. -/
def SafeRun : Nat → State → Prop
  | 0, s => s.Canon
  | k + 1, s => s.Canon ∧ ∃ t, step s = .next t ∧ SafeRun k t

end Sys2Proof.Machine
end

