-- ==== Sys2Proof/WellFormed.lean ====
section
/-! DEFINITION. Which operands a command can carry: the bounds that the spec gives to what the outside world supplies. -/

namespace Sys2Proof

/-- A 16-bit two's complement reading. -/
def signed16 (x : Int) : Bool := decide (-32768 ≤ x) && decide (x < 32768)

/-- A result of a 14-bit converter (R344). -/
def signed14 (x : Int) : Bool := decide (-8192 ≤ x) && decide (x < 8192)

/-- The items of a cyclic frame (R425): object indexes 0-63, each at most once and in ascending order, records of 1-32 words. -/
def wellFormedItems (l : List CycItem) : Bool :=
  l.all (fun x => decide (x.obj < 64) && decide (1 ≤ x.words.length) && decide (x.words.length ≤ 32)) &&
  decide ((l.map CycItem.obj).Pairwise (· < ·))

/-- The operands of a command lie within the bounds of the spec: a boot image fits its half of the flash (R74), amplitudes, currents, phases
and means are 16-bit readings (R290, R293, R297), a converter delivers 14 bits (R344), an integration interval is not empty (R336), a
measurement of the equaliser covers 1,024 code groups (R417), a source is a device address (R422), and the items of a frame have
their form (R425). Every other operand is bounded by its type. -/
def wellFormed : Instr → Bool
  | .bootLoad bytes _ => decide (bytes.length ≤ 65536)
  | .pdelayExchange _ delay => match delay with | some d => decide (d < 2 ^ 32) | none => true
  | .excitationSettled _ iref iph => decide (iref < 65536) && decide (iph < 65536)
  | .excitationOpenClear _ iamp => decide (iamp < 65536)
  | .slotBoundary _ amp mSin mCos _ _ => decide (amp < 65536) && signed16 mSin && signed16 mCos
  | .closeInterval _ iv => decide (0 < iv.p)
  | .sarConversion _ x => match x with | some v => signed14 v | none => true
  | .urgentConversion _ x => signed14 x
  | .eqUpdate _ _ _ _ errs => decide (errs ≤ 1024)
  | .cyclicFrame src _ items => decide (src < 32768) && wellFormedItems items
  | .tickEdge | .cycleBoundary | .timeTableStart .. | .tableEnd .. | .syncMsg .. | .servoLock | .outlierReturn | .servoDiverge
  | .syncReceiptTimeout | .announceMsg .. | .timeStep | .timRateCommit .. | .timAdjCommit .. | .slewComplete | .ptpcfgWrite .. | .ovbclr ..
  | .openBuf .. | .feed .. | .verifyImage .. | .verifyComplete | .applyImage .. | .abortLoad .. | .programKey .. | .revokeKey ..
  | .fullImageApply | .patchApply | .energize .. | .muteAxis .. | .moveAbs .. | .moveRel .. | .jogVel .. | .followCyclic ..
  | .followStep .. | .gear .. | .tableCheckDone .. | .stopAxis .. | .resumeMove .. | .abandonRem .. | .homeAxis .. | .yieldEnter ..
  | .yieldExit .. | .identifyAxis .. | .clearFault .. | .replan .. | .segmentBoundary .. | .landing .. | .restReached ..
  | .softLimitReached .. | .setposCommit .. | .followTrack .. | .stepInputEdge .. | .stepPulse .. | .currentLoop .. | .openWinding ..
  | .sharingCriterion .. | .axisCommit .. | .holdReduction .. | .trackerProbe .. | .trackerDiverge .. | .detentDiverge .. | .observer ..
  | .observerValid .. | .observerLockLost .. | .observerReinit .. | .sensorAlign .. | .sensorRecovery .. | .injectionBurst ..
  | .stallMonitor .. | .stallRaised .. | .sblDiverge .. | .yieldModel .. | .demodulation .. | .pwmPeriod .. | .bootstrapRefresh ..
  | .dtDiverge .. | .dllUpdate .. | .dllDiverge .. | .debugHalt | .debugResume | .strobeLoss | .tripClear .. | .legOvercurrent ..
  | .hardLimit .. | .shootThroughGuard .. | .vdsTrip .. | .bootstrapUndervoltage .. | .chargePumpUndervoltage | .chargePumpReady
  | .tripInput .. | .groupOvertemperature .. | .torqueOff .. | .torqueOffRelease .. | .toffDiscrepancy | .governorStep | .inputResolve ..
  | .resolveIntervalEnd .. | .rawEdge .. | .chatterWindowClose .. | .enablingDiscrepancy | .homingPhaseStart ..
  | .homingDistanceExceeded .. | .homingComplete .. | .excitationStart .. | .excitationOpen .. | .excitationShort .. | .shortClear ..
  | .portRecovery .. | .autoReset .. | .touchSet .. | .touchRelease .. | .forceReset .. | .forceRange .. | .modulatorFail ..
  | .urgentCommand .. | .recheckAdc .. | .recheckComplete .. | .offlineAdc .. | .modulatorRestart .. | .modulatorCountClear ..
  | .supplyWindow .. | .dieOvertemperature | .cmpEdge .. | .wakeInput .. | .autozeroSample .. | .azDiverge .. | .selfCheck ..
  | .selftest .. | .touchRetract .. | .continuityProbe .. | .unplug .. | .replug .. | .hotplugDisable .. | .identifyComplete ..
  | .acceptMotor .. | .clrcnt .. | .linkUp .. | .linkDown .. | .eqAcquireStep .. | .eqDiverge .. | .frameReceive .. | .transmitFrame ..
  | .openRequest | .closeRequest | .nopRequest | .readRequest | .writeRequest | .sessionTimeout .. | .claimFrame .. | .addrDefend ..
  | .addrRequest .. | .addrOffer .. | .addrLeave .. | .claimResend | .claimConfirm | .requestRetry | .subAdd .. | .subDel ..
  | .claimAddr .. | .releaseAddr .. | .sessClose .. | .uobjCommit .. | .commitMap .. | .revertMap .. | .giveToken .. | .reclaimToken ..
  | .programDkey .. | .popHistory .. | .popSnap .. | .injEvent .. | .injEcc .. | .injSar .. | .injMod .. | .injLink .. | .injPort ..
  | .lifeClr .. | .closeTest .. | .historySnapshot .. | .fselbitWrite .. | .scrub | .lifetimeSecond | .hostWrite .. | .hostRead ..
  | .statusTransaction .. | .snapshotRead .. | .multiwordCommit .. | .registerWrite .. | .extest .. | .samplePreload .. | .clampScan ..
  | .highz .. | .idcode | .bypassScan | .tapReset | .haltReq .. | .rstReq .. | .dbgAccRead .. | .dbgAccWrite .. | .softwareReset ..
  | .shelfEntry .. | .shelfDisablePorts | .wakeUp .. | .powerOnReset | .brownOutReset .. | .pinReset | .resetRelease ..
  | .pathMemoryClearDone | .announceReceiptTimeout .. | .syncInterval .. | .supplyReturn .. | .tripInputRelease ..
  | .thermalWindowRelease .. | .signalDetect .. | .pcsSync .. | .vaonPowerUp | .cyclicTransmission => true

end Sys2Proof
end

