-- ==== Sys2Proof/Certificates/Slice0/Obligations.lean ====
section
/-! DEFINITION. The statements about the model for the provers. -/

open Sys2Proof Sys2Proof.Machine

/-- For every command c, every queue rest and every state s, step of s with c at the front of its queue is exec of c on s with the queue rest. This is the model's own interface (log 3), not a rule of the spec. -/
def Obligations.StepTakesFront : Prop :=
  ∀ (c : Instr) (rest : List Instr) (s : State), step { s with pending := c :: rest } = exec c { s with pending := rest }

/-- For every state with an empty queue step answers a next state; where the part is in reset or in the shelf state that state is the same one. That an empty queue lets one CORE clock pass is the model's choice (log 3). -/
def Obligations.IdleStepAnswers : Prop :=
  ∀ s : State, s.pending = [] →
    (∃ t, step s = .next t) ∧ (s.pow.inReset = true ∨ s.pow.shelf = .shelf → step s = .next s)

/-- For every command and every state exec answers a next state, and the queue of waiting commands in it is the queue before: a refusal of the part is a status code and a state of its own, never an end of the run. -/
def Obligations.EveryCommandCompletes : Prop :=
  ∀ (c : Instr) (s : State), ∃ t, exec c s = .next t ∧ t.pending = s.pending

/-- The register file and path memory of the state after reset are in canonical form, the history queue holds at most 32 entries and at most 16 ECC words are remembered. -/
def Obligations.ResetStateIsCanon : Prop :=
  State.reset.Canon

/-- For every state s in canonical form (register file and path memory with strictly rising keys and no entry equal to its default, at most 32 history entries (R490), at most 16 remembered ECC words (R498)), if step of s answers a next state then that state is in canonical form. -/
def Obligations.EveryStepKeepsCanon : Prop :=
  ∀ s t : State, s.Canon → step s = .next t → t.Canon

/-- For every state s and every step of it: a key slot that holds a key still holds that key, a revoked slot is still revoked, a programmed device key has its value, and a closed OTP test lock is still closed. The unbound condition ends for good (R58), the device key is programmed once (R472), and the lock cannot be opened again (R503). -/
def Obligations.OtpOnlyGains : Prop :=
  ∀ s t : State, step s = .next t →
    (∀ (k : Fin 4) (x : BitVec 256), s.bore.keys[k] = some x → t.bore.keys[k] = some x) ∧
    (∀ k : Fin 4, s.bore.revoked[k] = true → t.bore.revoked[k] = true) ∧
    (∀ x : BitVec 128, s.wld.dkey = some x → t.wld.dkey = some x) ∧
    (s.pow.lock = true → t.pow.lock = true)

/-- While the part is out of reset and of the shelf state: in ACQUIRE with a run of 8 Syncs within the threshold, SERVO_LOCK enters LOCKED and RATEGOOD takes the rate. In LOCKED with 4 consecutive outliers, OUTLIER_RETURN enters ACQUIRE and integ stays. In ACQUIRE or LOCKED with integ at its limit for 16 Syncs, SERVO_DIVERGE sets TIM.STATUS.div, ignores Syncs until an Announce, enters HOLDOVER and takes the good rate. In ACQUIRE or LOCKED, SYNC_RECEIPT_TIMEOUT enters HOLDOVER, with the good rate if it was LOCKED and the rate unchanged if it was in ACQUIRE. None of them touches path memory, the axes or the load buffer. -/
def Obligations.TimebaseTransitions : Prop :=
  ∀ s : State, s.asleep = false →
    (s.tim.st = .acquire → 8 ≤ s.tim.goodRun → ∃ t, exec .servoLock s = .next t ∧ t.tim.st = .locked ∧
      t.val (timA TIM.RATEGOOD) = s.tim.rate.setWidth 64 ∧ t.path = s.path ∧ t.axes = s.axes ∧ t.bore = s.bore) ∧
    (s.tim.st = .locked → 4 ≤ s.tim.outRun → ∃ t, exec .outlierReturn s = .next t ∧ t.tim.st = .acquire ∧ t.tim.integ = s.tim.integ ∧
      t.path = s.path ∧ t.axes = s.axes ∧ t.bore = s.bore) ∧
    (s.tim.st = .acquire ∨ s.tim.st = .locked → 16 ≤ s.tim.limRun → ∃ t, exec .servoDiverge s = .next t ∧ t.tim.st = .holdover ∧
      t.tim.mute = true ∧ t.tim.rate = s.rateGood ∧ t.bit (timA TIM.STATUS) 10 = true ∧ t.path = s.path ∧ t.axes = s.axes ∧ t.bore = s.bore) ∧
    (s.tim.st = .acquire ∨ s.tim.st = .locked → ∃ t, exec .syncReceiptTimeout s = .next t ∧ t.tim.st = .holdover ∧
      (s.tim.st = .locked → t.tim.rate = s.rateGood) ∧ (s.tim.st = .acquire → t.tim.rate = s.tim.rate) ∧
      t.path = s.path ∧ t.axes = s.axes ∧ t.bore = s.bore)

/-- While the part is out of reset and of the shelf state. A Sync on the slave port with the servo not frozen and a grandmaster heard, in LOCKED with |theta| > 8 x LOCKTHR: fewer than three outliers in a row before it, and the servo skips it (the timebase changes in its count of outliers and its receipt timeout alone, the rest of the part not at all); three before it, and the timebase is in ACQUIRE and the Sync is processed as R28 says: a step is requested where R32 permits one and the offset is beyond the step threshold, and otherwise integ takes the sum of R28 limited to rmax and TIM.OFFS the offset saturated to 32 bits. A peer-delay exchange below 800 ns makes the port asCapable where the one before it was below it too; one that fails or exceeds 800 ns ends it where two in a row before it did; each changes the timebase alone. A delay of exactly 800 ns is neither: the model ends both runs. -/
def Obligations.SyncsAndPdelay : Prop :=
  (∀ (p : Fin 2) (theta : Int) (ts : Nat) (s : State), s.asleep = false → s.tim.role[p] = .slave → s.tim.mute = false → s.servoFrozen p = false →
      s.tim.st = .locked → 8 * s.rd (timA TIM.LOCKTHR) < theta.natAbs →
      (s.tim.outRun < 3 → ∃ t, exec (.syncMsg p theta ts) s = .next t ∧ t = { s with tim := t.tim } ∧
        t.tim = { s.tim with outRun := s.tim.outRun + 1, syncLeft := some (3 * ts * 2 / 5) }) ∧
      (s.tim.outRun = 3 → ∃ t, exec (.syncMsg p theta ts) s = .next t ∧ t.tim.st = .acquire ∧
        (if 1000 * s.rd (timA TIM.STEPTHR) < theta.natAbs ∧ s.stepPermitted = true then t.tim.step = some theta ∧ t.tim.integ = s.tim.integ
         else t.tim.integ = BitVec.ofInt 32 (clampI (s.tim.integ.toInt +
            openDiv 102 (openDiv 101 (theta * 2 ^ 40) ts) (2 ^ s.fld (timA TIM.CTRL) 11 8)) (-rMax) rMax) ∧
          t.rdI 32 (timA TIM.OFFS) = satI 32 theta))) ∧
    (∀ (p : Fin 2) (s : State), s.asleep = false →
      (∀ d : Nat, d < 800 → ∃ t, exec (.pdelayExchange p (some d)) s = .next t ∧ t = { s with tim := t.tim } ∧ t.tim.delay[p] = d ∧
        t.tim.pdGood[p] = s.tim.pdGood[p] + 1 ∧ t.tim.pdBad[p] = 0 ∧ t.tim.asCap[p] = (s.tim.asCap[p] || decide (1 ≤ s.tim.pdGood[p]))) ∧
      (∀ x : Option Nat, x = none ∨ (∃ d, x = some d ∧ 800 < d) → ∃ t, exec (.pdelayExchange p x) s = .next t ∧ t = { s with tim := t.tim } ∧
        t.tim.pdGood[p] = 0 ∧ t.tim.pdBad[p] = s.tim.pdBad[p] + 1 ∧ t.tim.asCap[p] = (s.tim.asCap[p] && decide (s.tim.pdBad[p] < 2))) ∧
      (∃ t, exec (.pdelayExchange p (some 800)) s = .next t ∧ t.tim.asCap = s.tim.asCap ∧ t.tim.pdGood[p] = 0 ∧ t.tim.pdBad[p] = 0))

/-- While the part is out of reset and of the shelf state. An ANNOUNCE, and the timeout of one, leave both ports with the roles that the BMCA gives and name the grandmaster; an ANNOUNCE starts the receipt timeout of its port anew at three intervals of 1 s, and the timeout forgets the master of its port; neither touches the tick, device time, the axes or path memory. SYNC_INTERVAL: at a Sync interval each port that is up and master numbers a new Sync, at an Announce interval a new Announce, and at a Pdelay interval each port that is up a new Pdelay_Req with no timestamp of an exchange left; roles, grandmaster and device time stay. -/
def Obligations.MastersAndMessages : Prop :=
  ∀ s : State, s.asleep = false →
    (∀ (p : Fin 2) (gm r0 r1 : Nat),
      (∃ t, exec (.announceMsg p gm r0 r1) s = .next t ∧ t.tim.role = #v[roleOf r0, roleOf r1] ∧ t.tim.gmId = gm ∧
        (t.tim.ptp[p]).annLeft = some 1200000000 ∧ t.tim.tick = s.tim.tick ∧ t.tim.time = s.tim.time ∧ t.axes = s.axes ∧ t.path = s.path) ∧
      (∃ t, exec (.announceReceiptTimeout p gm r0 r1) s = .next t ∧ t.tim.role = #v[roleOf r0, roleOf r1] ∧ t.tim.gmId = gm ∧
        (t.tim.ptp[p]).ann = none ∧ (t.tim.ptp[p]).annLeft = none ∧ t.tim.tick = s.tim.tick ∧ t.tim.time = s.tim.time ∧ t.axes = s.axes ∧
        t.path = s.path)) ∧
    (∀ k : Fin 3, ∃ t, exec (.syncInterval k) s = .next t ∧ t.tim.role = s.tim.role ∧ t.tim.gmId = s.tim.gmId ∧ t.tim.time = s.tim.time ∧
      (∀ n : Fin 2,
        (t.tim.ptp[n]).seqSync = (s.tim.ptp[n]).seqSync + (if k = 0 ∧ s.portUp n = true ∧ s.tim.role[n] = .master then 1 else 0) ∧
        (t.tim.ptp[n]).seqAnn = (s.tim.ptp[n]).seqAnn + (if k = 1 ∧ s.portUp n = true ∧ s.tim.role[n] = .master then 1 else 0) ∧
        (t.tim.ptp[n]).seqPd = (s.tim.ptp[n]).seqPd + (if k = 2 ∧ s.portUp n = true then 1 else 0) ∧
        (k = 2 → s.portUp n = true → (t.tim.ptp[n]).t1 = none ∧ (t.tim.ptp[n]).t2 = none)))

/-- While the part is out of reset and of the shelf state. A Sync on a slave port that is neither muted nor frozen, in ACQUIRE with an offset no larger than the step threshold or in LOCKED with no outlier, leaves the offset saturated to 32 bits in TIM.OFFS. An Announce, and the timeout of one, give both ports their roles and name the grandmaster. A peer-delay exchange below the threshold records the delay and makes the port asCapable once two successive ones were; the third successive one that fails or exceeds the threshold ends it. The exchange changes the timebase alone. -/
def Obligations.ServoAndBestMaster : Prop :=
  (∀ (p : Fin 2) (theta : Int) (ts : Nat) (s : State), s.asleep = false → s.tim.role[p] = .slave → s.tim.mute = false → s.servoFrozen p = false →
      (s.tim.st = .acquire ∧ theta.natAbs ≤ 1000 * s.rd (timA TIM.STEPTHR) ∨ s.tim.st = .locked ∧ theta.natAbs ≤ 8 * s.rd (timA TIM.LOCKTHR)) →
      ∃ t, exec (.syncMsg p theta ts) s = .next t ∧ t.rdI 32 (timA TIM.OFFS) = satI 32 theta) ∧
    (∀ (p : Fin 2) (gm r0 r1 : Nat) (s : State), s.asleep = false →
      (∃ t, exec (.announceMsg p gm r0 r1) s = .next t ∧ t.tim.role = #v[roleOf r0, roleOf r1] ∧ t.tim.gmId = gm) ∧
      (∃ t, exec (.announceReceiptTimeout p gm r0 r1) s = .next t ∧ t.tim.role = #v[roleOf r0, roleOf r1] ∧ t.tim.gmId = gm)) ∧
    (∀ (p : Fin 2) (delay : Option Nat) (s : State), s.asleep = false → ∃ t, exec (.pdelayExchange p delay) s = .next t ∧
      t = { s with tim := t.tim } ∧
      (match delay with
       | some d => t.tim.delay[p] = d ∧
          (if d < 800 then t.tim.asCap[p] = (s.tim.asCap[p] || decide (1 ≤ s.tim.pdGood[p]))
           else if d = 800 then t.tim.asCap[p] = s.tim.asCap[p]
           else t.tim.asCap[p] = (s.tim.asCap[p] && decide (s.tim.pdBad[p] < 2)))
       | none => t.tim.delay = s.tim.delay ∧ t.tim.asCap[p] = (s.tim.asCap[p] && decide (s.tim.pdBad[p] < 2))))

/-- A requested step that is permitted moves device time by its nanoseconds and is spent; one of TIM.ADJ that is no longer permitted becomes a slew of the same size. A slew with nothing left ends. A commit of TIM.RATE (low word staged whole, high word written whole, the access permitted) while the servo is frozen or in FREE or MASTER sets rate and integ to the 32 bits and is refused otherwise. A commit of TIM.ADJ in FREE or MASTER requests a step of the signed 48-bit value where a step is permitted, and otherwise starts a slew of it, which replaces one in progress; in another state it is refused. A refused commit leaves the timebase as it was. None of the four moves an axis, nor the tick counter. -/
def Obligations.TimeMoves : Prop :=
  (∀ (s : State) (d : Int), s.asleep = false → s.tim.step = some d →
      (s.stepPermitted = true → ∃ t, exec .timeStep s = .next t ∧ t.tim.time = s.tim.time + BitVec.ofInt 112 (d * 2 ^ 48) ∧ t.tim.step = none ∧
        t.tim.tick = s.tim.tick ∧ t.tim.stepCycle = true ∧ t = { s with tim := t.tim }) ∧
      (s.stepPermitted = false → s.tim.stepAdj = true → ∃ t, exec .timeStep s = .next t ∧ t.tim.time = s.tim.time ∧ t.tim.step = none ∧
        t.tim.slew = d * 2 ^ 48 ∧ t.tim.slewing = decide (d ≠ 0) ∧ t = { s with tim := t.tim })) ∧
    (∀ s : State, s.asleep = false → s.tim.slew = 0 → ∃ t, exec .slewComplete s = .next t ∧ t.tim.slewing = false ∧ t.tim.time = s.tim.time ∧
      t = { s with tim := t.tim }) ∧
    (∀ (acc : Fin 15) (lo hi : Word) (s : State), s.ready = true → s.pow.shelf ≠ .shelf → s.violationOf acc (timA TIM.RATE + 4) true = none →
      (s.acc[acc]).lostStage.contains (timA TIM.RATE) = false → (s.acc[acc]).stagedFor (timA TIM.RATE) 2 = (0xFFFF, lo.toNat) →
      ∃ t, exec (.timRateCommit acc (0xFFFF#16 ++ hi)) s = .next t ∧ t.axes = s.axes ∧
        t.tim = if s.bit (timA TIM.CTRL) 0 = true ∨ s.tim.st = .free ∨ s.tim.st = .master then { s.tim with rate := hi ++ lo, integ := hi ++ lo }
          else s.tim) ∧
    (∀ (acc : Fin 15) (lo : BitVec 32) (hi : Word) (s : State), s.ready = true → s.pow.shelf ≠ .shelf →
      s.violationOf acc (timA TIM.ADJ + 8) true = none →
      (s.acc[acc]).lostStage.contains (timA TIM.ADJ) = false → (s.acc[acc]).stagedFor (timA TIM.ADJ) 3 = (0xFFFFFFFF, lo.toNat) →
      ∃ t, exec (.timAdjCommit acc (0xFFFF#16 ++ hi)) s = .next t ∧ t.axes = s.axes ∧
        t.tim = if s.tim.st = .free ∨ s.tim.st = .master then
            (if s.stepPermitted = true then { s.tim with step := some (hi ++ lo).toInt, stepAdj := true, slew := 0, slewing := false }
             else { s.tim with step := none, slew := (hi ++ lo).toInt * 2 ^ 48, slewing := decide (hi ++ lo ≠ 0#48) })
          else s.tim)

/-- For an accessor that may write the word of a part that serves accesses. PTPCFG_WRITE under a full mask, with no bit cleared by hardware in this clock (R148): where the log Pdelay interval lies in -2 to 3 and the log Sync interval in -5 to 0, TIM.PTPCFG takes the low byte; otherwise both fields keep their values. OVBCLR under a full mask: a set bit n of 0 to 11 clears AX[n].OVBCNT, bit 15 clears TIM.OVBTOT and TIM.LOADMAX, and bits not set clear nothing; in the CORE clock of a tick edge the increment of that edge prevails (the counter reads 1), and LOADMAX takes the load of the tick. Nothing but these registers changes. -/
def Obligations.TimeRegisters : Prop :=
  ∀ (acc : Fin 15) (d : Word) (s : State), s.ready = true → s.pow.shelf ≠ .shelf →
    (s.violationOf acc (timA TIM.PTPCFG) true = none → s.rd (timA TIM.PTPCFG) < 256 → s.flt.hardClr = [] → ∃ t, exec (.ptpcfgWrite acc (0xFFFF#16 ++ d)) s = .next t ∧
      t = { s with regs := t.regs } ∧
      t.rd (timA TIM.PTPCFG) = (if -2 ≤ (d.extractLsb' 4 4).toInt ∧ (d.extractLsb' 4 4).toInt ≤ 3 ∧ -5 ≤ (d.extractLsb' 0 4).toInt ∧
        (d.extractLsb' 0 4).toInt ≤ 0 then (d.extractLsb' 0 8).toNat else s.rd (timA TIM.PTPCFG)) ∧
      (∀ c, c ≠ timA TIM.PTPCFG → t.val c = s.val c)) ∧
    (s.violationOf acc (timA TIM.OVBCLR) true = none → ∃ t, exec (.ovbclr acc (0xFFFF#16 ++ d)) s = .next t ∧ t = { s with regs := t.regs } ∧
      (∀ n : Fin 12, t.rd (axBase n + AX.OVBCNT) = (if d.getLsbD n = true then
        (if (s.tim.clk = 0 ∧ 0 < s.tim.tick.toNat) ∧ 0 < (s.axes[n]).ctl.overRun then 1 else 0) else s.rd (axBase n + AX.OVBCNT))) ∧
      t.rd (timA TIM.OVBTOT) = (if d.getLsbD 15 = true then (if (s.tim.clk = 0 ∧ 0 < s.tim.tick.toNat) ∧ s.seq.overAny = true then 1 else 0)
        else s.rd (timA TIM.OVBTOT)) ∧
      (d.getLsbD 15 = true → ¬ (s.tim.clk = 0 ∧ 0 < s.tim.tick.toNat) → t.rd (timA TIM.LOADMAX) = 0) ∧
      (d.getLsbD 15 = false → t.rd (timA TIM.LOADMAX) = s.rd (timA TIM.LOADMAX)) ∧
      (∀ c, (∀ n : Fin 12, c ≠ axBase n + AX.OVBCNT) → c ≠ timA TIM.OVBTOT → c ≠ timA TIM.LOADMAX → t.val c = s.val c))

/-- TICK_EDGE with tick edges running, out of reset and of the shelf state: either the edge takes the part into step 2 of the shelf entry, or attention cause 58 is pending, cause 59 too where the grid point is a cycle boundary, and every axis starts its tick from the control state that the edge leaves, none committed in it but in a debug halt or before the first edge of a new grid. CYCLE_BOUNDARY: no received value waits any more, no subscription counts as new or seen, the note of a time step is spent, and the transmission waits its 40 x TXDLY clocks. AXIS_COMMIT with no debug halt of an axis whose fixed work and reserve items are complete: its results are committed and its registers to report are spent; the other axes, path memory and the outputs stay. -/
def Obligations.TickBoundaryAndCommit : Prop :=
  ∀ s : State, s.asleep = false →
    (s.tim.ticking = true → ∃ t, exec .tickEdge s = .next t ∧ (t.pow.shelf = .leaving 40000 ∨
      (t.bit (devA DEV.IRQS_PEND + 12) 10 = true ∧ (s.atBoundary = true → t.bit (devA DEV.IRQS_PEND + 12) 11 = true) ∧
       ∀ n : Fin 12, (t.axes[n]).ctl.now = (t.axes[n]).ctl.work ∧ (t.axes[n]).ctl.committed = (t.bore.newGrid || t.stage.halt)))) ∧
    (∃ t, exec .cycleBoundary s = .next t ∧ t.net.pend = [] ∧ t.net.added = [] ∧ t.net.seen = [] ∧ t.tim.stepCycle = false ∧ t.net.unext = [] ∧
      t.net.txLeft = 40 * t.rd (netA NET.TXDLY)) ∧
    (∀ n : Fin 12, s.stage.halt = false → s.mayCommit n = true → ∃ t, exec (.axisCommit n) s = .next t ∧ t = { s with axes := t.axes, regs := t.regs } ∧
      (t.axes[n]).ctl.committed = true ∧ (t.axes[n]).ctl.now = { (s.axes[n]).ctl.work with rep := [] } ∧ (t.axes[n]).mot = (s.axes[n]).mot ∧
      (∀ m, m ≠ n → t.axes[m] = s.axes[m]))

/-- For a master accessor of a part that serves accesses and is not entering the shelf state. OPEN in EMPTY, OPEN or VERIFIED: buf is OPEN, the buffer is empty, ERRINFO and ERROFS read 0, CMDSTAT reads OPEN, DONE. A feed word with mask 0xFFFF while buf is OPEN and the buffer has room appends bits 7:0 and then bits 15:8, and nothing but the buffer changes. VERIFY in OPEN: buf is VERIFYING for VERIFY and the buffer and every register stay. APPLY in OPEN: buf is VERIFYING for APPLY and the buffer stays. ABORT when buf is not EMPTY: buf is EMPTY, the buffer holds nothing, CMDSTAT reads ABORT, DONE. The axes, path memory and the active image are untouched by all of them. -/
def Obligations.BoreCommands : Prop :=
  ∀ (acc : Fin 15) (s : State), s.ready = true → s.secureAcc acc = true → s.isMaster acc = true → s.pow.shelf = .running →
    (s.bore.buf = .empty ∨ s.bore.buf = .opened ∨ s.bore.buf = .verified → ∃ t, exec (.openBuf acc 0) s = .next t ∧ t.bore.buf = .opened ∧
      t.bore.bytes = [] ∧ t.val (borA BOR.ERRINFO) = 0 ∧ t.val (borA BOR.ERROFS) = 0 ∧ t.val (borA BOR.CMDSTAT) = 0x0100 ∧
      t.axes = s.axes ∧ t.path = s.path ∧ t.img = s.img ∧ t.bore.keys = s.bore.keys) ∧
    (∀ d : BitVec 16, s.bore.buf = .opened → s.bore.bytes.length + 2 ≤ 65536 → ∃ t, exec (.feed acc 0xFFFF d) s = .next t ∧
      t = { s with bore := { s.bore with bytes := s.bore.bytes ++ [d.extractLsb' 0 8, d.extractLsb' 8 8] } }) ∧
    (s.bore.buf = .opened → ∃ t, exec (.verifyImage acc 0) s = .next t ∧ t.bore.buf = .verifying ∧ t.bore.apply = false ∧
      t = { s with bore := t.bore } ∧ t.bore.bytes = s.bore.bytes) ∧
    (s.bore.buf = .opened → ∃ t, exec (.applyImage acc 0) s = .next t ∧ t.bore.buf = .verifying ∧ t.bore.apply = true ∧
      t.bore.bytes = s.bore.bytes ∧ t.axes = s.axes ∧ t.path = s.path ∧ t.img = s.img) ∧
    (s.bore.buf ≠ .empty → ∃ t, exec (.abortLoad acc 0) s = .next t ∧ t.bore.buf = .empty ∧ t.bore.bytes = [] ∧
      t.val (borA BOR.CMDSTAT) = 0x0400 ∧ t.val (borA BOR.PENDING) = 0 ∧ t.axes = s.axes ∧ t.path = s.path ∧ t.img = s.img)

/-- For a master accessor of a part that serves accesses and is not entering the shelf state. With the buffer open, PROGRAM_KEY for slot k of 0-3 takes the hash from the first 32 bytes in the load buffer, the first the most significant, leaves the other slots alone and answers DONE; it is refused with STATE where the slot is already programmed or the buffer holds fewer than 32 bytes, and then no slot changes. REVOKE_KEY sets the revoke bit of the slot named in the argument and no other, answers DONE, and neither command changes the active image. That both are irreversible is the statement OtpOnlyGains. -/
def Obligations.KeySlots : Prop :=
  ∀ (acc : Fin 15) (k : Fin 4) (s : State), s.ready = true → s.secureAcc acc = true → s.isMaster acc = true → s.pow.shelf = .running →
    (s.bore.buf = .opened → 32 ≤ s.bore.bytes.length → s.bore.keys[k] = none →
      ∃ t, exec (.programKey acc (BitVec.ofNat 8 k)) s = .next t ∧ t.bore.keys[k] = some (BitVec.ofNat 256 (beNat (s.bore.bytes.take 32))) ∧
        (∀ j : Fin 4, j ≠ k → t.bore.keys[j] = s.bore.keys[j]) ∧ t.bore.revoked = s.bore.revoked ∧ t.img = s.img ∧
        t.val (borA BOR.CMDSTAT) = 0x1000) ∧
    (s.bore.buf = .opened → s.bore.bytes.length < 32 ∨ s.bore.keys[k] ≠ none →
      ∃ t, exec (.programKey acc (BitVec.ofNat 8 k)) s = .next t ∧ t.bore = s.bore ∧ t.img = s.img ∧ t.val (borA BOR.CMDSTAT) = 0x1002) ∧
    (∃ t, exec (.revokeKey acc (BitVec.ofNat 8 k)) s = .next t ∧ t.bore.revoked[k] = true ∧
        (∀ j : Fin 4, j ≠ k → t.bore.revoked[j] = s.bore.revoked[j]) ∧ t.bore.keys = s.bore.keys ∧ t.img = s.img ∧
        t.val (borA BOR.CMDSTAT) = 0x1100)

/-- Out of reset and of the shelf state. While buf is VERIFYING for VERIFY outside the boot load: where checks 1 to 14 of the buffer pass, buf is VERIFIED and CMDSTAT reads VERIFY, DONE; where check k fails at offset o, buf is OPEN, ERRINFO reads k, ERROFS reads o and CMDSTAT reads VERIFY with the status of check k. The bytes in the buffer, the active image and the axes stay. In every other buf state VERIFY_COMPLETE changes nothing. -/
def Obligations.VerifyEnds : Prop :=
  ∀ s : State, s.asleep = false →
    (s.bore.buf = .verifying → s.bore.boot = false → s.bore.apply = false →
      ∃ t, exec .verifyComplete s = .next t ∧ t.img = s.img ∧ t.axes = s.axes ∧
        (match s.checkImage s.bore.bytes with
         | none => t.bore = { s.bore with buf := .verified } ∧ t.val (borA BOR.CMDSTAT) = 0x0200
         | some (k, o) => t.bore = { s.bore with buf := .opened, affected := [] } ∧
            t.val (borA BOR.ERRINFO) = BitVec.ofNat 64 k ∧ t.val (borA BOR.ERROFS) = BitVec.ofNat 64 o ∧
            t.val (borA BOR.CMDSTAT) = BitVec.ofNat 64 (0x0200 + (checkStatus k).code))) ∧
    (s.bore.buf ≠ .verifying → exec .verifyComplete s = .next s)

/-- Out of reset and of the shelf state. A pending full image with every axis in OFF or MUTE applies: the load buffer is empty after it, and BOR.CMDSTAT reads APPLY, DONE, or for an image of the boot load the load has ended. A pending patch whose affected axes are all in OFF or MUTE applies: the buffer is empty, BOR.PENDING reads 0 and CMDSTAT reads APPLY, DONE; with an affected axis in another state it is refused: ERRINFO reads 15, CMDSTAT APPLY with STATE, the buffer is empty, and image, axes and path memory stay. BOOT_LOAD before the boot load has ended and with no image, the secondary only after the primary, puts the bytes into the buffer, which verifies; image, axes and path memory stay. -/
def Obligations.ImagesApply : Prop :=
  ∀ s : State, s.asleep = false →
    (s.bore.buf = .pending → isPatch s.bore.bytes = false → s.allOff (List.range 12) = true → ∃ t, exec .fullImageApply s = .next t ∧
      t.bore.buf = .empty ∧ t.bore.bytes = [] ∧ (s.bore.boot = false → t.val (borA BOR.CMDSTAT) = 0x0300) ∧ (s.bore.boot = true → t.bore.bootDone = true)) ∧
    (s.bore.buf = .pending → isPatch s.bore.bytes = true →
      (s.allOff s.bore.affected = true → ∃ t, exec .patchApply s = .next t ∧ t.bore.buf = .empty ∧ t.bore.bytes = [] ∧
        t.val (borA BOR.PENDING) = 0 ∧ t.val (borA BOR.CMDSTAT) = 0x0300) ∧
      (s.allOff s.bore.affected = false → ∃ t, exec .patchApply s = .next t ∧ t.bore.buf = .empty ∧ t.bore.bytes = [] ∧
        t.val (borA BOR.ERRINFO) = 15 ∧ t.val (borA BOR.CMDSTAT) = 0x0302 ∧ t.img = s.img ∧ t.axes = s.axes ∧ t.path = s.path)) ∧
    (∀ (bytes : List Byte) (alt : Bool), s.img.active = false → s.bore.bootDone = false → (s.bore.boot = true → s.bore.alt = alt) →
      ∃ t, exec (.bootLoad bytes alt) s = .next t ∧ t = { s with bore := t.bore } ∧ t.bore.buf = .verifying ∧ t.bore.bytes = bytes.take 65536 ∧
        t.bore.boot = true ∧ t.bore.alt = alt ∧ t.bore.apply = false ∧ t.bore.keys = s.bore.keys)

/-- On a part that serves accesses and is not in the shelf state. REVERT of the master: the staged map reads as the active map, which stays. COMMIT of the master, where no image has preloaded a map in this clock and none waits: the active map stays in this CORE clock, and after the next one every block register and the region register read what was staged. GIVE to an open and secure session k, and RECLAIM by HPS, where no move waits: the master is unchanged in this clock, and after the next one the master field of WLD.STATUS names session k, or HPS. PROGRAM_DKEY by HPS as the master with eight staged words and a blank key: the device key takes the staged words, DKEY0 the most significant, the staged words are cleared. Each answers DONE in CMDSTAT. -/
def Obligations.WorldCommands : Prop :=
  ∀ (acc : Fin 15) (s : State), s.ready = true → s.pow.shelf ≠ .shelf →
    (s.secureAcc acc = true → s.isMaster acc = true →
      (∃ t, exec (.revertMap acc 0) s = .next t ∧ t.val (wldA WLD.CMDSTAT) = 0x0200 ∧
        (∀ w : Fin 4, t.val (wldA WLD.SBLK + 4 * w) = s.val (wldA WLD.BLK + 4 * w) ∧ t.val (wldA WLD.BLK + 4 * w) = s.val (wldA WLD.BLK + 4 * w)) ∧
        t.val (wldA WLD.SREG) = s.val (wldA WLD.REG)) ∧
      (s.wld.imageMap = false → s.wld.mapDue = none → s.wld.tokenDue = none → ∃ t, exec (.commitMap acc 0) s = .next t ∧
        t.val (wldA WLD.CMDSTAT) = 0x0100 ∧ (∀ w : Fin 4, t.val (wldA WLD.BLK + 4 * w) = s.val (wldA WLD.BLK + 4 * w)) ∧
        (∀ w : Fin 4, t.wldClock.val (wldA WLD.BLK + 4 * w) = s.val (wldA WLD.SBLK + 4 * w)) ∧ t.wldClock.val (wldA WLD.REG) = s.val (wldA WLD.SREG)) ∧
      (∀ k : Fin 8, s.secureSession k = true → s.wld.mapDue = none → s.wld.tokenDue = none → ∃ t, exec (.giveToken acc (BitVec.ofNat 8 k)) s = .next t ∧
        t.val (wldA WLD.CMDSTAT) = 0x1000 ∧ t.master_ = s.master_ ∧ t.wldClock.master_ = 2 + k)) ∧
    (acc = 1 → s.wld.mapDue = none → s.wld.tokenDue = none → ∃ t, exec (.reclaimToken acc 0) s = .next t ∧ t.val (wldA WLD.CMDSTAT) = 0x1100 ∧
        t.master_ = s.master_ ∧ t.wldClock.master_ = 1) ∧
    (acc = 1 → s.master_ = 1 → s.wld.dkey = none → s.wld.staged = true → ∃ t, exec (.programDkey acc 0) s = .next t ∧
        t.val (wldA WLD.CMDSTAT) = 0x2000 ∧ t.wld.dkey = some (BitVec.ofNat 128 (s.wld.dkw.toList.foldl (fun a w => a * 65536 + (w.getD 0).toNat) 0)) ∧
        t.wld.dkw = Vector.replicate 8 none)

/-- In operation and with no debug halt, on the axis concerned: where a segment has run out, SEGMENT_BOUNDARY puts the next one in force and moves neither pos nor vel. Where the plan toward T is done and no newer plan waits, LANDING sets pos to T exactly, velocity, acceleration and jerk to 0 and at_target, and in MOVE leaves HOLD for the next edge. Where a ramp to rest is done, REST sets velocity, acceleration and jerk to 0, keeps pos, and in STOPPING leaves FAULT (a Glide ramp to a fault), PAUSED (a stop that keeps the distance) or HOLD for the next edge. STATE itself is unchanged until then (R94). Each of the three changes nothing but that axis. -/
def Obligations.PlanEnds : Prop :=
  ∀ (n : Fin 12) (s : State), s.asleep = false → s.stage.halt = false →
    ((s.mot n).segEnds = true → ∃ t, exec (.segmentBoundary n) s = .next t ∧ t = { s with axes := t.axes } ∧
      (∀ m, m ≠ n → t.axes[m] = s.axes[m]) ∧ (t.mot n).segs = (s.mot n).segs.drop 1 ∧ (t.mot n).goal = (s.mot n).goal ∧
      (t.mot n).pos = (s.mot n).pos ∧ (t.mot n).vel = (s.mot n).vel ∧ t.st n = s.st n) ∧
    (∀ x : Int, (s.mot n).goal = .land x → (s.mot n).planDone = true → (s.mot n).req = none →
      ∃ t, exec (.landing n) s = .next t ∧ t = { s with axes := t.axes } ∧ (∀ m, m ≠ n → t.axes[m] = s.axes[m]) ∧
      (t.mot n).pos = BitVec.ofInt 80 (x * 2 ^ 32) ∧ (t.mot n).vel = 0 ∧ (t.mot n).acc = 0 ∧ (t.mot n).jrk = 0 ∧ (t.mot n).segs = [] ∧
      (t.mot n).atTarget = true ∧ t.st n = s.st n ∧ ((s.mot n).eff = .move → (t.mot n).next = some .hold)) ∧
    ((s.mot n).goal = .rest → (s.mot n).planDone = true → ∃ t, exec (.restReached n) s = .next t ∧ t = { s with axes := t.axes } ∧
      (∀ m, m ≠ n → t.axes[m] = s.axes[m]) ∧ (t.mot n).pos = (s.mot n).pos ∧ (t.mot n).vel = 0 ∧ (t.mot n).acc = 0 ∧
      (t.mot n).jrk = 0 ∧ (t.mot n).segs = [] ∧ t.st n = s.st n ∧
      ((s.mot n).eff = .stopping → (t.mot n).next = some (if (s.mot n).toFault then .fault else if (s.mot n).keep then .paused else .hold)))

/-- In operation: REPLAN (no debug halt, no plan waiting), with limits committed in flight in MOVE, makes a plan toward the present target or jog velocity wait for clock 64, with no change of pos and vel; with SDEC committed during a Hold stop it makes the stop wait again. SOFT_LIMIT_REACHED (no debug halt), where a watched limit has been passed, leaves STOPPING for the next edge, drops a waiting plan and keeps pos and vel; where the crossing has not been logged it sets STATUS.sl_hit and, with room in the history, leaves 0x0103 with detail word 1 = 2 and the side in detail word 2. TABLE_CHECK_DONE marks the check of a pending command complete. TIME_TABLE_START of an armed time table, on PSTART or under pnow, clears armed and starts its time at 0. TABLE_END of a single-pass time table whose coordinate has reached L starts a move to its last point. -/
def Obligations.LimitsAndTables : Prop :=
  ∀ (n : Fin 12) (s : State), s.asleep = false →
    (s.stage.halt = false → (s.mot n).req = none →
      ((s.mot n).replan = true → s.st n = .move → ∃ t, exec (.replan n) s = .next t ∧
        (t.mot n).req = some (if (s.mot n).vmode then .jog (s.mot n).target else .target (s.mot n).target) ∧ (t.mot n).replan = false ∧
        (t.mot n).pos = (s.mot n).pos ∧ (t.mot n).vel = (s.mot n).vel) ∧
      ((s.mot n).replan = false → (s.mot n).restart = true → s.st n = .stopping → s.glide n = false → (s.mot n).toFault = false →
        ∃ t, exec (.replan n) s = .next t ∧ (t.mot n).req = some .stop ∧ (t.mot n).restart = false)) ∧
    (∀ side : Nat, s.stage.halt = false → s.limitPassed n = some side → ∃ t, exec (.softLimitReached n) s = .next t ∧
      (t.mot n).next = some .stopping ∧ (t.mot n).req = none ∧ (t.mot n).pos = (s.mot n).pos ∧ (t.mot n).vel = (s.mot n).vel ∧
      ((s.mot n).eff = .follow ∨ (s.mot n).told = false → t.bit (axBase n + AX.STATUS) 7 = true ∧
        (s.pow.inReset = false → s.flt.hist.length < 31 → ∃ x ∈ t.flt.hist, x.code = 0x0103 ∧ x.w6 = 2 ∧ x.w7 = BitVec.ofNat 16 side))) ∧
    (∃ t, exec (.tableCheckDone n) s = .next t ∧ (t.mot n).tableOk = (s.mot n).cmd.isSome ∧ t = { s with axes := t.axes }) ∧
    (s.st n = .follow → (s.fol n).mode = 3 → (s.fol n).armed = true → (s.fol n).newArm = false →
      (s.axb n AX.CFG 4 = true ∨ s.tim.cyc.toNat = s.axr n AX.PSTART) → ∃ t, exec (.timeTableStart n) s = .next t ∧
        (t.fol n).armed = false ∧ (t.fol n).t = 0 ∧ (t.fol n).seg = 0 ∧ t = { s with axes := t.axes }) ∧
    (s.st n = .follow → (s.fol n).mode = 3 → (s.fol n).kind = 2 → (s.fol n).armed = false → (s.fol n).tRep = false →
      s.ptX (s.fol n).slot ((s.fol n).tN - 1) ≤ s.tablePhi n (s.fol n).t → ∃ t, exec (.tableEnd n) s = .next t ∧ t.st n = .move ∧
        (t.mot n).target = (s.fol n).g0 + s.ptY (s.fol n).slot ((s.fol n).tN - 1) ∧ (t.mot n).hasTarget = true ∧
        (t.mot n).pos = (s.mot n).pos)

/-- In operation: FOLLOW_TRACK (no debug halt) in FOLLOW with a target q moving at w and a tick grid sets the velocity that the tracker of R110 gives, with acc 0 and pos kept, takes the lag, and FERR shows the lag saturated to 32 bits. STEP_INPUT_EDGE of an axis that follows its STEP input counts one up or one down, in STEPCNT too, and nothing else changes. STEP_PULSE (no debug halt) of an axis that emits, where pos has crossed one multiple of STEPSZ in the direction of DIR, no pulse is held, and spacing and DIR setup are met, starts a pulse of PW clocks and holds none; where they are not met the pulses are held in BACKLOG up to 65535 and STATUS.stepovr sets; and a held pulse that falls due is emitted and leaves BACKLOG. -/
def Obligations.StepsAndTracking : Prop :=
  ∀ (n : Fin 12) (s : State), s.asleep = false →
    (∀ q w : Int, s.stage.halt = false → (s.fol n).track = some (q, w) → (s.mot n).eff = .follow → s.tpr ≠ 0 →
      ∃ t, exec (.followTrack n) s = .next t ∧
        (t.mot n).vel = BitVec.ofInt 64 (trackVel q w (q - wrapI 80 (q - (s.mot n).pos.toInt)) (s.mot n).vel.toInt (s.limits n) s.tpr) ∧
        (t.mot n).acc = 0 ∧ (t.mot n).pos = (s.mot n).pos ∧ (t.fol n).track = none ∧
        (t.fol n).lag = fdiv (wrapI 80 (q - (s.mot n).pos.toInt)) (2 ^ 32) - fdiv (w * s.tpr) (2 ^ 56) ∧
        t.rdI 32 (axBase n + AX.FERR) = satI 32 (t.lagOf n)) ∧
    (∀ dir : Bool, s.st n = .follow → (s.fol n).mode = 1 → ∃ t, exec (.stepInputEdge n dir) s = .next t ∧
      (t.fol n).counts = (s.fol n).counts + (if dir then 1 else -1) ∧
      t.rdI 32 (axBase n + AX.STEPCNT) = (BitVec.ofInt 32 (s.rdI 32 (axBase n + AX.STEPCNT) + (if dir then 1 else -1))).toInt ∧
      (∀ c, c ≠ axBase n + AX.STEPCNT → t.val c = s.val c) ∧ t.mot n = s.mot n ∧ t = { s with axes := t.axes, regs := t.regs }) ∧
    (s.stage.halt = false → s.stepEmits n = true →
      (s.stepCell n ≠ (s.fol n).outCell → (s.stepCell n - (s.fol n).outCell).natAbs = 1 →
        (s.fol n).outDir = decide (0 < s.stepCell n - (s.fol n).outCell) → s.rd (axBase n + AX.BACKLOG) = 0 →
        2 * s.axr n AX.PW ≤ (s.fol n).outAge → s.axr n AX.DIRSU ≤ (s.fol n).outDirAge → ∃ t, exec (.stepPulse n) s = .next t ∧
          (t.fol n).outAge = 0 ∧ (t.fol n).outHigh = s.axr n AX.PW ∧ (t.fol n).outCell = s.stepCell n ∧ t.rd (axBase n + AX.BACKLOG) = 0 ∧
          t.mot n = s.mot n) ∧
      (s.stepCell n ≠ (s.fol n).outCell → (s.fol n).outAge < 2 * s.axr n AX.PW ∨ (s.fol n).outDirAge < s.axr n AX.DIRSU →
        ∃ t, exec (.stepPulse n) s = .next t ∧ (t.fol n).outAge = (s.fol n).outAge ∧ (t.fol n).outCell = s.stepCell n ∧
          t.rd (axBase n + AX.BACKLOG) = min 65535 (s.rd (axBase n + AX.BACKLOG) + (s.stepCell n - (s.fol n).outCell).natAbs) ∧
          t.bit (axBase n + AX.STATUS) 3 = true ∧ t.mot n = s.mot n) ∧
      (s.stepCell n = (s.fol n).outCell → 0 < s.rd (axBase n + AX.BACKLOG) → 2 * s.axr n AX.PW ≤ (s.fol n).outAge →
        s.axr n AX.DIRSU ≤ (s.fol n).outDirAge → ∃ t, exec (.stepPulse n) s = .next t ∧ (t.fol n).outAge = 0 ∧
          (t.fol n).outHigh = s.axr n AX.PW ∧ t.rd (axBase n + AX.BACKLOG) = s.rd (axBase n + AX.BACKLOG) - 1 ∧ t.mot n = s.mot n))

/-- Judged with the limits in use (judged), of an axis with a role, of an accessor that reaches its block, with argument 0 and a good image: ENERGIZE in OFF or MUTE, with no patch held and torque on, and for a power axis the gains there, the stage ready, no check failed and no identification mismatch held, enters HOLD. MUTE in any other state than UNPLUGGED, FAULT and MUTE, and not in a stop to FAULT, enters MUTE with the rate multiplier still and pos kept; in MUTE nothing changes but the status. CLEAR_FAULT in FAULT, with nothing that locks it and no active source, enters MUTE. IDENTIFY in OFF or MUTE of a power axis with a ready stage enters IDENTIFY with result 1 (running). YIELD_ENTER in HOLD with its option, source, gains and enables enters YIELD and clears YSTAT bits 15 and 14; YIELD_EXIT in YIELD sets YSTAT bit 15. Each leaves its opcode and DONE in CMDSTAT. -/
def Obligations.AxisStateCommands : Prop :=
  ∀ (n : Fin 12) (acc : Fin 15) (s : State), s.asleep = false → let j := s.judged n; j.role n ≠ 0 → j.flt.imageBad = false → j.mayAccess acc n = true →
    ((j.st n = .off ∨ j.st n = .mute) → j.patchHolds n = false → j.bit (fltA FLT.STATUS) 15 = false →
      (j.isPower n = true → j.gainMissing n = false ∧ j.stageReady n = true ∧ j.checkFailed n = false ∧ (j.axb n AX.FPCFG 2 && j.bit (fpstat n) 13) = false) →
      ∃ t, exec (.energize n acc 0) s = .next t ∧ t.st n = .hold ∧ (t.mot n).pos = (s.mot n).pos ∧ t.rd (axBase n + AX.CMDSTAT) = 0x0100) ∧
    (j.st n ≠ .unplugged → j.st n ≠ .fault → j.st n ≠ .mute → (j.mot n).toFault = false → ∃ t, exec (.muteAxis n acc 0) s = .next t ∧ t.st n = .mute ∧
      (t.mot n).vel = 0 ∧ (t.mot n).acc = 0 ∧ (t.mot n).pos = (s.mot n).pos ∧ t.rd (axBase n + AX.CMDSTAT) = 0x0200) ∧
    (j.st n = .mute → ∃ t, exec (.muteAxis n acc 0) s = .next t ∧ t.axes = j.axes ∧ t.rd (axBase n + AX.CMDSTAT) = 0x0200) ∧
    (j.st n = .fault → j.locked n = false → (j.recd n).units.any j.tripActive = false → ∃ t, exec (.clearFault n acc 0) s = .next t ∧ t.st n = .mute ∧
      (t.mot n).vel = 0 ∧ (t.mot n).pos = (s.mot n).pos ∧ t.rd (axBase n + AX.CMDSTAT) = 0x7F00) ∧
    ((j.st n = .off ∨ j.st n = .mute) → j.isPower n = true → j.patchHolds n = false → j.stageReady n = true → j.checkFailed n = false →
      ∃ t, exec (.identifyAxis n acc 0) s = .next t ∧ t.st n = .identify ∧ t.fld (fpstat n) 10 8 = 1 ∧ t.rd (axBase n + AX.CMDSTAT) = 0x5000) ∧
    (j.st n = .hold → j.isPower n = true → j.opt n 3 = true → (j.recd n).ysrc ≠ 0xFF → j.axr n AX.YGAIN ≠ 0 → j.axr n AX.DMAX ≠ 0 → j.axr n AX.YAMAX ≠ 0 →
      j.enMissing n = false → j.yieldValid n = true → j.pendantOn n = false → ∃ t, exec (.yieldEnter n acc 0) s = .next t ∧ t.st n = .yield ∧
        t.bit (ystat n) 15 = false ∧ t.bit (ystat n) 14 = false ∧ (t.mot n).pos = (s.mot n).pos ∧ t.rd (axBase n + AX.CMDSTAT) = 0x4000) ∧
    (j.st n = .yield → ∃ t, exec (.yieldExit n acc 0) s = .next t ∧ t.st n = .yield ∧ t.bit (ystat n) 15 = true ∧ t.axes = j.axes ∧ t.rd (axBase n + AX.CMDSTAT) = 0x4100)

/-- Judged and addressed as in AxisStateCommands: a move in HOLD, MOVE or PAUSED to a representable target x inside the soft limits, with limits there and no switch or pendant against it, enters MOVE with target x, the plan asked for at clock 64, pos and vel as they were; x is what MOVE_ABS aims at, for MOVE_REL the distance TGT from the target of a move to a position in progress and else from pos, for RESUME in PAUSED pos plus the kept distance. JOG_VEL with |JOGV| at most VMAX asks for the velocity JOGV in velocity mode. STOP in MOVE, FOLLOW or HOMING enters STOPPING with the class stop asked for, which keeps the distance as R102 says. ABANDON in PAUSED enters HOLD without remaining distance; in a stop that is not one to FAULT it drops what would be kept. Each leaves its opcode and DONE in CMDSTAT. -/
def Obligations.AxisMotionCommands : Prop :=
  ∀ (n : Fin 12) (acc : Fin 15) (s : State), s.asleep = false → let j := s.judged n; j.role n ≠ 0 → j.flt.imageBad = false → j.mayAccess acc n = true →
    (∀ (arg : Byte) (x : Int), (j.st n).movable = true → j.absTarget n arg.toNat = some x → j.limitsBad n = false → satI 48 x = x →
      j.softBad n (sgn (x - (j.mot n).ipos)) (some x) = false → j.switchBad n (sgn (x - (j.mot n).ipos)) = false → j.pendantOn n = false →
      ∃ t, exec (.moveAbs n acc arg) s = .next t ∧ t.st n = .move ∧ (t.mot n).target = x ∧ (t.mot n).hasTarget = true ∧ (t.mot n).req = some (.target x) ∧
        (t.mot n).pos = (s.mot n).pos ∧ (t.mot n).vel = (s.mot n).vel ∧ t.rd (axBase n + AX.CMDSTAT) = 0x1000) ∧
    (∀ x : Int, (j.st n).movable = true →
      x = (if j.st n = .move ∧ (j.mot n).hasTarget = true ∧ (j.mot n).vmode = false then (j.mot n).target else (j.mot n).ipos) + j.ax48 n AX.TGT →
      j.limitsBad n = false → satI 48 x = x → j.softBad n (sgn (x - (j.mot n).ipos)) (some x) = false → j.switchBad n (sgn (x - (j.mot n).ipos)) = false →
      j.pendantOn n = false → ∃ t, exec (.moveRel n acc 0) s = .next t ∧ t.st n = .move ∧ (t.mot n).target = x ∧ (t.mot n).req = some (.target x) ∧
        (t.mot n).pos = (s.mot n).pos ∧ (t.mot n).vel = (s.mot n).vel ∧ t.rd (axBase n + AX.CMDSTAT) = 0x1100) ∧
    (∀ v : Int, v = j.rdI 40 (axBase n + AX.JOGV) → (j.st n).movable = true → j.limitsBad n = false → v.natAbs ≤ j.axr n AX.VMAX → j.softBad n (sgn v) none = false →
      j.switchBad n (sgn v) = false → j.pendantOn n = false → ∃ t, exec (.jogVel n acc 0) s = .next t ∧ t.st n = .move ∧ (t.mot n).vmode = true ∧
        (t.mot n).hasTarget = false ∧ (t.mot n).req = some (.jog v) ∧ (t.mot n).pos = (s.mot n).pos ∧ (t.mot n).vel = (s.mot n).vel ∧
        t.rd (axBase n + AX.CMDSTAT) = 0x1200) ∧
    (∀ r x : Int, r = (j.mot n).rem.toInt → x = (j.mot n).ipos + r → j.st n = .paused → j.limitsBad n = false → satI 48 x = x →
      (j.slOn n = true → ¬ (j.slMax n < x ∧ 0 < r) ∧ ¬ (x < j.slMin n ∧ r < 0)) → j.switchBad n (sgn r) = false → j.pendantOn n = false →
      ∃ t, exec (.resumeMove n acc 0) s = .next t ∧ t.st n = .move ∧ (t.mot n).target = x ∧ (t.mot n).req = some (.target x) ∧
        (t.mot n).pos = (s.mot n).pos ∧ (t.mot n).rem = 0 ∧ t.rd (axBase n + AX.CMDSTAT) = 0x2100) ∧
    ((j.st n = .move ∨ j.st n = .follow ∨ j.st n = .homing) → ∃ t, exec (.stopAxis n acc 0) s = .next t ∧ t.st n = .stopping ∧ (t.mot n).req = some .stop ∧
      (t.mot n).keep = j.stopKeeps n ∧ (t.mot n).pos = (s.mot n).pos ∧ (t.mot n).vel = (s.mot n).vel ∧ t.rd (axBase n + AX.CMDSTAT) = 0x2000) ∧
    (j.st n = .paused → ∃ t, exec (.abandonRem n acc 0) s = .next t ∧ t.st n = .hold ∧ (t.mot n).rem = 0 ∧ (t.mot n).pos = (s.mot n).pos ∧
      t.rd (axBase n + AX.CMDSTAT) = 0x2200) ∧
    (j.st n = .stopping → (j.mot n).toFault = false → ∃ t, exec (.abandonRem n acc 0) s = .next t ∧ t.st n = .stopping ∧ (t.mot n).keep = false ∧
      (t.mot n).pos = (s.mot n).pos ∧ t.rd (axBase n + AX.CMDSTAT) = 0x2200)

/-- Judged and addressed as in AxisStateCommands, in HOLD with limits there, no limit switch and no pendant: FOLLOW_CYCLIC of a subscription entry in use of three words, FOLLOW_STEP with both pins, and GEAR ratio of another axis with a role that closes no loop and that the world permits, or of such an entry, enter FOLLOW with that mode, source kind and index, from pos and vel as they are, with no remainder. HOME with method 0 (no pulse-out axis; its units exist) completes at once: HOLD, result 2 and the capture pos; with a method 1, 2, 3, 4 or 6 whose switches have pins, with HVSLOW between 1 and HVFAST, it enters HOMING. A SETPOS commit (low words staged whole, high word written whole, access permitted) in OFF or MUTE places pos at the signed 48-bit value with no fraction, drops the remaining distance and at_target and keeps vel; in another state it changes no axis. -/
def Obligations.FollowHomeAndSetpos : Prop :=
  (∀ (n : Fin 12) (acc : Fin 15) (s : State), s.asleep = false → let j := s.judged n; j.role n ≠ 0 → j.flt.imageBad = false → j.mayAccess acc n = true →
      j.st n = .hold → j.limitsBad n = false → j.pendantOn n = false →
      (j.limitOn n 0 = false → j.limitOn n 1 = false →
        (j.axr n AX.GSRC / 16384 = 1 → j.entryOk (j.axr n AX.GSRC % 1024) = true → ∃ t, exec (.followCyclic n acc 0) s = .next t ∧ t.st n = .follow ∧
          (t.fol n).mode = 0 ∧ (t.fol n).kind = 1 ∧ (t.fol n).idx = j.axr n AX.GSRC % 1024 ∧ (t.mot n).pos = (s.mot n).pos ∧ (t.mot n).vel = (s.mot n).vel ∧
          t.rd (axBase n + AX.CMDSTAT) = 0x1300) ∧
        (∀ p q : Fin 24, Machine.fld (j.axr n AX.STEPIN) 12 8 = p → Machine.fld (j.axr n AX.STEPIN) 4 0 = q → j.img.active = true → j.pinCode p = 0x40 →
          j.pinCode q = 0x40 → ∃ t, exec (.followStep n acc 0) s = .next t ∧ t.st n = .follow ∧ (t.fol n).mode = 1 ∧ (t.mot n).pos = (s.mot n).pos ∧
          t.rd (axBase n + AX.CMDSTAT) = 0x1400) ∧
        (∀ m : Fin 12, j.axr n AX.GSRC / 16384 = 0 → j.axr n AX.GSRC % 1024 = m → m ≠ n → j.role m ≠ 0 → j.gearLoop n 12 m = false →
          (j.secureBlock n = true → j.secureBlock m = true) → ∃ t, exec (.gear n acc 0) s = .next t ∧ t.st n = .follow ∧ (t.fol n).mode = 2 ∧
          (t.fol n).kind = 0 ∧ (t.fol n).idx = m ∧ (t.fol n).rem = 0 ∧ (t.mot n).pos = (s.mot n).pos ∧ t.rd (axBase n + AX.CMDSTAT) = 0x1500) ∧
        (j.axr n AX.GSRC / 16384 = 1 → j.entryOk (j.axr n AX.GSRC % 1024) = true → ∃ t, exec (.gear n acc 0) s = .next t ∧ t.st n = .follow ∧
          (t.fol n).mode = 2 ∧ (t.fol n).kind = 1 ∧ (t.fol n).idx = j.axr n AX.GSRC % 1024 ∧ (t.mot n).pos = (s.mot n).pos ∧
          t.rd (axBase n + AX.CMDSTAT) = 0x1500)) ∧
      (j.role n ≠ 3 → (∀ u ∈ (j.recd n).units, u < 48) → ∃ t, exec (.homeAxis n acc 0) s = .next t ∧ t.st n = .hold ∧ t.fld (hmBase n + HM.HSTAT) 15 12 = 2 ∧
        t.rdI 48 (hmBase n + HM.HCAPT) = (BitVec.ofInt 48 (j.mot n).ipos).toInt ∧ t.rd (axBase n + AX.CMDSTAT) = 0x3000) ∧
      (∀ m : Byte, (m = 1 ∨ m = 2 ∨ m = 3 ∨ m = 4 ∨ m = 6) → j.role n ≠ 4 → j.role n ≠ 3 → j.homePinMissing n m.toNat = false →
        j.rd (hmBase n + HM.HVSLOW) ≠ 0 → j.rd (hmBase n + HM.HVSLOW) ≤ j.rd (hmBase n + HM.HVFAST) → j.switchBad n (j.homeFirst n m.toNat) = false →
        ∃ t, exec (.homeAxis n acc m) s = .next t ∧ t.st n = .homing ∧ (t.mot n).pos = (s.mot n).pos ∧ (t.mot n).vel = (s.mot n).vel ∧
          t.rd (axBase n + AX.CMDSTAT) = 0x3000)) ∧
    (∀ (n : Fin 12) (acc : Fin 15) (lo : BitVec 32) (hi : Word) (s : State), s.ready = true → s.pow.shelf ≠ .shelf →
      s.violationOf acc (axBase n + AX.SETPOS + 8) true = none → (s.acc[acc]).lostStage.contains (axBase n + AX.SETPOS) = false →
      (s.acc[acc]).stagedFor (axBase n + AX.SETPOS) 3 = (0xFFFFFFFF, lo.toNat) →
      ∃ t, exec (.setposCommit n acc (0xFFFF#16 ++ hi)) s = .next t ∧
        (s.isOff n = true → (t.mot n).pos = BitVec.ofInt 80 ((hi ++ lo).toInt * 2 ^ 32) ∧ (t.mot n).snapPos = BitVec.ofInt 48 (hi ++ lo).toInt ∧
          (t.mot n).rem = 0 ∧ (t.mot n).atTarget = false ∧ (t.mot n).vel = (s.mot n).vel) ∧
        (s.isOff n = false → t.axes = s.axes))

/-- In operation: CURRENT_LOOP (no debug halt) of an axis whose loop runs forms, from the regulated values of both windings and the references, the voltage vector in the frame of the tick, keeps the predictions and the angle-error integrator, marks the voltage limit, and moves the two integrators, clamped, unless the limiter acts, an average is invalid or a burst runs; the committed state and the motion stand until AXIS_COMMIT. Where the loop does not run it does nothing. OPEN_WINDING logs 0x0105 with detail 0 or 1 and the current of the winding whose criterion comes about in this tick, and 4 for both where hp_en is 0; SHARING_CRITERION logs detail 2 or 3 (history not full, out of reset). HOLD_REDUCTION puts the level, limited to ILIMEFF, into force, and ILIMEFF shows the limit. -/
def Obligations.CurrentLoopAndWatch : Prop :=
  ∀ (n : Fin 12) (s : State), s.asleep = false →
    (s.stage.halt = false → s.loopRuns n = true → ∀ (pa pb : Int) (fa fb : Rat), s.feedback n 0 = (pa, fa) → s.feedback n 1 = (pb, fb) →
      let c := s.ctl n
      let th := if c.frame then s.thRotor n else s.thCmd n
      let r := s.reference n
      let ed := r.idr - (fa * cosT th + fb * sinT th)
      let eq := r.iqr - (fb * cosT th - fa * sinT th)
      let vd := fx c.zd + s.axu n AX.KP * ed / 1024
      let vq := fx c.zq + s.axu n AX.KP * eq / 1024
      let vlim := (s.vm : Rat) * s.mmax n
      let va := absR (vd * cosT th - vq * sinT th)
      let vb := absR (vd * sinT th + vq * cosT th)
      let sat := decide (vlim < if va < vb then vb else va)
      ∃ t, exec (.currentLoop n) s = .next t ∧ (t.ctl n).vsat = sat ∧ (t.ctl n).predA = pa ∧ (t.ctl n).predB = pb ∧ (t.ctl n).zeta = r.zeta ∧
        ((sat || c.inv || c.inBurst) = true → (t.ctl n).zd = c.zd ∧ (t.ctl n).zq = c.zq) ∧
        ((sat || c.inv || c.inBurst) = false → (t.ctl n).zd = q32 13 (clampR (fx c.zd + s.axu n AX.KI * ed / 65536) (-vlim) vlim) ∧
          (t.ctl n).zq = q32 13 (clampR (fx c.zq + s.axu n AX.KI * eq / 65536) (-vlim) vlim)) ∧
        t.mot n = s.mot n ∧ (t.axes[n]).ctl.now = (s.axes[n]).ctl.now) ∧
    (s.loopRuns n = false → exec (.currentLoop n) s = .next s) ∧
    (s.stage.halt = false → s.pow.inReset = false → s.flt.hist.length < 32 →
      (s.openNow n = (true, false) → ∃ t, exec (.openWinding n) s = .next t ∧ t.axes = s.axes ∧ ∃ x ∈ t.flt.hist, x.code = 0x0105 ∧ x.w6 = 0 ∧
        x.w7 = BitVec.ofInt 16 (rnd 14 (fx (s.ctl n).ia))) ∧
      (s.openNow n = (false, true) → ∃ t, exec (.openWinding n) s = .next t ∧ t.axes = s.axes ∧ ∃ x ∈ t.flt.hist, x.code = 0x0105 ∧ x.w6 = 1 ∧
        x.w7 = BitVec.ofInt 16 (rnd 14 (fx (s.ctl n).ib))) ∧
      (s.openNow n = (true, true) → s.axb n AX.FPCFG 0 = false → ∃ t, exec (.openWinding n) s = .next t ∧ t.axes = s.axes ∧
        ∃ x ∈ t.flt.hist, x.code = 0x0105 ∧ x.w6 = 4) ∧
      ((s.ctl n).openRun[2] = s.rdu (devA DEV.OWN) → (s.ctl n).openRun[3] ≠ s.rdu (devA DEV.OWN) →
        ∃ t, exec (.sharingCriterion n) s = .next t ∧ t.axes = s.axes ∧ ∃ x ∈ t.flt.hist, x.code = 0x0105 ∧ x.w6 = 2) ∧
      ((s.ctl n).openRun[2] ≠ s.rdu (devA DEV.OWN) → (s.ctl n).openRun[3] = s.rdu (devA DEV.OWN) →
        ∃ t, exec (.sharingCriterion n) s = .next t ∧ t.axes = s.axes ∧ ∃ x ∈ t.flt.hist, x.code = 0x0105 ∧ x.w6 = 3)) ∧
    (∃ t, exec (.holdReduction n) s = .next t ∧
      (t.ctl n).lvl = min (if s.softened n = true then min (s.level n) (s.axr n AX.ITOUCH) else s.level n) (s.ilimEff n) ∧
      t.rd (axBase n + AX.ILIMEFF) = s.ilimEff n % 2 ^ 64 ∧ t.mot n = s.mot n)

/-- In operation, where the trimming loop has diverged: its values start again (tracker from RNOM and LNOM; detent compensator and baselines from 0; dead-time trimmer from DTNOM; delay line from code 512 with the line out of use; comparator trim 0; equaliser boost 8 and taps 0), its learn bit clears (DT and the five others) or its freeze bit sets (DLL), its divergence flag sets, and 0x0108 is logged with the number of the loop and its instance (out of reset, with room in the history). The motion stands. -/
def Obligations.Divergences : Prop :=
  (∀ (n : Fin 12) (s : State) (k : Nat), s.asleep = false → s.trkDiverged n = some k → ∃ t, exec (.trackerDiverge n) s = .next t ∧
      (t.ctl n).trk = #v[Learn.at (s.axr n AX.RNOM * 65536), Learn.at (s.axr n AX.RNOM * 65536), Learn.at (s.axr n AX.LNOM * 65536), Learn.at (s.axr n AX.LNOM * 65536)] ∧
      t.axb n AX.ICFG 8 = false ∧ t.axb n AX.ISTAT 9 = true ∧ t.mot n = s.mot n ∧ (s.pow.inReset = false → s.flt.hist.length < 32 → ∃ x ∈ t.flt.hist, x.code = 0x0108 ∧ x.w6 = 1 ∧ x.w7 = BitVec.ofNat 16 k)) ∧
    (∀ (n : Fin 12) (s : State) (k : Nat), s.asleep = false → (s.ctl n).det.toList.findIdx? Learn.diverged = some k → ∃ t, exec (.detentDiverge n) s = .next t ∧
      (∀ i : Fin 6, (t.ctl n).det[i] = Learn.at 0) ∧ t.axb n AX.ICFG 10 = false ∧ t.axb n AX.ISTAT 6 = true ∧ t.mot n = s.mot n ∧
      (s.pow.inReset = false → s.flt.hist.length < 32 → ∃ x ∈ t.flt.hist, x.code = 0x0108 ∧ x.w6 = 2 ∧ x.w7 = BitVec.ofNat 16 (2 ^ (k / 2)))) ∧
    (∀ (n : Fin 12) (s : State) (k : Nat), s.asleep = false → (s.ctl n).sbl.toList.findIdx? Learn.diverged = some k → ∃ t, exec (.sblDiverge n) s = .next t ∧
      (∀ i : Fin 16, (t.ctl n).sbl[i] = Learn.at 0) ∧ t.axb n AX.STLCFG 7 = false ∧ t.axb n AX.STLSTAT 11 = true ∧ t.mot n = s.mot n ∧
      (s.pow.inReset = false → s.flt.hist.length < 32 → ∃ x ∈ t.flt.hist, x.code = 0x0108 ∧ x.w6 = 3 ∧ x.w7 = BitVec.ofNat 16 k)) ∧
    (∀ (u : Fin 48) (s : State), s.asleep = false → s.dtDiverged u = true → ∃ t, exec (.dtDiverge u) s = .next t ∧
      t.rd (unitBase u + PU.TE) = s.rd (unitBase u + PU.DTNOM) ∧ t.rd (unitBase u + PU.DTR) = s.rd (unitBase u + PU.DTNOM) ∧
      t.rd (unitBase u + PU.DTF) = s.rd (unitBase u + PU.DTNOM) ∧ t.bit (unitBase u + PU.PCFG) 5 = false ∧ t.bit (pstat u) 13 = true ∧ t.axes = s.axes ∧
      (s.pow.inReset = false → s.flt.hist.length < 32 → ∃ x ∈ t.flt.hist, x.code = 0x0108 ∧ x.w6 = 4 ∧ x.w7 = BitVec.ofNat 16 u)) ∧
    (∀ (u : Fin 48) (s : State), s.asleep = false → (s.unit u).dll.diverged = true → ∃ t, exec (.dllDiverge u) s = .next t ∧
      t.rd (unitBase u + PU.DLLCODE) = 512 ∧ (t.unit u).dllOut = true ∧ t.bit (unitBase u + PU.PCFG) 15 = true ∧ t.bit (pstat u) 12 = true ∧ t.axes = s.axes ∧
      (s.pow.inReset = false → s.flt.hist.length < 32 → ∃ x ∈ t.flt.hist, x.code = 0x0108 ∧ x.w6 = 5 ∧ x.w7 = BitVec.ofNat 16 u)) ∧
    (∀ (c : Fin 101) (s : State), s.asleep = false → s.azDiverged c = true → ∃ t, exec (.azDiverge c) s = .next t ∧
      t.fld (azA c) 5 0 = 0 ∧ t.bit (azA c) 15 = false ∧ t.bit (azA c) 12 = true ∧ t.axes = s.axes ∧
      (s.pow.inReset = false → s.flt.hist.length < 32 → ∃ x ∈ t.flt.hist, x.code = 0x0108 ∧ x.w6 = 6 ∧ x.w7 = BitVec.ofNat 16 c)) ∧
    (∀ (p : Fin 2) (s : State), s.asleep = false → s.eqDiverged p = true → ∃ t, exec (.eqDiverge p) s = .next t ∧
      t.fld (netpBase p + NETP.EQ) 11 8 = 8 ∧ t.rd (netpBase p + NETP.DFE1) = 0 ∧ t.rd (netpBase p + NETP.DFE2) = 0 ∧ t.bit (netpBase p + NETP.EQ) 15 = false ∧
      t.bit (npStat p) 6 = true ∧ t.axes = s.axes ∧ (s.pow.inReset = false → s.flt.hist.length < 32 → ∃ x ∈ t.flt.hist, x.code = 0x0108 ∧ x.w6 = 7 ∧ x.w7 = BitVec.ofNat 16 p))

/-- In operation: one run of the stall monitor (it runs, axis energised, no debug halt) counts each of the four criteria (one more where it holds, 0 where it was evaluated and does not hold, unchanged where it was not evaluated); no stall is due while one stands, else the first criterion that holds with at least STLN counts. STALL_RAISED (no homing search by stall) sets the two stall flags (the loss of steps in the commanded frame only) and the criterion, starts the block anew and logs 0x0101 with the criterion. The yield model moves its velocity toward its target by at most YAMAX per tick through its lag, with the target limited toward the limits; a force over YFMAX forces the exit with cause 2; during an exit the target is 0 and the step DMAX. Demodulation of a selected window keeps the fits of both channels, and changes nothing else. The motion stands. -/
def Obligations.StallYieldDemod : Prop :=
  ∀ (n : Fin 12) (s : State), s.asleep = false →
    (s.stage.halt = false → s.stallRuns n = true → s.energised n = true →
      let u := s.unobsEdge n
      let now := fun (i : Fin 4) => u.criterion n i
      let cnt := fun (i : Fin 4) => critCount (s.ctl n).crit[i] (now i)
      let stln := u.fldu (axBase n + AX.STLCFG) 11 8
      ∃ t, exec (.stallMonitor n) s = .next t ∧ (∀ i : Fin 4, (t.ctl n).crit[i] = cnt i) ∧
        ((s.ctl n).quiet.isSome = true → (t.ctl n).stallDue = none) ∧
        ((s.ctl n).quiet = none → ∀ i : Fin 4, (∀ j < i, ¬ (stln ≤ cnt j ∧ now j = some true)) → stln ≤ cnt i → now i = some true → (t.ctl n).stallDue = some (i.val + 1)) ∧
        t.mot n = s.mot n) ∧
    (∀ k, ¬ (s.st n = .homing ∧ (s.hom n).m = 5 ∧ (s.hom n).mode = .search) → (s.ctl n).stallDue = some k → k < 8 → ∃ t, exec (.stallRaised n) s = .next t ∧
      t.bit (stlstat n) 15 = true ∧ ((s.ctl n).frame = false → t.bit (stlstat n) 14 = true) ∧ t.fld (stlstat n) 10 8 = k ∧
      (t.ctl n).stallDue = none ∧ (t.ctl n).quiet = some 0 ∧ (t.ctl n).crit = Vector.replicate 4 0 ∧ t.mot n = s.mot n ∧
      (s.pow.inReset = false → s.flt.hist.length < 32 → ∃ x ∈ t.flt.hist, x.code = 0x0101 ∧ x.w6 = BitVec.ofNat 16 k)) ∧
    (s.stage.halt = false → s.st n = .yield →
      let v0 : Rat := if (s.ppl n).held then (s.mot n).snapVel.toInt else fx (s.ppl n).v
      let f := (if s.axub n AX.YCFG 10 then -s.yieldSrc n else s.yieldSrc n) - s.axu16 n AX.YBIAS
      let u := (s.onPpl n (fun q => { q with flast := s.yieldSrc n, miss := 0 })).wrI 16 (axBase n + AX.YIN) (satI 16 f)
      let top : Int := s.axu n AX.YVMAX * 65536
      let want : Rat := clampI (sgn f * max ((f.natAbs : Int) - s.axu n AX.YDEAD) 0 * s.axu n AX.YGAIN * 16) (-top) top
      let most : Rat := (s.axu n AX.YAMAX : Rat) * s.tpr / 2 ^ 24
      let lag : Nat := 2 ^ s.fldu (axBase n + AX.YCFG) 15 12
      (s.bit (ystat n) 15 = true → ∃ t, exec (.yieldModel n) s = .next t ∧
        (t.ppl n).v = q32 80 (v0 + clampR (((s.limitToward n 0).1 - v0) / 1) (-((s.axr n AX.DMAX : Rat) * s.tpr / 2 ^ 24)) ((s.axr n AX.DMAX : Rat) * s.tpr / 2 ^ 24)) ∧
        t.mot n = s.mot n) ∧
      (s.bit (ystat n) 15 = false → s.yieldValid n = true →
        (f.natAbs ≤ s.axu n AX.YFMAX → ∃ t, exec (.yieldModel n) s = .next t ∧
          (t.ppl n).v = q32 80 (v0 + clampR (((u.limitToward n want).1 - v0) / lag) (-most) most) ∧ (t.ppl n).flast = s.yieldSrc n ∧ (t.ppl n).miss = 0 ∧ t.mot n = s.mot n) ∧
        (s.axu n AX.YFMAX < f.natAbs → ∃ t, exec (.yieldModel n) s = .next t ∧ t.bit (ystat n) 15 = true ∧ t.fld (ystat n) 11 8 = 2 ∧ t.mot n = s.mot n))) ∧
    (∀ (p : Fin 8) (j : Nat), s.stage.halt = false → (s.ports[p]).sel = some j →
      let a := fitChannel (s.rdu (prtBase p + PRT.PHASE)) (s.window p j false)
      let b := fitChannel (s.rdu (prtBase p + PRT.PHASE)) (s.window p j true)
      ∃ t, exec (.demodulation p) s = .next t ∧ t = { s with ports := t.ports } ∧
        (t.ports[p]).fit = some ⟨q32 60 a.1, q32 60 b.1, q32 60 a.2.1, q32 60 b.2.1, q32 60 a.2.2.1, q32 60 b.2.2.1, a.2.2.2.1, b.2.2.2.1,
          clamped (s.window p j false) || clamped (s.window p j true), a.2.2.2.2 || b.2.2.2.2⟩)

/-- In operation: a period of a switching unit with no partner emits the window that its duty, its compensation, its carry and its low interval give: the unit keeps the carry and counts the period, the registers show period and carry. A due refresh pulse is begun and counted once. A phase measurement moves the delay line by a quarter of it within its codes (not while frozen), unlocks it beyond 32, and locks it at the eighth small one in a row. A debug halt leaves no unit switching (strobe present) and notes which power axes were; its end notes that no axis overblows. A strobe loss is noted, and a unit whose latched form is a mute form does not switch. A write of PSTAT.trip = 1 that the worlds permit clears the latch where no source of the pair is active and no flag was set in this CORE clock, and changes nothing where one is active. -/
def Obligations.PwmUnits : Prop :=
  (∀ (u : Fin 48) (own mate : NodeEdges) (held : GateHold × GateHold) (n : Fin 12) (s : State), s.asleep = false → s.unitAxis u = some n → s.switching u = true → s.isPartner u = false → s.pairOf u = [u.val] →
      let z := s.refreshPulse u
      let x := z.unit u
      let p := z.pwmP n
      let m := z.minPulse u
      let e := emission (nearestR ((x.duty : Rat) * p / 2 ^ 24) + z.compOf u) x.carry x.low p (fdiv (z.stagOf u * p) 64) m.1 m.2.1 m.2.2 (if x.pulse then some (z.tRef u) else none)
      ∃ t, exec (.pwmPeriod u own mate held) s = .next t ∧ (t.unit u).carry = e.carry ∧ (t.unit u).period = (s.unit u).period + 1 ∧ (t.unit u).pulse = false ∧
        t.rd (unitBase u + PU.PERIOD) = p.toNat % 2 ^ 64 ∧ t.axes = s.axes) ∧
    (∀ (u : Fin 48) (s : State), s.asleep = false → s.pulseDue u = true → (s.unit u).pulse = false → ∃ t, exec (.bootstrapRefresh u) s = .next t ∧
      t.fld (unitBase u + PU.REFCNT) 15 8 = min 255 (s.fld (unitBase u + PU.REFCNT) 15 8 + 1) ∧ t.unit u = { s.unit u with pulse := true, pulsed := true } ∧ t.axes = s.axes) ∧
    (∀ (u : Fin 48) (ph : Int) (s : State), s.asleep = false → ∃ t, exec (.dllUpdate u ph) s = .next t ∧
      (t.unit u).dll = (if s.bit (unitBase u + PU.PCFG) 15 then (s.unit u).dll else (s.unit u).dll.step 1 ((s.unit u).dll.v - ph * 16384) 0 (1023 * 65536)) ∧
      t.rd (unitBase u + PU.DLLCODE) = ((t.unit u).dll.v / 65536).toNat % 2 ^ 64 ∧ (32 < ph.natAbs → t.bit (pstat u) 11 = false) ∧
      (ph.natAbs ≤ 2 → (t.unit u).dllRun = (s.unit u).dllRun + 1 ∧ (7 ≤ (s.unit u).dllRun → t.bit (pstat u) 11 = true)) ∧
      (2 < ph.natAbs → (t.unit u).dllRun = 0) ∧ t.axes = s.axes) ∧
    (∀ s : State, s.asleep = false → s.stage.halt = false → ∃ t, exec .debugHalt s = .next t ∧ t.stage.halt = true ∧ (s.stage.strobeLost = false → ∀ u : Fin 48, t.switching u = false) ∧
      (∀ n : Fin 12, t.stage.haltMute[n] = (s.isPower n && (s.recd n).units.any (fun u => s.switching u))) ∧ t.axes = s.axes) ∧
    (∀ s : State, s.asleep = false → s.stage.halt = true → ∃ t, exec .debugResume s = .next t ∧ t.stage = { s.stage with halt := false } ∧
      (∀ n : Fin 12, t.axes[n].ctl.committed = true ∧ t.mot n = s.mot n)) ∧
    (∀ s : State, s.asleep = false → ∃ t, exec .strobeLoss s = .next t ∧ t.stage = { s.stage with strobeLost := true } ∧ t.axes = s.axes ∧
      (∀ u : Fin 48, s.stage.dieForm[u] = 1 ∨ s.stage.dieForm[u] = 2 → t.switching u = false)) ∧
    (∀ (u : Fin 48) (acc : Fin 15) (s : State), s.ready = true → s.pow.shelf ≠ .shelf → s.violationOf acc (pstat u) true = none →
      (s.tripActive u = true → exec (.tripClear u acc) s = .next s) ∧
      (s.tripActive u = false → s.bit (pstat u) 15 = true → s.pairOf u = [u.val] → s.flt.setNow = [] → ∃ t, exec (.tripClear u acc) s = .next t ∧
        t.bit (pstat u) 15 = false ∧ t.axes = s.axes ∧ t.stage = s.stage))

/-- In operation: one run of the observer (no debug halt, voltages there, no burst to evaluate) moves the back-EMF by a quarter toward the residual, and speed and angle by the lock loop. It becomes valid after OBSN edges, and loses validity with lock_lost after 4 edges far off; at speed in the commanded frame that asks for a re-initialisation. A re-initialisation ends with its flag, from the kept seed (then valid) or from the commanded angle less the baseline. Alignment writes SOFS from the commanded angle and marks it. A sensor that is back is no longer lost, and the source is picked anew. A due burst begins at its tick 0, and a due probe requests its reserve item of 600 lane-cycles. -/
def Obligations.Observation : Prop :=
  ∀ (n : Fin 12) (s : State), s.asleep = false →
    (s.stage.halt = false → s.obsRuns n = true → (s.ctl n).vSkip = false → s.tpr ≠ 0 → ((s.ctl n).injT.isSome = true ∨ (s.ctl n).injI.length < 7) →
      let c := s.ctl n
      let back (e v i ip : Int) (w : Nat) : Rat :=
        fx e + (fx v - 512 * (s.rUse n w * s.amp n (fx i)) - 512 * (s.lUse n w * s.amp n (fx (i - ip)) / s.tt) - fx e) / 4
      let ea := back c.ea c.va c.ia c.iaPrev 0
      let eb := back c.eb c.vb c.ib c.ibPrev 1
      let mag := sqrtR (ea * ea + eb * eb)
      let th := angle16 20 (fx c.thMid)
      let sg : Rat := if c.wHat = 0 then sgn (s.mot n).snapVel.toInt else sgn c.wHat
      let eps := if mag = 0 then 0 else -(ea * cosT th + eb * sinT th) * sg / mag
      let bw : Rat := s.axu n AX.OBSBW
      let w := fx c.wHat + 2 * piR * bw * bw * s.tt * eps
      ∃ t, exec (.observer n) s = .next t ∧ (t.ctl n).ea = q32 22 ea ∧ (t.ctl n).eb = q32 22 eb ∧ (t.ctl n).eps = q32 22 eps ∧ (t.ctl n).emag = q32 22 mag ∧
        (t.ctl n).wHat = q32 22 w ∧ (t.ctl n).thMid = q32 22 (fx c.thMid + w * s.tt + 2 * bw * s.tt * eps) ∧ t = { s with axes := t.axes }) ∧
    (s.obsRuns n = true → s.axr n AX.OBSN ≤ (s.ctl n).obsRun → (s.ctl n).obsValid = false → ∃ t, exec (.observerValid n) s = .next t ∧
      (t.ctl n).obsValid = true ∧ t.bit (ostat n) 11 = true ∧ t.mot n = s.mot n) ∧
    (4 ≤ (s.ctl n).errRun → (s.ctl n).obsValid = true → ∃ t, exec (.observerLockLost n) s = .next t ∧ (t.ctl n).obsValid = false ∧ (t.ctl n).errRun = 0 ∧
      t.bit (ostat n) 6 = true ∧ t.bit (ostat n) 11 = false ∧
      (t.ctl n).reinit = (if s.axr n AX.VOBS * 65536 ≤ (s.mot n).snapVel.toInt.natAbs ∧ (s.ctl n).frame = false ∧ (s.ctl n).reinit = none then some 1
        else (s.ctl n).reinit)) ∧
    (∀ k, s.stage.halt = false → (s.ctl n).reinit = some k → ∃ t, exec (.observerReinit n) s = .next t ∧ (t.ctl n).reinit = none ∧ t.bit (ostat n) 7 = true ∧
      (k = 0 → (t.ctl n).obsValid = true ∧ (t.ctl n).wHat = q32 22 (fx (s.ctl n).seed.2)) ∧
      (k ≠ 0 → (t.ctl n).obsValid = (s.ctl n).obsValid ∧ (t.ctl n).wHat = q32 22 (s.cmdSeed n).2 ∧
        (t.ctl n).thMid = q32 22 ((s.cmdSeed n).1 - s.binBase n / 16384))) ∧
    (∀ raw, (s.ctl n).sPrev = some raw → s.axb n AX.OCFG 9 = true → s.bit (ostat n) 9 = false → (s.ctl n).enAge = some (s.axr n AX.HOLDRAMP + 64) →
      s.st n = .hold → (s.ctl n).frame = false → s.sensMarked n = false → ∃ t, exec (.sensorAlign n) s = .next t ∧ t.bit (ostat n) 9 = true ∧
        t.rd (axBase n + AX.SOFS) = ((4 * ((s.mot n).ipos % 16384) - s.axr n AX.SRATIO * s.sSign n * raw) % 65536).toNat ∧ t.axes = s.axes) ∧
    ((s.ctl n).sLost = true → s.bit (ostat n) 10 = true → s.axr n AX.SRECOV ≤ (s.ctl n).sGood → s.sensBack n = true → (s.ctl n).src = 0 → s.pickSource n = 1 →
      ∃ t, exec (.sensorRecovery n) s = .next t ∧ (t.ctl n).sLost = false ∧ (t.ctl n).src = 1 ∧ t.fld (ostat n) 13 12 = 1 ∧ t.mot n = s.mot n) ∧
    (s.burstDue n = true → ∃ t, exec (.injectionBurst n) s = .next t ∧ (t.ctl n).injT = some 0 ∧ (t.ctl n).injWait = 0 ∧ (t.ctl n).injI = [] ∧
      t.bit (ostat n) 3 = true ∧ t.mot n = s.mot n) ∧
    (s.probeDue n = true → ∃ t, exec (.trackerProbe n) s = .next t ∧ (t.ctl n).probeReq = true ∧ (t.ctl n).tLast = 0 ∧
      t.seq = { s.seq with reserve := insertItem ⟨n, 1, 600, 0⟩ s.seq.reserve } ∧ t.mot n = s.mot n ∧ t.regs = s.regs)

/-- In operation, an overcurrent of leg u over OCTHR of its lead while one of its switches is on, qualified; a hard limit of leg u; and a qualified drain-source excess over VDSTHR of channel g while its low side is on: each sets the trip latch of the unit and of its partner, with source oc, oc or vds in LSTAT, and turns their outputs to Float; OCCNT of the unit counts one, up to 0xFFFF. A hard limit sets LSTAT.hard of leg u. Where the latch was clear, the part is out of reset and the history queue has room, 0x0201 stands in the history with detail word 2 = 0, 1 or 2. Beside registers, PWM units and the fault manager only the remembered comparator level changes. -/
def Obligations.LegsTrip : Prop :=
  ∀ s : State, s.asleep = false →
    (∀ (u : Fin 40) (x : Excess), ((s.gates u).1 || (s.gates u).2) = true → 125 * s.rd (unitBase (s.leadOf u) + PU.OCTHR) < 2 * x.level → s.qualified u x = true →
      ∃ t, exec (.legOvercurrent ⟨u, x⟩) s = .next t ∧ (∀ v ∈ s.pairOf u, t.bit (pstat v) 15 = true ∧ t.bit (unitBase v + PU.LSTAT) 0 = true ∧ t.fld (pstat v) 5 4 = 1) ∧ (u : Nat) ∈ s.pairOf u ∧
      t.rd (unitBase u + PU.OCCNT) = min 0xFFFF (s.rd (unitBase u + PU.OCCNT) + 1) ∧
      (s.bit (pstat u) 15 = false → s.pow.inReset = false → s.flt.hist.length < 32 → ∃ x ∈ t.flt.hist, x.code = 0x0201 ∧ x.w7 = 0) ∧
      t = { s with regs := t.regs, flt := t.flt, units := t.units, stage := { s.stage with above := putAt s.stage.above u true } }) ∧
    (∀ u : Fin 40, ∃ t, exec (.hardLimit u true) s = .next t ∧ (∀ v ∈ s.pairOf u, t.bit (pstat v) 15 = true ∧ t.bit (unitBase v + PU.LSTAT) 0 = true ∧ t.fld (pstat v) 5 4 = 1) ∧
      t.bit (unitBase u + PU.LSTAT) 7 = true ∧ t.rd (unitBase u + PU.OCCNT) = min 0xFFFF (s.rd (unitBase u + PU.OCCNT) + 1) ∧
      (s.bit (pstat u) 15 = false → s.pow.inReset = false → s.flt.hist.length < 32 → ∃ x ∈ t.flt.hist, x.code = 0x0201 ∧ x.w7 = 1) ∧
      t = { s with regs := t.regs, flt := t.flt, units := t.units, stage := { s.stage with hard := putAt s.stage.hard u true } }) ∧
    (∀ (g : Fin 8) (x : Excess), (s.gates (40 + g)).2 = true → 25 * s.rd (unitBase (40 + g) + PU.VDSTHR) < x.level → s.qualified (40 + g) x = true →
      ∃ t, exec (.vdsTrip ⟨g, x⟩) s = .next t ∧ (∀ v ∈ s.pairOf (40 + g), t.bit (pstat v) 15 = true ∧ t.bit (unitBase v + PU.LSTAT) 1 = true ∧ t.fld (pstat v) 5 4 = 1) ∧ (40 + g : Nat) ∈ s.pairOf (40 + g) ∧
      t.rd (unitBase (40 + g) + PU.OCCNT) = min 0xFFFF (s.rd (unitBase (40 + g) + PU.OCCNT) + 1) ∧
      (s.bit (pstat (40 + g)) 15 = false → s.pow.inReset = false → s.flt.hist.length < 32 → ∃ x ∈ t.flt.hist, x.code = 0x0201 ∧ x.w7 = 2) ∧
      t = { s with regs := t.regs, flt := t.flt, units := t.units, stage := { s.stage with above := putAt s.stage.above (40 + g) true } })

/-- In operation, a guard condition of unit u (why 1 or 2), a bootstrap voltage of channel g below BUVTHR (high side on, not within 2 microseconds of GLg) and an overtemperature of group g set the trip latch of the units concerned (the unit and its partner; the channel and its partner; all four legs of the group) with source guard, buv or ot, and turn them to Float. While cp_ok is 1 and detection is armed, a charge-pump undervoltage latches every internal unit with source cp, sets PROT.cp_uv, clears cp_ok, disarms the detection, and 0x0204 with detail words 0x00FF and 0 stands in the history where the part is out of reset and the history has room. CHARGE_PUMP_READY of the running pump sets cp_ok and arms the detection. The axes and path memory are untouched by all of them. -/
def Obligations.SuppliesTrip : Prop :=
  ∀ s : State, s.asleep = false →
    (∀ (u : Fin 48) (why : Fin 3), why ≠ 0 → ∃ t, exec (.shootThroughGuard u why) s = .next t ∧
      (∀ v ∈ s.pairOf u, t.bit (pstat v) 15 = true ∧ t.bit (unitBase v + PU.LSTAT) 3 = true ∧ t.fld (pstat v) 5 4 = 1) ∧ (u : Nat) ∈ s.pairOf u ∧ t.stage.guard[u] = why.val ∧ t.axes = s.axes ∧ t.path = s.path) ∧
    (∀ (g : Fin 8) (mV : Nat), (s.gates (40 + g)).1 = true → 800 ≤ (s.unit (40 + g)).offLow → mV < 100 * s.rd (unitBase (40 + g) + PU.BUVTHR) →
      ∃ t, exec (.bootstrapUndervoltage g mV) s = .next t ∧ (∀ v ∈ s.pairOf (40 + g), t.bit (pstat v) 15 = true ∧ t.bit (unitBase v + PU.LSTAT) 4 = true ∧ t.fld (pstat v) 5 4 = 1) ∧
      (40 + g : Nat) ∈ s.pairOf (40 + g) ∧ t.stage.buv[g] = true ∧ t.axes = s.axes ∧ t.path = s.path) ∧
    (s.bit protA 10 = true → s.stage.cpArmed = true → ∃ t, exec .chargePumpUndervoltage s = .next t ∧
      (∀ v : Fin 40, t.bit (pstat v) 15 = true ∧ t.bit (unitBase v + PU.LSTAT) 5 = true ∧ t.fld (pstat v) 5 4 = 1) ∧
      t.bit protA 14 = true ∧ t.bit protA 10 = false ∧ t.stage.cpArmed = false ∧ t.axes = s.axes ∧ t.path = s.path ∧
      (s.pow.inReset = false → s.flt.hist.length < 32 → ∃ x ∈ t.flt.hist, x.code = 0x0204 ∧ x.w6 = 0x00FF ∧ x.w7 = 0)) ∧
    (s.stage.pump = true → ∃ t, exec .chargePumpReady s = .next t ∧
      t.bit protA 10 = true ∧ t.stage.cpArmed = true ∧ t.axes = s.axes ∧ t.path = s.path) ∧
    (∀ g : Fin 10, ∃ t, exec (.groupOvertemperature g) s = .next t ∧
      (∀ j : Fin 4, t.bit (pstat (4 * g + j)) 15 = true ∧ t.bit (unitBase (4 * g + j) + PU.LSTAT) 6 = true ∧ t.fld (pstat (4 * g + j)) 5 4 = 1) ∧
      t.stage.ot[g] = true ∧ t.axes = s.axes ∧ t.path = s.path)

/-- In operation: an enabled, resolved trip input that has stood at its asserted level for filt clocks is asserted in PROT and latches every unit that it maps with source trip; its release ends PROT.trip_act and re-arms its event. A torque-off input asserted is low: every unit is in Float from then on, and an assertion from high is due at the next edge; its release puts it high. Torque-off inputs that differ and are not logged yet set the discrepancy flag and log 0x0203 with detail 0x20, once. A governor step starts new power sums, shows the package power, and sets the derating factor of every axis on internal legs by its rule. The motion stands. -/
def Obligations.InputsAndGovernor : Prop :=
  ∀ s : State, s.asleep = false →
    (∀ (i : Fin 4) (k : Nat), let lvl := if s.bit (devA DEV.TRIPCFG + 4 * i) 15 then Pin.high else Pin.low
      s.fld (devA DEV.TRIPCFG + 4 * i) 11 8 ≤ k → s.stage.trip[i] ≠ .unres → s.bit (devA DEV.TRIPCFG + 4 * i) 14 = true →
      ∃ t, exec (.tripInput ⟨i, k⟩) s = .next t ∧ t.stage.trip[i] = lvl ∧ (∀ v ∈ s.tripUnits i, t.bit (pstat v) 15 = true ∧ t.bit (unitBase v + PU.LSTAT) 2 = true ∧ t.fld (pstat v) 5 4 = 1) ∧ t.bit protA (4 + i) = true ∧ t.axes = s.axes) ∧
    (∀ i : Fin 4, s.stage.trip[i] ≠ .unres → ∃ t, exec (.tripInputRelease i) s = .next t ∧
      t.stage.trip[i] = (if s.bit (devA DEV.TRIPCFG + 4 * i) 15 then Pin.low else Pin.high) ∧ t.stage.tripLog[i] = false ∧ t.bit protA (4 + i) = false ∧ t.axes = s.axes) ∧
    (∀ i : Fin 2, ∃ t, exec (.torqueOff i) s = .next t ∧ t.stage.toff[i] = .low ∧ (∀ v : Fin 48, t.fld (pstat v) 5 4 = 1) ∧
      (s.stage.toff[i] = .high → t.stage.toffDue[i] = true) ∧ t.axes = s.axes) ∧
    (∀ i : Fin 2, ∃ t, exec (.torqueOffRelease i) s = .next t ∧ t.stage.toff[i] = .high ∧ t.stage.toffDue[i] = s.stage.toffDue[i] ∧ t.axes = s.axes) ∧
    (s.stage.toff[0] ≠ s.stage.toff[1] → s.stage.toffSaid = false → ∃ t, exec .toffDiscrepancy s = .next t ∧ t.stage = { s.stage with toffSaid := true } ∧
      t.bit protA 15 = true ∧ t.axes = s.axes ∧
      (s.pow.inReset = false → s.flt.hist.length < 32 → ∃ x ∈ t.flt.hist, x.code = 0x0203 ∧ x.w6 = 0x20)) ∧
    (∃ t, exec .governorStep s = .next t ∧ t.stage.pCnt = 0 ∧ t.stage.pSum = Vector.replicate 10 0 ∧
      (∀ n ∈ s.governed, t.rd (devA DEV.GOVK + 4 * n) = s.kappaNext n (t.rd (devA DEV.PPKG)) % 2 ^ 64) ∧ t.axes = s.axes)

/-- In operation: an unresolved input takes its level (a pin by the next edge; a torque-off or trip input at once). The end of a resolution interval, when its time is out, shows in RSTAT. A raw edge gives the pin its level, starts its debounce anew and latches the position. A chatter window that has stood for CHATWIN edges closes, and more edges than the limit set the flag and log 0x0901 with pin and count. Enabling contacts that differ put the state to DISCREPANCY and log 0x0904 with the two contacts. An axis at rest between homing phases starts the next: it searches with the velocity of the leg, or moves back; with no phase left it completes: HOLD, result 2, the captured position. A phase beyond HMAXD fails with result 4 and 0x0109, and the class stop begins in this clock. -/
def Obligations.PinsAndHoming : Prop :=
  ∀ s : State, s.asleep = false →
    (∀ (i : Fin 30) (high : Bool),
      (∀ h : i.val < 24, let p : Fin 24 := ⟨i, h⟩
        s.pins.res[p] = false → s.pinAna p = false → (s.pins.gpLeft.isSome = true ∨ s.bit (gpioA GPIO.RSTAT) 15 = true) →
        ∃ t, exec (.inputResolve i high) s = .next t ∧ t.pins.res[p] = true ∧ t.pins.newRes[p] = some high ∧ t.pins.lvl[p] = high ∧
          t.bit (pinBit (gpioA GPIO.UNRA) p).1 (pinBit (gpioA GPIO.UNRA) p).2 = false ∧ ∀ n, t.mot n = s.mot n) ∧
      (∀ h : 24 ≤ i.val ∧ i.val < 26, let k : Fin 2 := ⟨i - 24, by omega⟩
        s.stage.toff[k] = .unres → ∃ t, exec (.inputResolve i high) s = .next t ∧ t.stage.toff[k] = (if high then .high else .low) ∧ t.axes = s.axes) ∧
      (∀ h : 26 ≤ i.val, let k : Fin 4 := ⟨i - 26, by omega⟩
        s.stage.trip[k] = .unres → ∃ t, exec (.inputResolve i high) s = .next t ∧ t.stage.trip[k] = (if high then .high else .low) ∧ t.axes = s.axes)) ∧
    (s.pins.gpLeft = some 0 → ∃ t, exec (.resolveIntervalEnd true) s = .next t ∧ t.pins.gpLeft = none ∧ t.bit (gpioA GPIO.RSTAT) 15 = true ∧ t.axes = s.axes) ∧
    (s.pins.dedLeft = some 0 → ∃ t, exec (.resolveIntervalEnd false) s = .next t ∧ t.pins.dedLeft = none ∧ t.bit (gpioA GPIO.RSTAT) 14 = true ∧ t.axes = s.axes) ∧
    (∀ (p : Fin 24) (l : Bool), ∃ t, exec (.rawEdge p l) s = .next t ∧ t.pins.lvl[p] = l ∧ t.pins.age[p] = 0 ∧ t.pins.edged[p] = true ∧
      (∀ n, s.pinAxis p = some n → t.pins.latch[p] = (s.mot n).ipos) ∧ t = { s with pins := t.pins }) ∧
    (∀ (p : Fin 24) (age k : Nat), s.pins.win[p] = some (age, k) → s.rd (gpioA GPIO.CHATWIN) < age → ∃ t, exec (.chatterWindowClose p) s = .next t ∧
      t.pins.win[p] = none ∧ t.axes = s.axes ∧ (s.fld (gpioA GPIO.DEB + 4 * p) 15 8 < k → s.pow.inReset = false → s.flt.hist.length < 32 →
        ∃ x ∈ t.flt.hist, x.code = 0x0901 ∧ x.w6 = BitVec.ofNat 16 p ∧ x.w7 = BitVec.ofNat 16 k)) ∧
    (∀ a b c, s.enLevels = (a, b, c) → a ≠ b → s.fld (gpioA GPIO.ENSTAT) 1 0 ≠ 3 → s.bit (gpioA GPIO.ENSTAT) 2 = true → ∃ t, exec .enablingDiscrepancy s = .next t ∧
      t.fld (gpioA GPIO.ENSTAT) 1 0 = 3 ∧ t.axes = s.axes ∧ (s.pow.inReset = false → s.flt.hist.length < 32 → ∃ x ∈ t.flt.hist, x.code = 0x0904 ∧
        x.w6 = BitVec.ofNat 16 ((if a then 1 else 0) + (if b then 2 else 0)))) ∧
    (∀ n : Fin 12, s.st n = .homing → (s.hom n).mode = .stop → (s.mot n).req = none → (s.mot n).vel = 0 → ((s.mot n).segs = [] ∨ (s.mot n).planDone = true) →
      (∀ l r, (s.hom n).todo = .leg l :: r → ∃ t, exec (.homingPhaseStart n) s = .next t ∧ (t.hom n).leg = some l ∧ (t.hom n).todo = r ∧ (t.hom n).p0 = (s.mot n).ipos ∧
        (t.hom n).mode = (if l.back then .stop else .search) ∧ (t.mot n).pos = (s.mot n).pos ∧
        (l.back = false → (t.mot n).req = some (.home (l.dir * (s.rd (hmBase n + (if l.slow then HM.HVSLOW else HM.HVFAST)) * 65536))))) ∧
      ((s.hom n).todo = [] → (s.hom n).m ≠ 6 → ∃ t, exec (.homingComplete n) s = .next t ∧ t.st n = .hold ∧ t.fld (hmBase n + HM.HSTAT) 15 12 = 2 ∧
        t.val (hmBase n + HM.HCAPT) = (BitVec.ofInt 48 (s.hom n).capA).setWidth 64)) ∧
    (∀ n : Fin 12, s.homeFar n = true → ∃ t, exec (.homingDistanceExceeded n) s = .next t ∧ t.fld (hmBase n + HM.HSTAT) 15 12 = 4 ∧ (t.hom n).mode = .idle ∧
      (t.mot n).next = some .stopping ∧ (s.pow.inReset = false → s.flt.hist.length < 32 → ∃ x ∈ t.flt.hist, x.code = 0x0109 ∧ x.w6 = 4))

/-- In operation: an enabled driver starts from phase 0, neither settled nor open, with the increment of its frequency, and runs while V12 is in its window. Settling captures current and phase and sets the settled bit (a load that is there). An open of a settled driver sets the open bit and flag, and both ports take a notice and are spoiled. It clears at half the settled current, or at IOMIN where the load was missing. A short stops the driver, sets its latch and logs 0x0402 with the driver and the cause. A write of ESTAT.short = 1 that the worlds permit, with no flag set in this CORE clock, clears the latch and starts an enabled driver anew. A slot of a settled driver that passes its test counts one pass; one that does not brings a notice and no pass. After 8 passes and with no open standing the port is not spoiled from then on. -/
def Obligations.Excitation : Prop :=
  ∀ s : State,
    (∀ d : Fin 4, s.asleep = false → (s.excOn d = true → ∃ t, exec (.excitationStart d) s = .next t ∧ t.excs[d] = { Exc.start with run := s.v12 } ∧
        t.bit (estat d) 14 = false ∧ t.bit (estat d) 11 = false ∧ t.bit (estat d) 10 = s.v12 ∧
        t.rd (excBase d + EXC.INC) = incOf (s.rd (excBase d + EXC.FREQ)) % 2 ^ 64 ∧ t.axes = s.axes) ∧
      (∀ iref iph, (s.excs[d]).run = true → (s.excs[d]).settleAt = none → s.rd (excBase d + EXC.IOMIN) ≤ iref % 65536 → ∃ t, exec (.excitationSettled d iref iph) s = .next t ∧
        t.excs[d] = { s.excs[d] with settleAt := some (s.excs[d]).age } ∧ t.bit (estat d) 11 = true ∧ t.rd (excBase d + EXC.IREF) = iref % 65536 ∧
        t.rd (excBase d + EXC.IPH) = iph % 65536 ∧ t.rd (excBase d + EXC.IAMP) = iref % 65536 ∧ t.axes = s.axes) ∧
      ((s.excs[d]).run = true → (s.excs[d]).settleAt.isSome = true → s.bit (estat d) 14 = false → ∃ t, exec (.excitationOpen d) s = .next t ∧ t.bit (estat d) 14 = true ∧
        t.bit (estat d) 13 = true ∧ (t.excs[d]).missing = false ∧ (∀ p : Fin 8, drvOf p = d → t.bit (prtStat p) 13 = true ∧ (t.ports[p]).pass = (s.ports[p]).pass) ∧ t.axes = s.axes) ∧
      (∀ iamp, s.bit (estat d) 14 = true → (if (s.excs[d]).missing then s.rd (excBase d + EXC.IOMIN) else cdiv (s.rd (excBase d + EXC.IREF)) 2) ≤ iamp →
        ∃ t, exec (.excitationOpenClear d iamp) s = .next t ∧ t.bit (estat d) 14 = false ∧ t.axes = s.axes) ∧
      (∀ low, (s.excs[d]).run = true → ∃ t, exec (.excitationShort d low) s = .next t ∧ (t.excs[d]).run = false ∧ t.bit (estat d) 15 = true ∧ t.bit (estat d) 10 = false ∧ t.axes = s.axes ∧
        (s.pow.inReset = false → s.flt.hist.length < 32 → ∃ x ∈ t.flt.hist, x.code = 0x0402 ∧ x.w6 = BitVec.ofNat 16 d ∧ x.w7 = (if low then 2 else 1)))) ∧
    (∀ (d : Fin 4) (acc : Fin 15), s.ready = true → s.pow.shelf ≠ .shelf → s.violationOf acc (estat d) true = none → s.bit (estat d) 15 = true → s.flt.setNow = [] → s.excOn d = true →
      ∃ t, exec (.shortClear d acc) s = .next t ∧ t.bit (estat d) 15 = false ∧ t.excs[d] = { Exc.start with run := s.v12 } ∧ t.axes = s.axes) ∧
    (∀ (p : Fin 8), s.asleep = false →
      (∀ amp mSin mCos cSin cCos, (s.excs[drvOf p]).run = true → (s.excs[drvOf p]).settleAt.isSome = true →
        (s.ampTest p amp mSin mCos cSin cCos = 0 → ∃ t, exec (.slotBoundary p amp mSin mCos cSin cCos) s = .next t ∧ (t.ports[p]).pass = (s.ports[p]).pass + 1 ∧ t.axes = s.axes) ∧
        (s.ampTest p amp mSin mCos cSin cCos ≠ 0 → ∃ t, exec (.slotBoundary p amp mSin mCos cSin cCos) s = .next t ∧ (t.ports[p]).pass = 0 ∧ t.bit (prtStat p) 13 = true ∧ t.axes = s.axes)) ∧
      (8 ≤ (s.ports[p]).pass → s.bit (estat (drvOf p)) 14 = false → ∃ t, exec (.portRecovery p) s = .next t ∧ t.bit (prtStat p) 12 = false ∧ t.axes = s.axes))

/-- In operation: an automatic reset that is due, and a RESET command of an accessor that may access the channel (no touch stands, no reset runs, the channel is no yield source of an axis in YIELD), set OFS to 0, clear inexact and top and start a settling of 20 us with the reset switch closed for 8 us; a RANGE command on a channel that is no such source puts the channel into the range it names; both commands complete as DONE. TN samples over the threshold set touch and its flag and make the axis' reaction due; TN samples under the release threshold clear touch. -/
def Obligations.ForceAndTouch : Prop :=
  ∀ (m : Fin 8) (s : State), s.asleep = false →
    (s.autoResetDue m = true → ∃ t, exec (.autoReset m) s = .next t ∧ t.rd (frcBase m + FRC.OFS) = 0 ∧ t.bit (fstat m) 10 = false ∧ t.bit (fstat m) 8 = false ∧
      (t.frcs[m]).settle = 8000 ∧ (t.frcs[m]).resetting = 3200 ∧ (t.frcs[m]).q = 0 ∧ t.axes = s.axes) ∧
    (s.bit (fstat m) 14 = false → s.frcOn m = true → s.rd (frcBase m + FRC.TN) ≤ (s.frcs[m]).on → ∃ t, exec (.touchSet m) s = .next t ∧
      t.bit (fstat m) 14 = true ∧ t.bit (fstat m) 13 = true ∧ (t.frcs[m]).retract = true ∧ (t.frcs[m]).on = 0 ∧ t.axes = s.axes) ∧
    (s.bit (fstat m) 14 = true → s.rd (frcBase m + FRC.TN) ≤ (s.frcs[m]).off → ∃ t, exec (.touchRelease m) s = .next t ∧
      t.bit (fstat m) 14 = false ∧ (t.frcs[m]).off = 0 ∧ t.axes = s.axes) ∧
    (∀ acc : Fin 15, let j := (s.onFrc m (fun g => { g with cmd := none })).setBit (fstat m) 5 false
      j.mayAccess acc (24 + m) = true → j.frcOn m = true →
      (j.bit (fstat m) 14 = false → (j.frcs[m]).resetting = 0 → j.yieldSource m = false → ∃ t, exec (.forceReset m acc 0) s = .next t ∧
        t.rd (frcBase m + FRC.FCMDSTAT) = 0x100 ∧ t.rd (frcBase m + FRC.OFS) = 0 ∧ t.bit (fstat m) 10 = false ∧ t.bit (fstat m) 8 = false ∧
        (t.frcs[m]).settle = 8000 ∧ (t.frcs[m]).resetting = 3200 ∧ (t.frcs[m]).q = 0 ∧ t.axes = s.axes) ∧
      (∀ r : Byte, r.toNat ≤ 3 → j.yieldSource m = false → ∃ t, exec (.forceRange m acc r) s = .next t ∧
        t.rd (frcBase m + FRC.FCMDSTAT) = 0x200 ∧ t.frcRange m = r.toNat ∧ t.axes = s.axes))

/-- In operation: an interval of a running modulator whose integrator state and clock pass their tests joins the averages of the tick with its invalid mark, its count of samples is shown and the next interval starts from its state. A failed check sets the flag and the cause; below the fourth in 256 ticks a restart waits for the edge, the fourth shows the modulator dead and stops it. A written MCLR that the worlds permit restarts a dead modulator of no axis in operation (its dead bit clears, its failures are forgotten), and clears its two counts. -/
def Obligations.Modulators : Prop :=
  ∀ (i : Fin 24) (s : State),
    (s.asleep = false →
      (∀ v : Interval, (s.modu i).running = true → (s.modu i).dead = false → v.s1.natAbs ≤ 256 → ((v.n : Int) * 256 - v.p).natAbs ≤ 256 →
        ∃ t, exec (.closeInterval i v) s = .next t ∧
          (let inv := (s.modu i).bad || (s.modu i).dirty || decide (0 < (s.modu i).settle)
           (t.modu i).runs = (satI 16 (average 70 v.bits (v.s1 - (s.modu i).s1) v.p), inv) :: (s.modu i).runs ∧ t.bit (mstat i) 9 = inv) ∧
          (t.modu i).s1 = v.s1 ∧ (t.modu i).bad = false ∧ t.bit (mstat i) 10 = v.ovl ∧ t.rd (modBase i + MOD.NSMP) = v.n % 65536 ∧ t.axes = s.axes) ∧
      (∀ why : Fin 3, (s.modu i).running = true → (s.modu i).dead = false → (why = 0 → s.bit (mstat i) 10 = false) →
        ∃ t, exec (.modulatorFail i why) s = .next t ∧ t.bit (mstat i) 15 = true ∧ t.fld (mstat i) 2 0 = why.val + 1 ∧ t.axes = s.axes ∧
          (if (s.modu i).fails.length < 3 then (t.modu i).restart = true ∧ (t.modu i).running = true ∧ (t.modu i).dead = false
           else (t.modu i).restart = false ∧ (t.modu i).running = false ∧ (t.modu i).dead = true ∧ t.bit (mstat i) 13 = true ∧ t.bit (mstat i) 12 = false))) ∧
    (∀ acc : Fin 15, s.ready = true → s.pow.shelf ≠ .shelf → s.violationOf acc (modbA MODB.MCLR) true = none →
      ((s.modu i).dead = true → (∃ n k, s.modAxis i = some (n, k) ∧ (s.st n = .off ∨ s.st n = .mute ∨ s.st n = .fault)) →
        ∃ t, exec (.modulatorRestart i acc) s = .next t ∧ (t.modu i).dead = false ∧ (t.modu i).restart = true ∧ (t.modu i).fails = [] ∧ t.bit (mstat i) 13 = false ∧ t.axes = s.axes) ∧
      (∃ t, exec (.modulatorCountClear i acc) s = .next t ∧ t.rd (modBase i + MOD.FAILCNT) = 0 ∧ t.rd (modBase i + MOD.SATCNT) = 0 ∧ t.axes = s.axes ∧ t.mods = s.mods))

/-- In operation: a completed conversion of an entry that is no reference, by a converter in its normal role, joins the held samples with its entry, input and code and moves the sequence one entry on; an urgent conversion serves the oldest request. URGENT of an input that the converter has, one in a tick, joins the queue and asks for a reserve item; RECHECK of a converter that is out starts it; its end lets the converter rejoin at the next edge where every reference conversion passed and reports LOCKED where not. OFFLINE, both converters in their normal role and what it holds being samples of its entries or urgent ones, takes it offline, makes the other the survivor, and reports DONE. -/
def Obligations.Converters : Prop :=
  ∀ (c : Fin 2) (s : State), s.asleep = false →
    (∀ x : Int, let e := (s.adcs[c]).pos % (s.seqOf c).length
      s.img.active = true → s.adcRole c = 0 → s.seqOf c ≠ [] → entInput (((s.seqOf c)[e]?).getD 0) ≠ 63 → ∃ t, exec (.sarConversion c (some x)) s = .next t ∧
        (∃ q, (t.adcs[c]).held = (s.adcs[c]).held ++ [q] ∧ q.kind = c.val ∧ q.e = e ∧ q.input = entInput (((s.seqOf c)[e]?).getD 0) ∧ q.x = clampI x (-8192) 8191 ∧
          q.settle = ((s.adcs[c]).young.any (fun y => y.1 == c.val * 32 + e) || s.inputSettling q.input)) ∧
        (t.adcs[c]).pos = (e + 1) % (s.seqOf c).length ∧ (t.adcs[c]).slots = (s.adcs[c]).slots + 1 ∧ (t.adcs[c]).queue = (s.adcs[c]).queue ∧ t.axes = s.axes ∧ t.regs = s.regs) ∧
    (∀ x host k tl, (s.adcs[c]).queue = (host, k) :: tl → s.adcRole c < 2 → ∃ t, exec (.urgentConversion c x) s = .next t ∧ (t.adcs[c]).queue = tl ∧
        (∃ q, (t.adcs[c]).held = (s.adcs[c]).held ++ [q] ∧ q.kind = (if host then 3 else 2) ∧ q.e = k ∧ q.input = (if host then k else 16 + k) ∧ q.x = clampI x (-8192) 8191) ∧
        (t.adcs[c]).slots = (s.adcs[c]).slots + 1 ∧ (t.adcs[c]).pos = (s.adcs[c]).pos ∧ t.axes = s.axes) ∧
    (∀ (acc : Fin 15) (inp : Byte), s.adcRole c < 2 → (inp.toNat < 49 ∨ (57 < inp.toNat ∧ inp.toNat < 64)) → (s.adcs[c]).hostTaken = false → (s.adcs[c]).queue.length < 4 →
        ∃ t, exec (.urgentCommand c acc inp) s = .next t ∧ (t.adcs[c]).queue = (s.adcs[c]).queue ++ [(true, inp.toNat)] ∧ (t.adcs[c]).hostTaken = true ∧
          (t.adcs[c]).hostAcc = acc ∧ ⟨20 + c, 2, 60, 0⟩ ∈ t.seq.reserve ∧ t.rd (adcBase c + ADC.UPEND) = (s.adcs[c]).queue.length + 1 ∧ t.axes = s.axes) ∧
    (∀ acc : Fin 15, 2 ≤ s.adcRole c → ∃ t, exec (.recheckAdc c acc 0) s = .next t ∧ t.adcs[c] = { s.adcs[c] with recheck := true } ∧ t.axes = s.axes ∧ t.regs = s.regs) ∧
    (∀ ok : Bool, (s.adcs[c]).recheck = true → ∃ t, exec (.recheckComplete c ok) s = .next t ∧ t.adcs[c] = { s.adcs[c] with recheck := false, rejoin := ok } ∧
        (if ok then t.regs = s.regs else t.rd (adcBase c + ADC.ACMDSTAT) = 0x205) ∧ t.axes = s.axes) ∧
    (∀ acc : Fin 15, s.adcRole c = 0 → s.adcRole (otherAdc c) = 0 → (∀ q ∈ (s.adcs[c]).held, q.kind < 4 ∧ q.e < 32) → ∃ t, exec (.offlineAdc c acc 0) s = .next t ∧
        t.adcRole c = 3 ∧ t.adcRole (otherAdc c) = 1 ∧ t.rd (adcBase c + ADC.ACMDSTAT) = 0x300 ∧ (t.adcs[otherAdc c]).adopt = 0 ∧ t.axes = s.axes)

/-- In operation: a supply that leaves its window (a logic supply upwards, another one either way) sets its bit of WSTAT and of WEVT, V12 stopping every excitation driver; a logic supply under its window resets the part with the brown-out cause. A supply back in its window clears its two bits of WSTAT. The die's overtemperature sets bit 10 of TSTAT and, armed, is logged as 0x0803 with window 10 and level 2; a window that falls through its release clears its bit of TSTAT, a leg group its condition, the die arms its event again. -/
def Obligations.WindowMonitors : Prop :=
  ∀ s : State, s.asleep = false →
    (∀ (k : Fin 6) (isOver : Bool), let i := if isOver then 8 + k.val else k.val
      (((isOver = true ∨ k.val < 2 ∨ k = 5) → s.bit (cmpA CMP.WSTAT) i = false → ∃ t, exec (.supplyWindow k isOver) s = .next t ∧ t.bit (cmpA CMP.WSTAT) i = true ∧
          t.bit (cmpA CMP.WEVT) i = true ∧ (k = 1 → ∀ d : Fin 4, (t.excs[d]).run = false) ∧ t.axes = s.axes) ∧
       (isOver = false → 2 ≤ k.val → k.val ≤ 4 → ∃ t, exec (.supplyWindow k isOver) s = .next t ∧ t.pow.inReset = true ∧ t.pow.causes = 2 ^ 13 ∧ t.axes = State.blank.axes))) ∧
    (∀ k : Fin 6, ∃ t, exec (.supplyReturn k) s = .next t ∧ t.bit (cmpA CMP.WSTAT) k = false ∧ t.bit (cmpA CMP.WSTAT) (8 + k) = false ∧ t.axes = s.axes) ∧
    (∃ t, exec .dieOvertemperature s = .next t ∧ t.bit (cmpA CMP.TSTAT) 10 = true ∧ t.axes = s.axes ∧
      (s.cmps.dieArmed = true → s.pow.inReset = false → s.flt.hist.length < 32 → ∃ x ∈ t.flt.hist, x.code = 0x0803 ∧ x.w6 = 10 ∧ x.w7 = 2)) ∧
    (∀ j : Fin 11, ∃ t, exec (.thermalWindowRelease j) s = .next t ∧ t.bit (cmpA CMP.TSTAT) j = false ∧ (∀ h : j.val < 10, t.stage.ot[j.val] = false) ∧
      (j = 10 → t.cmps.dieArmed = true) ∧ t.axes = s.axes)

/-- In operation: a change of a comparator that is on and not held shows its level, sets the flag of its direction and counts; held, it waits for the end of the hold. An enabled wake input that asserts sets its flag, and in the shelf state wakes the part; one that releases clears its level. An auto-zero sample of a comparator that is neither frozen nor tested moves the accumulator, and at 4 the trim by one the other way, within 31, the accumulator starting anew. A self-check of a testable comparator whose shadow is not in use leaves the fail bit as its result says and its test over. SELFTEST by an accessor whose world holds the trim word starts the test of a testable comparator. -/
def Obligations.ComparatorsAndSelfCheck : Prop :=
  (∀ s : State, s.asleep = false →
      (∀ (m : Fin 8) (rise : Bool), s.cmpOn m = true → s.bit (cstat m) 13 = !rise →
        (s.cmps.hold[m] = 0 → ∃ t, exec (.cmpEdge m rise) s = .next t ∧ t.bit (cstat m) 13 = rise ∧ t.bit (cstat m) (if rise then 15 else 14) = true ∧
          t.rd (cmpBase m + CMPC.ECNT) = min 0xFFFF (s.rd (cmpBase m + CMPC.ECNT) + 1) ∧ t.axes = s.axes) ∧
        (0 < s.cmps.hold[m] → ∃ t, exec (.cmpEdge m rise) s = .next t ∧ t.cmps.held[m] = some rise ∧ t.regs = s.regs ∧ t.axes = s.axes)) ∧
      (∀ (c : Fin 101) (o : Bool), s.azFrozen c = false → s.cmps.tests.any (fun t => t.1 == c.val) = false → ∃ t, exec (.autozeroSample c o) s = .next t ∧ t.axes = s.axes ∧
        (let a := if o then (s.cmps.az[c]).acc + 1 else (s.cmps.az[c]).acc - 1
         (a.natAbs = 4 → (t.cmps.az[c]).acc = 0 ∧ t.azTrim c = clampI (s.azTrim c - sgn a) (-31) 31) ∧ (a.natAbs ≠ 4 → (t.cmps.az[c]).acc = a ∧ t.azTrim c = s.azTrim c))) ∧
      (∀ (c : Fin 101) (r : Fin 4), s.testable c = true → (r.val = 0 ∨ s.bit (azA c) 10 = false) → ∃ t, exec (.selfCheck c r) s = .next t ∧
        t.bit (azA c) 11 = decide (r.val ≠ 0) ∧ t.cmps.tests.any (fun x => x.1 == c.val) = false ∧ t.axes = s.axes)) ∧
    (∀ (i : Fin 2) (s : State), s.pow.inReset = false →
      (s.bit (cmpA CMP.WCFG + 4 * i) 13 = true → s.bit (cmpA CMP.WKSTAT) (13 - i) = false → ∃ t, exec (.wakeInput i true) s = .next t ∧
        t.bit (cmpA CMP.WKSTAT) (13 - i) = true ∧ t.bit (cmpA CMP.WKSTAT) (15 - i) = true ∧ t.axes = s.axes ∧
        (s.pow.shelf = .shelf → t.pow.shelf = .running ∧ t.pow.causes.testBit 10 = true) ∧ (s.pow.shelf ≠ .shelf → t.pow.shelf = s.pow.shelf)) ∧
      (∃ t, exec (.wakeInput i false) s = .next t ∧ t.bit (cmpA CMP.WKSTAT) (13 - i) = false ∧ t.pow = s.pow ∧ t.axes = s.axes)) ∧
    (∀ (acc : Fin 15) (c : Fin 101) (s : State), s.ready = true → s.pow.shelf ≠ .shelf → s.violationOf acc (cmpA CMP.STCMD) true = none → s.mayAccess acc (azBlock c) = true →
      s.testable c = true → s.cmps.stAcc = none → s.cmps.tests.any (fun t => t.1 == c.val) = false → ∃ t, exec (.selftest acc (BitVec.ofNat 8 c)) s = .next t ∧
        t.cmps.stAcc = some (c.val, acc.val) ∧ t.cmps.tests = s.cmps.tests ++ [(c.val, s.testTime c)] ∧ t.axes = s.axes ∧ t.regs = s.regs)

/-- At rest after a touch stop with retract, an axis moves by TRETR against the former direction where that target is in the limits. A continuity probe at its end shows cont and partial and counts consecutive findings. Both windings open in the loop, or three probes without continuity, unplug: UNPLUGGED with vel 0, pos kept, REM dropped, unplug_seen set and PLUGCNT counted. Three continuous probes in UNPLUGGED lead to IDENTIFY (auto_id = 1) or MUTE, with plug_seen; hp_en = 0 leads to MUTE. An identification with both windings measured records them and gives 4 without a reference, 2 in all bands and else 3 with the motor lock set, and the axis leaves to MUTE; an open winding gives 5, and UNPLUGGED where it came from there. ACCEPT takes the means as RNOM and LNOM and clears mismatch; CLRCNT clears PLUGCNT. -/
def Obligations.HotplugAndIdentify : Prop :=
  ∀ (n : Fin 12) (s : State), s.asleep = false →
    ((s.ppl n).retract = none → exec (.touchRetract n) s = .next s) ∧
    (∀ d x : Int, (s.ppl n).retract = some d → (s.st n = .hold ∨ s.st n = .paused) → x = (s.mot n).ipos + d * s.axr n AX.TRETR → (s.slOn n = true → s.slMin n ≤ x ∧ x ≤ s.slMax n) →
      x ≠ (s.mot n).ipos → satI 48 x = x → s.limitOn n (if 0 < d then 1 else 0) = false → s.axr n AX.VMAX ≠ 0 → s.axr n AX.AMAX ≠ 0 → s.axr n AX.DMAX ≠ 0 →
      ∃ t, exec (.touchRetract n) s = .next t ∧ t.st n = .move ∧ (t.mot n).target = x ∧ (t.mot n).hasTarget = true ∧ (t.ppl n).retract = none ∧ (t.ppl n).back = true) ∧
    (s.probeRuns n = true → (s.ppl n).probe = some 0 → ∀ a b : Bool, ∃ t, exec (.continuityProbe n a b) s = .next t ∧ t.bit (fpstat n) 11 = (a && b) ∧ t.bit (fpstat n) 12 = (a != b) ∧
      (t.ppl n).probe = none ∧ (t.ppl n).probes = (if (if s.st n = .mute then !a && !b else a && b) then (s.ppl n).probes + 1 else 0) ∧ t.mot n = s.mot n) ∧
    (s.hotPlug n = true → ((s.energised n = true ∧ s.openNow n = (true, true)) ∨ (s.energised n = false ∧ s.st n = .mute ∧ s.probeRuns n = true ∧ 3 ≤ (s.ppl n).probes)) →
      ∃ t, exec (.unplug n) s = .next t ∧ t.st n = .unplugged ∧ (t.mot n).vel = 0 ∧ (t.mot n).acc = 0 ∧ (t.mot n).pos = (s.mot n).pos ∧ (t.mot n).rem = 0 ∧ (t.mot n).remValid = false ∧
        t.bit (fpstat n) 14 = true ∧ t.axr n AX.PLUGCNT = min 0xFFFF (s.axr n AX.PLUGCNT + 1) ∧ t.bit (ostat n) 9 = false) ∧
    (s.st n = .unplugged → (s.probeRuns n = true → 3 ≤ (s.ppl n).probes → ∃ t, exec (.replug n) s = .next t ∧ t.st n = (if s.axb n AX.FPCFG 1 = true then .identify else .mute) ∧
        t.bit (fpstat n) 15 = true ∧ (t.mot n).pos = (s.mot n).pos) ∧
      (s.axb n AX.FPCFG 0 = false → ∃ t, exec (.hotplugDisable n) s = .next t ∧ t.st n = .mute ∧ (t.mot n).pos = (s.mot n).pos)) ∧
    (s.st n = .identify → s.fld (fpstat n) 10 8 = 1 → ∀ a b : IdWinding,
      ((s.identify n a).isSome = true → (s.identify n b).isSome = true → ∃ t ra la rb lb, exec (.identifyComplete n a b) s = .next t ∧ s.identify n a = some (ra, la) ∧ s.identify n b = some (rb, lb) ∧
        t.val (axBase n + AX.IDRA) = BitVec.ofNat 64 ra ∧ t.val (axBase n + AX.IDRB) = BitVec.ofNat 64 rb ∧ t.val (axBase n + AX.IDLA) = BitVec.ofNat 64 la ∧ t.val (axBase n + AX.IDLB) = BitVec.ofNat 64 lb ∧
        (t.mot n).next = some .mute ∧
        (s.axr n AX.RNOM = 0 ∨ s.axr n AX.LNOM = 0 → t.fld (fpstat n) 10 8 = 4) ∧
        (s.axr n AX.RNOM ≠ 0 → s.axr n AX.LNOM ≠ 0 →
          let bad := outside ra (s.axr n AX.RNOM) (s.axr n AX.FPRTOL) || outside rb (s.axr n AX.RNOM) (s.axr n AX.FPRTOL) || outside la (s.axr n AX.LNOM) (s.axr n AX.FPLTOL) || outside lb (s.axr n AX.LNOM) (s.axr n AX.FPLTOL)
          t.fld (fpstat n) 10 8 = (if bad then 3 else 2) ∧ t.bit (fpstat n) 13 = bad)) ∧
      (s.identify n a = none → ∃ t, exec (.identifyComplete n a b) s = .next t ∧ t.fld (fpstat n) 10 8 = 5 ∧ (t.mot n).next = some (if (s.ppl n).fromUnplug then .unplugged else .mute))) ∧
    (∀ acc : Fin 15, s.isPower n = true →
      ((s.st n = .off ∨ s.st n = .mute) → (s.fld (fpstat n) 10 8 = 2 ∨ s.fld (fpstat n) 10 8 = 3) → ∃ t, exec (.acceptMotor n acc 0) s = .next t ∧
        t.val (axBase n + AX.RNOM) = BitVec.ofNat 64 ((s.axr n AX.IDRA + s.axr n AX.IDRB) / 2) ∧ t.val (axBase n + AX.LNOM) = BitVec.ofNat 64 ((s.axr n AX.IDLA + s.axr n AX.IDLB) / 2) ∧
        t.bit (fpstat n) 13 = false ∧ t.rd (axBase n + AX.FPCMDSTAT) = 0x0100 ∧ t.axes = s.axes) ∧
      (∃ t, exec (.clrcnt n acc 0) s = .next t ∧ t.axr n AX.PLUGCNT = 0 ∧ t.rd (axBase n + AX.FPCMDSTAT) = 0x0200 ∧ t.axes = s.axes))

/-- An enabled port that is down, with signal and sync and no injected loss, comes up with a partner at 1000 Mb/s full duplex, and shows speedbad and stays down with any other. An up port goes down with its cause: down_seen, LDCNT counted, its queue empty; a port that is down takes only the signs of signal and sync. Signal and sync that are lost take an up port down as cause 1 and 2, and on a port that is down clear in PSTAT. An acquisition step takes the next boost of 16 with both taps 0, unless the loop is frozen or the PCS in sync. An update counts the invalid code groups; in sync, unfrozen and with at most 16 of them each value moves one step at most, by the sign of its sum where that reaches its threshold, within its range; else no value moves. -/
def Obligations.LinksAndEqualiser : Prop :=
  ∀ (p : Fin 2) (s : State), s.asleep = false →
    (s.portUp p = false → s.portEn p = true → s.bit (npStat p) 13 = true → s.bit (npStat p) 14 = false → s.flt.injLink.testBit p = false → s.pow.inReset = false → s.pow.shelf ≠ .shelf →
      (∃ t, exec (.linkUp p true) s = .next t ∧ t.portUp p = true ∧ t.bit (npStat p) 9 = false ∧ t.bit (npStat p) 11 = false ∧ t.bit (npStat p) 12 = s.bit (netpBase p + NETP.PCFG) 13) ∧
      (∃ t, exec (.linkUp p false) s = .next t ∧ t.portUp p = false ∧ t.bit (npStat p) 9 = true)) ∧
    (∀ (cause : Fin 4) (rf : Bool), ∃ t, exec (.linkDown p cause rf) s = .next t ∧ t.portUp p = false ∧ t.bit (npStat p) 12 = false ∧ t.axes = s.axes ∧
      (s.portUp p = true → t.bit (npStat p) 10 = true ∧ t.rd (netpBase p + NETP.LDCNT) = min 0xFFFF (s.rd (netpBase p + NETP.LDCNT) + 1) ∧ (t.net.port[p]).txq = [])) ∧
    (∃ t, exec (.signalDetect p true) s = .next t ∧ t.bit (npStat p) 14 = false) ∧
    (s.portUp p = true → exec (.signalDetect p false) s = exec (.linkDown p 0 false) s ∧ exec (.pcsSync p false) s = exec (.linkDown p 1 false) s) ∧
    (s.portUp p = false → (∃ t, exec (.signalDetect p false) s = .next t ∧ t.bit (npStat p) 14 = true ∧ t.bit (npStat p) 13 = false) ∧
      (∃ t, exec (.pcsSync p false) s = .next t ∧ t.bit (npStat p) 13 = false)) ∧
    (s.portEn p = true → s.bit (npStat p) 14 = false → s.flt.injLink.testBit p = false → ∃ t, exec (.pcsSync p true) s = .next t ∧ t.bit (npStat p) 13 = true ∧ t.portUp p = s.portUp p) ∧
    ((s.eqFrozen p = true ∨ s.bit (npStat p) 13 = true) → exec (.eqAcquireStep p) s = .next s) ∧
    (s.eqFrozen p = false → s.bit (npStat p) 13 = false → ∃ t, exec (.eqAcquireStep p) s = .next t ∧ t.fld (netpBase p + NETP.EQ) 11 8 = (s.fld (netpBase p + NETP.EQ) 11 8 + 1) % 16 ∧
      t.rdI 16 (netpBase p + NETP.DFE1) = 0 ∧ t.rdI 16 (netpBase p + NETP.DFE2) = 0) ∧
    (∀ (s1 s2 sb : Int) (errs : Nat), ∃ t, exec (.eqUpdate p s1 s2 sb errs) s = .next t ∧ t.rd (netpBase p + NETP.CODEERR) = min 0xFFFF (s.rd (netpBase p + NETP.CODEERR) + errs) ∧
      ((s.eqFrozen p = true ∨ s.bit (npStat p) 13 = false ∨ 16 < errs) → t.val (netpBase p + NETP.EQ) = s.val (netpBase p + NETP.EQ) ∧ t.val (netpBase p + NETP.DFE1) = s.val (netpBase p + NETP.DFE1) ∧
        t.val (netpBase p + NETP.DFE2) = s.val (netpBase p + NETP.DFE2) ∧ t.net = s.net) ∧
      (s.eqFrozen p = false → s.bit (npStat p) 13 = true → errs ≤ 16 → let b : Int := s.fld (netpBase p + NETP.EQ) 11 8
        t.fld (netpBase p + NETP.EQ) 11 8 = (if 128 ≤ sb.natAbs then clampI (b + sgn sb) 0 15 else b) ∧
        t.rdI 16 (netpBase p + NETP.DFE1) = (if 64 ≤ s1.natAbs then clampI (s.rdI 16 (netpBase p + NETP.DFE1) + sgn s1) (-31) 31 else s.rdI 16 (netpBase p + NETP.DFE1)) ∧
        t.rdI 16 (netpBase p + NETP.DFE2) = (if 64 ≤ s2.natAbs then clampI (s.rdI 16 (netpBase p + NETP.DFE2) + sgn s2) (-31) 31 else s.rdI 16 (netpBase p + NETP.DFE2))))

/-- A frame that comes in on a port that is down changes nothing; a frame of a wrong length or with a bad FCS counts in CRCERR and any other in RXFRM. A good foreign frame enters its queue of the other port as it came, where that port is up and has room, and a reserved destination that is no 802.1AS message and the part's own Jisil frames go no further. A good Jisil reply of another node enters queue 2 of the other port with hops less one. A cyclic frame of another cycle counts in CYCERR, a second one of its source changes nothing, and the first stores the value of each entry on a valid item of it, unless one is pending. A port that is up sends the oldest frame of its highest queue. The publication that was built leaves as one frame when TXDLY has passed. UCMT stages the words of each named user object for the next boundary. -/
def Obligations.FramesAndCycles : Prop :=
  ∀ s : State, s.asleep = false →
    (∀ (p : Fin 2) (b : List Byte) (fcs : Bool), let o := otherPort p
      let room (q n : Nat) : Prop := s.portUp o = true ∧ (s.net.port[o]).hold ≤ queueLimit q ∧ (s.net.port[o]).hold + n + 4 ≤ 16384
      let own := beNat (b.take 6)
      let reserved : Prop := 0x0180C2000000 ≤ own ∧ own ≤ 0x0180C200000F
      let ptp : Prop := own = 0x0180C200000E ∧ u16 b 12 = 0x88F7
      (s.portUp p = false → exec (.frameReceive p b fcs) s = .next s) ∧
      (s.portUp p = true → (b.length < 60 ∨ 1518 < b.length) → ∃ t, exec (.frameReceive p b fcs) s = .next t ∧ t.rd (netpBase p + NETP.CRCERR) = min 0xFFFF (s.rd (netpBase p + NETP.CRCERR) + 1) ∧ t.net = s.net) ∧
      (s.portUp p = true → 60 ≤ b.length → b.length ≤ 1518 → reserved → ¬ ptp → ∃ t, exec (.frameReceive p b fcs) s = .next t ∧ t.net = s.net ∧
        (fcs = true → t.rd (netpBase p + NETP.RXFRM) = (s.rd (netpBase p + NETP.RXFRM) + 1) % 2 ^ 32) ∧ (fcs = false → t.rd (netpBase p + NETP.CRCERR) = min 0xFFFF (s.rd (netpBase p + NETP.CRCERR) + 1))) ∧
      (s.portUp p = true → 60 ≤ b.length → b.length ≤ 1518 → ¬ reserved → s.jisilAt b = none → room (foreignQueue b) b.length → ∃ t, exec (.frameReceive p b true) s = .next t ∧
        t.rd (netpBase p + NETP.RXFRM) = (s.rd (netpBase p + NETP.RXFRM) + 1) % 2 ^ 32 ∧ (t.net.port[o]).txq = (s.net.port[o]).txq ++ [⟨foreignQueue b, b, false, noSess⟩]) ∧
      (∀ h, s.portUp p = true → 60 ≤ b.length → b.length ≤ 1518 → ¬ reserved → s.jisilAt b = some h → s.devAddr ≠ 0 →
        (u16 b (h + 2) % 32768 = s.devAddr → ∃ t, exec (.frameReceive p b fcs) s = .next t ∧ t.net = s.net) ∧
        (u16 b (h + 2) % 32768 ≠ s.devAddr → u16 b (h + 4) % 32768 ≠ s.devAddr → byteAt b h % 16 = 3 → byteAt b (h + 1) ≠ 0 → room 2 b.length → ∃ t, exec (.frameReceive p b true) s = .next t ∧
          (t.net.port[o]).txq = (s.net.port[o]).txq ++ [⟨2, b.set (h + 1) (BitVec.ofNat 8 (byteAt b (h + 1) - 1)), false, noSess⟩]))) ∧
    (∀ (src : Nat) (cycle : BitVec 32) (items : List CycItem),
      (cycle ≠ s.tim.cyc → ∃ t, exec (.cyclicFrame src cycle items) s = .next t ∧ t.rd (netA NET.CYCERR) = min 0xFFFF (s.rd (netA NET.CYCERR) + 1) ∧ t.net = s.net) ∧
      (cycle = s.tim.cyc → src ∈ s.net.seen → exec (.cyclicFrame src cycle items) s = .next s) ∧
      (cycle = s.tim.cyc → src ∉ s.net.seen → ∃ t, exec (.cyclicFrame src cycle items) s = .next t ∧ src ∈ t.net.seen ∧ t.regs = s.regs ∧ (∀ e ∈ s.net.pend, e ∈ t.net.pend) ∧
        (∀ (k : Nat) (i : CycItem) (v : BitVec 48), k ∈ s.subsUsed → s.subEp k / 64 = src → s.subSusp k = false → k ∉ s.flt.subBad → s.net.pend.any (fun e => e.1 == k) = false →
          items.find? (fun i => i.obj == s.subEp k % 64) = some i → i.valid = true → s.subValue k i.words = some v → (k, v) ∈ t.net.pend))) ∧
    (∀ p : Fin 2, s.portUp p = true → ∀ f rest, popFrame (s.net.port[p]).txq = some (f, rest) → ∃ t, exec (.transmitFrame p) s = .next t ∧ (t.net.port[p]).wire = some f ∧
      t.rd (netpBase p + NETP.TXFRM) = (s.rd (netpBase p + NETP.TXFRM) + 1) % 2 ^ 32 ∧ (u16 f.bytes 12 ≠ 0x88F7 → (t.net.port[p]).txq = rest)) ∧
    (∀ src c pl, s.net.built = some (src, c, pl) → (s.net.txLeft = 0 → ∃ t, exec .cyclicTransmission s = .next t ∧ t.net.built = none ∧ t.rd (netA NET.SEQ) = (s.rd (netA NET.SEQ) + 1) % 65536) ∧
      (0 < s.net.txLeft → exec .cyclicTransmission s = .next s)) ∧
    (∀ (acc : Fin 15) (w : BitVec 32), s.ready = true → s.violationOf acc (netA NET.UCMT) true = none → ∃ t, exec (.uobjCommit acc w) s = .next t ∧ t.regs = s.regs ∧
      ∀ u < 16, (w.toNat % 65536 &&& w.toNat / 65536).testBit u = true → (u, (List.range 8).map (fun i => BitVec.ofNat 16 (s.rd (uobjBase u + 4 * i)))) ∈ t.net.unext)

/-- A received CLAIM of an address renews the source in the duplicate filter and the list of addresses seen; the holder of the address answers another MAC with a frame (DEFEND), and a claiming node loses to a lower MAC with astate 0 and refused. A DEFEND of the address being claimed fails the claim too. The manager with an address answers a REQUEST with one frame and other nodes nothing. An OFFER for this MAC fails the claim where it holds 0 and else begins the claim of its address. A LEAVE frees the address. 10 ms after a CLAIM the next is sent up to the third, and after that the address is confirmed; 1 s after a REQUEST the next is sent up to the third, and then the claim fails. The command CLAIM begins a claim of ADDRREQ, or asks with 0; RELEASE sends a frame, closes every session and leaves the node unaddressed. Each frame sent advances SEQ. -/
def Obligations.AddressProtocol : Prop :=
  ∀ s : State, s.asleep = false → let more (t : State) : Prop := t.rd (netA NET.SEQ) = (s.rd (netA NET.SEQ) + 1) % 65536
    let failed (t : State) : Prop := t.astate = 0 ∧ t.bit (netA NET.NSTAT) 11 = true ∧ t.net.claimer = none
    let begun (t : State) (a : Nat) : Prop := t.astate = 1 ∧ t.net.cand = a ∧ t.net.claims = 1 ∧ t.net.claimClk = 0 ∧ more t
    (∀ (a : Fin 32768) (mac : BitVec 48) (seq : BitVec 16), a.val ≠ 0 → a.val ≤ 0x7FFE → ∃ t, exec (.claimFrame a mac seq) s = .next t ∧ (∃ d ∈ t.net.dups, d = ⟨a, seq, 0⟩) ∧ a.val ∈ t.net.known ∧
      (s.astate = 3 → s.devAddr = a → mac.toNat ≠ s.mac → more t ∧ t.astate = 3) ∧
      (s.astate = 1 → s.net.cand = a → mac.toNat < s.mac → failed t) ∧
      (s.astate = 1 → s.mac ≤ mac.toNat → t.astate = 1)) ∧
    (∀ a : Fin 32768, ∃ t, exec (.addrDefend a) s = .next t ∧ (s.astate = 1 → s.net.cand = a → failed t) ∧ ((s.astate ≠ 1 ∨ s.net.cand ≠ a) → t.astate = s.astate)) ∧
    (∀ mac : BitVec 48, (s.bit (netA NET.CFG) 0 = true → s.astate = 3 → ∃ t, exec (.addrRequest mac) s = .next t ∧ more t ∧ t.net.known = s.net.known) ∧
      ((s.bit (netA NET.CFG) 0 = false ∨ s.astate ≠ 3) → exec (.addrRequest mac) s = .next s)) ∧
    (∀ (a : Fin 32768) (mac : BitVec 48), (s.astate = 2 → mac.toNat = s.mac → ∃ t, exec (.addrOffer a mac) s = .next t ∧ (a.val = 0 → failed t) ∧ (a.val ≠ 0 → begun t a)) ∧
      ((s.astate ≠ 2 ∨ mac.toNat ≠ s.mac) → exec (.addrOffer a mac) s = .next s)) ∧
    (∀ a : Fin 32768, ∃ t, exec (.addrLeave a) s = .next t ∧ a.val ∉ t.net.known ∧ (∀ b, b ≠ a.val → (b ∈ t.net.known ↔ b ∈ s.net.known))) ∧
    (s.claimWaited = true → (s.net.claims < 3 → ∃ t, exec .claimResend s = .next t ∧ t.net.claims = s.net.claims + 1 ∧ t.net.claimClk = 0 ∧ more t ∧ t.astate = 1) ∧
      (3 ≤ s.net.claims → ∃ t, exec .claimConfirm s = .next t ∧ t.astate = 3 ∧ t.devAddr = s.net.cand % 2 ^ 64 ∧ t.net.claimer = none)) ∧
    (s.claimWaited = false → exec .claimResend s = .next s ∧ exec .claimConfirm s = .next s) ∧
    (s.requestWaited = true → (s.net.asked < 3 → ∃ t, exec .requestRetry s = .next t ∧ t.net.asked = s.net.asked + 1 ∧ t.net.claimClk = 0 ∧ more t ∧ t.astate = 2) ∧
      (3 ≤ s.net.asked → ∃ t, exec .requestRetry s = .next t ∧ failed t)) ∧
    (∀ acc : Fin 15, s.ready = true → s.mayAccess acc 52 = true → s.net.claimer = none →
      (s.astate = 0 → (s.portUp 0 || s.portUp 1) = true → ∃ t, exec (.claimAddr acc 0) s = .next t ∧ t.net.claimer = some acc.val ∧
        (s.rd (netA NET.ADDRREQ) ≠ 0 → begun t (s.rd (netA NET.ADDRREQ))) ∧ (s.rd (netA NET.ADDRREQ) = 0 → t.astate = 2 ∧ t.net.asked = 1 ∧ more t)) ∧
      (s.astate = 3 → ∃ t, exec (.releaseAddr acc 0) s = .next t ∧ t.astate = 0 ∧ t.devAddr = 0 ∧ more t ∧ (∀ k : Fin 8, t.sessOpen k = false) ∧ t.rd (netA NET.NCMDSTAT) = 0x1100))

/-- For an accessor of block 54: POP n removes the n oldest entries, POP_SNAP those up to the one of its snapshot, or none where it has left; both answer DONE. In factory test mode INJ_EVENT logs its code and details with W5.inj, INJ_ECC arms, INJ_SAR, INJ_PORT and INJ_LINK record what they hold, INJ_MOD fails a running modulator with cause 1, LIFE_CLR zeroes the 16 counters, and CLOSE_TEST ends the mode with the lock set, the holds and INJ_ECC gone. Out of it all eight answer STATE and inject nothing. A read of HE0 that the worlds permit takes the entry of HSEL; FSELBIT takes a bit that names a W1C flag with FSEL, and no other. The scrubber passes a sound word, corrects a single upset counting LIFE 2, and counts and remembers a double one; LIFE 1 counts under an active image. -/
def Obligations.FaultManager : Prop :=
  ∀ s : State, s.asleep = false →
    let said (t : State) (op : Nat) (st : Status) : Prop := t.rd (fltA FLT.CMDSTAT) = op * 256 + st.code
    (∀ acc : Fin 15, s.ready = true →
      (s.mayAccess acc 54 = true →
        (∀ n : Byte, n.toNat ≠ 0 → n.toNat ≤ 32 → ∃ t, exec (.popHistory acc n) s = .next t ∧ said t 0x01 .done ∧ t.flt.hist = s.flt.hist.drop n.toNat) ∧
        (∀ e, (s.acc[acc]).hsnap = some e → ∃ t, exec (.popSnap acc 0) s = .next t ∧ said t 0x02 .done ∧
          t.flt.hist = (match s.flt.hist.findIdx? (fun x => x.seq == e.seq) with | some i => s.flt.hist.drop (i + 1) | none => s.flt.hist)) ∧
        (s.flt.tm = true →
          (let c := s.rd (fltA FLT.INJCODE)
           (evRow c).isSome = true → s.rd (fltA FLT.INJOBJ) < 12 ∨ s.rd (fltA FLT.INJOBJ) = 29 → s.pow.inReset = false → s.flt.hist.length < 32 →
            ∃ t, exec (.injEvent acc 0) s = .next t ∧ said t 0x10 .done ∧
              ∃ x ∈ t.flt.hist, x.code = BitVec.ofNat 16 c ∧ x.w6 = BitVec.ofNat 16 (s.rd (fltA FLT.INJD1)) ∧ x.w7 = BitVec.ofNat 16 (s.rd (fltA FLT.INJD2)) ∧ x.w5.getLsbD 6 = true) ∧
          (∀ k : Byte, k = 1 ∨ k = 2 → ∃ t, exec (.injEcc acc k) s = .next t ∧ said t 0x11 .done ∧ t.flt.eccArm = some (s.rd (fltA FLT.INJADDR) / 4 * 4, k.toNat)) ∧
          (∀ c : Byte, c.toNat ≤ 1 → ∃ t, exec (.injSar acc c) s = .next t ∧ said t 0x12 .done ∧ c.toNat ∈ t.flt.injSar) ∧
          (∀ i : Fin 24, (s.modu i).running = true → (s.modu i).dead = false → s.bit (mstat i) 10 = false →
            ∃ t, exec (.injMod acc (BitVec.ofNat 8 i)) s = .next t ∧ said t 0x13 .done ∧ t.bit (mstat i) 15 = true ∧ t.fld (mstat i) 2 0 = 1) ∧
          (∀ m : Byte, m.toNat ≤ 3 → ∃ t, exec (.injLink acc m) s = .next t ∧ said t 0x14 .done ∧ t.flt.injLink = m.toNat) ∧
          (∀ p : Byte, p.toNat ≤ 7 → ∃ t, exec (.injPort acc p) s = .next t ∧ said t 0x15 .done ∧ p.toNat ∈ t.flt.injPort) ∧
          (∃ t, exec (.lifeClr acc 0) s = .next t ∧ said t 0x16 .done ∧ ∀ k, k < 16 → t.rd (fltA FLT.LIFE + 8 * k) = 0) ∧
          (∃ t, exec (.closeTest acc 0xA5) s = .next t ∧ said t 0x1F .done ∧ t.flt.tm = false ∧ t.pow.lock = true ∧ t.flt.eccArm = none ∧ t.flt.injLink = 0)) ∧
        (s.flt.tm = false → ∀ x : Byte, ∀ p ∈ [(0x10, Instr.injEvent acc x), (0x11, .injEcc acc x), (0x12, .injSar acc x), (0x13, .injMod acc x), (0x14, .injLink acc x), (0x15, .injPort acc x),
            (0x16, .lifeClr acc x), (0x1F, .closeTest acc x)],
          ∃ t, exec p.2 s = .next t ∧ said t p.1 .state ∧ t.flt.eccArm = s.flt.eccArm ∧ t.flt.injSar = s.flt.injSar ∧ t.flt.injLink = s.flt.injLink ∧ t.flt.injPort = s.flt.injPort ∧ t.mods = s.mods ∧ t.pow = s.pow)) ∧
      (s.violationOf acc (fltA FLT.HE0) false = none → ∃ t, exec (.historySnapshot acc) s = .next t ∧ (t.acc[acc]).hsnap = s.flt.hist[(s.acc[acc]).hsel.toNat]? ∧ t.regs = s.regs ∧ t.flt = s.flt) ∧
      (s.violationOf acc (fltA FLT.FSELBIT) true = none → ∀ v : Fin 16, ∃ t, exec (.fselbitWrite acc (fullMask v)) s = .next t ∧ t.regs = s.regs ∧
        (t.acc[acc]).fselbit = (if flagAt (s.acc[acc]).fsel.toNat v = true then BitVec.ofNat 4 v else (s.acc[acc]).fselbit))) ∧
    (s.pow.inReset = false →
      let w := scrubWord s.flt.scrubAt
      let next := (s.flt.scrubAt + 1) % scrubWords
      (s.flt.upsets.find? (fun u => u.store == w.1 && u.index == w.2) = none → ∃ t, exec .scrub s = .next t ∧ t.flt.scrubAt = next ∧ t.flt.upsets = s.flt.upsets ∧ t.regs = s.regs) ∧
      (∀ u, s.flt.upsets.find? (fun u => u.store == w.1 && u.index == w.2) = some u → ∃ t, exec .scrub s = .next t ∧ t.flt.scrubAt = next ∧
        (u.dbl = false → t.flt.upsets = s.flt.upsets.erase u ∧ t.rd (fltA FLT.LIFE + 8 * 2) = min 0xFFFFFFFF (s.rd (fltA FLT.LIFE + 8 * 2) + 1) ∧ t.flt.hist = s.flt.hist) ∧
        (u.dbl = true → t.flt.upsets = s.flt.upsets ∧ w ∈ t.flt.eccLogged ∧ t.bit (fltA FLT.STATUS) 11 = true)) ∧
      (s.img.active = true → ∃ t, exec .lifetimeSecond s = .next t ∧ t.rd (fltA FLT.LIFE + 8 * 1) = min 0xFFFFFFFF (s.rd (fltA FLT.LIFE + 8 * 1) + 1)))

/-- After reset HPS is the master, path memory reads 0 everywhere, the history is empty, no reaction is due, no session is open, no image is active, por is the recorded cause and the part is in reset no longer; FLT.INJOBJ reads 0x001D, OCTHR of every half bridge 0x0030, CMDSTAT, HCOUNT and TIM.STATUS.state 0, and every accessor has a fresh copy of what it has for itself. -/
def Obligations.ResetValues : Prop :=
  State.reset.master_ = 1 ∧ (∀ a, pathWord State.reset.path a = 0) ∧ State.reset.flt.hist = [] ∧ State.reset.flt.due = [] ∧ (∀ k : Fin 8, State.reset.sessOpen k = false) ∧ State.reset.img.active = false ∧
    State.reset.rd (devA DEV.RSTCAUSE) = 0x8000 ∧ State.reset.pow.inReset = false ∧ State.reset.rd (fltA FLT.INJOBJ) = 0x001D ∧ (∀ u : Fin 40, State.reset.rd (unitBase u + PU.OCTHR) = 0x0030) ∧
    State.reset.rd (fltA FLT.CMDSTAT) = 0 ∧ State.reset.tim.st = .free ∧ (∀ k : Fin 15, State.reset.acc[k] = Accessor.fresh)

/-- A part that serves: a WRITE of a burst of path memory that the worlds permit stores every word at its address and leaves every other byte, a READ of such a burst drives its words behind the status word, both recorded as DONE with their number of words. A STATUS transaction drives the status word and changes nothing else. A register write puts the bits under the mask into a retention register. The commit of SLMIN of an axis with soft limits off takes its 48 bits from the staged words and the written one and spends the staging. A read of the lowest word of a value of several words takes its snapshot for the reader. -/
def Obligations.HostPorts : Prop :=
  ∀ s : State, s.ready = true →
    (∀ (p : Fin 2) (a : BitVec 24) (ws : List (BitVec 32)), a.toNat % 4 = 0 → pathLo ≤ a.toNat → a.toNat + 4 * ws.length ≤ 0x500000 →
      (∀ i, i < ws.length → s.violationOf (portAcc p) (a.toNat + 4 * i) true = none) → ∃ t, exec (.hostWrite p a ws false) s = .next t ∧
        (∀ i (h : i < ws.length), pathWord t.path (a.toNat + 4 * i) = ws[i]) ∧ (∀ b, b < a.toNat ∨ a.toNat + 4 * ws.length ≤ b → pathByte t.path b = pathByte s.path b) ∧
        (t.acc[portAcc p]).status = 0 ∧ (t.acc[portAcc p]).words = BitVec.ofNat 16 (min ws.length 65535) ∧ (t.acc[portAcc p]).partialW = false ∧ t.regs = s.regs ∧ t.axes = s.axes) ∧
    (∀ (p : Fin 2) (a : BitVec 24) (n : Nat), a.toNat % 4 = 0 → pathLo ≤ a.toNat → a.toNat + 4 * n ≤ 0x500000 →
      (∀ i, i < n → s.violationOf (portAcc p) (a.toNat + 4 * i) false = none) → (∀ u ∈ s.flt.upsets, u.store ≠ .path) → ∃ t, exec (.hostRead p a n false) s = .next t ∧
        t.host[p] = ⟨s.statusWord p, (List.range n).map (fun i => pathWord s.path (a.toNat + 4 * i))⟩ ∧
        (t.acc[portAcc p]).status = 0 ∧ (t.acc[portAcc p]).words = BitVec.ofNat 16 (min n 65535) ∧ t.path = s.path ∧ t.regs = s.regs ∧ t.axes = s.axes) ∧
    (∀ p : Fin 2, exec (.statusTransaction p 0x05 0) s = .next { s with host := s.host.set p ⟨s.statusWord p, []⟩ }) ∧
    (s.pow.shelf ≠ .shelf → ∀ acc : Fin 15,
      (∀ (j : Fin 128) (m d : Word), s.violationOf acc (devA DEV.RET + 4 * j) true = none → s.flt.hardClr = [] →
        ∃ t, exec (.registerWrite acc (BitVec.ofNat 24 (devA DEV.RET + 4 * j)) (m ++ d)) s = .next t ∧
          t.val (devA DEV.RET + 4 * j) = mergeBits (s.val (devA DEV.RET + 4 * j)) (d.setWidth 64) m.toNat ∧
          (∀ c, c ≠ devA DEV.RET + 4 * j.val → t.val c = s.val c) ∧ t.axes = s.axes) ∧
      (∀ (n : Fin 12) (lo : BitVec 32) (hi : Word), s.violationOf acc (axBase n + AX.SLMIN + 8) true = none → (s.acc[acc]).lostStage.contains (axBase n + AX.SLMIN) = false →
        (s.acc[acc]).stagedFor (axBase n + AX.SLMIN) 3 = (0xFFFFFFFF, lo.toNat) → s.axb n AX.CFG 0 = false → s.flt.hardClr = [] →
        ∃ t, exec (.multiwordCommit acc (BitVec.ofNat 24 (axBase n + AX.SLMIN + 8)) (0xFFFF#16 ++ hi)) s = .next t ∧ (t.val (axBase n + AX.SLMIN)).setWidth 48 = hi ++ lo ∧
          (∀ c, c ≠ axBase n + AX.SLMIN → t.val c = s.val c) ∧ (∀ e ∈ (t.acc[acc]).staged, e.1 < axBase n + AX.SLMIN ∨ axBase n + AX.SLMIN + 12 ≤ e.1) ∧ t.axes = s.axes) ∧
      (∀ (a : BitVec 24) (r : Row), locate a.toNat = some ⟨r, a.toNat, 0⟩ → 1 < r.words → r.acc ≠ .cmd → r.acc ≠ .wo → a.toNat % 4 = 0 → a.toNat < pathLo → a.toNat ≠ fltA FLT.HE0 →
        s.violationOf acc a.toNat false = none → ∃ t, exec (.snapshotRead acc a) s = .next t ∧ (a.toNat, s.shown acc a.toNat) ∈ (t.acc[acc]).shadows ∧
          (t.acc[acc]).lostSnap.contains a.toNat = false ∧ (t.acc[acc]).newer.contains a.toNat = false ∧ t.regs = s.regs ∧ t.axes = s.axes))

/-- Outside the shelf state: EXTEST, CLAMP and HIGHZ with TESTEN high select their instruction and reset the part with cause 9, without TESTEN they select BYPASS and do nothing else; IDCODE and BYPASS select theirs; SAMPLE/PRELOAD with TESTEN loads the boundary-scan register. A halt request that the gate honours is kept and halts the stage; its withdrawal ends the halt. A reset request that the gate honours is kept and resets the part with cause 9; its withdrawal clears it. Test-Logic-Reset selects IDCODE, drops both requests and ends a halt that the request held. An access that the worlds permit to a word of path memory of a part that serves leaves DONE, with the word read, or the word stored. -/
def Obligations.JtagPort : Prop :=
  (∀ s : State, s.pow.shelf ≠ .shelf →
      (let held (t : State) (k : Nat) : Prop := t.pow.ir = k ∧ t.pow.inReset = true ∧ t.pow.causes.testBit 9 = true ∧ t.axes = State.blank.axes
       (∃ t, exec (.extest true) s = .next t ∧ held t 0) ∧ (∃ t, exec (.clampScan true) s = .next t ∧ held t 3) ∧ (∃ t, exec (.highz true) s = .next t ∧ held t 4)) ∧
      exec (.extest false) s = .next { s with pow := { s.pow with ir := 0xFF } } ∧ exec (.clampScan false) s = .next { s with pow := { s.pow with ir := 0xFF } } ∧
      exec (.highz false) s = .next { s with pow := { s.pow with ir := 0xFF } } ∧ exec .idcode s = .next { s with pow := { s.pow with ir := 2 } } ∧
      exec .bypassScan s = .next { s with pow := { s.pow with ir := 0xFF } } ∧
      (∀ cells, exec (.samplePreload true cells) s = .next { s with pow := { s.pow with ir := 1, scan := cells } } ∧
        exec (.samplePreload false cells) s = .next { s with pow := { s.pow with ir := 0xFF } }) ∧
      (s.dbgGate = true → s.pow.haltReq = false → ∃ t, exec (.haltReq true) s = .next t ∧ t.pow = { s.pow with ir := 0x10, haltReq := true } ∧ t.stage.halt = true ∧ t.axes = s.axes) ∧
      (∃ t, exec (.haltReq false) s = .next t ∧ t.pow = { s.pow with ir := 0x10, haltReq := false } ∧ (s.pow.haltReq = true → t.stage.halt = false)) ∧
      (s.dbgGate = true → ∃ t, exec (.rstReq true) s = .next t ∧ t.pow.rstReq = true ∧ t.pow.inReset = true ∧ t.pow.causes.testBit 9 = true ∧ t.axes = State.blank.axes) ∧
      exec (.rstReq false) s = .next { s with pow := { s.pow with ir := 0x10, rstReq := false } } ∧
      (s.ready = true → ∀ a : BitVec 24, a.toNat % 4 = 0 → pathLo ≤ a.toNat → a.toNat < 0x500000 →
        (s.violationOf jtagAcc a.toNat false = none → (∀ u ∈ s.flt.upsets, u.store ≠ .path) → ∃ t, exec (.dbgAccRead a) s = .next t ∧
          t.pow = { s.pow with ir := 0x11, dbgStatus := 0, dbgData := pathWord s.path a.toNat } ∧ t.path = s.path ∧ t.regs = s.regs ∧ t.axes = s.axes) ∧
        (∀ w, s.violationOf jtagAcc a.toNat true = none → ∃ t, exec (.dbgAccWrite a w) s = .next t ∧ t.pow = { s.pow with ir := 0x11, dbgStatus := 0, dbgData := 0 } ∧
          t.path = pathWrite s.path a.toNat w ∧ t.regs = s.regs ∧ t.axes = s.axes))) ∧
    (∀ s : State, ∃ t, exec .tapReset s = .next t ∧ t.pow = { s.pow with ir := 2, haltReq := false, rstReq := false } ∧ (s.pow.haltReq = true → t.stage.halt = false))

/-- The key word, and no other, starts the 8 CORE clocks to a software reset. The shelf word is refused with nothing changed where R564 does not allow the entry, and begins step 1 (or, with nothing to test, step 2) where it does. The end of step 2 leaves only the always-on domain, or wakes at once for an event latched meanwhile. In the shelf state an enabled wake input, RESET_N (cause 14 too) or VAON starts the wake, and VAON under its window leaves its cause. Power-on, a logic supply under its window and RESET_N enter reset with causes 15, 13 and 14; BF_CS is then not driven. The release of a reset with no cause left adds the causes to RSTCAUSE (power-on starts it anew), starts the path-memory clear of a cold boot, and BF_CS is driven; a persisting cause holds it. The end of the clear leaves path memory empty and the ports serve. VAON power-up loses the retained registers and marks the next release. -/
def Obligations.ResetsAndShelf : Prop :=
  ∀ s : State,
    (∀ acc : Fin 15, s.ready = true → s.mayAccess acc 55 = true →
      exec (.softwareReset acc 0xFFFF 0x5A5A) s = .next { s with pow := { s.pow with softDue := some (s.pow.softDue.getD 8) } } ∧
      (∀ m d, ¬ (m = 0xFFFF#16 ∧ d = 0x5A5A#16) → exec (.softwareReset acc m d) s = .next s) ∧
      (s.shelfAllowed = false → exec (.shelfEntry acc 0xFFFF 0xA5A5) s = .next s) ∧
      (s.shelfAllowed = true → s.pow.shelf = .running → ∃ t, exec (.shelfEntry acc 0xFFFF 0xA5A5) s = .next t ∧
        (t.pow.shelf = .testing ∨ (s.img.active = false ∧ t.pow.shelf = .leaving 40000)))) ∧
    (s.pow.shelf = .leaving 0 → ∃ t, exec .shelfDisablePorts s = .next t ∧ t.pow.inReset = true ∧ t.bfCsDriven = false ∧ t.axes = State.blank.axes ∧ t.path = [] ∧
      (s.pow.wakeBits = 0 → t.pow.shelf = .shelf) ∧ (s.pow.wakeBits ≠ 0 → t.pow.shelf = .running ∧ t.pow.causes = 2 ^ 10)) ∧
    (s.pow.shelf ≠ .shelf → (∀ w, exec (.wakeUp w) s = .next s) ∧
      (¬ (s.pow.inReset = true ∧ s.pow.causes.testBit 10 = true) → ∃ t, exec .powerOnReset s = .next t ∧ t.pow.inReset = true ∧ t.pow.causes.testBit 15 = true ∧ t.pow.cold = true ∧
        t.pow.ir = 2 ∧ t.path = [] ∧ t.bfCsDriven = false ∧ t.axes = State.blank.axes) ∧
      (∀ k : Fin 6, 2 ≤ k.val → k.val ≤ 4 → ∃ t, exec (.brownOutReset k) s = .next t ∧ t.pow.inReset = true ∧ t.pow.causes.testBit 13 = true ∧ t.bfCsDriven = false ∧ t.axes = State.blank.axes) ∧
      (∃ t, exec .pinReset s = .next t ∧ t.pow.inReset = true ∧ t.pow.causes.testBit 14 = true ∧ t.bfCsDriven = false ∧ t.axes = State.blank.axes) ∧
      (∃ t, exec .vaonPowerUp s = .next t ∧ t.pow = { s.pow with aonNew := true } ∧ (∀ j : Fin 128, t.val (devA DEV.RET + 4 * j) = resetOf (devA DEV.RET + 4 * j)) ∧ t.axes = s.axes)) ∧
    (s.pow.shelf = .shelf →
      (∀ w : Fin 3, (w = 2 ∨ s.bit (cmpA CMP.WCFG + 4 * w) 13 = true) → ∃ t, exec (.wakeUp w) s = .next t ∧ t.pow.shelf = .running ∧ t.pow.causes.testBit 10 = true ∧
        (w = 2 → t.pow.causes.testBit 14 = true) ∧ t.axes = s.axes) ∧
      (∃ t, exec (.brownOutReset 5) s = .next t ∧ t.pow = { s.pow with causes := s.pow.causes ||| 2 ^ 13 } ∧ t.regs = s.regs) ∧
      (∃ t, exec .pinReset s = .next t ∧ t.pow.shelf = .running ∧ t.pow.causes.testBit 14 = true ∧ t.pow.causes.testBit 10 = true) ∧
      (∃ t, exec .vaonPowerUp s = .next t ∧ t.pow.shelf = .running ∧ t.pow.causes.testBit 15 = true ∧ t.pow.aonNew = true)) ∧
    (∀ testen, s.pow.inReset = true → s.pow.shelf = .running →
      (s.pow.rstReq = true ∨ holdsReset s.pow.ir = true → exec (.resetRelease testen) s = .next s) ∧
      (s.pow.rstReq = false → holdsReset s.pow.ir = false → ∃ t, exec (.resetRelease testen) s = .next t ∧ t.pow.inReset = false ∧ t.bfCsDriven = true ∧
        t.rd (devA DEV.RSTCAUSE) = ((if s.pow.causes.testBit 15 then 0 else s.rd (devA DEV.RSTCAUSE)) ||| s.pow.causes) % 2 ^ 64 ∧ t.pow.causes = 0 ∧
        t.pow.clearing = s.pow.cold ∧ t.axes = State.blank.axes)) ∧
    (s.pow.inReset = false → s.pow.clearing = true → 290144 ≤ s.pow.relClk → ∃ t, exec .pathMemoryClearDone s = .next t ∧ t.path = [] ∧ t.ready = true ∧ t.regs = s.regs ∧ t.axes = s.axes)

/-- The oldest request is executed and leaves the queue, and each answer is one frame. OPEN for world 0, or for world 1 with a good tag, takes the lowest free session with its generation counted, a session key for world 1 alone; without a free session FULLCNT counts, and a bad tag counts in AUTHFAIL. CLOSE closes the session, as a lapse of SESSTO and SESS_CLOSE do. In an open session of its generation NOP is answered DONE with no words; READ and WRITE of n words of path memory that the worlds permit answer with the words, or store them, and are recorded for the session; n = 0, or a WRITE with too few bytes, is answered RANGE and stores nothing. SUB_ADD fills the lowest free entry from the staged operands and returns it in SIDX, or counts FULLCNT in a full table; SUB_DEL clears the entry of SIDX. -/
def Obligations.SessionsAndSubscriptions : Prop :=
  ∀ s : State, s.asleep = false → s.ready = true →
    let sent (t : State) : Prop := t.rd (netA NET.SEQ) = (s.rd (netA NET.SEQ) + 1) % 65536
    (∀ (r : Req) (rest : List Req), s.net.reqs = r :: rest →
      (r.op = 0x10 →
        (1 < byteAt r.data 3 → ∃ t, exec .openRequest s = .next t ∧ t.net.reqs = rest ∧ sent t ∧ t.net.sess = s.net.sess) ∧
        (byteAt r.data 3 = 1 → r.tagOk = false → ∃ t, exec .openRequest s = .next t ∧ t.net.reqs = rest ∧ sent t ∧ t.net.sess = s.net.sess ∧ t.rd (wldA WLD.AUTHFAIL) = min 0xFFFF (s.rd (wldA WLD.AUTHFAIL) + 1)) ∧
        (byteAt r.data 3 ≤ 1 → (byteAt r.data 3 = 1 → r.tagOk = true) →
          (s.freeSession = none → ∃ t, exec .openRequest s = .next t ∧ t.net.reqs = rest ∧ sent t ∧ t.net.sess = s.net.sess ∧ t.rd (netA NET.FULLCNT) = min 0xFFFF (s.rd (netA NET.FULLCNT) + 1)) ∧
          (∀ k, s.freeSession = some k → (byteAt r.data 3 = 1 → s.wld.dkey.isSome = true) → ∃ t, exec .openRequest s = .next t ∧ t.net.reqs = rest ∧ sent t ∧ t.sessOpen k = true ∧
            t.fld (netsBase k + NETS.SSTAT) 7 0 = (s.fld (netsBase k + NETS.SSTAT) 7 0 + 1) % 256 ∧ t.bit (netsBase k + NETS.SSTAT) 14 = decide (byteAt r.data 3 = 1) ∧
            (t.net.sess[k]).key.isSome = decide (byteAt r.data 3 = 1) ∧ t.rd (netsBase k + NETS.SCLI) = beNat (r.data.take 3) % 2 ^ 21))) ∧
      (∀ k : Fin 8, r.k = k → s.sessOpen k = true →
        (r.op = 0x11 → ∃ t, exec .closeRequest s = .next t ∧ t.sessOpen k = false ∧ sent t ∧ t.net.reqs = rest.filter (fun q => q.k != k.val)) ∧
        (s.fld (netsBase k + NETS.SSTAT) 7 0 = r.gen →
          let answered (t : State) (st : Status) (n : Nat) (data : List Byte) : Prop := t.net.reqs = rest ∧ sent t ∧ (t.net.sess[k]).cache.head? = some (r.rid, r.echo ++ beBytes 1 st.code ++ beBytes 2 n ++ data)
          (r.op = 0x12 → ∃ t, exec .nopRequest s = .next t ∧ answered t .done 0 [] ∧ t.path = s.path) ∧
          (r.op = 0x01 → r.n = 0 → ∃ t, exec .readRequest s = .next t ∧ answered t .range 0 [] ∧ t.path = s.path) ∧
          (r.op = 0x01 → 0 < r.n → r.addr % 4 = 0 → pathLo ≤ r.addr → r.addr + 4 * r.n ≤ 0x500000 → (∀ i, i < r.n → s.violationOf (sessAcc k) (r.addr + 4 * i) false = none) → (∀ u ∈ s.flt.upsets, u.store ≠ .path) →
            ∃ t, exec .readRequest s = .next t ∧ answered t .done r.n (((List.range r.n).map (fun i => beBytes 4 (pathWord s.path (r.addr + 4 * i)).toNat)).flatten) ∧ t.path = s.path ∧
              (t.acc[sessAcc k]).status = 0 ∧ (t.acc[sessAcc k]).words = BitVec.ofNat 16 (min r.n 65535)) ∧
          (r.op = 0x02 → r.n = 0 ∨ r.data.length < 4 * r.n → ∃ t, exec .writeRequest s = .next t ∧ answered t .range 0 [] ∧ t.path = s.path) ∧
          (r.op = 0x02 → 0 < r.n → 4 * r.n ≤ r.data.length → r.addr % 4 = 0 → pathLo ≤ r.addr → r.addr + 4 * r.n ≤ 0x500000 → (∀ i, i < r.n → s.violationOf (sessAcc k) (r.addr + 4 * i) true = none) →
            ∃ t, exec .writeRequest s = .next t ∧ answered t .done r.n [] ∧ (∀ i, i < r.n → pathWord t.path (r.addr + 4 * i) = BitVec.ofNat 32 (beNat ((r.data.drop (4 * i)).take 4))) ∧
              (∀ b, b < r.addr ∨ r.addr + 4 * r.n ≤ b → pathByte t.path b = pathByte s.path b) ∧ (t.acc[sessAcc k]).status = 0 ∧ (t.acc[sessAcc k]).words = BitVec.ofNat 16 (min r.n 65535))))) ∧
    (∀ k : Fin 8, (s.sessLapsed k = true → ∃ t, exec (.sessionTimeout k) s = .next t ∧ t.sessOpen k = false) ∧ (s.sessLapsed k = false → exec (.sessionTimeout k) s = .next s)) ∧
    (∀ acc : Fin 15, s.mayAccess acc 52 = true → s.net.claimer = none →
      (∀ k : Fin 8, s.sessOpen k = true → ∃ t, exec (.sessClose acc (BitVec.ofNat 8 k)) s = .next t ∧ t.sessOpen k = false ∧ t.rd (netA NET.NCMDSTAT) = 0x2000) ∧
      (let a := s.acc[acc]
       let hi := a.snew.toNat / 65536
       let w := Machine.fld a.snewSel.toNat 1 0
       w ≠ 0 → Machine.fld a.snewSel.toNat 12 8 + w ≤ 32 → (hi / 4096 < 12 → s.mayAccess acc (hi / 4096) = true) → (hi / 4096 < 12 ∨ hi / 4096 = 15) →
        (1024 ≤ s.subsUsed.length → ∃ t, exec (.subAdd acc 0) s = .next t ∧ t.rd (netA NET.FULLCNT) = min 0xFFFF (s.rd (netA NET.FULLCNT) + 1) ∧ t.acc = s.acc) ∧
        (s.subsUsed.length < 1024 → let k := freeSub 1024 0 s.subsUsed
          ∃ t, exec (.subAdd acc 0) s = .next t ∧ t.rd (netA NET.NCMDSTAT) = 0x0100 ∧ (t.acc[acc]).sidx = BitVec.ofNat 16 k ∧ k ∈ t.net.added ∧
            (k < 1024 → t.rd (subBase k + SUB.SRC_L) = a.snew.toNat % 65536 ∧ t.rd (subBase k + SUB.SRC_H) = hi ∧ t.rd (subBase k + SUB.SEL) = a.snewSel.toNat ∧ t.rd (subBase k + SUB.SSTAT) = 0x8000))) ∧
      (let k := (s.acc[acc]).sidx.toNat
       k ≤ 1023 → s.bit (subBase k + SUB.SSTAT) 15 = true → (∀ n, s.onEntry n ≠ some k) → (∀ n, s.subOwner k = some n → s.mayAccess acc n = true) →
        ∃ t, exec (.subDel acc 0) s = .next t ∧ t.rd (netA NET.NCMDSTAT) = 0x0200 ∧ t.rd (subBase k + SUB.SSTAT) = 0 ∧ t.rd (subBase k + SUB.SRC_L) = 0 ∧ t.rd (subBase k + SUB.SRC_H) = 0 ∧
          t.rd (subBase k + SUB.SEL) = 0 ∧ (∀ e ∈ t.net.pend, e.1 ≠ k)))
end

