-- ==== Sys2Proof/Laws/Sparse.lean ====
section
/-! SUPPORT. Sparse tables: reading after writing, and every write keeps the canonical form; path memory and the register file as instances. -/

namespace Sys2Proof.Machine

variable {V : Type}

/-- The canonical form from a bound is the canonical form from any lower one. -/
theorem spWfFrom_mono [DecidableEq V] {d : Nat → V} {b c : Nat} (m : List (Nat × V)) (hbc : b ≤ c) (hm : spWfFrom d c m = true) :
    spWfFrom d b m = true := by
  cases m with
  | nil => rfl
  | cons e t =>
    obtain ⟨k, w⟩ := e
    simp only [spWfFrom, Bool.and_eq_true, decide_eq_true_eq] at hm ⊢
    exact ⟨⟨Nat.le_trans hbc hm.1.1, hm.1.2⟩, hm.2⟩

theorem spGet_spIns (d : Nat → V) (m : List (Nat × V)) (a b : Nat) (v : V) : spGet d (spIns m a v) b = if b = a then v else spGet d m b := by
  induction m with
  | nil => rfl
  | cons e t ih =>
    obtain ⟨k, w⟩ := e
    simp only [spIns]
    split
    · subst_vars; simp only [spGet]; split <;> rfl
    · split
      · simp only [spGet]
      · simp only [spGet, ih]; split <;> split <;> simp_all

theorem spGet_spDel (d : Nat → V) (m : List (Nat × V)) (a b : Nat) : spGet d (spDel m a) b = if b = a then d a else spGet d m b := by
  induction m with
  | nil => simp only [spDel, spGet]; split <;> simp_all
  | cons e t ih =>
    obtain ⟨k, w⟩ := e
    simp only [spDel]
    split
    · subst_vars; simp only [ih, spGet]; split <;> simp_all
    · simp only [spGet, ih]; split <;> split <;> simp_all

/-- What was put at a key reads back there, and what stands at another key stays. -/
theorem spGet_spPut [DecidableEq V] (d : Nat → V) (m : List (Nat × V)) (a b : Nat) (v : V) :
    spGet d (spPut d m a v) b = if b = a then v else spGet d m b := by
  simp only [spPut]
  split
  · subst_vars; exact spGet_spDel d m a b
  · exact spGet_spIns d m a b v

theorem spIns_wfFrom [DecidableEq V] (d : Nat → V) (m : List (Nat × V)) (a : Nat) (v : V) {lo : Nat} (ha : lo ≤ a) (hv : v ≠ d a)
    (h : spWfFrom d lo m = true) : spWfFrom d lo (spIns m a v) = true := by
  induction m generalizing lo with
  | nil => simp [spIns, spWfFrom, hv, ha]
  | cons e t ih =>
    obtain ⟨k, w⟩ := e
    simp only [spWfFrom, Bool.and_eq_true, decide_eq_true_eq] at h
    simp only [spIns]
    split
    · subst_vars; simp [spWfFrom, hv, ha, h.2]
    · split
      · have hk : a + 1 ≤ k := by omega
        simp [spWfFrom, ha, hv, hk, h.1.2, h.2]
      · have hk : k + 1 ≤ a := by omega
        simp [spWfFrom, h.1.1, h.1.2, ih hk h.2]

theorem spDel_wfFrom [DecidableEq V] (d : Nat → V) (m : List (Nat × V)) (a : Nat) {lo : Nat} (h : spWfFrom d lo m = true) :
    spWfFrom d lo (spDel m a) = true := by
  induction m generalizing lo with
  | nil => rfl
  | cons e t ih =>
    obtain ⟨k, w⟩ := e
    simp only [spWfFrom, Bool.and_eq_true, decide_eq_true_eq] at h
    simp only [spDel]
    split
    · exact spWfFrom_mono _ (by omega) (ih h.2)
    · simp [spWfFrom, h.1.1, h.1.2, ih h.2]

/-- A write keeps the canonical form. -/
theorem spPut_wf [DecidableEq V] {d : Nat → V} {m : List (Nat × V)} (a : Nat) (v : V) (h : spWf d m = true) : spWf d (spPut d m a v) = true := by
  simp only [spPut]
  split
  · exact spDel_wfFrom d m a h
  · exact spIns_wfFrom d m a v (Nat.zero_le a) ‹_› h

/-- Leaving out entries keeps the canonical form. -/
theorem spWfFrom_filter [DecidableEq V] (d : Nat → V) (p : Nat × V → Bool) (m : List (Nat × V)) {lo : Nat} (h : spWfFrom d lo m = true) :
    spWfFrom d lo (m.filter p) = true := by
  induction m generalizing lo with
  | nil => rfl
  | cons e t ih =>
    obtain ⟨k, w⟩ := e
    simp only [spWfFrom, Bool.and_eq_true, decide_eq_true_eq] at h
    by_cases hp : p (k, w) = true
    · simp only [List.filter, hp, spWfFrom, Bool.and_eq_true, decide_eq_true_eq]
      exact ⟨h.1, ih h.2⟩
    · simp only [List.filter, hp]
      exact spWfFrom_mono _ (by omega) (ih h.2)

/-! ### Path memory -/

/-- A 32-bit write keeps path memory in canonical form. -/
theorem pathWrite_wf {m : List Host.Cell} (a : Nat) (w : BitVec 32) (h : Memory.wf m) : Memory.wf (pathWrite m a w) :=
  spPut_wf _ _ (spPut_wf _ _ (spPut_wf _ _ (spPut_wf _ _ h)))

/-- A 32-bit write as a later byte read sees it. -/
theorem pathByte_pathWrite (m : List Host.Cell) (a b : Nat) (w : BitVec 32) :
    pathByte (pathWrite m a w) b =
      if b = a + 3 then w.extractLsb' 24 8 else if b = a + 2 then w.extractLsb' 16 8
      else if b = a + 1 then w.extractLsb' 8 8 else if b = a then w.extractLsb' 0 8 else pathByte m b := by
  simp only [pathByte, pathWrite, spGet_spPut]

/-- A 32-bit write leaves every byte outside its four alone. -/
theorem pathByte_pathWrite_other {m : List Host.Cell} (a b : Nat) (w : BitVec 32) (hb : b < a ∨ a + 4 ≤ b) :
    pathByte (pathWrite m a w) b = pathByte m b := by
  rw [pathByte_pathWrite, if_neg (by omega), if_neg (by omega), if_neg (by omega), if_neg (by omega)]

/-- A 32-bit write reads back. -/
theorem pathWord_pathWrite {m : List Host.Cell} (a : Nat) (w : BitVec 32) : pathWord (pathWrite m a w) a = w := by
  have b3 : pathByte (pathWrite m a w) (a + 3) = w.extractLsb' 24 8 := by simp [pathByte_pathWrite]
  have b2 : pathByte (pathWrite m a w) (a + 2) = w.extractLsb' 16 8 := by simp [pathByte_pathWrite]
  have b1 : pathByte (pathWrite m a w) (a + 1) = w.extractLsb' 8 8 := by simp [pathByte_pathWrite]
  have b0 : pathByte (pathWrite m a w) a = w.extractLsb' 0 8 := by simp [pathByte_pathWrite]
  simp only [pathWord, b0, b1, b2, b3]
  apply BitVec.eq_of_getLsbD_eq
  intro i hi
  simp only [BitVec.getLsbD_append, BitVec.getLsbD_extractLsb']
  have hc : i < 8 ∨ (8 ≤ i ∧ i < 16) ∨ (16 ≤ i ∧ i < 24) ∨ (24 ≤ i ∧ i < 32) := by omega
  rcases hc with h | ⟨h, h'⟩ | ⟨h, h'⟩ | ⟨h, h'⟩
  · simp [h]
  · have e : 8 + (i - 8) = i := by omega
    simp [Nat.not_lt.mpr h, show i - 8 < 8 by omega, e]
  · have e : 16 + (i - 8 - 8) = i := by omega
    simp [show ¬ i < 8 by omega, show ¬ i - 8 < 8 by omega, show i - 8 - 8 < 8 by omega, e]
  · have e : 24 + (i - 8 - 8 - 8) = i := by omega
    simp [show ¬ i < 8 by omega, show ¬ i - 8 < 8 by omega, show ¬ i - 8 - 8 < 8 by omega, show i - 8 - 8 - 8 < 8 by omega, e]

/-! ### The register file -/

/-- A register write keeps the register file in canonical form. -/
theorem State.setVal_wf {s : State} (b : Nat) (v : Val) (h : Regs.wf s.regs) : Regs.wf (s.setVal b v).regs := spPut_wf b v h

/-- A register that was written reads back, and every other register stays. -/
theorem State.val_setVal (s : State) (b c : Nat) (v : Val) : (s.setVal b v).val c = if c = b then v else s.val c :=
  spGet_spPut _ _ _ _ _

end Sys2Proof.Machine
end

