-- ==== Sys2Proof/Laws/State.lean ====
section
/-! SUPPORT. The small lemmas of State: what each named update leaves alone and what it sets, so that no later proof unfolds a record update. -/

namespace Sys2Proof.Machine

variable (s : State)

/-! ### One lemma per update: every field it leaves alone, and the field it sets -/

@[simp] theorem State.setVal_fields (b : Nat) (v : Val) :
    (s.setVal b v).pending = s.pending ∧ (s.setVal b v).fresh = s.fresh ∧ (s.setVal b v).path = s.path ∧ (s.setVal b v).acc = s.acc ∧
    (s.setVal b v).flt = s.flt ∧ (s.setVal b v).tim = s.tim ∧ (s.setVal b v).img = s.img ∧ (s.setVal b v).bore = s.bore ∧
    (s.setVal b v).axes = s.axes ∧ (s.setVal b v).units = s.units ∧ (s.setVal b v).stage = s.stage ∧ (s.setVal b v).mods = s.mods ∧
    (s.setVal b v).seq = s.seq ∧ (s.setVal b v).pins = s.pins ∧ (s.setVal b v).ports = s.ports ∧ (s.setVal b v).excs = s.excs ∧
    (s.setVal b v).frcs = s.frcs ∧ (s.setVal b v).adcs = s.adcs ∧ (s.setVal b v).conv = s.conv ∧ (s.setVal b v).cmps = s.cmps ∧
    (s.setVal b v).net = s.net ∧ (s.setVal b v).wld = s.wld ∧ (s.setVal b v).pow = s.pow ∧ (s.setVal b v).host = s.host :=
  ⟨rfl, rfl, rfl, rfl, rfl, rfl, rfl, rfl, rfl, rfl, rfl, rfl, rfl, rfl, rfl, rfl, rfl, rfl, rfl, rfl, rfl, rfl, rfl, rfl⟩

@[simp] theorem State.wr_fields (b v : Nat) :
    (s.wr b v).pending = s.pending ∧ (s.wr b v).fresh = s.fresh ∧ (s.wr b v).path = s.path ∧ (s.wr b v).acc = s.acc ∧ (s.wr b v).flt = s.flt ∧
    (s.wr b v).tim = s.tim ∧ (s.wr b v).img = s.img ∧ (s.wr b v).bore = s.bore ∧ (s.wr b v).axes = s.axes ∧ (s.wr b v).units = s.units ∧
    (s.wr b v).stage = s.stage ∧ (s.wr b v).mods = s.mods ∧ (s.wr b v).seq = s.seq ∧ (s.wr b v).pins = s.pins ∧ (s.wr b v).ports = s.ports ∧
    (s.wr b v).excs = s.excs ∧ (s.wr b v).frcs = s.frcs ∧ (s.wr b v).adcs = s.adcs ∧ (s.wr b v).conv = s.conv ∧ (s.wr b v).cmps = s.cmps ∧
    (s.wr b v).net = s.net ∧ (s.wr b v).wld = s.wld ∧ (s.wr b v).pow = s.pow ∧ (s.wr b v).host = s.host :=
  ⟨rfl, rfl, rfl, rfl, rfl, rfl, rfl, rfl, rfl, rfl, rfl, rfl, rfl, rfl, rfl, rfl, rfl, rfl, rfl, rfl, rfl, rfl, rfl, rfl⟩

@[simp] theorem State.wrI_fields (w b : Nat) (v : Int) :
    (s.wrI w b v).pending = s.pending ∧ (s.wrI w b v).fresh = s.fresh ∧ (s.wrI w b v).path = s.path ∧ (s.wrI w b v).acc = s.acc ∧
    (s.wrI w b v).flt = s.flt ∧ (s.wrI w b v).tim = s.tim ∧ (s.wrI w b v).img = s.img ∧ (s.wrI w b v).bore = s.bore ∧ (s.wrI w b v).axes = s.axes ∧
    (s.wrI w b v).units = s.units ∧ (s.wrI w b v).stage = s.stage ∧ (s.wrI w b v).mods = s.mods ∧ (s.wrI w b v).seq = s.seq ∧
    (s.wrI w b v).pins = s.pins ∧ (s.wrI w b v).ports = s.ports ∧ (s.wrI w b v).excs = s.excs ∧ (s.wrI w b v).frcs = s.frcs ∧
    (s.wrI w b v).adcs = s.adcs ∧ (s.wrI w b v).conv = s.conv ∧ (s.wrI w b v).cmps = s.cmps ∧ (s.wrI w b v).net = s.net ∧ (s.wrI w b v).wld = s.wld ∧
    (s.wrI w b v).pow = s.pow ∧ (s.wrI w b v).host = s.host :=
  ⟨rfl, rfl, rfl, rfl, rfl, rfl, rfl, rfl, rfl, rfl, rfl, rfl, rfl, rfl, rfl, rfl, rfl, rfl, rfl, rfl, rfl, rfl, rfl, rfl⟩

@[simp] theorem State.setBit_fields (b i : Nat) (x : Bool) :
    (s.setBit b i x).pending = s.pending ∧ (s.setBit b i x).fresh = s.fresh ∧ (s.setBit b i x).path = s.path ∧ (s.setBit b i x).acc = s.acc ∧
    (s.setBit b i x).flt = s.flt ∧ (s.setBit b i x).tim = s.tim ∧ (s.setBit b i x).img = s.img ∧ (s.setBit b i x).bore = s.bore ∧
    (s.setBit b i x).axes = s.axes ∧ (s.setBit b i x).units = s.units ∧ (s.setBit b i x).stage = s.stage ∧ (s.setBit b i x).mods = s.mods ∧
    (s.setBit b i x).seq = s.seq ∧ (s.setBit b i x).pins = s.pins ∧ (s.setBit b i x).ports = s.ports ∧ (s.setBit b i x).excs = s.excs ∧
    (s.setBit b i x).frcs = s.frcs ∧ (s.setBit b i x).adcs = s.adcs ∧ (s.setBit b i x).conv = s.conv ∧ (s.setBit b i x).cmps = s.cmps ∧
    (s.setBit b i x).net = s.net ∧ (s.setBit b i x).wld = s.wld ∧ (s.setBit b i x).pow = s.pow ∧ (s.setBit b i x).host = s.host :=
  ⟨rfl, rfl, rfl, rfl, rfl, rfl, rfl, rfl, rfl, rfl, rfl, rfl, rfl, rfl, rfl, rfl, rfl, rfl, rfl, rfl, rfl, rfl, rfl, rfl⟩

@[simp] theorem State.setFld_fields (b hi lo x : Nat) :
    (s.setFld b hi lo x).pending = s.pending ∧ (s.setFld b hi lo x).fresh = s.fresh ∧ (s.setFld b hi lo x).path = s.path ∧
    (s.setFld b hi lo x).acc = s.acc ∧ (s.setFld b hi lo x).flt = s.flt ∧ (s.setFld b hi lo x).tim = s.tim ∧ (s.setFld b hi lo x).img = s.img ∧
    (s.setFld b hi lo x).bore = s.bore ∧ (s.setFld b hi lo x).axes = s.axes ∧ (s.setFld b hi lo x).units = s.units ∧
    (s.setFld b hi lo x).stage = s.stage ∧ (s.setFld b hi lo x).mods = s.mods ∧ (s.setFld b hi lo x).seq = s.seq ∧
    (s.setFld b hi lo x).pins = s.pins ∧ (s.setFld b hi lo x).ports = s.ports ∧ (s.setFld b hi lo x).excs = s.excs ∧
    (s.setFld b hi lo x).frcs = s.frcs ∧ (s.setFld b hi lo x).adcs = s.adcs ∧ (s.setFld b hi lo x).conv = s.conv ∧
    (s.setFld b hi lo x).cmps = s.cmps ∧ (s.setFld b hi lo x).net = s.net ∧ (s.setFld b hi lo x).wld = s.wld ∧ (s.setFld b hi lo x).pow = s.pow ∧
    (s.setFld b hi lo x).host = s.host :=
  ⟨rfl, rfl, rfl, rfl, rfl, rfl, rfl, rfl, rfl, rfl, rfl, rfl, rfl, rfl, rfl, rfl, rfl, rfl, rfl, rfl, rfl, rfl, rfl, rfl⟩

@[simp] theorem State.bump_fields (b k : Nat) :
    (s.bump b k).pending = s.pending ∧ (s.bump b k).fresh = s.fresh ∧ (s.bump b k).path = s.path ∧ (s.bump b k).acc = s.acc ∧
    (s.bump b k).flt = s.flt ∧ (s.bump b k).tim = s.tim ∧ (s.bump b k).img = s.img ∧ (s.bump b k).bore = s.bore ∧ (s.bump b k).axes = s.axes ∧
    (s.bump b k).units = s.units ∧ (s.bump b k).stage = s.stage ∧ (s.bump b k).mods = s.mods ∧ (s.bump b k).seq = s.seq ∧
    (s.bump b k).pins = s.pins ∧ (s.bump b k).ports = s.ports ∧ (s.bump b k).excs = s.excs ∧ (s.bump b k).frcs = s.frcs ∧
    (s.bump b k).adcs = s.adcs ∧ (s.bump b k).conv = s.conv ∧ (s.bump b k).cmps = s.cmps ∧ (s.bump b k).net = s.net ∧ (s.bump b k).wld = s.wld ∧
    (s.bump b k).pow = s.pow ∧ (s.bump b k).host = s.host :=
  ⟨rfl, rfl, rfl, rfl, rfl, rfl, rfl, rfl, rfl, rfl, rfl, rfl, rfl, rfl, rfl, rfl, rfl, rfl, rfl, rfl, rfl, rfl, rfl, rfl⟩

@[simp] theorem State.onFlt_fields (f : Faults → Faults) :
    (s.onFlt f).pending = s.pending ∧ (s.onFlt f).fresh = s.fresh ∧ (s.onFlt f).regs = s.regs ∧ (s.onFlt f).path = s.path ∧ (s.onFlt f).acc = s.acc ∧
    (s.onFlt f).tim = s.tim ∧ (s.onFlt f).img = s.img ∧ (s.onFlt f).bore = s.bore ∧ (s.onFlt f).axes = s.axes ∧ (s.onFlt f).units = s.units ∧
    (s.onFlt f).stage = s.stage ∧ (s.onFlt f).mods = s.mods ∧ (s.onFlt f).seq = s.seq ∧ (s.onFlt f).pins = s.pins ∧ (s.onFlt f).ports = s.ports ∧
    (s.onFlt f).excs = s.excs ∧ (s.onFlt f).frcs = s.frcs ∧ (s.onFlt f).adcs = s.adcs ∧ (s.onFlt f).conv = s.conv ∧ (s.onFlt f).cmps = s.cmps ∧
    (s.onFlt f).net = s.net ∧ (s.onFlt f).wld = s.wld ∧ (s.onFlt f).pow = s.pow ∧ (s.onFlt f).host = s.host ∧ (s.onFlt f).flt = f s.flt ∧
    (s.onFlt f).val = s.val :=
  ⟨rfl, rfl, rfl, rfl, rfl, rfl, rfl, rfl, rfl, rfl, rfl, rfl, rfl, rfl, rfl, rfl, rfl, rfl, rfl, rfl, rfl, rfl, rfl, rfl, rfl, rfl⟩

@[simp] theorem State.onTim_fields (f : Timebase → Timebase) :
    (s.onTim f).pending = s.pending ∧ (s.onTim f).fresh = s.fresh ∧ (s.onTim f).regs = s.regs ∧ (s.onTim f).path = s.path ∧ (s.onTim f).acc = s.acc ∧
    (s.onTim f).flt = s.flt ∧ (s.onTim f).img = s.img ∧ (s.onTim f).bore = s.bore ∧ (s.onTim f).axes = s.axes ∧ (s.onTim f).units = s.units ∧
    (s.onTim f).stage = s.stage ∧ (s.onTim f).mods = s.mods ∧ (s.onTim f).seq = s.seq ∧ (s.onTim f).pins = s.pins ∧ (s.onTim f).ports = s.ports ∧
    (s.onTim f).excs = s.excs ∧ (s.onTim f).frcs = s.frcs ∧ (s.onTim f).adcs = s.adcs ∧ (s.onTim f).conv = s.conv ∧ (s.onTim f).cmps = s.cmps ∧
    (s.onTim f).net = s.net ∧ (s.onTim f).wld = s.wld ∧ (s.onTim f).pow = s.pow ∧ (s.onTim f).host = s.host ∧ (s.onTim f).tim = f s.tim ∧
    (s.onTim f).val = s.val :=
  ⟨rfl, rfl, rfl, rfl, rfl, rfl, rfl, rfl, rfl, rfl, rfl, rfl, rfl, rfl, rfl, rfl, rfl, rfl, rfl, rfl, rfl, rfl, rfl, rfl, rfl, rfl⟩

@[simp] theorem State.onBore_fields (f : Bore → Bore) :
    (s.onBore f).pending = s.pending ∧ (s.onBore f).fresh = s.fresh ∧ (s.onBore f).regs = s.regs ∧ (s.onBore f).path = s.path ∧
    (s.onBore f).acc = s.acc ∧ (s.onBore f).flt = s.flt ∧ (s.onBore f).tim = s.tim ∧ (s.onBore f).img = s.img ∧ (s.onBore f).axes = s.axes ∧
    (s.onBore f).units = s.units ∧ (s.onBore f).stage = s.stage ∧ (s.onBore f).mods = s.mods ∧ (s.onBore f).seq = s.seq ∧
    (s.onBore f).pins = s.pins ∧ (s.onBore f).ports = s.ports ∧ (s.onBore f).excs = s.excs ∧ (s.onBore f).frcs = s.frcs ∧
    (s.onBore f).adcs = s.adcs ∧ (s.onBore f).conv = s.conv ∧ (s.onBore f).cmps = s.cmps ∧ (s.onBore f).net = s.net ∧ (s.onBore f).wld = s.wld ∧
    (s.onBore f).pow = s.pow ∧ (s.onBore f).host = s.host ∧ (s.onBore f).bore = f s.bore ∧ (s.onBore f).val = s.val :=
  ⟨rfl, rfl, rfl, rfl, rfl, rfl, rfl, rfl, rfl, rfl, rfl, rfl, rfl, rfl, rfl, rfl, rfl, rfl, rfl, rfl, rfl, rfl, rfl, rfl, rfl, rfl⟩

@[simp] theorem State.onAcc_fields (a : Fin 15) (f : Accessor → Accessor) :
    (s.onAcc a f).pending = s.pending ∧ (s.onAcc a f).fresh = s.fresh ∧ (s.onAcc a f).regs = s.regs ∧ (s.onAcc a f).path = s.path ∧
    (s.onAcc a f).flt = s.flt ∧ (s.onAcc a f).tim = s.tim ∧ (s.onAcc a f).img = s.img ∧ (s.onAcc a f).bore = s.bore ∧ (s.onAcc a f).axes = s.axes ∧
    (s.onAcc a f).units = s.units ∧ (s.onAcc a f).stage = s.stage ∧ (s.onAcc a f).mods = s.mods ∧ (s.onAcc a f).seq = s.seq ∧
    (s.onAcc a f).pins = s.pins ∧ (s.onAcc a f).ports = s.ports ∧ (s.onAcc a f).excs = s.excs ∧ (s.onAcc a f).frcs = s.frcs ∧
    (s.onAcc a f).adcs = s.adcs ∧ (s.onAcc a f).conv = s.conv ∧ (s.onAcc a f).cmps = s.cmps ∧ (s.onAcc a f).net = s.net ∧ (s.onAcc a f).wld = s.wld ∧
    (s.onAcc a f).pow = s.pow ∧ (s.onAcc a f).host = s.host ∧ (s.onAcc a f).acc = vupd s.acc a f ∧ (s.onAcc a f).val = s.val :=
  ⟨rfl, rfl, rfl, rfl, rfl, rfl, rfl, rfl, rfl, rfl, rfl, rfl, rfl, rfl, rfl, rfl, rfl, rfl, rfl, rfl, rfl, rfl, rfl, rfl, rfl, rfl⟩

@[simp] theorem State.onAx_fields (n : Fin 12) (f : Axis → Axis) :
    (s.onAx n f).pending = s.pending ∧ (s.onAx n f).fresh = s.fresh ∧ (s.onAx n f).regs = s.regs ∧ (s.onAx n f).path = s.path ∧
    (s.onAx n f).acc = s.acc ∧ (s.onAx n f).flt = s.flt ∧ (s.onAx n f).tim = s.tim ∧ (s.onAx n f).img = s.img ∧ (s.onAx n f).bore = s.bore ∧
    (s.onAx n f).units = s.units ∧ (s.onAx n f).stage = s.stage ∧ (s.onAx n f).mods = s.mods ∧ (s.onAx n f).seq = s.seq ∧
    (s.onAx n f).pins = s.pins ∧ (s.onAx n f).ports = s.ports ∧ (s.onAx n f).excs = s.excs ∧ (s.onAx n f).frcs = s.frcs ∧
    (s.onAx n f).adcs = s.adcs ∧ (s.onAx n f).conv = s.conv ∧ (s.onAx n f).cmps = s.cmps ∧ (s.onAx n f).net = s.net ∧ (s.onAx n f).wld = s.wld ∧
    (s.onAx n f).pow = s.pow ∧ (s.onAx n f).host = s.host ∧ (s.onAx n f).axes = vupd s.axes n f ∧ (s.onAx n f).val = s.val :=
  ⟨rfl, rfl, rfl, rfl, rfl, rfl, rfl, rfl, rfl, rfl, rfl, rfl, rfl, rfl, rfl, rfl, rfl, rfl, rfl, rfl, rfl, rfl, rfl, rfl, rfl, rfl⟩

@[simp] theorem State.onMot_fields (n : Fin 12) (f : Motion → Motion) :
    (s.onMot n f).pending = s.pending ∧ (s.onMot n f).fresh = s.fresh ∧ (s.onMot n f).regs = s.regs ∧ (s.onMot n f).path = s.path ∧
    (s.onMot n f).acc = s.acc ∧ (s.onMot n f).flt = s.flt ∧ (s.onMot n f).tim = s.tim ∧ (s.onMot n f).img = s.img ∧ (s.onMot n f).bore = s.bore ∧
    (s.onMot n f).units = s.units ∧ (s.onMot n f).stage = s.stage ∧ (s.onMot n f).mods = s.mods ∧ (s.onMot n f).seq = s.seq ∧
    (s.onMot n f).pins = s.pins ∧ (s.onMot n f).ports = s.ports ∧ (s.onMot n f).excs = s.excs ∧ (s.onMot n f).frcs = s.frcs ∧
    (s.onMot n f).adcs = s.adcs ∧ (s.onMot n f).conv = s.conv ∧ (s.onMot n f).cmps = s.cmps ∧ (s.onMot n f).net = s.net ∧ (s.onMot n f).wld = s.wld ∧
    (s.onMot n f).pow = s.pow ∧ (s.onMot n f).host = s.host ∧ (s.onMot n f).axes = vupd s.axes n (fun a => { a with mot := f a.mot }) ∧
    (s.onMot n f).val = s.val :=
  ⟨rfl, rfl, rfl, rfl, rfl, rfl, rfl, rfl, rfl, rfl, rfl, rfl, rfl, rfl, rfl, rfl, rfl, rfl, rfl, rfl, rfl, rfl, rfl, rfl, rfl, rfl⟩

@[simp] theorem State.onFol_fields (n : Fin 12) (f : Follow → Follow) :
    (s.onFol n f).pending = s.pending ∧ (s.onFol n f).fresh = s.fresh ∧ (s.onFol n f).regs = s.regs ∧ (s.onFol n f).path = s.path ∧
    (s.onFol n f).acc = s.acc ∧ (s.onFol n f).flt = s.flt ∧ (s.onFol n f).tim = s.tim ∧ (s.onFol n f).img = s.img ∧ (s.onFol n f).bore = s.bore ∧
    (s.onFol n f).units = s.units ∧ (s.onFol n f).stage = s.stage ∧ (s.onFol n f).mods = s.mods ∧ (s.onFol n f).seq = s.seq ∧
    (s.onFol n f).pins = s.pins ∧ (s.onFol n f).ports = s.ports ∧ (s.onFol n f).excs = s.excs ∧ (s.onFol n f).frcs = s.frcs ∧
    (s.onFol n f).adcs = s.adcs ∧ (s.onFol n f).conv = s.conv ∧ (s.onFol n f).cmps = s.cmps ∧ (s.onFol n f).net = s.net ∧ (s.onFol n f).wld = s.wld ∧
    (s.onFol n f).pow = s.pow ∧ (s.onFol n f).host = s.host ∧ (s.onFol n f).axes = vupd s.axes n (fun a => { a with fol := f a.fol }) ∧
    (s.onFol n f).val = s.val :=
  ⟨rfl, rfl, rfl, rfl, rfl, rfl, rfl, rfl, rfl, rfl, rfl, rfl, rfl, rfl, rfl, rfl, rfl, rfl, rfl, rfl, rfl, rfl, rfl, rfl, rfl, rfl⟩

@[simp] theorem State.onCtl_fields (n : Fin 12) (f : Ctl → Ctl) :
    (s.onCtl n f).pending = s.pending ∧ (s.onCtl n f).fresh = s.fresh ∧ (s.onCtl n f).regs = s.regs ∧ (s.onCtl n f).path = s.path ∧
    (s.onCtl n f).acc = s.acc ∧ (s.onCtl n f).flt = s.flt ∧ (s.onCtl n f).tim = s.tim ∧ (s.onCtl n f).img = s.img ∧ (s.onCtl n f).bore = s.bore ∧
    (s.onCtl n f).units = s.units ∧ (s.onCtl n f).stage = s.stage ∧ (s.onCtl n f).mods = s.mods ∧ (s.onCtl n f).seq = s.seq ∧
    (s.onCtl n f).pins = s.pins ∧ (s.onCtl n f).ports = s.ports ∧ (s.onCtl n f).excs = s.excs ∧ (s.onCtl n f).frcs = s.frcs ∧
    (s.onCtl n f).adcs = s.adcs ∧ (s.onCtl n f).conv = s.conv ∧ (s.onCtl n f).cmps = s.cmps ∧ (s.onCtl n f).net = s.net ∧ (s.onCtl n f).wld = s.wld ∧
    (s.onCtl n f).pow = s.pow ∧ (s.onCtl n f).host = s.host ∧
    (s.onCtl n f).axes = vupd s.axes n (fun a => { a with ctl := { a.ctl with work := f a.ctl.work } }) ∧ (s.onCtl n f).val = s.val :=
  ⟨rfl, rfl, rfl, rfl, rfl, rfl, rfl, rfl, rfl, rfl, rfl, rfl, rfl, rfl, rfl, rfl, rfl, rfl, rfl, rfl, rfl, rfl, rfl, rfl, rfl, rfl⟩

@[simp] theorem State.onHom_fields (n : Fin 12) (f : Homing → Homing) :
    (s.onHom n f).pending = s.pending ∧ (s.onHom n f).fresh = s.fresh ∧ (s.onHom n f).regs = s.regs ∧ (s.onHom n f).path = s.path ∧
    (s.onHom n f).acc = s.acc ∧ (s.onHom n f).flt = s.flt ∧ (s.onHom n f).tim = s.tim ∧ (s.onHom n f).img = s.img ∧ (s.onHom n f).bore = s.bore ∧
    (s.onHom n f).units = s.units ∧ (s.onHom n f).stage = s.stage ∧ (s.onHom n f).mods = s.mods ∧ (s.onHom n f).seq = s.seq ∧
    (s.onHom n f).pins = s.pins ∧ (s.onHom n f).ports = s.ports ∧ (s.onHom n f).excs = s.excs ∧ (s.onHom n f).frcs = s.frcs ∧
    (s.onHom n f).adcs = s.adcs ∧ (s.onHom n f).conv = s.conv ∧ (s.onHom n f).cmps = s.cmps ∧ (s.onHom n f).net = s.net ∧ (s.onHom n f).wld = s.wld ∧
    (s.onHom n f).pow = s.pow ∧ (s.onHom n f).host = s.host ∧ (s.onHom n f).axes = vupd s.axes n (fun a => { a with hom := f a.hom }) ∧
    (s.onHom n f).val = s.val :=
  ⟨rfl, rfl, rfl, rfl, rfl, rfl, rfl, rfl, rfl, rfl, rfl, rfl, rfl, rfl, rfl, rfl, rfl, rfl, rfl, rfl, rfl, rfl, rfl, rfl, rfl, rfl⟩

@[simp] theorem State.onPpl_fields (n : Fin 12) (f : People → People) :
    (s.onPpl n f).pending = s.pending ∧ (s.onPpl n f).fresh = s.fresh ∧ (s.onPpl n f).regs = s.regs ∧ (s.onPpl n f).path = s.path ∧
    (s.onPpl n f).acc = s.acc ∧ (s.onPpl n f).flt = s.flt ∧ (s.onPpl n f).tim = s.tim ∧ (s.onPpl n f).img = s.img ∧ (s.onPpl n f).bore = s.bore ∧
    (s.onPpl n f).units = s.units ∧ (s.onPpl n f).stage = s.stage ∧ (s.onPpl n f).mods = s.mods ∧ (s.onPpl n f).seq = s.seq ∧
    (s.onPpl n f).pins = s.pins ∧ (s.onPpl n f).ports = s.ports ∧ (s.onPpl n f).excs = s.excs ∧ (s.onPpl n f).frcs = s.frcs ∧
    (s.onPpl n f).adcs = s.adcs ∧ (s.onPpl n f).conv = s.conv ∧ (s.onPpl n f).cmps = s.cmps ∧ (s.onPpl n f).net = s.net ∧ (s.onPpl n f).wld = s.wld ∧
    (s.onPpl n f).pow = s.pow ∧ (s.onPpl n f).host = s.host ∧ (s.onPpl n f).axes = vupd s.axes n (fun a => { a with ppl := f a.ppl }) ∧
    (s.onPpl n f).val = s.val :=
  ⟨rfl, rfl, rfl, rfl, rfl, rfl, rfl, rfl, rfl, rfl, rfl, rfl, rfl, rfl, rfl, rfl, rfl, rfl, rfl, rfl, rfl, rfl, rfl, rfl, rfl, rfl⟩

@[simp] theorem State.onPins_fields (f : Pins → Pins) :
    (s.onPins f).pending = s.pending ∧ (s.onPins f).fresh = s.fresh ∧ (s.onPins f).regs = s.regs ∧ (s.onPins f).path = s.path ∧
    (s.onPins f).acc = s.acc ∧ (s.onPins f).flt = s.flt ∧ (s.onPins f).tim = s.tim ∧ (s.onPins f).img = s.img ∧ (s.onPins f).bore = s.bore ∧
    (s.onPins f).axes = s.axes ∧ (s.onPins f).units = s.units ∧ (s.onPins f).stage = s.stage ∧ (s.onPins f).mods = s.mods ∧
    (s.onPins f).seq = s.seq ∧ (s.onPins f).ports = s.ports ∧ (s.onPins f).excs = s.excs ∧ (s.onPins f).frcs = s.frcs ∧ (s.onPins f).adcs = s.adcs ∧
    (s.onPins f).conv = s.conv ∧ (s.onPins f).cmps = s.cmps ∧ (s.onPins f).net = s.net ∧ (s.onPins f).wld = s.wld ∧ (s.onPins f).pow = s.pow ∧
    (s.onPins f).host = s.host ∧ (s.onPins f).pins = f s.pins ∧ (s.onPins f).val = s.val :=
  ⟨rfl, rfl, rfl, rfl, rfl, rfl, rfl, rfl, rfl, rfl, rfl, rfl, rfl, rfl, rfl, rfl, rfl, rfl, rfl, rfl, rfl, rfl, rfl, rfl, rfl, rfl⟩

@[simp] theorem State.onStage_fields (f : Stage → Stage) :
    (s.onStage f).pending = s.pending ∧ (s.onStage f).fresh = s.fresh ∧ (s.onStage f).regs = s.regs ∧ (s.onStage f).path = s.path ∧
    (s.onStage f).acc = s.acc ∧ (s.onStage f).flt = s.flt ∧ (s.onStage f).tim = s.tim ∧ (s.onStage f).img = s.img ∧ (s.onStage f).bore = s.bore ∧
    (s.onStage f).axes = s.axes ∧ (s.onStage f).units = s.units ∧ (s.onStage f).mods = s.mods ∧ (s.onStage f).seq = s.seq ∧
    (s.onStage f).pins = s.pins ∧ (s.onStage f).ports = s.ports ∧ (s.onStage f).excs = s.excs ∧ (s.onStage f).frcs = s.frcs ∧
    (s.onStage f).adcs = s.adcs ∧ (s.onStage f).conv = s.conv ∧ (s.onStage f).cmps = s.cmps ∧ (s.onStage f).net = s.net ∧ (s.onStage f).wld = s.wld ∧
    (s.onStage f).pow = s.pow ∧ (s.onStage f).host = s.host ∧ (s.onStage f).stage = f s.stage ∧ (s.onStage f).val = s.val :=
  ⟨rfl, rfl, rfl, rfl, rfl, rfl, rfl, rfl, rfl, rfl, rfl, rfl, rfl, rfl, rfl, rfl, rfl, rfl, rfl, rfl, rfl, rfl, rfl, rfl, rfl, rfl⟩

@[simp] theorem State.onNet_fields (f : Net → Net) :
    (s.onNet f).pending = s.pending ∧ (s.onNet f).fresh = s.fresh ∧ (s.onNet f).regs = s.regs ∧ (s.onNet f).path = s.path ∧ (s.onNet f).acc = s.acc ∧
    (s.onNet f).flt = s.flt ∧ (s.onNet f).tim = s.tim ∧ (s.onNet f).img = s.img ∧ (s.onNet f).bore = s.bore ∧ (s.onNet f).axes = s.axes ∧
    (s.onNet f).units = s.units ∧ (s.onNet f).stage = s.stage ∧ (s.onNet f).mods = s.mods ∧ (s.onNet f).seq = s.seq ∧ (s.onNet f).pins = s.pins ∧
    (s.onNet f).ports = s.ports ∧ (s.onNet f).excs = s.excs ∧ (s.onNet f).frcs = s.frcs ∧ (s.onNet f).adcs = s.adcs ∧ (s.onNet f).conv = s.conv ∧
    (s.onNet f).cmps = s.cmps ∧ (s.onNet f).wld = s.wld ∧ (s.onNet f).pow = s.pow ∧ (s.onNet f).host = s.host ∧ (s.onNet f).net = f s.net ∧
    (s.onNet f).val = s.val :=
  ⟨rfl, rfl, rfl, rfl, rfl, rfl, rfl, rfl, rfl, rfl, rfl, rfl, rfl, rfl, rfl, rfl, rfl, rfl, rfl, rfl, rfl, rfl, rfl, rfl, rfl, rfl⟩

@[simp] theorem State.onPow_fields (f : Power → Power) :
    (s.onPow f).pending = s.pending ∧ (s.onPow f).fresh = s.fresh ∧ (s.onPow f).regs = s.regs ∧ (s.onPow f).path = s.path ∧ (s.onPow f).acc = s.acc ∧
    (s.onPow f).flt = s.flt ∧ (s.onPow f).tim = s.tim ∧ (s.onPow f).img = s.img ∧ (s.onPow f).bore = s.bore ∧ (s.onPow f).axes = s.axes ∧
    (s.onPow f).units = s.units ∧ (s.onPow f).stage = s.stage ∧ (s.onPow f).mods = s.mods ∧ (s.onPow f).seq = s.seq ∧ (s.onPow f).pins = s.pins ∧
    (s.onPow f).ports = s.ports ∧ (s.onPow f).excs = s.excs ∧ (s.onPow f).frcs = s.frcs ∧ (s.onPow f).adcs = s.adcs ∧ (s.onPow f).conv = s.conv ∧
    (s.onPow f).cmps = s.cmps ∧ (s.onPow f).net = s.net ∧ (s.onPow f).wld = s.wld ∧ (s.onPow f).host = s.host ∧ (s.onPow f).pow = f s.pow ∧
    (s.onPow f).val = s.val :=
  ⟨rfl, rfl, rfl, rfl, rfl, rfl, rfl, rfl, rfl, rfl, rfl, rfl, rfl, rfl, rfl, rfl, rfl, rfl, rfl, rfl, rfl, rfl, rfl, rfl, rfl, rfl⟩

@[simp] theorem State.onWld_fields (f : World → World) :
    (s.onWld f).pending = s.pending ∧ (s.onWld f).fresh = s.fresh ∧ (s.onWld f).regs = s.regs ∧ (s.onWld f).path = s.path ∧ (s.onWld f).acc = s.acc ∧
    (s.onWld f).flt = s.flt ∧ (s.onWld f).tim = s.tim ∧ (s.onWld f).img = s.img ∧ (s.onWld f).bore = s.bore ∧ (s.onWld f).axes = s.axes ∧
    (s.onWld f).units = s.units ∧ (s.onWld f).stage = s.stage ∧ (s.onWld f).mods = s.mods ∧ (s.onWld f).seq = s.seq ∧ (s.onWld f).pins = s.pins ∧
    (s.onWld f).ports = s.ports ∧ (s.onWld f).excs = s.excs ∧ (s.onWld f).frcs = s.frcs ∧ (s.onWld f).adcs = s.adcs ∧ (s.onWld f).conv = s.conv ∧
    (s.onWld f).cmps = s.cmps ∧ (s.onWld f).net = s.net ∧ (s.onWld f).pow = s.pow ∧ (s.onWld f).host = s.host ∧ (s.onWld f).wld = f s.wld ∧
    (s.onWld f).val = s.val :=
  ⟨rfl, rfl, rfl, rfl, rfl, rfl, rfl, rfl, rfl, rfl, rfl, rfl, rfl, rfl, rfl, rfl, rfl, rfl, rfl, rfl, rfl, rfl, rfl, rfl, rfl, rfl⟩

@[simp] theorem State.onCmps_fields (f : Comps → Comps) :
    (s.onCmps f).pending = s.pending ∧ (s.onCmps f).fresh = s.fresh ∧ (s.onCmps f).regs = s.regs ∧ (s.onCmps f).path = s.path ∧
    (s.onCmps f).acc = s.acc ∧ (s.onCmps f).flt = s.flt ∧ (s.onCmps f).tim = s.tim ∧ (s.onCmps f).img = s.img ∧ (s.onCmps f).bore = s.bore ∧
    (s.onCmps f).axes = s.axes ∧ (s.onCmps f).units = s.units ∧ (s.onCmps f).stage = s.stage ∧ (s.onCmps f).mods = s.mods ∧
    (s.onCmps f).seq = s.seq ∧ (s.onCmps f).pins = s.pins ∧ (s.onCmps f).ports = s.ports ∧ (s.onCmps f).excs = s.excs ∧ (s.onCmps f).frcs = s.frcs ∧
    (s.onCmps f).adcs = s.adcs ∧ (s.onCmps f).conv = s.conv ∧ (s.onCmps f).net = s.net ∧ (s.onCmps f).wld = s.wld ∧ (s.onCmps f).pow = s.pow ∧
    (s.onCmps f).host = s.host ∧ (s.onCmps f).cmps = f s.cmps ∧ (s.onCmps f).val = s.val :=
  ⟨rfl, rfl, rfl, rfl, rfl, rfl, rfl, rfl, rfl, rfl, rfl, rfl, rfl, rfl, rfl, rfl, rfl, rfl, rfl, rfl, rfl, rfl, rfl, rfl, rfl, rfl⟩

@[simp] theorem State.onAdc_fields (c : Fin 2) (f : Adc → Adc) :
    (s.onAdc c f).pending = s.pending ∧ (s.onAdc c f).fresh = s.fresh ∧ (s.onAdc c f).regs = s.regs ∧ (s.onAdc c f).path = s.path ∧
    (s.onAdc c f).acc = s.acc ∧ (s.onAdc c f).flt = s.flt ∧ (s.onAdc c f).tim = s.tim ∧ (s.onAdc c f).img = s.img ∧ (s.onAdc c f).bore = s.bore ∧
    (s.onAdc c f).axes = s.axes ∧ (s.onAdc c f).units = s.units ∧ (s.onAdc c f).stage = s.stage ∧ (s.onAdc c f).mods = s.mods ∧
    (s.onAdc c f).seq = s.seq ∧ (s.onAdc c f).pins = s.pins ∧ (s.onAdc c f).ports = s.ports ∧ (s.onAdc c f).excs = s.excs ∧
    (s.onAdc c f).frcs = s.frcs ∧ (s.onAdc c f).conv = s.conv ∧ (s.onAdc c f).cmps = s.cmps ∧ (s.onAdc c f).net = s.net ∧ (s.onAdc c f).wld = s.wld ∧
    (s.onAdc c f).pow = s.pow ∧ (s.onAdc c f).host = s.host ∧ (s.onAdc c f).adcs = vupd s.adcs c f ∧ (s.onAdc c f).val = s.val :=
  ⟨rfl, rfl, rfl, rfl, rfl, rfl, rfl, rfl, rfl, rfl, rfl, rfl, rfl, rfl, rfl, rfl, rfl, rfl, rfl, rfl, rfl, rfl, rfl, rfl, rfl, rfl⟩

@[simp] theorem State.onFrc_fields (m : Fin 8) (f : Force → Force) :
    (s.onFrc m f).pending = s.pending ∧ (s.onFrc m f).fresh = s.fresh ∧ (s.onFrc m f).regs = s.regs ∧ (s.onFrc m f).path = s.path ∧
    (s.onFrc m f).acc = s.acc ∧ (s.onFrc m f).flt = s.flt ∧ (s.onFrc m f).tim = s.tim ∧ (s.onFrc m f).img = s.img ∧ (s.onFrc m f).bore = s.bore ∧
    (s.onFrc m f).axes = s.axes ∧ (s.onFrc m f).units = s.units ∧ (s.onFrc m f).stage = s.stage ∧ (s.onFrc m f).mods = s.mods ∧
    (s.onFrc m f).seq = s.seq ∧ (s.onFrc m f).pins = s.pins ∧ (s.onFrc m f).ports = s.ports ∧ (s.onFrc m f).excs = s.excs ∧
    (s.onFrc m f).adcs = s.adcs ∧ (s.onFrc m f).conv = s.conv ∧ (s.onFrc m f).cmps = s.cmps ∧ (s.onFrc m f).net = s.net ∧ (s.onFrc m f).wld = s.wld ∧
    (s.onFrc m f).pow = s.pow ∧ (s.onFrc m f).host = s.host ∧ (s.onFrc m f).frcs = vupd s.frcs m f ∧ (s.onFrc m f).val = s.val :=
  ⟨rfl, rfl, rfl, rfl, rfl, rfl, rfl, rfl, rfl, rfl, rfl, rfl, rfl, rfl, rfl, rfl, rfl, rfl, rfl, rfl, rfl, rfl, rfl, rfl, rfl, rfl⟩

@[simp] theorem State.onExc_fields (d : Fin 4) (f : Exc → Exc) :
    (s.onExc d f).pending = s.pending ∧ (s.onExc d f).fresh = s.fresh ∧ (s.onExc d f).regs = s.regs ∧ (s.onExc d f).path = s.path ∧
    (s.onExc d f).acc = s.acc ∧ (s.onExc d f).flt = s.flt ∧ (s.onExc d f).tim = s.tim ∧ (s.onExc d f).img = s.img ∧ (s.onExc d f).bore = s.bore ∧
    (s.onExc d f).axes = s.axes ∧ (s.onExc d f).units = s.units ∧ (s.onExc d f).stage = s.stage ∧ (s.onExc d f).mods = s.mods ∧
    (s.onExc d f).seq = s.seq ∧ (s.onExc d f).pins = s.pins ∧ (s.onExc d f).ports = s.ports ∧ (s.onExc d f).frcs = s.frcs ∧
    (s.onExc d f).adcs = s.adcs ∧ (s.onExc d f).conv = s.conv ∧ (s.onExc d f).cmps = s.cmps ∧ (s.onExc d f).net = s.net ∧ (s.onExc d f).wld = s.wld ∧
    (s.onExc d f).pow = s.pow ∧ (s.onExc d f).host = s.host ∧ (s.onExc d f).excs = vupd s.excs d f ∧ (s.onExc d f).val = s.val :=
  ⟨rfl, rfl, rfl, rfl, rfl, rfl, rfl, rfl, rfl, rfl, rfl, rfl, rfl, rfl, rfl, rfl, rfl, rfl, rfl, rfl, rfl, rfl, rfl, rfl, rfl, rfl⟩

@[simp] theorem State.onPort_fields (p : Fin 8) (f : Port → Port) :
    (s.onPort p f).pending = s.pending ∧ (s.onPort p f).fresh = s.fresh ∧ (s.onPort p f).regs = s.regs ∧ (s.onPort p f).path = s.path ∧
    (s.onPort p f).acc = s.acc ∧ (s.onPort p f).flt = s.flt ∧ (s.onPort p f).tim = s.tim ∧ (s.onPort p f).img = s.img ∧
    (s.onPort p f).bore = s.bore ∧ (s.onPort p f).axes = s.axes ∧ (s.onPort p f).units = s.units ∧ (s.onPort p f).stage = s.stage ∧
    (s.onPort p f).mods = s.mods ∧ (s.onPort p f).seq = s.seq ∧ (s.onPort p f).pins = s.pins ∧ (s.onPort p f).excs = s.excs ∧
    (s.onPort p f).frcs = s.frcs ∧ (s.onPort p f).adcs = s.adcs ∧ (s.onPort p f).conv = s.conv ∧ (s.onPort p f).cmps = s.cmps ∧
    (s.onPort p f).net = s.net ∧ (s.onPort p f).wld = s.wld ∧ (s.onPort p f).pow = s.pow ∧ (s.onPort p f).host = s.host ∧
    (s.onPort p f).ports = vupd s.ports p f ∧ (s.onPort p f).val = s.val :=
  ⟨rfl, rfl, rfl, rfl, rfl, rfl, rfl, rfl, rfl, rfl, rfl, rfl, rfl, rfl, rfl, rfl, rfl, rfl, rfl, rfl, rfl, rfl, rfl, rfl, rfl, rfl⟩

@[simp] theorem State.onNp_fields (n : Fin 2) (f : NetPort → NetPort) :
    (s.onNp n f).pending = s.pending ∧ (s.onNp n f).fresh = s.fresh ∧ (s.onNp n f).regs = s.regs ∧ (s.onNp n f).path = s.path ∧
    (s.onNp n f).acc = s.acc ∧ (s.onNp n f).flt = s.flt ∧ (s.onNp n f).tim = s.tim ∧ (s.onNp n f).img = s.img ∧ (s.onNp n f).bore = s.bore ∧
    (s.onNp n f).axes = s.axes ∧ (s.onNp n f).units = s.units ∧ (s.onNp n f).stage = s.stage ∧ (s.onNp n f).mods = s.mods ∧
    (s.onNp n f).seq = s.seq ∧ (s.onNp n f).pins = s.pins ∧ (s.onNp n f).ports = s.ports ∧ (s.onNp n f).excs = s.excs ∧ (s.onNp n f).frcs = s.frcs ∧
    (s.onNp n f).adcs = s.adcs ∧ (s.onNp n f).conv = s.conv ∧ (s.onNp n f).cmps = s.cmps ∧ (s.onNp n f).wld = s.wld ∧ (s.onNp n f).pow = s.pow ∧
    (s.onNp n f).host = s.host ∧ (s.onNp n f).net = { s.net with port := vupd s.net.port n f } ∧ (s.onNp n f).val = s.val :=
  ⟨rfl, rfl, rfl, rfl, rfl, rfl, rfl, rfl, rfl, rfl, rfl, rfl, rfl, rfl, rfl, rfl, rfl, rfl, rfl, rfl, rfl, rfl, rfl, rfl, rfl, rfl⟩

@[simp] theorem State.onUnit_fields (u : Nat) (f : PwmUnit → PwmUnit) :
    (s.onUnit u f).pending = s.pending ∧ (s.onUnit u f).fresh = s.fresh ∧ (s.onUnit u f).regs = s.regs ∧ (s.onUnit u f).path = s.path ∧
    (s.onUnit u f).acc = s.acc ∧ (s.onUnit u f).flt = s.flt ∧ (s.onUnit u f).tim = s.tim ∧ (s.onUnit u f).img = s.img ∧
    (s.onUnit u f).bore = s.bore ∧ (s.onUnit u f).axes = s.axes ∧ (s.onUnit u f).stage = s.stage ∧ (s.onUnit u f).mods = s.mods ∧
    (s.onUnit u f).seq = s.seq ∧ (s.onUnit u f).pins = s.pins ∧ (s.onUnit u f).ports = s.ports ∧ (s.onUnit u f).excs = s.excs ∧
    (s.onUnit u f).frcs = s.frcs ∧ (s.onUnit u f).adcs = s.adcs ∧ (s.onUnit u f).conv = s.conv ∧ (s.onUnit u f).cmps = s.cmps ∧
    (s.onUnit u f).net = s.net ∧ (s.onUnit u f).wld = s.wld ∧ (s.onUnit u f).pow = s.pow ∧ (s.onUnit u f).host = s.host ∧
    (s.onUnit u f).val = s.val := by
  unfold State.onUnit; split <;> exact ⟨rfl, rfl, rfl, rfl, rfl, rfl, rfl, rfl, rfl, rfl, rfl, rfl, rfl, rfl, rfl, rfl, rfl, rfl, rfl, rfl, rfl, rfl, rfl, rfl, rfl⟩

@[simp] theorem State.onMod_fields (i : Nat) (f : Modu → Modu) :
    (s.onMod i f).pending = s.pending ∧ (s.onMod i f).fresh = s.fresh ∧ (s.onMod i f).regs = s.regs ∧ (s.onMod i f).path = s.path ∧
    (s.onMod i f).acc = s.acc ∧ (s.onMod i f).flt = s.flt ∧ (s.onMod i f).tim = s.tim ∧ (s.onMod i f).img = s.img ∧ (s.onMod i f).bore = s.bore ∧
    (s.onMod i f).axes = s.axes ∧ (s.onMod i f).units = s.units ∧ (s.onMod i f).stage = s.stage ∧ (s.onMod i f).seq = s.seq ∧
    (s.onMod i f).pins = s.pins ∧ (s.onMod i f).ports = s.ports ∧ (s.onMod i f).excs = s.excs ∧ (s.onMod i f).frcs = s.frcs ∧
    (s.onMod i f).adcs = s.adcs ∧ (s.onMod i f).conv = s.conv ∧ (s.onMod i f).cmps = s.cmps ∧ (s.onMod i f).net = s.net ∧ (s.onMod i f).wld = s.wld ∧
    (s.onMod i f).pow = s.pow ∧ (s.onMod i f).host = s.host ∧ (s.onMod i f).val = s.val := by
  unfold State.onMod; split <;> exact ⟨rfl, rfl, rfl, rfl, rfl, rfl, rfl, rfl, rfl, rfl, rfl, rfl, rfl, rfl, rfl, rfl, rfl, rfl, rfl, rfl, rfl, rfl, rfl, rfl, rfl⟩

/-! ### Tables of like things -/

@[simp] theorem vupd_same {V : Type} {k : Nat} (v : Vector V k) (i : Fin k) (f : V → V) : (vupd v i f)[i] = f v[i] := by simp [vupd]

@[simp] theorem vupd_other {V : Type} {k : Nat} (v : Vector V k) (i j : Fin k) (f : V → V) (h : j ≠ i) : (vupd v i f)[j] = v[j] := by
  have : (i : Nat) ≠ j := fun e => h (Fin.ext e.symm)
  simp [vupd, this]

/-- The same, with the index as a number. -/
@[simp] theorem vupd_same_val {V : Type} {k : Nat} (v : Vector V k) (i : Fin k) (f : V → V) : (vupd v i f)[i.val] = f v[i.val] := by simp [vupd]

theorem vupd_other_val {V : Type} {k : Nat} (v : Vector V k) (i j : Fin k) (f : V → V) (h : j ≠ i) : (vupd v i f)[j.val] = v[j.val] :=
  vupd_other v i j f h

/-! ### The register file -/

/-- Reading a register after a write, for each way of writing. -/
theorem State.val_wr (b c v : Nat) : (s.wr b v).val c = if c = b then BitVec.ofNat 64 v else s.val c := s.val_setVal b c _

theorem State.val_wrI (w b c : Nat) (v : Int) : (s.wrI w b v).val c = if c = b then (BitVec.ofInt w v).setWidth 64 else s.val c :=
  s.val_setVal b c _

theorem State.val_setBit (b c i : Nat) (x : Bool) :
    (s.setBit b i x).val c = if c = b then (if x then s.val b ||| BitVec.twoPow 64 i else s.val b &&& ~~~ BitVec.twoPow 64 i) else s.val c :=
  s.val_setVal b c _

theorem State.val_setFld_other (b c hi lo x : Nat) (h : c ≠ b) : (s.setFld b hi lo x).val c = s.val c := by
  simp [State.setFld, State.val_wr, h]

theorem State.val_bump_other (b c k : Nat) (h : c ≠ b) : (s.bump b k).val c = s.val c := by simp [State.bump, State.val_wr, h]

/-- A number below 2 ^ 64 that was written reads back. -/
theorem State.rd_wr (b v : Nat) (h : v < 2 ^ 64) : (s.wr b v).rd b = v := by
  simp only [State.rd, State.val_wr, if_true, BitVec.toNat_ofNat]; exact Nat.mod_eq_of_lt h

theorem State.rd_wr_other (b c v : Nat) (h : c ≠ b) : (s.wr b v).rd c = s.rd c := by simp [State.rd, State.val_wr, h]

/-- A bit that was written reads back. -/
theorem State.bit_setBit (b i : Nat) (x : Bool) (h : i < 64) : (s.setBit b i x).bit b i = x := by
  cases x <;> simp [State.bit, State.val_setBit, h]

/-- A bit that is written leaves every other bit alone. -/
theorem State.bit_setBit_other (b c i j : Nat) (x : Bool) (h : c ≠ b ∨ j ≠ i) : (s.setBit b i x).bit c j = s.bit c j := by
  by_cases hc : c = b
  · subst hc
    have hj : j ≠ i := by tauto
    have hij : ¬ i = j := fun e => hj e.symm
    cases x <;> simp only [State.bit, State.val_setBit, if_true]
    · by_cases h64 : j < 64
      · simp [h64, hj]
      · simp [BitVec.getLsbD_of_ge _ _ (Nat.le_of_not_lt h64)]
    · simp [hij]
  · simp [State.bit, State.val_setBit, hc]

end Sys2Proof.Machine
end

