-- ==== Sys2Proof/Laws/Events.lean ====
section
/-! SUPPORT. Flags, interrupts, lifetime counters and the log of events: what each of them can change, said once. -/

namespace Sys2Proof.Machine

/-- The pending banks and FLT.STATUS: registers in which events only set bits (R488, R495, R527). -/
def pendReg (c : Nat) : Bool :=
  (decide (devA DEV.IRQA_PEND ≤ c) && decide (c < devA DEV.IRQA_PEND + 16)) ||
  (decide (devA DEV.IRQS_PEND ≤ c) && decide (c < devA DEV.IRQS_PEND + 16)) || c == fltA FLT.STATUS

/-- The registers that flags, interrupts and the log can change beside the flag's own: those, HOVF, COLLCNT and the lifetime counters
(R490, R494, R495, R527). -/
def logReg (c : Nat) : Bool :=
  pendReg c || c == fltA FLT.HOVF || c == fltA FLT.COLLCNT || (decide (fltA FLT.LIFE ≤ c) && decide (c < fltA FLT.LIFE + 128))

/-- From `s` to `t` only the register file and the fault manager change; of the registers only register `a` and those of `logReg`; and no bit
of the pending banks and of FLT.STATUS clears. -/
structure LogsAt (a : Nat) (s t : State) : Prop where
  rest : t = { s with regs := t.regs, flt := t.flt }
  val : ∀ c, c ≠ a → logReg c = false → t.val c = s.val c
  mono : ∀ c i, pendReg c = true → s.bit c i = true → t.bit c i = true

variable {a b c d1 d2 e i k n : Nat} {r s t u : State}

theorem LogsAt.refl : LogsAt a s s := ⟨rfl, fun _ _ _ => rfl, fun _ _ _ h => h⟩

theorem LogsAt.trans (h : LogsAt a s t) (g : LogsAt a t u) : LogsAt a s u :=
  ⟨by rw [g.rest]; conv => lhs; rw [h.rest], fun c hc hl => (g.val c hc hl).trans (h.val c hc hl), fun c i hp hb => g.mono c i hp (h.mono c i hp hb)⟩

theorem logsAt_ite {p : Prop} [Decidable p] (h : LogsAt a s t) (g : LogsAt a s u) : LogsAt a s (if p then t else u) := by
  by_cases hp : p <;> simp [hp, h, g]

/-- A change of the fault manager. -/
theorem onFlt_logs {f : Faults → Faults} (h : LogsAt a s t) : LogsAt a s (t.onFlt f) :=
  h.trans ⟨rfl, fun _ _ _ => rfl, fun _ _ _ h => h⟩

/-- A write to a register of `logReg` that is not one of the pending ones, or to register `a` itself. -/
theorem wr_logs {v : Nat} (hb : b = a ∨ logReg b = true) (hp : pendReg b = false) (h : LogsAt a s t) : LogsAt a s (t.wr b v) := by
  refine h.trans ⟨rfl, fun c hc hl => ?_, fun c i hq hx => ?_⟩
  · have : c ≠ b := by rintro rfl; rcases hb with e | e <;> simp_all
    simp [State.val_wr, this]
  · have : c ≠ b := by rintro rfl; simp_all
    simpa [State.bit, State.val_wr, this] using hx

/-- A bit that sets in register `a` or in a register of `logReg`. -/
theorem setBit_logs (hb : b = a ∨ logReg b = true) (h : LogsAt a s t) : LogsAt a s (t.setBit b i true) := by
  refine h.trans ⟨rfl, fun c hc hl => ?_, fun c j hq hx => ?_⟩
  · have : c ≠ b := by rintro rfl; rcases hb with e | e <;> simp_all
    simp [State.val_setBit, this]
  · by_cases hc : c = b
    · subst hc; simp only [State.bit, State.val_setBit, if_true] at hx ⊢; simp [hx]
    · simpa [State.bit, State.val_setBit, hc] using hx

theorem countEvent_logs (h : LogsAt a s t) : LogsAt a s (t.countEvent k) := by
  unfold State.countEvent; exact onFlt_logs h

theorem flagOnly_logs (hb : b = a ∨ logReg b = true) (h : LogsAt a s t) : LogsAt a s (t.flagOnly b i) := by
  unfold State.flagOnly; exact onFlt_logs (countEvent_logs (setBit_logs hb h))

theorem pendBank_log (h : k < 4) : logReg (devA DEV.IRQA_PEND + 4 * k) = true ∧ logReg (devA DEV.IRQS_PEND + 4 * k) = true := by
  have : k = 0 ∨ k = 1 ∨ k = 2 ∨ k = 3 := by omega
  rcases this with rfl | rfl | rfl | rfl <;> decide

theorem irq_logs (hb : b < 64) (h : LogsAt a s t) : LogsAt a s (t.irq b) := by
  have hk := pendBank_log (k := b / 16) (by omega)
  unfold State.irq
  extract_lets o v
  exact flagOnly_logs (.inr hk.2) (logsAt_ite h (flagOnly_logs (.inr hk.1) h))

theorem life_logs (hk : k < 16) (h : LogsAt a s t) : LogsAt a s (t.life k) := by
  unfold State.life
  extract_lets x
  have hl : logReg x = true ∧ pendReg x = false := by
    have : k = 0 ∨ k = 1 ∨ k = 2 ∨ k = 3 ∨ k = 4 ∨ k = 5 ∨ k = 6 ∨ k = 7 ∨ k = 8 ∨ k = 9 ∨ k = 10 ∨ k = 11 ∨ k = 12 ∨ k = 13 ∨ k = 14 ∨ k = 15 := by omega
    rcases this with rfl | rfl | rfl | rfl | rfl | rfl | rfl | rfl | rfl | rfl | rfl | rfl | rfl | rfl | rfl | rfl <;> decide
  exact logsAt_ite h (wr_logs (.inr hl.1) hl.2 h)

theorem bump_logs (hb : logReg b = true) (hp : pendReg b = false) (h : LogsAt a s t) : LogsAt a s (t.bump b n) := wr_logs (.inr hb) hp h

theorem collide_logs (h : LogsAt a s t) : LogsAt a s (t.collide k) := by
  unfold State.collide
  exact irq_logs (by omega) (flagOnly_logs (.inr (by decide)) (life_logs (by omega) (bump_logs (by decide) (by decide) (onFlt_logs h))))

/-- Hardware sets a flag: beside its own register only those of `logReg` change. -/
theorem flag_logs (hi : (flagCause b i).getD 0 < 64) (hb : b = a ∨ logReg b = true) (h : LogsAt a s t) : LogsAt a s (t.flag b i) := by
  unfold State.flag
  extract_lets key s1 s2
  have h1 : LogsAt a s s1 := flagOnly_logs hb h
  have h2 : LogsAt a s s2 := logsAt_ite (collide_logs h1) h1
  split
  · rename_i x hx; rw [hx] at hi; exact irq_logs hi h2
  · exact h2

theorem pushEntry_logs {x : HistEntry} (h : LogsAt a s t) : LogsAt a s (t.pushEntry x) := by
  unfold State.pushEntry
  extract_lets hh kk old nu all s1
  have h1 : LogsAt a s s1 := onFlt_logs h
  exact logsAt_ite h1 (life_logs (by omega) (flag_logs (by decide) (.inr (by decide)) (bump_logs (by decide) (by decide) h1)))

theorem push_logs {x : HistEntry} (h : LogsAt a s t) : LogsAt a s (t.push x) := logsAt_ite h (pushEntry_logs h)

/-- The log of an event changes the registers of `logReg` and the fault manager alone. -/
theorem log_logs {bd : Bind} (h : LogsAt a s t) : LogsAt a s (t.log c d1 d2 bd) := by
  unfold State.log
  extract_lets lv obj isSet w5 s1 s2 ax
  have h1 : LogsAt a s s1 := push_logs h
  have h2 : LogsAt a s s2 := logsAt_ite (flag_logs (by decide) (.inr (by decide)) h1) h1
  exact logsAt_ite (onFlt_logs (life_logs (by omega) (flag_logs (by decide) (.inr (by decide)) h2))) (logsAt_ite (onFlt_logs h2) h2)

theorem logRefusal_logs (h : LogsAt a s t) : LogsAt a s (t.logRefusal b c d1 d2) := push_logs h

/-- A command's completion writes CMDSTAT, sets its attention cause, and may leave a refusal entry. -/
theorem finish_logs {st : Status} (hp : pendReg a = false) (hb : b < 64) (h : LogsAt a s t) : LogsAt a s (t.finish a b c d1 d2 st) := by
  unfold State.finish
  extract_lets s1
  have h1 : LogsAt a s s1 := irq_logs hb (wr_logs (.inl rfl) hp h)
  exact logsAt_ite (logRefusal_logs h1) h1

/-! ### What they set -/

/-- A register out of reach of the log, or a bit of a pending one, survives it. -/
theorem LogsAt.bit (h : LogsAt a s t) (hc : c ≠ a) (hl : logReg c = false ∨ pendReg c = true) (hb : s.bit c i = true) : t.bit c i = true := by
  rcases hl with hl | hl
  · simpa [State.bit, h.val c hc hl] using hb
  · exact h.mono c i hl hb

/-- A flag that hardware sets reads 1. -/
theorem flag_bit (hi : i < 64) (hf : (flagCause b i).getD 0 < 64) (hl : logReg b = false ∨ pendReg b = true) : (s.flag b i).bit b i = true := by
  have h0 : (s.flagOnly b i).bit b i = true := s.bit_setBit b i true hi
  obtain ⟨a, ha, hab⟩ : ∃ a, logReg a = true ∧ b ≠ a := by
    by_cases e : b = fltA FLT.HOVF
    · exact ⟨fltA FLT.COLLCNT, by decide, by rw [e]; decide⟩
    · exact ⟨fltA FLT.HOVF, by decide, e⟩
  have key : LogsAt a (s.flagOnly b i) (s.flag b i) := by
    unfold State.flag
    extract_lets k s1 s2
    have h2 : LogsAt a s1 s2 := logsAt_ite (collide_logs .refl) .refl
    split
    · rename_i x hx; rw [hx] at hf; exact irq_logs hf h2
    · exact h2
  exact key.bit hab hl h0

/-- The number of entries after a push, and that the entry is among them while the queue was not full. -/
theorem mem_insertEntry {x : HistEntry} (l : List HistEntry) : ∃ y ∈ insertEntry x l, y = x := by
  induction l with
  | nil => exact ⟨x, by simp [insertEntry], rfl⟩
  | cons y l ih =>
    simp only [insertEntry]
    split
    · exact ⟨x, by simp, rfl⟩
    · obtain ⟨z, hz, e⟩ := ih; exact ⟨z, by simp [hz], e⟩

theorem mem_renumber {x : HistEntry} {l : List HistEntry} (h : x ∈ l) (q : BitVec 32) : ∃ q', { x with seq := q' } ∈ renumber q l := by
  induction l generalizing q with
  | nil => simp at h
  | cons y l ih =>
    rcases List.mem_cons.mp h with rfl | h
    · exact ⟨q, by simp [renumber]⟩
    · obtain ⟨q', hq⟩ := ih h (q + 1); exact ⟨q', by rw [renumber]; exact List.mem_cons_of_mem _ hq⟩

/-- While the queue is not full, an entry that is pushed out of reset stands in it (R489, R490). -/
theorem push_hist {x : HistEntry} (hr : s.pow.inReset = false) (hl : s.flt.hist.length < 32) : ∃ q, { x with seq := q } ∈ (s.push x).flt.hist := by
  simp only [State.push, hr, if_false, Bool.false_eq_true]
  unfold State.pushEntry
  extract_lets hh k old nu all s1
  have hn : nu.length = (hh.drop (hh.length - k)).length + 1 := by
    have e1 : ∀ (q : BitVec 32) (l : List HistEntry), (renumber q l).length = l.length := by
      intro q l; induction l generalizing q with
      | nil => rfl
      | cons y l ih => simp [renumber, ih]
    have e2 : ∀ l : List HistEntry, (insertEntry x l).length = l.length + 1 := by
      intro l; induction l with
      | nil => rfl
      | cons y l ih => simp only [insertEntry]; split <;> simp [ih]
    simp only [nu, e1, e2]
  have ha : all.length ≤ 32 := by
    simp only [all, old, List.length_append, hn, List.length_take, List.length_drop]
    have : hh.length < 32 := hl
    omega
  obtain ⟨y, hy, rfl⟩ := mem_insertEntry (x := x) (hh.drop (hh.length - k))
  obtain ⟨q, hq⟩ := mem_renumber hy (s.flt.nextSeq - BitVec.ofNat 32 k)
  refine ⟨q, ?_⟩
  simp only [s1, if_pos ha, State.onFlt]
  exact List.mem_append_right _ hq

theorem life_hist : (s.life k).flt = s.flt := by unfold State.life; extract_lets x; split <;> rfl

theorem irq_hist : (s.irq b).flt.hist = s.flt.hist := by
  unfold State.irq; extract_lets o v
  have : v.flt.hist = s.flt.hist := by simp only [v]; split <;> rfl
  exact this

theorem collide_hist : (s.collide k).flt.hist = s.flt.hist := by
  unfold State.collide; rw [irq_hist]; show ((_ : State).life 15).flt.hist = _; rw [life_hist]; rfl

theorem flag_hist : (s.flag b i).flt.hist = s.flt.hist := by
  unfold State.flag
  extract_lets k s1 s2
  have h2 : s2.flt.hist = s.flt.hist := by simp only [s2]; split <;> [exact collide_hist; rfl]
  split
  · rw [irq_hist, h2]
  · exact h2

/-- While the queue is not full, an event that is logged out of reset stands in it, with its code and its detail words (R488, R490). -/
theorem log_hist {bd : Bind} (hr : s.pow.inReset = false) (hl : s.flt.hist.length < 32) :
    ∃ x ∈ (s.log c d1 d2 bd).flt.hist, x.code = BitVec.ofNat 16 c ∧ x.w6 = BitVec.ofNat 16 d1 ∧ x.w7 = BitVec.ofNat 16 d2 := by
  unfold State.log
  extract_lets lv obj isSet w5 s1 s2 ax
  obtain ⟨q, hq⟩ := push_hist (x := ⟨s.now, 0, BitVec.ofNat 16 c, BitVec.ofNat 16 w5, BitVec.ofNat 16 d1, BitVec.ofNat 16 d2⟩) hr hl
  have h2 : s2.flt.hist = s1.flt.hist := by simp only [s2]; split <;> [exact flag_hist; rfl]
  refine ⟨⟨s.now, q, BitVec.ofNat 16 c, BitVec.ofNat 16 w5, BitVec.ofNat 16 d1, BitVec.ofNat 16 d2⟩, ?_, rfl, rfl, rfl⟩
  split
  · show _ ∈ ((_ : State).life 4).flt.hist
    rw [life_hist, flag_hist, h2]; exact hq
  · split
    · show _ ∈ s2.flt.hist
      rw [h2]; exact hq
    · rw [h2]; exact hq

end Sys2Proof.Machine
end

