-- ==== Sys2Proof/Laws/EventFields.lean ====
section
/-! SUPPORT. Flags, interrupts, lifetime counters and the log touch the register file and the fault manager alone: every other part of the
state, field by field, and the registers out of their reach. -/

namespace Sys2Proof.Machine

/-- From `s` to `t` only the register file and the fault manager may change. -/
structure RF (s t : State) : Prop where
  rest : t = { s with regs := t.regs, flt := t.flt }

theorem RF.refl {s : State} : RF s s := ⟨rfl⟩

theorem RF.trans {s t u : State} (h : RF s t) (g : RF t u) : RF s u := ⟨by rw [g.rest]; conv => lhs; rw [h.rest]⟩

theorem rf_ite {p : Prop} {_ : Decidable p} {s t u : State} (h : RF s t) (g : RF s u) : RF s (if p then t else u) := by by_cases hp : p <;> simp [hp, h, g]

variable (s : State)

theorem life_rf (k : Nat) : RF s (s.life k) := by unfold State.life; extract_lets a; exact rf_ite .refl ⟨rfl⟩

theorem countEvent_rf (k : Nat) : RF s (s.countEvent k) := ⟨rfl⟩

theorem flagOnly_rf (b i : Nat) : RF s (s.flagOnly b i) := ⟨rfl⟩

theorem irq_rf (b : Nat) : RF s (s.irq b) := by unfold State.irq; extract_lets o v; exact (rf_ite (s := s) (t := s) .refl ⟨rfl⟩).trans ⟨rfl⟩

theorem collide_rf (k : Nat) : RF s (s.collide k) := by unfold State.collide; extract_lets c d s1; exact (RF.trans ⟨rfl⟩ (life_rf _ 15)).trans (RF.trans ⟨rfl⟩ (irq_rf _ 54))

theorem flag_rf (b i : Nat) : RF s (s.flag b i) := by unfold State.flag; extract_lets k s1 s2; have h : RF s s2 := RF.trans (t := s1) ⟨rfl⟩ (rf_ite (collide_rf _ _) .refl); split <;> [exact h.trans (irq_rf _ _); exact h]

theorem clearFlag_rf (b i : Nat) : RF s (s.clearFlag b i) := by unfold State.clearFlag; extract_lets k; exact rf_ite (collide_rf _ _) ⟨rfl⟩

theorem cmdstat_rf (a b op : Nat) (st : Status) : RF s (s.cmdstat a b op st) := RF.trans (t := s.wr a (op * 256 + st.code)) ⟨rfl⟩ (irq_rf _ _)

theorem pushEntry_rf (x : HistEntry) : RF s (s.pushEntry x) := by unfold State.pushEntry; extract_lets h k o n a s1; exact RF.trans (t := s1) ⟨rfl⟩ (rf_ite .refl ((RF.trans (t := s1.bump _) ⟨rfl⟩ (flag_rf _ _ _)).trans (life_rf _ _)))

theorem push_rf (x : HistEntry) : RF s (s.push x) := rf_ite .refl (pushEntry_rf _ _)

theorem log_rf (c d1 d2 : Nat) (bd : Bind) : RF s (s.log c d1 d2 bd) := by unfold State.log; extract_lets lv obj isSet w5 s1 s2 ax; have h2 : RF s s2 := (push_rf s _).trans (rf_ite (flag_rf _ _ _) .refl); exact rf_ite ((h2.trans (flag_rf _ _ _)).trans ((life_rf _ _).trans ⟨rfl⟩)) (rf_ite (h2.trans ⟨rfl⟩) h2)

theorem logRefusal_rf (b o g x : Nat) : RF s (s.logRefusal b o g x) := push_rf _ _

theorem finish_rf (a b o g x : Nat) (st : Status) : RF s (s.finish a b o g x st) := by unfold State.finish; extract_lets s1; exact rf_ite ((cmdstat_rf _ _ _ _ _).trans (logRefusal_rf _ _ _ _ _)) (cmdstat_rf _ _ _ _ _)

@[simp] theorem State.life_fields (k : Nat) :
    (s.life k).pending = s.pending ∧ (s.life k).fresh = s.fresh ∧ (s.life k).path = s.path ∧ (s.life k).acc = s.acc ∧
    (s.life k).tim = s.tim ∧ (s.life k).img = s.img ∧ (s.life k).bore = s.bore ∧ (s.life k).axes = s.axes ∧ (s.life k).units = s.units ∧
    (s.life k).stage = s.stage ∧ (s.life k).mods = s.mods ∧ (s.life k).seq = s.seq ∧ (s.life k).pins = s.pins ∧ (s.life k).ports = s.ports ∧
    (s.life k).excs = s.excs ∧ (s.life k).frcs = s.frcs ∧ (s.life k).adcs = s.adcs ∧ (s.life k).conv = s.conv ∧ (s.life k).cmps = s.cmps ∧
    (s.life k).net = s.net ∧ (s.life k).wld = s.wld ∧ (s.life k).pow = s.pow ∧ (s.life k).host = s.host := by
  rw [(life_rf s k).rest]; exact ⟨rfl, rfl, rfl, rfl, rfl, rfl, rfl, rfl, rfl, rfl, rfl, rfl, rfl, rfl, rfl, rfl, rfl, rfl, rfl, rfl, rfl, rfl, rfl⟩

@[simp] theorem State.countEvent_fields (k : Nat) :
    (s.countEvent k).pending = s.pending ∧ (s.countEvent k).fresh = s.fresh ∧ (s.countEvent k).path = s.path ∧
    (s.countEvent k).acc = s.acc ∧ (s.countEvent k).tim = s.tim ∧ (s.countEvent k).img = s.img ∧ (s.countEvent k).bore = s.bore ∧
    (s.countEvent k).axes = s.axes ∧ (s.countEvent k).units = s.units ∧ (s.countEvent k).stage = s.stage ∧ (s.countEvent k).mods = s.mods ∧
    (s.countEvent k).seq = s.seq ∧ (s.countEvent k).pins = s.pins ∧ (s.countEvent k).ports = s.ports ∧ (s.countEvent k).excs = s.excs ∧
    (s.countEvent k).frcs = s.frcs ∧ (s.countEvent k).adcs = s.adcs ∧ (s.countEvent k).conv = s.conv ∧ (s.countEvent k).cmps = s.cmps ∧
    (s.countEvent k).net = s.net ∧ (s.countEvent k).wld = s.wld ∧ (s.countEvent k).pow = s.pow ∧ (s.countEvent k).host = s.host := by
  rw [(countEvent_rf s k).rest]; exact ⟨rfl, rfl, rfl, rfl, rfl, rfl, rfl, rfl, rfl, rfl, rfl, rfl, rfl, rfl, rfl, rfl, rfl, rfl, rfl, rfl, rfl, rfl, rfl⟩

@[simp] theorem State.flagOnly_fields (b i : Nat) :
    (s.flagOnly b i).pending = s.pending ∧ (s.flagOnly b i).fresh = s.fresh ∧ (s.flagOnly b i).path = s.path ∧
    (s.flagOnly b i).acc = s.acc ∧ (s.flagOnly b i).tim = s.tim ∧ (s.flagOnly b i).img = s.img ∧ (s.flagOnly b i).bore = s.bore ∧
    (s.flagOnly b i).axes = s.axes ∧ (s.flagOnly b i).units = s.units ∧ (s.flagOnly b i).stage = s.stage ∧ (s.flagOnly b i).mods = s.mods ∧
    (s.flagOnly b i).seq = s.seq ∧ (s.flagOnly b i).pins = s.pins ∧ (s.flagOnly b i).ports = s.ports ∧ (s.flagOnly b i).excs = s.excs ∧
    (s.flagOnly b i).frcs = s.frcs ∧ (s.flagOnly b i).adcs = s.adcs ∧ (s.flagOnly b i).conv = s.conv ∧ (s.flagOnly b i).cmps = s.cmps ∧
    (s.flagOnly b i).net = s.net ∧ (s.flagOnly b i).wld = s.wld ∧ (s.flagOnly b i).pow = s.pow ∧ (s.flagOnly b i).host = s.host := by
  rw [(flagOnly_rf s b i).rest]; exact ⟨rfl, rfl, rfl, rfl, rfl, rfl, rfl, rfl, rfl, rfl, rfl, rfl, rfl, rfl, rfl, rfl, rfl, rfl, rfl, rfl, rfl, rfl, rfl⟩

@[simp] theorem State.irq_fields (b : Nat) :
    (s.irq b).pending = s.pending ∧ (s.irq b).fresh = s.fresh ∧ (s.irq b).path = s.path ∧ (s.irq b).acc = s.acc ∧ (s.irq b).tim = s.tim ∧
    (s.irq b).img = s.img ∧ (s.irq b).bore = s.bore ∧ (s.irq b).axes = s.axes ∧ (s.irq b).units = s.units ∧ (s.irq b).stage = s.stage ∧
    (s.irq b).mods = s.mods ∧ (s.irq b).seq = s.seq ∧ (s.irq b).pins = s.pins ∧ (s.irq b).ports = s.ports ∧ (s.irq b).excs = s.excs ∧
    (s.irq b).frcs = s.frcs ∧ (s.irq b).adcs = s.adcs ∧ (s.irq b).conv = s.conv ∧ (s.irq b).cmps = s.cmps ∧ (s.irq b).net = s.net ∧
    (s.irq b).wld = s.wld ∧ (s.irq b).pow = s.pow ∧ (s.irq b).host = s.host := by
  rw [(irq_rf s b).rest]; exact ⟨rfl, rfl, rfl, rfl, rfl, rfl, rfl, rfl, rfl, rfl, rfl, rfl, rfl, rfl, rfl, rfl, rfl, rfl, rfl, rfl, rfl, rfl, rfl⟩

@[simp] theorem State.collide_fields (k : Nat) :
    (s.collide k).pending = s.pending ∧ (s.collide k).fresh = s.fresh ∧ (s.collide k).path = s.path ∧ (s.collide k).acc = s.acc ∧
    (s.collide k).tim = s.tim ∧ (s.collide k).img = s.img ∧ (s.collide k).bore = s.bore ∧ (s.collide k).axes = s.axes ∧
    (s.collide k).units = s.units ∧ (s.collide k).stage = s.stage ∧ (s.collide k).mods = s.mods ∧ (s.collide k).seq = s.seq ∧
    (s.collide k).pins = s.pins ∧ (s.collide k).ports = s.ports ∧ (s.collide k).excs = s.excs ∧ (s.collide k).frcs = s.frcs ∧
    (s.collide k).adcs = s.adcs ∧ (s.collide k).conv = s.conv ∧ (s.collide k).cmps = s.cmps ∧ (s.collide k).net = s.net ∧
    (s.collide k).wld = s.wld ∧ (s.collide k).pow = s.pow ∧ (s.collide k).host = s.host := by
  rw [(collide_rf s k).rest]; exact ⟨rfl, rfl, rfl, rfl, rfl, rfl, rfl, rfl, rfl, rfl, rfl, rfl, rfl, rfl, rfl, rfl, rfl, rfl, rfl, rfl, rfl, rfl, rfl⟩

@[simp] theorem State.flag_fields (b i : Nat) :
    (s.flag b i).pending = s.pending ∧ (s.flag b i).fresh = s.fresh ∧ (s.flag b i).path = s.path ∧ (s.flag b i).acc = s.acc ∧
    (s.flag b i).tim = s.tim ∧ (s.flag b i).img = s.img ∧ (s.flag b i).bore = s.bore ∧ (s.flag b i).axes = s.axes ∧
    (s.flag b i).units = s.units ∧ (s.flag b i).stage = s.stage ∧ (s.flag b i).mods = s.mods ∧ (s.flag b i).seq = s.seq ∧
    (s.flag b i).pins = s.pins ∧ (s.flag b i).ports = s.ports ∧ (s.flag b i).excs = s.excs ∧ (s.flag b i).frcs = s.frcs ∧
    (s.flag b i).adcs = s.adcs ∧ (s.flag b i).conv = s.conv ∧ (s.flag b i).cmps = s.cmps ∧ (s.flag b i).net = s.net ∧
    (s.flag b i).wld = s.wld ∧ (s.flag b i).pow = s.pow ∧ (s.flag b i).host = s.host := by
  rw [(flag_rf s b i).rest]; exact ⟨rfl, rfl, rfl, rfl, rfl, rfl, rfl, rfl, rfl, rfl, rfl, rfl, rfl, rfl, rfl, rfl, rfl, rfl, rfl, rfl, rfl, rfl, rfl⟩

@[simp] theorem State.clearFlag_fields (b i : Nat) :
    (s.clearFlag b i).pending = s.pending ∧ (s.clearFlag b i).fresh = s.fresh ∧ (s.clearFlag b i).path = s.path ∧
    (s.clearFlag b i).acc = s.acc ∧ (s.clearFlag b i).tim = s.tim ∧ (s.clearFlag b i).img = s.img ∧ (s.clearFlag b i).bore = s.bore ∧
    (s.clearFlag b i).axes = s.axes ∧ (s.clearFlag b i).units = s.units ∧ (s.clearFlag b i).stage = s.stage ∧
    (s.clearFlag b i).mods = s.mods ∧ (s.clearFlag b i).seq = s.seq ∧ (s.clearFlag b i).pins = s.pins ∧ (s.clearFlag b i).ports = s.ports ∧
    (s.clearFlag b i).excs = s.excs ∧ (s.clearFlag b i).frcs = s.frcs ∧ (s.clearFlag b i).adcs = s.adcs ∧ (s.clearFlag b i).conv = s.conv ∧
    (s.clearFlag b i).cmps = s.cmps ∧ (s.clearFlag b i).net = s.net ∧ (s.clearFlag b i).wld = s.wld ∧ (s.clearFlag b i).pow = s.pow ∧
    (s.clearFlag b i).host = s.host := by
  rw [(clearFlag_rf s b i).rest]; exact ⟨rfl, rfl, rfl, rfl, rfl, rfl, rfl, rfl, rfl, rfl, rfl, rfl, rfl, rfl, rfl, rfl, rfl, rfl, rfl, rfl, rfl, rfl, rfl⟩

@[simp] theorem State.cmdstat_fields (a b op : Nat) (st : Status) :
    (s.cmdstat a b op st).pending = s.pending ∧ (s.cmdstat a b op st).fresh = s.fresh ∧ (s.cmdstat a b op st).path = s.path ∧
    (s.cmdstat a b op st).acc = s.acc ∧ (s.cmdstat a b op st).tim = s.tim ∧ (s.cmdstat a b op st).img = s.img ∧
    (s.cmdstat a b op st).bore = s.bore ∧ (s.cmdstat a b op st).axes = s.axes ∧ (s.cmdstat a b op st).units = s.units ∧
    (s.cmdstat a b op st).stage = s.stage ∧ (s.cmdstat a b op st).mods = s.mods ∧ (s.cmdstat a b op st).seq = s.seq ∧
    (s.cmdstat a b op st).pins = s.pins ∧ (s.cmdstat a b op st).ports = s.ports ∧ (s.cmdstat a b op st).excs = s.excs ∧
    (s.cmdstat a b op st).frcs = s.frcs ∧ (s.cmdstat a b op st).adcs = s.adcs ∧ (s.cmdstat a b op st).conv = s.conv ∧
    (s.cmdstat a b op st).cmps = s.cmps ∧ (s.cmdstat a b op st).net = s.net ∧ (s.cmdstat a b op st).wld = s.wld ∧
    (s.cmdstat a b op st).pow = s.pow ∧ (s.cmdstat a b op st).host = s.host := by
  rw [(cmdstat_rf s a b op st).rest]; exact ⟨rfl, rfl, rfl, rfl, rfl, rfl, rfl, rfl, rfl, rfl, rfl, rfl, rfl, rfl, rfl, rfl, rfl, rfl, rfl, rfl, rfl, rfl, rfl⟩

@[simp] theorem State.pushEntry_fields (x : HistEntry) :
    (s.pushEntry x).pending = s.pending ∧ (s.pushEntry x).fresh = s.fresh ∧ (s.pushEntry x).path = s.path ∧ (s.pushEntry x).acc = s.acc ∧
    (s.pushEntry x).tim = s.tim ∧ (s.pushEntry x).img = s.img ∧ (s.pushEntry x).bore = s.bore ∧ (s.pushEntry x).axes = s.axes ∧
    (s.pushEntry x).units = s.units ∧ (s.pushEntry x).stage = s.stage ∧ (s.pushEntry x).mods = s.mods ∧ (s.pushEntry x).seq = s.seq ∧
    (s.pushEntry x).pins = s.pins ∧ (s.pushEntry x).ports = s.ports ∧ (s.pushEntry x).excs = s.excs ∧ (s.pushEntry x).frcs = s.frcs ∧
    (s.pushEntry x).adcs = s.adcs ∧ (s.pushEntry x).conv = s.conv ∧ (s.pushEntry x).cmps = s.cmps ∧ (s.pushEntry x).net = s.net ∧
    (s.pushEntry x).wld = s.wld ∧ (s.pushEntry x).pow = s.pow ∧ (s.pushEntry x).host = s.host := by
  rw [(pushEntry_rf s x).rest]; exact ⟨rfl, rfl, rfl, rfl, rfl, rfl, rfl, rfl, rfl, rfl, rfl, rfl, rfl, rfl, rfl, rfl, rfl, rfl, rfl, rfl, rfl, rfl, rfl⟩

@[simp] theorem State.push_fields (x : HistEntry) :
    (s.push x).pending = s.pending ∧ (s.push x).fresh = s.fresh ∧ (s.push x).path = s.path ∧ (s.push x).acc = s.acc ∧
    (s.push x).tim = s.tim ∧ (s.push x).img = s.img ∧ (s.push x).bore = s.bore ∧ (s.push x).axes = s.axes ∧ (s.push x).units = s.units ∧
    (s.push x).stage = s.stage ∧ (s.push x).mods = s.mods ∧ (s.push x).seq = s.seq ∧ (s.push x).pins = s.pins ∧ (s.push x).ports = s.ports ∧
    (s.push x).excs = s.excs ∧ (s.push x).frcs = s.frcs ∧ (s.push x).adcs = s.adcs ∧ (s.push x).conv = s.conv ∧ (s.push x).cmps = s.cmps ∧
    (s.push x).net = s.net ∧ (s.push x).wld = s.wld ∧ (s.push x).pow = s.pow ∧ (s.push x).host = s.host := by
  rw [(push_rf s x).rest]; exact ⟨rfl, rfl, rfl, rfl, rfl, rfl, rfl, rfl, rfl, rfl, rfl, rfl, rfl, rfl, rfl, rfl, rfl, rfl, rfl, rfl, rfl, rfl, rfl⟩

@[simp] theorem State.log_fields (c d1 d2 : Nat) (bd : Bind) :
    (s.log c d1 d2 bd).pending = s.pending ∧ (s.log c d1 d2 bd).fresh = s.fresh ∧ (s.log c d1 d2 bd).path = s.path ∧
    (s.log c d1 d2 bd).acc = s.acc ∧ (s.log c d1 d2 bd).tim = s.tim ∧ (s.log c d1 d2 bd).img = s.img ∧ (s.log c d1 d2 bd).bore = s.bore ∧
    (s.log c d1 d2 bd).axes = s.axes ∧ (s.log c d1 d2 bd).units = s.units ∧ (s.log c d1 d2 bd).stage = s.stage ∧
    (s.log c d1 d2 bd).mods = s.mods ∧ (s.log c d1 d2 bd).seq = s.seq ∧ (s.log c d1 d2 bd).pins = s.pins ∧
    (s.log c d1 d2 bd).ports = s.ports ∧ (s.log c d1 d2 bd).excs = s.excs ∧ (s.log c d1 d2 bd).frcs = s.frcs ∧
    (s.log c d1 d2 bd).adcs = s.adcs ∧ (s.log c d1 d2 bd).conv = s.conv ∧ (s.log c d1 d2 bd).cmps = s.cmps ∧
    (s.log c d1 d2 bd).net = s.net ∧ (s.log c d1 d2 bd).wld = s.wld ∧ (s.log c d1 d2 bd).pow = s.pow ∧ (s.log c d1 d2 bd).host = s.host := by
  rw [(log_rf s c d1 d2 bd).rest]; exact ⟨rfl, rfl, rfl, rfl, rfl, rfl, rfl, rfl, rfl, rfl, rfl, rfl, rfl, rfl, rfl, rfl, rfl, rfl, rfl, rfl, rfl, rfl, rfl⟩

@[simp] theorem State.logRefusal_fields (b o g x : Nat) :
    (s.logRefusal b o g x).pending = s.pending ∧ (s.logRefusal b o g x).fresh = s.fresh ∧ (s.logRefusal b o g x).path = s.path ∧
    (s.logRefusal b o g x).acc = s.acc ∧ (s.logRefusal b o g x).tim = s.tim ∧ (s.logRefusal b o g x).img = s.img ∧
    (s.logRefusal b o g x).bore = s.bore ∧ (s.logRefusal b o g x).axes = s.axes ∧ (s.logRefusal b o g x).units = s.units ∧
    (s.logRefusal b o g x).stage = s.stage ∧ (s.logRefusal b o g x).mods = s.mods ∧ (s.logRefusal b o g x).seq = s.seq ∧
    (s.logRefusal b o g x).pins = s.pins ∧ (s.logRefusal b o g x).ports = s.ports ∧ (s.logRefusal b o g x).excs = s.excs ∧
    (s.logRefusal b o g x).frcs = s.frcs ∧ (s.logRefusal b o g x).adcs = s.adcs ∧ (s.logRefusal b o g x).conv = s.conv ∧
    (s.logRefusal b o g x).cmps = s.cmps ∧ (s.logRefusal b o g x).net = s.net ∧ (s.logRefusal b o g x).wld = s.wld ∧
    (s.logRefusal b o g x).pow = s.pow ∧ (s.logRefusal b o g x).host = s.host := by
  rw [(logRefusal_rf s b o g x).rest]; exact ⟨rfl, rfl, rfl, rfl, rfl, rfl, rfl, rfl, rfl, rfl, rfl, rfl, rfl, rfl, rfl, rfl, rfl, rfl, rfl, rfl, rfl, rfl, rfl⟩

@[simp] theorem State.finish_fields (a b o g x : Nat) (st : Status) :
    (s.finish a b o g x st).pending = s.pending ∧ (s.finish a b o g x st).fresh = s.fresh ∧ (s.finish a b o g x st).path = s.path ∧
    (s.finish a b o g x st).acc = s.acc ∧ (s.finish a b o g x st).tim = s.tim ∧ (s.finish a b o g x st).img = s.img ∧
    (s.finish a b o g x st).bore = s.bore ∧ (s.finish a b o g x st).axes = s.axes ∧ (s.finish a b o g x st).units = s.units ∧
    (s.finish a b o g x st).stage = s.stage ∧ (s.finish a b o g x st).mods = s.mods ∧ (s.finish a b o g x st).seq = s.seq ∧
    (s.finish a b o g x st).pins = s.pins ∧ (s.finish a b o g x st).ports = s.ports ∧ (s.finish a b o g x st).excs = s.excs ∧
    (s.finish a b o g x st).frcs = s.frcs ∧ (s.finish a b o g x st).adcs = s.adcs ∧ (s.finish a b o g x st).conv = s.conv ∧
    (s.finish a b o g x st).cmps = s.cmps ∧ (s.finish a b o g x st).net = s.net ∧ (s.finish a b o g x st).wld = s.wld ∧
    (s.finish a b o g x st).pow = s.pow ∧ (s.finish a b o g x st).host = s.host := by
  rw [(finish_rf s a b o g x st).rest]; exact ⟨rfl, rfl, rfl, rfl, rfl, rfl, rfl, rfl, rfl, rfl, rfl, rfl, rfl, rfl, rfl, rfl, rfl, rfl, rfl, rfl, rfl, rfl, rfl⟩

/-- A register in reach of the log is never one out of its reach. -/
theorem ne_of_logReg {c : Nat} (h : logReg c = false) : c ≠ fltA FLT.HOVF := by rintro rfl; exact absurd h (by decide)

variable {c : Nat}

theorem State.log_val (h : logReg c = false) (k d1 d2 : Nat) (bd : Bind) : (s.log k d1 d2 bd).val c = s.val c :=
  (log_logs (a := fltA FLT.HOVF) .refl).val c (ne_of_logReg h) h

theorem State.irq_val (h : logReg c = false) {b : Nat} (hb : b < 64) : (s.irq b).val c = s.val c :=
  (irq_logs (a := fltA FLT.HOVF) hb .refl).val c (ne_of_logReg h) h

theorem State.life_val (h : logReg c = false) {k : Nat} (hk : k < 16) : (s.life k).val c = s.val c :=
  (life_logs (a := fltA FLT.HOVF) hk .refl).val c (ne_of_logReg h) h

theorem State.flag_val (h : logReg c = false) {b i : Nat} (hf : (flagCause b i).getD 0 < 64) (hc : c ≠ b) : (s.flag b i).val c = s.val c :=
  (flag_logs (a := b) hf (.inl rfl) .refl).val c hc h

theorem State.push_val (h : logReg c = false) (x : HistEntry) : (s.push x).val c = s.val c :=
  (push_logs (a := fltA FLT.HOVF) .refl).val c (ne_of_logReg h) h

/-- A command register's completion: its status word reads the echo and the status, and every other register out of the log's reach reads as before. -/
theorem State.finish_val {a b o g x : Nat} {st : Status} (ha : logReg a = false) (hb : b < 64) :
    (s.finish a b o g x st).val a = BitVec.ofNat 64 (o * 256 + st.code) ∧
    ∀ c, c ≠ a → logReg c = false → (s.finish a b o g x st).val c = s.val c := by
  have e : ∀ c, logReg c = false → (s.finish a b o g x st).val c = (s.wr a (o * 256 + st.code)).val c := by
    intro c hc
    unfold State.finish State.cmdstat
    extract_lets s1
    split
    · rw [State.logRefusal, State.push_val _ hc]; exact State.irq_val _ hc hb
    · exact State.irq_val _ hc hb
  refine ⟨by rw [e a ha, State.val_wr, if_pos rfl], fun c hc hl => by rw [e c hl, State.val_wr, if_neg hc]⟩

/-! ### Registers at 0x080000 and above: the engines' own. Flags, interrupts and the log write below, but for the flag's register. -/

theorem wr_hi {b v : Nat} (hb : b < 0x080000) (hc : 0x080000 ≤ c) : (s.wr b v).val c = s.val c := by
  rw [State.val_wr, if_neg (by omega)]

theorem setBit_hi {b i : Nat} {x : Bool} (hb : b < 0x080000) (hc : 0x080000 ≤ c) : (s.setBit b i x).val c = s.val c := by
  rw [State.val_setBit, if_neg (by omega)]

theorem irq_hi {b : Nat} (hb : b < 400) (hc : 0x080000 ≤ c) : (s.irq b).val c = s.val c := by
  have h1 : ∀ u : State, (u.flagOnly (devA DEV.IRQA_PEND + 4 * (b / 16)) (b % 16)).val c = u.val c := fun u =>
    setBit_hi u (by show 0x140 + 4 * (b / 16) < _; omega) hc
  have h2 : ∀ u : State, (u.flagOnly (devA DEV.IRQS_PEND + 4 * (b / 16)) (b % 16)).val c = u.val c := fun u =>
    setBit_hi u (by show 0x160 + 4 * (b / 16) < _; omega) hc
  unfold State.irq
  extract_lets o v
  rw [h2]
  simp only [v]
  split
  · rfl
  · exact h1 s

theorem life_hi {k : Nat} (hk : k < 16) (hc : 0x080000 ≤ c) : (s.life k).val c = s.val c := by
  unfold State.life
  extract_lets a
  split
  · rfl
  · exact wr_hi s (by show 0x040200 + 8 * k < _; omega) hc

theorem collide_hi {k : Nat} (hc : 0x080000 ≤ c) : (s.collide k).val c = s.val c := by
  unfold State.collide
  extract_lets x y s1
  rw [irq_hi _ (by decide) hc]
  show ((_ : State).setBit (fltA FLT.STATUS) 12 true).val c = _
  rw [setBit_hi _ (by decide) hc, life_hi _ (by decide) hc, State.bump, wr_hi _ (by decide) hc]
  rfl

theorem azBlock_lt (k : Nat) : azBlock k < 64 := by
  unfold azBlock
  split_ifs <;> omega

theorem getD_ite {p : Prop} {_ : Decidable p} {x y : Option Nat} (h : p → x.getD 0 < 400) (k : y.getD 0 < 400) : (if p then x else y).getD 0 < 400 := by
  by_cases hp : p
  · rw [if_pos hp]; exact h hp
  · rw [if_neg hp]; exact k

theorem getD_some_lt {x : Nat} (h : x < 400) : (some x).getD 0 < 400 := h

theorem getD_none_lt : (none : Option Nat).getD 0 < 400 := by decide

theorem flagCause_lt {b i : Nat} (hi : i < 64) : (flagCause b i).getD 0 < 400 := by
  unfold flagCause
  iterate 9
    refine getD_ite (fun h => ?_) ?_
    · refine getD_some_lt ?_; omega
  refine getD_ite (fun h => ?_) ?_
  · refine getD_some_lt ?_; omega
  refine getD_ite (fun h => ?_) ?_
  · refine getD_some_lt ?_; omega
  refine getD_ite (fun h => getD_ite (fun _ => getD_none_lt) (getD_some_lt (Nat.lt_trans (azBlock_lt _) (by omega)))) ?_
  iterate 4 refine getD_ite (fun _ => getD_some_lt (by omega)) ?_
  exact getD_none_lt

/-- A flag leaves every register of the engines but its own. -/
theorem flag_hi {b i : Nat} (hi : i < 64) (hb : c ≠ b) (hc : 0x080000 ≤ c) : (s.flag b i).val c = s.val c := by
  unfold State.flag
  extract_lets k s1 s2
  have h1 : s1.val c = s.val c := by show ((s.setBit b i true).val c) = _; rw [State.val_setBit, if_neg hb]
  have h2 : s2.val c = s.val c := by simp only [s2]; split <;> [rw [collide_hi _ hc, h1]; exact h1]
  split
  · rename_i x hx
    have := flagCause_lt (b := b) hi
    rw [hx, Option.getD_some] at this
    rw [irq_hi _ this hc, h2]
  · exact h2

/-- A flag's own register: its bit reads 1 and the others as before. -/
theorem flag_self_hi {b i : Nat} (hi : i < 64) (hb : 0x080000 ≤ b) : (s.flag b i).val b = s.val b ||| BitVec.twoPow 64 i := by
  unfold State.flag
  extract_lets k s1 s2
  have h1 : s1.val b = s.val b ||| BitVec.twoPow 64 i := by show ((s.setBit b i true).val b) = _; rw [State.val_setBit, if_pos rfl, if_pos rfl]
  have h2 : s2.val b = s.val b ||| BitVec.twoPow 64 i := by simp only [s2]; split <;> [rw [collide_hi _ hb, h1]; exact h1]
  split
  · rename_i x hx
    have := flagCause_lt (b := b) hi
    rw [hx, Option.getD_some] at this
    rw [irq_hi _ this hb, h2]
  · exact h2

theorem logReg_hi (hc : 0x080000 ≤ c) : logReg c = false := by
  simp only [logReg, pendReg, Bool.or_eq_false_iff, Bool.and_eq_false_iff, decide_eq_false_iff_not, beq_eq_false_iff_ne, ne_eq]
  have h1 : devA DEV.IRQA_PEND = 0x140 := rfl
  have h2 : devA DEV.IRQS_PEND = 0x160 := rfl
  have h3 : fltA FLT.STATUS = 0x040000 := rfl
  have h4 : fltA FLT.HOVF = 0x04001C := rfl
  have h5 : fltA FLT.COLLCNT = 0x040048 := rfl
  have h6 : fltA FLT.LIFE = 0x040200 := rfl
  refine ⟨⟨⟨⟨⟨?_, ?_⟩, ?_⟩, ?_⟩, ?_⟩, ?_⟩ <;> omega

theorem log_hi {k d1 d2 : Nat} {bd : Bind} (hc : 0x080000 ≤ c) : (s.log k d1 d2 bd).val c = s.val c := State.log_val s (logReg_hi hc) k d1 d2 bd

end Sys2Proof.Machine
end

