-- ==== Sys2Proof/Laws/Keeps.lean ====
section
/-! SUPPORT. What every operation of the part keeps: the queue of commands, the canonical form of the register file and of path memory,
and the bounds of the history queue and of the remembered ECC words. One relation, and its closure under the forms that definitions take. -/

namespace Sys2Proof.Machine

/-- One-time programmable memory only ever gains: a programmed key slot and the device key keep their value, a revoked slot stays revoked, a
closed test lock stays closed (R58, R472, R503). -/
structure OtpKept (k k' : Vector (Option (BitVec 256)) 4) (r r' : Vector Bool 4) (d d' : Option (BitVec 128)) (l l' : Bool) : Prop where
  keys : ∀ (i : Fin 4) x, k[i] = some x → k'[i] = some x
  revoked : ∀ i : Fin 4, r[i] = true → r'[i] = true
  dkey : ∀ x, d = some x → d' = some x
  lock : l = true → l' = true

theorem OtpKept.refl {k : Vector (Option (BitVec 256)) 4} {r : Vector Bool 4} {d : Option (BitVec 128)} {l : Bool} : OtpKept k k r r d d l l :=
  ⟨fun _ _ => id, fun _ => id, fun _ => id, id⟩

/-- From state `s` to state `t` the queue of waiting commands is the same, and whatever holds of `s` among the canonical forms and the
bounds of the history queue (R490) and of the remembered ECC words (R498) holds of `t`. -/
structure Keeps (s t : State) : Prop where
  pending : t.pending = s.pending
  regs : Regs.wf s.regs → Regs.wf t.regs
  path : Memory.wf s.path → Memory.wf t.path
  hist : s.flt.hist.length ≤ 32 → t.flt.hist.length ≤ 32
  ecc : s.flt.eccLogged.length ≤ 16 → t.flt.eccLogged.length ≤ 16
  otp : OtpKept s.bore.keys t.bore.keys s.bore.revoked t.bore.revoked s.wld.dkey t.wld.dkey s.pow.lock t.pow.lock

/-- `Keeps` for an operation that answers something beside its state. -/
abbrev KeepsP {A : Type} (s : State) (p : A × State) : Prop := Keeps s p.2

/-- `Keeps` for the meaning of a command. -/
def KeepsO (s : State) : Host.Outcome State Fault Refusal → Prop
  | .next t => Keeps s t
  | .fault _ => True
  | .refused _ => True

variable {s t : State} {A : Type}

theorem Keeps.refl : Keeps s s := ⟨rfl, id, id, id, id, .refl⟩

theorem Keeps.trans {r : State} (h : Keeps r s) (k : Keeps s t) : Keeps r t :=
  ⟨k.pending.trans h.pending, k.regs ∘ h.regs, k.path ∘ h.path, k.hist ∘ h.hist, k.ecc ∘ h.ecc,
    fun i x => k.otp.keys i x ∘ h.otp.keys i x, fun i => k.otp.revoked i ∘ h.otp.revoked i, fun x => k.otp.dkey x ∘ h.otp.dkey x, k.otp.lock ∘ h.otp.lock⟩

/-- An update of other parts of the state. -/
theorem Keeps.same {u : State} (h : Keeps s t) (hp : u.pending = t.pending) (hr : u.regs = t.regs) (hm : u.path = t.path)
    (hh : u.flt.hist = t.flt.hist) (he : u.flt.eccLogged = t.flt.eccLogged) (hb : u.bore = t.bore) (hw : u.wld = t.wld)
    (hl : u.pow = t.pow) : Keeps s u :=
  h.trans ⟨hp, by rw [hr]; exact id, by rw [hm]; exact id, by rw [hh]; exact id, by rw [he]; exact id, by rw [hb, hw, hl]; exact .refl⟩

theorem keeps_ite {c : Prop} {_ : Decidable c} {u : State} (h : Keeps s t) (k : Keeps s u) : Keeps s (if c then t else u) := by
  by_cases hc : c <;> simp [hc, h, k]

theorem keeps_dite {c : Prop} {_ : Decidable c} {f : c → State} {g : ¬c → State} (h : ∀ x, Keeps s (f x)) (k : ∀ x, Keeps s (g x)) :
    Keeps s (if x : c then f x else g x) := by
  by_cases hc : c <;> simp [hc, h, k]

theorem keepsP_mk {a : A} (h : Keeps s t) : KeepsP s (a, t) := h

theorem keepsP_ite {c : Prop} {_ : Decidable c} {p q : A × State} (h : KeepsP s p) (k : KeepsP s q) : KeepsP s (if c then p else q) := by
  by_cases hc : c <;> simp [hc, h, k]

theorem keepsP_dite {c : Prop} {_ : Decidable c} {f : c → A × State} {g : ¬c → A × State} (h : ∀ x, KeepsP s (f x)) (k : ∀ x, KeepsP s (g x)) :
    KeepsP s (if x : c then f x else g x) := by
  by_cases hc : c <;> simp [hc, h, k]

theorem keepsP_snd2 {B : Type} {p : A × B × State} {a : A} {b : B} (e : p = (a, b, t)) (h : Keeps s p.2.2) : Keeps s t := by
  rw [e] at h; exact h

theorem keepsP_ite2 {B : Type} {c : Prop} {_ : Decidable c} {p q : A × B × State} (h : Keeps s p.2.2) (k : Keeps s q.2.2) :
    Keeps s (if c then p else q).2.2 := by
  by_cases hc : c <;> simp [hc, h, k]

theorem keepsP_snd {p : A × State} {a : A} (e : p = (a, t)) (h : KeepsP s p) : Keeps s t := by rw [e] at h; exact h

theorem keepsO_next (h : Keeps s t) : KeepsO s (.next t) := h

theorem keepsO_ite {c : Prop} {_ : Decidable c} {p q : Host.Outcome State Fault Refusal} (h : KeepsO s p) (k : KeepsO s q) :
    KeepsO s (if c then p else q) := by
  by_cases hc : c <;> simp [hc, h, k]

theorem overList_keeps {l : List A} {f : State → A → State} (h : Keeps s t) (hf : ∀ u x, Keeps s u → Keeps s (f u x)) :
    Keeps s (overList l f t) := by
  induction l generalizing t with
  | nil => exact h
  | cons x l ih => exact ih (hf t x h)

theorem foldl_keeps {l : List A} {f : State → A → State} (h : Keeps s t) (hf : ∀ u x, Keeps s u → Keeps s (f u x)) :
    Keeps s (l.foldl f t) := overList_keeps h hf

/-- `Keeps` in terms of the five parts it speaks of. -/
structure KeepsParts (s : State) (p : List Instr) (r : List (Nat × Val)) (m : List Host.Cell) (h : List HistEntry) (e : List (Store × Nat))
    (k : Vector (Option (BitVec 256)) 4) (v : Vector Bool 4) (d : Option (BitVec 128)) (l : Bool) : Prop where
  pending : p = s.pending
  regs : Regs.wf s.regs → Regs.wf r
  path : Memory.wf s.path → Memory.wf m
  hist : s.flt.hist.length ≤ 32 → h.length ≤ 32
  ecc : s.flt.eccLogged.length ≤ 16 → e.length ≤ 16
  otp : OtpKept s.bore.keys k s.bore.revoked v s.wld.dkey d s.pow.lock l

/-- The parts of a state that keeps them. -/
theorem Keeps.parts (h : Keeps s t) : KeepsParts s t.pending t.regs t.path t.flt.hist t.flt.eccLogged t.bore.keys t.bore.revoked
    t.wld.dkey t.pow.lock :=
  ⟨h.pending, h.regs, h.path, h.hist, h.ecc, h.otp⟩

/-- A state written out field by field, as a record update is. -/
theorem keeps_mk {x_pending : List Instr} {x_fresh : Nat} {x_regs : List (Nat × Val)} {x_path : List Host.Cell} {x_acc : Vector Accessor 15} {x_flt : Faults} {x_tim : Timebase} {x_img : Image} {x_bore : Bore} {x_axes : Vector Axis 12} {x_units : Vector PwmUnit 48} {x_stage : Stage} {x_mods : Vector Modu 24} {x_seq : Seqr} {x_pins : Pins} {x_ports : Vector Port 8} {x_excs : Vector Exc 4} {x_frcs : Vector Force 8} {x_adcs : Vector Adc 2} {x_conv : Conv} {x_cmps : Comps} {x_net : Net} {x_wld : World} {x_pow : Power} {x_host : Vector HostOut 2} :
    Keeps s ⟨x_pending, x_fresh, x_regs, x_path, x_acc, x_flt, x_tim, x_img, x_bore, x_axes, x_units, x_stage, x_mods, x_seq, x_pins, x_ports, x_excs, x_frcs, x_adcs, x_conv, x_cmps, x_net, x_wld, x_pow, x_host⟩ ↔ KeepsParts s x_pending x_regs x_path x_flt.hist x_flt.eccLogged x_bore.keys x_bore.revoked x_wld.dkey x_pow.lock :=
  ⟨Keeps.parts, fun h => ⟨h.pending, h.regs, h.path, h.hist, h.ecc, h.otp⟩⟩

/-- A change of the fault manager that makes neither list longer. -/
theorem onFlt_keeps {f : Faults → Faults} (hh : (f t.flt).hist.length ≤ t.flt.hist.length)
    (he : (f t.flt).eccLogged.length ≤ t.flt.eccLogged.length) (h : Keeps s t) : Keeps s (t.onFlt f) :=
  h.trans ⟨rfl, id, id, Nat.le_trans hh, Nat.le_trans he, .refl⟩

/-- A change of the load buffer that leaves the key slots alone. -/
theorem onBore_keeps {f : Bore → Bore} (hk : (f t.bore).keys = t.bore.keys) (hr : (f t.bore).revoked = t.bore.revoked) (h : Keeps s t) :
    Keeps s (t.onBore f) :=
  h.trans ⟨rfl, id, id, id, id, by simp only [State.onBore, hk, hr]; exact .refl⟩

/-- A change of the power state that leaves the test lock alone. -/
theorem onPow_keeps {f : Power → Power} (hl : (f t.pow).lock = t.pow.lock) (h : Keeps s t) : Keeps s (t.onPow f) :=
  h.trans ⟨rfl, id, id, id, id, by simp only [State.onPow, hl]; exact .refl⟩

/-- A change of the world state that leaves the device key alone. -/
theorem onWld_keeps {f : World → World} (hd : (f t.wld).dkey = t.wld.dkey) (h : Keeps s t) : Keeps s (t.onWld f) :=
  h.trans ⟨rfl, id, id, id, id, by simp only [State.onWld, hd]; exact .refl⟩

theorem renumber_length {q : BitVec 32} {l : List HistEntry} : (renumber q l).length = l.length := by
  induction l generalizing q with
  | nil => rfl
  | cons x l ih => simp [renumber, ih]

theorem insertEntry_length {e : HistEntry} {l : List HistEntry} : (insertEntry e l).length = l.length + 1 := by
  induction l with
  | nil => rfl
  | cons x l ih => simp only [insertEntry]; split <;> simp [ih]

theorem setVal_keeps {b : Nat} {v : Val} (h : Keeps s t) : Keeps s (t.setVal b v) :=
  h.trans ⟨rfl, State.setVal_wf b v, id, id, id, .refl⟩

end Sys2Proof.Machine
end

