-- ==== Sys2Proof/Laws/KeepsOps.lean ====
section
/-! SUPPORT. Every operation of Machine/Ops.lean keeps what `Keeps` says. -/

namespace Sys2Proof.Machine

theorem State.wr_keeps (h : Keeps s t) : Keeps s (State.wr t a1 a2) := by
  unfold State.wr
  repeat' first
    | intro _ | extract_lets
    | with_reducible first | assumption | apply setVal_keeps

theorem State.wrI_keeps (h : Keeps s t) : Keeps s (State.wrI t a1 a2 a3) := by
  unfold State.wrI
  repeat' first
    | intro _ | extract_lets
    | with_reducible first | assumption | apply setVal_keeps

theorem State.setBit_keeps (h : Keeps s t) : Keeps s (State.setBit t a1 a2 a3) := by
  unfold State.setBit
  repeat' first
    | intro _ | extract_lets
    | with_reducible first | assumption | apply setVal_keeps

theorem State.setFld_keeps (h : Keeps s t) : Keeps s (State.setFld t a1 a2 a3 a4) := by
  unfold State.setFld
  repeat' first
    | intro _ | extract_lets
    | with_reducible first | assumption | apply State.wr_keeps

theorem State.bump_keeps (h : Keeps s t) : Keeps s (State.bump t a1 a2) := by
  unfold State.bump
  repeat' first
    | intro _ | extract_lets
    | with_reducible first | assumption | apply State.wr_keeps

theorem State.keepUse_keeps (h : Keeps s t) : Keeps s (State.keepUse t a1) := by
  unfold State.keepUse
  repeat' first
    | with_reducible assumption | with_reducible exact Nat.le_refl _ | with_reducible exact List.length_filter_le _ _ | with_reducible exact rfl | intro _ | extract_lets
    | with_reducible first | apply keeps_ite | apply keeps_dite | apply foldl_keeps
    | split
    | with_reducible refine keepsP_snd (by assumption) ?_ | with_reducible refine keepsP_snd2 (by assumption) ?_
    | with_reducible apply Keeps.parts | simp only [keeps_mk]
    | dsimp only | simp +zetaDelta only [keeps_mk] | dsimp +zetaDelta only

theorem State.onAx_keeps (h : Keeps s t) : Keeps s (State.onAx t a1 a2) := by
  unfold State.onAx
  repeat' first
    | intro _ | extract_lets
    | with_reducible first | assumption | apply keeps_ite | apply keeps_dite | apply foldl_keeps | refine keepsP_snd (by assumption) ?_
                            | refine keepsP_snd2 (by assumption) ?_ | apply Keeps.parts
    | split | simp only [keeps_mk]

theorem State.onMot_keeps (h : Keeps s t) : Keeps s (State.onMot t a1 a2) := by
  unfold State.onMot
  repeat' first
    | intro _ | extract_lets
    | with_reducible first | assumption | apply State.onAx_keeps

theorem State.onFol_keeps (h : Keeps s t) : Keeps s (State.onFol t a1 a2) := by
  unfold State.onFol
  repeat' first
    | intro _ | extract_lets
    | with_reducible first | assumption | apply State.onAx_keeps

theorem State.onTim_keeps (h : Keeps s t) : Keeps s (State.onTim t a1) := by
  unfold State.onTim
  repeat' first
    | intro _ | extract_lets
    | with_reducible first | assumption | apply keeps_ite | apply keeps_dite | apply foldl_keeps | refine keepsP_snd (by assumption) ?_
                            | refine keepsP_snd2 (by assumption) ?_ | apply Keeps.parts
    | split | simp only [keeps_mk]

theorem State.onAcc_keeps (h : Keeps s t) : Keeps s (State.onAcc t a1 a2) := by
  unfold State.onAcc
  repeat' first
    | intro _ | extract_lets
    | with_reducible first | assumption | apply keeps_ite | apply keeps_dite | apply foldl_keeps | refine keepsP_snd (by assumption) ?_
                            | refine keepsP_snd2 (by assumption) ?_ | apply Keeps.parts
    | split | simp only [keeps_mk]

theorem State.replaced_keeps (h : Keeps s t) : Keeps s (State.replaced t a1) := by
  unfold State.replaced
  repeat' first
    | intro _ | extract_lets
    | with_reducible first | assumption | apply keeps_ite | apply keeps_dite | apply foldl_keeps | refine keepsP_snd (by assumption) ?_
                            | refine keepsP_snd2 (by assumption) ?_ | apply Keeps.parts
    | split | simp only [keeps_mk]

theorem State.request_keeps (h : Keeps s t) : Keeps s (State.request t a1 a2 a3) := by
  unfold State.request
  repeat' first
    | intro _ | extract_lets
    | with_reducible first | assumption | apply keeps_ite | apply keeps_dite | apply foldl_keeps | refine keepsP_snd (by assumption) ?_
                            | refine keepsP_snd2 (by assumption) ?_ | apply Keeps.parts
    | split | simp only [keeps_mk]

theorem State.awake_keeps {a1 : State → State} (h : Keeps s t) (hf : ∀ u, Keeps s u → Keeps s (a1 u)) : Keeps s (State.awake t a1) :=
  keeps_ite h (hf _ h)

theorem State.working_keeps {a1 : State → State} (h : Keeps s t) (hf : ∀ u, Keeps s u → Keeps s (a1 u)) : Keeps s (State.working t a1) :=
  State.awake_keeps h (fun u hu => keeps_ite hu (hf u hu))

theorem State.free_keeps (h : Keeps s t) : KeepsP s (State.free t a1) := by
  exact h.same rfl rfl rfl rfl rfl rfl rfl rfl

end Sys2Proof.Machine
end

