-- ==== Sys2Proof/Laws/KeepsAccessors.lean ====
section
/-! SUPPORT. Every operation of Machine/Accessors.lean keeps what `Keeps` says. -/

namespace Sys2Proof.Machine

theorem State.busError_keeps (h : Keeps s t) : Keeps s (State.busError t a1) := by
  unfold State.busError
  repeat' first
    | intro _ | extract_lets
    | with_reducible first | assumption | apply State.onAcc_keeps

theorem State.counted_keeps (h : KeepsP s p) : Keeps s (State.counted a1 p) := by
  unfold State.counted
  repeat' first
    | intro _ | extract_lets
    | with_reducible first | assumption | apply State.busError_keeps | apply keeps_ite

end Sys2Proof.Machine
end

