-- ==== Sys2Proof/Laws/KeepsFlags.lean ====
section
/-! SUPPORT. Every operation of Machine/Flags.lean keeps what `Keeps` says. -/

namespace Sys2Proof.Machine

theorem State.life_keeps (h : Keeps s t) : Keeps s (State.life t a1) := by
  unfold State.life
  repeat' first
    | intro _ | extract_lets
    | with_reducible first | assumption | apply State.wr_keeps | apply keeps_ite

theorem State.countEvent_keeps (h : Keeps s t) : Keeps s (State.countEvent t a1) := by
  unfold State.countEvent
  repeat' first
    | intro _ | extract_lets
    | with_reducible first | assumption | exact Nat.le_refl _ | exact List.length_filter_le _ _ | exact rfl | apply onFlt_keeps

theorem State.flagOnly_keeps (h : Keeps s t) : Keeps s (State.flagOnly t a1 a2) := by
  unfold State.flagOnly
  repeat' first
    | with_reducible first | assumption | exact Nat.le_refl _ | apply onFlt_keeps | apply State.countEvent_keeps | apply State.setBit_keeps

theorem State.irq_keeps (h : Keeps s t) : Keeps s (State.irq t a1) := by
  unfold State.irq
  repeat' first
    | intro _ | extract_lets
    | with_reducible first | assumption | apply State.flagOnly_keeps | apply keeps_ite

theorem State.collide_keeps (h : Keeps s t) : Keeps s (State.collide t a1) := by
  unfold State.collide
  repeat' first
    | intro _ | extract_lets
    | with_reducible first | assumption | exact Nat.le_refl _ | exact List.length_filter_le _ _ | exact rfl | apply State.irq_keeps
         | apply State.flagOnly_keeps | apply State.life_keeps | apply State.bump_keeps | apply onFlt_keeps

theorem State.flag_keeps (h : Keeps s t) : Keeps s (State.flag t a1 a2) := by
  unfold State.flag
  repeat' first
    | intro _ | extract_lets
    | with_reducible first | assumption | apply State.flagOnly_keeps | apply State.collide_keeps | apply State.irq_keeps | apply keeps_ite
         | apply keeps_dite | apply foldl_keeps
    | split

theorem State.clearFlag_keeps (h : Keeps s t) : Keeps s (State.clearFlag t a1 a2) := by
  unfold State.clearFlag
  repeat' first
    | intro _ | extract_lets
    | with_reducible first | assumption | exact Nat.le_refl _ | exact List.length_filter_le _ _ | exact rfl | apply State.setBit_keeps
         | apply onFlt_keeps | apply State.collide_keeps | apply keeps_ite

theorem State.newClock_keeps (h : Keeps s t) : Keeps s (State.newClock t) := by
  unfold State.newClock
  repeat' first
    | intro _ | extract_lets
    | with_reducible first | assumption | exact Nat.le_refl _ | exact List.length_filter_le _ _ | exact rfl | apply onFlt_keeps

theorem State.hardClear_keeps (h : Keeps s t) : Keeps s (State.hardClear t a1 a2) := by
  unfold State.hardClear
  repeat' first
    | with_reducible first | assumption | exact Nat.le_refl _ | apply onFlt_keeps | apply State.setBit_keeps

theorem State.cmdstat_keeps (h : Keeps s t) : Keeps s (State.cmdstat t a1 a2 a3 a4) := by
  unfold State.cmdstat
  repeat' first
    | intro _ | extract_lets
    | with_reducible first | assumption | apply State.irq_keeps | apply State.wr_keeps

theorem State.pushEntry_keeps (h : Keeps s t) : Keeps s (State.pushEntry t a1) := by
  unfold State.pushEntry
  extract_lets hh k old nu all s1
  have h1 : Keeps s s1 := h.trans ⟨rfl, id, id, fun hl => by
      have hn : nu.length = (hh.drop (hh.length - k)).length + 1 := by simp only [nu, renumber_length, insertEntry_length]
      have ha : all.length = hh.length + 1 := by
        simp only [all, old, List.length_append, hn, List.length_take, List.length_drop]; omega
      simp only [s1, State.onFlt]
      split
      · assumption
      · rw [List.length_drop, ha]; simp only [hh]; omega, id, .refl⟩
  exact keeps_ite h1 (State.life_keeps (State.flag_keeps (State.bump_keeps h1)))

theorem State.push_keeps (h : Keeps s t) : Keeps s (State.push t a1) := by
  unfold State.push
  repeat' first
    | intro _ | extract_lets
    | with_reducible first | assumption | apply State.pushEntry_keeps | apply keeps_ite

theorem State.log_keeps (h : Keeps s t) : Keeps s (State.log t a1 a2 a3 a4) := by
  unfold State.log
  repeat' first
    | intro _ | extract_lets
    | with_reducible first | assumption | exact Nat.le_refl _ | exact List.length_filter_le _ _ | exact rfl | apply State.push_keeps
         | apply State.flag_keeps | apply State.life_keeps | apply onFlt_keeps | apply keeps_ite

theorem State.injected_keeps {a2 : State → State} (h : Keeps s t) (hf : ∀ u, Keeps s u → Keeps s (a2 u)) : Keeps s (State.injected t a1 a2) := by
  unfold State.injected
  exact keeps_ite (onFlt_keeps (Nat.le_refl _) (Nat.le_refl _) (hf _ (onFlt_keeps (Nat.le_refl _) (Nat.le_refl _) h))) (hf _ h)

theorem State.logRefusal_keeps (h : Keeps s t) : Keeps s (State.logRefusal t a1 a2 a3 a4) := by
  unfold State.logRefusal
  repeat' first
    | intro _ | extract_lets
    | with_reducible first | assumption | apply State.push_keeps

theorem State.finish_keeps (h : Keeps s t) : Keeps s (State.finish t a1 a2 a3 a4 a5 a6) := by
  unfold State.finish
  repeat' first
    | intro _ | extract_lets
    | with_reducible first | assumption | apply State.cmdstat_keeps | apply State.logRefusal_keeps | apply keeps_ite

end Sys2Proof.Machine
end

