-- ==== Sys2Proof/Laws/KeepsNumbers.lean ====
section
/-! SUPPORT. Every operation of Machine/Numbers.lean keeps what `Keeps` says. -/

namespace Sys2Proof.Machine

theorem State.onUnit_keeps (h : Keeps s t) : Keeps s (State.onUnit t a1 a2) := by
  unfold State.onUnit
  repeat' first
    | intro _ | extract_lets
    | with_reducible first | assumption | apply keeps_ite | apply keeps_dite | apply foldl_keeps | refine keepsP_snd (by assumption) ?_
                            | refine keepsP_snd2 (by assumption) ?_ | apply Keeps.parts
    | split | simp only [keeps_mk]

theorem State.onStage_keeps (h : Keeps s t) : Keeps s (State.onStage t a1) := by
  unfold State.onStage
  repeat' first
    | intro _ | extract_lets
    | with_reducible first | assumption | apply keeps_ite | apply keeps_dite | apply foldl_keeps | refine keepsP_snd (by assumption) ?_
                            | refine keepsP_snd2 (by assumption) ?_ | apply Keeps.parts
    | split | simp only [keeps_mk]

theorem State.onMod_keeps (h : Keeps s t) : Keeps s (State.onMod t a1 a2) := by
  unfold State.onMod
  repeat' first
    | intro _ | extract_lets
    | with_reducible first | assumption | apply keeps_ite | apply keeps_dite | apply foldl_keeps | refine keepsP_snd (by assumption) ?_
                            | refine keepsP_snd2 (by assumption) ?_ | apply Keeps.parts
    | split | simp only [keeps_mk]

theorem State.onCtl_keeps (h : Keeps s t) : Keeps s (State.onCtl t a1 a2) := by
  unfold State.onCtl
  repeat' first
    | intro _ | extract_lets
    | with_reducible first | assumption | apply State.onAx_keeps

end Sys2Proof.Machine
end

