-- ==== Sys2Proof/Laws/KeepsCurrent.lean ====
section
/-! SUPPORT. Every operation of Machine/Current.lean keeps what `Keeps` says. -/

namespace Sys2Proof.Machine

theorem State.measEdge_keeps (h : Keeps s t) : Keeps s (State.measEdge t a1) := by
  unfold State.measEdge
  repeat' first
    | with_reducible assumption | with_reducible exact Nat.le_refl _ | with_reducible exact List.length_filter_le _ _ | with_reducible exact rfl | intro _ | extract_lets
    | with_reducible first | apply State.onCtl_keeps | apply keeps_ite | apply keeps_dite | apply foldl_keeps
    | split
    | with_reducible refine keepsP_snd (by assumption) ?_ | with_reducible refine keepsP_snd2 (by assumption) ?_
    | with_reducible apply Keeps.parts | simp only [keeps_mk]
    | dsimp only | simp +zetaDelta only [keeps_mk] | dsimp +zetaDelta only

theorem State.voltEdge_keeps (h : Keeps s t) : Keeps s (State.voltEdge t a1) := by
  unfold State.voltEdge
  repeat' first
    | with_reducible assumption | with_reducible exact Nat.le_refl _ | with_reducible exact List.length_filter_le _ _ | with_reducible exact rfl | intro _ | extract_lets
    | with_reducible first | apply State.onUnit_keeps | apply State.onCtl_keeps | apply overList_keeps | apply keeps_ite | apply keeps_dite | apply foldl_keeps
    | split
    | with_reducible refine keepsP_snd (by assumption) ?_ | with_reducible refine keepsP_snd2 (by assumption) ?_
    | with_reducible apply Keeps.parts | simp only [keeps_mk]
    | dsimp only | simp +zetaDelta only [keeps_mk] | dsimp +zetaDelta only

theorem State.holdLevel_keeps (h : Keeps s t) : Keeps s (State.holdLevel t a1) := by
  unfold State.holdLevel
  repeat' first
    | intro _ | extract_lets
    | with_reducible first | assumption | apply State.setBit_keeps | apply State.wr_keeps | apply State.onCtl_keeps | apply State.flag_keeps
         | apply keeps_ite

theorem State.levelEdge_keeps (h : Keeps s t) : Keeps s (State.levelEdge t a1) := by
  unfold State.levelEdge
  repeat' first
    | intro _ | extract_lets
    | with_reducible first | assumption | apply State.holdLevel_keeps | apply State.onCtl_keeps

theorem State.startLoop_keeps (h : Keeps s t) : Keeps s (State.startLoop t a1) := by
  unfold State.startLoop
  repeat' first
    | intro _ | extract_lets
    | with_reducible first | assumption | apply State.onCtl_keeps

theorem State.frameEdge_keeps (h : Keeps s t) : Keeps s (State.frameEdge t a1) := by
  unfold State.frameEdge
  repeat' first
    | intro _ | extract_lets
    | with_reducible first | assumption | apply State.setBit_keeps | apply State.onCtl_keeps | apply keeps_ite

theorem State.rotateSources_keeps (h : Keeps s t) : Keeps s (State.rotateSources t a1 a2 a3) := by
  unfold State.rotateSources
  repeat' first
    | intro _ | extract_lets
    | with_reducible first | assumption | apply State.onCtl_keeps

theorem State.autogain_keeps (h : Keeps s t) : Keeps s (State.autogain t a1) := by
  unfold State.autogain
  repeat' first
    | intro _ | extract_lets
    | with_reducible first | assumption | apply State.wr_keeps | apply keeps_ite

theorem State.onBoth_keeps (h : Keeps s t) : Keeps s (State.onBoth t a1 a2) := by
  unfold State.onBoth
  repeat' first
    | with_reducible assumption | with_reducible exact Nat.le_refl _ | with_reducible exact List.length_filter_le _ _ | with_reducible exact rfl | intro _ | extract_lets
    | with_reducible first | apply State.onAx_keeps | apply keeps_ite | apply keeps_dite | apply foldl_keeps
    | split
    | with_reducible refine keepsP_snd (by assumption) ?_ | with_reducible refine keepsP_snd2 (by assumption) ?_
    | with_reducible apply Keeps.parts | simp only [keeps_mk]
    | dsimp only | simp +zetaDelta only [keeps_mk] | dsimp +zetaDelta only

theorem State.stepTrk_keeps (h : Keeps s t) : Keeps s (State.stepTrk t a1 a2 a3) := by
  unfold State.stepTrk
  repeat' first
    | with_reducible assumption | with_reducible exact Nat.le_refl _ | with_reducible exact List.length_filter_le _ _ | with_reducible exact rfl | intro _ | extract_lets
    | with_reducible first | apply State.onCtl_keeps | apply keeps_ite | apply keeps_dite | apply foldl_keeps
    | split
    | with_reducible refine keepsP_snd (by assumption) ?_ | with_reducible refine keepsP_snd2 (by assumption) ?_
    | with_reducible apply Keeps.parts | simp only [keeps_mk]
    | dsimp only | simp +zetaDelta only [keeps_mk] | dsimp +zetaDelta only

theorem State.setTrk_keeps (h : Keeps s t) : Keeps s (State.setTrk t a1 a2 a3) := by
  unfold State.setTrk
  repeat' first
    | with_reducible assumption | with_reducible exact Nat.le_refl _ | with_reducible exact List.length_filter_le _ _ | with_reducible exact rfl | intro _ | extract_lets
    | with_reducible first | apply State.wr_keeps | apply State.onBoth_keeps | apply keeps_ite | apply keeps_dite | apply foldl_keeps
    | split
    | with_reducible refine keepsP_snd (by assumption) ?_ | with_reducible refine keepsP_snd2 (by assumption) ?_
    | with_reducible apply Keeps.parts | simp only [keeps_mk]
    | dsimp only | simp +zetaDelta only [keeps_mk] | dsimp +zetaDelta only

theorem State.trkL_keeps (h : Keeps s t) : Keeps s (State.trkL t a1 a2 a3) := by
  unfold State.trkL
  repeat' first
    | with_reducible assumption | with_reducible exact Nat.le_refl _ | with_reducible exact List.length_filter_le _ _ | with_reducible exact rfl | intro _ | extract_lets
    | with_reducible first | apply State.stepTrk_keeps | apply keeps_ite | apply keeps_dite | apply foldl_keeps
    | split
    | with_reducible refine keepsP_snd (by assumption) ?_ | with_reducible refine keepsP_snd2 (by assumption) ?_
    | with_reducible apply Keeps.parts | simp only [keeps_mk]
    | dsimp only | simp +zetaDelta only [keeps_mk] | dsimp +zetaDelta only

theorem State.trkStep_keeps (h : Keeps s t) : Keeps s (State.trkStep t a1 a2) := by
  unfold State.trkStep
  repeat' first
    | with_reducible assumption | with_reducible exact Nat.le_refl _ | with_reducible exact List.length_filter_le _ _ | with_reducible exact rfl | intro _ | extract_lets
    | with_reducible first | apply State.stepTrk_keeps | apply State.onCtl_keeps | apply State.trkL_keeps | apply keeps_ite | apply keeps_dite | apply foldl_keeps
    | split
    | with_reducible refine keepsP_snd (by assumption) ?_ | with_reducible refine keepsP_snd2 (by assumption) ?_
    | with_reducible apply Keeps.parts | simp only [keeps_mk]
    | dsimp only | simp +zetaDelta only [keeps_mk] | dsimp +zetaDelta only

theorem State.tracker_keeps (h : Keeps s t) : Keeps s (State.tracker t a1) := by
  unfold State.tracker
  repeat' first
    | intro _ | extract_lets
    | with_reducible first | assumption | apply State.setBit_keeps | apply State.trkStep_keeps | apply keeps_ite

theorem State.trkSeed_keeps (h : Keeps s t) : Keeps s (State.trkSeed t a1) := by
  unfold State.trkSeed
  repeat' first
    | intro _ | extract_lets
    | with_reducible first | assumption | apply State.setTrk_keeps

theorem State.trkDiverge_keeps (h : Keeps s t) : Keeps s (State.trkDiverge t a1) := by
  unfold State.trkDiverge
  repeat' first
    | with_reducible assumption | with_reducible exact Nat.le_refl _ | with_reducible exact List.length_filter_le _ _ | with_reducible exact rfl | intro _ | extract_lets
    | with_reducible first | apply State.log_keeps | apply State.flag_keeps | apply State.hardClear_keeps | apply State.trkSeed_keeps | apply keeps_ite | apply keeps_dite | apply foldl_keeps
    | split
    | with_reducible refine keepsP_snd (by assumption) ?_ | with_reducible refine keepsP_snd2 (by assumption) ?_
    | with_reducible apply Keeps.parts | simp only [keeps_mk]
    | dsimp only | simp +zetaDelta only [keeps_mk] | dsimp +zetaDelta only

theorem State.stepDet_keeps (h : Keeps s t) : Keeps s (State.stepDet t a1 a2 a3) := by
  unfold State.stepDet
  repeat' first
    | with_reducible assumption | with_reducible exact Nat.le_refl _ | with_reducible exact List.length_filter_le _ _ | with_reducible exact rfl | intro _ | extract_lets
    | with_reducible first | apply State.onCtl_keeps | apply keeps_ite | apply keeps_dite | apply foldl_keeps
    | split
    | with_reducible refine keepsP_snd (by assumption) ?_ | with_reducible refine keepsP_snd2 (by assumption) ?_
    | with_reducible apply Keeps.parts | simp only [keeps_mk]
    | dsimp only | simp +zetaDelta only [keeps_mk] | dsimp +zetaDelta only

theorem State.setDet_keeps (h : Keeps s t) : Keeps s (State.setDet t a1 a2 a3) := by
  unfold State.setDet
  repeat' first
    | with_reducible assumption | with_reducible exact Nat.le_refl _ | with_reducible exact List.length_filter_le _ _ | with_reducible exact rfl | intro _ | extract_lets
    | with_reducible first | apply State.wrI_keeps | apply State.onBoth_keeps | apply keeps_ite | apply keeps_dite | apply foldl_keeps
    | split
    | with_reducible refine keepsP_snd (by assumption) ?_ | with_reducible refine keepsP_snd2 (by assumption) ?_
    | with_reducible apply Keeps.parts | simp only [keeps_mk]
    | dsimp only | simp +zetaDelta only [keeps_mk] | dsimp +zetaDelta only

theorem State.detStep_keeps (h : Keeps s t) : Keeps s (State.detStep t a1 a2 a3 a4) := by
  unfold State.detStep
  repeat' first
    | with_reducible assumption | with_reducible exact Nat.le_refl _ | with_reducible exact List.length_filter_le _ _ | with_reducible exact rfl | intro _ | extract_lets
    | with_reducible first | apply State.stepDet_keeps | apply keeps_ite | apply keeps_dite | apply foldl_keeps
    | split
    | with_reducible refine keepsP_snd (by assumption) ?_ | with_reducible refine keepsP_snd2 (by assumption) ?_
    | with_reducible apply Keeps.parts | simp only [keeps_mk]
    | dsimp only | simp +zetaDelta only [keeps_mk] | dsimp +zetaDelta only

theorem State.detent_keeps (h : Keeps s t) : Keeps s (State.detent t a1) := by
  unfold State.detent
  repeat' first
    | intro _ | extract_lets
    | with_reducible first | assumption | apply State.setBit_keeps | apply State.onCtl_keeps | apply State.detStep_keeps | apply keeps_ite

theorem State.frozenEdge_keeps (h : Keeps s t) : Keeps s (State.frozenEdge t a1) := by
  unfold State.frozenEdge
  repeat' first
    | with_reducible assumption | with_reducible exact Nat.le_refl _ | with_reducible exact List.length_filter_le _ _ | with_reducible exact rfl | intro _ | extract_lets
    | with_reducible first | apply State.setBit_keeps | apply keeps_ite | apply keeps_dite | apply foldl_keeps
    | split
    | with_reducible refine keepsP_snd (by assumption) ?_ | with_reducible refine keepsP_snd2 (by assumption) ?_
    | with_reducible apply Keeps.parts | simp only [keeps_mk]
    | dsimp only | simp +zetaDelta only [keeps_mk] | dsimp +zetaDelta only

theorem State.detDiverge_keeps (h : Keeps s t) : Keeps s (State.detDiverge t a1) := by
  unfold State.detDiverge
  repeat' first
    | with_reducible assumption | with_reducible exact Nat.le_refl _ | with_reducible exact List.length_filter_le _ _ | with_reducible exact rfl | intro _ | extract_lets
    | with_reducible first | apply State.setDet_keeps | apply State.log_keeps | apply State.flag_keeps | apply State.hardClear_keeps | apply keeps_ite | apply keeps_dite | apply foldl_keeps
    | split
    | with_reducible refine keepsP_snd (by assumption) ?_ | with_reducible refine keepsP_snd2 (by assumption) ?_
    | with_reducible apply Keeps.parts | simp only [keeps_mk]
    | dsimp only | simp +zetaDelta only [keeps_mk] | dsimp +zetaDelta only

theorem State.probeStart_keeps (h : Keeps s t) : Keeps s (State.probeStart t a1) := by
  unfold State.probeStart
  repeat' first
    | intro _ | extract_lets
    | with_reducible first | assumption | apply State.setBit_keeps | apply State.request_keeps | apply State.onCtl_keeps | apply keeps_ite

theorem State.probeStop_keeps (h : Keeps s t) : Keeps s (State.probeStop t a1) := by
  unfold State.probeStop
  repeat' first
    | with_reducible assumption | with_reducible exact Nat.le_refl _ | with_reducible exact List.length_filter_le _ _ | with_reducible exact rfl | intro _ | extract_lets
    | with_reducible first | apply State.setBit_keeps | apply State.onCtl_keeps | apply keeps_ite | apply keeps_dite | apply foldl_keeps
    | split
    | with_reducible refine keepsP_snd (by assumption) ?_ | with_reducible refine keepsP_snd2 (by assumption) ?_
    | with_reducible apply Keeps.parts | simp only [keeps_mk]
    | dsimp only | simp +zetaDelta only [keeps_mk] | dsimp +zetaDelta only

theorem State.probeEdge_keeps (h : Keeps s t) : Keeps s (State.probeEdge t a1) := by
  unfold State.probeEdge
  repeat' first
    | with_reducible assumption | with_reducible exact Nat.le_refl _ | with_reducible exact List.length_filter_le _ _ | with_reducible exact rfl | intro _ | extract_lets
    | with_reducible first | apply State.probeStop_keeps | apply State.onCtl_keeps | apply keeps_ite | apply keeps_dite | apply foldl_keeps
    | split
    | with_reducible refine keepsP_snd (by assumption) ?_ | with_reducible refine keepsP_snd2 (by assumption) ?_
    | with_reducible apply Keeps.parts | simp only [keeps_mk]
    | dsimp only | simp +zetaDelta only [keeps_mk] | dsimp +zetaDelta only

theorem State.probeTask_keeps (h : Keeps s t) : Keeps s (State.probeTask t a1) := by
  unfold State.probeTask
  repeat' first
    | with_reducible assumption | with_reducible exact Nat.le_refl _ | with_reducible exact List.length_filter_le _ _ | with_reducible exact rfl | intro _ | extract_lets
    | with_reducible first | apply State.onCtl_keeps | apply State.probeStop_keeps | apply State.trkL_keeps | apply keeps_ite | apply keeps_dite | apply foldl_keeps
    | split
    | with_reducible refine keepsP_snd (by assumption) ?_ | with_reducible refine keepsP_snd2 (by assumption) ?_
    | with_reducible apply Keeps.parts | simp only [keeps_mk]
    | dsimp only | simp +zetaDelta only [keeps_mk] | dsimp +zetaDelta only

theorem State.openEval_keeps (h : Keeps s t) : Keeps s (State.openEval t a1 a2 a3 a4 a5) := by
  unfold State.openEval
  repeat' first
    | intro _ | extract_lets
    | with_reducible first | assumption | apply State.onCtl_keeps

theorem State.currentLoop_keeps (h : Keeps s t) : Keeps s (State.currentLoop t a1) := by
  unfold State.currentLoop
  repeat' first
    | with_reducible assumption | with_reducible exact Nat.le_refl _ | with_reducible exact List.length_filter_le _ _ | with_reducible exact rfl | intro _ | extract_lets
    | with_reducible first | apply State.onCtl_keeps | apply State.flag_keeps | apply State.detent_keeps | apply State.probeTask_keeps | apply State.tracker_keeps | apply State.openEval_keeps | apply keeps_ite | apply keeps_dite | apply foldl_keeps
    | split
    | with_reducible refine keepsP_snd (by assumption) ?_ | with_reducible refine keepsP_snd2 (by assumption) ?_
    | with_reducible apply Keeps.parts | simp only [keeps_mk]
    | dsimp only | simp +zetaDelta only [keeps_mk] | dsimp +zetaDelta only

theorem State.openWinding_keeps (h : Keeps s t) : Keeps s (State.openWinding t a1) := by
  unfold State.openWinding
  repeat' first
    | intro _ | extract_lets
    | with_reducible first | assumption | apply State.log_keeps | apply keeps_ite | apply keeps_dite | apply foldl_keeps
    | split

theorem State.sharingFault_keeps (h : Keeps s t) : Keeps s (State.sharingFault t a1) := by
  unfold State.sharingFault
  repeat' first
    | intro _ | extract_lets
    | with_reducible first | assumption | apply State.log_keeps | apply keeps_ite

theorem State.setSbl_keeps (h : Keeps s t) : Keeps s (State.setSbl t a1 a2 a3) := by
  unfold State.setSbl
  repeat' first
    | with_reducible assumption | with_reducible exact Nat.le_refl _ | with_reducible exact List.length_filter_le _ _ | with_reducible exact rfl | intro _ | extract_lets
    | with_reducible first | apply State.wrI_keeps | apply State.onBoth_keeps | apply keeps_ite | apply keeps_dite | apply foldl_keeps
    | split
    | with_reducible refine keepsP_snd (by assumption) ?_ | with_reducible refine keepsP_snd2 (by assumption) ?_
    | with_reducible apply Keeps.parts | simp only [keeps_mk]
    | dsimp only | simp +zetaDelta only [keeps_mk] | dsimp +zetaDelta only

theorem State.showLearned_keeps (h : Keeps s t) : Keeps s (State.showLearned t a1) := by
  unfold State.showLearned
  repeat' first
    | with_reducible assumption | with_reducible exact Nat.le_refl _ | with_reducible exact List.length_filter_le _ _ | with_reducible exact rfl | intro _ | extract_lets
    | with_reducible first | apply State.wr_keeps | apply State.wrI_keeps | apply State.setBit_keeps | apply overList_keeps | apply keeps_ite | apply keeps_dite | apply foldl_keeps
    | split
    | with_reducible refine keepsP_snd (by assumption) ?_ | with_reducible refine keepsP_snd2 (by assumption) ?_
    | with_reducible apply Keeps.parts | simp only [keeps_mk]
    | dsimp only | simp +zetaDelta only [keeps_mk] | dsimp +zetaDelta only

theorem State.axisCommit_keeps (h : Keeps s t) : Keeps s (State.axisCommit t a1) := by
  unfold State.axisCommit
  repeat' first
    | with_reducible assumption | with_reducible exact Nat.le_refl _ | with_reducible exact List.length_filter_le _ _ | with_reducible exact rfl | intro _ | extract_lets
    | with_reducible first | apply State.showLearned_keeps | apply State.wrI_keeps | apply State.onAx_keeps | apply keeps_ite | apply keeps_dite | apply foldl_keeps
    | split
    | with_reducible refine keepsP_snd (by assumption) ?_ | with_reducible refine keepsP_snd2 (by assumption) ?_
    | with_reducible apply Keeps.parts | simp only [keeps_mk]
    | dsimp only | simp +zetaDelta only [keeps_mk] | dsimp +zetaDelta only

theorem State.seed_keeps (h : Keeps s t) : Keeps s (State.seed t a1 a2) := by
  unfold State.seed
  repeat' first
    | with_reducible assumption | with_reducible exact Nat.le_refl _ | with_reducible exact List.length_filter_le _ _ | with_reducible exact rfl | intro _ | extract_lets
    | with_reducible first | apply State.wr_keeps | apply keeps_ite | apply keeps_dite | apply foldl_keeps
    | split
    | with_reducible refine keepsP_snd (by assumption) ?_ | with_reducible refine keepsP_snd2 (by assumption) ?_
    | with_reducible apply Keeps.parts | simp only [keeps_mk]
    | dsimp only | simp +zetaDelta only [keeps_mk] | dsimp +zetaDelta only

theorem State.takeSeed_keeps (h : Keeps s t) : Keeps s (State.takeSeed t a1) := by
  unfold State.takeSeed
  repeat' first
    | with_reducible assumption | with_reducible exact Nat.le_refl _ | with_reducible exact List.length_filter_le _ _ | with_reducible exact rfl | intro _ | extract_lets
    | with_reducible first | apply State.setTrk_keeps | apply State.setDet_keeps | apply State.setSbl_keeps | apply keeps_ite | apply keeps_dite | apply foldl_keeps
    | split
    | with_reducible refine keepsP_snd (by assumption) ?_ | with_reducible refine keepsP_snd2 (by assumption) ?_
    | with_reducible apply Keeps.parts | simp only [keeps_mk]
    | dsimp only | simp +zetaDelta only [keeps_mk] | dsimp +zetaDelta only

theorem State.takeWrites_keeps (h : Keeps s t) : Keeps s (State.takeWrites t) := by
  unfold State.takeWrites
  repeat' first
    | with_reducible assumption | with_reducible exact Nat.le_refl _ | with_reducible exact List.length_filter_le _ _ | with_reducible exact rfl | intro _ | extract_lets
    | with_reducible first | apply State.takeSeed_keeps | apply State.onBoth_keeps | apply overList_keeps | apply keeps_ite | apply keeps_dite | apply foldl_keeps
    | split
    | with_reducible refine keepsP_snd (by assumption) ?_ | with_reducible refine keepsP_snd2 (by assumption) ?_
    | with_reducible apply Keeps.parts | simp only [keeps_mk]
    | dsimp only | simp +zetaDelta only [keeps_mk] | dsimp +zetaDelta only

theorem State.aerrEdge_keeps (h : Keeps s t) : Keeps s (State.aerrEdge t a1) := by
  unfold State.aerrEdge
  repeat' first
    | with_reducible assumption | with_reducible exact Nat.le_refl _ | with_reducible exact List.length_filter_le _ _ | with_reducible exact rfl | intro _ | extract_lets
    | with_reducible first | apply State.wrI_keeps | apply keeps_ite | apply keeps_dite | apply foldl_keeps
    | split
    | with_reducible refine keepsP_snd (by assumption) ?_ | with_reducible refine keepsP_snd2 (by assumption) ?_
    | with_reducible apply Keeps.parts | simp only [keeps_mk]
    | dsimp only | simp +zetaDelta only [keeps_mk] | dsimp +zetaDelta only

theorem execCurrentLoop_keeps (h : Keeps s t) : KeepsO s (execCurrentLoop a1 t) := by
  unfold execCurrentLoop
  repeat' first
    | with_reducible assumption | with_reducible exact Nat.le_refl _ | with_reducible exact List.length_filter_le _ _ | with_reducible exact rfl | intro _ | extract_lets
    | with_reducible first | apply State.working_keeps | apply State.currentLoop_keeps | apply keeps_ite | apply foldl_keeps | apply keepsO_ite | apply keepsO_next
    | split
    | with_reducible refine keepsP_snd (by assumption) ?_ | with_reducible refine keepsP_snd2 (by assumption) ?_
    | with_reducible apply Keeps.parts | simp only [keeps_mk]
    | dsimp only | simp +zetaDelta only [keeps_mk] | dsimp +zetaDelta only

theorem execAxisCommit_keeps (h : Keeps s t) : KeepsO s (execAxisCommit a1 t) := by
  unfold execAxisCommit
  repeat' first
    | with_reducible assumption | with_reducible exact Nat.le_refl _ | with_reducible exact List.length_filter_le _ _ | with_reducible exact rfl | intro _ | extract_lets
    | with_reducible first | apply State.working_keeps | apply State.axisCommit_keeps | apply keeps_ite | apply foldl_keeps | apply keepsO_ite | apply keepsO_next
    | split
    | with_reducible refine keepsP_snd (by assumption) ?_ | with_reducible refine keepsP_snd2 (by assumption) ?_
    | with_reducible apply Keeps.parts | simp only [keeps_mk]
    | dsimp only | simp +zetaDelta only [keeps_mk] | dsimp +zetaDelta only

theorem execOpenWinding_keeps (h : Keeps s t) : KeepsO s (execOpenWinding a1 t) := by
  unfold execOpenWinding
  repeat' first
    | with_reducible assumption | with_reducible exact Nat.le_refl _ | with_reducible exact List.length_filter_le _ _ | with_reducible exact rfl | intro _ | extract_lets
    | with_reducible first | apply State.working_keeps | apply State.openWinding_keeps | apply keeps_ite | apply foldl_keeps | apply keepsO_ite | apply keepsO_next
    | split
    | with_reducible refine keepsP_snd (by assumption) ?_ | with_reducible refine keepsP_snd2 (by assumption) ?_
    | with_reducible apply Keeps.parts | simp only [keeps_mk]
    | dsimp only | simp +zetaDelta only [keeps_mk] | dsimp +zetaDelta only

theorem execSharingCriterion_keeps (h : Keeps s t) : KeepsO s (execSharingCriterion a1 t) := by
  unfold execSharingCriterion
  repeat' first
    | with_reducible assumption | with_reducible exact Nat.le_refl _ | with_reducible exact List.length_filter_le _ _ | with_reducible exact rfl | intro _ | extract_lets
    | with_reducible first | apply State.working_keeps | apply State.sharingFault_keeps | apply keeps_ite | apply foldl_keeps | apply keepsO_ite | apply keepsO_next
    | split
    | with_reducible refine keepsP_snd (by assumption) ?_ | with_reducible refine keepsP_snd2 (by assumption) ?_
    | with_reducible apply Keeps.parts | simp only [keeps_mk]
    | dsimp only | simp +zetaDelta only [keeps_mk] | dsimp +zetaDelta only

theorem execHoldReduction_keeps (h : Keeps s t) : KeepsO s (execHoldReduction a1 t) := by
  unfold execHoldReduction
  repeat' first
    | with_reducible assumption | with_reducible exact Nat.le_refl _ | with_reducible exact List.length_filter_le _ _ | with_reducible exact rfl | intro _ | extract_lets
    | with_reducible first | apply State.awake_keeps | apply State.holdLevel_keeps | apply keeps_ite | apply foldl_keeps | apply keepsO_ite | apply keepsO_next
    | split
    | with_reducible refine keepsP_snd (by assumption) ?_ | with_reducible refine keepsP_snd2 (by assumption) ?_
    | with_reducible apply Keeps.parts | simp only [keeps_mk]
    | dsimp only | simp +zetaDelta only [keeps_mk] | dsimp +zetaDelta only

theorem execTrackerProbe_keeps (h : Keeps s t) : KeepsO s (execTrackerProbe a1 t) := by
  unfold execTrackerProbe
  repeat' first
    | with_reducible assumption | with_reducible exact Nat.le_refl _ | with_reducible exact List.length_filter_le _ _ | with_reducible exact rfl | intro _ | extract_lets
    | with_reducible first | apply State.awake_keeps | apply State.probeStart_keeps | apply keeps_ite | apply foldl_keeps | apply keepsO_ite | apply keepsO_next
    | split
    | with_reducible refine keepsP_snd (by assumption) ?_ | with_reducible refine keepsP_snd2 (by assumption) ?_
    | with_reducible apply Keeps.parts | simp only [keeps_mk]
    | dsimp only | simp +zetaDelta only [keeps_mk] | dsimp +zetaDelta only

theorem execTrackerDiverge_keeps (h : Keeps s t) : KeepsO s (execTrackerDiverge a1 t) := by
  unfold execTrackerDiverge
  repeat' first
    | with_reducible assumption | with_reducible exact Nat.le_refl _ | with_reducible exact List.length_filter_le _ _ | with_reducible exact rfl | intro _ | extract_lets
    | with_reducible first | apply State.awake_keeps | apply State.trkDiverge_keeps | apply keeps_ite | apply foldl_keeps | apply keepsO_ite | apply keepsO_next
    | split
    | with_reducible refine keepsP_snd (by assumption) ?_ | with_reducible refine keepsP_snd2 (by assumption) ?_
    | with_reducible apply Keeps.parts | simp only [keeps_mk]
    | dsimp only | simp +zetaDelta only [keeps_mk] | dsimp +zetaDelta only

theorem execDetentDiverge_keeps (h : Keeps s t) : KeepsO s (execDetentDiverge a1 t) := by
  unfold execDetentDiverge
  repeat' first
    | with_reducible assumption | with_reducible exact Nat.le_refl _ | with_reducible exact List.length_filter_le _ _ | with_reducible exact rfl | intro _ | extract_lets
    | with_reducible first | apply State.awake_keeps | apply State.detDiverge_keeps | apply keeps_ite | apply foldl_keeps | apply keepsO_ite | apply keepsO_next
    | split
    | with_reducible refine keepsP_snd (by assumption) ?_ | with_reducible refine keepsP_snd2 (by assumption) ?_
    | with_reducible apply Keeps.parts | simp only [keeps_mk]
    | dsimp only | simp +zetaDelta only [keeps_mk] | dsimp +zetaDelta only

end Sys2Proof.Machine
end

