-- ==== Sys2Proof/Laws/KeepsMotion.lean ====
section
/-! SUPPORT. Every operation of Machine/Motion.lean keeps what `Keeps` says. -/

namespace Sys2Proof.Machine

theorem State.homeEnd_keeps (h : Keeps s t) : Keeps s (State.homeEnd t a1 a2) := by
  unfold State.homeEnd
  repeat' first
    | intro _ | extract_lets
    | with_reducible first | assumption | apply State.irq_keeps | apply State.setFld_keeps | apply keeps_ite

theorem State.identEnd_keeps (h : Keeps s t) : Keeps s (State.identEnd t a1) := by
  unfold State.identEnd
  repeat' first
    | intro _ | extract_lets
    | with_reducible first | assumption | apply State.setFld_keeps | apply keeps_ite

theorem State.setSt_keeps (h : Keeps s t) : Keeps s (State.setSt t a1 a2) := by
  unfold State.setSt
  repeat' first
    | intro _ | extract_lets
    | with_reducible first | assumption | apply State.onMot_keeps | apply State.homeEnd_keeps | apply State.identEnd_keeps | apply State.irq_keeps
         | apply State.onFol_keeps | apply keeps_ite

theorem State.enterStill_keeps (h : Keeps s t) : Keeps s (State.enterStill t a1 a2) := by
  unfold State.enterStill
  repeat' first
    | intro _ | extract_lets
    | with_reducible first | assumption | apply State.onMot_keeps | apply State.setSt_keeps

theorem State.stopNow_keeps (h : Keeps s t) : Keeps s (State.stopNow t a1) := by
  unfold State.stopNow
  repeat' first
    | intro _ | extract_lets
    | with_reducible first | assumption | apply State.onMot_keeps

theorem State.classStop_keeps (h : Keeps s t) : Keeps s (State.classStop t a1) := by
  unfold State.classStop
  repeat' first
    | intro _ | extract_lets
    | with_reducible first | assumption | apply State.onMot_keeps | apply State.setSt_keeps

theorem State.classStopEngine_keeps (h : Keeps s t) : Keeps s (State.classStopEngine t a1) := by
  unfold State.classStopEngine
  repeat' first
    | intro _ | extract_lets
    | with_reducible first | assumption | apply State.onMot_keeps | apply State.stopNow_keeps

theorem State.reactStop_keeps (h : Keeps s t) : Keeps s (State.reactStop t a1) := by
  unfold State.reactStop
  repeat' first
    | intro _ | extract_lets
    | with_reducible first | assumption | apply State.life_keeps | apply State.classStop_keeps | apply keeps_ite

theorem State.toFault_keeps (h : Keeps s t) : Keeps s (State.toFault t a1) := by
  unfold State.toFault
  repeat' first
    | intro _ | extract_lets
    | with_reducible first | assumption | apply State.onMot_keeps | apply State.classStop_keeps | apply State.enterStill_keeps | apply keeps_ite
         | apply keeps_dite | apply foldl_keeps
    | split

theorem State.reactMute_keeps (h : Keeps s t) : Keeps s (State.reactMute t a1) := by
  unfold State.reactMute
  repeat' first
    | intro _ | extract_lets
    | with_reducible first | assumption | apply State.toFault_keeps | apply State.life_keeps | apply keeps_ite

theorem State.react_keeps (h : Keeps s t) : Keeps s (State.react t a1) := by
  unfold State.react
  repeat' first
    | intro _ | extract_lets
    | with_reducible first | assumption | apply State.reactStop_keeps | apply State.reactMute_keeps | apply State.toFault_keeps | apply keeps_ite
         | apply keeps_dite | apply foldl_keeps
    | split

theorem State.flushSt_keeps (h : Keeps s t) : Keeps s (State.flushSt t a1) := by
  unfold State.flushSt
  repeat' first
    | intro _ | extract_lets
    | with_reducible first | assumption | apply State.setSt_keeps | apply State.onMot_keeps | apply State.enterStill_keeps | apply keeps_ite
         | apply keeps_dite | apply foldl_keeps
    | split

theorem State.watchLimits_keeps (h : Keeps s t) : Keeps s (State.watchLimits t a1 a2) := by
  unfold State.watchLimits
  repeat' first
    | with_reducible assumption | with_reducible exact Nat.le_refl _ | with_reducible exact List.length_filter_le _ _ | with_reducible exact rfl | intro _ | extract_lets
    | with_reducible first | apply State.onMot_keeps | apply keeps_ite | apply keeps_dite | apply foldl_keeps
    | split
    | with_reducible refine keepsP_snd (by assumption) ?_ | with_reducible refine keepsP_snd2 (by assumption) ?_
    | with_reducible apply Keeps.parts | simp only [keeps_mk]
    | dsimp only | simp +zetaDelta only [keeps_mk] | dsimp +zetaDelta only

theorem State.takeSoft_keeps (h : Keeps s t) : Keeps s (State.takeSoft t a1) := by
  unfold State.takeSoft
  repeat' first
    | with_reducible assumption | with_reducible exact Nat.le_refl _ | with_reducible exact List.length_filter_le _ _ | with_reducible exact rfl | intro _ | extract_lets
    | with_reducible first | apply State.onMot_keeps | apply State.watchLimits_keeps | apply keeps_ite | apply keeps_dite | apply foldl_keeps
    | split
    | with_reducible refine keepsP_snd (by assumption) ?_ | with_reducible refine keepsP_snd2 (by assumption) ?_
    | with_reducible apply Keeps.parts | simp only [keeps_mk]
    | dsimp only | simp +zetaDelta only [keeps_mk] | dsimp +zetaDelta only

theorem State.softEvent_keeps (h : Keeps s t) : Keeps s (State.softEvent t a1 a2 a3) := by
  unfold State.softEvent
  repeat' first
    | with_reducible assumption | with_reducible exact Nat.le_refl _ | with_reducible exact List.length_filter_le _ _ | with_reducible exact rfl | intro _ | extract_lets
    | with_reducible first | apply State.onMot_keeps | apply State.flag_keeps | apply State.log_keeps | apply keeps_ite | apply keeps_dite | apply foldl_keeps
    | split
    | with_reducible refine keepsP_snd (by assumption) ?_ | with_reducible refine keepsP_snd2 (by assumption) ?_
    | with_reducible apply Keeps.parts | simp only [keeps_mk]
    | dsimp only | simp +zetaDelta only [keeps_mk] | dsimp +zetaDelta only

theorem State.beginPlan_keeps (h : Keeps s t) : Keeps s (State.beginPlan t a1) := by
  unfold State.beginPlan
  repeat' first
    | intro _ | extract_lets
    | with_reducible first | assumption | apply State.stopNow_keeps | apply State.onMot_keeps | apply keeps_ite | apply keeps_dite | apply foldl_keeps
    | split

theorem State.predictLimit_keeps (h : Keeps s t) : Keeps s (State.predictLimit t a1) := by
  unfold State.predictLimit
  repeat' first
    | intro _ | extract_lets
    | with_reducible first | assumption | apply State.softEvent_keeps | apply keeps_ite | apply keeps_dite | apply foldl_keeps
    | split

theorem State.startMove_keeps (h : Keeps s t) : Keeps s (State.startMove t a1 a2) := by
  unfold State.startMove
  repeat' first
    | with_reducible assumption | with_reducible exact Nat.le_refl _ | with_reducible exact List.length_filter_le _ _ | with_reducible exact rfl | intro _ | extract_lets
    | with_reducible first | apply State.onMot_keeps | apply State.setSt_keeps | apply State.predictLimit_keeps | apply State.watchLimits_keeps | apply keeps_ite | apply keeps_dite | apply foldl_keeps
    | split
    | with_reducible refine keepsP_snd (by assumption) ?_ | with_reducible refine keepsP_snd2 (by assumption) ?_
    | with_reducible apply Keeps.parts | simp only [keeps_mk]
    | dsimp only | simp +zetaDelta only [keeps_mk] | dsimp +zetaDelta only

theorem State.startJog_keeps (h : Keeps s t) : Keeps s (State.startJog t a1 a2) := by
  unfold State.startJog
  repeat' first
    | with_reducible assumption | with_reducible exact Nat.le_refl _ | with_reducible exact List.length_filter_le _ _ | with_reducible exact rfl | intro _ | extract_lets
    | with_reducible first | apply State.onMot_keeps | apply State.setSt_keeps | apply State.predictLimit_keeps | apply State.watchLimits_keeps | apply keeps_ite | apply keeps_dite | apply foldl_keeps
    | split
    | with_reducible refine keepsP_snd (by assumption) ?_ | with_reducible refine keepsP_snd2 (by assumption) ?_
    | with_reducible apply Keeps.parts | simp only [keeps_mk]
    | dsimp only | simp +zetaDelta only [keeps_mk] | dsimp +zetaDelta only

theorem State.segBoundary_keeps (h : Keeps s t) : Keeps s (State.segBoundary t a1) := by
  unfold State.segBoundary
  repeat' first
    | intro _ | extract_lets
    | with_reducible first | assumption | apply State.onMot_keeps | apply keeps_ite

theorem State.land_keeps (h : Keeps s t) : Keeps s (State.land t a1) := by
  unfold State.land
  repeat' first
    | intro _ | extract_lets
    | with_reducible first | assumption | apply State.onMot_keeps | apply keeps_ite | apply keeps_dite | apply foldl_keeps
    | split

theorem State.restEnd_keeps (h : Keeps s t) : Keeps s (State.restEnd t a1) := by
  unfold State.restEnd
  repeat' first
    | intro _ | extract_lets
    | with_reducible first | assumption | apply State.onMot_keeps | apply keeps_ite | apply keeps_dite | apply foldl_keeps
    | split

theorem State.limitReached_keeps (h : Keeps s t) : Keeps s (State.limitReached t a1) := by
  unfold State.limitReached
  repeat' first
    | intro _ | extract_lets
    | with_reducible first | assumption | apply State.softEvent_keeps | apply State.classStopEngine_keeps | apply keeps_ite | apply keeps_dite
         | apply foldl_keeps
    | split

theorem State.limitBehind_keeps (h : Keeps s t) : Keeps s (State.limitBehind t a1) := by
  unfold State.limitBehind
  repeat' first
    | with_reducible assumption | with_reducible exact Nat.le_refl _ | with_reducible exact List.length_filter_le _ _ | with_reducible exact rfl | intro _ | extract_lets
    | with_reducible first | apply State.onMot_keeps | apply State.classStop_keeps | apply State.softEvent_keeps | apply keeps_ite | apply keeps_dite | apply foldl_keeps
    | split
    | with_reducible refine keepsP_snd (by assumption) ?_ | with_reducible refine keepsP_snd2 (by assumption) ?_
    | with_reducible apply Keeps.parts | simp only [keeps_mk]
    | dsimp only | simp +zetaDelta only [keeps_mk] | dsimp +zetaDelta only

theorem State.replanAt_keeps (h : Keeps s t) : Keeps s (State.replanAt t a1) := by
  unfold State.replanAt
  repeat' first
    | with_reducible assumption | with_reducible exact Nat.le_refl _ | with_reducible exact List.length_filter_le _ _ | with_reducible exact rfl | intro _ | extract_lets
    | with_reducible first | apply State.onMot_keeps | apply State.predictLimit_keeps | apply keeps_ite | apply keeps_dite | apply foldl_keeps
    | split
    | with_reducible refine keepsP_snd (by assumption) ?_ | with_reducible refine keepsP_snd2 (by assumption) ?_
    | with_reducible apply Keeps.parts | simp only [keeps_mk]
    | dsimp only | simp +zetaDelta only [keeps_mk] | dsimp +zetaDelta only

theorem State.clockAxis_keeps (h : Keeps s t) : Keeps s (State.clockAxis t a1) := by
  unfold State.clockAxis
  repeat' first
    | intro _ | extract_lets
    | with_reducible first | assumption | apply State.beginPlan_keeps | apply State.onMot_keeps | apply State.flag_keeps | apply keeps_ite

end Sys2Proof.Machine
end

