-- ==== Sys2Proof/Laws/KeepsFollow.lean ====
section
/-! SUPPORT. Every operation of Machine/Follow.lean keeps what `Keeps` says. -/

namespace Sys2Proof.Machine

theorem State.cycleTarget_keeps (h : Keeps s t) : Keeps s (State.cycleTarget t a1 a2) := by
  unfold State.cycleTarget
  repeat' first
    | intro _ | extract_lets
    | with_reducible first | assumption | apply State.onFol_keeps | apply State.flag_keeps | apply keeps_ite | apply keeps_dite | apply foldl_keeps
    | split

theorem State.reanchorAt_keeps (h : Keeps s t) : Keeps s (State.reanchorAt t a1) := by
  unfold State.reanchorAt
  repeat' first
    | intro _ | extract_lets
    | with_reducible first | assumption | apply State.onFol_keeps | apply keeps_ite

theorem State.camError_keeps (h : Keeps s t) : Keeps s (State.camError t a1) := by
  unfold State.camError
  repeat' first
    | intro _ | extract_lets
    | with_reducible first | assumption | apply State.classStop_keeps | apply State.flag_keeps

theorem State.eccFound_keeps (h : Keeps s t) : Keeps s (State.eccFound t a1 a2 a3 a4 a5) := by
  unfold State.eccFound
  extract_lets s1 num s2
  have h1 : Keeps s s1 := State.life_keeps (State.flag_keeps h)
  have h2 : Keeps s s2 := h1.trans ⟨rfl, id, id, id, fun _ => by simp only [s2, State.onFlt, List.length_take]; omega, .refl⟩
  exact keeps_ite h1 (State.log_keeps h2)

theorem State.correctRead_keeps (h : Keeps s t) : Keeps s (State.correctRead t a1 a2 a3 a4) := by
  unfold State.correctRead
  repeat' first
    | intro _ | extract_lets
    | with_reducible first | assumption | exact Nat.le_refl _ | exact List.length_filter_le _ _ | exact rfl | apply State.life_keeps
         | apply overList_keeps | apply onFlt_keeps | apply keeps_ite | apply keeps_dite | apply foldl_keeps
    | split

theorem State.followTarget_keeps (h : Keeps s t) : Keeps s (State.followTarget t a1) := by
  unfold State.followTarget
  repeat' first
    | intro _ | extract_lets
    | with_reducible first | assumption | apply State.classStop_keeps | apply State.onFol_keeps | apply State.correctRead_keeps
         | apply State.camError_keeps | apply State.eccFound_keeps | apply keeps_ite | apply keeps_dite | apply foldl_keeps
    | split

theorem State.lagCheck_keeps (h : Keeps s t) : Keeps s (State.lagCheck t a1) := by
  unfold State.lagCheck
  repeat' first
    | with_reducible assumption | with_reducible exact Nat.le_refl _ | with_reducible exact List.length_filter_le _ _ | with_reducible exact rfl | intro _ | extract_lets
    | with_reducible first | apply State.wrI_keeps | apply State.onFol_keeps | apply State.log_keeps | apply State.flag_keeps | apply keeps_ite | apply keeps_dite | apply foldl_keeps
    | split
    | with_reducible refine keepsP_snd (by assumption) ?_ | with_reducible refine keepsP_snd2 (by assumption) ?_
    | with_reducible apply Keeps.parts | simp only [keeps_mk]
    | dsimp only | simp +zetaDelta only [keeps_mk] | dsimp +zetaDelta only

theorem State.track_keeps (h : Keeps s t) : Keeps s (State.track t a1) := by
  unfold State.track
  repeat' first
    | with_reducible assumption | with_reducible exact Nat.le_refl _ | with_reducible exact List.length_filter_le _ _ | with_reducible exact rfl | intro _ | extract_lets
    | with_reducible first | apply State.onMot_keeps | apply State.lagCheck_keeps | apply State.onFol_keeps | apply keeps_ite | apply keeps_dite | apply foldl_keeps
    | split
    | with_reducible refine keepsP_snd (by assumption) ?_ | with_reducible refine keepsP_snd2 (by assumption) ?_
    | with_reducible apply Keeps.parts | simp only [keeps_mk]
    | dsimp only | simp +zetaDelta only [keeps_mk] | dsimp +zetaDelta only

theorem State.engage_keeps (h : Keeps s t) : Keeps s (State.engage t a1 a2 a3 a4) := by
  unfold State.engage
  repeat' first
    | intro _ | extract_lets
    | with_reducible first | assumption | apply State.onMot_keeps | apply State.setSt_keeps | apply State.onFol_keeps | apply State.watchLimits_keeps

theorem State.engageTable_keeps (h : Keeps s t) : Keeps s (State.engageTable t a1 a2 a3) := by
  unfold State.engageTable
  repeat' first
    | intro _ | extract_lets
    | with_reducible first | assumption | apply State.engage_keeps | apply State.wr_keeps | apply State.onFol_keeps

theorem State.tableStart_keeps (h : Keeps s t) : Keeps s (State.tableStart t a1) := by
  unfold State.tableStart
  repeat' first
    | intro _ | extract_lets
    | with_reducible first | assumption | apply State.onFol_keeps | apply keeps_ite

theorem State.tableDone_keeps (h : Keeps s t) : Keeps s (State.tableDone t a1) := by
  unfold State.tableDone
  repeat' first
    | intro _ | extract_lets
    | with_reducible first | assumption | apply State.startMove_keeps | apply keeps_ite

theorem State.stepEdge_keeps (h : Keeps s t) : Keeps s (State.stepEdge t a1 a2) := by
  unfold State.stepEdge
  repeat' first
    | with_reducible assumption | with_reducible exact Nat.le_refl _ | with_reducible exact List.length_filter_le _ _ | with_reducible exact rfl | intro _ | extract_lets
    | with_reducible first | apply State.wrI_keeps | apply State.onFol_keeps | apply keeps_ite | apply keeps_dite | apply foldl_keeps
    | split
    | with_reducible refine keepsP_snd (by assumption) ?_ | with_reducible refine keepsP_snd2 (by assumption) ?_
    | with_reducible apply Keeps.parts | simp only [keeps_mk]
    | dsimp only | simp +zetaDelta only [keeps_mk] | dsimp +zetaDelta only

theorem State.emitStep_keeps (h : Keeps s t) : Keeps s (State.emitStep t a1) := by
  unfold State.emitStep
  repeat' first
    | intro _ | extract_lets
    | with_reducible first | assumption | apply State.onFol_keeps

theorem State.stepPulse_keeps (h : Keeps s t) : Keeps s (State.stepPulse t a1) := by
  unfold State.stepPulse
  repeat' first
    | with_reducible assumption | with_reducible exact Nat.le_refl _ | with_reducible exact List.length_filter_le _ _ | with_reducible exact rfl | intro _ | extract_lets
    | with_reducible first | apply State.onFol_keeps | apply State.wr_keeps | apply State.emitStep_keeps | apply State.lagCheck_keeps | apply State.flag_keeps | apply keeps_ite | apply keeps_dite | apply foldl_keeps
    | split
    | with_reducible refine keepsP_snd (by assumption) ?_ | with_reducible refine keepsP_snd2 (by assumption) ?_
    | with_reducible apply Keeps.parts | simp only [keeps_mk]
    | dsimp only | simp +zetaDelta only [keeps_mk] | dsimp +zetaDelta only

theorem execTimeTableStart_keeps (h : Keeps s t) : KeepsO s (execTimeTableStart a1 t) := by
  unfold execTimeTableStart
  repeat' first
    | with_reducible assumption | with_reducible exact Nat.le_refl _ | with_reducible exact List.length_filter_le _ _ | with_reducible exact rfl | intro _ | extract_lets
    | with_reducible first | apply State.awake_keeps | apply State.tableStart_keeps | apply keeps_ite | apply foldl_keeps | apply keepsO_ite | apply keepsO_next
    | split
    | with_reducible refine keepsP_snd (by assumption) ?_ | with_reducible refine keepsP_snd2 (by assumption) ?_
    | with_reducible apply Keeps.parts | simp only [keeps_mk]
    | dsimp only | simp +zetaDelta only [keeps_mk] | dsimp +zetaDelta only

theorem execTableEnd_keeps (h : Keeps s t) : KeepsO s (execTableEnd a1 t) := by
  unfold execTableEnd
  repeat' first
    | with_reducible assumption | with_reducible exact Nat.le_refl _ | with_reducible exact List.length_filter_le _ _ | with_reducible exact rfl | intro _ | extract_lets
    | with_reducible first | apply State.awake_keeps | apply State.tableDone_keeps | apply keeps_ite | apply foldl_keeps | apply keepsO_ite | apply keepsO_next
    | split
    | with_reducible refine keepsP_snd (by assumption) ?_ | with_reducible refine keepsP_snd2 (by assumption) ?_
    | with_reducible apply Keeps.parts | simp only [keeps_mk]
    | dsimp only | simp +zetaDelta only [keeps_mk] | dsimp +zetaDelta only

theorem execFollowTrack_keeps (h : Keeps s t) : KeepsO s (execFollowTrack a1 t) := by
  unfold execFollowTrack
  repeat' first
    | with_reducible assumption | with_reducible exact Nat.le_refl _ | with_reducible exact List.length_filter_le _ _ | with_reducible exact rfl | intro _ | extract_lets
    | with_reducible first | apply State.working_keeps | apply State.track_keeps | apply keeps_ite | apply foldl_keeps | apply keepsO_ite | apply keepsO_next
    | split
    | with_reducible refine keepsP_snd (by assumption) ?_ | with_reducible refine keepsP_snd2 (by assumption) ?_
    | with_reducible apply Keeps.parts | simp only [keeps_mk]
    | dsimp only | simp +zetaDelta only [keeps_mk] | dsimp +zetaDelta only

theorem execStepInputEdge_keeps (h : Keeps s t) : KeepsO s (execStepInputEdge a1 a2 t) := by
  unfold execStepInputEdge
  repeat' first
    | with_reducible assumption | with_reducible exact Nat.le_refl _ | with_reducible exact List.length_filter_le _ _ | with_reducible exact rfl | intro _ | extract_lets
    | with_reducible first | apply State.awake_keeps | apply State.stepEdge_keeps | apply keeps_ite | apply foldl_keeps | apply keepsO_ite | apply keepsO_next
    | split
    | with_reducible refine keepsP_snd (by assumption) ?_ | with_reducible refine keepsP_snd2 (by assumption) ?_
    | with_reducible apply Keeps.parts | simp only [keeps_mk]
    | dsimp only | simp +zetaDelta only [keeps_mk] | dsimp +zetaDelta only

theorem execStepPulse_keeps (h : Keeps s t) : KeepsO s (execStepPulse a1 t) := by
  unfold execStepPulse
  repeat' first
    | with_reducible assumption | with_reducible exact Nat.le_refl _ | with_reducible exact List.length_filter_le _ _ | with_reducible exact rfl | intro _ | extract_lets
    | with_reducible first | apply State.working_keeps | apply State.stepPulse_keeps | apply keeps_ite | apply foldl_keeps | apply keepsO_ite | apply keepsO_next
    | split
    | with_reducible refine keepsP_snd (by assumption) ?_ | with_reducible refine keepsP_snd2 (by assumption) ?_
    | with_reducible apply Keeps.parts | simp only [keeps_mk]
    | dsimp only | simp +zetaDelta only [keeps_mk] | dsimp +zetaDelta only

theorem execSegmentBoundary_keeps (h : Keeps s t) : KeepsO s (execSegmentBoundary a1 t) := by
  unfold execSegmentBoundary
  repeat' first
    | with_reducible assumption | with_reducible exact Nat.le_refl _ | with_reducible exact List.length_filter_le _ _ | with_reducible exact rfl | intro _ | extract_lets
    | with_reducible first | apply State.working_keeps | apply State.segBoundary_keeps | apply keeps_ite | apply foldl_keeps | apply keepsO_ite | apply keepsO_next
    | split
    | with_reducible refine keepsP_snd (by assumption) ?_ | with_reducible refine keepsP_snd2 (by assumption) ?_
    | with_reducible apply Keeps.parts | simp only [keeps_mk]
    | dsimp only | simp +zetaDelta only [keeps_mk] | dsimp +zetaDelta only

theorem execLanding_keeps (h : Keeps s t) : KeepsO s (execLanding a1 t) := by
  unfold execLanding
  repeat' first
    | with_reducible assumption | with_reducible exact Nat.le_refl _ | with_reducible exact List.length_filter_le _ _ | with_reducible exact rfl | intro _ | extract_lets
    | with_reducible first | apply State.working_keeps | apply State.land_keeps | apply keeps_ite | apply foldl_keeps | apply keepsO_ite | apply keepsO_next
    | split
    | with_reducible refine keepsP_snd (by assumption) ?_ | with_reducible refine keepsP_snd2 (by assumption) ?_
    | with_reducible apply Keeps.parts | simp only [keeps_mk]
    | dsimp only | simp +zetaDelta only [keeps_mk] | dsimp +zetaDelta only

theorem execRestReached_keeps (h : Keeps s t) : KeepsO s (execRestReached a1 t) := by
  unfold execRestReached
  repeat' first
    | with_reducible assumption | with_reducible exact Nat.le_refl _ | with_reducible exact List.length_filter_le _ _ | with_reducible exact rfl | intro _ | extract_lets
    | with_reducible first | apply State.working_keeps | apply State.restEnd_keeps | apply keeps_ite | apply foldl_keeps | apply keepsO_ite | apply keepsO_next
    | split
    | with_reducible refine keepsP_snd (by assumption) ?_ | with_reducible refine keepsP_snd2 (by assumption) ?_
    | with_reducible apply Keeps.parts | simp only [keeps_mk]
    | dsimp only | simp +zetaDelta only [keeps_mk] | dsimp +zetaDelta only

theorem execSoftLimitReached_keeps (h : Keeps s t) : KeepsO s (execSoftLimitReached a1 t) := by
  unfold execSoftLimitReached
  repeat' first
    | with_reducible assumption | with_reducible exact Nat.le_refl _ | with_reducible exact List.length_filter_le _ _ | with_reducible exact rfl | intro _ | extract_lets
    | with_reducible first | apply State.working_keeps | apply State.limitReached_keeps | apply keeps_ite | apply foldl_keeps | apply keepsO_ite | apply keepsO_next
    | split
    | with_reducible refine keepsP_snd (by assumption) ?_ | with_reducible refine keepsP_snd2 (by assumption) ?_
    | with_reducible apply Keeps.parts | simp only [keeps_mk]
    | dsimp only | simp +zetaDelta only [keeps_mk] | dsimp +zetaDelta only

theorem execReplan_keeps (h : Keeps s t) : KeepsO s (execReplan a1 t) := by
  unfold execReplan
  repeat' first
    | with_reducible assumption | with_reducible exact Nat.le_refl _ | with_reducible exact List.length_filter_le _ _ | with_reducible exact rfl | intro _ | extract_lets
    | with_reducible first | apply State.working_keeps | apply State.replanAt_keeps | apply keeps_ite | apply foldl_keeps | apply keepsO_ite | apply keepsO_next
    | split
    | with_reducible refine keepsP_snd (by assumption) ?_ | with_reducible refine keepsP_snd2 (by assumption) ?_
    | with_reducible apply Keeps.parts | simp only [keeps_mk]
    | dsimp only | simp +zetaDelta only [keeps_mk] | dsimp +zetaDelta only

theorem execTableCheckDone_keeps (h : Keeps s t) : KeepsO s (execTableCheckDone a1 t) := by
  unfold execTableCheckDone
  repeat' first
    | with_reducible assumption | with_reducible exact Nat.le_refl _ | with_reducible exact List.length_filter_le _ _ | with_reducible exact rfl | intro _ | extract_lets
    | with_reducible first | apply State.awake_keeps | apply State.onMot_keeps | apply keeps_ite | apply foldl_keeps | apply keepsO_ite | apply keepsO_next
    | split
    | with_reducible refine keepsP_snd (by assumption) ?_ | with_reducible refine keepsP_snd2 (by assumption) ?_
    | with_reducible apply Keeps.parts | simp only [keeps_mk]
    | dsimp only | simp +zetaDelta only [keeps_mk] | dsimp +zetaDelta only

end Sys2Proof.Machine
end

