-- ==== Sys2Proof/Laws/KeepsObserver.lean ====
section
/-! SUPPORT. Every operation of Machine/Observer.lean keeps what `Keeps` says. -/

namespace Sys2Proof.Machine

theorem State.observer_keeps (h : Keeps s t) : Keeps s (State.observer t a1) := by
  unfold State.observer
  repeat' first
    | intro _ | extract_lets
    | with_reducible first | assumption | apply State.onCtl_keeps | apply keeps_ite

theorem State.obsCount_keeps (h : Keeps s t) : Keeps s (State.obsCount t a1) := by
  unfold State.obsCount
  repeat' first
    | with_reducible assumption | with_reducible exact Nat.le_refl _ | with_reducible exact List.length_filter_le _ _ | with_reducible exact rfl | intro _ | extract_lets
    | with_reducible first | apply State.onCtl_keeps | apply keeps_ite | apply keeps_dite | apply foldl_keeps
    | split
    | with_reducible refine keepsP_snd (by assumption) ?_ | with_reducible refine keepsP_snd2 (by assumption) ?_
    | with_reducible apply Keeps.parts | simp only [keeps_mk]
    | dsimp only | simp +zetaDelta only [keeps_mk] | dsimp +zetaDelta only

theorem State.obsValidate_keeps (h : Keeps s t) : Keeps s (State.obsValidate t a1) := by
  unfold State.obsValidate
  repeat' first
    | intro _ | extract_lets
    | with_reducible first | assumption | apply State.setBit_keeps | apply State.onCtl_keeps | apply keeps_ite

theorem State.obsLockLost_keeps (h : Keeps s t) : Keeps s (State.obsLockLost t a1) := by
  unfold State.obsLockLost
  repeat' first
    | intro _ | extract_lets
    | with_reducible first | assumption | apply State.flag_keeps | apply State.setBit_keeps | apply State.onCtl_keeps | apply State.request_keeps
         | apply keeps_ite

theorem State.obsInvalidate_keeps (h : Keeps s t) : Keeps s (State.obsInvalidate t a1) := by
  unfold State.obsInvalidate
  repeat' first
    | intro _ | extract_lets
    | with_reducible first | assumption | apply State.setBit_keeps | apply State.onCtl_keeps | apply keeps_ite

theorem State.obsEdge_keeps (h : Keeps s t) : Keeps s (State.obsEdge t a1) := by
  unfold State.obsEdge
  repeat' first
    | intro _ | extract_lets
    | with_reducible first | assumption | apply State.obsInvalidate_keeps | apply State.obsLockLost_keeps | apply State.obsValidate_keeps
         | apply State.obsCount_keeps

theorem State.obsSeed_keeps (h : Keeps s t) : Keeps s (State.obsSeed t a1 a2 a3 a4) := by
  unfold State.obsSeed
  repeat' first
    | intro _ | extract_lets
    | with_reducible first | assumption | apply State.onCtl_keeps

theorem State.obsReinit_keeps (h : Keeps s t) : Keeps s (State.obsReinit t a1) := by
  unfold State.obsReinit
  repeat' first
    | intro _ | extract_lets
    | with_reducible first | assumption | apply State.onCtl_keeps | apply State.obsSeed_keeps | apply State.flag_keeps | apply State.setBit_keeps
         | apply keeps_ite | apply keeps_dite | apply foldl_keeps
    | split

theorem State.obsEnergize_keeps (h : Keeps s t) : Keeps s (State.obsEnergize t a1) := by
  unfold State.obsEnergize
  repeat' first
    | intro _ | extract_lets
    | with_reducible first | assumption | apply State.setBit_keeps | apply State.onCtl_keeps | apply State.obsSeed_keeps | apply keeps_ite

theorem State.sensEdge_keeps (h : Keeps s t) : Keeps s (State.sensEdge t a1) := by
  unfold State.sensEdge
  repeat' first
    | intro _ | extract_lets
    | with_reducible first | assumption | apply State.setBit_keeps | apply State.onCtl_keeps | apply keeps_ite | apply keeps_dite | apply foldl_keeps
    | split

theorem State.align_keeps (h : Keeps s t) : Keeps s (State.align t a1) := by
  unfold State.align
  repeat' first
    | intro _ | extract_lets
    | with_reducible first | assumption | apply State.setBit_keeps | apply State.wr_keeps | apply keeps_ite | apply keeps_dite | apply foldl_keeps
    | split

theorem State.sensRecover_keeps (h : Keeps s t) : Keeps s (State.sensRecover t a1) := by
  unfold State.sensRecover
  repeat' first
    | intro _ | extract_lets
    | with_reducible first | assumption | apply State.onCtl_keeps | apply State.flag_keeps | apply keeps_ite

theorem State.sourceEdge_keeps (h : Keeps s t) : Keeps s (State.sourceEdge t a1) := by
  unfold State.sourceEdge
  repeat' first
    | with_reducible assumption | with_reducible exact Nat.le_refl _ | with_reducible exact List.length_filter_le _ _ | with_reducible exact rfl | intro _ | extract_lets
    | with_reducible first | apply State.sensRecover_keeps | apply State.flag_keeps | apply State.request_keeps | apply State.onCtl_keeps | apply State.rotateSources_keeps | apply State.setFld_keeps | apply keeps_ite | apply keeps_dite | apply foldl_keeps
    | split
    | with_reducible refine keepsP_snd (by assumption) ?_ | with_reducible refine keepsP_snd2 (by assumption) ?_
    | with_reducible apply Keeps.parts | simp only [keeps_mk]
    | dsimp only | simp +zetaDelta only [keeps_mk] | dsimp +zetaDelta only

theorem State.loadEdge_keeps (h : Keeps s t) : Keeps s (State.loadEdge t a1) := by
  unfold State.loadEdge
  repeat' first
    | intro _ | extract_lets
    | with_reducible first | assumption | apply State.onCtl_keeps | apply State.setBit_keeps | apply State.setFld_keeps | apply State.wrI_keeps
         | apply keeps_ite

theorem State.burstStart_keeps (h : Keeps s t) : Keeps s (State.burstStart t a1) := by
  unfold State.burstStart
  repeat' first
    | intro _ | extract_lets
    | with_reducible first | assumption | apply State.setBit_keeps | apply State.onCtl_keeps | apply keeps_ite

theorem State.burstEdge_keeps (h : Keeps s t) : Keeps s (State.burstEdge t a1 a2) := by
  unfold State.burstEdge
  repeat' first
    | intro _ | extract_lets
    | with_reducible first | assumption | apply State.onCtl_keeps | apply State.setBit_keeps | apply keeps_ite | apply keeps_dite | apply foldl_keeps
    | split

theorem State.injEval_keeps (h : Keeps s t) : Keeps s (State.injEval t a1) := by
  unfold State.injEval
  repeat' first
    | intro _ | extract_lets
    | with_reducible first | assumption | apply State.wr_keeps | apply State.onCtl_keeps | apply keeps_ite

theorem State.task1_keeps (h : Keeps s t) : Keeps s (State.task1 t a1) := by
  unfold State.task1
  repeat' first
    | intro _ | extract_lets
    | with_reducible first | assumption | apply State.injEval_keeps | apply State.observer_keeps

theorem State.unobsEdge_keeps (h : Keeps s t) : Keeps s (State.unobsEdge t a1) := by
  unfold State.unobsEdge
  repeat' first
    | intro _ | extract_lets
    | with_reducible first | assumption | apply State.log_keeps | apply State.setBit_keeps | apply keeps_ite | apply keeps_dite | apply foldl_keeps
    | split

theorem State.stallEval_keeps (h : Keeps s t) : Keeps s (State.stallEval t a1) := by
  unfold State.stallEval
  repeat' first
    | intro _ | extract_lets
    | with_reducible first | assumption | apply State.onCtl_keeps

theorem State.stallRaise_keeps (h : Keeps s t) : Keeps s (State.stallRaise t a1) := by
  unfold State.stallRaise
  repeat' first
    | with_reducible assumption | with_reducible exact Nat.le_refl _ | with_reducible exact List.length_filter_le _ _ | with_reducible exact rfl | intro _ | extract_lets
    | with_reducible first | apply State.flag_keeps | apply State.onCtl_keeps | apply State.log_keeps | apply State.life_keeps | apply State.bump_keeps | apply State.setFld_keeps | apply keeps_ite | apply keeps_dite | apply foldl_keeps
    | split
    | with_reducible refine keepsP_snd (by assumption) ?_ | with_reducible refine keepsP_snd2 (by assumption) ?_
    | with_reducible apply Keeps.parts | simp only [keeps_mk]
    | dsimp only | simp +zetaDelta only [keeps_mk] | dsimp +zetaDelta only

theorem State.stepSbl_keeps (h : Keeps s t) : Keeps s (State.stepSbl t a1 a2 a3) := by
  unfold State.stepSbl
  repeat' first
    | with_reducible assumption | with_reducible exact Nat.le_refl _ | with_reducible exact List.length_filter_le _ _ | with_reducible exact rfl | intro _ | extract_lets
    | with_reducible first | apply State.onCtl_keeps | apply keeps_ite | apply keeps_dite | apply foldl_keeps
    | split
    | with_reducible refine keepsP_snd (by assumption) ?_ | with_reducible refine keepsP_snd2 (by assumption) ?_
    | with_reducible apply Keeps.parts | simp only [keeps_mk]
    | dsimp only | simp +zetaDelta only [keeps_mk] | dsimp +zetaDelta only

theorem State.sblStep_keeps (h : Keeps s t) : Keeps s (State.sblStep t a1) := by
  unfold State.sblStep
  repeat' first
    | with_reducible assumption | with_reducible exact Nat.le_refl _ | with_reducible exact List.length_filter_le _ _ | with_reducible exact rfl | intro _ | extract_lets
    | with_reducible first | apply State.setFld_keeps | apply State.setBit_keeps | apply State.stepSbl_keeps | apply keeps_ite | apply keeps_dite | apply foldl_keeps
    | split
    | with_reducible refine keepsP_snd (by assumption) ?_ | with_reducible refine keepsP_snd2 (by assumption) ?_
    | with_reducible apply Keeps.parts | simp only [keeps_mk]
    | dsimp only | simp +zetaDelta only [keeps_mk] | dsimp +zetaDelta only

theorem State.sblDiverge_keeps (h : Keeps s t) : Keeps s (State.sblDiverge t a1) := by
  unfold State.sblDiverge
  repeat' first
    | with_reducible assumption | with_reducible exact Nat.le_refl _ | with_reducible exact List.length_filter_le _ _ | with_reducible exact rfl | intro _ | extract_lets
    | with_reducible first | apply State.setSbl_keeps | apply State.log_keeps | apply State.flag_keeps | apply State.hardClear_keeps | apply keeps_ite | apply keeps_dite | apply foldl_keeps
    | split
    | with_reducible refine keepsP_snd (by assumption) ?_ | with_reducible refine keepsP_snd2 (by assumption) ?_
    | with_reducible apply Keeps.parts | simp only [keeps_mk]
    | dsimp only | simp +zetaDelta only [keeps_mk] | dsimp +zetaDelta only

theorem State.task2_keeps (h : Keeps s t) : Keeps s (State.task2 t a1) := by
  unfold State.task2
  repeat' first
    | intro _ | extract_lets
    | with_reducible first | assumption | apply State.sblStep_keeps | apply State.stallEval_keeps | apply State.unobsEdge_keeps
         | apply State.setBit_keeps | apply State.onCtl_keeps | apply keeps_ite

theorem State.angleEdge_keeps (h : Keeps s t) : Keeps s (State.angleEdge t a1) := by
  unfold State.angleEdge
  repeat' first
    | intro _ | extract_lets
    | with_reducible first | assumption | apply State.align_keeps | apply State.obsEdge_keeps | apply State.sensEdge_keeps
         | apply State.sourceEdge_keeps | apply State.loadEdge_keeps | apply State.onCtl_keeps | apply keeps_ite

theorem execObserver_keeps (h : Keeps s t) : KeepsO s (execObserver a1 t) := by
  unfold execObserver
  repeat' first
    | with_reducible assumption | with_reducible exact Nat.le_refl _ | with_reducible exact List.length_filter_le _ _ | with_reducible exact rfl | intro _ | extract_lets
    | with_reducible first | apply State.working_keeps | apply State.task1_keeps | apply keeps_ite | apply foldl_keeps | apply keepsO_ite | apply keepsO_next
    | split
    | with_reducible refine keepsP_snd (by assumption) ?_ | with_reducible refine keepsP_snd2 (by assumption) ?_
    | with_reducible apply Keeps.parts | simp only [keeps_mk]
    | dsimp only | simp +zetaDelta only [keeps_mk] | dsimp +zetaDelta only

theorem execObserverValid_keeps (h : Keeps s t) : KeepsO s (execObserverValid a1 t) := by
  unfold execObserverValid
  repeat' first
    | with_reducible assumption | with_reducible exact Nat.le_refl _ | with_reducible exact List.length_filter_le _ _ | with_reducible exact rfl | intro _ | extract_lets
    | with_reducible first | apply State.awake_keeps | apply State.obsValidate_keeps | apply keeps_ite | apply foldl_keeps | apply keepsO_ite | apply keepsO_next
    | split
    | with_reducible refine keepsP_snd (by assumption) ?_ | with_reducible refine keepsP_snd2 (by assumption) ?_
    | with_reducible apply Keeps.parts | simp only [keeps_mk]
    | dsimp only | simp +zetaDelta only [keeps_mk] | dsimp +zetaDelta only

theorem execObserverLockLost_keeps (h : Keeps s t) : KeepsO s (execObserverLockLost a1 t) := by
  unfold execObserverLockLost
  repeat' first
    | with_reducible assumption | with_reducible exact Nat.le_refl _ | with_reducible exact List.length_filter_le _ _ | with_reducible exact rfl | intro _ | extract_lets
    | with_reducible first | apply State.awake_keeps | apply State.obsLockLost_keeps | apply keeps_ite | apply foldl_keeps | apply keepsO_ite | apply keepsO_next
    | split
    | with_reducible refine keepsP_snd (by assumption) ?_ | with_reducible refine keepsP_snd2 (by assumption) ?_
    | with_reducible apply Keeps.parts | simp only [keeps_mk]
    | dsimp only | simp +zetaDelta only [keeps_mk] | dsimp +zetaDelta only

theorem execObserverReinit_keeps (h : Keeps s t) : KeepsO s (execObserverReinit a1 t) := by
  unfold execObserverReinit
  repeat' first
    | with_reducible assumption | with_reducible exact Nat.le_refl _ | with_reducible exact List.length_filter_le _ _ | with_reducible exact rfl | intro _ | extract_lets
    | with_reducible first | apply State.working_keeps | apply State.obsReinit_keeps | apply keeps_ite | apply foldl_keeps | apply keepsO_ite | apply keepsO_next
    | split
    | with_reducible refine keepsP_snd (by assumption) ?_ | with_reducible refine keepsP_snd2 (by assumption) ?_
    | with_reducible apply Keeps.parts | simp only [keeps_mk]
    | dsimp only | simp +zetaDelta only [keeps_mk] | dsimp +zetaDelta only

theorem execSensorAlign_keeps (h : Keeps s t) : KeepsO s (execSensorAlign a1 t) := by
  unfold execSensorAlign
  repeat' first
    | with_reducible assumption | with_reducible exact Nat.le_refl _ | with_reducible exact List.length_filter_le _ _ | with_reducible exact rfl | intro _ | extract_lets
    | with_reducible first | apply State.awake_keeps | apply State.align_keeps | apply keeps_ite | apply foldl_keeps | apply keepsO_ite | apply keepsO_next
    | split
    | with_reducible refine keepsP_snd (by assumption) ?_ | with_reducible refine keepsP_snd2 (by assumption) ?_
    | with_reducible apply Keeps.parts | simp only [keeps_mk]
    | dsimp only | simp +zetaDelta only [keeps_mk] | dsimp +zetaDelta only

theorem execSensorRecovery_keeps (h : Keeps s t) : KeepsO s (execSensorRecovery a1 t) := by
  unfold execSensorRecovery
  repeat' first
    | with_reducible assumption | with_reducible exact Nat.le_refl _ | with_reducible exact List.length_filter_le _ _ | with_reducible exact rfl | intro _ | extract_lets
    | with_reducible first | apply State.awake_keeps | apply State.sourceEdge_keeps | apply keeps_ite | apply foldl_keeps | apply keepsO_ite | apply keepsO_next
    | split
    | with_reducible refine keepsP_snd (by assumption) ?_ | with_reducible refine keepsP_snd2 (by assumption) ?_
    | with_reducible apply Keeps.parts | simp only [keeps_mk]
    | dsimp only | simp +zetaDelta only [keeps_mk] | dsimp +zetaDelta only

theorem execInjectionBurst_keeps (h : Keeps s t) : KeepsO s (execInjectionBurst a1 t) := by
  unfold execInjectionBurst
  repeat' first
    | with_reducible assumption | with_reducible exact Nat.le_refl _ | with_reducible exact List.length_filter_le _ _ | with_reducible exact rfl | intro _ | extract_lets
    | with_reducible first | apply State.awake_keeps | apply State.burstStart_keeps | apply keeps_ite | apply foldl_keeps | apply keepsO_ite | apply keepsO_next
    | split
    | with_reducible refine keepsP_snd (by assumption) ?_ | with_reducible refine keepsP_snd2 (by assumption) ?_
    | with_reducible apply Keeps.parts | simp only [keeps_mk]
    | dsimp only | simp +zetaDelta only [keeps_mk] | dsimp +zetaDelta only

theorem execStallMonitor_keeps (h : Keeps s t) : KeepsO s (execStallMonitor a1 t) := by
  unfold execStallMonitor
  repeat' first
    | with_reducible assumption | with_reducible exact Nat.le_refl _ | with_reducible exact List.length_filter_le _ _ | with_reducible exact rfl | intro _ | extract_lets
    | with_reducible first | apply State.working_keeps | apply State.task2_keeps | apply keeps_ite | apply foldl_keeps | apply keepsO_ite | apply keepsO_next
    | split
    | with_reducible refine keepsP_snd (by assumption) ?_ | with_reducible refine keepsP_snd2 (by assumption) ?_
    | with_reducible apply Keeps.parts | simp only [keeps_mk]
    | dsimp only | simp +zetaDelta only [keeps_mk] | dsimp +zetaDelta only

theorem execSblDiverge_keeps (h : Keeps s t) : KeepsO s (execSblDiverge a1 t) := by
  unfold execSblDiverge
  repeat' first
    | with_reducible assumption | with_reducible exact Nat.le_refl _ | with_reducible exact List.length_filter_le _ _ | with_reducible exact rfl | intro _ | extract_lets
    | with_reducible first | apply State.awake_keeps | apply State.sblDiverge_keeps | apply keeps_ite | apply foldl_keeps | apply keepsO_ite | apply keepsO_next
    | split
    | with_reducible refine keepsP_snd (by assumption) ?_ | with_reducible refine keepsP_snd2 (by assumption) ?_
    | with_reducible apply Keeps.parts | simp only [keeps_mk]
    | dsimp only | simp +zetaDelta only [keeps_mk] | dsimp +zetaDelta only

end Sys2Proof.Machine
end

