-- ==== Sys2Proof/Laws/KeepsPwm.lean ====
section
/-! SUPPORT. Every operation of Machine/Pwm.lean keeps what `Keeps` says. -/

namespace Sys2Proof.Machine

theorem State.setOut_keeps (h : Keeps s t) : Keeps s (State.setOut t a1 a2) := by
  unfold State.setOut
  repeat' first
    | intro _ | extract_lets
    | with_reducible first | assumption | apply State.setFld_keeps | apply State.wr_keeps | apply State.onUnit_keeps | apply keeps_ite

theorem State.latchForms_keeps (h : Keeps s t) : Keeps s (State.latchForms t) := by
  unfold State.latchForms
  repeat' first
    | with_reducible assumption | with_reducible exact Nat.le_refl _ | with_reducible exact List.length_filter_le _ _ | with_reducible exact rfl | intro _ | extract_lets
    | with_reducible first | apply State.onStage_keeps | apply keeps_ite | apply keeps_dite | apply foldl_keeps
    | split
    | with_reducible refine keepsP_snd (by assumption) ?_ | with_reducible refine keepsP_snd2 (by assumption) ?_
    | with_reducible apply Keeps.parts | simp only [keeps_mk]
    | dsimp only | simp +zetaDelta only [keeps_mk] | dsimp +zetaDelta only

theorem State.setOuts_keeps (h : Keeps s t) : Keeps s (State.setOuts t a1) := by
  unfold State.setOuts
  repeat' first
    | intro _ | extract_lets
    | with_reducible first | assumption | apply State.setOut_keeps | apply overList_keeps

theorem State.tripClock_keeps (h : Keeps s t) : Keeps s (State.tripClock t) := by
  unfold State.tripClock
  repeat' first
    | with_reducible assumption | with_reducible exact Nat.le_refl _ | with_reducible exact List.length_filter_le _ _ | with_reducible exact rfl | intro _ | extract_lets
    | with_reducible first | apply State.setOuts_keeps | apply keeps_ite | apply keeps_dite | apply foldl_keeps
    | split
    | with_reducible refine keepsP_snd (by assumption) ?_ | with_reducible refine keepsP_snd2 (by assumption) ?_
    | with_reducible apply Keeps.parts | simp only [keeps_mk]
    | dsimp only | simp +zetaDelta only [keeps_mk] | dsimp +zetaDelta only

theorem State.axisOuts_keeps (h : Keeps s t) : Keeps s (State.axisOuts t a1 a2) := by
  unfold State.axisOuts
  repeat' first
    | intro _ | extract_lets
    | with_reducible first | assumption | apply State.setOut_keeps | apply overList_keeps

theorem State.withOuts_keeps {a2 : State → State} (h : Keeps s t) (hf : ∀ u, Keeps s u → Keeps s (a2 u)) : Keeps s (State.withOuts t a1 a2) :=
  State.axisOuts_keeps (hf _ h)

theorem State.showSources_keeps (h : Keeps s t) : Keeps s (State.showSources t a1) := by
  unfold State.showSources
  repeat' first
    | intro _ | extract_lets
    | with_reducible first | assumption | apply State.setBit_keeps | apply keeps_ite | apply keeps_dite | apply foldl_keeps

theorem State.latchOne_keeps (h : Keeps s t) : Keeps s (State.latchOne t a1 a2) := by
  unfold State.latchOne
  repeat' first
    | with_reducible assumption | with_reducible exact Nat.le_refl _ | with_reducible exact List.length_filter_le _ _ | with_reducible exact rfl | intro _ | extract_lets
    | with_reducible first | apply State.setOut_keeps | apply State.showSources_keeps | apply State.onUnit_keeps | apply State.flag_keeps | apply State.setBit_keeps | apply keeps_ite | apply keeps_dite | apply foldl_keeps
    | split
    | with_reducible refine keepsP_snd (by assumption) ?_ | with_reducible refine keepsP_snd2 (by assumption) ?_
    | with_reducible apply Keeps.parts | simp only [keeps_mk]
    | dsimp only | simp +zetaDelta only [keeps_mk] | dsimp +zetaDelta only

theorem State.latch_keeps (h : Keeps s t) : Keeps s (State.latch t a1 a2) := by
  unfold State.latch
  repeat' first
    | with_reducible assumption | with_reducible exact Nat.le_refl _ | with_reducible exact List.length_filter_le _ _ | with_reducible exact rfl | intro _ | extract_lets
    | with_reducible first | apply State.latchOne_keeps | apply overList_keeps | apply keeps_ite | apply keeps_dite | apply foldl_keeps
    | split
    | with_reducible refine keepsP_snd (by assumption) ?_ | with_reducible refine keepsP_snd2 (by assumption) ?_
    | with_reducible apply Keeps.parts | simp only [keeps_mk]
    | dsimp only | simp +zetaDelta only [keeps_mk] | dsimp +zetaDelta only

theorem State.unlatch_keeps (h : Keeps s t) : Keeps s (State.unlatch t a1) := by
  unfold State.unlatch
  repeat' first
    | intro _ | extract_lets
    | with_reducible first | assumption | apply State.setOut_keeps | apply State.showSources_keeps | apply State.onUnit_keeps
         | apply State.setFld_keeps | apply State.clearFlag_keeps | apply overList_keeps

theorem State.tripClear_keeps (h : Keeps s t) : KeepsP s (State.tripClear t a1) := by
  unfold State.tripClear
  repeat' first
    | intro _ | extract_lets
    | with_reducible first | assumption | apply State.unlatch_keeps | apply keeps_ite | apply foldl_keeps | apply keepsP_ite

theorem State.setMmax_keeps (h : Keeps s t) : Keeps s (State.setMmax t a1 a2) := by
  unfold State.setMmax
  repeat' first
    | intro _ | extract_lets
    | with_reducible first | assumption | apply State.wr_keeps | apply keeps_ite

theorem State.carrySat_keeps (h : Keeps s t) : Keeps s (State.carrySat t a1 a2) := by
  unfold State.carrySat
  repeat' first
    | intro _ | extract_lets
    | with_reducible first | assumption | apply State.onUnit_keeps | apply State.bump_keeps | apply State.flag_keeps | apply State.log_keeps
         | apply keeps_ite

theorem State.refreshPulse_keeps (h : Keeps s t) : Keeps s (State.refreshPulse t a1) := by
  unfold State.refreshPulse
  repeat' first
    | intro _ | extract_lets
    | with_reducible first | assumption | apply State.onUnit_keeps | apply State.setBit_keeps | apply State.setFld_keeps | apply keeps_ite

theorem State.emit_keeps (h : Keeps s t) : Keeps s (State.emit t a1 a2 a3) := by
  unfold State.emit
  repeat' first
    | with_reducible assumption | with_reducible exact Nat.le_refl _ | with_reducible exact List.length_filter_le _ _ | with_reducible exact rfl | intro _ | extract_lets
    | with_reducible first | apply State.onUnit_keeps | apply State.carrySat_keeps | apply State.wr_keeps | apply State.wrI_keeps | apply State.bump_keeps | apply State.setFld_keeps | apply keeps_ite | apply keeps_dite | apply foldl_keeps
    | split
    | with_reducible refine keepsP_snd (by assumption) ?_ | with_reducible refine keepsP_snd2 (by assumption) ?_
    | with_reducible apply Keeps.parts | simp only [keeps_mk]
    | dsimp only | simp +zetaDelta only [keeps_mk] | dsimp +zetaDelta only

theorem State.heldEdges_keeps (h : Keeps s t) : Keeps s (State.heldEdges t a1 a2) := by
  unfold State.heldEdges
  repeat' first
    | with_reducible assumption | with_reducible exact Nat.le_refl _ | with_reducible exact List.length_filter_le _ _ | with_reducible exact rfl | intro _ | extract_lets
    | with_reducible first | apply State.bump_keeps | apply keeps_ite | apply keeps_dite | apply foldl_keeps
    | split
    | with_reducible refine keepsP_snd (by assumption) ?_ | with_reducible refine keepsP_snd2 (by assumption) ?_
    | with_reducible apply Keeps.parts | simp only [keeps_mk]
    | dsimp only | simp +zetaDelta only [keeps_mk] | dsimp +zetaDelta only

theorem State.dtShow_keeps (h : Keeps s t) : Keeps s (State.dtShow t a1) := by
  unfold State.dtShow
  repeat' first
    | with_reducible assumption | with_reducible exact Nat.le_refl _ | with_reducible exact List.length_filter_le _ _ | with_reducible exact rfl | intro _ | extract_lets
    | with_reducible first | apply State.setBit_keeps | apply overList_keeps | apply keeps_ite | apply keeps_dite | apply foldl_keeps
    | split
    | with_reducible refine keepsP_snd (by assumption) ?_ | with_reducible refine keepsP_snd2 (by assumption) ?_
    | with_reducible apply Keeps.parts | simp only [keeps_mk]
    | dsimp only | simp +zetaDelta only [keeps_mk] | dsimp +zetaDelta only

theorem State.trim_keeps (h : Keeps s t) : Keeps s (State.trim t a1 a2 a3) := by
  unfold State.trim
  repeat' first
    | with_reducible assumption | with_reducible exact Nat.le_refl _ | with_reducible exact List.length_filter_le _ _ | with_reducible exact rfl | intro _ | extract_lets
    | with_reducible first | apply State.onUnit_keeps | apply State.wr_keeps | apply State.wrI_keeps | apply keeps_ite | apply keeps_dite | apply foldl_keeps
    | split
    | with_reducible refine keepsP_snd (by assumption) ?_ | with_reducible refine keepsP_snd2 (by assumption) ?_
    | with_reducible apply Keeps.parts | simp only [keeps_mk]
    | dsimp only | simp +zetaDelta only [keeps_mk] | dsimp +zetaDelta only

theorem State.dtSeed_keeps (h : Keeps s t) : Keeps s (State.dtSeed t a1 a2) := by
  unfold State.dtSeed
  repeat' first
    | intro _ | extract_lets
    | with_reducible first | assumption | apply State.wr_keeps | apply State.onUnit_keeps

theorem State.dtDiverge_keeps (h : Keeps s t) : Keeps s (State.dtDiverge t a1) := by
  unfold State.dtDiverge
  repeat' first
    | with_reducible assumption | with_reducible exact Nat.le_refl _ | with_reducible exact List.length_filter_le _ _ | with_reducible exact rfl | intro _ | extract_lets
    | with_reducible first | apply State.log_keeps | apply State.flag_keeps | apply State.dtShow_keeps | apply State.hardClear_keeps | apply State.dtSeed_keeps | apply keeps_ite | apply keeps_dite | apply foldl_keeps
    | split
    | with_reducible refine keepsP_snd (by assumption) ?_ | with_reducible refine keepsP_snd2 (by assumption) ?_
    | with_reducible apply Keeps.parts | simp only [keeps_mk]
    | dsimp only | simp +zetaDelta only [keeps_mk] | dsimp +zetaDelta only

theorem State.mirror_keeps (h : Keeps s t) : Keeps s (State.mirror t a1 a2 a3) := by
  unfold State.mirror
  repeat' first
    | with_reducible assumption | with_reducible exact Nat.le_refl _ | with_reducible exact List.length_filter_le _ _ | with_reducible exact rfl | intro _ | extract_lets
    | with_reducible first | apply State.heldEdges_keeps | apply State.onUnit_keeps | apply keeps_ite | apply keeps_dite | apply foldl_keeps
    | split
    | with_reducible refine keepsP_snd (by assumption) ?_ | with_reducible refine keepsP_snd2 (by assumption) ?_
    | with_reducible apply Keeps.parts | simp only [keeps_mk]
    | dsimp only | simp +zetaDelta only [keeps_mk] | dsimp +zetaDelta only

theorem State.pwmPeriod_keeps (h : Keeps s t) : Keeps s (State.pwmPeriod t a1 a2 a3 a4) := by
  unfold State.pwmPeriod
  repeat' first
    | with_reducible assumption | with_reducible exact Nat.le_refl _ | with_reducible exact List.length_filter_le _ _ | with_reducible exact rfl | intro _ | extract_lets
    | with_reducible first | apply State.trim_keeps | apply State.heldEdges_keeps | apply State.emit_keeps | apply State.refreshPulse_keeps | apply State.dtShow_keeps | apply State.mirror_keeps | apply overList_keeps | apply keeps_ite | apply keeps_dite | apply foldl_keeps
    | split
    | with_reducible refine keepsP_snd (by assumption) ?_ | with_reducible refine keepsP_snd2 (by assumption) ?_
    | with_reducible apply Keeps.parts | simp only [keeps_mk]
    | dsimp only | simp +zetaDelta only [keeps_mk] | dsimp +zetaDelta only

theorem State.unitClose_keeps (h : Keeps s t) : Keeps s (State.unitClose t a1 a2) := by
  unfold State.unitClose
  repeat' first
    | with_reducible assumption | with_reducible exact Nat.le_refl _ | with_reducible exact List.length_filter_le _ _ | with_reducible exact rfl | intro _ | extract_lets
    | with_reducible first | apply State.setBit_keeps | apply State.onUnit_keeps | apply State.dtShow_keeps | apply State.setMmax_keeps | apply overList_keeps | apply keeps_ite | apply keeps_dite | apply foldl_keeps
    | split
    | with_reducible refine keepsP_snd (by assumption) ?_ | with_reducible refine keepsP_snd2 (by assumption) ?_
    | with_reducible apply Keeps.parts | simp only [keeps_mk]
    | dsimp only | simp +zetaDelta only [keeps_mk] | dsimp +zetaDelta only

theorem State.unitEdge_keeps (h : Keeps s t) : Keeps s (State.unitEdge t a1) := by
  unfold State.unitEdge
  repeat' first
    | with_reducible assumption | with_reducible exact Nat.le_refl _ | with_reducible exact List.length_filter_le _ _ | with_reducible exact rfl | intro _ | extract_lets
    | with_reducible first | apply State.wr_keeps | apply State.unitClose_keeps | apply keeps_ite | apply keeps_dite | apply foldl_keeps
    | split
    | with_reducible refine keepsP_snd (by assumption) ?_ | with_reducible refine keepsP_snd2 (by assumption) ?_
    | with_reducible apply Keeps.parts | simp only [keeps_mk]
    | dsimp only | simp +zetaDelta only [keeps_mk] | dsimp +zetaDelta only

theorem State.gateClock_keeps (h : Keeps s t) : Keeps s (State.gateClock t) := by
  unfold State.gateClock
  repeat' first
    | with_reducible assumption | with_reducible exact Nat.le_refl _ | with_reducible exact List.length_filter_le _ _ | with_reducible exact rfl | intro _ | extract_lets
    | with_reducible first | apply State.onUnit_keeps | apply overList_keeps | apply keeps_ite | apply keeps_dite | apply foldl_keeps
    | split
    | with_reducible refine keepsP_snd (by assumption) ?_ | with_reducible refine keepsP_snd2 (by assumption) ?_
    | with_reducible apply Keeps.parts | simp only [keeps_mk]
    | dsimp only | simp +zetaDelta only [keeps_mk] | dsimp +zetaDelta only

theorem State.dllUpdate_keeps (h : Keeps s t) : Keeps s (State.dllUpdate t a1 a2) := by
  unfold State.dllUpdate
  repeat' first
    | intro _ | extract_lets
    | with_reducible first | assumption | apply State.setBit_keeps | apply State.wr_keeps | apply State.onUnit_keeps

theorem State.dllDiverge_keeps (h : Keeps s t) : Keeps s (State.dllDiverge t a1) := by
  unfold State.dllDiverge
  repeat' first
    | intro _ | extract_lets
    | with_reducible first | assumption | apply State.log_keeps | apply State.flag_keeps | apply State.setBit_keeps | apply State.wr_keeps
         | apply State.onUnit_keeps | apply keeps_ite

theorem State.debugHalt_keeps (h : Keeps s t) : Keeps s (State.debugHalt t) := by
  unfold State.debugHalt
  repeat' first
    | intro _ | extract_lets
    | with_reducible first | assumption | apply State.setOuts_keeps | apply State.onStage_keeps

theorem State.debugResume_keeps (h : Keeps s t) : Keeps s (State.debugResume t) := by
  unfold State.debugResume
  repeat' first
    | intro _ | extract_lets
    | with_reducible first | assumption | apply State.setOuts_keeps | apply State.onAx_keeps | apply State.onStage_keeps | apply overList_keeps
         | apply keeps_ite

theorem State.haltEdge_keeps (h : Keeps s t) : Keeps s (State.haltEdge t) := by
  unfold State.haltEdge
  repeat' first
    | intro _ | extract_lets
    | with_reducible first | assumption | apply State.onStage_keeps | apply State.enterStill_keeps | apply overList_keeps | apply keeps_ite

theorem execPwmPeriod_keeps (h : Keeps s t) : KeepsO s (execPwmPeriod a1 a2 a3 a4 t) := by
  unfold execPwmPeriod
  repeat' first
    | with_reducible assumption | with_reducible exact Nat.le_refl _ | with_reducible exact List.length_filter_le _ _ | with_reducible exact rfl | intro _ | extract_lets
    | with_reducible first | apply State.awake_keeps | apply State.pwmPeriod_keeps | apply keeps_ite | apply foldl_keeps | apply keepsO_ite | apply keepsO_next
    | split
    | with_reducible refine keepsP_snd (by assumption) ?_ | with_reducible refine keepsP_snd2 (by assumption) ?_
    | with_reducible apply Keeps.parts | simp only [keeps_mk]
    | dsimp only | simp +zetaDelta only [keeps_mk] | dsimp +zetaDelta only

theorem execBootstrapRefresh_keeps (h : Keeps s t) : KeepsO s (execBootstrapRefresh a1 t) := by
  unfold execBootstrapRefresh
  repeat' first
    | with_reducible assumption | with_reducible exact Nat.le_refl _ | with_reducible exact List.length_filter_le _ _ | with_reducible exact rfl | intro _ | extract_lets
    | with_reducible first | apply State.awake_keeps | apply State.refreshPulse_keeps | apply keeps_ite | apply foldl_keeps | apply keepsO_ite | apply keepsO_next
    | split
    | with_reducible refine keepsP_snd (by assumption) ?_ | with_reducible refine keepsP_snd2 (by assumption) ?_
    | with_reducible apply Keeps.parts | simp only [keeps_mk]
    | dsimp only | simp +zetaDelta only [keeps_mk] | dsimp +zetaDelta only

theorem execDtDiverge_keeps (h : Keeps s t) : KeepsO s (execDtDiverge a1 t) := by
  unfold execDtDiverge
  repeat' first
    | with_reducible assumption | with_reducible exact Nat.le_refl _ | with_reducible exact List.length_filter_le _ _ | with_reducible exact rfl | intro _ | extract_lets
    | with_reducible first | apply State.awake_keeps | apply State.dtDiverge_keeps | apply keeps_ite | apply foldl_keeps | apply keepsO_ite | apply keepsO_next
    | split
    | with_reducible refine keepsP_snd (by assumption) ?_ | with_reducible refine keepsP_snd2 (by assumption) ?_
    | with_reducible apply Keeps.parts | simp only [keeps_mk]
    | dsimp only | simp +zetaDelta only [keeps_mk] | dsimp +zetaDelta only

theorem execDllUpdate_keeps (h : Keeps s t) : KeepsO s (execDllUpdate a1 a2 t) := by
  unfold execDllUpdate
  repeat' first
    | with_reducible assumption | with_reducible exact Nat.le_refl _ | with_reducible exact List.length_filter_le _ _ | with_reducible exact rfl | intro _ | extract_lets
    | with_reducible first | apply State.awake_keeps | apply State.dllUpdate_keeps | apply keeps_ite | apply foldl_keeps | apply keepsO_ite | apply keepsO_next
    | split
    | with_reducible refine keepsP_snd (by assumption) ?_ | with_reducible refine keepsP_snd2 (by assumption) ?_
    | with_reducible apply Keeps.parts | simp only [keeps_mk]
    | dsimp only | simp +zetaDelta only [keeps_mk] | dsimp +zetaDelta only

theorem execDllDiverge_keeps (h : Keeps s t) : KeepsO s (execDllDiverge a1 t) := by
  unfold execDllDiverge
  repeat' first
    | with_reducible assumption | with_reducible exact Nat.le_refl _ | with_reducible exact List.length_filter_le _ _ | with_reducible exact rfl | intro _ | extract_lets
    | with_reducible first | apply State.awake_keeps | apply State.dllDiverge_keeps | apply keeps_ite | apply foldl_keeps | apply keepsO_ite | apply keepsO_next
    | split
    | with_reducible refine keepsP_snd (by assumption) ?_ | with_reducible refine keepsP_snd2 (by assumption) ?_
    | with_reducible apply Keeps.parts | simp only [keeps_mk]
    | dsimp only | simp +zetaDelta only [keeps_mk] | dsimp +zetaDelta only

theorem execDebugHalt_keeps (h : Keeps s t) : KeepsO s (execDebugHalt t) := by
  unfold execDebugHalt
  repeat' first
    | with_reducible assumption | with_reducible exact Nat.le_refl _ | with_reducible exact List.length_filter_le _ _ | with_reducible exact rfl | intro _ | extract_lets
    | with_reducible first | apply State.awake_keeps | apply State.debugHalt_keeps | apply keeps_ite | apply foldl_keeps | apply keepsO_ite | apply keepsO_next
    | split
    | with_reducible refine keepsP_snd (by assumption) ?_ | with_reducible refine keepsP_snd2 (by assumption) ?_
    | with_reducible apply Keeps.parts | simp only [keeps_mk]
    | dsimp only | simp +zetaDelta only [keeps_mk] | dsimp +zetaDelta only

theorem execDebugResume_keeps (h : Keeps s t) : KeepsO s (execDebugResume t) := by
  unfold execDebugResume
  repeat' first
    | with_reducible assumption | with_reducible exact Nat.le_refl _ | with_reducible exact List.length_filter_le _ _ | with_reducible exact rfl | intro _ | extract_lets
    | with_reducible first | apply State.awake_keeps | apply State.debugResume_keeps | apply keeps_ite | apply foldl_keeps | apply keepsO_ite | apply keepsO_next
    | split
    | with_reducible refine keepsP_snd (by assumption) ?_ | with_reducible refine keepsP_snd2 (by assumption) ?_
    | with_reducible apply Keeps.parts | simp only [keeps_mk]
    | dsimp only | simp +zetaDelta only [keeps_mk] | dsimp +zetaDelta only

end Sys2Proof.Machine
end

