-- ==== Sys2Proof/Laws/KeepsPower.lean ====
section
/-! SUPPORT. Every operation of Machine/Power.lean keeps what `Keeps` says. -/

namespace Sys2Proof.Machine

theorem State.setAbove_keeps (h : Keeps s t) : Keeps s (State.setAbove t a1 a2) := by
  unfold State.setAbove
  repeat' first
    | with_reducible assumption | with_reducible exact Nat.le_refl _ | with_reducible exact List.length_filter_le _ _ | with_reducible exact rfl | intro _ | extract_lets
    | with_reducible first | apply State.onStage_keeps | apply keeps_ite | apply keeps_dite | apply foldl_keeps
    | split
    | with_reducible refine keepsP_snd (by assumption) ?_ | with_reducible refine keepsP_snd2 (by assumption) ?_
    | with_reducible apply Keeps.parts | simp only [keeps_mk]
    | dsimp only | simp +zetaDelta only [keeps_mk] | dsimp +zetaDelta only

theorem State.overTrip_keeps (h : Keeps s t) : Keeps s (State.overTrip t a1 a2 a3) := by
  unfold State.overTrip
  repeat' first
    | with_reducible assumption | with_reducible exact Nat.le_refl _ | with_reducible exact List.length_filter_le _ _ | with_reducible exact rfl | intro _ | extract_lets
    | with_reducible first | apply State.latch_keeps | apply State.bump_keeps | apply State.log_keeps | apply State.life_keeps | apply keeps_ite | apply keeps_dite | apply foldl_keeps
    | split
    | with_reducible refine keepsP_snd (by assumption) ?_ | with_reducible refine keepsP_snd2 (by assumption) ?_
    | with_reducible apply Keeps.parts | simp only [keeps_mk]
    | dsimp only | simp +zetaDelta only [keeps_mk] | dsimp +zetaDelta only

theorem State.legOvercurrent_keeps (h : Keeps s t) : Keeps s (State.legOvercurrent t a1 a2) := by
  unfold State.legOvercurrent
  repeat' first
    | with_reducible assumption | with_reducible exact Nat.le_refl _ | with_reducible exact List.length_filter_le _ _ | with_reducible exact rfl | intro _ | extract_lets
    | with_reducible first | apply State.setAbove_keeps | apply State.overTrip_keeps | apply State.showSources_keeps | apply keeps_ite | apply keeps_dite | apply foldl_keeps
    | split
    | with_reducible refine keepsP_snd (by assumption) ?_ | with_reducible refine keepsP_snd2 (by assumption) ?_
    | with_reducible apply Keeps.parts | simp only [keeps_mk]
    | dsimp only | simp +zetaDelta only [keeps_mk] | dsimp +zetaDelta only

theorem State.hardLimit_keeps (h : Keeps s t) : Keeps s (State.hardLimit t a1 a2) := by
  unfold State.hardLimit
  repeat' first
    | intro _ | extract_lets
    | with_reducible first | assumption | apply State.onStage_keeps | apply State.setBit_keeps | apply State.latch_keeps | apply State.bump_keeps
         | apply State.log_keeps | apply State.life_keeps | apply State.showSources_keeps | apply keeps_ite

theorem State.guardTrip_keeps (h : Keeps s t) : Keeps s (State.guardTrip t a1 a2) := by
  unfold State.guardTrip
  repeat' first
    | intro _ | extract_lets
    | with_reducible first | assumption | apply State.onStage_keeps | apply State.showSources_keeps | apply State.latch_keeps | apply State.life_keeps
         | apply State.log_keeps | apply keeps_ite

theorem State.vdsTrip_keeps (h : Keeps s t) : Keeps s (State.vdsTrip t a1 a2) := by
  unfold State.vdsTrip
  repeat' first
    | with_reducible assumption | with_reducible exact Nat.le_refl _ | with_reducible exact List.length_filter_le _ _ | with_reducible exact rfl | intro _ | extract_lets
    | with_reducible first | apply State.setAbove_keeps | apply State.overTrip_keeps | apply State.showSources_keeps | apply keeps_ite | apply keeps_dite | apply foldl_keeps
    | split
    | with_reducible refine keepsP_snd (by assumption) ?_ | with_reducible refine keepsP_snd2 (by assumption) ?_
    | with_reducible apply Keeps.parts | simp only [keeps_mk]
    | dsimp only | simp +zetaDelta only [keeps_mk] | dsimp +zetaDelta only

theorem State.bootstrapUv_keeps (h : Keeps s t) : Keeps s (State.bootstrapUv t a1 a2) := by
  unfold State.bootstrapUv
  repeat' first
    | intro _ | extract_lets
    | with_reducible first | assumption | apply State.onStage_keeps | apply State.showSources_keeps | apply State.latch_keeps | apply State.log_keeps
         | apply keeps_ite

theorem State.pumpStep_keeps (h : Keeps s t) : Keeps s (State.pumpStep t) := by
  unfold State.pumpStep
  repeat' first
    | with_reducible assumption | with_reducible exact Nat.le_refl _ | with_reducible exact List.length_filter_le _ _ | with_reducible exact rfl | intro _ | extract_lets
    | with_reducible first | apply State.onStage_keeps | apply keeps_ite | apply keeps_dite | apply foldl_keeps
    | split
    | with_reducible refine keepsP_snd (by assumption) ?_ | with_reducible refine keepsP_snd2 (by assumption) ?_
    | with_reducible apply Keeps.parts | simp only [keeps_mk]
    | dsimp only | simp +zetaDelta only [keeps_mk] | dsimp +zetaDelta only

theorem State.cpReady_keeps (h : Keeps s t) : Keeps s (State.cpReady t) := by
  unfold State.cpReady
  repeat' first
    | intro _ | extract_lets
    | with_reducible first | assumption | apply State.onStage_keeps | apply State.setBit_keeps | apply State.showSources_keeps | apply overList_keeps
         | apply keeps_ite

theorem State.cpFall_keeps (h : Keeps s t) : Keeps s (State.cpFall t) := by
  unfold State.cpFall
  repeat' first
    | with_reducible assumption | with_reducible exact Nat.le_refl _ | with_reducible exact List.length_filter_le _ _ | with_reducible exact rfl | intro _ | extract_lets
    | with_reducible first | apply State.setBit_keeps | apply State.showSources_keeps | apply State.latch_keeps | apply State.log_keeps | apply State.onStage_keeps | apply State.flag_keeps | apply overList_keeps | apply keeps_ite | apply keeps_dite | apply foldl_keeps
    | split
    | with_reducible refine keepsP_snd (by assumption) ?_ | with_reducible refine keepsP_snd2 (by assumption) ?_
    | with_reducible apply Keeps.parts | simp only [keeps_mk]
    | dsimp only | simp +zetaDelta only [keeps_mk] | dsimp +zetaDelta only

theorem State.tripShow_keeps (h : Keeps s t) : Keeps s (State.tripShow t a1) := by
  unfold State.tripShow
  repeat' first
    | intro _ | extract_lets
    | with_reducible first | assumption | apply State.showSources_keeps | apply State.setBit_keeps | apply overList_keeps

theorem State.tripAct_keeps (h : Keeps s t) : Keeps s (State.tripAct t a1) := by
  unfold State.tripAct
  repeat' first
    | intro _ | extract_lets
    | with_reducible first | assumption | apply State.latch_keeps | apply State.log_keeps | apply State.onStage_keeps | apply overList_keeps
         | apply keeps_ite

theorem State.tripInput_keeps (h : Keeps s t) : Keeps s (State.tripInput t a1 a2) := by
  unfold State.tripInput
  repeat' first
    | with_reducible assumption | with_reducible exact Nat.le_refl _ | with_reducible exact List.length_filter_le _ _ | with_reducible exact rfl | intro _ | extract_lets
    | with_reducible first | apply State.tripAct_keeps | apply State.tripShow_keeps | apply State.onStage_keeps | apply keeps_ite | apply keeps_dite | apply foldl_keeps
    | split
    | with_reducible refine keepsP_snd (by assumption) ?_ | with_reducible refine keepsP_snd2 (by assumption) ?_
    | with_reducible apply Keeps.parts | simp only [keeps_mk]
    | dsimp only | simp +zetaDelta only [keeps_mk] | dsimp +zetaDelta only

theorem State.tripRelease_keeps (h : Keeps s t) : Keeps s (State.tripRelease t a1) := by
  unfold State.tripRelease
  repeat' first
    | intro _ | extract_lets
    | with_reducible first | assumption | apply State.tripShow_keeps | apply State.onStage_keeps | apply keeps_ite

theorem State.tripWait_keeps (h : Keeps s t) : Keeps s (State.tripWait t) := by
  unfold State.tripWait
  repeat' first
    | with_reducible assumption | with_reducible exact Nat.le_refl _ | with_reducible exact List.length_filter_le _ _ | with_reducible exact rfl | intro _ | extract_lets
    | with_reducible first | apply State.latch_keeps | apply overList_keeps | apply keeps_ite | apply keeps_dite | apply foldl_keeps
    | split
    | with_reducible refine keepsP_snd (by assumption) ?_ | with_reducible refine keepsP_snd2 (by assumption) ?_
    | with_reducible apply Keeps.parts | simp only [keeps_mk]
    | dsimp only | simp +zetaDelta only [keeps_mk] | dsimp +zetaDelta only

theorem State.toffShow_keeps (h : Keeps s t) : Keeps s (State.toffShow t) := by
  unfold State.toffShow
  repeat' first
    | intro _ | extract_lets
    | with_reducible first | assumption | apply State.setBit_keeps

theorem State.toffInput_keeps (h : Keeps s t) : Keeps s (State.toffInput t a1 a2) := by
  unfold State.toffInput
  repeat' first
    | with_reducible assumption | with_reducible exact Nat.le_refl _ | with_reducible exact List.length_filter_le _ _ | with_reducible exact rfl | intro _ | extract_lets
    | with_reducible first | apply State.onStage_keeps | apply State.pumpStep_keeps | apply State.setOuts_keeps | apply State.toffShow_keeps | apply State.life_keeps | apply keeps_ite | apply keeps_dite | apply foldl_keeps
    | split
    | with_reducible refine keepsP_snd (by assumption) ?_ | with_reducible refine keepsP_snd2 (by assumption) ?_
    | with_reducible apply Keeps.parts | simp only [keeps_mk]
    | dsimp only | simp +zetaDelta only [keeps_mk] | dsimp +zetaDelta only

theorem State.toffEdge_keeps (h : Keeps s t) : Keeps s (State.toffEdge t) := by
  unfold State.toffEdge
  repeat' first
    | intro _ | extract_lets
    | with_reducible first | assumption | apply State.toFault_keeps | apply State.log_keeps | apply State.onStage_keeps | apply overList_keeps
         | apply keeps_ite

theorem State.toffDisc_keeps (h : Keeps s t) : Keeps s (State.toffDisc t) := by
  unfold State.toffDisc
  repeat' first
    | with_reducible assumption | with_reducible exact Nat.le_refl _ | with_reducible exact List.length_filter_le _ _ | with_reducible exact rfl | intro _ | extract_lets
    | with_reducible first | apply State.log_keeps | apply State.flag_keeps | apply State.onStage_keeps | apply keeps_ite | apply keeps_dite | apply foldl_keeps
    | split
    | with_reducible refine keepsP_snd (by assumption) ?_ | with_reducible refine keepsP_snd2 (by assumption) ?_
    | with_reducible apply Keeps.parts | simp only [keeps_mk]
    | dsimp only | simp +zetaDelta only [keeps_mk] | dsimp +zetaDelta only

theorem State.groupOver_keeps (h : Keeps s t) : Keeps s (State.groupOver t a1) := by
  unfold State.groupOver
  repeat' first
    | intro _ | extract_lets
    | with_reducible first | assumption | apply State.setBit_keeps | apply State.onStage_keeps | apply State.latch_keeps | apply State.log_keeps
         | apply overList_keeps | apply keeps_ite

theorem State.powerEdge_keeps (h : Keeps s t) : Keeps s (State.powerEdge t) := by
  unfold State.powerEdge
  repeat' first
    | intro _ | extract_lets
    | with_reducible first | assumption | apply State.onStage_keeps

theorem State.governorStep_keeps (h : Keeps s t) : Keeps s (State.governorStep t) := by
  unfold State.governorStep
  repeat' first
    | intro _ | extract_lets
    | with_reducible first | assumption | apply State.wr_keeps | apply State.onStage_keeps | apply State.log_keeps | apply overList_keeps
         | apply keeps_ite | apply keeps_dite | apply foldl_keeps

theorem execLegOvercurrent_keeps (h : Keeps s t) : KeepsO s (execLegOvercurrent a1 t) := by
  unfold execLegOvercurrent
  repeat' first
    | with_reducible assumption | with_reducible exact Nat.le_refl _ | with_reducible exact List.length_filter_le _ _ | with_reducible exact rfl | intro _ | extract_lets
    | with_reducible first | apply State.awake_keeps | apply State.legOvercurrent_keeps | apply keeps_ite | apply foldl_keeps | apply keepsO_ite | apply keepsO_next
    | split
    | with_reducible refine keepsP_snd (by assumption) ?_ | with_reducible refine keepsP_snd2 (by assumption) ?_
    | with_reducible apply Keeps.parts | simp only [keeps_mk]
    | dsimp only | simp +zetaDelta only [keeps_mk] | dsimp +zetaDelta only

theorem execHardLimit_keeps (h : Keeps s t) : KeepsO s (execHardLimit a1 a2 t) := by
  unfold execHardLimit
  repeat' first
    | with_reducible assumption | with_reducible exact Nat.le_refl _ | with_reducible exact List.length_filter_le _ _ | with_reducible exact rfl | intro _ | extract_lets
    | with_reducible first | apply State.awake_keeps | apply State.hardLimit_keeps | apply keeps_ite | apply foldl_keeps | apply keepsO_ite | apply keepsO_next
    | split
    | with_reducible refine keepsP_snd (by assumption) ?_ | with_reducible refine keepsP_snd2 (by assumption) ?_
    | with_reducible apply Keeps.parts | simp only [keeps_mk]
    | dsimp only | simp +zetaDelta only [keeps_mk] | dsimp +zetaDelta only

theorem execShootThroughGuard_keeps (h : Keeps s t) : KeepsO s (execShootThroughGuard a1 a2 t) := by
  unfold execShootThroughGuard
  repeat' first
    | with_reducible assumption | with_reducible exact Nat.le_refl _ | with_reducible exact List.length_filter_le _ _ | with_reducible exact rfl | intro _ | extract_lets
    | with_reducible first | apply State.awake_keeps | apply State.guardTrip_keeps | apply keeps_ite | apply foldl_keeps | apply keepsO_ite | apply keepsO_next
    | split
    | with_reducible refine keepsP_snd (by assumption) ?_ | with_reducible refine keepsP_snd2 (by assumption) ?_
    | with_reducible apply Keeps.parts | simp only [keeps_mk]
    | dsimp only | simp +zetaDelta only [keeps_mk] | dsimp +zetaDelta only

theorem execVdsTrip_keeps (h : Keeps s t) : KeepsO s (execVdsTrip a1 t) := by
  unfold execVdsTrip
  repeat' first
    | with_reducible assumption | with_reducible exact Nat.le_refl _ | with_reducible exact List.length_filter_le _ _ | with_reducible exact rfl | intro _ | extract_lets
    | with_reducible first | apply State.awake_keeps | apply State.vdsTrip_keeps | apply keeps_ite | apply foldl_keeps | apply keepsO_ite | apply keepsO_next
    | split
    | with_reducible refine keepsP_snd (by assumption) ?_ | with_reducible refine keepsP_snd2 (by assumption) ?_
    | with_reducible apply Keeps.parts | simp only [keeps_mk]
    | dsimp only | simp +zetaDelta only [keeps_mk] | dsimp +zetaDelta only

theorem execBootstrapUndervoltage_keeps (h : Keeps s t) : KeepsO s (execBootstrapUndervoltage a1 a2 t) := by
  unfold execBootstrapUndervoltage
  repeat' first
    | with_reducible assumption | with_reducible exact Nat.le_refl _ | with_reducible exact List.length_filter_le _ _ | with_reducible exact rfl | intro _ | extract_lets
    | with_reducible first | apply State.awake_keeps | apply State.bootstrapUv_keeps | apply keeps_ite | apply foldl_keeps | apply keepsO_ite | apply keepsO_next
    | split
    | with_reducible refine keepsP_snd (by assumption) ?_ | with_reducible refine keepsP_snd2 (by assumption) ?_
    | with_reducible apply Keeps.parts | simp only [keeps_mk]
    | dsimp only | simp +zetaDelta only [keeps_mk] | dsimp +zetaDelta only

theorem execChargePumpUndervoltage_keeps (h : Keeps s t) : KeepsO s (execChargePumpUndervoltage t) := by
  unfold execChargePumpUndervoltage
  repeat' first
    | with_reducible assumption | with_reducible exact Nat.le_refl _ | with_reducible exact List.length_filter_le _ _ | with_reducible exact rfl | intro _ | extract_lets
    | with_reducible first | apply State.awake_keeps | apply State.cpFall_keeps | apply keeps_ite | apply foldl_keeps | apply keepsO_ite | apply keepsO_next
    | split
    | with_reducible refine keepsP_snd (by assumption) ?_ | with_reducible refine keepsP_snd2 (by assumption) ?_
    | with_reducible apply Keeps.parts | simp only [keeps_mk]
    | dsimp only | simp +zetaDelta only [keeps_mk] | dsimp +zetaDelta only

theorem execChargePumpReady_keeps (h : Keeps s t) : KeepsO s (execChargePumpReady t) := by
  unfold execChargePumpReady
  repeat' first
    | with_reducible assumption | with_reducible exact Nat.le_refl _ | with_reducible exact List.length_filter_le _ _ | with_reducible exact rfl | intro _ | extract_lets
    | with_reducible first | apply State.awake_keeps | apply State.cpReady_keeps | apply keeps_ite | apply foldl_keeps | apply keepsO_ite | apply keepsO_next
    | split
    | with_reducible refine keepsP_snd (by assumption) ?_ | with_reducible refine keepsP_snd2 (by assumption) ?_
    | with_reducible apply Keeps.parts | simp only [keeps_mk]
    | dsimp only | simp +zetaDelta only [keeps_mk] | dsimp +zetaDelta only

theorem execTripInput_keeps (h : Keeps s t) : KeepsO s (execTripInput a1 t) := by
  unfold execTripInput
  repeat' first
    | with_reducible assumption | with_reducible exact Nat.le_refl _ | with_reducible exact List.length_filter_le _ _ | with_reducible exact rfl | intro _ | extract_lets
    | with_reducible first | apply State.awake_keeps | apply State.tripInput_keeps | apply keeps_ite | apply foldl_keeps | apply keepsO_ite | apply keepsO_next
    | split
    | with_reducible refine keepsP_snd (by assumption) ?_ | with_reducible refine keepsP_snd2 (by assumption) ?_
    | with_reducible apply Keeps.parts | simp only [keeps_mk]
    | dsimp only | simp +zetaDelta only [keeps_mk] | dsimp +zetaDelta only

theorem execTripInputRelease_keeps (h : Keeps s t) : KeepsO s (execTripInputRelease a1 t) := by
  unfold execTripInputRelease
  repeat' first
    | with_reducible assumption | with_reducible exact Nat.le_refl _ | with_reducible exact List.length_filter_le _ _ | with_reducible exact rfl | intro _ | extract_lets
    | with_reducible first | apply State.awake_keeps | apply State.tripRelease_keeps | apply keeps_ite | apply foldl_keeps | apply keepsO_ite | apply keepsO_next
    | split
    | with_reducible refine keepsP_snd (by assumption) ?_ | with_reducible refine keepsP_snd2 (by assumption) ?_
    | with_reducible apply Keeps.parts | simp only [keeps_mk]
    | dsimp only | simp +zetaDelta only [keeps_mk] | dsimp +zetaDelta only

theorem execGroupOvertemperature_keeps (h : Keeps s t) : KeepsO s (execGroupOvertemperature a1 t) := by
  unfold execGroupOvertemperature
  repeat' first
    | with_reducible assumption | with_reducible exact Nat.le_refl _ | with_reducible exact List.length_filter_le _ _ | with_reducible exact rfl | intro _ | extract_lets
    | with_reducible first | apply State.awake_keeps | apply State.groupOver_keeps | apply keeps_ite | apply foldl_keeps | apply keepsO_ite | apply keepsO_next
    | split
    | with_reducible refine keepsP_snd (by assumption) ?_ | with_reducible refine keepsP_snd2 (by assumption) ?_
    | with_reducible apply Keeps.parts | simp only [keeps_mk]
    | dsimp only | simp +zetaDelta only [keeps_mk] | dsimp +zetaDelta only

theorem execTorqueOff_keeps (h : Keeps s t) : KeepsO s (execTorqueOff a1 t) := by
  unfold execTorqueOff
  repeat' first
    | with_reducible assumption | with_reducible exact Nat.le_refl _ | with_reducible exact List.length_filter_le _ _ | with_reducible exact rfl | intro _ | extract_lets
    | with_reducible first | apply State.awake_keeps | apply State.toffInput_keeps | apply keeps_ite | apply foldl_keeps | apply keepsO_ite | apply keepsO_next
    | split
    | with_reducible refine keepsP_snd (by assumption) ?_ | with_reducible refine keepsP_snd2 (by assumption) ?_
    | with_reducible apply Keeps.parts | simp only [keeps_mk]
    | dsimp only | simp +zetaDelta only [keeps_mk] | dsimp +zetaDelta only

theorem execTorqueOffRelease_keeps (h : Keeps s t) : KeepsO s (execTorqueOffRelease a1 t) := by
  unfold execTorqueOffRelease
  repeat' first
    | with_reducible assumption | with_reducible exact Nat.le_refl _ | with_reducible exact List.length_filter_le _ _ | with_reducible exact rfl | intro _ | extract_lets
    | with_reducible first | apply State.awake_keeps | apply State.toffInput_keeps | apply keeps_ite | apply foldl_keeps | apply keepsO_ite | apply keepsO_next
    | split
    | with_reducible refine keepsP_snd (by assumption) ?_ | with_reducible refine keepsP_snd2 (by assumption) ?_
    | with_reducible apply Keeps.parts | simp only [keeps_mk]
    | dsimp only | simp +zetaDelta only [keeps_mk] | dsimp +zetaDelta only

theorem execToffDiscrepancy_keeps (h : Keeps s t) : KeepsO s (execToffDiscrepancy t) := by
  unfold execToffDiscrepancy
  repeat' first
    | with_reducible assumption | with_reducible exact Nat.le_refl _ | with_reducible exact List.length_filter_le _ _ | with_reducible exact rfl | intro _ | extract_lets
    | with_reducible first | apply State.awake_keeps | apply State.toffDisc_keeps | apply keeps_ite | apply foldl_keeps | apply keepsO_ite | apply keepsO_next
    | split
    | with_reducible refine keepsP_snd (by assumption) ?_ | with_reducible refine keepsP_snd2 (by assumption) ?_
    | with_reducible apply Keeps.parts | simp only [keeps_mk]
    | dsimp only | simp +zetaDelta only [keeps_mk] | dsimp +zetaDelta only

theorem execGovernorStep_keeps (h : Keeps s t) : KeepsO s (execGovernorStep t) := by
  unfold execGovernorStep
  repeat' first
    | with_reducible assumption | with_reducible exact Nat.le_refl _ | with_reducible exact List.length_filter_le _ _ | with_reducible exact rfl | intro _ | extract_lets
    | with_reducible first | apply State.awake_keeps | apply State.governorStep_keeps | apply keeps_ite | apply foldl_keeps | apply keepsO_ite | apply keepsO_next
    | split
    | with_reducible refine keepsP_snd (by assumption) ?_ | with_reducible refine keepsP_snd2 (by assumption) ?_
    | with_reducible apply Keeps.parts | simp only [keeps_mk]
    | dsimp only | simp +zetaDelta only [keeps_mk] | dsimp +zetaDelta only

end Sys2Proof.Machine
end

