-- ==== Sys2Proof/Laws/KeepsInputs.lean ====
section
/-! SUPPORT. Every operation of Machine/Inputs.lean keeps what `Keeps` says. -/

namespace Sys2Proof.Machine

theorem State.onPins_keeps (h : Keeps s t) : Keeps s (State.onPins t a1) := by
  unfold State.onPins
  repeat' first
    | intro _ | extract_lets
    | with_reducible first | assumption | apply keeps_ite | apply keeps_dite | apply foldl_keeps | refine keepsP_snd (by assumption) ?_
                            | refine keepsP_snd2 (by assumption) ?_ | apply Keeps.parts
    | split | simp only [keeps_mk]

theorem State.onHom_keeps (h : Keeps s t) : Keeps s (State.onHom t a1 a2) := by
  unfold State.onHom
  repeat' first
    | intro _ | extract_lets
    | with_reducible first | assumption | apply State.onAx_keeps

theorem State.resolvePin_keeps (h : Keeps s t) : Keeps s (State.resolvePin t a1 a2) := by
  unfold State.resolvePin
  repeat' first
    | with_reducible assumption | with_reducible exact Nat.le_refl _ | with_reducible exact List.length_filter_le _ _ | with_reducible exact rfl | intro _ | extract_lets
    | with_reducible first | apply State.onFol_keeps | apply State.setBit_keeps | apply State.onPins_keeps | apply overList_keeps | apply keeps_ite | apply keeps_dite | apply foldl_keeps
    | split
    | with_reducible refine keepsP_snd (by assumption) ?_ | with_reducible refine keepsP_snd2 (by assumption) ?_
    | with_reducible apply Keeps.parts | simp only [keeps_mk]
    | dsimp only | simp +zetaDelta only [keeps_mk] | dsimp +zetaDelta only

theorem State.rawEdge_keeps (h : Keeps s t) : Keeps s (State.rawEdge t a1 a2) := by
  unfold State.rawEdge
  repeat' first
    | intro _ | extract_lets
    | with_reducible first | assumption | apply State.onPins_keeps

theorem State.chatterClose_keeps (h : Keeps s t) : Keeps s (State.chatterClose t a1) := by
  unfold State.chatterClose
  repeat' first
    | intro _ | extract_lets
    | with_reducible first | assumption | apply State.onPins_keeps | apply State.log_keeps | apply State.flag_keeps | apply keeps_ite
         | apply keeps_dite | apply foldl_keeps
    | split

theorem State.chatterEdge_keeps (h : Keeps s t) : Keeps s (State.chatterEdge t a1) := by
  unfold State.chatterEdge
  repeat' first
    | intro _ | extract_lets
    | with_reducible first | assumption | apply State.chatterClose_keeps | apply State.onPins_keeps

theorem State.hstat_keeps (h : Keeps s t) : Keeps s (State.hstat t a1 a2) := by
  unfold State.hstat
  repeat' first
    | intro _ | extract_lets
    | with_reducible first | assumption | apply State.wr_keeps | apply State.irq_keeps | apply keeps_ite

theorem State.relabel_keeps (h : Keeps s t) : Keeps s (State.relabel t a1 a2) := by
  unfold State.relabel
  repeat' first
    | intro _ | extract_lets
    | with_reducible first | assumption | apply State.onMot_keeps | apply State.onFol_keeps | apply State.flag_keeps | apply keeps_ite

theorem State.homeComplete_keeps (h : Keeps s t) : Keeps s (State.homeComplete t a1 a2) := by
  unfold State.homeComplete
  repeat' first
    | intro _ | extract_lets
    | with_reducible first | assumption | apply State.relabel_keeps | apply State.wrI_keeps | apply State.onMot_keeps | apply State.setSt_keeps
         | apply State.hstat_keeps | apply State.onHom_keeps | apply keeps_ite

theorem State.homeFail_keeps (h : Keeps s t) : Keeps s (State.homeFail t a1 a2 a3) := by
  unfold State.homeFail
  repeat' first
    | intro _ | extract_lets
    | with_reducible first | assumption | apply State.hstat_keeps | apply State.onHom_keeps | apply State.log_keeps
         | apply State.classStopEngine_keeps | apply State.classStop_keeps | apply keeps_ite

theorem State.homeNext_keeps (h : Keeps s t) : Keeps s (State.homeNext t a1) := by
  unfold State.homeNext
  repeat' first
    | intro _ | extract_lets
    | with_reducible first | assumption | apply State.hstat_keeps | apply State.onHom_keeps | apply State.onMot_keeps | apply State.homeComplete_keeps
         | apply keeps_ite | apply keeps_dite | apply foldl_keeps | refine keepsP_snd (by assumption) ?_
                            | refine keepsP_snd2 (by assumption) ?_ | apply Keeps.parts
    | split | simp only [keeps_mk] | dsimp only | simp +zetaDelta only [keeps_mk]

theorem State.homeStart_keeps (h : Keeps s t) : Keeps s (State.homeStart t a1 a2) := by
  unfold State.homeStart
  repeat' first
    | intro _ | extract_lets
    | with_reducible first | assumption | apply State.onHom_keeps | apply State.setSt_keeps | apply State.hstat_keeps | apply State.onMot_keeps
         | apply State.homeComplete_keeps | apply State.homeFail_keeps | apply State.homeNext_keeps | apply keeps_ite | apply keeps_dite
         | apply foldl_keeps
    | split

theorem State.homeStop_keeps (h : Keeps s t) : Keeps s (State.homeStop t a1) := by
  unfold State.homeStop
  repeat' first
    | intro _ | extract_lets
    | with_reducible first | assumption | apply State.onMot_keeps | apply State.onHom_keeps

theorem State.homePhase_keeps (h : Keeps s t) : Keeps s (State.homePhase t a1) := by
  unfold State.homePhase
  repeat' first
    | intro _ | extract_lets
    | with_reducible first | assumption | apply State.homeNext_keeps | apply State.onMot_keeps | apply keeps_ite

theorem State.homeDistance_keeps (h : Keeps s t) : Keeps s (State.homeDistance t a1) := by
  unfold State.homeDistance
  repeat' first
    | intro _ | extract_lets
    | with_reducible first | assumption | apply State.homeFail_keeps | apply keeps_ite

theorem State.homeUnobs_keeps (h : Keeps s t) : Keeps s (State.homeUnobs t a1) := by
  unfold State.homeUnobs
  repeat' first
    | intro _ | extract_lets
    | with_reducible first | assumption | apply State.onHom_keeps | apply State.homeFail_keeps | apply keeps_ite

theorem State.homeStall_keeps (h : Keeps s t) : Keeps s (State.homeStall t a1) := by
  unfold State.homeStall
  repeat' first
    | with_reducible first | assumption | exact Nat.le_refl _ | exact List.length_filter_le _ _ | exact rfl
    | intro _ _ _ | with_reducible first | apply State.setFld_keeps | apply State.flag_keeps | apply State.onCtl_keeps | apply State.log_keeps | apply State.life_keeps | apply State.bump_keeps | apply State.onHom_keeps | apply State.onMot_keeps | apply onFlt_keeps | apply keeps_ite | apply keeps_dite | apply foldl_keeps
    | split | extract_lets

theorem State.stallHit_keeps (h : Keeps s t) : Keeps s (State.stallHit t a1) := by
  unfold State.stallHit
  repeat' first
    | intro _ | extract_lets
    | with_reducible first | assumption | apply State.homeStall_keeps | apply State.stallRaise_keeps | apply keeps_ite

theorem State.homeSwitch_keeps (h : Keeps s t) : KeepsP s (State.homeSwitch t a1 a2 a3 a4) := by
  unfold State.homeSwitch
  repeat' first
    | intro _ | extract_lets
    | with_reducible first | assumption | apply State.onHom_keeps | apply State.homeStop_keeps | apply State.hstat_keeps | apply keeps_ite
         | apply foldl_keeps | apply keepsP_ite | apply keepsP_dite
    | split

theorem State.limitAct_keeps (h : Keeps s t) : Keeps s (State.limitAct t a1 a2 a3 a4) := by
  unfold State.limitAct
  repeat' first
    | intro _ | extract_lets
    | with_reducible first | assumption | apply State.log_keeps | apply State.classStop_keeps | apply State.homeSwitch_keeps
         | apply State.homeFail_keeps | apply keeps_ite | apply keeps_dite | apply foldl_keeps | refine keepsP_snd (by assumption) ?_
    | split

theorem State.pinChanged_keeps (h : Keeps s t) : Keeps s (State.pinChanged t a1 a2) := by
  unfold State.pinChanged
  repeat' first
    | intro _ | extract_lets
    | with_reducible first | assumption | apply State.limitAct_keeps | apply State.homeSwitch_keeps | apply State.reactStop_keeps
         | apply State.log_keeps | apply overList_keeps | apply keeps_ite | apply keeps_dite | apply foldl_keeps
    | split

theorem State.qualify_keeps (h : Keeps s t) : Keeps s (State.qualify t a1) := by
  unfold State.qualify
  repeat' first
    | intro _ | extract_lets
    | with_reducible first | assumption | apply State.onPins_keeps | apply State.flag_keeps | apply State.pinChanged_keeps | apply keeps_ite

theorem State.pinEdge_keeps (h : Keeps s t) : Keeps s (State.pinEdge t a1) := by
  unfold State.pinEdge
  repeat' first
    | intro _ | extract_lets
    | with_reducible first | assumption | apply State.chatterEdge_keeps | apply State.qualify_keeps | apply State.onPins_keeps | apply keeps_ite
         | apply keeps_dite | apply foldl_keeps
    | split

theorem State.enTo_keeps (h : Keeps s t) : Keeps s (State.enTo t a1) := by
  unfold State.enTo
  repeat' first
    | intro _ | extract_lets
    | with_reducible first | assumption | apply State.irq_keeps | apply State.setFld_keeps | apply keeps_ite

theorem State.enDiscrepancy_keeps (h : Keeps s t) : Keeps s (State.enDiscrepancy t) := by
  unfold State.enDiscrepancy
  repeat' first
    | intro _ | extract_lets
    | with_reducible first | assumption | apply State.log_keeps | apply State.enTo_keeps | apply keeps_ite

theorem State.enableEdge_keeps (h : Keeps s t) : Keeps s (State.enableEdge t) := by
  unfold State.enableEdge
  repeat' first
    | intro _ | extract_lets
    | with_reducible first | assumption | apply State.enTo_keeps | apply State.enDiscrepancy_keeps | apply keeps_ite

theorem State.modesEdge_keeps (h : Keeps s t) : Keeps s (State.modesEdge t) := by
  unfold State.modesEdge
  repeat' first
    | intro _ | extract_lets
    | with_reducible first | assumption | apply State.onPins_keeps

theorem State.inputsEdge_keeps (h : Keeps s t) : Keeps s (State.inputsEdge t) := by
  unfold State.inputsEdge
  repeat' first
    | intro _ | extract_lets
    | with_reducible first | assumption | apply State.modesEdge_keeps | apply State.enableEdge_keeps | apply State.pinEdge_keeps
         | apply overList_keeps | apply keeps_ite

theorem State.outputsEdge_keeps (h : Keeps s t) : Keeps s (State.outputsEdge t a1) := by
  unfold State.outputsEdge
  repeat' first
    | intro _ | extract_lets
    | with_reducible first | assumption | apply State.onPins_keeps | apply State.setBit_keeps | apply overList_keeps | apply keeps_ite

theorem State.pinsClock_keeps (h : Keeps s t) : Keeps s (State.pinsClock t) := by
  unfold State.pinsClock
  repeat' first
    | intro _ | extract_lets
    | with_reducible first | assumption | apply State.onPins_keeps

theorem State.stepFilter_keeps (h : Keeps s t) : Keeps s (State.stepFilter t a1) := by
  unfold State.stepFilter
  repeat' first
    | with_reducible assumption | with_reducible exact Nat.le_refl _ | with_reducible exact List.length_filter_le _ _ | with_reducible exact rfl | intro _ | extract_lets
    | with_reducible first | apply State.onFol_keeps | apply keeps_ite | apply keeps_dite | apply foldl_keeps
    | split
    | with_reducible refine keepsP_snd (by assumption) ?_ | with_reducible refine keepsP_snd2 (by assumption) ?_
    | with_reducible apply Keeps.parts | simp only [keeps_mk]
    | dsimp only | simp +zetaDelta only [keeps_mk] | dsimp +zetaDelta only

theorem State.stepInDue_keeps {r : State} (h : Keeps s t) : KeepsP s (State.stepInDue r a1 t) := by
  unfold State.stepInDue
  extract_lets w
  split
  · exact h
  · split
    · exact h
    · show Keeps s (t.free 1).2
      exact State.free_keeps h

theorem State.resolveEnd_keeps (h : Keeps s t) : Keeps s (State.resolveEnd t a1) := by
  unfold State.resolveEnd
  repeat' first
    | with_reducible first | assumption | exact Nat.le_refl _ | exact List.length_filter_le _ _ | exact rfl
    | intro _ _ _ | with_reducible first | apply State.setBit_keeps | apply State.onPins_keeps | apply State.log_keeps | apply overList_keeps | apply keeps_ite | apply keeps_dite | apply foldl_keeps
    | split | extract_lets

theorem State.resolveDed_keeps (h : Keeps s t) : Keeps s (State.resolveDed t a1 a2) := by
  unfold State.resolveDed
  repeat' first
    | intro _ | extract_lets
    | with_reducible first | assumption | apply State.toffInput_keeps | apply State.tripAct_keeps | apply State.tripShow_keeps
         | apply State.onStage_keeps | apply keeps_ite | apply keeps_dite

theorem execInputResolve_keeps (h : Keeps s t) : KeepsO s (execInputResolve a1 a2 t) := by
  unfold execInputResolve
  repeat' first
    | with_reducible assumption | with_reducible exact Nat.le_refl _ | with_reducible exact List.length_filter_le _ _ | with_reducible exact rfl | intro _ | extract_lets
    | with_reducible first | apply State.awake_keeps | apply State.resolvePin_keeps | apply State.resolveDed_keeps | apply keeps_ite | apply foldl_keeps | apply keepsO_ite | apply keepsO_next
    | split
    | with_reducible refine keepsP_snd (by assumption) ?_ | with_reducible refine keepsP_snd2 (by assumption) ?_
    | with_reducible apply Keeps.parts | simp only [keeps_mk]
    | dsimp only | simp +zetaDelta only [keeps_mk] | dsimp +zetaDelta only

theorem execResolveIntervalEnd_keeps (h : Keeps s t) : KeepsO s (execResolveIntervalEnd a1 t) := by
  unfold execResolveIntervalEnd
  repeat' first
    | with_reducible assumption | with_reducible exact Nat.le_refl _ | with_reducible exact List.length_filter_le _ _ | with_reducible exact rfl | intro _ | extract_lets
    | with_reducible first | apply State.awake_keeps | apply State.resolveEnd_keeps | apply keeps_ite | apply foldl_keeps | apply keepsO_ite | apply keepsO_next
    | split
    | with_reducible refine keepsP_snd (by assumption) ?_ | with_reducible refine keepsP_snd2 (by assumption) ?_
    | with_reducible apply Keeps.parts | simp only [keeps_mk]
    | dsimp only | simp +zetaDelta only [keeps_mk] | dsimp +zetaDelta only

theorem execRawEdge_keeps (h : Keeps s t) : KeepsO s (execRawEdge a1 a2 t) := by
  unfold execRawEdge
  repeat' first
    | with_reducible assumption | with_reducible exact Nat.le_refl _ | with_reducible exact List.length_filter_le _ _ | with_reducible exact rfl | intro _ | extract_lets
    | with_reducible first | apply State.awake_keeps | apply State.rawEdge_keeps | apply keeps_ite | apply foldl_keeps | apply keepsO_ite | apply keepsO_next
    | split
    | with_reducible refine keepsP_snd (by assumption) ?_ | with_reducible refine keepsP_snd2 (by assumption) ?_
    | with_reducible apply Keeps.parts | simp only [keeps_mk]
    | dsimp only | simp +zetaDelta only [keeps_mk] | dsimp +zetaDelta only

theorem execChatterWindowClose_keeps (h : Keeps s t) : KeepsO s (execChatterWindowClose a1 t) := by
  unfold execChatterWindowClose
  repeat' first
    | with_reducible assumption | with_reducible exact Nat.le_refl _ | with_reducible exact List.length_filter_le _ _ | with_reducible exact rfl | intro _ | extract_lets
    | with_reducible first | apply State.awake_keeps | apply State.chatterClose_keeps | apply keeps_ite | apply foldl_keeps | apply keepsO_ite | apply keepsO_next
    | split
    | with_reducible refine keepsP_snd (by assumption) ?_ | with_reducible refine keepsP_snd2 (by assumption) ?_
    | with_reducible apply Keeps.parts | simp only [keeps_mk]
    | dsimp only | simp +zetaDelta only [keeps_mk] | dsimp +zetaDelta only

theorem execEnablingDiscrepancy_keeps (h : Keeps s t) : KeepsO s (execEnablingDiscrepancy t) := by
  unfold execEnablingDiscrepancy
  repeat' first
    | with_reducible assumption | with_reducible exact Nat.le_refl _ | with_reducible exact List.length_filter_le _ _ | with_reducible exact rfl | intro _ | extract_lets
    | with_reducible first | apply State.awake_keeps | apply State.enDiscrepancy_keeps | apply keeps_ite | apply foldl_keeps | apply keepsO_ite | apply keepsO_next
    | split
    | with_reducible refine keepsP_snd (by assumption) ?_ | with_reducible refine keepsP_snd2 (by assumption) ?_
    | with_reducible apply Keeps.parts | simp only [keeps_mk]
    | dsimp only | simp +zetaDelta only [keeps_mk] | dsimp +zetaDelta only

theorem execHomingPhaseStart_keeps (h : Keeps s t) : KeepsO s (execHomingPhaseStart a1 t) := by
  unfold execHomingPhaseStart
  repeat' first
    | with_reducible assumption | with_reducible exact Nat.le_refl _ | with_reducible exact List.length_filter_le _ _ | with_reducible exact rfl | intro _ | extract_lets
    | with_reducible first | apply State.awake_keeps | apply State.homePhase_keeps | apply keeps_ite | apply foldl_keeps | apply keepsO_ite | apply keepsO_next
    | split
    | with_reducible refine keepsP_snd (by assumption) ?_ | with_reducible refine keepsP_snd2 (by assumption) ?_
    | with_reducible apply Keeps.parts | simp only [keeps_mk]
    | dsimp only | simp +zetaDelta only [keeps_mk] | dsimp +zetaDelta only

theorem execHomingDistanceExceeded_keeps (h : Keeps s t) : KeepsO s (execHomingDistanceExceeded a1 t) := by
  unfold execHomingDistanceExceeded
  repeat' first
    | with_reducible assumption | with_reducible exact Nat.le_refl _ | with_reducible exact List.length_filter_le _ _ | with_reducible exact rfl | intro _ | extract_lets
    | with_reducible first | apply State.awake_keeps | apply State.homeDistance_keeps | apply keeps_ite | apply foldl_keeps | apply keepsO_ite | apply keepsO_next
    | split
    | with_reducible refine keepsP_snd (by assumption) ?_ | with_reducible refine keepsP_snd2 (by assumption) ?_
    | with_reducible apply Keeps.parts | simp only [keeps_mk]
    | dsimp only | simp +zetaDelta only [keeps_mk] | dsimp +zetaDelta only

theorem execHomingComplete_keeps (h : Keeps s t) : KeepsO s (execHomingComplete a1 t) := by
  unfold execHomingComplete
  repeat' first
    | with_reducible assumption | with_reducible exact Nat.le_refl _ | with_reducible exact List.length_filter_le _ _ | with_reducible exact rfl | intro _ | extract_lets
    | with_reducible first | apply State.awake_keeps | apply State.homePhase_keeps | apply keeps_ite | apply foldl_keeps | apply keepsO_ite | apply keepsO_next
    | split
    | with_reducible refine keepsP_snd (by assumption) ?_ | with_reducible refine keepsP_snd2 (by assumption) ?_
    | with_reducible apply Keeps.parts | simp only [keeps_mk]
    | dsimp only | simp +zetaDelta only [keeps_mk] | dsimp +zetaDelta only

theorem execStallRaised_keeps (h : Keeps s t) : KeepsO s (execStallRaised a1 t) := by
  unfold execStallRaised
  repeat' first
    | with_reducible assumption | with_reducible exact Nat.le_refl _ | with_reducible exact List.length_filter_le _ _ | with_reducible exact rfl | intro _ | extract_lets
    | with_reducible first | apply State.awake_keeps | apply State.stallHit_keeps | apply keeps_ite | apply foldl_keeps | apply keepsO_ite | apply keepsO_next
    | split
    | with_reducible refine keepsP_snd (by assumption) ?_ | with_reducible refine keepsP_snd2 (by assumption) ?_
    | with_reducible apply Keeps.parts | simp only [keeps_mk]
    | dsimp only | simp +zetaDelta only [keeps_mk] | dsimp +zetaDelta only

end Sys2Proof.Machine
end

