-- ==== Sys2Proof/Laws/KeepsForceCh.lean ====
section
/-! SUPPORT. Every operation of Machine/ForceCh.lean keeps what `Keeps` says. -/

namespace Sys2Proof.Machine

theorem State.onFrc_keeps (h : Keeps s t) : Keeps s (State.onFrc t a1 a2) := by
  unfold State.onFrc
  repeat' first
    | intro _ | extract_lets
    | with_reducible first | assumption | apply keeps_ite | apply keeps_dite | apply foldl_keeps | refine keepsP_snd (by assumption) ?_
                            | refine keepsP_snd2 (by assumption) ?_ | apply Keeps.parts
    | split | simp only [keeps_mk]

theorem State.qSat_keeps (h : Keeps s t) : KeepsP s (State.qSat t a1 a2) := by
  unfold State.qSat
  repeat' first
    | intro _ | extract_lets
    | with_reducible first | assumption | apply State.flag_keeps | apply keeps_ite | apply foldl_keeps | apply keepsP_ite

theorem State.setOfs_keeps (h : Keeps s t) : Keeps s (State.setOfs t a1 a2) := by
  unfold State.setOfs
  repeat' first
    | intro _ | extract_lets
    | with_reducible first | assumption | apply State.qSat_keeps | apply State.wrI_keeps

theorem State.touchSetOn_keeps (h : Keeps s t) : Keeps s (State.touchSetOn t a1) := by
  unfold State.touchSetOn
  repeat' first
    | intro _ | extract_lets
    | with_reducible first | assumption | apply State.onFrc_keeps | apply State.bump_keeps | apply State.flag_keeps | apply State.setBit_keeps
         | apply State.log_keeps | apply keeps_ite

theorem State.touchOff_keeps (h : Keeps s t) : Keeps s (State.touchOff t a1) := by
  unfold State.touchOff
  repeat' first
    | intro _ | extract_lets
    | with_reducible first | assumption | apply State.onFrc_keeps | apply State.setBit_keeps | apply keeps_ite

theorem State.touchTest_keeps (h : Keeps s t) : Keeps s (State.touchTest t a1 a2) := by
  unfold State.touchTest
  repeat' first
    | intro _ | extract_lets
    | with_reducible first | assumption | apply State.touchOff_keeps | apply State.onFrc_keeps | apply State.touchSetOn_keeps | apply keeps_ite

theorem State.frcSample_keeps (h : Keeps s t) : Keeps s (State.frcSample t a1 a2 a3) := by
  unfold State.frcSample
  repeat' first
    | intro _ | extract_lets
    | with_reducible first | assumption | apply State.wrI_keeps | apply State.onFrc_keeps | apply State.setBit_keeps | apply State.flag_keeps
         | apply State.qSat_keeps | apply State.touchTest_keeps | apply keeps_ite

theorem State.frcHeld_keeps (h : Keeps s t) : Keeps s (State.frcHeld t a1 a2) := by
  unfold State.frcHeld
  repeat' first
    | intro _ | extract_lets
    | with_reducible first | assumption | apply State.onFrc_keeps | apply State.setOfs_keeps | apply keeps_ite | apply keeps_dite | apply foldl_keeps
    | split

theorem State.frcPublish_keeps (h : Keeps s t) : Keeps s (State.frcPublish t a1) := by
  unfold State.frcPublish
  repeat' first
    | intro _ | extract_lets
    | with_reducible first | assumption | apply State.setBit_keeps | apply State.wrI_keeps | apply State.wr_keeps | apply State.onFrc_keeps
         | apply keeps_ite

theorem State.frcStep_keeps (h : Keeps s t) : Keeps s (State.frcStep t a1 a2 a3) := by
  unfold State.frcStep
  repeat' first
    | intro _ | extract_lets
    | with_reducible first | assumption | apply State.setBit_keeps | apply State.bump_keeps | apply State.flag_keeps | apply State.setFld_keeps
         | apply State.onFrc_keeps | apply State.request_keeps | apply State.log_keeps | apply keeps_ite

theorem State.frcReset_keeps (h : Keeps s t) : Keeps s (State.frcReset t a1 a2 a3) := by
  unfold State.frcReset
  repeat' first
    | intro _ | extract_lets
    | with_reducible first | assumption | apply State.setBit_keeps | apply State.wr_keeps | apply State.onFrc_keeps

theorem State.autoReset_keeps (h : Keeps s t) : Keeps s (State.autoReset t a1) := by
  unfold State.autoReset
  repeat' first
    | intro _ | extract_lets
    | with_reducible first | assumption | apply State.frcReset_keeps | apply keeps_ite

theorem State.frcCmd_keeps (h : Keeps s t) : KeepsP s (State.frcCmd t a1 a2 a3) := by
  unfold State.frcCmd
  repeat' first
    | intro _ | extract_lets
    | with_reducible first | assumption | apply State.frcReset_keeps | apply State.onFrc_keeps | apply State.frcStep_keeps | apply keeps_ite
         | apply foldl_keeps | apply keepsP_ite | apply keepsP_dite
    | split

theorem State.frcApply_keeps (h : Keeps s t) : Keeps s (State.frcApply t a1 a2) := by
  unfold State.frcApply
  repeat' first
    | intro _ | extract_lets
    | with_reducible first | assumption | apply State.setBit_keeps | apply State.onFrc_keeps | apply State.frcCmd_keeps | apply State.finish_keeps
         | apply keeps_ite | apply keeps_dite | apply foldl_keeps
    | split

theorem State.frcEdge_keeps (h : Keeps s t) : Keeps s (State.frcEdge t a1) := by
  unfold State.frcEdge
  repeat' first
    | intro _ | extract_lets
    | with_reducible first | assumption | apply State.frcApply_keeps | apply State.onFrc_keeps | apply State.setOfs_keeps
         | apply State.autoReset_keeps | apply State.frcStep_keeps | apply State.setBit_keeps | apply keeps_ite | apply keeps_dite | apply foldl_keeps
    | split

theorem State.frcClock_keeps (h : Keeps s t) : Keeps s (State.frcClock t) := by
  unfold State.frcClock
  repeat' first
    | intro _ | extract_lets
    | with_reducible first | assumption | apply State.setBit_keeps | apply keeps_ite | apply keeps_dite | apply foldl_keeps
         | refine keepsP_snd (by assumption) ?_
                            | refine keepsP_snd2 (by assumption) ?_ | apply Keeps.parts
    | split | simp only [keeps_mk] | dsimp only | simp +zetaDelta only [keeps_mk]

theorem State.frcStart_keeps (h : Keeps s t) : Keeps s (State.frcStart t a1) := by
  unfold State.frcStart
  repeat' first
    | intro _ | extract_lets
    | with_reducible first | assumption | apply State.setFld_keeps | apply State.wr_keeps | apply State.onFrc_keeps

theorem execAutoReset_keeps (h : Keeps s t) : KeepsO s (execAutoReset a1 t) := by
  unfold execAutoReset
  repeat' first
    | with_reducible assumption | with_reducible exact Nat.le_refl _ | with_reducible exact List.length_filter_le _ _ | with_reducible exact rfl | intro _ | extract_lets
    | with_reducible first | apply State.awake_keeps | apply State.autoReset_keeps | apply keeps_ite | apply foldl_keeps | apply keepsO_ite | apply keepsO_next
    | split
    | with_reducible refine keepsP_snd (by assumption) ?_ | with_reducible refine keepsP_snd2 (by assumption) ?_
    | with_reducible apply Keeps.parts | simp only [keeps_mk]
    | dsimp only | simp +zetaDelta only [keeps_mk] | dsimp +zetaDelta only

theorem execTouchRelease_keeps (h : Keeps s t) : KeepsO s (execTouchRelease a1 t) := by
  unfold execTouchRelease
  repeat' first
    | with_reducible assumption | with_reducible exact Nat.le_refl _ | with_reducible exact List.length_filter_le _ _ | with_reducible exact rfl | intro _ | extract_lets
    | with_reducible first | apply State.awake_keeps | apply State.touchOff_keeps | apply keeps_ite | apply foldl_keeps | apply keepsO_ite | apply keepsO_next
    | split
    | with_reducible refine keepsP_snd (by assumption) ?_ | with_reducible refine keepsP_snd2 (by assumption) ?_
    | with_reducible apply Keeps.parts | simp only [keeps_mk]
    | dsimp only | simp +zetaDelta only [keeps_mk] | dsimp +zetaDelta only

theorem execForceReset_keeps (h : Keeps s t) : KeepsO s (execForceReset a1 a2 a3 t) := by
  unfold execForceReset
  repeat' first
    | with_reducible assumption | with_reducible exact Nat.le_refl _ | with_reducible exact List.length_filter_le _ _ | with_reducible exact rfl | intro _ | extract_lets
    | with_reducible first | apply State.awake_keeps | apply State.frcApply_keeps | apply keeps_ite | apply foldl_keeps | apply keepsO_ite | apply keepsO_next
    | split
    | with_reducible refine keepsP_snd (by assumption) ?_ | with_reducible refine keepsP_snd2 (by assumption) ?_
    | with_reducible apply Keeps.parts | simp only [keeps_mk]
    | dsimp only | simp +zetaDelta only [keeps_mk] | dsimp +zetaDelta only

theorem execForceRange_keeps (h : Keeps s t) : KeepsO s (execForceRange a1 a2 a3 t) := by
  unfold execForceRange
  repeat' first
    | with_reducible assumption | with_reducible exact Nat.le_refl _ | with_reducible exact List.length_filter_le _ _ | with_reducible exact rfl | intro _ | extract_lets
    | with_reducible first | apply State.awake_keeps | apply State.frcApply_keeps | apply keeps_ite | apply foldl_keeps | apply keepsO_ite | apply keepsO_next
    | split
    | with_reducible refine keepsP_snd (by assumption) ?_ | with_reducible refine keepsP_snd2 (by assumption) ?_
    | with_reducible apply Keeps.parts | simp only [keeps_mk]
    | dsimp only | simp +zetaDelta only [keeps_mk] | dsimp +zetaDelta only

end Sys2Proof.Machine
end

