-- ==== Sys2Proof/Laws/KeepsPeople.lean ====
section
/-! SUPPORT. Every operation of Machine/People.lean keeps what `Keeps` says. -/

namespace Sys2Proof.Machine

theorem State.onPpl_keeps (h : Keeps s t) : Keeps s (State.onPpl t a1 a2) := by
  unfold State.onPpl
  repeat' first
    | intro _ | extract_lets
    | with_reducible first | assumption | apply State.onAx_keeps

theorem State.forceExit_keeps (h : Keeps s t) : Keeps s (State.forceExit t a1 a2) := by
  unfold State.forceExit
  repeat' first
    | intro _ | extract_lets
    | with_reducible first | assumption | apply State.setBit_keeps | apply State.setFld_keeps | apply State.flag_keeps | apply State.log_keeps
         | apply keeps_ite

theorem State.yieldStep_keeps (h : Keeps s t) : Keeps s (State.yieldStep t a1 a2 a3 a4) := by
  unfold State.yieldStep
  repeat' first
    | intro _ | extract_lets
    | with_reducible first | assumption | apply State.setBit_keeps | apply State.onPpl_keeps

theorem State.yieldModel_keeps (h : Keeps s t) : Keeps s (State.yieldModel t a1) := by
  unfold State.yieldModel
  repeat' first
    | intro _ | extract_lets
    | with_reducible first | assumption | apply State.yieldStep_keeps | apply State.forceExit_keeps | apply State.onPpl_keeps | apply State.flag_keeps
         | apply State.wrI_keeps | apply keeps_ite

theorem State.enableExit_keeps (h : Keeps s t) : Keeps s (State.enableExit t a1) := by
  unfold State.enableExit
  repeat' first
    | with_reducible assumption | with_reducible exact Nat.le_refl _ | with_reducible exact List.length_filter_le _ _ | with_reducible exact rfl | intro _ | extract_lets
    | with_reducible first | apply State.forceExit_keeps | apply keeps_ite | apply keeps_dite | apply foldl_keeps
    | split
    | with_reducible refine keepsP_snd (by assumption) ?_ | with_reducible refine keepsP_snd2 (by assumption) ?_
    | with_reducible apply Keeps.parts | simp only [keeps_mk]
    | dsimp only | simp +zetaDelta only [keeps_mk] | dsimp +zetaDelta only

theorem State.yieldEdge_keeps (h : Keeps s t) : Keeps s (State.yieldEdge t a1 a2) := by
  unfold State.yieldEdge
  repeat' first
    | intro _ | extract_lets
    | with_reducible first | assumption | apply State.forceExit_keeps | apply State.onPpl_keeps | apply State.enterStill_keeps
         | apply State.setBit_keeps | apply State.onMot_keeps | apply keeps_ite

theorem State.cmdYieldEnter_keeps (h : Keeps s t) : KeepsP s (State.cmdYieldEnter t a1 a2) := by
  unfold State.cmdYieldEnter
  repeat' first
    | intro _ | extract_lets
    | with_reducible first | assumption | apply State.onPpl_keeps | apply State.onMot_keeps | apply State.setSt_keeps | apply State.setBit_keeps
         | apply keeps_ite | apply foldl_keeps | apply keepsP_ite

theorem State.cmdYieldExit_keeps (h : Keeps s t) : KeepsP s (State.cmdYieldExit t a1 a2) := by
  unfold State.cmdYieldExit
  repeat' first
    | intro _ | extract_lets
    | with_reducible first | assumption | apply State.setBit_keeps | apply keeps_ite | apply foldl_keeps | apply keepsP_ite

theorem State.touchAct_keeps (h : Keeps s t) : Keeps s (State.touchAct t a1) := by
  unfold State.touchAct
  repeat' first
    | intro _ | extract_lets
    | with_reducible first | assumption | apply State.forceExit_keeps | apply State.onPpl_keeps | apply State.classStop_keeps | apply keeps_ite
         | apply keeps_dite | apply foldl_keeps
    | split

theorem State.touchEdge_keeps (h : Keeps s t) : Keeps s (State.touchEdge t a1) := by
  unfold State.touchEdge
  repeat' first
    | intro _ | extract_lets
    | with_reducible first | assumption | apply State.onFrc_keeps | apply State.touchAct_keeps | apply overList_keeps | apply keeps_ite
         | apply keeps_dite | apply foldl_keeps
    | split

theorem State.retract_keeps (h : Keeps s t) : Keeps s (State.retract t a1) := by
  unfold State.retract
  repeat' first
    | intro _ | extract_lets
    | with_reducible first | assumption | apply State.onPpl_keeps | apply State.startMove_keeps | apply keeps_ite | apply keeps_dite
         | apply foldl_keeps
    | split

theorem State.retractEdge_keeps (h : Keeps s t) : Keeps s (State.retractEdge t a1) := by
  unfold State.retractEdge
  repeat' first
    | intro _ | extract_lets
    | with_reducible first | assumption | apply State.retract_keeps | apply State.onPpl_keeps

theorem State.probeTick_keeps (h : Keeps s t) : Keeps s (State.probeTick t a1) := by
  unfold State.probeTick
  repeat' first
    | with_reducible assumption | with_reducible exact Nat.le_refl _ | with_reducible exact List.length_filter_le _ _ | with_reducible exact rfl | intro _ | extract_lets
    | with_reducible first | apply State.onPpl_keeps | apply keeps_ite | apply keeps_dite | apply foldl_keeps
    | split
    | with_reducible refine keepsP_snd (by assumption) ?_ | with_reducible refine keepsP_snd2 (by assumption) ?_
    | with_reducible apply Keeps.parts | simp only [keeps_mk]
    | dsimp only | simp +zetaDelta only [keeps_mk] | dsimp +zetaDelta only

theorem State.contProbe_keeps (h : Keeps s t) : Keeps s (State.contProbe t a1 a2 a3) := by
  unfold State.contProbe
  repeat' first
    | intro _ | extract_lets
    | with_reducible first | assumption | apply State.setBit_keeps | apply State.onPpl_keeps | apply keeps_ite

theorem State.unplugNow_keeps (h : Keeps s t) : Keeps s (State.unplugNow t a1 a2 a3) := by
  unfold State.unplugNow
  repeat' first
    | with_reducible assumption | with_reducible exact Nat.le_refl _ | with_reducible exact List.length_filter_le _ _ | with_reducible exact rfl | intro _ | extract_lets
    | with_reducible first | apply State.onMot_keeps | apply State.enterStill_keeps | apply State.life_keeps | apply State.bump_keeps | apply State.flag_keeps | apply State.log_keeps | apply State.onPpl_keeps | apply State.setBit_keeps | apply State.setSbl_keeps | apply overList_keeps | apply keeps_ite | apply keeps_dite | apply foldl_keeps
    | split
    | with_reducible refine keepsP_snd (by assumption) ?_ | with_reducible refine keepsP_snd2 (by assumption) ?_
    | with_reducible apply Keeps.parts | simp only [keeps_mk]
    | dsimp only | simp +zetaDelta only [keeps_mk] | dsimp +zetaDelta only

theorem State.unplugEdge_keeps (h : Keeps s t) : Keeps s (State.unplugEdge t a1) := by
  unfold State.unplugEdge
  repeat' first
    | intro _ | extract_lets
    | with_reducible first | assumption | apply State.unplugNow_keeps | apply keeps_ite

theorem State.identStart_keeps (h : Keeps s t) : Keeps s (State.identStart t a1 a2) := by
  unfold State.identStart
  repeat' first
    | intro _ | extract_lets
    | with_reducible first | assumption | apply State.onPpl_keeps | apply State.setFld_keeps | apply State.setSt_keeps

theorem State.replugEdge_keeps (h : Keeps s t) : Keeps s (State.replugEdge t a1) := by
  unfold State.replugEdge
  repeat' first
    | intro _ | extract_lets
    | with_reducible first | assumption | apply State.onPpl_keeps | apply State.flag_keeps | apply State.log_keeps | apply State.identStart_keeps
         | apply State.enterStill_keeps | apply keeps_ite

theorem State.hotPlugOff_keeps (h : Keeps s t) : Keeps s (State.hotPlugOff t a1) := by
  unfold State.hotPlugOff
  repeat' first
    | with_reducible assumption | with_reducible exact Nat.le_refl _ | with_reducible exact List.length_filter_le _ _ | with_reducible exact rfl | intro _ | extract_lets
    | with_reducible first | apply State.onPpl_keeps | apply State.enterStill_keeps | apply keeps_ite | apply keeps_dite | apply foldl_keeps
    | split
    | with_reducible refine keepsP_snd (by assumption) ?_ | with_reducible refine keepsP_snd2 (by assumption) ?_
    | with_reducible apply Keeps.parts | simp only [keeps_mk]
    | dsimp only | simp +zetaDelta only [keeps_mk] | dsimp +zetaDelta only

theorem State.plugEdge_keeps (h : Keeps s t) : Keeps s (State.plugEdge t a1) := by
  unfold State.plugEdge
  repeat' first
    | intro _ | extract_lets
    | with_reducible first | assumption | apply State.onPpl_keeps | apply State.hotPlugOff_keeps | apply State.replugEdge_keeps
         | apply State.unplugEdge_keeps | apply keeps_ite

theorem State.cmdIdentify_keeps (h : Keeps s t) : KeepsP s (State.cmdIdentify t a1 a2) := by
  unfold State.cmdIdentify
  repeat' first
    | intro _ | extract_lets
    | with_reducible first | assumption | apply State.identStart_keeps | apply keeps_ite | apply foldl_keeps | apply keepsP_ite

theorem State.probeDuty_keeps (h : Keeps s t) : Keeps s (State.probeDuty t a1 a2 a3) := by
  unfold State.probeDuty
  repeat' first
    | intro _ | extract_lets
    | with_reducible first | assumption | apply State.onUnit_keeps | apply overList_keeps

theorem State.identEdge_keeps (h : Keeps s t) : Keeps s (State.identEdge t a1) := by
  unfold State.identEdge
  repeat' first
    | intro _ | extract_lets
    | with_reducible first | assumption | apply State.onUnit_keeps | apply State.onPpl_keeps | apply State.probeDuty_keeps | apply State.free_keeps
         | apply overList_keeps | apply keeps_ite

theorem State.identTrip_keeps (h : Keeps s t) : Keeps s (State.identTrip t a1) := by
  unfold State.identTrip
  repeat' first
    | intro _ | extract_lets
    | with_reducible first | assumption | apply State.enterStill_keeps | apply State.setFld_keeps | apply keeps_ite

theorem State.identDone_keeps (h : Keeps s t) : Keeps s (State.identDone t a1 a2 a3) := by
  unfold State.identDone
  repeat' first
    | with_reducible assumption | with_reducible exact Nat.le_refl _ | with_reducible exact List.length_filter_le _ _ | with_reducible exact rfl | intro _ | extract_lets
    | with_reducible first | apply State.onMot_keeps | apply State.wr_keeps | apply State.setFld_keeps | apply State.setBit_keeps | apply State.setTrk_keeps | apply State.setDet_keeps | apply State.trkSeed_keeps | apply State.log_keeps | apply State.onPpl_keeps | apply overList_keeps | apply keeps_ite | apply keeps_dite | apply foldl_keeps
    | split
    | with_reducible refine keepsP_snd (by assumption) ?_ | with_reducible refine keepsP_snd2 (by assumption) ?_
    | with_reducible apply Keeps.parts | simp only [keeps_mk]
    | dsimp only | simp +zetaDelta only [keeps_mk] | dsimp +zetaDelta only

theorem State.fpCmd_keeps (h : Keeps s t) : KeepsP s (State.fpCmd t a1 a2 a3) := by
  unfold State.fpCmd
  repeat' first
    | intro _ | extract_lets
    | with_reducible first | assumption | apply State.wr_keeps | apply State.setBit_keeps | apply keeps_ite | apply foldl_keeps | apply keepsP_ite
         | apply keepsP_dite
    | split

theorem State.fpCommand_keeps (h : Keeps s t) : Keeps s (State.fpCommand t a1 a2 a3 a4) := by
  unfold State.fpCommand
  repeat' first
    | intro _ | extract_lets
    | with_reducible first | assumption | apply State.fpCmd_keeps | apply State.finish_keeps

theorem execTouchSet_keeps (h : Keeps s t) : KeepsO s (execTouchSet a1 t) := by
  unfold execTouchSet
  repeat' first
    | with_reducible assumption | with_reducible exact Nat.le_refl _ | with_reducible exact List.length_filter_le _ _ | with_reducible exact rfl | intro _ | extract_lets
    | with_reducible first | apply State.awake_keeps | apply State.touchSetOn_keeps | apply keeps_ite | apply foldl_keeps | apply keepsO_ite | apply keepsO_next
    | split
    | with_reducible refine keepsP_snd (by assumption) ?_ | with_reducible refine keepsP_snd2 (by assumption) ?_
    | with_reducible apply Keeps.parts | simp only [keeps_mk]
    | dsimp only | simp +zetaDelta only [keeps_mk] | dsimp +zetaDelta only

theorem execYieldModel_keeps (h : Keeps s t) : KeepsO s (execYieldModel a1 t) := by
  unfold execYieldModel
  repeat' first
    | with_reducible assumption | with_reducible exact Nat.le_refl _ | with_reducible exact List.length_filter_le _ _ | with_reducible exact rfl | intro _ | extract_lets
    | with_reducible first | apply State.working_keeps | apply State.yieldModel_keeps | apply keeps_ite | apply foldl_keeps | apply keepsO_ite | apply keepsO_next
    | split
    | with_reducible refine keepsP_snd (by assumption) ?_ | with_reducible refine keepsP_snd2 (by assumption) ?_
    | with_reducible apply Keeps.parts | simp only [keeps_mk]
    | dsimp only | simp +zetaDelta only [keeps_mk] | dsimp +zetaDelta only

theorem execTouchRetract_keeps (h : Keeps s t) : KeepsO s (execTouchRetract a1 t) := by
  unfold execTouchRetract
  repeat' first
    | with_reducible assumption | with_reducible exact Nat.le_refl _ | with_reducible exact List.length_filter_le _ _ | with_reducible exact rfl | intro _ | extract_lets
    | with_reducible first | apply State.awake_keeps | apply State.retract_keeps | apply keeps_ite | apply foldl_keeps | apply keepsO_ite | apply keepsO_next
    | split
    | with_reducible refine keepsP_snd (by assumption) ?_ | with_reducible refine keepsP_snd2 (by assumption) ?_
    | with_reducible apply Keeps.parts | simp only [keeps_mk]
    | dsimp only | simp +zetaDelta only [keeps_mk] | dsimp +zetaDelta only

theorem execContinuityProbe_keeps (h : Keeps s t) : KeepsO s (execContinuityProbe a1 a2 a3 t) := by
  unfold execContinuityProbe
  repeat' first
    | with_reducible assumption | with_reducible exact Nat.le_refl _ | with_reducible exact List.length_filter_le _ _ | with_reducible exact rfl | intro _ | extract_lets
    | with_reducible first | apply State.awake_keeps | apply State.contProbe_keeps | apply keeps_ite | apply foldl_keeps | apply keepsO_ite | apply keepsO_next
    | split
    | with_reducible refine keepsP_snd (by assumption) ?_ | with_reducible refine keepsP_snd2 (by assumption) ?_
    | with_reducible apply Keeps.parts | simp only [keeps_mk]
    | dsimp only | simp +zetaDelta only [keeps_mk] | dsimp +zetaDelta only

theorem execUnplug_keeps (h : Keeps s t) : KeepsO s (execUnplug a1 t) := by
  unfold execUnplug
  repeat' first
    | with_reducible assumption | with_reducible exact Nat.le_refl _ | with_reducible exact List.length_filter_le _ _ | with_reducible exact rfl | intro _ | extract_lets
    | with_reducible first | apply State.awake_keeps | apply State.withOuts_keeps | apply State.unplugEdge_keeps | apply keeps_ite | apply foldl_keeps | apply keepsO_ite | apply keepsO_next
    | split
    | with_reducible refine keepsP_snd (by assumption) ?_ | with_reducible refine keepsP_snd2 (by assumption) ?_
    | with_reducible apply Keeps.parts | simp only [keeps_mk]
    | dsimp only | simp +zetaDelta only [keeps_mk] | dsimp +zetaDelta only

theorem execReplug_keeps (h : Keeps s t) : KeepsO s (execReplug a1 t) := by
  unfold execReplug
  repeat' first
    | with_reducible assumption | with_reducible exact Nat.le_refl _ | with_reducible exact List.length_filter_le _ _ | with_reducible exact rfl | intro _ | extract_lets
    | with_reducible first | apply State.awake_keeps | apply State.withOuts_keeps | apply State.replugEdge_keeps | apply keeps_ite | apply foldl_keeps | apply keepsO_ite | apply keepsO_next
    | split
    | with_reducible refine keepsP_snd (by assumption) ?_ | with_reducible refine keepsP_snd2 (by assumption) ?_
    | with_reducible apply Keeps.parts | simp only [keeps_mk]
    | dsimp only | simp +zetaDelta only [keeps_mk] | dsimp +zetaDelta only

theorem execHotplugDisable_keeps (h : Keeps s t) : KeepsO s (execHotplugDisable a1 t) := by
  unfold execHotplugDisable
  repeat' first
    | with_reducible assumption | with_reducible exact Nat.le_refl _ | with_reducible exact List.length_filter_le _ _ | with_reducible exact rfl | intro _ | extract_lets
    | with_reducible first | apply State.awake_keeps | apply State.withOuts_keeps | apply State.hotPlugOff_keeps | apply keeps_ite | apply foldl_keeps | apply keepsO_ite | apply keepsO_next
    | split
    | with_reducible refine keepsP_snd (by assumption) ?_ | with_reducible refine keepsP_snd2 (by assumption) ?_
    | with_reducible apply Keeps.parts | simp only [keeps_mk]
    | dsimp only | simp +zetaDelta only [keeps_mk] | dsimp +zetaDelta only

theorem execIdentifyComplete_keeps (h : Keeps s t) : KeepsO s (execIdentifyComplete a1 a2 a3 t) := by
  unfold execIdentifyComplete
  repeat' first
    | with_reducible assumption | with_reducible exact Nat.le_refl _ | with_reducible exact List.length_filter_le _ _ | with_reducible exact rfl | intro _ | extract_lets
    | with_reducible first | apply State.awake_keeps | apply State.identDone_keeps | apply keeps_ite | apply foldl_keeps | apply keepsO_ite | apply keepsO_next
    | split
    | with_reducible refine keepsP_snd (by assumption) ?_ | with_reducible refine keepsP_snd2 (by assumption) ?_
    | with_reducible apply Keeps.parts | simp only [keeps_mk]
    | dsimp only | simp +zetaDelta only [keeps_mk] | dsimp +zetaDelta only

theorem execAcceptMotor_keeps (h : Keeps s t) : KeepsO s (execAcceptMotor a1 a2 a3 t) := by
  unfold execAcceptMotor
  repeat' first
    | with_reducible assumption | with_reducible exact Nat.le_refl _ | with_reducible exact List.length_filter_le _ _ | with_reducible exact rfl | intro _ | extract_lets
    | with_reducible first | apply State.awake_keeps | apply State.fpCommand_keeps | apply keeps_ite | apply foldl_keeps | apply keepsO_ite | apply keepsO_next
    | split
    | with_reducible refine keepsP_snd (by assumption) ?_ | with_reducible refine keepsP_snd2 (by assumption) ?_
    | with_reducible apply Keeps.parts | simp only [keeps_mk]
    | dsimp only | simp +zetaDelta only [keeps_mk] | dsimp +zetaDelta only

theorem execClrcnt_keeps (h : Keeps s t) : KeepsO s (execClrcnt a1 a2 a3 t) := by
  unfold execClrcnt
  repeat' first
    | with_reducible assumption | with_reducible exact Nat.le_refl _ | with_reducible exact List.length_filter_le _ _ | with_reducible exact rfl | intro _ | extract_lets
    | with_reducible first | apply State.awake_keeps | apply State.fpCommand_keeps | apply keeps_ite | apply foldl_keeps | apply keepsO_ite | apply keepsO_next
    | split
    | with_reducible refine keepsP_snd (by assumption) ?_ | with_reducible refine keepsP_snd2 (by assumption) ?_
    | with_reducible apply Keeps.parts | simp only [keeps_mk]
    | dsimp only | simp +zetaDelta only [keeps_mk] | dsimp +zetaDelta only

end Sys2Proof.Machine
end

