-- ==== Sys2Proof/Laws/KeepsAxisCmds.lean ====
section
/-! SUPPORT. Every operation of Machine/AxisCmds.lean keeps what `Keeps` says. -/

namespace Sys2Proof.Machine

theorem State.cmdEnergize_keeps (h : Keeps s t) : KeepsP s (State.cmdEnergize t a1 a2) := by
  unfold State.cmdEnergize
  repeat' first
    | intro _ | extract_lets
    | with_reducible first | assumption | apply State.setSt_keeps | apply State.obsEnergize_keeps | apply State.startLoop_keeps | apply keeps_ite
         | apply foldl_keeps | apply keepsP_ite | apply keepsP_dite
    | split

theorem State.cmdMute_keeps (h : Keeps s t) : KeepsP s (State.cmdMute t a1 a2) := by
  unfold State.cmdMute
  repeat' first
    | intro _ | extract_lets
    | with_reducible first | assumption | apply State.enterStill_keeps | apply keeps_ite | apply foldl_keeps | apply keepsP_ite | apply keepsP_dite
    | split

theorem State.moveTo_keeps (h : Keeps s t) : KeepsP s (State.moveTo t a1 a2) := by
  unfold State.moveTo
  repeat' first
    | intro _ | extract_lets
    | with_reducible first | assumption | apply State.startMove_keeps | apply keeps_ite | apply foldl_keeps | apply keepsP_ite

theorem State.cmdMoveAbs_keeps (h : Keeps s t) : KeepsP s (State.cmdMoveAbs t a1 a2) := by
  unfold State.cmdMoveAbs
  repeat' first
    | intro _ | extract_lets
    | with_reducible first | assumption | apply State.moveTo_keeps | apply keeps_ite | apply foldl_keeps | apply keepsP_ite | apply keepsP_dite
    | split

theorem State.cmdMoveRel_keeps (h : Keeps s t) : KeepsP s (State.cmdMoveRel t a1 a2) := by
  unfold State.cmdMoveRel
  repeat' first
    | intro _ | extract_lets
    | with_reducible first | assumption | apply State.moveTo_keeps | apply keeps_ite | apply foldl_keeps | apply keepsP_ite

theorem State.cmdJog_keeps (h : Keeps s t) : KeepsP s (State.cmdJog t a1 a2) := by
  unfold State.cmdJog
  repeat' first
    | intro _ | extract_lets
    | with_reducible first | assumption | apply State.startJog_keeps | apply keeps_ite | apply foldl_keeps | apply keepsP_ite

theorem State.cmdFollowCyclic_keeps (h : Keeps s t) : KeepsP s (State.cmdFollowCyclic t a1 a2) := by
  unfold State.cmdFollowCyclic
  repeat' first
    | intro _ | extract_lets
    | with_reducible first | assumption | apply State.engage_keeps | apply keeps_ite | apply foldl_keeps | apply keepsP_ite

theorem State.cmdFollowStep_keeps (h : Keeps s t) : KeepsP s (State.cmdFollowStep t a1 a2) := by
  unfold State.cmdFollowStep
  repeat' first
    | intro _ | extract_lets
    | with_reducible first | assumption | apply State.engage_keeps | apply keeps_ite | apply foldl_keeps | apply keepsP_ite

theorem State.cmdGear_keeps (h : Keeps s t) : KeepsP s (State.cmdGear t a1 a2) := by
  unfold State.cmdGear
  repeat' first
    | intro _ | extract_lets
    | with_reducible first | assumption | apply State.engageTable_keeps | apply State.engage_keeps | apply keeps_ite | apply foldl_keeps
         | apply keepsP_ite

theorem State.cmdStop_keeps (h : Keeps s t) : KeepsP s (State.cmdStop t a1 a2) := by
  unfold State.cmdStop
  repeat' first
    | intro _ | extract_lets
    | with_reducible first | assumption | apply State.classStop_keeps | apply keeps_ite | apply foldl_keeps | apply keepsP_ite | apply keepsP_dite
    | split

theorem State.cmdResume_keeps (h : Keeps s t) : KeepsP s (State.cmdResume t a1 a2) := by
  unfold State.cmdResume
  repeat' first
    | intro _ | extract_lets
    | with_reducible first | assumption | apply State.startMove_keeps | apply keeps_ite | apply foldl_keeps | apply keepsP_ite

theorem State.cmdAbandon_keeps (h : Keeps s t) : KeepsP s (State.cmdAbandon t a1 a2) := by
  unfold State.cmdAbandon
  repeat' first
    | intro _ | extract_lets
    | with_reducible first | assumption | apply State.setSt_keeps | apply State.onMot_keeps | apply keeps_ite | apply foldl_keeps | apply keepsP_ite
         | apply keepsP_dite
    | split

theorem State.cmdHome_keeps (h : Keeps s t) : KeepsP s (State.cmdHome t a1 a2) := by
  unfold State.cmdHome
  repeat' first
    | intro _ | extract_lets
    | with_reducible first | assumption | apply State.homeStart_keeps | apply keeps_ite | apply foldl_keeps | apply keepsP_ite

theorem State.cmdClearFault_keeps (h : Keeps s t) : KeepsP s (State.cmdClearFault t a1 a2) := by
  unfold State.cmdClearFault
  repeat' first
    | intro _ | extract_lets
    | with_reducible first | assumption | apply State.enterStill_keeps | apply State.unlatch_keeps | apply overList_keeps | apply keeps_ite
         | apply foldl_keeps | apply keepsP_ite

theorem State.axisCmd_keeps (h : Keeps s t) : KeepsP s (State.axisCmd t a1 a2 a3) := by
  unfold State.axisCmd
  repeat' first
    | intro _ | extract_lets
    | with_reducible first | assumption | apply State.cmdEnergize_keeps | apply State.cmdMute_keeps | apply State.cmdMoveAbs_keeps
         | apply State.cmdMoveRel_keeps | apply State.cmdJog_keeps | apply State.cmdFollowCyclic_keeps | apply State.cmdFollowStep_keeps
         | apply State.cmdGear_keeps | apply State.cmdStop_keeps | apply State.cmdResume_keeps | apply State.cmdAbandon_keeps
         | apply State.cmdHome_keeps | apply State.cmdYieldEnter_keeps | apply State.cmdYieldExit_keeps | apply State.cmdIdentify_keeps
         | apply State.cmdClearFault_keeps | apply keeps_ite | apply foldl_keeps | apply keepsP_ite | apply keepsP_dite
    | split

theorem State.judged_keeps (h : Keeps s t) : Keeps s (State.judged t a1) := by
  unfold State.judged
  repeat' first
    | with_reducible first | assumption | apply State.takeSoft_keeps | apply State.onMot_keeps

theorem State.axisApply_keeps (h : Keeps s t) : Keeps s (State.axisApply t a1 a2) := by
  unfold State.axisApply
  extract_lets u
  have hu : Keeps s u := State.judged_keeps h
  split
  rename_i st v e
  refine State.finish_keeps ?_
  split at e
  · exact keepsP_snd e (State.axisCmd_keeps hu)
  · cases e; exact hu

theorem State.axisCmdEdge_keeps (h : Keeps s t) : Keeps s (State.axisCmdEdge t a1) := by
  unfold State.axisCmdEdge
  repeat' first
    | intro _ | extract_lets
    | with_reducible first | assumption | apply State.axisApply_keeps | apply keeps_ite | apply keeps_dite | apply foldl_keeps
    | split

theorem State.axisNow_keeps (h : Keeps s t) : Keeps s (State.axisNow t a1 a2) := by
  unfold State.axisNow
  repeat' first
    | with_reducible assumption | with_reducible exact Nat.le_refl _ | with_reducible exact List.length_filter_le _ _ | with_reducible exact rfl | intro _ | extract_lets
    | with_reducible first | apply State.withOuts_keeps | apply State.axisApply_keeps | apply keeps_ite | apply keeps_dite | apply foldl_keeps
    | split
    | with_reducible refine keepsP_snd (by assumption) ?_ | with_reducible refine keepsP_snd2 (by assumption) ?_
    | with_reducible apply Keeps.parts | simp only [keeps_mk]
    | dsimp only | simp +zetaDelta only [keeps_mk] | dsimp +zetaDelta only

theorem execEnergize_keeps (h : Keeps s t) : KeepsO s (execEnergize a1 a2 a3 t) := by
  unfold execEnergize
  repeat' first
    | with_reducible assumption | with_reducible exact Nat.le_refl _ | with_reducible exact List.length_filter_le _ _ | with_reducible exact rfl | intro _ | extract_lets
    | with_reducible first | apply State.awake_keeps | apply State.axisNow_keeps | apply keeps_ite | apply foldl_keeps | apply keepsO_ite | apply keepsO_next
    | split
    | with_reducible refine keepsP_snd (by assumption) ?_ | with_reducible refine keepsP_snd2 (by assumption) ?_
    | with_reducible apply Keeps.parts | simp only [keeps_mk]
    | dsimp only | simp +zetaDelta only [keeps_mk] | dsimp +zetaDelta only

theorem execMuteAxis_keeps (h : Keeps s t) : KeepsO s (execMuteAxis a1 a2 a3 t) := by
  unfold execMuteAxis
  repeat' first
    | with_reducible assumption | with_reducible exact Nat.le_refl _ | with_reducible exact List.length_filter_le _ _ | with_reducible exact rfl | intro _ | extract_lets
    | with_reducible first | apply State.awake_keeps | apply State.axisNow_keeps | apply keeps_ite | apply foldl_keeps | apply keepsO_ite | apply keepsO_next
    | split
    | with_reducible refine keepsP_snd (by assumption) ?_ | with_reducible refine keepsP_snd2 (by assumption) ?_
    | with_reducible apply Keeps.parts | simp only [keeps_mk]
    | dsimp only | simp +zetaDelta only [keeps_mk] | dsimp +zetaDelta only

theorem execMoveAbs_keeps (h : Keeps s t) : KeepsO s (execMoveAbs a1 a2 a3 t) := by
  unfold execMoveAbs
  repeat' first
    | with_reducible assumption | with_reducible exact Nat.le_refl _ | with_reducible exact List.length_filter_le _ _ | with_reducible exact rfl | intro _ | extract_lets
    | with_reducible first | apply State.awake_keeps | apply State.axisNow_keeps | apply keeps_ite | apply foldl_keeps | apply keepsO_ite | apply keepsO_next
    | split
    | with_reducible refine keepsP_snd (by assumption) ?_ | with_reducible refine keepsP_snd2 (by assumption) ?_
    | with_reducible apply Keeps.parts | simp only [keeps_mk]
    | dsimp only | simp +zetaDelta only [keeps_mk] | dsimp +zetaDelta only

theorem execMoveRel_keeps (h : Keeps s t) : KeepsO s (execMoveRel a1 a2 a3 t) := by
  unfold execMoveRel
  repeat' first
    | with_reducible assumption | with_reducible exact Nat.le_refl _ | with_reducible exact List.length_filter_le _ _ | with_reducible exact rfl | intro _ | extract_lets
    | with_reducible first | apply State.awake_keeps | apply State.axisNow_keeps | apply keeps_ite | apply foldl_keeps | apply keepsO_ite | apply keepsO_next
    | split
    | with_reducible refine keepsP_snd (by assumption) ?_ | with_reducible refine keepsP_snd2 (by assumption) ?_
    | with_reducible apply Keeps.parts | simp only [keeps_mk]
    | dsimp only | simp +zetaDelta only [keeps_mk] | dsimp +zetaDelta only

theorem execJogVel_keeps (h : Keeps s t) : KeepsO s (execJogVel a1 a2 a3 t) := by
  unfold execJogVel
  repeat' first
    | with_reducible assumption | with_reducible exact Nat.le_refl _ | with_reducible exact List.length_filter_le _ _ | with_reducible exact rfl | intro _ | extract_lets
    | with_reducible first | apply State.awake_keeps | apply State.axisNow_keeps | apply keeps_ite | apply foldl_keeps | apply keepsO_ite | apply keepsO_next
    | split
    | with_reducible refine keepsP_snd (by assumption) ?_ | with_reducible refine keepsP_snd2 (by assumption) ?_
    | with_reducible apply Keeps.parts | simp only [keeps_mk]
    | dsimp only | simp +zetaDelta only [keeps_mk] | dsimp +zetaDelta only

theorem execFollowCyclic_keeps (h : Keeps s t) : KeepsO s (execFollowCyclic a1 a2 a3 t) := by
  unfold execFollowCyclic
  repeat' first
    | with_reducible assumption | with_reducible exact Nat.le_refl _ | with_reducible exact List.length_filter_le _ _ | with_reducible exact rfl | intro _ | extract_lets
    | with_reducible first | apply State.awake_keeps | apply State.axisNow_keeps | apply keeps_ite | apply foldl_keeps | apply keepsO_ite | apply keepsO_next
    | split
    | with_reducible refine keepsP_snd (by assumption) ?_ | with_reducible refine keepsP_snd2 (by assumption) ?_
    | with_reducible apply Keeps.parts | simp only [keeps_mk]
    | dsimp only | simp +zetaDelta only [keeps_mk] | dsimp +zetaDelta only

theorem execFollowStep_keeps (h : Keeps s t) : KeepsO s (execFollowStep a1 a2 a3 t) := by
  unfold execFollowStep
  repeat' first
    | with_reducible assumption | with_reducible exact Nat.le_refl _ | with_reducible exact List.length_filter_le _ _ | with_reducible exact rfl | intro _ | extract_lets
    | with_reducible first | apply State.awake_keeps | apply State.axisNow_keeps | apply keeps_ite | apply foldl_keeps | apply keepsO_ite | apply keepsO_next
    | split
    | with_reducible refine keepsP_snd (by assumption) ?_ | with_reducible refine keepsP_snd2 (by assumption) ?_
    | with_reducible apply Keeps.parts | simp only [keeps_mk]
    | dsimp only | simp +zetaDelta only [keeps_mk] | dsimp +zetaDelta only

theorem execGear_keeps (h : Keeps s t) : KeepsO s (execGear a1 a2 a3 t) := by
  unfold execGear
  repeat' first
    | with_reducible assumption | with_reducible exact Nat.le_refl _ | with_reducible exact List.length_filter_le _ _ | with_reducible exact rfl | intro _ | extract_lets
    | with_reducible first | apply State.awake_keeps | apply State.axisNow_keeps | apply keeps_ite | apply foldl_keeps | apply keepsO_ite | apply keepsO_next
    | split
    | with_reducible refine keepsP_snd (by assumption) ?_ | with_reducible refine keepsP_snd2 (by assumption) ?_
    | with_reducible apply Keeps.parts | simp only [keeps_mk]
    | dsimp only | simp +zetaDelta only [keeps_mk] | dsimp +zetaDelta only

theorem execStopAxis_keeps (h : Keeps s t) : KeepsO s (execStopAxis a1 a2 a3 t) := by
  unfold execStopAxis
  repeat' first
    | with_reducible assumption | with_reducible exact Nat.le_refl _ | with_reducible exact List.length_filter_le _ _ | with_reducible exact rfl | intro _ | extract_lets
    | with_reducible first | apply State.awake_keeps | apply State.axisNow_keeps | apply keeps_ite | apply foldl_keeps | apply keepsO_ite | apply keepsO_next
    | split
    | with_reducible refine keepsP_snd (by assumption) ?_ | with_reducible refine keepsP_snd2 (by assumption) ?_
    | with_reducible apply Keeps.parts | simp only [keeps_mk]
    | dsimp only | simp +zetaDelta only [keeps_mk] | dsimp +zetaDelta only

theorem execResumeMove_keeps (h : Keeps s t) : KeepsO s (execResumeMove a1 a2 a3 t) := by
  unfold execResumeMove
  repeat' first
    | with_reducible assumption | with_reducible exact Nat.le_refl _ | with_reducible exact List.length_filter_le _ _ | with_reducible exact rfl | intro _ | extract_lets
    | with_reducible first | apply State.awake_keeps | apply State.axisNow_keeps | apply keeps_ite | apply foldl_keeps | apply keepsO_ite | apply keepsO_next
    | split
    | with_reducible refine keepsP_snd (by assumption) ?_ | with_reducible refine keepsP_snd2 (by assumption) ?_
    | with_reducible apply Keeps.parts | simp only [keeps_mk]
    | dsimp only | simp +zetaDelta only [keeps_mk] | dsimp +zetaDelta only

theorem execAbandonRem_keeps (h : Keeps s t) : KeepsO s (execAbandonRem a1 a2 a3 t) := by
  unfold execAbandonRem
  repeat' first
    | with_reducible assumption | with_reducible exact Nat.le_refl _ | with_reducible exact List.length_filter_le _ _ | with_reducible exact rfl | intro _ | extract_lets
    | with_reducible first | apply State.awake_keeps | apply State.axisNow_keeps | apply keeps_ite | apply foldl_keeps | apply keepsO_ite | apply keepsO_next
    | split
    | with_reducible refine keepsP_snd (by assumption) ?_ | with_reducible refine keepsP_snd2 (by assumption) ?_
    | with_reducible apply Keeps.parts | simp only [keeps_mk]
    | dsimp only | simp +zetaDelta only [keeps_mk] | dsimp +zetaDelta only

theorem execHomeAxis_keeps (h : Keeps s t) : KeepsO s (execHomeAxis a1 a2 a3 t) := by
  unfold execHomeAxis
  repeat' first
    | with_reducible assumption | with_reducible exact Nat.le_refl _ | with_reducible exact List.length_filter_le _ _ | with_reducible exact rfl | intro _ | extract_lets
    | with_reducible first | apply State.awake_keeps | apply State.axisNow_keeps | apply keeps_ite | apply foldl_keeps | apply keepsO_ite | apply keepsO_next
    | split
    | with_reducible refine keepsP_snd (by assumption) ?_ | with_reducible refine keepsP_snd2 (by assumption) ?_
    | with_reducible apply Keeps.parts | simp only [keeps_mk]
    | dsimp only | simp +zetaDelta only [keeps_mk] | dsimp +zetaDelta only

theorem execYieldEnter_keeps (h : Keeps s t) : KeepsO s (execYieldEnter a1 a2 a3 t) := by
  unfold execYieldEnter
  repeat' first
    | with_reducible assumption | with_reducible exact Nat.le_refl _ | with_reducible exact List.length_filter_le _ _ | with_reducible exact rfl | intro _ | extract_lets
    | with_reducible first | apply State.awake_keeps | apply State.axisNow_keeps | apply keeps_ite | apply foldl_keeps | apply keepsO_ite | apply keepsO_next
    | split
    | with_reducible refine keepsP_snd (by assumption) ?_ | with_reducible refine keepsP_snd2 (by assumption) ?_
    | with_reducible apply Keeps.parts | simp only [keeps_mk]
    | dsimp only | simp +zetaDelta only [keeps_mk] | dsimp +zetaDelta only

theorem execYieldExit_keeps (h : Keeps s t) : KeepsO s (execYieldExit a1 a2 a3 t) := by
  unfold execYieldExit
  repeat' first
    | with_reducible assumption | with_reducible exact Nat.le_refl _ | with_reducible exact List.length_filter_le _ _ | with_reducible exact rfl | intro _ | extract_lets
    | with_reducible first | apply State.awake_keeps | apply State.axisNow_keeps | apply keeps_ite | apply foldl_keeps | apply keepsO_ite | apply keepsO_next
    | split
    | with_reducible refine keepsP_snd (by assumption) ?_ | with_reducible refine keepsP_snd2 (by assumption) ?_
    | with_reducible apply Keeps.parts | simp only [keeps_mk]
    | dsimp only | simp +zetaDelta only [keeps_mk] | dsimp +zetaDelta only

theorem execIdentifyAxis_keeps (h : Keeps s t) : KeepsO s (execIdentifyAxis a1 a2 a3 t) := by
  unfold execIdentifyAxis
  repeat' first
    | with_reducible assumption | with_reducible exact Nat.le_refl _ | with_reducible exact List.length_filter_le _ _ | with_reducible exact rfl | intro _ | extract_lets
    | with_reducible first | apply State.awake_keeps | apply State.axisNow_keeps | apply keeps_ite | apply foldl_keeps | apply keepsO_ite | apply keepsO_next
    | split
    | with_reducible refine keepsP_snd (by assumption) ?_ | with_reducible refine keepsP_snd2 (by assumption) ?_
    | with_reducible apply Keeps.parts | simp only [keeps_mk]
    | dsimp only | simp +zetaDelta only [keeps_mk] | dsimp +zetaDelta only

theorem execClearFault_keeps (h : Keeps s t) : KeepsO s (execClearFault a1 a2 a3 t) := by
  unfold execClearFault
  repeat' first
    | with_reducible assumption | with_reducible exact Nat.le_refl _ | with_reducible exact List.length_filter_le _ _ | with_reducible exact rfl | intro _ | extract_lets
    | with_reducible first | apply State.awake_keeps | apply State.axisNow_keeps | apply keeps_ite | apply foldl_keeps | apply keepsO_ite | apply keepsO_next
    | split
    | with_reducible refine keepsP_snd (by assumption) ?_ | with_reducible refine keepsP_snd2 (by assumption) ?_
    | with_reducible apply Keeps.parts | simp only [keeps_mk]
    | dsimp only | simp +zetaDelta only [keeps_mk] | dsimp +zetaDelta only

end Sys2Proof.Machine
end

