-- ==== Sys2Proof/Laws/KeepsPorts.lean ====
section
/-! SUPPORT. Every operation of Machine/Ports.lean keeps what `Keeps` says. -/

namespace Sys2Proof.Machine

theorem State.onExc_keeps (h : Keeps s t) : Keeps s (State.onExc t a1 a2) := by
  unfold State.onExc
  repeat' first
    | intro _ | extract_lets
    | with_reducible first | assumption | apply keeps_ite | apply keeps_dite | apply foldl_keeps | refine keepsP_snd (by assumption) ?_
                            | refine keepsP_snd2 (by assumption) ?_ | apply Keeps.parts
    | split | simp only [keeps_mk]

theorem State.onPort_keeps (h : Keeps s t) : Keeps s (State.onPort t a1 a2) := by
  unfold State.onPort
  repeat' first
    | intro _ | extract_lets
    | with_reducible first | assumption | apply keeps_ite | apply keeps_dite | apply foldl_keeps | refine keepsP_snd (by assumption) ?_
                            | refine keepsP_snd2 (by assumption) ?_ | apply Keeps.parts
    | split | simp only [keeps_mk]

theorem State.excStart_keeps (h : Keeps s t) : Keeps s (State.excStart t a1) := by
  unfold State.excStart
  repeat' first
    | intro _ | extract_lets
    | with_reducible first | assumption | apply State.onExc_keeps | apply State.onPort_keeps | apply State.wr_keeps | apply State.setBit_keeps
         | apply overList_keeps | apply keeps_ite

theorem State.excStop_keeps (h : Keeps s t) : Keeps s (State.excStop t a1) := by
  unfold State.excStop
  repeat' first
    | intro _ | extract_lets
    | with_reducible first | assumption | apply State.setBit_keeps | apply State.onExc_keeps

theorem State.spoil_keeps (h : Keeps s t) : Keeps s (State.spoil t a1 a2 a3) := by
  unfold State.spoil
  repeat' first
    | intro _ | extract_lets
    | with_reducible first | assumption | apply State.onPort_keeps | apply State.setBit_keeps | apply keeps_ite

theorem State.notice_keeps (h : Keeps s t) : Keeps s (State.notice t a1) := by
  unfold State.notice
  repeat' first
    | intro _ | extract_lets
    | with_reducible first | assumption | apply State.bump_keeps | apply State.flag_keeps

theorem State.excOpen_keeps (h : Keeps s t) : Keeps s (State.excOpen t a1 a2) := by
  unfold State.excOpen
  repeat' first
    | intro _ | extract_lets
    | with_reducible first | assumption | apply State.onExc_keeps | apply State.bump_keeps | apply State.flag_keeps | apply State.setBit_keeps
         | apply State.notice_keeps | apply State.spoil_keeps | apply State.log_keeps | apply overList_keeps | apply keeps_ite

theorem State.excSettle_keeps (h : Keeps s t) : Keeps s (State.excSettle t a1 a2 a3) := by
  unfold State.excSettle
  repeat' first
    | intro _ | extract_lets
    | with_reducible first | assumption | apply State.wr_keeps | apply State.setBit_keeps | apply State.onExc_keeps | apply State.excOpen_keeps
         | apply keeps_ite

theorem State.unspoil_keeps (h : Keeps s t) : Keeps s (State.unspoil t a1 a2) := by
  unfold State.unspoil
  repeat' first
    | intro _ | extract_lets
    | with_reducible first | assumption | apply State.onPort_keeps | apply State.setBit_keeps

theorem State.excOpenClear_keeps (h : Keeps s t) : Keeps s (State.excOpenClear t a1 a2) := by
  unfold State.excOpenClear
  repeat' first
    | intro _ | extract_lets
    | with_reducible first | assumption | apply State.wr_keeps | apply State.unspoil_keeps | apply State.onExc_keeps | apply State.setBit_keeps
         | apply overList_keeps | apply keeps_ite

theorem State.excShort_keeps (h : Keeps s t) : Keeps s (State.excShort t a1 a2) := by
  unfold State.excShort
  repeat' first
    | intro _ | extract_lets
    | with_reducible first | assumption | apply State.bump_keeps | apply State.flag_keeps | apply State.excStop_keeps | apply State.log_keeps
         | apply State.setBit_keeps | apply keeps_ite

theorem State.shortClear_keeps (h : Keeps s t) : Keeps s (State.shortClear t a1) := by
  unfold State.shortClear
  repeat' first
    | intro _ | extract_lets
    | with_reducible first | assumption | apply State.clearFlag_keeps | apply State.excStart_keeps | apply keeps_ite

theorem State.slotBoundary_keeps (h : Keeps s t) : Keeps s (State.slotBoundary t a1 a2 a3 a4 a5 a6) := by
  unfold State.slotBoundary
  repeat' first
    | intro _ | extract_lets
    | with_reducible first | assumption | exact Nat.le_refl _ | exact List.length_filter_le _ _ | exact rfl | apply State.onPort_keeps
         | apply State.unspoil_keeps | apply State.notice_keeps | apply State.spoil_keeps | apply onFlt_keeps | apply keeps_ite

theorem State.portRecover_keeps (h : Keeps s t) : Keeps s (State.portRecover t a1) := by
  unfold State.portRecover
  repeat' first
    | intro _ | extract_lets
    | with_reducible first | assumption | apply State.unspoil_keeps | apply keeps_ite

theorem State.demodulate_keeps (h : Keeps s t) : Keeps s (State.demodulate t a1) := by
  unfold State.demodulate
  repeat' first
    | intro _ | extract_lets
    | with_reducible first | assumption | apply State.onPort_keeps | apply keeps_ite | apply keeps_dite | apply foldl_keeps
    | split

theorem State.putFit_keeps (h : Keeps s t) : Keeps s (State.putFit t a1 a2) := by
  unfold State.putFit
  repeat' first
    | intro _ | extract_lets
    | with_reducible first | assumption | apply State.wr_keeps | apply State.wrI_keeps

theorem State.breakEvents_keeps (h : Keeps s t) : Keeps s (State.breakEvents t a1 a2) := by
  unfold State.breakEvents
  repeat' first
    | intro _ | extract_lets
    | with_reducible first | assumption | apply State.log_keeps | apply State.onExc_keeps | apply State.onPort_keeps | apply State.injected_keeps
         | apply keeps_ite

theorem State.portEdge_keeps (h : Keeps s t) : Keeps s (State.portEdge t a1) := by
  unfold State.portEdge
  repeat' first
    | intro _ | extract_lets
    | with_reducible first | assumption | apply State.setBit_keeps | apply State.setFld_keeps | apply State.putFit_keeps | apply State.wr_keeps
         | apply State.breakEvents_keeps | apply State.onPort_keeps | apply keeps_ite | apply keeps_dite | apply foldl_keeps
                            | refine keepsP_snd (by assumption) ?_ | refine keepsP_snd2 (by assumption) ?_ | apply Keeps.parts
    | split | simp only [keeps_mk] | dsimp only | simp +zetaDelta only [keeps_mk]

theorem State.monitor_keeps (h : Keeps s t) : Keeps s (State.monitor t a1) := by
  unfold State.monitor
  repeat' first
    | with_reducible assumption | with_reducible exact Nat.le_refl _ | with_reducible exact List.length_filter_le _ _ | with_reducible exact rfl | intro _ | extract_lets
    | with_reducible first | apply State.free_keeps | apply State.wr_keeps | apply keeps_ite | apply keeps_dite | apply foldl_keeps
    | split
    | with_reducible refine keepsP_snd (by assumption) ?_ | with_reducible refine keepsP_snd2 (by assumption) ?_
    | with_reducible apply Keeps.parts | simp only [keeps_mk]
    | dsimp only | simp +zetaDelta only [keeps_mk] | dsimp +zetaDelta only

theorem State.excClock_keeps (h : Keeps s t) : Keeps s (State.excClock t) := by
  unfold State.excClock
  repeat' first
    | with_reducible assumption | with_reducible exact Nat.le_refl _ | with_reducible exact List.length_filter_le _ _ | with_reducible exact rfl | intro _ | extract_lets
    | with_reducible first | apply State.monitor_keeps | apply overList_keeps | apply keeps_ite | apply keeps_dite | apply foldl_keeps
    | split
    | with_reducible refine keepsP_snd (by assumption) ?_ | with_reducible refine keepsP_snd2 (by assumption) ?_
    | with_reducible apply Keeps.parts | simp only [keeps_mk]
    | dsimp only | simp +zetaDelta only [keeps_mk] | dsimp +zetaDelta only

theorem execExcitationStart_keeps (h : Keeps s t) : KeepsO s (execExcitationStart a1 t) := by
  unfold execExcitationStart
  repeat' first
    | with_reducible assumption | with_reducible exact Nat.le_refl _ | with_reducible exact List.length_filter_le _ _ | with_reducible exact rfl | intro _ | extract_lets
    | with_reducible first | apply State.awake_keeps | apply State.excStart_keeps | apply keeps_ite | apply foldl_keeps | apply keepsO_ite | apply keepsO_next
    | split
    | with_reducible refine keepsP_snd (by assumption) ?_ | with_reducible refine keepsP_snd2 (by assumption) ?_
    | with_reducible apply Keeps.parts | simp only [keeps_mk]
    | dsimp only | simp +zetaDelta only [keeps_mk] | dsimp +zetaDelta only

theorem execExcitationSettled_keeps (h : Keeps s t) : KeepsO s (execExcitationSettled a1 a2 a3 t) := by
  unfold execExcitationSettled
  repeat' first
    | with_reducible assumption | with_reducible exact Nat.le_refl _ | with_reducible exact List.length_filter_le _ _ | with_reducible exact rfl | intro _ | extract_lets
    | with_reducible first | apply State.awake_keeps | apply State.excSettle_keeps | apply keeps_ite | apply foldl_keeps | apply keepsO_ite | apply keepsO_next
    | split
    | with_reducible refine keepsP_snd (by assumption) ?_ | with_reducible refine keepsP_snd2 (by assumption) ?_
    | with_reducible apply Keeps.parts | simp only [keeps_mk]
    | dsimp only | simp +zetaDelta only [keeps_mk] | dsimp +zetaDelta only

theorem execExcitationOpen_keeps (h : Keeps s t) : KeepsO s (execExcitationOpen a1 t) := by
  unfold execExcitationOpen
  repeat' first
    | with_reducible assumption | with_reducible exact Nat.le_refl _ | with_reducible exact List.length_filter_le _ _ | with_reducible exact rfl | intro _ | extract_lets
    | with_reducible first | apply State.awake_keeps | apply State.excOpen_keeps | apply keeps_ite | apply foldl_keeps | apply keepsO_ite | apply keepsO_next
    | split
    | with_reducible refine keepsP_snd (by assumption) ?_ | with_reducible refine keepsP_snd2 (by assumption) ?_
    | with_reducible apply Keeps.parts | simp only [keeps_mk]
    | dsimp only | simp +zetaDelta only [keeps_mk] | dsimp +zetaDelta only

theorem execExcitationOpenClear_keeps (h : Keeps s t) : KeepsO s (execExcitationOpenClear a1 a2 t) := by
  unfold execExcitationOpenClear
  repeat' first
    | with_reducible assumption | with_reducible exact Nat.le_refl _ | with_reducible exact List.length_filter_le _ _ | with_reducible exact rfl | intro _ | extract_lets
    | with_reducible first | apply State.awake_keeps | apply State.excOpenClear_keeps | apply keeps_ite | apply foldl_keeps | apply keepsO_ite | apply keepsO_next
    | split
    | with_reducible refine keepsP_snd (by assumption) ?_ | with_reducible refine keepsP_snd2 (by assumption) ?_
    | with_reducible apply Keeps.parts | simp only [keeps_mk]
    | dsimp only | simp +zetaDelta only [keeps_mk] | dsimp +zetaDelta only

theorem execExcitationShort_keeps (h : Keeps s t) : KeepsO s (execExcitationShort a1 a2 t) := by
  unfold execExcitationShort
  repeat' first
    | with_reducible assumption | with_reducible exact Nat.le_refl _ | with_reducible exact List.length_filter_le _ _ | with_reducible exact rfl | intro _ | extract_lets
    | with_reducible first | apply State.awake_keeps | apply State.excShort_keeps | apply keeps_ite | apply foldl_keeps | apply keepsO_ite | apply keepsO_next
    | split
    | with_reducible refine keepsP_snd (by assumption) ?_ | with_reducible refine keepsP_snd2 (by assumption) ?_
    | with_reducible apply Keeps.parts | simp only [keeps_mk]
    | dsimp only | simp +zetaDelta only [keeps_mk] | dsimp +zetaDelta only

theorem execSlotBoundary_keeps (h : Keeps s t) : KeepsO s (execSlotBoundary a1 a2 a3 a4 a5 a6 t) := by
  unfold execSlotBoundary
  repeat' first
    | with_reducible assumption | with_reducible exact Nat.le_refl _ | with_reducible exact List.length_filter_le _ _ | with_reducible exact rfl | intro _ | extract_lets
    | with_reducible first | apply State.awake_keeps | apply State.slotBoundary_keeps | apply keeps_ite | apply foldl_keeps | apply keepsO_ite | apply keepsO_next
    | split
    | with_reducible refine keepsP_snd (by assumption) ?_ | with_reducible refine keepsP_snd2 (by assumption) ?_
    | with_reducible apply Keeps.parts | simp only [keeps_mk]
    | dsimp only | simp +zetaDelta only [keeps_mk] | dsimp +zetaDelta only

theorem execPortRecovery_keeps (h : Keeps s t) : KeepsO s (execPortRecovery a1 t) := by
  unfold execPortRecovery
  repeat' first
    | with_reducible assumption | with_reducible exact Nat.le_refl _ | with_reducible exact List.length_filter_le _ _ | with_reducible exact rfl | intro _ | extract_lets
    | with_reducible first | apply State.awake_keeps | apply State.portRecover_keeps | apply keeps_ite | apply foldl_keeps | apply keepsO_ite | apply keepsO_next
    | split
    | with_reducible refine keepsP_snd (by assumption) ?_ | with_reducible refine keepsP_snd2 (by assumption) ?_
    | with_reducible apply Keeps.parts | simp only [keeps_mk]
    | dsimp only | simp +zetaDelta only [keeps_mk] | dsimp +zetaDelta only

theorem execDemodulation_keeps (h : Keeps s t) : KeepsO s (execDemodulation a1 t) := by
  unfold execDemodulation
  repeat' first
    | with_reducible assumption | with_reducible exact Nat.le_refl _ | with_reducible exact List.length_filter_le _ _ | with_reducible exact rfl | intro _ | extract_lets
    | with_reducible first | apply State.working_keeps | apply State.demodulate_keeps | apply keeps_ite | apply foldl_keeps | apply keepsO_ite | apply keepsO_next
    | split
    | with_reducible refine keepsP_snd (by assumption) ?_ | with_reducible refine keepsP_snd2 (by assumption) ?_
    | with_reducible apply Keeps.parts | simp only [keeps_mk]
    | dsimp only | simp +zetaDelta only [keeps_mk] | dsimp +zetaDelta only

end Sys2Proof.Machine
end

