-- ==== Sys2Proof/Laws/KeepsComparators.lean ====
section
/-! SUPPORT. Every operation of Machine/Comparators.lean keeps what `Keeps` says. -/

namespace Sys2Proof.Machine

theorem State.onCmps_keeps (h : Keeps s t) : Keeps s (State.onCmps t a1) := by
  unfold State.onCmps
  repeat' first
    | intro _ | extract_lets
    | with_reducible first | assumption | apply keeps_ite | apply keeps_dite | apply foldl_keeps | refine keepsP_snd (by assumption) ?_
                            | refine keepsP_snd2 (by assumption) ?_ | apply Keeps.parts
    | split | simp only [keeps_mk]

theorem State.supplyOut_keeps (h : Keeps s t) : Keeps s (State.supplyOut t a1 a2) := by
  unfold State.supplyOut
  repeat' first
    | with_reducible assumption | with_reducible exact Nat.le_refl _ | with_reducible exact List.length_filter_le _ _ | with_reducible exact rfl | intro _ | extract_lets
    | with_reducible first | apply State.flag_keeps | apply State.setBit_keeps | apply State.onCmps_keeps | apply State.log_keeps | apply State.toffShow_keeps | apply State.pumpStep_keeps | apply State.excStop_keeps | apply overList_keeps | apply keeps_ite | apply keeps_dite | apply foldl_keeps
    | split
    | with_reducible refine keepsP_snd (by assumption) ?_ | with_reducible refine keepsP_snd2 (by assumption) ?_
    | with_reducible apply Keeps.parts | simp only [keeps_mk]
    | dsimp only | simp +zetaDelta only [keeps_mk] | dsimp +zetaDelta only

theorem State.supplyBack_keeps (h : Keeps s t) : Keeps s (State.supplyBack t a1) := by
  unfold State.supplyBack
  repeat' first
    | with_reducible assumption | with_reducible exact Nat.le_refl _ | with_reducible exact List.length_filter_le _ _ | with_reducible exact rfl | intro _ | extract_lets
    | with_reducible first | apply State.onCmps_keeps | apply State.setBit_keeps | apply State.toffShow_keeps | apply State.pumpStep_keeps | apply State.excStart_keeps | apply overList_keeps | apply keeps_ite | apply keeps_dite | apply foldl_keeps
    | split
    | with_reducible refine keepsP_snd (by assumption) ?_ | with_reducible refine keepsP_snd2 (by assumption) ?_
    | with_reducible apply Keeps.parts | simp only [keeps_mk]
    | dsimp only | simp +zetaDelta only [keeps_mk] | dsimp +zetaDelta only

theorem State.dieOver_keeps (h : Keeps s t) : Keeps s (State.dieOver t) := by
  unfold State.dieOver
  repeat' first
    | intro _ | extract_lets
    | with_reducible first | assumption | apply State.setBit_keeps | apply State.log_keeps | apply State.onCmps_keeps | apply keeps_ite

theorem State.thermalBack_keeps (h : Keeps s t) : Keeps s (State.thermalBack t a1) := by
  unfold State.thermalBack
  repeat' first
    | intro _ | extract_lets
    | with_reducible first | assumption | apply State.setBit_keeps | apply State.showSources_keeps | apply State.onStage_keeps
         | apply State.onCmps_keeps | apply overList_keeps | apply keeps_ite | apply keeps_dite

theorem State.warnEdge_keeps (h : Keeps s t) : Keeps s (State.warnEdge t) := by
  unfold State.warnEdge
  repeat' first
    | intro _ | extract_lets
    | with_reducible first | assumption | apply State.onCmps_keeps | apply State.setBit_keeps | apply State.log_keeps | apply overList_keeps
         | apply keeps_ite

theorem State.cmpChange_keeps (h : Keeps s t) : Keeps s (State.cmpChange t a1 a2 a3) := by
  unfold State.cmpChange
  repeat' first
    | intro _ | extract_lets
    | with_reducible first | assumption | apply State.bump_keeps | apply State.flag_keeps | apply State.setBit_keeps | apply State.wr_keeps
         | apply keeps_ite

theorem State.cmpEdge_keeps (h : Keeps s t) : Keeps s (State.cmpEdge t a1 a2) := by
  unfold State.cmpEdge
  repeat' first
    | intro _ | extract_lets
    | with_reducible first | assumption | apply State.onCmps_keeps | apply State.cmpChange_keeps | apply keeps_ite

theorem State.cmpHold_keeps (h : Keeps s t) : Keeps s (State.cmpHold t a1 a2) := by
  unfold State.cmpHold
  repeat' first
    | intro _ | extract_lets
    | with_reducible first | assumption | apply State.onCmps_keeps

theorem State.cmpTick_keeps (h : Keeps s t) : Keeps s (State.cmpTick t) := by
  unfold State.cmpTick
  repeat' first
    | intro _ | extract_lets
    | with_reducible first | assumption | apply State.onCmps_keeps | apply State.cmpHold_keeps | apply overList_keeps | apply keeps_ite

theorem State.wakeLatch_keeps (h : Keeps s t) : Keeps s (State.wakeLatch t a1) := by
  unfold State.wakeLatch
  repeat' first
    | intro _ | extract_lets
    | with_reducible first | assumption | apply keeps_ite | apply keeps_dite | apply foldl_keeps | refine keepsP_snd (by assumption) ?_
                            | refine keepsP_snd2 (by assumption) ?_ | apply Keeps.parts
    | split | simp only [keeps_mk]

theorem State.wakeLevel_keeps (h : Keeps s t) : Keeps s (State.wakeLevel t a1 a2) := by
  unfold State.wakeLevel
  repeat' first
    | with_reducible assumption | with_reducible exact Nat.le_refl _ | with_reducible exact List.length_filter_le _ _ | with_reducible exact rfl | intro _ | extract_lets
    | with_reducible first | apply State.onCmps_keeps | apply State.setBit_keeps | apply State.wakeLatch_keeps | apply State.flag_keeps | apply keeps_ite | apply keeps_dite | apply foldl_keeps
    | split
    | with_reducible refine keepsP_snd (by assumption) ?_ | with_reducible refine keepsP_snd2 (by assumption) ?_
    | with_reducible apply Keeps.parts | simp only [keeps_mk]
    | dsimp only | simp +zetaDelta only [keeps_mk] | dsimp +zetaDelta only

theorem State.wakeAgain_keeps (h : Keeps s t) : Keeps s (State.wakeAgain t a1 a2) := by
  unfold State.wakeAgain
  repeat' first
    | with_reducible assumption | with_reducible exact Nat.le_refl _ | with_reducible exact List.length_filter_le _ _ | with_reducible exact rfl | intro _ | extract_lets
    | with_reducible first | apply State.onCmps_keeps | apply keeps_ite | apply keeps_dite | apply foldl_keeps
    | split
    | with_reducible refine keepsP_snd (by assumption) ?_ | with_reducible refine keepsP_snd2 (by assumption) ?_
    | with_reducible apply Keeps.parts | simp only [keeps_mk]
    | dsimp only | simp +zetaDelta only [keeps_mk] | dsimp +zetaDelta only

theorem State.setTrim_keeps (h : Keeps s t) : Keeps s (State.setTrim t a1 a2) := by
  unfold State.setTrim
  repeat' first
    | intro _ | extract_lets
    | with_reducible first | assumption | apply State.setFld_keeps

theorem State.azSample_keeps (h : Keeps s t) : Keeps s (State.azSample t a1 a2) := by
  unfold State.azSample
  repeat' first
    | intro _ | extract_lets
    | with_reducible first | assumption | apply State.onCmps_keeps | apply State.setBit_keeps | apply State.setTrim_keeps | apply keeps_ite

theorem State.azDiverge_keeps (h : Keeps s t) : Keeps s (State.azDiverge t a1) := by
  unfold State.azDiverge
  repeat' first
    | with_reducible assumption | with_reducible exact Nat.le_refl _ | with_reducible exact List.length_filter_le _ _ | with_reducible exact rfl | intro _ | extract_lets
    | with_reducible first | apply State.onCmps_keeps | apply State.setBit_keeps | apply State.hardClear_keeps | apply State.setTrim_keeps | apply State.log_keeps | apply State.flag_keeps | apply keeps_ite | apply keeps_dite | apply foldl_keeps
    | split
    | with_reducible refine keepsP_snd (by assumption) ?_ | with_reducible refine keepsP_snd2 (by assumption) ?_
    | with_reducible apply Keeps.parts | simp only [keeps_mk]
    | dsimp only | simp +zetaDelta only [keeps_mk] | dsimp +zetaDelta only

theorem State.testFail_keeps (h : Keeps s t) : Keeps s (State.testFail t a1 a2) := by
  unfold State.testFail
  repeat' first
    | with_reducible assumption | with_reducible exact Nat.le_refl _ | with_reducible exact List.length_filter_le _ _ | with_reducible exact rfl | intro _ | extract_lets
    | with_reducible first | apply State.setBit_keeps | apply State.log_keeps | apply State.onCmps_keeps | apply State.supplyOut_keeps | apply State.groupOver_keeps | apply State.dieOver_keeps | apply State.cpFall_keeps | apply keeps_ite | apply keeps_dite | apply foldl_keeps
    | split
    | with_reducible refine keepsP_snd (by assumption) ?_ | with_reducible refine keepsP_snd2 (by assumption) ?_
    | with_reducible apply Keeps.parts | simp only [keeps_mk]
    | dsimp only | simp +zetaDelta only [keeps_mk] | dsimp +zetaDelta only

theorem State.shelfAbandon_keeps (h : Keeps s t) : Keeps s (State.shelfAbandon t a1 a2) := by
  unfold State.shelfAbandon
  repeat' first
    | intro _ | extract_lets
    | with_reducible first | assumption | apply keeps_ite | apply keeps_dite | apply foldl_keeps | refine keepsP_snd (by assumption) ?_
                            | refine keepsP_snd2 (by assumption) ?_ | apply Keeps.parts
    | split | simp only [keeps_mk]

theorem State.testEnd_keeps (h : Keeps s t) : Keeps s (State.testEnd t a1 a2) := by
  unfold State.testEnd
  repeat' first
    | intro _ | extract_lets
    | with_reducible first | assumption | apply State.setBit_keeps | apply State.testFail_keeps | apply State.shelfAbandon_keeps
         | apply State.onCmps_keeps | apply State.finish_keeps | apply keeps_ite | apply keeps_dite | apply foldl_keeps
    | split

theorem State.testStart_keeps (h : Keeps s t) : Keeps s (State.testStart t a1) := by
  unfold State.testStart
  repeat' first
    | with_reducible assumption | with_reducible exact Nat.le_refl _ | with_reducible exact List.length_filter_le _ _ | with_reducible exact rfl | intro _ | extract_lets
    | with_reducible first | apply State.cmpHold_keeps | apply State.onCmps_keeps | apply keeps_ite | apply keeps_dite | apply foldl_keeps
    | split
    | with_reducible refine keepsP_snd (by assumption) ?_ | with_reducible refine keepsP_snd2 (by assumption) ?_
    | with_reducible apply Keeps.parts | simp only [keeps_mk]
    | dsimp only | simp +zetaDelta only [keeps_mk] | dsimp +zetaDelta only

theorem State.checksDue_keeps (h : Keeps s t) : Keeps s (State.checksDue t) := by
  unfold State.checksDue
  repeat' first
    | with_reducible assumption | with_reducible exact Nat.le_refl _ | with_reducible exact List.length_filter_le _ _ | with_reducible exact rfl | intro _ | extract_lets
    | with_reducible first | apply State.testStart_keeps | apply overList_keeps | apply keeps_ite | apply keeps_dite | apply foldl_keeps
    | split
    | with_reducible refine keepsP_snd (by assumption) ?_ | with_reducible refine keepsP_snd2 (by assumption) ?_
    | with_reducible apply Keeps.parts | simp only [keeps_mk]
    | dsimp only | simp +zetaDelta only [keeps_mk] | dsimp +zetaDelta only

theorem State.selftest_keeps (h : Keeps s t) : Keeps s (State.selftest t a1 a2 a3 a4) := by
  unfold State.selftest
  repeat' first
    | intro _ | extract_lets
    | with_reducible first | assumption | apply State.finish_keeps | apply State.onCmps_keeps | apply State.testStart_keeps | apply keeps_ite

theorem State.wakeClock_keeps (h : Keeps s t) : Keeps s (State.wakeClock t) := by
  unfold State.wakeClock
  repeat' first
    | with_reducible assumption | with_reducible exact Nat.le_refl _ | with_reducible exact List.length_filter_le _ _ | with_reducible exact rfl | intro _ | extract_lets
    | with_reducible first | apply State.onCmps_keeps | apply State.wakeLatch_keeps | apply State.flag_keeps | apply overList_keeps | apply keeps_ite | apply keeps_dite | apply foldl_keeps
    | split
    | with_reducible refine keepsP_snd (by assumption) ?_ | with_reducible refine keepsP_snd2 (by assumption) ?_
    | with_reducible apply Keeps.parts | simp only [keeps_mk]
    | dsimp only | simp +zetaDelta only [keeps_mk] | dsimp +zetaDelta only

theorem State.holdsClock_keeps (h : Keeps s t) : Keeps s (State.holdsClock t) := by
  unfold State.holdsClock
  repeat' first
    | with_reducible assumption | with_reducible exact Nat.le_refl _ | with_reducible exact List.length_filter_le _ _ | with_reducible exact rfl | intro _ | extract_lets
    | with_reducible first | apply State.onCmps_keeps | apply State.cmpChange_keeps | apply State.testEnd_keeps | apply overList_keeps | apply keeps_ite | apply keeps_dite | apply foldl_keeps
    | split
    | with_reducible refine keepsP_snd (by assumption) ?_ | with_reducible refine keepsP_snd2 (by assumption) ?_
    | with_reducible apply Keeps.parts | simp only [keeps_mk]
    | dsimp only | simp +zetaDelta only [keeps_mk] | dsimp +zetaDelta only

theorem State.cmpClock_keeps (h : Keeps s t) : Keeps s (State.cmpClock t) := by
  unfold State.cmpClock
  repeat' first
    | with_reducible assumption | with_reducible exact Nat.le_refl _ | with_reducible exact List.length_filter_le _ _ | with_reducible exact rfl | intro _ | extract_lets
    | with_reducible first | apply State.checksDue_keeps | apply State.holdsClock_keeps | apply State.wakeClock_keeps | apply keeps_ite | apply keeps_dite | apply foldl_keeps
    | split
    | with_reducible refine keepsP_snd (by assumption) ?_ | with_reducible refine keepsP_snd2 (by assumption) ?_
    | with_reducible apply Keeps.parts | simp only [keeps_mk]
    | dsimp only | simp +zetaDelta only [keeps_mk] | dsimp +zetaDelta only

theorem execSupplyReturn_keeps (h : Keeps s t) : KeepsO s (execSupplyReturn a1 t) := by
  unfold execSupplyReturn
  repeat' first
    | with_reducible assumption | with_reducible exact Nat.le_refl _ | with_reducible exact List.length_filter_le _ _ | with_reducible exact rfl | intro _ | extract_lets
    | with_reducible first | apply State.awake_keeps | apply State.supplyBack_keeps | apply keeps_ite | apply foldl_keeps | apply keepsO_ite | apply keepsO_next
    | split
    | with_reducible refine keepsP_snd (by assumption) ?_ | with_reducible refine keepsP_snd2 (by assumption) ?_
    | with_reducible apply Keeps.parts | simp only [keeps_mk]
    | dsimp only | simp +zetaDelta only [keeps_mk] | dsimp +zetaDelta only

theorem execDieOvertemperature_keeps (h : Keeps s t) : KeepsO s (execDieOvertemperature t) := by
  unfold execDieOvertemperature
  repeat' first
    | with_reducible assumption | with_reducible exact Nat.le_refl _ | with_reducible exact List.length_filter_le _ _ | with_reducible exact rfl | intro _ | extract_lets
    | with_reducible first | apply State.awake_keeps | apply State.dieOver_keeps | apply keeps_ite | apply foldl_keeps | apply keepsO_ite | apply keepsO_next
    | split
    | with_reducible refine keepsP_snd (by assumption) ?_ | with_reducible refine keepsP_snd2 (by assumption) ?_
    | with_reducible apply Keeps.parts | simp only [keeps_mk]
    | dsimp only | simp +zetaDelta only [keeps_mk] | dsimp +zetaDelta only

theorem execThermalWindowRelease_keeps (h : Keeps s t) : KeepsO s (execThermalWindowRelease a1 t) := by
  unfold execThermalWindowRelease
  repeat' first
    | with_reducible assumption | with_reducible exact Nat.le_refl _ | with_reducible exact List.length_filter_le _ _ | with_reducible exact rfl | intro _ | extract_lets
    | with_reducible first | apply State.awake_keeps | apply State.thermalBack_keeps | apply keeps_ite | apply foldl_keeps | apply keepsO_ite | apply keepsO_next
    | split
    | with_reducible refine keepsP_snd (by assumption) ?_ | with_reducible refine keepsP_snd2 (by assumption) ?_
    | with_reducible apply Keeps.parts | simp only [keeps_mk]
    | dsimp only | simp +zetaDelta only [keeps_mk] | dsimp +zetaDelta only

theorem execCmpEdge_keeps (h : Keeps s t) : KeepsO s (execCmpEdge a1 a2 t) := by
  unfold execCmpEdge
  repeat' first
    | with_reducible assumption | with_reducible exact Nat.le_refl _ | with_reducible exact List.length_filter_le _ _ | with_reducible exact rfl | intro _ | extract_lets
    | with_reducible first | apply State.awake_keeps | apply State.cmpEdge_keeps | apply keeps_ite | apply foldl_keeps | apply keepsO_ite | apply keepsO_next
    | split
    | with_reducible refine keepsP_snd (by assumption) ?_ | with_reducible refine keepsP_snd2 (by assumption) ?_
    | with_reducible apply Keeps.parts | simp only [keeps_mk]
    | dsimp only | simp +zetaDelta only [keeps_mk] | dsimp +zetaDelta only

theorem execAutozeroSample_keeps (h : Keeps s t) : KeepsO s (execAutozeroSample a1 a2 t) := by
  unfold execAutozeroSample
  repeat' first
    | with_reducible assumption | with_reducible exact Nat.le_refl _ | with_reducible exact List.length_filter_le _ _ | with_reducible exact rfl | intro _ | extract_lets
    | with_reducible first | apply State.awake_keeps | apply State.azSample_keeps | apply keeps_ite | apply foldl_keeps | apply keepsO_ite | apply keepsO_next
    | split
    | with_reducible refine keepsP_snd (by assumption) ?_ | with_reducible refine keepsP_snd2 (by assumption) ?_
    | with_reducible apply Keeps.parts | simp only [keeps_mk]
    | dsimp only | simp +zetaDelta only [keeps_mk] | dsimp +zetaDelta only

theorem execAzDiverge_keeps (h : Keeps s t) : KeepsO s (execAzDiverge a1 t) := by
  unfold execAzDiverge
  repeat' first
    | with_reducible assumption | with_reducible exact Nat.le_refl _ | with_reducible exact List.length_filter_le _ _ | with_reducible exact rfl | intro _ | extract_lets
    | with_reducible first | apply State.awake_keeps | apply State.azDiverge_keeps | apply keeps_ite | apply foldl_keeps | apply keepsO_ite | apply keepsO_next
    | split
    | with_reducible refine keepsP_snd (by assumption) ?_ | with_reducible refine keepsP_snd2 (by assumption) ?_
    | with_reducible apply Keeps.parts | simp only [keeps_mk]
    | dsimp only | simp +zetaDelta only [keeps_mk] | dsimp +zetaDelta only

end Sys2Proof.Machine
end

