-- ==== Sys2Proof/Laws/KeepsConversion.lean ====
section
/-! SUPPORT. Every operation of Machine/Conversion.lean keeps what `Keeps` says. -/

namespace Sys2Proof.Machine

theorem State.modStart_keeps (h : Keeps s t) : Keeps s (State.modStart t a1) := by
  unfold State.modStart
  repeat' first
    | intro _ | extract_lets
    | with_reducible first | assumption | apply State.onMod_keeps | apply State.setBit_keeps

theorem State.modStop_keeps (h : Keeps s t) : Keeps s (State.modStop t a1) := by
  unfold State.modStop
  repeat' first
    | intro _ | extract_lets
    | with_reducible first | assumption | apply State.onMod_keeps | apply State.setBit_keeps

theorem State.showDead_keeps (h : Keeps s t) : Keeps s (State.showDead t a1 a2) := by
  unfold State.showDead
  repeat' first
    | intro _ | extract_lets
    | with_reducible first | assumption | apply State.setBit_keeps | apply State.onMod_keeps | apply keeps_ite

theorem State.modFail_keeps (h : Keeps s t) : Keeps s (State.modFail t a1 a2) := by
  unfold State.modFail
  repeat' first
    | intro _ | extract_lets
    | with_reducible first | assumption | apply State.bump_keeps | apply State.setFld_keeps | apply State.flag_keeps | apply State.onMod_keeps
         | apply State.log_keeps | apply State.life_keeps | apply State.setBit_keeps | apply State.showDead_keeps | apply keeps_ite

theorem State.closeInterval_keeps (h : Keeps s t) : Keeps s (State.closeInterval t a1 a2) := by
  unfold State.closeInterval
  repeat' first
    | intro _ | extract_lets
    | with_reducible first | assumption | apply State.modFail_keeps | apply State.onMod_keeps | apply State.wr_keeps | apply State.replaced_keeps
         | apply State.setBit_keeps | apply State.bump_keeps | apply State.flag_keeps | apply keeps_ite

theorem State.modEdge_keeps (h : Keeps s t) : Keeps s (State.modEdge t a1) := by
  unfold State.modEdge
  repeat' first
    | intro _ | extract_lets
    | with_reducible first | assumption | apply State.onMod_keeps | apply State.modStart_keeps | apply keeps_ite

theorem State.modClock_keeps (h : Keeps s t) : Keeps s (State.modClock t) := by
  unfold State.modClock
  repeat' first
    | intro _ | extract_lets
    | with_reducible first | assumption | apply State.setBit_keeps | apply overList_keeps | apply keeps_ite | apply keeps_dite | apply foldl_keeps
                            | refine keepsP_snd (by assumption) ?_ | refine keepsP_snd2 (by assumption) ?_ | apply Keeps.parts
    | split | simp only [keeps_mk] | dsimp only | simp +zetaDelta only [keeps_mk]

theorem State.modRestart_keeps (h : Keeps s t) : KeepsP s (State.modRestart t a1) := by
  unfold State.modRestart
  repeat' first
    | intro _ | extract_lets
    | with_reducible first | assumption | apply State.onMod_keeps | apply State.showDead_keeps | apply keeps_ite | apply foldl_keeps
         | apply keepsP_ite

theorem State.modCountClear_keeps (h : Keeps s t) : Keeps s (State.modCountClear t a1) := by
  unfold State.modCountClear
  repeat' first
    | intro _ | extract_lets
    | with_reducible first | assumption | apply State.wr_keeps

theorem State.onAdc_keeps (h : Keeps s t) : Keeps s (State.onAdc t a1 a2) := by
  unfold State.onAdc
  repeat' first
    | intro _ | extract_lets
    | with_reducible first | assumption | apply keeps_ite | apply keeps_dite | apply foldl_keeps | refine keepsP_snd (by assumption) ?_
                            | refine keepsP_snd2 (by assumption) ?_ | apply Keeps.parts
    | split | simp only [keeps_mk]

theorem State.hostResult_keeps (h : Keeps s t) : Keeps s (State.hostResult t a1 a2 a3 a4) := by
  unfold State.hostResult
  repeat' first
    | intro _ | extract_lets
    | with_reducible first | assumption | apply State.cmdstat_keeps | apply State.replaced_keeps | apply State.wr_keeps

theorem State.consume_keeps (h : Keeps s t) : Keeps s (State.consume t a1) := by
  unfold State.consume
  repeat' first
    | intro _ | extract_lets
    | with_reducible first | assumption | apply State.onPort_keeps | apply State.frcSample_keeps | apply State.wrI_keeps | apply keeps_ite
         | apply keeps_dite | apply foldl_keeps
                            | refine keepsP_snd (by assumption) ?_ | refine keepsP_snd2 (by assumption) ?_ | apply Keeps.parts
    | split | simp only [keeps_mk]

theorem State.deliverOne_keeps (h : Keeps s t) : Keeps s (State.deliverOne a1 t a2) := by
  unfold State.deliverOne
  repeat' first
    | intro _ | extract_lets
    | with_reducible first | assumption | apply State.frcHeld_keeps | apply State.hostResult_keeps | apply State.consume_keeps
         | apply State.replaced_keeps | apply State.wr_keeps | apply keeps_ite | apply keeps_dite | apply foldl_keeps
    | split

theorem State.deliver_keeps (h : Keeps s t) : Keeps s (State.deliver t a1) := by
  unfold State.deliver
  repeat' first
    | intro _ | extract_lets
    | with_reducible first | assumption | apply State.deliverOne_keeps | apply State.onAdc_keeps | apply overList_keeps

theorem State.discardOne_keeps (h : Keeps s t) : Keeps s (State.discardOne a1 t a2) := by
  unfold State.discardOne
  repeat' first
    | intro _ | extract_lets
    | with_reducible first | assumption | apply State.onAdc_keeps | apply State.flag_keeps | apply State.bump_keeps | apply State.replaced_keeps
         | apply State.wr_keeps | apply keeps_ite | apply keeps_dite | apply foldl_keeps
    | split

theorem State.showQueue_keeps (h : Keeps s t) : Keeps s (State.showQueue t a1) := by
  unfold State.showQueue
  repeat' first
    | intro _ | extract_lets
    | with_reducible first | assumption | apply State.wr_keeps

theorem State.adcEmpty_keeps (h : Keeps s t) : Keeps s (State.adcEmpty t a1 a2) := by
  unfold State.adcEmpty
  repeat' first
    | intro _ | extract_lets
    | with_reducible first | assumption | apply State.discardOne_keeps | apply State.onAdc_keeps | apply State.showQueue_keeps | apply overList_keeps
         | apply keeps_ite | apply keeps_dite | apply foldl_keeps
    | split

theorem State.failover_keeps (h : Keeps s t) : Keeps s (State.failover t a1) := by
  unfold State.failover
  repeat' first
    | intro _ | extract_lets
    | with_reducible first | assumption | apply State.onAdc_keeps | apply State.setFld_keeps | apply keeps_ite | apply keeps_dite | apply foldl_keeps
                            | refine keepsP_snd (by assumption) ?_ | refine keepsP_snd2 (by assumption) ?_ | apply Keeps.parts
    | split | simp only [keeps_mk]

theorem State.adcFail_keeps (h : Keeps s t) : Keeps s (State.adcFail t a1 a2 a3) := by
  unfold State.adcFail
  repeat' first
    | with_reducible assumption | with_reducible exact Nat.le_refl _ | with_reducible exact List.length_filter_le _ _ | with_reducible exact rfl | intro _ | extract_lets
    | with_reducible first | apply State.life_keeps | apply State.setFld_keeps | apply State.flag_keeps | apply State.log_keeps | apply State.adcEmpty_keeps | apply State.failover_keeps | apply keeps_ite | apply keeps_dite | apply foldl_keeps
    | split
    | with_reducible refine keepsP_snd (by assumption) ?_ | with_reducible refine keepsP_snd2 (by assumption) ?_
    | with_reducible apply Keeps.parts | simp only [keeps_mk]
    | dsimp only | simp +zetaDelta only [keeps_mk] | dsimp +zetaDelta only

theorem State.reference__keeps (h : Keeps s t) : Keeps s (State.reference_ t a1 a2 a3) := by
  unfold State.reference_
  repeat' first
    | intro _ | extract_lets
    | with_reducible first | assumption | apply State.onAdc_keeps | apply State.wrI_keeps | apply State.deliver_keeps | apply State.setBit_keeps
         | apply State.adcFail_keeps | apply State.setFld_keeps | apply State.log_keeps | apply overList_keeps | apply keeps_ite | apply keeps_dite
         | apply foldl_keeps | refine keepsP_snd (by assumption) ?_ | refine keepsP_snd2 (by assumption) ?_ | apply Keeps.parts
    | split | simp only [keeps_mk] | dsimp only | simp +zetaDelta only [keeps_mk]

theorem State.sarSlot_keeps (h : Keeps s t) : Keeps s (State.sarSlot t a1 a2) := by
  unfold State.sarSlot
  repeat' first
    | intro _ | extract_lets
    | with_reducible first | assumption | exact Nat.le_refl _ | exact List.length_filter_le _ _ | exact rfl | apply State.adcFail_keeps
         | apply State.onAdc_keeps | apply State.log_keeps | apply State.injected_keeps | apply State.reference__keeps | apply onFlt_keeps
         | apply keeps_ite | apply keeps_dite | apply foldl_keeps
    | split

theorem State.urgentAdd_keeps (h : Keeps s t) : Keeps s (State.urgentAdd t a1 a2) := by
  unfold State.urgentAdd
  repeat' first
    | intro _ | extract_lets
    | with_reducible first | assumption | apply State.onAdc_keeps | apply State.showQueue_keeps | apply State.bump_keeps | apply keeps_ite

theorem State.queueStepDowns_keeps (h : Keeps s t) : Keeps s (State.queueStepDowns t) := by
  unfold State.queueStepDowns
  repeat' first
    | intro _ | extract_lets
    | with_reducible first | assumption | apply State.urgentAdd_keeps | apply overList_keeps | apply keeps_ite

theorem State.urgentSlot_keeps (h : Keeps s t) : Keeps s (State.urgentSlot t a1 a2) := by
  unfold State.urgentSlot
  repeat' first
    | intro _ | extract_lets
    | with_reducible first | assumption | apply State.onAdc_keeps | apply State.showQueue_keeps | apply keeps_ite | apply keeps_dite
         | apply foldl_keeps
    | split

theorem State.adcCmd_keeps (h : Keeps s t) : KeepsP s (State.adcCmd t a1 a2 a3 a4) := by
  unfold State.adcCmd
  repeat' first
    | with_reducible assumption | with_reducible exact Nat.le_refl _ | with_reducible exact List.length_filter_le _ _ | with_reducible exact rfl | intro _ | extract_lets
    | with_reducible first | apply State.onAdc_keeps | apply State.urgentAdd_keeps | apply State.request_keeps | apply State.failover_keeps | apply State.adcEmpty_keeps | apply State.setFld_keeps | apply keeps_ite | apply foldl_keeps | apply keepsP_ite | apply keepsP_dite
    | split
    | with_reducible refine keepsP_snd (by assumption) ?_ | with_reducible refine keepsP_snd2 (by assumption) ?_
    | with_reducible apply Keeps.parts | simp only [keeps_mk]
    | dsimp only | simp +zetaDelta only [keeps_mk] | dsimp +zetaDelta only

theorem State.adcCommand_keeps (h : Keeps s t) : Keeps s (State.adcCommand t a1 a2 a3 a4) := by
  unfold State.adcCommand
  repeat' first
    | intro _ | extract_lets
    | with_reducible first | assumption | apply State.adcCmd_keeps | apply State.finish_keeps | apply keeps_ite | apply keeps_dite | apply foldl_keeps
                            | refine keepsP_snd (by assumption) ?_
    | split

theorem State.recheckEnd_keeps (h : Keeps s t) : Keeps s (State.recheckEnd t a1 a2) := by
  unfold State.recheckEnd
  repeat' first
    | intro _ | extract_lets
    | with_reducible first | assumption | apply State.onAdc_keeps | apply State.cmdstat_keeps | apply keeps_ite

theorem State.adcRejoin_keeps (h : Keeps s t) : Keeps s (State.adcRejoin t a1) := by
  unfold State.adcRejoin
  repeat' first
    | intro _ | extract_lets
    | with_reducible first | assumption | apply State.setFld_keeps | apply State.onAdc_keeps | apply State.cmdstat_keeps

theorem State.adcWrap_keeps (h : Keeps s t) : Keeps s (State.adcWrap t a1) := by
  unfold State.adcWrap
  repeat' first
    | intro _ | extract_lets
    | with_reducible first | assumption | apply State.bump_keeps | apply State.flag_keeps | apply State.onAdc_keeps | apply State.wr_keeps
         | apply State.adcRejoin_keeps | apply keeps_ite

theorem State.vmEdge_keeps (h : Keeps s t) : Keeps s (State.vmEdge t) := by
  unfold State.vmEdge
  repeat' first
    | intro _ | extract_lets
    | with_reducible first | assumption | apply State.wr_keeps | apply State.wrI_keeps | apply keeps_ite | apply keeps_dite | apply foldl_keeps
                            | refine keepsP_snd (by assumption) ?_ | refine keepsP_snd2 (by assumption) ?_ | apply Keeps.parts
    | split | simp only [keeps_mk] | dsimp only | simp +zetaDelta only [keeps_mk]

theorem State.convClock_keeps (h : Keeps s t) : Keeps s (State.convClock t) := by
  unfold State.convClock
  repeat' first
    | intro _ | extract_lets
    | with_reducible first | assumption | apply keeps_ite | apply keeps_dite | apply foldl_keeps | refine keepsP_snd (by assumption) ?_
                            | refine keepsP_snd2 (by assumption) ?_ | apply Keeps.parts
    | split | simp only [keeps_mk]

theorem State.settleInput_keeps (h : Keeps s t) : Keeps s (State.settleInput t a1 a2) := by
  unfold State.settleInput
  repeat' first
    | intro _ | extract_lets
    | with_reducible first | assumption | apply keeps_ite | apply keeps_dite | apply foldl_keeps | refine keepsP_snd (by assumption) ?_
                            | refine keepsP_snd2 (by assumption) ?_ | apply Keeps.parts
    | split | simp only [keeps_mk]

theorem State.adcStart_keeps (h : Keeps s t) : Keeps s (State.adcStart t a1 a2 a3) := by
  unfold State.adcStart
  repeat' first
    | with_reducible assumption | with_reducible exact Nat.le_refl _ | with_reducible exact List.length_filter_le _ _ | with_reducible exact rfl | intro _ | extract_lets
    | with_reducible first | apply State.wr_keeps | apply State.onAdc_keeps | apply State.setBit_keeps | apply State.setFld_keeps | apply State.showQueue_keeps | apply overList_keeps | apply keeps_ite | apply keeps_dite | apply foldl_keeps
    | split
    | with_reducible refine keepsP_snd (by assumption) ?_ | with_reducible refine keepsP_snd2 (by assumption) ?_
    | with_reducible apply Keeps.parts | simp only [keeps_mk]
    | dsimp only | simp +zetaDelta only [keeps_mk] | dsimp +zetaDelta only

theorem execCloseInterval_keeps (h : Keeps s t) : KeepsO s (execCloseInterval a1 a2 t) := by
  unfold execCloseInterval
  repeat' first
    | with_reducible assumption | with_reducible exact Nat.le_refl _ | with_reducible exact List.length_filter_le _ _ | with_reducible exact rfl | intro _ | extract_lets
    | with_reducible first | apply State.awake_keeps | apply State.closeInterval_keeps | apply keeps_ite | apply foldl_keeps | apply keepsO_ite | apply keepsO_next
    | split
    | with_reducible refine keepsP_snd (by assumption) ?_ | with_reducible refine keepsP_snd2 (by assumption) ?_
    | with_reducible apply Keeps.parts | simp only [keeps_mk]
    | dsimp only | simp +zetaDelta only [keeps_mk] | dsimp +zetaDelta only

theorem execModulatorFail_keeps (h : Keeps s t) : KeepsO s (execModulatorFail a1 a2 t) := by
  unfold execModulatorFail
  repeat' first
    | with_reducible assumption | with_reducible exact Nat.le_refl _ | with_reducible exact List.length_filter_le _ _ | with_reducible exact rfl | intro _ | extract_lets
    | with_reducible first | apply State.awake_keeps | apply State.modFail_keeps | apply keeps_ite | apply foldl_keeps | apply keepsO_ite | apply keepsO_next
    | split
    | with_reducible refine keepsP_snd (by assumption) ?_ | with_reducible refine keepsP_snd2 (by assumption) ?_
    | with_reducible apply Keeps.parts | simp only [keeps_mk]
    | dsimp only | simp +zetaDelta only [keeps_mk] | dsimp +zetaDelta only

theorem execSarConversion_keeps (h : Keeps s t) : KeepsO s (execSarConversion a1 a2 t) := by
  unfold execSarConversion
  repeat' first
    | with_reducible assumption | with_reducible exact Nat.le_refl _ | with_reducible exact List.length_filter_le _ _ | with_reducible exact rfl | intro _ | extract_lets
    | with_reducible first | apply State.awake_keeps | apply State.sarSlot_keeps | apply keeps_ite | apply foldl_keeps | apply keepsO_ite | apply keepsO_next
    | split
    | with_reducible refine keepsP_snd (by assumption) ?_ | with_reducible refine keepsP_snd2 (by assumption) ?_
    | with_reducible apply Keeps.parts | simp only [keeps_mk]
    | dsimp only | simp +zetaDelta only [keeps_mk] | dsimp +zetaDelta only

theorem execUrgentConversion_keeps (h : Keeps s t) : KeepsO s (execUrgentConversion a1 a2 t) := by
  unfold execUrgentConversion
  repeat' first
    | with_reducible assumption | with_reducible exact Nat.le_refl _ | with_reducible exact List.length_filter_le _ _ | with_reducible exact rfl | intro _ | extract_lets
    | with_reducible first | apply State.awake_keeps | apply State.urgentSlot_keeps | apply keeps_ite | apply foldl_keeps | apply keepsO_ite | apply keepsO_next
    | split
    | with_reducible refine keepsP_snd (by assumption) ?_ | with_reducible refine keepsP_snd2 (by assumption) ?_
    | with_reducible apply Keeps.parts | simp only [keeps_mk]
    | dsimp only | simp +zetaDelta only [keeps_mk] | dsimp +zetaDelta only

theorem execUrgentCommand_keeps (h : Keeps s t) : KeepsO s (execUrgentCommand a1 a2 a3 t) := by
  unfold execUrgentCommand
  repeat' first
    | with_reducible assumption | with_reducible exact Nat.le_refl _ | with_reducible exact List.length_filter_le _ _ | with_reducible exact rfl | intro _ | extract_lets
    | with_reducible first | apply State.awake_keeps | apply State.adcCommand_keeps | apply keeps_ite | apply foldl_keeps | apply keepsO_ite | apply keepsO_next
    | split
    | with_reducible refine keepsP_snd (by assumption) ?_ | with_reducible refine keepsP_snd2 (by assumption) ?_
    | with_reducible apply Keeps.parts | simp only [keeps_mk]
    | dsimp only | simp +zetaDelta only [keeps_mk] | dsimp +zetaDelta only

theorem execRecheckAdc_keeps (h : Keeps s t) : KeepsO s (execRecheckAdc a1 a2 a3 t) := by
  unfold execRecheckAdc
  repeat' first
    | with_reducible assumption | with_reducible exact Nat.le_refl _ | with_reducible exact List.length_filter_le _ _ | with_reducible exact rfl | intro _ | extract_lets
    | with_reducible first | apply State.awake_keeps | apply State.adcCommand_keeps | apply keeps_ite | apply foldl_keeps | apply keepsO_ite | apply keepsO_next
    | split
    | with_reducible refine keepsP_snd (by assumption) ?_ | with_reducible refine keepsP_snd2 (by assumption) ?_
    | with_reducible apply Keeps.parts | simp only [keeps_mk]
    | dsimp only | simp +zetaDelta only [keeps_mk] | dsimp +zetaDelta only

theorem execRecheckComplete_keeps (h : Keeps s t) : KeepsO s (execRecheckComplete a1 a2 t) := by
  unfold execRecheckComplete
  repeat' first
    | with_reducible assumption | with_reducible exact Nat.le_refl _ | with_reducible exact List.length_filter_le _ _ | with_reducible exact rfl | intro _ | extract_lets
    | with_reducible first | apply State.awake_keeps | apply State.recheckEnd_keeps | apply keeps_ite | apply foldl_keeps | apply keepsO_ite | apply keepsO_next
    | split
    | with_reducible refine keepsP_snd (by assumption) ?_ | with_reducible refine keepsP_snd2 (by assumption) ?_
    | with_reducible apply Keeps.parts | simp only [keeps_mk]
    | dsimp only | simp +zetaDelta only [keeps_mk] | dsimp +zetaDelta only

theorem execOfflineAdc_keeps (h : Keeps s t) : KeepsO s (execOfflineAdc a1 a2 a3 t) := by
  unfold execOfflineAdc
  repeat' first
    | with_reducible assumption | with_reducible exact Nat.le_refl _ | with_reducible exact List.length_filter_le _ _ | with_reducible exact rfl | intro _ | extract_lets
    | with_reducible first | apply State.awake_keeps | apply State.adcCommand_keeps | apply keeps_ite | apply foldl_keeps | apply keepsO_ite | apply keepsO_next
    | split
    | with_reducible refine keepsP_snd (by assumption) ?_ | with_reducible refine keepsP_snd2 (by assumption) ?_
    | with_reducible apply Keeps.parts | simp only [keeps_mk]
    | dsimp only | simp +zetaDelta only [keeps_mk] | dsimp +zetaDelta only

end Sys2Proof.Machine
end

