-- ==== Sys2Proof/Laws/KeepsTimebase.lean ====
section
/-! SUPPORT. Every operation of Machine/Timebase.lean keeps what `Keeps` says. -/

namespace Sys2Proof.Machine

theorem State.tbTo_keeps (h : Keeps s t) : Keeps s (State.tbTo t a1) := by
  unfold State.tbTo
  repeat' first
    | intro _ | extract_lets
    | with_reducible first | assumption | apply State.irq_keeps | apply State.onTim_keeps | apply State.setBit_keeps | apply keeps_ite
         | apply keeps_dite | apply foldl_keeps
                            | refine keepsP_snd (by assumption) ?_ | refine keepsP_snd2 (by assumption) ?_ | apply Keeps.parts
    | split | simp only [keeps_mk]

theorem State.tbAcquire_keeps (h : Keeps s t) : Keeps s (State.tbAcquire t a1) := by
  unfold State.tbAcquire
  repeat' first
    | intro _ | extract_lets
    | with_reducible first | assumption | apply State.onTim_keeps | apply State.tbTo_keeps

theorem State.tbHoldover_keeps (h : Keeps s t) : Keeps s (State.tbHoldover t a1) := by
  unfold State.tbHoldover
  repeat' first
    | intro _ | extract_lets
    | with_reducible first | assumption | apply State.log_keeps | apply State.life_keeps | apply State.onTim_keeps | apply State.tbTo_keeps

theorem State.tbLost_keeps (h : Keeps s t) : Keeps s (State.tbLost t) := by
  unfold State.tbLost
  repeat' first
    | intro _ | extract_lets
    | with_reducible first | assumption | apply State.tbHoldover_keeps | apply keeps_ite

theorem State.tbMaster_keeps (h : Keeps s t) : Keeps s (State.tbMaster t) := by
  unfold State.tbMaster
  repeat' first
    | intro _ | extract_lets
    | with_reducible first | assumption | apply State.onTim_keeps | apply State.tbTo_keeps

theorem State.tbRoles_keeps (h : Keeps s t) : Keeps s (State.tbRoles t a1) := by
  unfold State.tbRoles
  repeat' first
    | intro _ | extract_lets
    | with_reducible first | assumption | apply State.tbAcquire_keeps | apply State.tbMaster_keeps | apply State.tbLost_keeps | apply keeps_ite
         | apply keeps_dite | apply foldl_keeps
    | split

theorem State.bmca_keeps (h : Keeps s t) : Keeps s (State.bmca t a1 a2 a3) := by
  unfold State.bmca
  repeat' first
    | intro _ | extract_lets
    | with_reducible first | assumption | apply State.tbRoles_keeps | apply State.onTim_keeps

theorem State.announced_keeps (h : Keeps s t) : Keeps s (State.announced t a1 a2 a3 a4) := by
  unfold State.announced
  repeat' first
    | with_reducible assumption | with_reducible exact Nat.le_refl _ | with_reducible exact List.length_filter_le _ _ | with_reducible exact rfl | intro _ | extract_lets
    | with_reducible first | apply State.bmca_keeps | apply State.onTim_keeps | apply keeps_ite | apply keeps_dite | apply foldl_keeps
    | split
    | with_reducible refine keepsP_snd (by assumption) ?_ | with_reducible refine keepsP_snd2 (by assumption) ?_
    | with_reducible apply Keeps.parts | simp only [keeps_mk]
    | dsimp only | simp +zetaDelta only [keeps_mk] | dsimp +zetaDelta only

theorem State.announceLost_keeps (h : Keeps s t) : Keeps s (State.announceLost t a1 a2 a3 a4) := by
  unfold State.announceLost
  repeat' first
    | with_reducible assumption | with_reducible exact Nat.le_refl _ | with_reducible exact List.length_filter_le _ _ | with_reducible exact rfl | intro _ | extract_lets
    | with_reducible first | apply State.bmca_keeps | apply State.onTim_keeps | apply keeps_ite | apply keeps_dite | apply foldl_keeps
    | split
    | with_reducible refine keepsP_snd (by assumption) ?_ | with_reducible refine keepsP_snd2 (by assumption) ?_
    | with_reducible apply Keeps.parts | simp only [keeps_mk]
    | dsimp only | simp +zetaDelta only [keeps_mk] | dsimp +zetaDelta only

theorem State.syncLost_keeps (h : Keeps s t) : Keeps s (State.syncLost t) := by
  unfold State.syncLost
  repeat' first
    | with_reducible assumption | with_reducible exact Nat.le_refl _ | with_reducible exact List.length_filter_le _ _ | with_reducible exact rfl | intro _ | extract_lets
    | with_reducible first | apply State.tbLost_keeps | apply State.onTim_keeps | apply keeps_ite | apply keeps_dite | apply foldl_keeps
    | split
    | with_reducible refine keepsP_snd (by assumption) ?_ | with_reducible refine keepsP_snd2 (by assumption) ?_
    | with_reducible apply Keeps.parts | simp only [keeps_mk]
    | dsimp only | simp +zetaDelta only [keeps_mk] | dsimp +zetaDelta only

theorem State.receiptClock_keeps (h : Keeps s t) : Keeps s (State.receiptClock t) := by
  unfold State.receiptClock
  repeat' first
    | with_reducible assumption | with_reducible exact Nat.le_refl _ | with_reducible exact List.length_filter_le _ _ | with_reducible exact rfl | intro _ | extract_lets
    | with_reducible first | apply State.onTim_keeps | apply keeps_ite | apply keeps_dite | apply foldl_keeps
    | split
    | with_reducible refine keepsP_snd (by assumption) ?_ | with_reducible refine keepsP_snd2 (by assumption) ?_
    | with_reducible apply Keeps.parts | simp only [keeps_mk]
    | dsimp only | simp +zetaDelta only [keeps_mk] | dsimp +zetaDelta only

theorem State.tbPortDown_keeps (h : Keeps s t) : Keeps s (State.tbPortDown t a1 a2) := by
  unfold State.tbPortDown
  repeat' first
    | intro _ | extract_lets
    | with_reducible first | assumption | apply State.onTim_keeps | apply State.tbTo_keeps | apply State.tbLost_keeps | apply keeps_ite

theorem State.servoLock_keeps (h : Keeps s t) : Keeps s (State.servoLock t) := by
  unfold State.servoLock
  repeat' first
    | intro _ | extract_lets
    | with_reducible first | assumption | apply State.onTim_keeps | apply State.tbTo_keeps | apply setVal_keeps | apply keeps_ite

theorem State.outlierReturn_keeps (h : Keeps s t) : Keeps s (State.outlierReturn t) := by
  unfold State.outlierReturn
  repeat' first
    | intro _ | extract_lets
    | with_reducible first | assumption | apply State.tbAcquire_keeps | apply keeps_ite

theorem State.servoDiverge_keeps (h : Keeps s t) : Keeps s (State.servoDiverge t) := by
  unfold State.servoDiverge
  repeat' first
    | intro _ | extract_lets
    | with_reducible first | assumption | apply State.tbHoldover_keeps | apply State.onTim_keeps | apply State.flag_keeps | apply keeps_ite

theorem State.rateMean_keeps (h : Keeps s t) : Keeps s (State.rateMean t) := by
  unfold State.rateMean
  repeat' first
    | intro _ | extract_lets
    | with_reducible first | assumption | apply State.wrI_keeps | apply keeps_ite

theorem State.servoSlewEnd_keeps (h : Keeps s t) : Keeps s (State.servoSlewEnd t) := by
  unfold State.servoSlewEnd
  repeat' first
    | intro _ | extract_lets
    | with_reducible first | assumption | apply State.onTim_keeps

theorem State.servo_keeps (h : Keeps s t) : Keeps s (State.servo t a1 a2) := by
  unfold State.servo
  repeat' first
    | intro _ | extract_lets
    | with_reducible first | assumption | apply State.onTim_keeps | apply State.servoDiverge_keeps | apply State.servoLock_keeps
         | apply State.rateMean_keeps | apply State.wrI_keeps | apply keeps_ite

theorem State.useSync_keeps (h : Keeps s t) : Keeps s (State.useSync t a1 a2 a3) := by
  unfold State.useSync
  repeat' first
    | with_reducible assumption | with_reducible exact Nat.le_refl _ | with_reducible exact List.length_filter_le _ _ | with_reducible exact rfl | intro _ | extract_lets
    | with_reducible first | apply State.outlierReturn_keeps | apply State.onTim_keeps | apply State.servo_keeps | apply keeps_ite | apply keeps_dite | apply foldl_keeps
    | split
    | with_reducible refine keepsP_snd (by assumption) ?_ | with_reducible refine keepsP_snd2 (by assumption) ?_
    | with_reducible apply Keeps.parts | simp only [keeps_mk]
    | dsimp only | simp +zetaDelta only [keeps_mk] | dsimp +zetaDelta only

theorem State.onSync_keeps (h : Keeps s t) : Keeps s (State.onSync t a1 a2 a3) := by
  unfold State.onSync
  repeat' first
    | with_reducible assumption | with_reducible exact Nat.le_refl _ | with_reducible exact List.length_filter_le _ _ | with_reducible exact rfl | intro _ | extract_lets
    | with_reducible first | apply State.useSync_keeps | apply State.onTim_keeps | apply keeps_ite | apply keeps_dite | apply foldl_keeps
    | split
    | with_reducible refine keepsP_snd (by assumption) ?_ | with_reducible refine keepsP_snd2 (by assumption) ?_
    | with_reducible apply Keeps.parts | simp only [keeps_mk]
    | dsimp only | simp +zetaDelta only [keeps_mk] | dsimp +zetaDelta only

theorem State.pdelay_keeps (h : Keeps s t) : Keeps s (State.pdelay t a1 a2) := by
  unfold State.pdelay
  repeat' first
    | intro _ | extract_lets
    | with_reducible first | assumption | apply State.onTim_keeps | apply keeps_ite | apply keeps_dite | apply foldl_keeps
    | split

theorem State.timRate_keeps (h : Keeps s t) : KeepsP s (State.timRate t a1) := by
  unfold State.timRate
  repeat' first
    | intro _ | extract_lets
    | with_reducible first | assumption | apply State.onTim_keeps | apply keeps_ite | apply foldl_keeps | apply keepsP_ite

theorem State.timAdj_keeps (h : Keeps s t) : KeepsP s (State.timAdj t a1) := by
  unfold State.timAdj
  repeat' first
    | intro _ | extract_lets
    | with_reducible first | assumption | apply State.onTim_keeps | apply keeps_ite | apply foldl_keeps | apply keepsP_ite

theorem State.slewComplete_keeps (h : Keeps s t) : Keeps s (State.slewComplete t) := by
  unfold State.slewComplete
  repeat' first
    | intro _ | extract_lets
    | with_reducible first | assumption | apply State.onTim_keeps | apply keeps_ite

theorem State.timeClock_keeps (h : Keeps s t) : Keeps s (State.timeClock t) := by
  unfold State.timeClock
  repeat' first
    | intro _ | extract_lets
    | with_reducible first | assumption | apply State.onTim_keeps

theorem State.recordEdge_keeps (h : Keeps s t) : Keeps s (State.recordEdge t) := by
  unfold State.recordEdge
  repeat' first
    | intro _ | extract_lets
    | with_reducible first | assumption | apply State.onTim_keeps

theorem State.timeStep_keeps (h : Keeps s t) : Keeps s (State.timeStep t) := by
  unfold State.timeStep
  repeat' first
    | intro _ | extract_lets
    | with_reducible first | assumption | apply State.onTim_keeps | apply keeps_ite | apply keeps_dite | apply foldl_keeps
    | split

theorem State.probeItem_keeps (h : Keeps s t) : Keeps s (State.probeItem t a1) := by
  unfold State.probeItem
  repeat' first
    | with_reducible assumption | with_reducible exact Nat.le_refl _ | with_reducible exact List.length_filter_le _ _ | with_reducible exact rfl | intro _ | extract_lets
    | with_reducible first | apply State.setBit_keeps | apply State.onAx_keeps | apply keeps_ite | apply keeps_dite | apply foldl_keeps
    | split
    | with_reducible refine keepsP_snd (by assumption) ?_ | with_reducible refine keepsP_snd2 (by assumption) ?_
    | with_reducible apply Keeps.parts | simp only [keeps_mk]
    | dsimp only | simp +zetaDelta only [keeps_mk] | dsimp +zetaDelta only

theorem State.probesStart_keeps (h : Keeps s t) : Keeps s (State.probesStart t a1) := by
  unfold State.probesStart
  repeat' first
    | with_reducible assumption | with_reducible exact Nat.le_refl _ | with_reducible exact List.length_filter_le _ _ | with_reducible exact rfl | intro _ | extract_lets
    | with_reducible first | apply State.probeItem_keeps | apply overList_keeps | apply keeps_ite | apply keeps_dite | apply foldl_keeps
    | split
    | with_reducible refine keepsP_snd (by assumption) ?_ | with_reducible refine keepsP_snd2 (by assumption) ?_
    | with_reducible apply Keeps.parts | simp only [keeps_mk]
    | dsimp only | simp +zetaDelta only [keeps_mk] | dsimp +zetaDelta only

theorem State.serveReserve_keeps (h : Keeps s t) : Keeps s (State.serveReserve t) := by
  unfold State.serveReserve
  repeat' first
    | with_reducible assumption | with_reducible exact Nat.le_refl _ | with_reducible exact List.length_filter_le _ _ | with_reducible exact rfl | intro _ | extract_lets
    | with_reducible first | apply State.probesStart_keeps | apply keeps_ite | apply keeps_dite | apply foldl_keeps
    | split
    | with_reducible refine keepsP_snd (by assumption) ?_ | with_reducible refine keepsP_snd2 (by assumption) ?_
    | with_reducible apply Keeps.parts | simp only [keeps_mk]
    | dsimp only | simp +zetaDelta only [keeps_mk] | dsimp +zetaDelta only

theorem State.laneEdge_keeps (h : Keeps s t) : Keeps s (State.laneEdge t) := by
  unfold State.laneEdge
  repeat' first
    | intro _ | extract_lets
    | with_reducible first | assumption | apply State.wr_keeps | apply keeps_ite | apply keeps_dite | apply foldl_keeps
         | refine keepsP_snd (by assumption) ?_
                            | refine keepsP_snd2 (by assumption) ?_ | apply Keeps.parts
    | split | simp only [keeps_mk]

theorem State.ovbClear_keeps (h : Keeps s t) : Keeps s (State.ovbClear t a1) := by
  unfold State.ovbClear
  repeat' first
    | intro _ | extract_lets
    | with_reducible first | assumption | apply State.wr_keeps | apply overList_keeps | apply keeps_ite

theorem execSyncMsg_keeps (h : Keeps s t) : KeepsO s (execSyncMsg a1 a2 a3 t) := by
  unfold execSyncMsg
  repeat' first
    | with_reducible assumption | with_reducible exact Nat.le_refl _ | with_reducible exact List.length_filter_le _ _ | with_reducible exact rfl | intro _ | extract_lets
    | with_reducible first | apply State.awake_keeps | apply State.onSync_keeps | apply keeps_ite | apply foldl_keeps | apply keepsO_ite | apply keepsO_next
    | split
    | with_reducible refine keepsP_snd (by assumption) ?_ | with_reducible refine keepsP_snd2 (by assumption) ?_
    | with_reducible apply Keeps.parts | simp only [keeps_mk]
    | dsimp only | simp +zetaDelta only [keeps_mk] | dsimp +zetaDelta only

theorem execServoLock_keeps (h : Keeps s t) : KeepsO s (execServoLock t) := by
  unfold execServoLock
  repeat' first
    | with_reducible assumption | with_reducible exact Nat.le_refl _ | with_reducible exact List.length_filter_le _ _ | with_reducible exact rfl | intro _ | extract_lets
    | with_reducible first | apply State.awake_keeps | apply State.servoLock_keeps | apply keeps_ite | apply foldl_keeps | apply keepsO_ite | apply keepsO_next
    | split
    | with_reducible refine keepsP_snd (by assumption) ?_ | with_reducible refine keepsP_snd2 (by assumption) ?_
    | with_reducible apply Keeps.parts | simp only [keeps_mk]
    | dsimp only | simp +zetaDelta only [keeps_mk] | dsimp +zetaDelta only

theorem execOutlierReturn_keeps (h : Keeps s t) : KeepsO s (execOutlierReturn t) := by
  unfold execOutlierReturn
  repeat' first
    | with_reducible assumption | with_reducible exact Nat.le_refl _ | with_reducible exact List.length_filter_le _ _ | with_reducible exact rfl | intro _ | extract_lets
    | with_reducible first | apply State.awake_keeps | apply State.outlierReturn_keeps | apply keeps_ite | apply foldl_keeps | apply keepsO_ite | apply keepsO_next
    | split
    | with_reducible refine keepsP_snd (by assumption) ?_ | with_reducible refine keepsP_snd2 (by assumption) ?_
    | with_reducible apply Keeps.parts | simp only [keeps_mk]
    | dsimp only | simp +zetaDelta only [keeps_mk] | dsimp +zetaDelta only

theorem execServoDiverge_keeps (h : Keeps s t) : KeepsO s (execServoDiverge t) := by
  unfold execServoDiverge
  repeat' first
    | with_reducible assumption | with_reducible exact Nat.le_refl _ | with_reducible exact List.length_filter_le _ _ | with_reducible exact rfl | intro _ | extract_lets
    | with_reducible first | apply State.awake_keeps | apply State.servoDiverge_keeps | apply keeps_ite | apply foldl_keeps | apply keepsO_ite | apply keepsO_next
    | split
    | with_reducible refine keepsP_snd (by assumption) ?_ | with_reducible refine keepsP_snd2 (by assumption) ?_
    | with_reducible apply Keeps.parts | simp only [keeps_mk]
    | dsimp only | simp +zetaDelta only [keeps_mk] | dsimp +zetaDelta only

theorem execSyncReceiptTimeout_keeps (h : Keeps s t) : KeepsO s (execSyncReceiptTimeout t) := by
  unfold execSyncReceiptTimeout
  repeat' first
    | with_reducible assumption | with_reducible exact Nat.le_refl _ | with_reducible exact List.length_filter_le _ _ | with_reducible exact rfl | intro _ | extract_lets
    | with_reducible first | apply State.awake_keeps | apply State.syncLost_keeps | apply keeps_ite | apply foldl_keeps | apply keepsO_ite | apply keepsO_next
    | split
    | with_reducible refine keepsP_snd (by assumption) ?_ | with_reducible refine keepsP_snd2 (by assumption) ?_
    | with_reducible apply Keeps.parts | simp only [keeps_mk]
    | dsimp only | simp +zetaDelta only [keeps_mk] | dsimp +zetaDelta only

theorem execAnnounceMsg_keeps (h : Keeps s t) : KeepsO s (execAnnounceMsg a1 a2 a3 a4 t) := by
  unfold execAnnounceMsg
  repeat' first
    | with_reducible assumption | with_reducible exact Nat.le_refl _ | with_reducible exact List.length_filter_le _ _ | with_reducible exact rfl | intro _ | extract_lets
    | with_reducible first | apply State.awake_keeps | apply State.announced_keeps | apply keeps_ite | apply foldl_keeps | apply keepsO_ite | apply keepsO_next
    | split
    | with_reducible refine keepsP_snd (by assumption) ?_ | with_reducible refine keepsP_snd2 (by assumption) ?_
    | with_reducible apply Keeps.parts | simp only [keeps_mk]
    | dsimp only | simp +zetaDelta only [keeps_mk] | dsimp +zetaDelta only

theorem execAnnounceReceiptTimeout_keeps (h : Keeps s t) : KeepsO s (execAnnounceReceiptTimeout a1 a2 a3 a4 t) := by
  unfold execAnnounceReceiptTimeout
  repeat' first
    | with_reducible assumption | with_reducible exact Nat.le_refl _ | with_reducible exact List.length_filter_le _ _ | with_reducible exact rfl | intro _ | extract_lets
    | with_reducible first | apply State.awake_keeps | apply State.announceLost_keeps | apply keeps_ite | apply foldl_keeps | apply keepsO_ite | apply keepsO_next
    | split
    | with_reducible refine keepsP_snd (by assumption) ?_ | with_reducible refine keepsP_snd2 (by assumption) ?_
    | with_reducible apply Keeps.parts | simp only [keeps_mk]
    | dsimp only | simp +zetaDelta only [keeps_mk] | dsimp +zetaDelta only

theorem execPdelayExchange_keeps (h : Keeps s t) : KeepsO s (execPdelayExchange a1 a2 t) := by
  unfold execPdelayExchange
  repeat' first
    | with_reducible assumption | with_reducible exact Nat.le_refl _ | with_reducible exact List.length_filter_le _ _ | with_reducible exact rfl | intro _ | extract_lets
    | with_reducible first | apply State.awake_keeps | apply State.pdelay_keeps | apply keeps_ite | apply foldl_keeps | apply keepsO_ite | apply keepsO_next
    | split
    | with_reducible refine keepsP_snd (by assumption) ?_ | with_reducible refine keepsP_snd2 (by assumption) ?_
    | with_reducible apply Keeps.parts | simp only [keeps_mk]
    | dsimp only | simp +zetaDelta only [keeps_mk] | dsimp +zetaDelta only

theorem execTimeStep_keeps (h : Keeps s t) : KeepsO s (execTimeStep t) := by
  unfold execTimeStep
  repeat' first
    | with_reducible assumption | with_reducible exact Nat.le_refl _ | with_reducible exact List.length_filter_le _ _ | with_reducible exact rfl | intro _ | extract_lets
    | with_reducible first | apply State.awake_keeps | apply State.timeStep_keeps | apply keeps_ite | apply foldl_keeps | apply keepsO_ite | apply keepsO_next
    | split
    | with_reducible refine keepsP_snd (by assumption) ?_ | with_reducible refine keepsP_snd2 (by assumption) ?_
    | with_reducible apply Keeps.parts | simp only [keeps_mk]
    | dsimp only | simp +zetaDelta only [keeps_mk] | dsimp +zetaDelta only

theorem execSlewComplete_keeps (h : Keeps s t) : KeepsO s (execSlewComplete t) := by
  unfold execSlewComplete
  repeat' first
    | with_reducible assumption | with_reducible exact Nat.le_refl _ | with_reducible exact List.length_filter_le _ _ | with_reducible exact rfl | intro _ | extract_lets
    | with_reducible first | apply State.awake_keeps | apply State.servoSlewEnd_keeps | apply State.slewComplete_keeps | apply keeps_ite | apply foldl_keeps | apply keepsO_ite | apply keepsO_next
    | split
    | with_reducible refine keepsP_snd (by assumption) ?_ | with_reducible refine keepsP_snd2 (by assumption) ?_
    | with_reducible apply Keeps.parts | simp only [keeps_mk]
    | dsimp only | simp +zetaDelta only [keeps_mk] | dsimp +zetaDelta only

end Sys2Proof.Machine
end

