-- ==== Sys2Proof/Laws/KeepsRegWrite.lean ====
section
/-! SUPPORT. Every operation of Machine/RegWrite.lean keeps what `Keeps` says. -/

namespace Sys2Proof.Machine

theorem State.afterAx_keeps (h : Keeps s t) : Keeps s (State.afterAx t a1 a2 a3 a4) := by
  unfold State.afterAx
  repeat' first
    | with_reducible assumption | with_reducible exact Nat.le_refl _ | with_reducible exact List.length_filter_le _ _ | with_reducible exact rfl | intro _ | extract_lets
    | with_reducible first | apply State.onMot_keeps | apply State.onFol_keeps | apply State.seed_keeps | apply State.setBit_keeps | apply keeps_ite | apply keeps_dite | apply foldl_keeps
    | split
    | with_reducible refine keepsP_snd (by assumption) ?_ | with_reducible refine keepsP_snd2 (by assumption) ?_
    | with_reducible apply Keeps.parts | simp only [keeps_mk]
    | dsimp only | simp +zetaDelta only [keeps_mk] | dsimp +zetaDelta only

theorem State.afterUnit_keeps (h : Keeps s t) : Keeps s (State.afterUnit t a1 a2 a3) := by
  unfold State.afterUnit
  repeat' first
    | with_reducible assumption | with_reducible exact Nat.le_refl _ | with_reducible exact List.length_filter_le _ _ | with_reducible exact rfl | intro _ | extract_lets
    | with_reducible first | apply State.onUnit_keeps | apply State.setFld_keeps | apply State.dtShow_keeps | apply keeps_ite | apply keeps_dite | apply foldl_keeps
    | split
    | with_reducible refine keepsP_snd (by assumption) ?_ | with_reducible refine keepsP_snd2 (by assumption) ?_
    | with_reducible apply Keeps.parts | simp only [keeps_mk]
    | dsimp only | simp +zetaDelta only [keeps_mk] | dsimp +zetaDelta only

theorem State.tripConfig_keeps (h : Keeps s t) : Keeps s (State.tripConfig t a1) := by
  unfold State.tripConfig
  repeat' first
    | intro _ | extract_lets
    | with_reducible first | assumption | apply State.tripShow_keeps | apply State.tripAct_keeps | apply State.onStage_keeps | apply keeps_ite

theorem State.after_keeps (h : Keeps s t) : Keeps s (State.after t a1 a2 a3) := by
  unfold State.after
  repeat' first
    | with_reducible assumption | with_reducible exact Nat.le_refl _ | with_reducible exact List.length_filter_le _ _ | with_reducible exact rfl | intro _ | extract_lets
    | with_reducible first | apply State.afterAx_keeps | apply State.afterUnit_keeps | apply State.settleInput_keeps | apply State.onFrc_keeps | apply State.cmpHold_keeps | apply State.wakeAgain_keeps | apply State.onCmps_keeps | apply State.tripConfig_keeps | apply onFlt_keeps | apply keeps_ite | apply keeps_dite | apply foldl_keeps
    | split
    | with_reducible refine keepsP_snd (by assumption) ?_ | with_reducible refine keepsP_snd2 (by assumption) ?_
    | with_reducible apply Keeps.parts | simp only [keeps_mk]
    | dsimp only | simp +zetaDelta only [keeps_mk] | dsimp +zetaDelta only

theorem State.clearBits_keeps (h : Keeps s t) : Keeps s (State.clearBits t a1 a2) := by
  unfold State.clearBits
  repeat' first
    | intro _ | extract_lets
    | with_reducible first | assumption | apply State.clearFlag_keeps | apply overList_keeps

theorem State.w1c_keeps (h : Keeps s t) : KeepsP s (State.w1c t a1 a2) := by
  unfold State.w1c
  repeat' first
    | intro _ | extract_lets
    | with_reducible first | assumption | apply State.tripClear_keeps | apply State.clearBits_keeps | apply State.shortClear_keeps | apply keeps_ite
         | apply foldl_keeps | apply keepsP_ite | apply keepsP_dite

theorem State.place_keeps (h : Keeps s t) : Keeps s (State.place t a1 a2 a3) := by
  unfold State.place
  repeat' first
    | with_reducible assumption | with_reducible exact Nat.le_refl _ | with_reducible exact List.length_filter_le _ _ | with_reducible exact rfl | intro _ | extract_lets
    | with_reducible first | apply State.keepUse_keeps | apply setVal_keeps | apply keeps_ite | apply keeps_dite | apply foldl_keeps
    | split
    | with_reducible refine keepsP_snd (by assumption) ?_ | with_reducible refine keepsP_snd2 (by assumption) ?_
    | with_reducible apply Keeps.parts | simp only [keeps_mk]
    | dsimp only | simp +zetaDelta only [keeps_mk] | dsimp +zetaDelta only

theorem State.regWrite_keeps (h : Keeps s t) : KeepsP s (State.regWrite t a1 a2 a3 a4) := by
  unfold State.regWrite
  repeat' first
    | with_reducible assumption | with_reducible exact Nat.le_refl _ | with_reducible exact List.length_filter_le _ _ | with_reducible exact rfl | intro _ | extract_lets
    | with_reducible first | apply State.timRate_keeps | apply State.timAdj_keeps | apply State.w1c_keeps | apply State.after_keeps | apply State.place_keeps | apply setVal_keeps | apply keeps_ite | apply foldl_keeps | apply keepsP_ite | apply keepsP_dite
    | split
    | with_reducible refine keepsP_snd (by assumption) ?_ | with_reducible refine keepsP_snd2 (by assumption) ?_
    | with_reducible apply Keeps.parts | simp only [keeps_mk]
    | dsimp only | simp +zetaDelta only [keeps_mk] | dsimp +zetaDelta only

theorem State.clearReg_keeps (h : Keeps s t) : Keeps s (State.clearReg t a1 a2) := by
  unfold State.clearReg
  repeat' first
    | with_reducible assumption | with_reducible exact Nat.le_refl _ | with_reducible exact List.length_filter_le _ _ | with_reducible exact rfl | intro _ | extract_lets
    | with_reducible first | apply State.setFld_keeps | apply State.wr_keeps | apply overList_keeps | apply keeps_ite | apply keeps_dite | apply foldl_keeps
    | split
    | with_reducible refine keepsP_snd (by assumption) ?_ | with_reducible refine keepsP_snd2 (by assumption) ?_
    | with_reducible apply Keeps.parts | simp only [keeps_mk]
    | dsimp only | simp +zetaDelta only [keeps_mk] | dsimp +zetaDelta only

theorem State.mclr_keeps (h : Keeps s t) : KeepsP s (State.mclr t a1) := by
  unfold State.mclr
  repeat' first
    | intro _ | extract_lets
    | with_reducible first | assumption | apply State.modRestart_keeps | apply State.modCountClear_keeps | apply keeps_ite | apply foldl_keeps
         | apply keepsP_ite | apply keepsP_dite

end Sys2Proof.Machine
end

