-- ==== Sys2Proof/Laws/KeepsWordWrite.lean ====
section
/-! SUPPORT. Every operation of Machine/WordWrite.lean keeps what `Keeps` says. -/

namespace Sys2Proof.Machine

theorem State.stageWord_keeps (h : Keeps s t) : Keeps s (State.stageWord t a1 a2 a3 a4) := by
  unfold State.stageWord
  repeat' first
    | intro _ | extract_lets
    | with_reducible first | assumption | apply State.onAcc_keeps

theorem State.unstage_keeps (h : Keeps s t) : Keeps s (State.unstage t a1 a2 a3) := by
  unfold State.unstage
  repeat' first
    | intro _ | extract_lets
    | with_reducible first | assumption | apply State.onAcc_keeps

theorem State.commitValue_keeps (h : Keeps s t) : KeepsP s (State.commitValue t a1 a2 a3 a4 a5) := by
  unfold State.commitValue
  repeat' first
    | intro _ | extract_lets
    | with_reducible first | assumption | apply State.unstage_keeps | apply State.regWrite_keeps | apply keeps_ite | apply foldl_keeps
         | apply keepsP_ite

theorem State.ownWrite_keeps {r : Status × State} (h : Keeps s t) (e : State.ownWrite t a1 a2 a3 a4 a5 = some r) : KeepsP s r := by
  unfold State.ownWrite at e
  extract_lets at e
  repeat' first
    | (split at e)
    | (simp only [Option.some.injEq] at e; subst e; first | exact h | exact State.onAcc_keeps h | exact keepsP_ite h (State.onAcc_keeps h) | exact keepsP_ite (State.onAcc_keeps h) h)
    | contradiction

theorem State.wordWrite_keeps (h : Keeps s t) : KeepsP s (State.wordWrite t a1 a2 a3 a4) := by
  unfold State.wordWrite
  split
  · exact h
  · split
    · exact State.ownWrite_keeps h ‹_›
    · split
      · split
        · exact State.stageWord_keeps h
        · exact State.commitValue_keeps h
      · exact State.regWrite_keeps h

theorem State.freshAcc_keeps (h : Keeps s t) : Keeps s (State.freshAcc t a1) := by
  unfold State.freshAcc
  repeat' first
    | intro _ | extract_lets
    | with_reducible first | assumption | apply State.onAcc_keeps

end Sys2Proof.Machine
end

