-- ==== Sys2Proof/Laws/KeepsWorlds.lean ====
section
/-! SUPPORT. Every operation of Machine/Worlds.lean keeps what `Keeps` says. -/

namespace Sys2Proof.Machine

theorem State.onNet_keeps (h : Keeps s t) : Keeps s (State.onNet t a1) := by
  unfold State.onNet
  repeat' first
    | intro _ | extract_lets
    | with_reducible first | assumption | apply keeps_ite | apply keeps_dite | apply foldl_keeps | refine keepsP_snd (by assumption) ?_
                            | refine keepsP_snd2 (by assumption) ?_ | apply Keeps.parts
    | split | simp only [keeps_mk]

theorem State.violate_keeps (h : Keeps s t) : Keeps s (State.violate t a1 a2 a3) := by
  unfold State.violate
  repeat' first
    | intro _ | extract_lets
    | with_reducible first | assumption | apply State.bump_keeps | apply State.irq_keeps | apply State.setBit_keeps | apply State.wr_keeps
         | apply State.log_keeps | apply State.onAcc_keeps | apply keeps_ite

theorem State.vioClear_keeps (h : Keeps s t) : Keeps s (State.vioClear t) := by
  unfold State.vioClear
  repeat' first
    | intro _ | extract_lets
    | with_reducible first | assumption | apply keeps_ite | apply keeps_dite | apply foldl_keeps | refine keepsP_snd (by assumption) ?_
                            | refine keepsP_snd2 (by assumption) ?_ | apply Keeps.parts
    | split | simp only [keeps_mk]

theorem State.boreEmpty_keeps (h : Keeps s t) : Keeps s (State.boreEmpty t) := by
  unfold State.boreEmpty
  repeat' first
    | intro _ | extract_lets
    | with_reducible first | assumption | exact Nat.le_refl _ | exact List.length_filter_le _ _ | exact rfl | apply State.wr_keeps
         | apply onBore_keeps

theorem State.boreDiscard_keeps (h : Keeps s t) : Keeps s (State.boreDiscard t) := by
  unfold State.boreDiscard
  repeat' first
    | intro _ | extract_lets
    | with_reducible first | assumption | apply State.boreEmpty_keeps | apply State.log_keeps | apply State.cmdstat_keeps | apply keeps_ite

theorem State.revertMap_keeps (h : Keeps s t) : Keeps s (State.revertMap t) := by
  unfold State.revertMap
  repeat' first
    | intro _ | extract_lets
    | with_reducible first | assumption | apply State.wr_keeps | apply overList_keeps

theorem State.tokenMove_keeps (h : Keeps s t) : Keeps s (State.tokenMove t a1) := by
  unfold State.tokenMove
  repeat' first
    | with_reducible assumption | with_reducible exact Nat.le_refl _ | with_reducible exact List.length_filter_le _ _ | with_reducible exact rfl | intro _ | extract_lets
    | with_reducible first | apply State.boreDiscard_keeps | apply State.revertMap_keeps | apply State.setFld_keeps | apply onWld_keeps | apply keeps_ite | apply keeps_dite | apply foldl_keeps
    | split
    | with_reducible refine keepsP_snd (by assumption) ?_ | with_reducible refine keepsP_snd2 (by assumption) ?_
    | with_reducible apply Keeps.parts | simp only [keeps_mk]
    | dsimp only | simp +zetaDelta only [keeps_mk] | dsimp +zetaDelta only

theorem State.giveFails_keeps (h : Keeps s t) : Keeps s (State.giveFails t) := by
  unfold State.giveFails
  repeat' first
    | with_reducible assumption | with_reducible exact Nat.le_refl _ | with_reducible exact List.length_filter_le _ _ | with_reducible exact rfl | intro _ | extract_lets
    | with_reducible first | apply State.finish_keeps | apply onWld_keeps | apply keeps_ite | apply keeps_dite | apply foldl_keeps
    | split
    | with_reducible refine keepsP_snd (by assumption) ?_ | with_reducible refine keepsP_snd2 (by assumption) ?_
    | with_reducible apply Keeps.parts | simp only [keeps_mk]
    | dsimp only | simp +zetaDelta only [keeps_mk] | dsimp +zetaDelta only

theorem State.closeSession_keeps (h : Keeps s t) : Keeps s (State.closeSession t a1) := by
  unfold State.closeSession
  repeat' first
    | with_reducible assumption | with_reducible exact Nat.le_refl _ | with_reducible exact List.length_filter_le _ _ | with_reducible exact rfl | intro _ | extract_lets
    | with_reducible first | apply State.onNet_keeps | apply State.wr_keeps | apply State.onAcc_keeps | apply State.giveFails_keeps | apply State.tokenMove_keeps | apply keeps_ite | apply keeps_dite | apply foldl_keeps
    | split
    | with_reducible refine keepsP_snd (by assumption) ?_ | with_reducible refine keepsP_snd2 (by assumption) ?_
    | with_reducible apply Keeps.parts | simp only [keeps_mk]
    | dsimp only | simp +zetaDelta only [keeps_mk] | dsimp +zetaDelta only

theorem State.closeAll_keeps (h : Keeps s t) : Keeps s (State.closeAll t) := by
  unfold State.closeAll
  repeat' first
    | intro _ | extract_lets
    | with_reducible first | assumption | apply State.closeSession_keeps | apply overList_keeps

theorem State.setMap_keeps (h : Keeps s t) : Keeps s (State.setMap t a1 a2) := by
  unfold State.setMap
  repeat' first
    | intro _ | extract_lets
    | with_reducible first | assumption | exact Nat.le_refl _ | exact List.length_filter_le _ _ | exact rfl | apply State.wr_keeps
         | apply State.debugResume_keeps | apply overList_keeps | apply onPow_keeps | apply keeps_ite | apply keeps_dite | apply foldl_keeps
         | refine keepsP_snd (by assumption) ?_ | refine keepsP_snd2 (by assumption) ?_ | apply Keeps.parts
    | split | simp only [keeps_mk] | dsimp only | simp +zetaDelta only [keeps_mk]

theorem State.commitMap_keeps (h : Keeps s t) : Keeps s (State.commitMap t) := by
  unfold State.commitMap
  repeat' first
    | with_reducible assumption | with_reducible exact Nat.le_refl _ | with_reducible exact List.length_filter_le _ _ | with_reducible exact rfl | intro _ | extract_lets
    | with_reducible first | apply onWld_keeps | apply keeps_ite | apply keeps_dite | apply foldl_keeps
    | split
    | with_reducible refine keepsP_snd (by assumption) ?_ | with_reducible refine keepsP_snd2 (by assumption) ?_
    | with_reducible apply Keeps.parts | simp only [keeps_mk]
    | dsimp only | simp +zetaDelta only [keeps_mk] | dsimp +zetaDelta only

theorem State.wldClock_keeps (h : Keeps s t) : Keeps s (State.wldClock t) := by
  unfold State.wldClock
  repeat' first
    | with_reducible assumption | with_reducible exact Nat.le_refl _ | with_reducible exact List.length_filter_le _ _ | with_reducible exact rfl | intro _ | extract_lets
    | with_reducible first | apply State.setMap_keeps | apply State.tokenMove_keeps | apply onWld_keeps | apply keeps_ite | apply keeps_dite | apply foldl_keeps
    | split
    | with_reducible refine keepsP_snd (by assumption) ?_ | with_reducible refine keepsP_snd2 (by assumption) ?_
    | with_reducible apply Keeps.parts | simp only [keeps_mk]
    | dsimp only | simp +zetaDelta only [keeps_mk] | dsimp +zetaDelta only

theorem State.programKey_keeps (hd : t.wld.dkey = none) (h : Keeps s t) : Keeps s (State.programKey t) := by
  unfold State.programKey
  refine State.wr_keeps (h.trans ⟨rfl, id, id, id, id, fun _ _ => id, fun _ => id, fun x hx => ?_, id⟩)
  rw [hd] at hx
  contradiction

theorem State.wldEffect_keeps (h : Keeps s t) : KeepsP s (State.wldEffect t a1 a2 a3) := by
  unfold State.wldEffect
  split
  · exact keepsP_ite h (keepsP_ite h (State.commitMap_keeps h))
  · exact keepsP_ite h (State.revertMap_keeps h)
  · exact keepsP_ite h (keepsP_ite h (keepsP_mk (onWld_keeps rfl h)))
  · refine keepsP_ite h ?_
    extract_lets u
    have hu : Keeps s u := State.giveFails_keeps h
    exact keepsP_mk (keeps_ite hu (onWld_keeps rfl hu))
  · split
    · exact h
    · refine keepsP_ite h (State.programKey_keeps ?_ h)
      rename_i hc
      simp only [not_or, Bool.not_eq_true, Option.isSome_eq_false_iff, Option.isNone_iff_eq_none] at hc
      exact hc.1

theorem State.wldCmd_keeps (h : Keeps s t) : KeepsP s (State.wldCmd t a1 a2 a3) := by
  unfold State.wldCmd
  repeat' first
    | with_reducible assumption | with_reducible exact Nat.le_refl _ | with_reducible exact List.length_filter_le _ _ | with_reducible exact rfl | intro _ | extract_lets
    | with_reducible first | apply State.violate_keeps | apply State.finish_keeps | apply State.wldEffect_keeps | apply keeps_ite | apply foldl_keeps | apply keepsP_ite | apply keepsP_dite
    | split
    | with_reducible refine keepsP_snd (by assumption) ?_ | with_reducible refine keepsP_snd2 (by assumption) ?_
    | with_reducible apply Keeps.parts | simp only [keeps_mk]
    | dsimp only | simp +zetaDelta only [keeps_mk] | dsimp +zetaDelta only

theorem execCommitMap_keeps (h : Keeps s t) : KeepsO s (execCommitMap a1 a2 t) := by
  unfold execCommitMap
  repeat' first
    | with_reducible assumption | with_reducible exact Nat.le_refl _ | with_reducible exact List.length_filter_le _ _ | with_reducible exact rfl | intro _ | extract_lets
    | with_reducible first | apply State.awake_keeps | apply State.wldCmd_keeps | apply keeps_ite | apply foldl_keeps | apply keepsO_ite | apply keepsO_next
    | split
    | with_reducible refine keepsP_snd (by assumption) ?_ | with_reducible refine keepsP_snd2 (by assumption) ?_
    | with_reducible apply Keeps.parts | simp only [keeps_mk]
    | dsimp only | simp +zetaDelta only [keeps_mk] | dsimp +zetaDelta only

theorem execRevertMap_keeps (h : Keeps s t) : KeepsO s (execRevertMap a1 a2 t) := by
  unfold execRevertMap
  repeat' first
    | with_reducible assumption | with_reducible exact Nat.le_refl _ | with_reducible exact List.length_filter_le _ _ | with_reducible exact rfl | intro _ | extract_lets
    | with_reducible first | apply State.awake_keeps | apply State.wldCmd_keeps | apply keeps_ite | apply foldl_keeps | apply keepsO_ite | apply keepsO_next
    | split
    | with_reducible refine keepsP_snd (by assumption) ?_ | with_reducible refine keepsP_snd2 (by assumption) ?_
    | with_reducible apply Keeps.parts | simp only [keeps_mk]
    | dsimp only | simp +zetaDelta only [keeps_mk] | dsimp +zetaDelta only

theorem execGiveToken_keeps (h : Keeps s t) : KeepsO s (execGiveToken a1 a2 t) := by
  unfold execGiveToken
  repeat' first
    | with_reducible assumption | with_reducible exact Nat.le_refl _ | with_reducible exact List.length_filter_le _ _ | with_reducible exact rfl | intro _ | extract_lets
    | with_reducible first | apply State.awake_keeps | apply State.wldCmd_keeps | apply keeps_ite | apply foldl_keeps | apply keepsO_ite | apply keepsO_next
    | split
    | with_reducible refine keepsP_snd (by assumption) ?_ | with_reducible refine keepsP_snd2 (by assumption) ?_
    | with_reducible apply Keeps.parts | simp only [keeps_mk]
    | dsimp only | simp +zetaDelta only [keeps_mk] | dsimp +zetaDelta only

theorem execReclaimToken_keeps (h : Keeps s t) : KeepsO s (execReclaimToken a1 a2 t) := by
  unfold execReclaimToken
  repeat' first
    | with_reducible assumption | with_reducible exact Nat.le_refl _ | with_reducible exact List.length_filter_le _ _ | with_reducible exact rfl | intro _ | extract_lets
    | with_reducible first | apply State.awake_keeps | apply State.wldCmd_keeps | apply keeps_ite | apply foldl_keeps | apply keepsO_ite | apply keepsO_next
    | split
    | with_reducible refine keepsP_snd (by assumption) ?_ | with_reducible refine keepsP_snd2 (by assumption) ?_
    | with_reducible apply Keeps.parts | simp only [keeps_mk]
    | dsimp only | simp +zetaDelta only [keeps_mk] | dsimp +zetaDelta only

theorem execProgramDkey_keeps (h : Keeps s t) : KeepsO s (execProgramDkey a1 a2 t) := by
  unfold execProgramDkey
  repeat' first
    | with_reducible assumption | with_reducible exact Nat.le_refl _ | with_reducible exact List.length_filter_le _ _ | with_reducible exact rfl | intro _ | extract_lets
    | with_reducible first | apply State.awake_keeps | apply State.wldCmd_keeps | apply keeps_ite | apply foldl_keeps | apply keepsO_ite | apply keepsO_next
    | split
    | with_reducible refine keepsP_snd (by assumption) ?_ | with_reducible refine keepsP_snd2 (by assumption) ?_
    | with_reducible apply Keeps.parts | simp only [keeps_mk]
    | dsimp only | simp +zetaDelta only [keeps_mk] | dsimp +zetaDelta only

end Sys2Proof.Machine
end

