-- ==== Sys2Proof/Laws/KeepsBoreImage.lean ====
section
/-! SUPPORT. Every operation of Machine/BoreImage.lean keeps what `Keeps` says. -/

namespace Sys2Proof.Machine

theorem State.resetRange_keeps (h : Keeps s t) : Keeps s (State.resetRange t a1 a2) := by
  exact h.trans ⟨rfl, fun hr => spWfFrom_filter _ _ _ hr, id, id, id, .refl⟩

theorem State.setBits_keeps (h : Keeps s t) : Keeps s (State.setBits t a1 a2) := by
  unfold State.setBits
  repeat' first
    | intro _ | extract_lets
    | with_reducible first | assumption | apply State.wr_keeps

theorem State.axisRegs_keeps (h : Keeps s t) : Keeps s (State.axisRegs t a1) := by
  unfold State.axisRegs
  repeat' first
    | intro _ | extract_lets
    | with_reducible first | assumption | apply State.setBit_keeps | apply State.resetRange_keeps | apply State.setBits_keeps | apply keeps_ite

theorem State.axisFresh_keeps (h : Keeps s t) : Keeps s (State.axisFresh t a1) := by
  unfold State.axisFresh
  repeat' first
    | with_reducible assumption | with_reducible exact Nat.le_refl _ | with_reducible exact List.length_filter_le _ _ | with_reducible exact rfl | intro _ | extract_lets
    | with_reducible first | apply State.wr_keeps | apply State.axisRegs_keeps | apply keeps_ite | apply keeps_dite | apply foldl_keeps
    | split
    | with_reducible refine keepsP_snd (by assumption) ?_ | with_reducible refine keepsP_snd2 (by assumption) ?_
    | with_reducible apply Keeps.parts | simp only [keeps_mk]
    | dsimp only | simp +zetaDelta only [keeps_mk] | dsimp +zetaDelta only

theorem State.unitFresh_keeps (h : Keeps s t) : Keeps s (State.unitFresh t a1) := by
  unfold State.unitFresh
  repeat' first
    | intro _ | extract_lets
    | with_reducible first | assumption | apply State.wr_keeps | apply State.setBit_keeps | apply State.resetRange_keeps | apply State.setFld_keeps
         | apply State.showSources_keeps | apply State.onUnit_keeps

theorem State.modOwned_keeps (h : Keeps s t) : Keeps s (State.modOwned t a1) := by
  unfold State.modOwned
  repeat' first
    | intro _ | extract_lets
    | with_reducible first | assumption | apply State.modStart_keeps | apply State.modStop_keeps | apply keeps_ite

theorem State.portFresh_keeps (h : Keeps s t) : Keeps s (State.portFresh t a1) := by
  unfold State.portFresh
  repeat' first
    | intro _ | extract_lets
    | with_reducible first | assumption | apply State.onPort_keeps | apply State.setBit_keeps | apply State.setFld_keeps | apply keeps_ite

theorem State.frcOwned_keeps (h : Keeps s t) : Keeps s (State.frcOwned t a1) := by
  unfold State.frcOwned
  repeat' first
    | intro _ | extract_lets
    | with_reducible first | assumption | apply State.setBit_keeps | apply State.frcStart_keeps | apply State.onFrc_keeps | apply keeps_ite

theorem State.excRecord_keeps (h : Keeps s t) : Keeps s (State.excRecord t a1) := by
  unfold State.excRecord
  repeat' first
    | intro _ | extract_lets
    | with_reducible first | assumption | apply State.wr_keeps | apply State.excStart_keeps | apply State.onExc_keeps | apply State.excStop_keeps
         | apply keeps_ite

theorem State.preloadRun_keeps (h : Keeps s t) : Keeps s (State.preloadRun t a1) := by
  unfold State.preloadRun
  repeat' first
    | intro _ | extract_lets
    | with_reducible first | assumption | apply State.freshAcc_keeps | apply State.wordWrite_keeps | apply keeps_ite | apply keeps_dite
         | apply foldl_keeps
    | split

theorem State.putSchedule_keeps (h : Keeps s t) : Keeps s (State.putSchedule t a1) := by
  unfold State.putSchedule
  repeat' first
    | intro _ | extract_lets
    | with_reducible first | assumption | apply State.wr_keeps

theorem State.putGrid_keeps (h : Keeps s t) : Keeps s (State.putGrid t a1) := by
  unfold State.putGrid
  repeat' first
    | intro _ | extract_lets
    | with_reducible first | assumption | exact Nat.le_refl _ | exact List.length_filter_le _ _ | exact rfl | apply State.wr_keeps
         | apply State.onTim_keeps | apply onBore_keeps | apply keeps_ite

theorem State.putInputs_keeps (h : Keeps s t) : Keeps s (State.putInputs t a1) := by
  unfold State.putInputs
  repeat' first
    | intro _ | extract_lets
    | with_reducible first | assumption | apply State.wr_keeps | apply State.setBit_keeps | apply State.setFld_keeps | apply State.onPins_keeps
         | apply overList_keeps | apply keeps_ite

theorem State.putNetwork_keeps (h : Keeps s t) : Keeps s (State.putNetwork t a1) := by
  unfold State.putNetwork
  repeat' first
    | intro _ | extract_lets
    | with_reducible first | assumption | apply State.wr_keeps

theorem State.putMap_keeps (h : Keeps s t) : Keeps s (State.putMap t a1) := by
  unfold State.putMap
  repeat' first
    | with_reducible assumption | with_reducible exact Nat.le_refl _ | with_reducible exact List.length_filter_le _ _ | with_reducible exact rfl | intro _ | extract_lets
    | with_reducible first | apply State.revertMap_keeps | apply State.setMap_keeps | apply onWld_keeps | apply keeps_ite | apply keeps_dite | apply foldl_keeps
    | split
    | with_reducible refine keepsP_snd (by assumption) ?_ | with_reducible refine keepsP_snd2 (by assumption) ?_
    | with_reducible apply Keeps.parts | simp only [keeps_mk]
    | dsimp only | simp +zetaDelta only [keeps_mk] | dsimp +zetaDelta only

theorem State.putReactions_keeps (h : Keeps s t) : Keeps s (State.putReactions t a1) := by
  unfold State.putReactions
  repeat' first
    | intro _ | extract_lets
    | with_reducible first | assumption | apply State.setFld_keeps | apply State.flag_keeps | apply keeps_ite | apply keeps_dite | apply foldl_keeps
    | split

theorem State.subsClear_keeps (h : Keeps s t) : Keeps s (State.subsClear t) := by
  unfold State.subsClear
  repeat' first
    | intro _ | extract_lets
    | with_reducible first | assumption | apply State.onNet_keeps | apply State.wr_keeps | apply State.resetRange_keeps

theorem State.imageStored_keeps (h : Keeps s t) : Keeps s (State.imageStored t) := by
  unfold State.imageStored
  repeat' first
    | intro _ | extract_lets
    | with_reducible first | assumption | exact Nat.le_refl _ | exact List.length_filter_le _ _ | exact rfl | apply onFlt_keeps

theorem State.unitTests_keeps (h : Keeps s t) : Keeps s (State.unitTests t a1) := by
  unfold State.unitTests
  repeat' first
    | intro _ | extract_lets
    | with_reducible first | assumption | apply State.testStart_keeps | apply overList_keeps | apply keeps_ite

theorem State.trimsClear_keeps (h : Keeps s t) : Keeps s (State.trimsClear t) := by
  unfold State.trimsClear
  repeat' first
    | intro _ | extract_lets
    | with_reducible first | assumption | apply State.onCmps_keeps | apply State.setTrim_keeps | apply overList_keeps

theorem State.applyFull_keeps (h : Keeps s t) : Keeps s (State.applyFull t) := by
  unfold State.applyFull
  repeat' first
    | with_reducible assumption | with_reducible exact Nat.le_refl _ | with_reducible exact List.length_filter_le _ _ | with_reducible exact rfl | intro _ | extract_lets
    | with_reducible first | apply State.imageStored_keeps | apply State.putGrid_keeps | apply State.trimsClear_keeps | apply State.putInputs_keeps | apply State.putSchedule_keeps | apply State.axisFresh_keeps | apply State.latchForms_keeps | apply State.setOuts_keeps | apply State.unitFresh_keeps | apply State.modOwned_keeps | apply State.adcStart_keeps | apply State.excRecord_keeps | apply State.frcOwned_keeps | apply State.portFresh_keeps | apply State.putReactions_keeps | apply State.putMap_keeps | apply State.subsClear_keeps | apply State.putNetwork_keeps | apply State.onNet_keeps | apply State.unitTests_keeps | apply State.resetRange_keeps | apply State.wr_keeps | apply State.preloadRun_keeps | apply State.closeAll_keeps | apply State.boreEmpty_keeps | apply State.cmdstat_keeps | apply overList_keeps | apply onBore_keeps | apply keeps_ite | apply keeps_dite | apply foldl_keeps
    | split
    | with_reducible refine keepsP_snd (by assumption) ?_ | with_reducible refine keepsP_snd2 (by assumption) ?_
    | with_reducible apply Keeps.parts | simp only [keeps_mk]
    | dsimp only | simp +zetaDelta only [keeps_mk] | dsimp +zetaDelta only

theorem State.patchRefuse_keeps (h : Keeps s t) : Keeps s (State.patchRefuse t) := by
  unfold State.patchRefuse
  repeat' first
    | with_reducible assumption | with_reducible exact Nat.le_refl _ | with_reducible exact List.length_filter_le _ _ | with_reducible exact rfl | intro _ | extract_lets
    | with_reducible first | apply State.log_keeps | apply State.cmdstat_keeps | apply State.wr_keeps | apply State.boreEmpty_keeps | apply keeps_ite | apply keeps_dite | apply foldl_keeps
    | split
    | with_reducible refine keepsP_snd (by assumption) ?_ | with_reducible refine keepsP_snd2 (by assumption) ?_
    | with_reducible apply Keeps.parts | simp only [keeps_mk]
    | dsimp only | simp +zetaDelta only [keeps_mk] | dsimp +zetaDelta only

theorem State.patchApply_keeps (h : Keeps s t) : Keeps s (State.patchApply t) := by
  unfold State.patchApply
  repeat' first
    | with_reducible assumption | with_reducible exact Nat.le_refl _ | with_reducible exact List.length_filter_le _ _ | with_reducible exact rfl | intro _ | extract_lets
    | with_reducible first | apply State.putSchedule_keeps | apply State.imageStored_keeps | apply State.axisFresh_keeps | apply State.latchForms_keeps | apply State.setOuts_keeps | apply State.unitFresh_keeps | apply State.modOwned_keeps | apply State.adcStart_keeps | apply State.excRecord_keeps | apply State.frcOwned_keeps | apply State.portFresh_keeps | apply State.unitTests_keeps | apply State.preloadRun_keeps | apply State.wr_keeps | apply State.onNet_keeps | apply State.cmdstat_keeps | apply State.boreEmpty_keeps | apply overList_keeps | apply keeps_ite | apply keeps_dite | apply foldl_keeps
    | split
    | with_reducible refine keepsP_snd (by assumption) ?_ | with_reducible refine keepsP_snd2 (by assumption) ?_
    | with_reducible apply Keeps.parts | simp only [keeps_mk]
    | dsimp only | simp +zetaDelta only [keeps_mk] | dsimp +zetaDelta only

theorem State.imageEdge_keeps (h : Keeps s t) : Keeps s (State.imageEdge t) := by
  unfold State.imageEdge
  repeat' first
    | intro _ | extract_lets
    | with_reducible first | assumption | apply State.patchApply_keeps | apply State.patchRefuse_keeps | apply State.applyFull_keeps | apply keeps_ite

theorem State.logCheck_keeps (h : Keeps s t) : Keeps s (State.logCheck t a1 a2) := by
  unfold State.logCheck
  repeat' first
    | intro _ | extract_lets
    | with_reducible first | assumption | apply State.log_keeps | apply keeps_ite

theorem State.applyRefuse_keeps (h : Keeps s t) : Keeps s (State.applyRefuse t a1) := by
  unfold State.applyRefuse
  repeat' first
    | intro _ | extract_lets
    | with_reducible first | assumption | exact Nat.le_refl _ | exact List.length_filter_le _ _ | exact rfl | apply State.wr_keeps
         | apply State.finish_keeps | apply onBore_keeps

theorem State.makePending_keeps (h : Keeps s t) : Keeps s (State.makePending t a1) := by
  unfold State.makePending
  repeat' first
    | intro _ | extract_lets
    | with_reducible first | assumption | exact Nat.le_refl _ | exact List.length_filter_le _ _ | exact rfl | apply State.applyRefuse_keeps
         | apply State.wr_keeps | apply State.applyFull_keeps | apply onBore_keeps | apply keeps_ite

theorem State.bootFail_keeps (h : Keeps s t) : Keeps s (State.bootFail t) := by
  unfold State.bootFail
  repeat' first
    | intro _ | extract_lets
    | with_reducible first | assumption | exact Nat.le_refl _ | exact List.length_filter_le _ _ | exact rfl | apply State.boreEmpty_keeps
         | apply onBore_keeps | apply keeps_ite

theorem State.verifyDone_keeps (h : Keeps s t) : Keeps s (State.verifyDone t) := by
  unfold State.verifyDone
  repeat' first
    | with_reducible assumption | with_reducible exact Nat.le_refl _ | with_reducible exact List.length_filter_le _ _ | with_reducible exact rfl | intro _ | extract_lets
    | with_reducible first | apply State.bootFail_keeps | apply State.logCheck_keeps | apply State.wr_keeps | apply State.cmdstat_keeps | apply State.applyFull_keeps | apply State.makePending_keeps | apply onBore_keeps | apply keeps_ite | apply keeps_dite | apply foldl_keeps
    | split
    | with_reducible refine keepsP_snd (by assumption) ?_ | with_reducible refine keepsP_snd2 (by assumption) ?_
    | with_reducible apply Keeps.parts | simp only [keeps_mk]
    | dsimp only | simp +zetaDelta only [keeps_mk] | dsimp +zetaDelta only

theorem State.holdAffected_keeps (h : Keeps s t) : Keeps s (State.holdAffected t) := by
  unfold State.holdAffected
  repeat' first
    | with_reducible assumption | with_reducible exact Nat.le_refl _ | with_reducible exact List.length_filter_le _ _ | with_reducible exact rfl | intro _ | extract_lets
    | with_reducible first | apply State.wr_keeps | apply onBore_keeps | apply keeps_ite | apply keeps_dite | apply foldl_keeps
    | split
    | with_reducible refine keepsP_snd (by assumption) ?_ | with_reducible refine keepsP_snd2 (by assumption) ?_
    | with_reducible apply Keeps.parts | simp only [keeps_mk]
    | dsimp only | simp +zetaDelta only [keeps_mk] | dsimp +zetaDelta only

theorem State.programSlot_keeps (h : Keeps s t) : KeepsP s (State.programSlot t a1) := by
  unfold State.programSlot
  split
  · exact h
  · rename_i hc
    refine keepsP_dite (fun hk => ?_) (fun _ => h)
    have hn : t.bore.keys[a1] = none := by
      simp only [not_or, Bool.not_eq_true, Option.isSome_eq_false_iff, Option.isNone_iff_eq_none] at hc
      simpa [hk] using hc.2
    refine h.trans ⟨rfl, id, id, id, id, fun i x hx => ?_, fun _ => id, fun _ => id, id⟩
    by_cases hi : i.val = a1
    · exfalso
      have e : t.bore.keys[i] = t.bore.keys[a1] := by simp [Fin.getElem_fin, hi]
      rw [e, hn] at hx
      contradiction
    · simp only [State.onBore, Fin.getElem_fin, Vector.getElem_set, if_neg (Ne.symm hi)]
      exact hx

theorem State.revokeSlot_keeps (h : Keeps s t) : KeepsP s (State.revokeSlot t a1) := by
  unfold State.revokeSlot
  refine keepsP_dite (fun hk => ?_) (fun _ => h)
  refine h.trans ⟨rfl, id, id, id, id, fun _ _ => id, fun i hi => ?_, fun _ => id, id⟩
  simp only [State.onBore, Fin.getElem_fin, Vector.getElem_set]
  split
  · rfl
  · exact hi

theorem State.borEffect_keeps (h : Keeps s t) : KeepsP s (State.borEffect t a1 a2 a3) := by
  unfold State.borEffect
  repeat' first
    | with_reducible assumption | with_reducible exact Nat.le_refl _ | with_reducible exact List.length_filter_le _ _ | with_reducible exact rfl | intro _ | extract_lets
    | with_reducible first | apply State.wr_keeps | apply State.makePending_keeps | apply State.holdAffected_keeps | apply State.boreEmpty_keeps | apply State.programSlot_keeps | apply State.revokeSlot_keeps | apply onBore_keeps | apply keeps_ite | apply foldl_keeps | apply keepsP_ite | apply keepsP_dite
    | split
    | with_reducible refine keepsP_snd (by assumption) ?_ | with_reducible refine keepsP_snd2 (by assumption) ?_
    | with_reducible apply Keeps.parts | simp only [keeps_mk]
    | dsimp only | simp +zetaDelta only [keeps_mk] | dsimp +zetaDelta only

theorem State.borCmd_keeps (h : Keeps s t) : KeepsP s (State.borCmd t a1 a2 a3) := by
  unfold State.borCmd
  repeat' first
    | intro _ | extract_lets
    | with_reducible first | assumption | apply State.violate_keeps | apply State.borEffect_keeps | apply State.finish_keeps | apply keeps_ite
         | apply foldl_keeps | apply keepsP_ite | apply keepsP_dite
    | split

theorem State.feedWord_keeps (h : Keeps s t) : KeepsP s (State.feedWord t a1 a2 a3) := by
  unfold State.feedWord
  repeat' first
    | with_reducible assumption | with_reducible exact Nat.le_refl _ | with_reducible exact List.length_filter_le _ _ | with_reducible exact rfl | intro _ | extract_lets
    | with_reducible first | apply State.violate_keeps | apply onBore_keeps | apply keeps_ite | apply foldl_keeps | apply keepsP_ite | apply keepsP_dite
    | split
    | with_reducible refine keepsP_snd (by assumption) ?_ | with_reducible refine keepsP_snd2 (by assumption) ?_
    | with_reducible apply Keeps.parts | simp only [keeps_mk]
    | dsimp only | simp +zetaDelta only [keeps_mk] | dsimp +zetaDelta only

theorem State.bootLoad_keeps (h : Keeps s t) : Keeps s (State.bootLoad t a1 a2) := by
  unfold State.bootLoad
  repeat' first
    | intro _ | extract_lets
    | with_reducible first | assumption | exact Nat.le_refl _ | exact List.length_filter_le _ _ | exact rfl | apply onBore_keeps | apply keeps_ite

theorem execOpenBuf_keeps (h : Keeps s t) : KeepsO s (execOpenBuf a1 a2 t) := by
  unfold execOpenBuf
  repeat' first
    | with_reducible assumption | with_reducible exact Nat.le_refl _ | with_reducible exact List.length_filter_le _ _ | with_reducible exact rfl | intro _ | extract_lets
    | with_reducible first | apply State.awake_keeps | apply State.borCmd_keeps | apply keeps_ite | apply foldl_keeps | apply keepsO_ite | apply keepsO_next
    | split
    | with_reducible refine keepsP_snd (by assumption) ?_ | with_reducible refine keepsP_snd2 (by assumption) ?_
    | with_reducible apply Keeps.parts | simp only [keeps_mk]
    | dsimp only | simp +zetaDelta only [keeps_mk] | dsimp +zetaDelta only

theorem execFeed_keeps (h : Keeps s t) : KeepsO s (execFeed a1 a2 a3 t) := by
  unfold execFeed
  repeat' first
    | with_reducible assumption | with_reducible exact Nat.le_refl _ | with_reducible exact List.length_filter_le _ _ | with_reducible exact rfl | intro _ | extract_lets
    | with_reducible first | apply State.awake_keeps | apply State.counted_keeps | apply State.feedWord_keeps | apply keeps_ite | apply foldl_keeps | apply keepsO_ite | apply keepsO_next
    | split
    | with_reducible refine keepsP_snd (by assumption) ?_ | with_reducible refine keepsP_snd2 (by assumption) ?_
    | with_reducible apply Keeps.parts | simp only [keeps_mk]
    | dsimp only | simp +zetaDelta only [keeps_mk] | dsimp +zetaDelta only

theorem execVerifyImage_keeps (h : Keeps s t) : KeepsO s (execVerifyImage a1 a2 t) := by
  unfold execVerifyImage
  repeat' first
    | with_reducible assumption | with_reducible exact Nat.le_refl _ | with_reducible exact List.length_filter_le _ _ | with_reducible exact rfl | intro _ | extract_lets
    | with_reducible first | apply State.awake_keeps | apply State.borCmd_keeps | apply keeps_ite | apply foldl_keeps | apply keepsO_ite | apply keepsO_next
    | split
    | with_reducible refine keepsP_snd (by assumption) ?_ | with_reducible refine keepsP_snd2 (by assumption) ?_
    | with_reducible apply Keeps.parts | simp only [keeps_mk]
    | dsimp only | simp +zetaDelta only [keeps_mk] | dsimp +zetaDelta only

theorem execVerifyComplete_keeps (h : Keeps s t) : KeepsO s (execVerifyComplete t) := by
  unfold execVerifyComplete
  repeat' first
    | with_reducible assumption | with_reducible exact Nat.le_refl _ | with_reducible exact List.length_filter_le _ _ | with_reducible exact rfl | intro _ | extract_lets
    | with_reducible first | apply State.awake_keeps | apply State.verifyDone_keeps | apply keeps_ite | apply foldl_keeps | apply keepsO_ite | apply keepsO_next
    | split
    | with_reducible refine keepsP_snd (by assumption) ?_ | with_reducible refine keepsP_snd2 (by assumption) ?_
    | with_reducible apply Keeps.parts | simp only [keeps_mk]
    | dsimp only | simp +zetaDelta only [keeps_mk] | dsimp +zetaDelta only

theorem execApplyImage_keeps (h : Keeps s t) : KeepsO s (execApplyImage a1 a2 t) := by
  unfold execApplyImage
  repeat' first
    | with_reducible assumption | with_reducible exact Nat.le_refl _ | with_reducible exact List.length_filter_le _ _ | with_reducible exact rfl | intro _ | extract_lets
    | with_reducible first | apply State.awake_keeps | apply State.borCmd_keeps | apply keeps_ite | apply foldl_keeps | apply keepsO_ite | apply keepsO_next
    | split
    | with_reducible refine keepsP_snd (by assumption) ?_ | with_reducible refine keepsP_snd2 (by assumption) ?_
    | with_reducible apply Keeps.parts | simp only [keeps_mk]
    | dsimp only | simp +zetaDelta only [keeps_mk] | dsimp +zetaDelta only

theorem execAbortLoad_keeps (h : Keeps s t) : KeepsO s (execAbortLoad a1 a2 t) := by
  unfold execAbortLoad
  repeat' first
    | with_reducible assumption | with_reducible exact Nat.le_refl _ | with_reducible exact List.length_filter_le _ _ | with_reducible exact rfl | intro _ | extract_lets
    | with_reducible first | apply State.awake_keeps | apply State.borCmd_keeps | apply keeps_ite | apply foldl_keeps | apply keepsO_ite | apply keepsO_next
    | split
    | with_reducible refine keepsP_snd (by assumption) ?_ | with_reducible refine keepsP_snd2 (by assumption) ?_
    | with_reducible apply Keeps.parts | simp only [keeps_mk]
    | dsimp only | simp +zetaDelta only [keeps_mk] | dsimp +zetaDelta only

theorem execProgramKey_keeps (h : Keeps s t) : KeepsO s (execProgramKey a1 a2 t) := by
  unfold execProgramKey
  repeat' first
    | with_reducible assumption | with_reducible exact Nat.le_refl _ | with_reducible exact List.length_filter_le _ _ | with_reducible exact rfl | intro _ | extract_lets
    | with_reducible first | apply State.awake_keeps | apply State.borCmd_keeps | apply keeps_ite | apply foldl_keeps | apply keepsO_ite | apply keepsO_next
    | split
    | with_reducible refine keepsP_snd (by assumption) ?_ | with_reducible refine keepsP_snd2 (by assumption) ?_
    | with_reducible apply Keeps.parts | simp only [keeps_mk]
    | dsimp only | simp +zetaDelta only [keeps_mk] | dsimp +zetaDelta only

theorem execRevokeKey_keeps (h : Keeps s t) : KeepsO s (execRevokeKey a1 a2 t) := by
  unfold execRevokeKey
  repeat' first
    | with_reducible assumption | with_reducible exact Nat.le_refl _ | with_reducible exact List.length_filter_le _ _ | with_reducible exact rfl | intro _ | extract_lets
    | with_reducible first | apply State.awake_keeps | apply State.borCmd_keeps | apply keeps_ite | apply foldl_keeps | apply keepsO_ite | apply keepsO_next
    | split
    | with_reducible refine keepsP_snd (by assumption) ?_ | with_reducible refine keepsP_snd2 (by assumption) ?_
    | with_reducible apply Keeps.parts | simp only [keeps_mk]
    | dsimp only | simp +zetaDelta only [keeps_mk] | dsimp +zetaDelta only

theorem execFullImageApply_keeps (h : Keeps s t) : KeepsO s (execFullImageApply t) := by
  unfold execFullImageApply
  repeat' first
    | with_reducible assumption | with_reducible exact Nat.le_refl _ | with_reducible exact List.length_filter_le _ _ | with_reducible exact rfl | intro _ | extract_lets
    | with_reducible first | apply State.awake_keeps | apply State.applyFull_keeps | apply keeps_ite | apply foldl_keeps | apply keepsO_ite | apply keepsO_next
    | split
    | with_reducible refine keepsP_snd (by assumption) ?_ | with_reducible refine keepsP_snd2 (by assumption) ?_
    | with_reducible apply Keeps.parts | simp only [keeps_mk]
    | dsimp only | simp +zetaDelta only [keeps_mk] | dsimp +zetaDelta only

theorem execPatchApply_keeps (h : Keeps s t) : KeepsO s (execPatchApply t) := by
  unfold execPatchApply
  repeat' first
    | with_reducible assumption | with_reducible exact Nat.le_refl _ | with_reducible exact List.length_filter_le _ _ | with_reducible exact rfl | intro _ | extract_lets
    | with_reducible first | apply State.awake_keeps | apply State.patchApply_keeps | apply State.patchRefuse_keeps | apply keeps_ite | apply foldl_keeps | apply keepsO_ite | apply keepsO_next
    | split
    | with_reducible refine keepsP_snd (by assumption) ?_ | with_reducible refine keepsP_snd2 (by assumption) ?_
    | with_reducible apply Keeps.parts | simp only [keeps_mk]
    | dsimp only | simp +zetaDelta only [keeps_mk] | dsimp +zetaDelta only

theorem execBootLoad_keeps (h : Keeps s t) : KeepsO s (execBootLoad a1 a2 t) := by
  unfold execBootLoad
  repeat' first
    | with_reducible assumption | with_reducible exact Nat.le_refl _ | with_reducible exact List.length_filter_le _ _ | with_reducible exact rfl | intro _ | extract_lets
    | with_reducible first | apply State.awake_keeps | apply State.bootLoad_keeps | apply keeps_ite | apply foldl_keeps | apply keepsO_ite | apply keepsO_next
    | split
    | with_reducible refine keepsP_snd (by assumption) ?_ | with_reducible refine keepsP_snd2 (by assumption) ?_
    | with_reducible apply Keeps.parts | simp only [keeps_mk]
    | dsimp only | simp +zetaDelta only [keeps_mk] | dsimp +zetaDelta only

end Sys2Proof.Machine
end

