-- ==== Sys2Proof/Laws/KeepsNetwork.lean ====
section
/-! SUPPORT. Every operation of Machine/Network.lean keeps what `Keeps` says. -/

namespace Sys2Proof.Machine

theorem State.originate_keeps (h : Keeps s t) : Keeps s (State.originate t a1 a2 a3 a4 a5 a6 a7 a8 a9 a10) := by
  unfold State.originate
  repeat' first
    | intro _ | extract_lets
    | with_reducible first | assumption | apply State.wr_keeps | apply State.enqueue_keeps | apply overList_keeps

theorem State.manage_keeps (h : Keeps s t) : Keeps s (State.manage t a1 a2 a3) := by
  unfold State.manage
  repeat' first
    | intro _ | extract_lets
    | with_reducible first | assumption | apply State.originate_keeps

theorem State.reply_keeps (h : Keeps s t) : Keeps s (State.reply t a1 a2 a3 a4) := by
  unfold State.reply
  repeat' first
    | intro _ | extract_lets
    | with_reducible first | assumption | apply State.originate_keeps

theorem State.dupNew_keeps (h : Keeps s t) : Keeps s (State.dupNew t a1 a2) := by
  unfold State.dupNew
  repeat' first
    | intro _ | extract_lets
    | with_reducible first | assumption | apply State.onNet_keeps | apply State.bump_keeps | apply State.flag_keeps | apply keeps_ite

theorem State.dupFilter_keeps (h : Keeps s t) : KeepsP s (State.dupFilter t a1 a2) := by
  unfold State.dupFilter
  repeat' first
    | intro _ | extract_lets
    | with_reducible first | assumption | apply State.dupNew_keeps | apply State.onNet_keeps | apply keeps_ite | apply foldl_keeps | apply keepsP_ite
         | apply keepsP_dite
    | split

theorem State.claimDone_keeps (h : Keeps s t) : Keeps s (State.claimDone t a1) := by
  unfold State.claimDone
  repeat' first
    | intro _ | extract_lets
    | with_reducible first | assumption | apply State.finish_keeps | apply State.onNet_keeps | apply keeps_ite | apply keeps_dite | apply foldl_keeps
    | split

theorem State.setAstate_keeps (h : Keeps s t) : Keeps s (State.setAstate t a1) := by
  unfold State.setAstate
  repeat' first
    | intro _ | extract_lets
    | with_reducible first | assumption | apply State.setBit_keeps | apply State.setFld_keeps

theorem State.claimAddr_keeps (h : Keeps s t) : Keeps s (State.claimAddr t a1) := by
  unfold State.claimAddr
  repeat' first
    | intro _ | extract_lets
    | with_reducible first | assumption | apply State.manage_keeps | apply State.onNet_keeps | apply State.setAstate_keeps

theorem State.startClaim_keeps (h : Keeps s t) : Keeps s (State.startClaim t) := by
  unfold State.startClaim
  repeat' first
    | intro _ | extract_lets
    | with_reducible first | assumption | apply State.onNet_keeps | apply State.manage_keeps | apply State.setAstate_keeps
         | apply State.claimAddr_keeps | apply keeps_ite

theorem State.claimFail_keeps (h : Keeps s t) : Keeps s (State.claimFail t a1) := by
  unfold State.claimFail
  repeat' first
    | intro _ | extract_lets
    | with_reducible first | assumption | apply State.log_keeps | apply State.setAstate_keeps | apply State.claimDone_keeps | apply State.flag_keeps

theorem State.claimResend_keeps (h : Keeps s t) : Keeps s (State.claimResend t) := by
  unfold State.claimResend
  repeat' first
    | intro _ | extract_lets
    | with_reducible first | assumption | apply State.manage_keeps | apply State.onNet_keeps | apply keeps_ite

theorem State.claimConfirm_keeps (h : Keeps s t) : Keeps s (State.claimConfirm t) := by
  unfold State.claimConfirm
  repeat' first
    | intro _ | extract_lets
    | with_reducible first | assumption | apply State.claimDone_keeps | apply State.setAstate_keeps | apply State.wr_keeps | apply keeps_ite

theorem State.requestRetry_keeps (h : Keeps s t) : Keeps s (State.requestRetry t) := by
  unfold State.requestRetry
  repeat' first
    | intro _ | extract_lets
    | with_reducible first | assumption | apply State.manage_keeps | apply State.onNet_keeps | apply State.claimFail_keeps | apply keeps_ite

theorem State.seeAddr_keeps (h : Keeps s t) : Keeps s (State.seeAddr t a1) := by
  unfold State.seeAddr
  repeat' first
    | intro _ | extract_lets
    | with_reducible first | assumption | apply State.onNet_keeps | apply keeps_ite

theorem State.gotClaim_keeps (h : Keeps s t) : Keeps s (State.gotClaim t a1 a2 a3) := by
  unfold State.gotClaim
  repeat' first
    | intro _ | extract_lets
    | with_reducible first | assumption | apply State.seeAddr_keeps | apply State.dupNew_keeps | apply State.manage_keeps
         | apply State.claimFail_keeps | apply keeps_ite

theorem State.gotDefend_keeps (h : Keeps s t) : Keeps s (State.gotDefend t a1) := by
  unfold State.gotDefend
  repeat' first
    | intro _ | extract_lets
    | with_reducible first | assumption | apply State.seeAddr_keeps | apply State.claimFail_keeps | apply keeps_ite

theorem State.gotRequest_keeps (h : Keeps s t) : Keeps s (State.gotRequest t a1) := by
  unfold State.gotRequest
  repeat' first
    | intro _ | extract_lets
    | with_reducible first | assumption | apply State.manage_keeps | apply keeps_ite

theorem State.gotOffer_keeps (h : Keeps s t) : Keeps s (State.gotOffer t a1 a2) := by
  unfold State.gotOffer
  repeat' first
    | intro _ | extract_lets
    | with_reducible first | assumption | apply State.claimFail_keeps | apply State.claimAddr_keeps | apply keeps_ite

theorem State.gotLeave_keeps (h : Keeps s t) : Keeps s (State.gotLeave t a1) := by
  unfold State.gotLeave
  repeat' first
    | intro _ | extract_lets
    | with_reducible first | assumption | apply State.onNet_keeps

theorem State.releaseAddr_keeps (h : Keeps s t) : Keeps s (State.releaseAddr t) := by
  unfold State.releaseAddr
  repeat' first
    | intro _ | extract_lets
    | with_reducible first | assumption | apply State.setAstate_keeps | apply State.wr_keeps | apply State.closeAll_keeps | apply State.manage_keeps

theorem State.linkUp_keeps (h : Keeps s t) : Keeps s (State.linkUp t a1 a2) := by
  unfold State.linkUp
  repeat' first
    | intro _ | extract_lets
    | with_reducible first | assumption | apply State.setBit_keeps | apply State.startClaim_keeps | apply keeps_ite

theorem State.linkDown_keeps (h : Keeps s t) : Keeps s (State.linkDown t a1 a2 a3) := by
  unfold State.linkDown
  repeat' first
    | intro _ | extract_lets
    | with_reducible first | assumption | apply State.setBit_keeps | apply State.life_keeps | apply State.bump_keeps | apply State.flag_keeps
         | apply State.onNp_keeps | apply State.tbPortDown_keeps | apply State.log_keeps | apply keeps_ite

theorem State.signalDetect_keeps (h : Keeps s t) : Keeps s (State.signalDetect t a1 a2) := by
  unfold State.signalDetect
  repeat' first
    | intro _ | extract_lets
    | with_reducible first | assumption | apply State.setBit_keeps | apply State.linkDown_keeps | apply keeps_ite

theorem State.pcsSync_keeps (h : Keeps s t) : Keeps s (State.pcsSync t a1 a2) := by
  unfold State.pcsSync
  repeat' first
    | intro _ | extract_lets
    | with_reducible first | assumption | apply State.setBit_keeps | apply State.linkDown_keeps | apply keeps_ite

theorem State.afterPcfg_keeps (h : Keeps s t) : Keeps s (State.afterPcfg t a1 a2) := by
  unfold State.afterPcfg
  repeat' first
    | intro _ | extract_lets
    | with_reducible first | assumption | apply State.linkDown_keeps | apply keeps_ite

theorem State.setEq_keeps (h : Keeps s t) : Keeps s (State.setEq t a1 a2 a3 a4) := by
  unfold State.setEq
  repeat' first
    | intro _ | extract_lets
    | with_reducible first | assumption | apply State.wrI_keeps | apply State.setFld_keeps

theorem State.eqAcquire_keeps (h : Keeps s t) : Keeps s (State.eqAcquire t a1) := by
  unfold State.eqAcquire
  repeat' first
    | intro _ | extract_lets
    | with_reducible first | assumption | apply State.setEq_keeps | apply keeps_ite

theorem State.eqUpdate_keeps (h : Keeps s t) : Keeps s (State.eqUpdate t a1 a2 a3 a4 a5) := by
  unfold State.eqUpdate
  repeat' first
    | intro _ | extract_lets
    | with_reducible first | assumption | apply State.bump_keeps | apply State.setBit_keeps | apply State.onNp_keeps | apply State.setEq_keeps
         | apply keeps_ite

theorem State.eqDiverge_keeps (h : Keeps s t) : Keeps s (State.eqDiverge t a1) := by
  unfold State.eqDiverge
  repeat' first
    | with_reducible assumption | with_reducible exact Nat.le_refl _ | with_reducible exact List.length_filter_le _ _ | with_reducible exact rfl | intro _ | extract_lets
    | with_reducible first | apply State.onNp_keeps | apply State.hardClear_keeps | apply State.setEq_keeps | apply State.log_keeps | apply State.flag_keeps | apply State.setBit_keeps | apply keeps_ite | apply keeps_dite | apply foldl_keeps
    | split
    | with_reducible refine keepsP_snd (by assumption) ?_ | with_reducible refine keepsP_snd2 (by assumption) ?_
    | with_reducible apply Keeps.parts | simp only [keeps_mk]
    | dsimp only | simp +zetaDelta only [keeps_mk] | dsimp +zetaDelta only

theorem State.cyclicFrame_keeps (h : Keeps s t) : Keeps s (State.cyclicFrame t a1 a2 a3) := by
  unfold State.cyclicFrame
  repeat' first
    | intro _ | extract_lets
    | with_reducible first | assumption | apply State.bump_keeps | apply State.onNet_keeps | apply overList_keeps | apply keeps_ite | apply keeps_dite
         | apply foldl_keeps
    | split

theorem State.subBoundary_keeps (h : Keeps s t) : Keeps s (State.subBoundary t a1 a2) := by
  unfold State.subBoundary
  repeat' first
    | intro _ | extract_lets
    | with_reducible first | assumption | apply State.setBit_keeps | apply State.setFld_keeps | apply State.wr_keeps | apply State.flag_keeps
         | apply State.bump_keeps | apply keeps_ite | apply keeps_dite | apply foldl_keeps
    | split

theorem State.missLog_keeps (h : Keeps s t) : Keeps s (State.missLog t a1 a2) := by
  unfold State.missLog
  repeat' first
    | intro _ | extract_lets
    | with_reducible first | assumption | apply State.log_keeps

theorem State.portLoadEdge_keeps (h : Keeps s t) : Keeps s (State.portLoadEdge t a1) := by
  unfold State.portLoadEdge
  repeat' first
    | intro _ | extract_lets
    | with_reducible first | assumption | apply State.onNp_keeps | apply State.wr_keeps

theorem State.buildFrame_keeps (h : Keeps s t) : Keeps s (State.buildFrame t) := by
  unfold State.buildFrame
  repeat' first
    | intro _ | extract_lets
    | with_reducible first | assumption | apply State.setBit_keeps | apply State.onNet_keeps

theorem State.boundary_keeps (h : Keeps s t) : Keeps s (State.boundary t) := by
  unfold State.boundary
  repeat' first
    | with_reducible first | assumption | exact Nat.le_refl _ | exact List.length_filter_le _ _ | exact rfl
    | intro _ _ _ | with_reducible first | apply State.subBoundary_keeps | apply State.missLog_keeps | apply State.cycleTarget_keeps | apply State.onTim_keeps | apply State.onNet_keeps | apply State.buildFrame_keeps | apply State.portLoadEdge_keeps | apply overList_keeps | apply keeps_ite | apply keeps_dite | apply foldl_keeps
    | split | extract_lets

theorem State.cyclicTransmission_keeps (h : Keeps s t) : Keeps s (State.cyclicTransmission t) := by
  unfold State.cyclicTransmission
  repeat' first
    | intro _ | extract_lets
    | with_reducible first | assumption | apply State.originate_keeps | apply State.onNet_keeps | apply keeps_ite | apply keeps_dite
         | apply foldl_keeps
    | split

theorem State.uobjCommit_keeps (h : Keeps s t) : Keeps s (State.uobjCommit t a1) := by
  unfold State.uobjCommit
  repeat' first
    | intro _ | extract_lets
    | with_reducible first | assumption | apply State.onNet_keeps | apply overList_keeps

theorem State.replyStatus_keeps (h : Keeps s t) : Keeps s (State.replyStatus t a1 a2 a3 a4 a5) := by
  unfold State.replyStatus
  repeat' first
    | intro _ | extract_lets
    | with_reducible first | assumption | apply State.reply_keeps

theorem State.fullCount_keeps (h : Keeps s t) : Keeps s (State.fullCount t) := by
  unfold State.fullCount
  repeat' first
    | intro _ | extract_lets
    | with_reducible first | assumption | apply State.bump_keeps

theorem State.authFail_keeps (h : Keeps s t) : Keeps s (State.authFail t a1 a2) := by
  unfold State.authFail
  repeat' first
    | intro _ | extract_lets
    | with_reducible first | assumption | apply State.violate_keeps | apply State.bump_keeps

theorem State.acceptReq_keeps (h : Keeps s t) : Keeps s (State.acceptReq t a1 a2) := by
  unfold State.acceptReq
  repeat' first
    | intro _ | extract_lets
    | with_reducible first | assumption | apply State.onNet_keeps | apply State.fullCount_keeps | apply State.replyStatus_keeps
         | apply State.reply_keeps | apply State.closeSession_keeps | apply keeps_ite | apply keeps_dite | apply foldl_keeps
    | split

theorem State.gotReq_keeps (h : Keeps s t) : Keeps s (State.gotReq t a1 a2 a3 a4) := by
  unfold State.gotReq
  repeat' first
    | intro _ | extract_lets
    | with_reducible first | assumption | apply State.onNet_keeps | apply State.replyStatus_keeps | apply State.acceptReq_keeps
         | apply State.authFail_keeps | apply keeps_ite | apply keeps_dite | apply foldl_keeps
    | split

theorem State.forward_keeps (h : Keeps s t) : Keeps s (State.forward t a1 a2 a3 a4) := by
  unfold State.forward
  repeat' first
    | intro _ | extract_lets
    | with_reducible first | assumption | apply State.enqueue_keeps | apply keeps_ite

theorem State.gotManage_keeps (h : Keeps s t) : Keeps s (State.gotManage t a1 a2) := by
  unfold State.gotManage
  repeat' first
    | intro _ | extract_lets
    | with_reducible first | assumption | apply State.gotClaim_keeps | apply State.gotDefend_keeps | apply State.gotRequest_keeps
         | apply State.gotOffer_keeps | apply State.gotLeave_keeps | apply keeps_ite | apply keeps_dite | apply foldl_keeps
    | split

theorem State.consumeFrame_keeps (h : Keeps s t) : Keeps s (State.consumeFrame t a1 a2) := by
  unfold State.consumeFrame
  repeat' first
    | intro _ | extract_lets
    | with_reducible first | assumption | apply State.seeAddr_keeps | apply State.dupFilter_keeps | apply State.cyclicFrame_keeps
         | apply State.gotReq_keeps | apply State.gotManage_keeps | apply keeps_ite | apply keeps_dite | apply foldl_keeps
                            | refine keepsP_snd (by assumption) ?_ | refine keepsP_snd2 (by assumption) ?_ | apply Keeps.parts
    | split | simp only [keeps_mk] | dsimp only | simp +zetaDelta only [keeps_mk]

theorem State.receive_keeps (h : Keeps s t) : Keeps s (State.receive t a1 a2 a3) := by
  unfold State.receive
  repeat' first
    | with_reducible assumption | with_reducible exact Nat.le_refl _ | with_reducible exact List.length_filter_le _ _ | with_reducible exact rfl | intro _ | extract_lets
    | with_reducible first | apply State.bump_keeps | apply State.wr_keeps | apply State.gotPtp_keeps | apply State.forward_keeps | apply State.consumeFrame_keeps | apply keeps_ite | apply keeps_dite | apply foldl_keeps
    | split
    | with_reducible refine keepsP_snd (by assumption) ?_ | with_reducible refine keepsP_snd2 (by assumption) ?_
    | with_reducible apply Keeps.parts | simp only [keeps_mk]
    | dsimp only | simp +zetaDelta only [keeps_mk] | dsimp +zetaDelta only

theorem State.subAdd_keeps (h : Keeps s t) : KeepsP s (State.subAdd t a1) := by
  unfold State.subAdd
  repeat' first
    | intro _ | extract_lets
    | with_reducible first | assumption | apply State.violate_keeps | apply State.fullCount_keeps | apply State.wr_keeps | apply State.onAcc_keeps
         | apply State.onNet_keeps | apply keeps_ite | apply foldl_keeps | apply keepsP_ite

theorem State.subDel_keeps (h : Keeps s t) : KeepsP s (State.subDel t a1) := by
  unfold State.subDel
  repeat' first
    | with_reducible first | assumption | exact Nat.le_refl _ | exact List.length_filter_le _ _ | exact rfl
    | intro _ _ _ | with_reducible first | apply State.violate_keeps | apply State.wr_keeps | apply State.onNet_keeps | apply overList_keeps | apply onFlt_keeps | apply keeps_ite | apply foldl_keeps | apply keepsP_ite
    | split | extract_lets

theorem State.netEffect_keeps (h : Keeps s t) : KeepsP s (State.netEffect t a1 a2 a3) := by
  unfold State.netEffect
  repeat' first
    | intro _ | extract_lets
    | with_reducible first | assumption | apply State.subAdd_keeps | apply State.subDel_keeps | apply State.startClaim_keeps | apply State.onNet_keeps
         | apply State.releaseAddr_keeps | apply State.closeSession_keeps | apply keeps_ite | apply foldl_keeps | apply keepsP_ite | apply keepsP_dite
    | split

theorem State.netCmd_keeps (h : Keeps s t) : KeepsP s (State.netCmd t a1 a2 a3) := by
  unfold State.netCmd
  repeat' first
    | intro _ | extract_lets
    | with_reducible first | assumption | apply State.violate_keeps | apply State.netEffect_keeps | apply State.finish_keeps | apply keeps_ite
         | apply foldl_keeps | apply keepsP_ite | apply keepsP_dite | refine keepsP_snd (by assumption) ?_
    | split

theorem execLinkUp_keeps (h : Keeps s t) : KeepsO s (execLinkUp a1 a2 t) := by
  unfold execLinkUp
  repeat' first
    | with_reducible assumption | with_reducible exact Nat.le_refl _ | with_reducible exact List.length_filter_le _ _ | with_reducible exact rfl | intro _ | extract_lets
    | with_reducible first | apply State.awake_keeps | apply State.linkUp_keeps | apply keeps_ite | apply foldl_keeps | apply keepsO_ite | apply keepsO_next
    | split
    | with_reducible refine keepsP_snd (by assumption) ?_ | with_reducible refine keepsP_snd2 (by assumption) ?_
    | with_reducible apply Keeps.parts | simp only [keeps_mk]
    | dsimp only | simp +zetaDelta only [keeps_mk] | dsimp +zetaDelta only

theorem execLinkDown_keeps (h : Keeps s t) : KeepsO s (execLinkDown a1 a2 a3 t) := by
  unfold execLinkDown
  repeat' first
    | with_reducible assumption | with_reducible exact Nat.le_refl _ | with_reducible exact List.length_filter_le _ _ | with_reducible exact rfl | intro _ | extract_lets
    | with_reducible first | apply State.awake_keeps | apply State.linkDown_keeps | apply keeps_ite | apply foldl_keeps | apply keepsO_ite | apply keepsO_next
    | split
    | with_reducible refine keepsP_snd (by assumption) ?_ | with_reducible refine keepsP_snd2 (by assumption) ?_
    | with_reducible apply Keeps.parts | simp only [keeps_mk]
    | dsimp only | simp +zetaDelta only [keeps_mk] | dsimp +zetaDelta only

theorem execSignalDetect_keeps (h : Keeps s t) : KeepsO s (execSignalDetect a1 a2 t) := by
  unfold execSignalDetect
  repeat' first
    | with_reducible assumption | with_reducible exact Nat.le_refl _ | with_reducible exact List.length_filter_le _ _ | with_reducible exact rfl | intro _ | extract_lets
    | with_reducible first | apply State.awake_keeps | apply State.signalDetect_keeps | apply keeps_ite | apply foldl_keeps | apply keepsO_ite | apply keepsO_next
    | split
    | with_reducible refine keepsP_snd (by assumption) ?_ | with_reducible refine keepsP_snd2 (by assumption) ?_
    | with_reducible apply Keeps.parts | simp only [keeps_mk]
    | dsimp only | simp +zetaDelta only [keeps_mk] | dsimp +zetaDelta only

theorem execPcsSync_keeps (h : Keeps s t) : KeepsO s (execPcsSync a1 a2 t) := by
  unfold execPcsSync
  repeat' first
    | with_reducible assumption | with_reducible exact Nat.le_refl _ | with_reducible exact List.length_filter_le _ _ | with_reducible exact rfl | intro _ | extract_lets
    | with_reducible first | apply State.awake_keeps | apply State.pcsSync_keeps | apply keeps_ite | apply foldl_keeps | apply keepsO_ite | apply keepsO_next
    | split
    | with_reducible refine keepsP_snd (by assumption) ?_ | with_reducible refine keepsP_snd2 (by assumption) ?_
    | with_reducible apply Keeps.parts | simp only [keeps_mk]
    | dsimp only | simp +zetaDelta only [keeps_mk] | dsimp +zetaDelta only

theorem execEqAcquireStep_keeps (h : Keeps s t) : KeepsO s (execEqAcquireStep a1 t) := by
  unfold execEqAcquireStep
  repeat' first
    | with_reducible assumption | with_reducible exact Nat.le_refl _ | with_reducible exact List.length_filter_le _ _ | with_reducible exact rfl | intro _ | extract_lets
    | with_reducible first | apply State.awake_keeps | apply State.eqAcquire_keeps | apply keeps_ite | apply foldl_keeps | apply keepsO_ite | apply keepsO_next
    | split
    | with_reducible refine keepsP_snd (by assumption) ?_ | with_reducible refine keepsP_snd2 (by assumption) ?_
    | with_reducible apply Keeps.parts | simp only [keeps_mk]
    | dsimp only | simp +zetaDelta only [keeps_mk] | dsimp +zetaDelta only

theorem execEqUpdate_keeps (h : Keeps s t) : KeepsO s (execEqUpdate a1 a2 a3 a4 a5 t) := by
  unfold execEqUpdate
  repeat' first
    | with_reducible assumption | with_reducible exact Nat.le_refl _ | with_reducible exact List.length_filter_le _ _ | with_reducible exact rfl | intro _ | extract_lets
    | with_reducible first | apply State.awake_keeps | apply State.eqUpdate_keeps | apply keeps_ite | apply foldl_keeps | apply keepsO_ite | apply keepsO_next
    | split
    | with_reducible refine keepsP_snd (by assumption) ?_ | with_reducible refine keepsP_snd2 (by assumption) ?_
    | with_reducible apply Keeps.parts | simp only [keeps_mk]
    | dsimp only | simp +zetaDelta only [keeps_mk] | dsimp +zetaDelta only

theorem execEqDiverge_keeps (h : Keeps s t) : KeepsO s (execEqDiverge a1 t) := by
  unfold execEqDiverge
  repeat' first
    | with_reducible assumption | with_reducible exact Nat.le_refl _ | with_reducible exact List.length_filter_le _ _ | with_reducible exact rfl | intro _ | extract_lets
    | with_reducible first | apply State.awake_keeps | apply State.eqDiverge_keeps | apply keeps_ite | apply foldl_keeps | apply keepsO_ite | apply keepsO_next
    | split
    | with_reducible refine keepsP_snd (by assumption) ?_ | with_reducible refine keepsP_snd2 (by assumption) ?_
    | with_reducible apply Keeps.parts | simp only [keeps_mk]
    | dsimp only | simp +zetaDelta only [keeps_mk] | dsimp +zetaDelta only

theorem execFrameReceive_keeps (h : Keeps s t) : KeepsO s (execFrameReceive a1 a2 a3 t) := by
  unfold execFrameReceive
  repeat' first
    | with_reducible assumption | with_reducible exact Nat.le_refl _ | with_reducible exact List.length_filter_le _ _ | with_reducible exact rfl | intro _ | extract_lets
    | with_reducible first | apply State.awake_keeps | apply State.receive_keeps | apply keeps_ite | apply foldl_keeps | apply keepsO_ite | apply keepsO_next
    | split
    | with_reducible refine keepsP_snd (by assumption) ?_ | with_reducible refine keepsP_snd2 (by assumption) ?_
    | with_reducible apply Keeps.parts | simp only [keeps_mk]
    | dsimp only | simp +zetaDelta only [keeps_mk] | dsimp +zetaDelta only

theorem execCyclicFrame_keeps (h : Keeps s t) : KeepsO s (execCyclicFrame a1 a2 a3 t) := by
  unfold execCyclicFrame
  repeat' first
    | with_reducible assumption | with_reducible exact Nat.le_refl _ | with_reducible exact List.length_filter_le _ _ | with_reducible exact rfl | intro _ | extract_lets
    | with_reducible first | apply State.awake_keeps | apply State.cyclicFrame_keeps | apply keeps_ite | apply foldl_keeps | apply keepsO_ite | apply keepsO_next
    | split
    | with_reducible refine keepsP_snd (by assumption) ?_ | with_reducible refine keepsP_snd2 (by assumption) ?_
    | with_reducible apply Keeps.parts | simp only [keeps_mk]
    | dsimp only | simp +zetaDelta only [keeps_mk] | dsimp +zetaDelta only

theorem execTransmitFrame_keeps (h : Keeps s t) : KeepsO s (execTransmitFrame a1 t) := by
  unfold execTransmitFrame
  repeat' first
    | with_reducible assumption | with_reducible exact Nat.le_refl _ | with_reducible exact List.length_filter_le _ _ | with_reducible exact rfl | intro _ | extract_lets
    | with_reducible first | apply State.awake_keeps | apply State.transmit_keeps | apply keeps_ite | apply foldl_keeps | apply keepsO_ite | apply keepsO_next
    | split
    | with_reducible refine keepsP_snd (by assumption) ?_ | with_reducible refine keepsP_snd2 (by assumption) ?_
    | with_reducible apply Keeps.parts | simp only [keeps_mk]
    | dsimp only | simp +zetaDelta only [keeps_mk] | dsimp +zetaDelta only

theorem execCyclicTransmission_keeps (h : Keeps s t) : KeepsO s (execCyclicTransmission t) := by
  unfold execCyclicTransmission
  repeat' first
    | with_reducible assumption | with_reducible exact Nat.le_refl _ | with_reducible exact List.length_filter_le _ _ | with_reducible exact rfl | intro _ | extract_lets
    | with_reducible first | apply State.awake_keeps | apply State.cyclicTransmission_keeps | apply keeps_ite | apply foldl_keeps | apply keepsO_ite | apply keepsO_next
    | split
    | with_reducible refine keepsP_snd (by assumption) ?_ | with_reducible refine keepsP_snd2 (by assumption) ?_
    | with_reducible apply Keeps.parts | simp only [keeps_mk]
    | dsimp only | simp +zetaDelta only [keeps_mk] | dsimp +zetaDelta only

theorem execCycleBoundary_keeps (h : Keeps s t) : KeepsO s (execCycleBoundary t) := by
  unfold execCycleBoundary
  repeat' first
    | with_reducible assumption | with_reducible exact Nat.le_refl _ | with_reducible exact List.length_filter_le _ _ | with_reducible exact rfl | intro _ | extract_lets
    | with_reducible first | apply State.awake_keeps | apply State.boundary_keeps | apply keeps_ite | apply foldl_keeps | apply keepsO_ite | apply keepsO_next
    | split
    | with_reducible refine keepsP_snd (by assumption) ?_ | with_reducible refine keepsP_snd2 (by assumption) ?_
    | with_reducible apply Keeps.parts | simp only [keeps_mk]
    | dsimp only | simp +zetaDelta only [keeps_mk] | dsimp +zetaDelta only

theorem execSyncInterval_keeps (h : Keeps s t) : KeepsO s (execSyncInterval a1 t) := by
  unfold execSyncInterval
  repeat' first
    | with_reducible assumption | with_reducible exact Nat.le_refl _ | with_reducible exact List.length_filter_le _ _ | with_reducible exact rfl | intro _ | extract_lets
    | with_reducible first | apply State.awake_keeps | apply State.gptp_keeps | apply keeps_ite | apply foldl_keeps | apply keepsO_ite | apply keepsO_next
    | split
    | with_reducible refine keepsP_snd (by assumption) ?_ | with_reducible refine keepsP_snd2 (by assumption) ?_
    | with_reducible apply Keeps.parts | simp only [keeps_mk]
    | dsimp only | simp +zetaDelta only [keeps_mk] | dsimp +zetaDelta only

theorem execClaimFrame_keeps (h : Keeps s t) : KeepsO s (execClaimFrame a1 a2 a3 t) := by
  unfold execClaimFrame
  repeat' first
    | with_reducible assumption | with_reducible exact Nat.le_refl _ | with_reducible exact List.length_filter_le _ _ | with_reducible exact rfl | intro _ | extract_lets
    | with_reducible first | apply State.awake_keeps | apply State.gotClaim_keeps | apply keeps_ite | apply foldl_keeps | apply keepsO_ite | apply keepsO_next
    | split
    | with_reducible refine keepsP_snd (by assumption) ?_ | with_reducible refine keepsP_snd2 (by assumption) ?_
    | with_reducible apply Keeps.parts | simp only [keeps_mk]
    | dsimp only | simp +zetaDelta only [keeps_mk] | dsimp +zetaDelta only

theorem execAddrDefend_keeps (h : Keeps s t) : KeepsO s (execAddrDefend a1 t) := by
  unfold execAddrDefend
  repeat' first
    | with_reducible assumption | with_reducible exact Nat.le_refl _ | with_reducible exact List.length_filter_le _ _ | with_reducible exact rfl | intro _ | extract_lets
    | with_reducible first | apply State.awake_keeps | apply State.gotDefend_keeps | apply keeps_ite | apply foldl_keeps | apply keepsO_ite | apply keepsO_next
    | split
    | with_reducible refine keepsP_snd (by assumption) ?_ | with_reducible refine keepsP_snd2 (by assumption) ?_
    | with_reducible apply Keeps.parts | simp only [keeps_mk]
    | dsimp only | simp +zetaDelta only [keeps_mk] | dsimp +zetaDelta only

theorem execAddrRequest_keeps (h : Keeps s t) : KeepsO s (execAddrRequest a1 t) := by
  unfold execAddrRequest
  repeat' first
    | with_reducible assumption | with_reducible exact Nat.le_refl _ | with_reducible exact List.length_filter_le _ _ | with_reducible exact rfl | intro _ | extract_lets
    | with_reducible first | apply State.awake_keeps | apply State.gotRequest_keeps | apply keeps_ite | apply foldl_keeps | apply keepsO_ite | apply keepsO_next
    | split
    | with_reducible refine keepsP_snd (by assumption) ?_ | with_reducible refine keepsP_snd2 (by assumption) ?_
    | with_reducible apply Keeps.parts | simp only [keeps_mk]
    | dsimp only | simp +zetaDelta only [keeps_mk] | dsimp +zetaDelta only

theorem execAddrOffer_keeps (h : Keeps s t) : KeepsO s (execAddrOffer a1 a2 t) := by
  unfold execAddrOffer
  repeat' first
    | with_reducible assumption | with_reducible exact Nat.le_refl _ | with_reducible exact List.length_filter_le _ _ | with_reducible exact rfl | intro _ | extract_lets
    | with_reducible first | apply State.awake_keeps | apply State.gotOffer_keeps | apply keeps_ite | apply foldl_keeps | apply keepsO_ite | apply keepsO_next
    | split
    | with_reducible refine keepsP_snd (by assumption) ?_ | with_reducible refine keepsP_snd2 (by assumption) ?_
    | with_reducible apply Keeps.parts | simp only [keeps_mk]
    | dsimp only | simp +zetaDelta only [keeps_mk] | dsimp +zetaDelta only

theorem execAddrLeave_keeps (h : Keeps s t) : KeepsO s (execAddrLeave a1 t) := by
  unfold execAddrLeave
  repeat' first
    | with_reducible assumption | with_reducible exact Nat.le_refl _ | with_reducible exact List.length_filter_le _ _ | with_reducible exact rfl | intro _ | extract_lets
    | with_reducible first | apply State.awake_keeps | apply State.gotLeave_keeps | apply keeps_ite | apply foldl_keeps | apply keepsO_ite | apply keepsO_next
    | split
    | with_reducible refine keepsP_snd (by assumption) ?_ | with_reducible refine keepsP_snd2 (by assumption) ?_
    | with_reducible apply Keeps.parts | simp only [keeps_mk]
    | dsimp only | simp +zetaDelta only [keeps_mk] | dsimp +zetaDelta only

theorem execClaimResend_keeps (h : Keeps s t) : KeepsO s (execClaimResend t) := by
  unfold execClaimResend
  repeat' first
    | with_reducible assumption | with_reducible exact Nat.le_refl _ | with_reducible exact List.length_filter_le _ _ | with_reducible exact rfl | intro _ | extract_lets
    | with_reducible first | apply State.awake_keeps | apply State.claimResend_keeps | apply keeps_ite | apply foldl_keeps | apply keepsO_ite | apply keepsO_next
    | split
    | with_reducible refine keepsP_snd (by assumption) ?_ | with_reducible refine keepsP_snd2 (by assumption) ?_
    | with_reducible apply Keeps.parts | simp only [keeps_mk]
    | dsimp only | simp +zetaDelta only [keeps_mk] | dsimp +zetaDelta only

theorem execClaimConfirm_keeps (h : Keeps s t) : KeepsO s (execClaimConfirm t) := by
  unfold execClaimConfirm
  repeat' first
    | with_reducible assumption | with_reducible exact Nat.le_refl _ | with_reducible exact List.length_filter_le _ _ | with_reducible exact rfl | intro _ | extract_lets
    | with_reducible first | apply State.awake_keeps | apply State.claimConfirm_keeps | apply keeps_ite | apply foldl_keeps | apply keepsO_ite | apply keepsO_next
    | split
    | with_reducible refine keepsP_snd (by assumption) ?_ | with_reducible refine keepsP_snd2 (by assumption) ?_
    | with_reducible apply Keeps.parts | simp only [keeps_mk]
    | dsimp only | simp +zetaDelta only [keeps_mk] | dsimp +zetaDelta only

theorem execRequestRetry_keeps (h : Keeps s t) : KeepsO s (execRequestRetry t) := by
  unfold execRequestRetry
  repeat' first
    | with_reducible assumption | with_reducible exact Nat.le_refl _ | with_reducible exact List.length_filter_le _ _ | with_reducible exact rfl | intro _ | extract_lets
    | with_reducible first | apply State.awake_keeps | apply State.requestRetry_keeps | apply keeps_ite | apply foldl_keeps | apply keepsO_ite | apply keepsO_next
    | split
    | with_reducible refine keepsP_snd (by assumption) ?_ | with_reducible refine keepsP_snd2 (by assumption) ?_
    | with_reducible apply Keeps.parts | simp only [keeps_mk]
    | dsimp only | simp +zetaDelta only [keeps_mk] | dsimp +zetaDelta only

theorem execSubAdd_keeps (h : Keeps s t) : KeepsO s (execSubAdd a1 a2 t) := by
  unfold execSubAdd
  repeat' first
    | with_reducible assumption | with_reducible exact Nat.le_refl _ | with_reducible exact List.length_filter_le _ _ | with_reducible exact rfl | intro _ | extract_lets
    | with_reducible first | apply State.awake_keeps | apply State.counted_keeps | apply State.netCmd_keeps | apply keeps_ite | apply foldl_keeps | apply keepsO_ite | apply keepsO_next
    | split
    | with_reducible refine keepsP_snd (by assumption) ?_ | with_reducible refine keepsP_snd2 (by assumption) ?_
    | with_reducible apply Keeps.parts | simp only [keeps_mk]
    | dsimp only | simp +zetaDelta only [keeps_mk] | dsimp +zetaDelta only

theorem execSubDel_keeps (h : Keeps s t) : KeepsO s (execSubDel a1 a2 t) := by
  unfold execSubDel
  repeat' first
    | with_reducible assumption | with_reducible exact Nat.le_refl _ | with_reducible exact List.length_filter_le _ _ | with_reducible exact rfl | intro _ | extract_lets
    | with_reducible first | apply State.awake_keeps | apply State.counted_keeps | apply State.netCmd_keeps | apply keeps_ite | apply foldl_keeps | apply keepsO_ite | apply keepsO_next
    | split
    | with_reducible refine keepsP_snd (by assumption) ?_ | with_reducible refine keepsP_snd2 (by assumption) ?_
    | with_reducible apply Keeps.parts | simp only [keeps_mk]
    | dsimp only | simp +zetaDelta only [keeps_mk] | dsimp +zetaDelta only

theorem execClaimAddr_keeps (h : Keeps s t) : KeepsO s (execClaimAddr a1 a2 t) := by
  unfold execClaimAddr
  repeat' first
    | with_reducible assumption | with_reducible exact Nat.le_refl _ | with_reducible exact List.length_filter_le _ _ | with_reducible exact rfl | intro _ | extract_lets
    | with_reducible first | apply State.awake_keeps | apply State.counted_keeps | apply State.netCmd_keeps | apply keeps_ite | apply foldl_keeps | apply keepsO_ite | apply keepsO_next
    | split
    | with_reducible refine keepsP_snd (by assumption) ?_ | with_reducible refine keepsP_snd2 (by assumption) ?_
    | with_reducible apply Keeps.parts | simp only [keeps_mk]
    | dsimp only | simp +zetaDelta only [keeps_mk] | dsimp +zetaDelta only

theorem execReleaseAddr_keeps (h : Keeps s t) : KeepsO s (execReleaseAddr a1 a2 t) := by
  unfold execReleaseAddr
  repeat' first
    | with_reducible assumption | with_reducible exact Nat.le_refl _ | with_reducible exact List.length_filter_le _ _ | with_reducible exact rfl | intro _ | extract_lets
    | with_reducible first | apply State.awake_keeps | apply State.counted_keeps | apply State.netCmd_keeps | apply keeps_ite | apply foldl_keeps | apply keepsO_ite | apply keepsO_next
    | split
    | with_reducible refine keepsP_snd (by assumption) ?_ | with_reducible refine keepsP_snd2 (by assumption) ?_
    | with_reducible apply Keeps.parts | simp only [keeps_mk]
    | dsimp only | simp +zetaDelta only [keeps_mk] | dsimp +zetaDelta only

theorem execSessClose_keeps (h : Keeps s t) : KeepsO s (execSessClose a1 a2 t) := by
  unfold execSessClose
  repeat' first
    | with_reducible assumption | with_reducible exact Nat.le_refl _ | with_reducible exact List.length_filter_le _ _ | with_reducible exact rfl | intro _ | extract_lets
    | with_reducible first | apply State.awake_keeps | apply State.counted_keeps | apply State.netCmd_keeps | apply keeps_ite | apply foldl_keeps | apply keepsO_ite | apply keepsO_next
    | split
    | with_reducible refine keepsP_snd (by assumption) ?_ | with_reducible refine keepsP_snd2 (by assumption) ?_
    | with_reducible apply Keeps.parts | simp only [keeps_mk]
    | dsimp only | simp +zetaDelta only [keeps_mk] | dsimp +zetaDelta only

end Sys2Proof.Machine
end

