-- ==== Sys2Proof/Laws/KeepsFaultCmds.lean ====
section
/-! SUPPORT. Every operation of Machine/FaultCmds.lean keeps what `Keeps` says. -/

namespace Sys2Proof.Machine

theorem State.popHist_keeps (h : Keeps s t) : Keeps s (State.popHist t a1) := by
  exact onFlt_keeps (by simp) (Nat.le_refl _) h

theorem State.popSnap_keeps (h : Keeps s t) : Keeps s (State.popSnap t a1) := by
  unfold State.popSnap
  repeat' first
    | intro _ | extract_lets
    | with_reducible first | assumption | apply State.popHist_keeps | apply keeps_ite | apply keeps_dite | apply foldl_keeps
    | split

theorem State.injEvent_keeps (h : Keeps s t) : KeepsP s (State.injEvent t) := by
  unfold State.injEvent
  repeat' first
    | intro _ | extract_lets
    | with_reducible first | assumption | apply State.injected_keeps | apply State.log_keeps | apply keeps_ite | apply foldl_keeps | apply keepsP_ite
         | apply keepsP_dite

theorem State.setInjLink_keeps (h : Keeps s t) : Keeps s (State.setInjLink t a1) := by
  unfold State.setInjLink
  repeat' first
    | intro _ | extract_lets
    | with_reducible first | assumption | exact Nat.le_refl _ | exact List.length_filter_le _ _ | exact rfl | apply State.injected_keeps
         | apply State.pcsSync_keeps | apply overList_keeps | apply onFlt_keeps | apply keeps_ite

theorem State.closeTest_keeps (h : Keeps s t) : Keeps s (State.closeTest t) := by
  unfold State.closeTest
  have h1 := onFlt_keeps (f := fun f => { f with eccArm := none, tm := false }) (Nat.le_refl _) (Nat.le_refl _) (State.setInjLink_keeps (a1 := 0) h)
  exact h1.trans ⟨rfl, id, id, id, id, fun _ _ => id, fun _ => id, fun _ => id, fun _ => rfl⟩

theorem State.lifeClear_keeps (h : Keeps s t) : Keeps s (State.lifeClear t) := by
  unfold State.lifeClear
  repeat' first
    | intro _ | extract_lets
    | with_reducible first | assumption | apply State.wr_keeps | apply overList_keeps

theorem State.fltEffect_keeps (h : Keeps s t) : KeepsP s (State.fltEffect t a1 a2 a3) := by
  unfold State.fltEffect
  repeat' first
    | with_reducible first | assumption | exact Nat.le_refl _ | exact List.length_filter_le _ _ | exact rfl
    | intro _ | extract_lets
    | with_reducible first | apply State.popHist_keeps | apply State.popSnap_keeps | apply State.injEvent_keeps | apply State.injected_keeps | apply State.modFail_keeps | apply State.setInjLink_keeps | apply State.lifeClear_keeps | apply State.closeTest_keeps | apply onFlt_keeps | apply keeps_ite | apply foldl_keeps | apply keepsP_ite | apply keepsP_dite
    | split

theorem State.fltCmd_keeps (h : Keeps s t) : KeepsP s (State.fltCmd t a1 a2 a3) := by
  unfold State.fltCmd
  repeat' first
    | intro _ | extract_lets
    | with_reducible first | assumption | apply State.violate_keeps | apply State.fltEffect_keeps | apply State.finish_keeps | apply keeps_ite
         | apply foldl_keeps | apply keepsP_ite

theorem State.scrubBad_keeps (h : Keeps s t) : Keeps s (State.scrubBad t a1 a2) := by
  unfold State.scrubBad
  repeat' first
    | intro _ | extract_lets
    | with_reducible first | assumption | exact Nat.le_refl _ | exact List.length_filter_le _ _ | exact rfl | apply State.eccFound_keeps
         | apply State.life_keeps | apply State.flag_keeps | apply onFlt_keeps | apply keeps_ite | apply keeps_dite | apply foldl_keeps
    | split

theorem State.scrub_keeps (h : Keeps s t) : Keeps s (State.scrub t) := by
  unfold State.scrub
  repeat' first
    | intro _ | extract_lets
    | with_reducible first | assumption | exact Nat.le_refl _ | exact List.length_filter_le _ _ | exact rfl | apply State.scrubBad_keeps
         | apply State.life_keeps | apply onFlt_keeps | apply keeps_ite | apply keeps_dite | apply foldl_keeps
    | split

theorem State.pathPut_keeps (h : Keeps s t) : Keeps s (State.pathPut t a1 a2) := by
  unfold State.pathPut
  extract_lets s1
  have h1 : Keeps s s1 :=
    onFlt_keeps (Nat.le_refl _) (List.length_filter_le _ _) (h.trans ⟨rfl, id, pathWrite_wf _ _, id, id, .refl⟩)
  repeat' first
    | with_reducible first | assumption
    | split | exact onFlt_keeps (Nat.le_refl _) (Nat.le_refl _) h1

theorem State.pathGet_keeps (h : Keeps s t) : Keeps s (State.pathGet t a1).2.2 := by
  unfold State.pathGet
  repeat' first
    | intro _ | extract_lets
    | with_reducible first | assumption | exact Nat.le_refl _ | exact List.length_filter_le _ _ | exact rfl | apply State.eccFound_keeps
         | apply State.life_keeps | apply onFlt_keeps | apply keeps_ite | apply foldl_keeps | apply keepsP_ite | apply keepsP_ite2
    | split

theorem execPopHistory_keeps (h : Keeps s t) : KeepsO s (execPopHistory a1 a2 t) := by
  unfold execPopHistory
  repeat' first
    | with_reducible assumption | with_reducible exact Nat.le_refl _ | with_reducible exact List.length_filter_le _ _ | with_reducible exact rfl | intro _ | extract_lets
    | with_reducible first | apply State.awake_keeps | apply State.fltCmd_keeps | apply keeps_ite | apply foldl_keeps | apply keepsO_ite | apply keepsO_next
    | split
    | with_reducible refine keepsP_snd (by assumption) ?_ | with_reducible refine keepsP_snd2 (by assumption) ?_
    | with_reducible apply Keeps.parts | simp only [keeps_mk]
    | dsimp only | simp +zetaDelta only [keeps_mk] | dsimp +zetaDelta only

theorem execPopSnap_keeps (h : Keeps s t) : KeepsO s (execPopSnap a1 a2 t) := by
  unfold execPopSnap
  repeat' first
    | with_reducible assumption | with_reducible exact Nat.le_refl _ | with_reducible exact List.length_filter_le _ _ | with_reducible exact rfl | intro _ | extract_lets
    | with_reducible first | apply State.awake_keeps | apply State.fltCmd_keeps | apply keeps_ite | apply foldl_keeps | apply keepsO_ite | apply keepsO_next
    | split
    | with_reducible refine keepsP_snd (by assumption) ?_ | with_reducible refine keepsP_snd2 (by assumption) ?_
    | with_reducible apply Keeps.parts | simp only [keeps_mk]
    | dsimp only | simp +zetaDelta only [keeps_mk] | dsimp +zetaDelta only

theorem execInjEvent_keeps (h : Keeps s t) : KeepsO s (execInjEvent a1 a2 t) := by
  unfold execInjEvent
  repeat' first
    | with_reducible assumption | with_reducible exact Nat.le_refl _ | with_reducible exact List.length_filter_le _ _ | with_reducible exact rfl | intro _ | extract_lets
    | with_reducible first | apply State.awake_keeps | apply State.fltCmd_keeps | apply keeps_ite | apply foldl_keeps | apply keepsO_ite | apply keepsO_next
    | split
    | with_reducible refine keepsP_snd (by assumption) ?_ | with_reducible refine keepsP_snd2 (by assumption) ?_
    | with_reducible apply Keeps.parts | simp only [keeps_mk]
    | dsimp only | simp +zetaDelta only [keeps_mk] | dsimp +zetaDelta only

theorem execInjEcc_keeps (h : Keeps s t) : KeepsO s (execInjEcc a1 a2 t) := by
  unfold execInjEcc
  repeat' first
    | with_reducible assumption | with_reducible exact Nat.le_refl _ | with_reducible exact List.length_filter_le _ _ | with_reducible exact rfl | intro _ | extract_lets
    | with_reducible first | apply State.awake_keeps | apply State.fltCmd_keeps | apply keeps_ite | apply foldl_keeps | apply keepsO_ite | apply keepsO_next
    | split
    | with_reducible refine keepsP_snd (by assumption) ?_ | with_reducible refine keepsP_snd2 (by assumption) ?_
    | with_reducible apply Keeps.parts | simp only [keeps_mk]
    | dsimp only | simp +zetaDelta only [keeps_mk] | dsimp +zetaDelta only

theorem execInjSar_keeps (h : Keeps s t) : KeepsO s (execInjSar a1 a2 t) := by
  unfold execInjSar
  repeat' first
    | with_reducible assumption | with_reducible exact Nat.le_refl _ | with_reducible exact List.length_filter_le _ _ | with_reducible exact rfl | intro _ | extract_lets
    | with_reducible first | apply State.awake_keeps | apply State.fltCmd_keeps | apply keeps_ite | apply foldl_keeps | apply keepsO_ite | apply keepsO_next
    | split
    | with_reducible refine keepsP_snd (by assumption) ?_ | with_reducible refine keepsP_snd2 (by assumption) ?_
    | with_reducible apply Keeps.parts | simp only [keeps_mk]
    | dsimp only | simp +zetaDelta only [keeps_mk] | dsimp +zetaDelta only

theorem execInjMod_keeps (h : Keeps s t) : KeepsO s (execInjMod a1 a2 t) := by
  unfold execInjMod
  repeat' first
    | with_reducible assumption | with_reducible exact Nat.le_refl _ | with_reducible exact List.length_filter_le _ _ | with_reducible exact rfl | intro _ | extract_lets
    | with_reducible first | apply State.awake_keeps | apply State.fltCmd_keeps | apply keeps_ite | apply foldl_keeps | apply keepsO_ite | apply keepsO_next
    | split
    | with_reducible refine keepsP_snd (by assumption) ?_ | with_reducible refine keepsP_snd2 (by assumption) ?_
    | with_reducible apply Keeps.parts | simp only [keeps_mk]
    | dsimp only | simp +zetaDelta only [keeps_mk] | dsimp +zetaDelta only

theorem execInjLink_keeps (h : Keeps s t) : KeepsO s (execInjLink a1 a2 t) := by
  unfold execInjLink
  repeat' first
    | with_reducible assumption | with_reducible exact Nat.le_refl _ | with_reducible exact List.length_filter_le _ _ | with_reducible exact rfl | intro _ | extract_lets
    | with_reducible first | apply State.awake_keeps | apply State.fltCmd_keeps | apply keeps_ite | apply foldl_keeps | apply keepsO_ite | apply keepsO_next
    | split
    | with_reducible refine keepsP_snd (by assumption) ?_ | with_reducible refine keepsP_snd2 (by assumption) ?_
    | with_reducible apply Keeps.parts | simp only [keeps_mk]
    | dsimp only | simp +zetaDelta only [keeps_mk] | dsimp +zetaDelta only

theorem execInjPort_keeps (h : Keeps s t) : KeepsO s (execInjPort a1 a2 t) := by
  unfold execInjPort
  repeat' first
    | with_reducible assumption | with_reducible exact Nat.le_refl _ | with_reducible exact List.length_filter_le _ _ | with_reducible exact rfl | intro _ | extract_lets
    | with_reducible first | apply State.awake_keeps | apply State.fltCmd_keeps | apply keeps_ite | apply foldl_keeps | apply keepsO_ite | apply keepsO_next
    | split
    | with_reducible refine keepsP_snd (by assumption) ?_ | with_reducible refine keepsP_snd2 (by assumption) ?_
    | with_reducible apply Keeps.parts | simp only [keeps_mk]
    | dsimp only | simp +zetaDelta only [keeps_mk] | dsimp +zetaDelta only

theorem execLifeClr_keeps (h : Keeps s t) : KeepsO s (execLifeClr a1 a2 t) := by
  unfold execLifeClr
  repeat' first
    | with_reducible assumption | with_reducible exact Nat.le_refl _ | with_reducible exact List.length_filter_le _ _ | with_reducible exact rfl | intro _ | extract_lets
    | with_reducible first | apply State.awake_keeps | apply State.fltCmd_keeps | apply keeps_ite | apply foldl_keeps | apply keepsO_ite | apply keepsO_next
    | split
    | with_reducible refine keepsP_snd (by assumption) ?_ | with_reducible refine keepsP_snd2 (by assumption) ?_
    | with_reducible apply Keeps.parts | simp only [keeps_mk]
    | dsimp only | simp +zetaDelta only [keeps_mk] | dsimp +zetaDelta only

theorem execCloseTest_keeps (h : Keeps s t) : KeepsO s (execCloseTest a1 a2 t) := by
  unfold execCloseTest
  repeat' first
    | with_reducible assumption | with_reducible exact Nat.le_refl _ | with_reducible exact List.length_filter_le _ _ | with_reducible exact rfl | intro _ | extract_lets
    | with_reducible first | apply State.awake_keeps | apply State.fltCmd_keeps | apply keeps_ite | apply foldl_keeps | apply keepsO_ite | apply keepsO_next
    | split
    | with_reducible refine keepsP_snd (by assumption) ?_ | with_reducible refine keepsP_snd2 (by assumption) ?_
    | with_reducible apply Keeps.parts | simp only [keeps_mk]
    | dsimp only | simp +zetaDelta only [keeps_mk] | dsimp +zetaDelta only

theorem execScrub_keeps (h : Keeps s t) : KeepsO s (execScrub t) := by
  unfold execScrub
  repeat' first
    | with_reducible assumption | with_reducible exact Nat.le_refl _ | with_reducible exact List.length_filter_le _ _ | with_reducible exact rfl | intro _ | extract_lets
    | with_reducible first | apply State.awake_keeps | apply State.scrub_keeps | apply keeps_ite | apply foldl_keeps | apply keepsO_ite | apply keepsO_next
    | split
    | with_reducible refine keepsP_snd (by assumption) ?_ | with_reducible refine keepsP_snd2 (by assumption) ?_
    | with_reducible apply Keeps.parts | simp only [keeps_mk]
    | dsimp only | simp +zetaDelta only [keeps_mk] | dsimp +zetaDelta only

theorem execLifetimeSecond_keeps (h : Keeps s t) : KeepsO s (execLifetimeSecond t) := by
  unfold execLifetimeSecond
  repeat' first
    | with_reducible assumption | with_reducible exact Nat.le_refl _ | with_reducible exact List.length_filter_le _ _ | with_reducible exact rfl | intro _ | extract_lets
    | with_reducible first | apply State.awake_keeps | apply State.life_keeps | apply keeps_ite | apply foldl_keeps | apply keepsO_ite | apply keepsO_next
    | split
    | with_reducible refine keepsP_snd (by assumption) ?_ | with_reducible refine keepsP_snd2 (by assumption) ?_
    | with_reducible apply Keeps.parts | simp only [keeps_mk]
    | dsimp only | simp +zetaDelta only [keeps_mk] | dsimp +zetaDelta only

end Sys2Proof.Machine
end

