-- ==== Sys2Proof/Laws/KeepsPowerReset.lean ====
section
/-! SUPPORT. Every operation of Machine/PowerReset.lean keeps what `Keeps` says. -/

namespace Sys2Proof.Machine

theorem State.showKcv_keeps (h : Keeps s t) : Keeps s (State.showKcv t) := by
  unfold State.showKcv
  repeat' first
    | intro _ | extract_lets
    | with_reducible first | assumption | apply State.wr_keeps | apply keeps_ite | apply keeps_dite | apply foldl_keeps
    | split

theorem State.reborn_keeps (h : Keeps s t) : Keeps s (State.reborn t a1 a2) := by
  unfold State.reborn
  extract_lets p t'
  refine State.wr_keeps (State.setTrim_keeps (State.setTrim_keeps ⟨h.pending, fun hr => spWfFrom_filter _ _ _ (h.regs hr), ?_, ?_, fun _ => Nat.zero_le _, h.otp⟩))
  · intro hm
    show Memory.wf (if a1 then [] else t.path)
    split
    · rfl
    · exact h.path hm
  · intro hl
    show (if a1 || a2 then [] else t.flt.hist).length ≤ 32
    split
    · exact Nat.zero_le _
    · exact h.hist hl

theorem State.enterReset_keeps (h : Keeps s t) : Keeps s (State.enterReset t a1 a2 a3) := by
  unfold State.enterReset
  repeat' first
    | intro _ | extract_lets
    | with_reducible first | assumption | exact Nat.le_refl _ | exact List.length_filter_le _ _ | exact rfl | apply State.reborn_keeps
         | apply onPow_keeps

theorem State.testEntry_keeps (h : Keeps s t) : Keeps s (State.testEntry t a1) := by
  unfold State.testEntry
  repeat' first
    | intro _ | extract_lets
    | with_reducible first | assumption | exact Nat.le_refl _ | exact List.length_filter_le _ _ | exact rfl | apply State.log_keeps
         | apply onFlt_keeps | apply keeps_ite

theorem State.release_keeps (h : Keeps s t) : Keeps s (State.release t a1) := by
  unfold State.release
  repeat' first
    | intro _ | extract_lets
    | with_reducible first | assumption | exact Nat.le_refl _ | exact List.length_filter_le _ _ | exact rfl | apply State.reborn_keeps
         | apply State.wr_keeps | apply State.setBit_keeps | apply State.showKcv_keeps | apply State.testEntry_keeps | apply State.onPins_keeps
         | apply State.life_keeps | apply onPow_keeps | apply keeps_ite

theorem State.clearDone_keeps (h : Keeps s t) : Keeps s (State.clearDone t) := by
  unfold State.clearDone
  exact keeps_ite h ⟨h.pending, h.regs, fun _ => rfl, h.hist, h.ecc, h.otp⟩

theorem State.aonFresh_keeps (h : Keeps s t) : Keeps s (State.aonFresh t) := by
  unfold State.aonFresh
  exact onPow_keeps rfl (State.setTrim_keeps (State.setTrim_keeps
    ⟨h.pending, fun hr => spWfFrom_filter _ _ _ (h.regs hr), h.path, h.hist, h.ecc, h.otp⟩))

theorem State.wake_keeps (h : Keeps s t) : Keeps s (State.wake t) := by
  unfold State.wake
  repeat' first
    | intro _ | extract_lets
    | with_reducible first | assumption | exact Nat.le_refl _ | exact List.length_filter_le _ _ | exact rfl | apply onPow_keeps

theorem State.toShelf_keeps (h : Keeps s t) : Keeps s (State.toShelf t) := by
  unfold State.toShelf
  repeat' first
    | intro _ | extract_lets
    | with_reducible first | assumption | exact Nat.le_refl _ | exact List.length_filter_le _ _ | exact rfl | apply State.reborn_keeps
         | apply State.wake_keeps | apply onPow_keeps | apply keeps_ite

theorem State.shelfLeave_keeps (h : Keeps s t) : Keeps s (State.shelfLeave t) := by
  unfold State.shelfLeave
  repeat' first
    | with_reducible first | assumption | exact Nat.le_refl _ | exact List.length_filter_le _ _ | exact rfl
    | intro _ | extract_lets
    | with_reducible first | apply State.enterStill_keeps | apply State.excStop_keeps | apply State.modStop_keeps | apply State.releaseAddr_keeps | apply State.closeAll_keeps | apply State.setOuts_keeps | apply overList_keeps | apply onPow_keeps | apply keeps_ite | apply keeps_dite | apply foldl_keeps
    | split
    | with_reducible refine keepsP_snd (by assumption) ?_ | with_reducible refine keepsP_snd2 (by assumption) ?_
    | with_reducible apply Keeps.parts | simp only [keeps_mk]
    | dsimp only | simp +zetaDelta only [keeps_mk]

theorem State.shelfEnter_keeps (h : Keeps s t) : Keeps s (State.shelfEnter t) := by
  unfold State.shelfEnter
  repeat' first
    | with_reducible first | assumption | exact Nat.le_refl _ | exact List.length_filter_le _ _ | exact rfl
    | intro _ _ _ | with_reducible first | apply State.testStart_keeps | apply State.shelfLeave_keeps | apply overList_keeps | apply onPow_keeps | apply keeps_ite
    | split | extract_lets

theorem State.shelfPorts_keeps (h : Keeps s t) : Keeps s (State.shelfPorts t) := by
  unfold State.shelfPorts
  repeat' first
    | intro _ | extract_lets
    | with_reducible first | assumption | apply State.toShelf_keeps | apply State.linkDown_keeps | apply keeps_ite | apply keeps_dite
         | apply foldl_keeps
    | split

theorem State.rstKey_keeps (h : Keeps s t) : KeepsP s (State.rstKey t a1 a2) := by
  unfold State.rstKey
  repeat' first
    | intro _ | extract_lets
    | with_reducible first | assumption | exact Nat.le_refl _ | exact List.length_filter_le _ _ | exact rfl | apply onPow_keeps | apply keeps_ite
         | apply foldl_keeps | apply keepsP_ite

theorem State.shelfKey_keeps (h : Keeps s t) : KeepsP s (State.shelfKey t a1 a2) := by
  unfold State.shelfKey
  repeat' first
    | intro _ | extract_lets
    | with_reducible first | assumption | apply State.shelfEnter_keeps | apply keeps_ite | apply foldl_keeps | apply keepsP_ite

theorem State.keyWord_keeps {a2 : State → Status × State} (h : Keeps s t) (hf : ∀ u, Keeps s u → KeepsP s (a2 u)) : KeepsP s (State.keyWord t a1 a2) := by
  unfold State.keyWord
  exact keepsP_ite h (keepsP_ite (State.violate_keeps h) (hf _ h))

theorem State.pinReset_keeps (h : Keeps s t) : Keeps s (State.pinReset t) := by
  unfold State.pinReset
  repeat' first
    | intro _ | extract_lets
    | with_reducible first | assumption | exact Nat.le_refl _ | exact List.length_filter_le _ _ | exact rfl | apply State.wake_keeps
         | apply State.enterReset_keeps | apply onPow_keeps | apply keeps_ite

theorem State.brownOut_keeps (h : Keeps s t) : Keeps s (State.brownOut t a1) := by
  unfold State.brownOut
  repeat' first
    | intro _ | extract_lets
    | with_reducible first | assumption | exact Nat.le_refl _ | exact List.length_filter_le _ _ | exact rfl | apply State.enterReset_keeps
         | apply onPow_keeps | apply keeps_ite

theorem State.supplyEnters_keeps (h : Keeps s t) : Keeps s (State.supplyEnters t a1 a2) := by
  unfold State.supplyEnters
  repeat' first
    | with_reducible assumption | with_reducible exact Nat.le_refl _ | with_reducible exact List.length_filter_le _ _ | with_reducible exact rfl | intro _ | extract_lets
    | with_reducible first | apply State.brownOut_keeps | apply State.awake_keeps | apply State.supplyOut_keeps | apply keeps_ite | apply keeps_dite | apply foldl_keeps
    | split
    | with_reducible refine keepsP_snd (by assumption) ?_ | with_reducible refine keepsP_snd2 (by assumption) ?_
    | with_reducible apply Keeps.parts | simp only [keeps_mk]
    | dsimp only | simp +zetaDelta only [keeps_mk] | dsimp +zetaDelta only

theorem State.selfCheck_keeps (h : Keeps s t) : Keeps s (State.selfCheck t a1 a2) := by
  unfold State.selfCheck
  repeat' first
    | with_reducible assumption | with_reducible exact Nat.le_refl _ | with_reducible exact List.length_filter_le _ _ | with_reducible exact rfl | intro _ | extract_lets
    | with_reducible first | apply State.testEnd_keeps | apply State.brownOut_keeps | apply keeps_ite | apply keeps_dite | apply foldl_keeps
    | split
    | with_reducible refine keepsP_snd (by assumption) ?_ | with_reducible refine keepsP_snd2 (by assumption) ?_
    | with_reducible apply Keeps.parts | simp only [keeps_mk]
    | dsimp only | simp +zetaDelta only [keeps_mk] | dsimp +zetaDelta only

theorem State.powerOn_keeps (h : Keeps s t) : Keeps s (State.powerOn t) := by
  unfold State.powerOn
  repeat' first
    | intro _ | extract_lets
    | with_reducible first | assumption | exact Nat.le_refl _ | exact List.length_filter_le _ _ | exact rfl | apply State.enterReset_keeps
         | apply onPow_keeps | apply keeps_ite

theorem State.wakeBy_keeps (h : Keeps s t) : Keeps s (State.wakeBy t a1) := by
  unfold State.wakeBy
  repeat' first
    | intro _ | extract_lets
    | with_reducible first | assumption | exact Nat.le_refl _ | exact List.length_filter_le _ _ | exact rfl | apply State.pinReset_keeps
         | apply State.wake_keeps | apply onPow_keeps | apply keeps_ite

theorem State.wakeInput_keeps (h : Keeps s t) : Keeps s (State.wakeInput t a1 a2) := by
  unfold State.wakeInput
  repeat' first
    | intro _ | extract_lets
    | with_reducible first | assumption | apply State.wakeLevel_keeps | apply State.wake_keeps | apply keeps_ite

theorem State.tapReset_keeps (h : Keeps s t) : Keeps s (State.tapReset t) := by
  unfold State.tapReset
  repeat' first
    | intro _ | extract_lets
    | with_reducible first | assumption | exact Nat.le_refl _ | exact List.length_filter_le _ _ | exact rfl | apply State.debugResume_keeps
         | apply onPow_keeps | apply keeps_ite

theorem State.haltReq_keeps (h : Keeps s t) : Keeps s (State.haltReq t a1) := by
  unfold State.haltReq
  repeat' first
    | intro _ | extract_lets
    | with_reducible first | assumption | exact Nat.le_refl _ | exact List.length_filter_le _ _ | exact rfl | apply State.debugHalt_keeps
         | apply State.debugResume_keeps | apply onPow_keeps | apply keeps_ite

theorem State.rstReq_keeps (h : Keeps s t) : Keeps s (State.rstReq t a1) := by
  unfold State.rstReq
  repeat' first
    | intro _ | extract_lets
    | with_reducible first | assumption | exact Nat.le_refl _ | exact List.length_filter_le _ _ | exact rfl | apply State.enterReset_keeps
         | apply onPow_keeps | apply keeps_ite

theorem execStrobeLoss_keeps (h : Keeps s t) : KeepsO s (execStrobeLoss t) := by
  unfold execStrobeLoss
  repeat' first
    | with_reducible assumption | with_reducible exact Nat.le_refl _ | with_reducible exact List.length_filter_le _ _ | with_reducible exact rfl | intro _ | extract_lets
    | with_reducible first | apply State.awake_keeps | apply State.setOuts_keeps | apply State.onStage_keeps | apply keeps_ite | apply foldl_keeps | apply keepsO_ite | apply keepsO_next
    | split
    | with_reducible refine keepsP_snd (by assumption) ?_ | with_reducible refine keepsP_snd2 (by assumption) ?_
    | with_reducible apply Keeps.parts | simp only [keeps_mk]
    | dsimp only | simp +zetaDelta only [keeps_mk] | dsimp +zetaDelta only

theorem execSupplyWindow_keeps (h : Keeps s t) : KeepsO s (execSupplyWindow a1 a2 t) := by
  unfold execSupplyWindow
  repeat' first
    | with_reducible assumption | with_reducible exact Nat.le_refl _ | with_reducible exact List.length_filter_le _ _ | with_reducible exact rfl | intro _ | extract_lets
    | with_reducible first | apply State.supplyEnters_keeps | apply keeps_ite | apply foldl_keeps | apply keepsO_ite | apply keepsO_next
    | split
    | with_reducible refine keepsP_snd (by assumption) ?_ | with_reducible refine keepsP_snd2 (by assumption) ?_
    | with_reducible apply Keeps.parts | simp only [keeps_mk]
    | dsimp only | simp +zetaDelta only [keeps_mk] | dsimp +zetaDelta only

theorem execSelfCheck_keeps (h : Keeps s t) : KeepsO s (execSelfCheck a1 a2 t) := by
  unfold execSelfCheck
  repeat' first
    | with_reducible assumption | with_reducible exact Nat.le_refl _ | with_reducible exact List.length_filter_le _ _ | with_reducible exact rfl | intro _ | extract_lets
    | with_reducible first | apply State.awake_keeps | apply State.selfCheck_keeps | apply keeps_ite | apply foldl_keeps | apply keepsO_ite | apply keepsO_next
    | split
    | with_reducible refine keepsP_snd (by assumption) ?_ | with_reducible refine keepsP_snd2 (by assumption) ?_
    | with_reducible apply Keeps.parts | simp only [keeps_mk]
    | dsimp only | simp +zetaDelta only [keeps_mk] | dsimp +zetaDelta only

theorem execWakeInput_keeps (h : Keeps s t) : KeepsO s (execWakeInput a1 a2 t) := by
  unfold execWakeInput
  repeat' first
    | intro _ | extract_lets
    | with_reducible first | assumption | apply State.wakeInput_keeps | apply keeps_ite | apply foldl_keeps | apply keepsO_ite | apply keepsO_next

theorem State.instr_keeps (h : Keeps s t) : Keeps s (State.instr t a1 a2) := by
  unfold State.instr
  extract_lets c s1
  have h1 : Keeps s s1 := onPow_keeps rfl h
  exact keeps_ite h (keeps_ite (State.enterReset_keeps h1) h1)

theorem execExtest_keeps (h : Keeps s t) : KeepsO s (execExtest a1 t) := by
  unfold execExtest
  repeat' first
    | intro _ | extract_lets
    | with_reducible first | assumption | apply State.instr_keeps | apply keeps_ite | apply foldl_keeps | apply keepsO_ite | apply keepsO_next

theorem execSamplePreload_keeps (h : Keeps s t) : KeepsO s (execSamplePreload a1 a2 t) := by
  unfold execSamplePreload
  repeat' first
    | intro _ | extract_lets
    | with_reducible first | assumption | exact Nat.le_refl _ | exact List.length_filter_le _ _ | exact rfl | apply onPow_keeps
         | apply State.instr_keeps | apply keeps_ite | apply foldl_keeps | apply keepsO_ite | apply keepsO_next

theorem execClampScan_keeps (h : Keeps s t) : KeepsO s (execClampScan a1 t) := by
  unfold execClampScan
  repeat' first
    | intro _ | extract_lets
    | with_reducible first | assumption | apply State.instr_keeps | apply keeps_ite | apply foldl_keeps | apply keepsO_ite | apply keepsO_next

theorem execHighz_keeps (h : Keeps s t) : KeepsO s (execHighz a1 t) := by
  unfold execHighz
  repeat' first
    | intro _ | extract_lets
    | with_reducible first | assumption | apply State.instr_keeps | apply keeps_ite | apply foldl_keeps | apply keepsO_ite | apply keepsO_next

theorem execIdcode_keeps (h : Keeps s t) : KeepsO s (execIdcode t) := by
  unfold execIdcode
  repeat' first
    | intro _ | extract_lets
    | with_reducible first | assumption | apply State.instr_keeps | apply keeps_ite | apply foldl_keeps | apply keepsO_ite | apply keepsO_next

theorem execBypassScan_keeps (h : Keeps s t) : KeepsO s (execBypassScan t) := by
  unfold execBypassScan
  repeat' first
    | intro _ | extract_lets
    | with_reducible first | assumption | apply State.instr_keeps | apply keeps_ite | apply foldl_keeps | apply keepsO_ite | apply keepsO_next

theorem execTapReset_keeps (h : Keeps s t) : KeepsO s (execTapReset t) := by
  unfold execTapReset
  repeat' first
    | intro _ | extract_lets
    | with_reducible first | assumption | apply State.tapReset_keeps | apply keeps_ite | apply foldl_keeps | apply keepsO_ite | apply keepsO_next

theorem execHaltReq_keeps (h : Keeps s t) : KeepsO s (execHaltReq a1 t) := by
  unfold execHaltReq
  repeat' first
    | intro _ | extract_lets
    | with_reducible first | assumption | apply State.haltReq_keeps | apply keeps_ite | apply foldl_keeps | apply keepsO_ite | apply keepsO_next

theorem execRstReq_keeps (h : Keeps s t) : KeepsO s (execRstReq a1 t) := by
  unfold execRstReq
  repeat' first
    | intro _ | extract_lets
    | with_reducible first | assumption | apply State.rstReq_keeps | apply keeps_ite | apply foldl_keeps | apply keepsO_ite | apply keepsO_next

theorem execSoftwareReset_keeps (h : Keeps s t) : KeepsO s (execSoftwareReset a1 a2 a3 t) := by
  unfold execSoftwareReset
  repeat' first
    | intro _ | extract_lets
    | with_reducible first | assumption | apply State.keyWord_keeps | apply State.rstKey_keeps | apply keeps_ite | apply foldl_keeps
         | apply keepsO_ite | apply keepsO_next

theorem execShelfEntry_keeps (h : Keeps s t) : KeepsO s (execShelfEntry a1 a2 a3 t) := by
  unfold execShelfEntry
  repeat' first
    | intro _ | extract_lets
    | with_reducible first | assumption | apply State.keyWord_keeps | apply State.shelfKey_keeps | apply keeps_ite | apply foldl_keeps
         | apply keepsO_ite | apply keepsO_next

theorem execShelfDisablePorts_keeps (h : Keeps s t) : KeepsO s (execShelfDisablePorts t) := by
  unfold execShelfDisablePorts
  repeat' first
    | intro _ | extract_lets
    | with_reducible first | assumption | apply State.shelfPorts_keeps | apply keeps_ite | apply foldl_keeps | apply keepsO_ite | apply keepsO_next

theorem execWakeUp_keeps (h : Keeps s t) : KeepsO s (execWakeUp a1 t) := by
  unfold execWakeUp
  repeat' first
    | intro _ | extract_lets
    | with_reducible first | assumption | apply State.wakeBy_keeps | apply keeps_ite | apply foldl_keeps | apply keepsO_ite | apply keepsO_next

theorem execPowerOnReset_keeps (h : Keeps s t) : KeepsO s (execPowerOnReset t) := by
  unfold execPowerOnReset
  repeat' first
    | intro _ | extract_lets
    | with_reducible first | assumption | apply State.powerOn_keeps | apply keeps_ite | apply foldl_keeps | apply keepsO_ite | apply keepsO_next

theorem execBrownOutReset_keeps (h : Keeps s t) : KeepsO s (execBrownOutReset a1 t) := by
  unfold execBrownOutReset
  repeat' first
    | intro _ | extract_lets
    | with_reducible first | assumption | apply State.brownOut_keeps | apply keeps_ite | apply foldl_keeps | apply keepsO_ite | apply keepsO_next

theorem execPinReset_keeps (h : Keeps s t) : KeepsO s (execPinReset t) := by
  unfold execPinReset
  repeat' first
    | intro _ | extract_lets
    | with_reducible first | assumption | apply State.pinReset_keeps | apply keeps_ite | apply foldl_keeps | apply keepsO_ite | apply keepsO_next

theorem execResetRelease_keeps (h : Keeps s t) : KeepsO s (execResetRelease a1 t) := by
  unfold execResetRelease
  repeat' first
    | intro _ | extract_lets
    | with_reducible first | assumption | apply State.release_keeps | apply keeps_ite | apply foldl_keeps | apply keepsO_ite | apply keepsO_next

theorem execPathMemoryClearDone_keeps (h : Keeps s t) : KeepsO s (execPathMemoryClearDone t) := by
  unfold execPathMemoryClearDone
  repeat' first
    | intro _ | extract_lets
    | with_reducible first | assumption | apply State.clearDone_keeps | apply keeps_ite | apply foldl_keeps | apply keepsO_ite | apply keepsO_next

theorem execVaonPowerUp_keeps (h : Keeps s t) : KeepsO s (execVaonPowerUp t) := by
  unfold execVaonPowerUp
  repeat' first
    | intro _ | extract_lets
    | with_reducible first | assumption | exact Nat.le_refl _ | exact List.length_filter_le _ _ | exact rfl | apply State.aonFresh_keeps
         | apply onPow_keeps | apply keeps_ite | apply foldl_keeps | apply keepsO_ite | apply keepsO_next

end Sys2Proof.Machine
end

