-- ==== Sys2Proof/Laws/KeepsReads.lean ====
section
/-! SUPPORT. Every operation of Machine/Reads.lean keeps what `Keeps` says. -/

namespace Sys2Proof.Machine

theorem State.takeSnap_keeps (h : Keeps s t) : Keeps s (State.takeSnap t a1 a2) := by
  unfold State.takeSnap
  repeat' first
    | intro _ | extract_lets
    | with_reducible first | assumption | apply State.onAcc_keeps | apply keeps_ite

end Sys2Proof.Machine
end

