-- ==== Sys2Proof/Laws/KeepsBus.lean ====
section
/-! SUPPORT. Every operation of Machine/Bus.lean keeps what `Keeps` says. -/

namespace Sys2Proof.Machine

theorem State.issue_keeps (h : Keeps s t) : KeepsP s (State.issue t a1 a2 a3 a4) := by
  unfold State.issue
  repeat' first
    | intro _ | extract_lets
    | with_reducible first | assumption | apply State.finish_keeps | apply State.onMot_keeps | apply State.fpCommand_keeps | apply State.setBit_keeps
         | apply State.onFrc_keeps | apply State.adcCommand_keeps | apply State.selftest_keeps | apply State.borCmd_keeps | apply State.wldCmd_keeps
         | apply State.netCmd_keeps | apply State.fltCmd_keeps | apply keeps_ite | apply foldl_keeps | apply keepsP_ite | apply keepsP_dite

theorem State.vioWipe_keeps (h : Keeps s t) : Keeps s (State.vioWipe t a1) := by
  unfold State.vioWipe
  repeat' first
    | intro _ | extract_lets
    | with_reducible first | assumption | apply State.wr_keeps | apply State.setBit_keeps | apply overList_keeps | apply keeps_ite

theorem State.stageKey_keeps (h : Keeps s t) : Keeps s (State.stageKey t a1 a2 a3) := by
  unfold State.stageKey
  repeat' first
    | intro _ | extract_lets
    | with_reducible first | assumption | exact Nat.le_refl _ | exact List.length_filter_le _ _ | exact rfl | apply onWld_keeps | apply keeps_ite
         | apply keeps_dite | apply foldl_keeps
    | split

theorem State.strobe_keeps (h : Keeps s t) : KeepsP s (State.strobe t a1 a2 a3 a4) := by
  unfold State.strobe
  repeat' first
    | with_reducible first | assumption | exact Nat.le_refl _ | exact List.length_filter_le _ _ | exact rfl
    | intro _ _ _ | with_reducible first | apply State.rstKey_keeps | apply State.shelfKey_keeps | apply State.feedWord_keeps | apply State.onAcc_keeps | apply State.ovbClear_keeps | apply State.vioWipe_keeps | apply State.stageKey_keeps | apply State.uobjCommit_keeps | apply State.mclr_keeps | apply State.clearReg_keeps | apply keeps_ite | apply foldl_keeps | apply keepsP_ite
    | split | extract_lets

theorem State.writeReg_keeps (h : Keeps s t) : KeepsP s (State.writeReg t a1 a2 a3 a4 a5) := by
  unfold State.writeReg
  repeat' first
    | intro _ | extract_lets
    | with_reducible first | assumption | apply State.issue_keeps | apply State.strobe_keeps | apply State.wordWrite_keeps
         | apply State.afterPcfg_keeps | apply keeps_ite | apply foldl_keeps | apply keepsP_ite | apply keepsP_dite
    | split

theorem State.writeWord_keeps (h : Keeps s t) : KeepsP s (State.writeWord t a1 a2 a3) := by
  unfold State.writeWord
  repeat' first
    | intro _ | extract_lets
    | with_reducible first | assumption | apply State.violate_keeps | apply State.writeReg_keeps | apply State.pathPut_keeps | apply keeps_ite
         | apply foldl_keeps | apply keepsP_ite | apply keepsP_dite | refine keepsP_snd (by assumption) ?_
                            | refine keepsP_snd2 (by assumption) ?_ | apply Keeps.parts
    | split | simp only [keeps_mk] | dsimp only | simp +zetaDelta only [keeps_mk]

theorem State.busWrite_keeps (h : Keeps s t) : KeepsP s (State.busWrite t a1 a2 a3) := by
  unfold State.busWrite
  repeat' first
    | intro _ | extract_lets
    | with_reducible first | assumption | apply State.writeWord_keeps | apply State.counted_keeps

theorem State.readWord_keeps (h : Keeps s t) : Keeps s (State.readWord t a1 a2).2.2 := by
  unfold State.readWord
  repeat' first
    | intro _ | extract_lets
    | with_reducible first | assumption | apply State.violate_keeps | apply State.pathGet_keeps | apply keeps_ite | apply foldl_keeps
         | apply keepsP_ite | apply keepsP_ite2
                            | refine keepsP_snd (by assumption) ?_ | refine keepsP_snd2 (by assumption) ?_ | apply Keeps.parts
    | split | simp only [keeps_mk] | dsimp only | simp +zetaDelta only [keeps_mk]

theorem State.busRead_keeps (h : Keeps s t) : Keeps s (State.busRead t a1 a2).2.2 := by
  unfold State.busRead
  repeat' first
    | intro _ | extract_lets
    | with_reducible first | assumption | apply State.readWord_keeps | apply State.counted_keeps

theorem State.readTake_keeps (h : Keeps s t) : Keeps s (State.readTake t a1 a2) := by
  unfold State.readTake
  repeat' first
    | intro _ | extract_lets
    | with_reducible first | assumption | apply State.takeSnap_keeps | apply keeps_ite | apply keeps_dite | apply foldl_keeps
    | split

theorem State.readFull_keeps (h : Keeps s t) : Keeps s (State.readFull t a1 a2).2.2 := by
  unfold State.readFull
  repeat' first
    | intro _ | extract_lets
    | with_reducible first | assumption | apply State.busRead_keeps | apply State.readTake_keeps | apply keeps_ite | apply foldl_keeps
         | apply keepsP_ite | apply keepsP_ite2

theorem burstWrite_keeps {b : Burst} (h : Keeps s b.st) : Keeps s (burstWrite a1 a2 a3 b).st := by
  induction a2 generalizing a3 b with
  | nil => exact h
  | cons w l ih =>
    unfold burstWrite
    extract_lets r b1
    have hr : Keeps s r.2 := State.busWrite_keeps h
    split
    · exact hr
    · split
      · exact hr
      · exact ih hr

theorem burstRead_keeps {b : Burst} (h : Keeps s b.st) : Keeps s (burstRead a1 a2 a3 b).st := by
  induction a2 generalizing a3 b with
  | zero => exact h
  | succ k ih =>
    unfold burstRead
    extract_lets r
    have hr : Keeps s r.2.2 := State.readFull_keeps h
    split
    · exact hr
    · exact ih hr

theorem State.header_keeps {a3 : Burst → Burst} (h : Keeps s t) (hf : ∀ b : Burst, Keeps s b.st → Keeps s (a3 b).st) :
    Keeps s (State.header t a1 a2 a3).st := by
  unfold State.header
  split
  · exact State.busError_keeps h
  · exact hf _ h

theorem State.record__keeps (h : Keeps s t) : Keeps s (State.record_ t a1 a2 a3 a4) := by
  unfold State.record_
  repeat' first
    | intro _ | extract_lets
    | with_reducible first | assumption | apply State.onAcc_keeps

theorem State.drive_keeps (h : Keeps s t) : Keeps s (State.drive t a1 a2 a3) := by
  unfold State.drive
  repeat' first
    | intro _ | extract_lets
    | with_reducible first | assumption | apply keeps_ite | apply keeps_dite | apply foldl_keeps | refine keepsP_snd (by assumption) ?_
                            | refine keepsP_snd2 (by assumption) ?_ | apply Keeps.parts
    | split | simp only [keeps_mk]

theorem endTransaction_keeps {b : Burst} (h : Keeps s b.st) : Keeps s (State.endTransaction a1 b a2) := by
  unfold State.endTransaction
  extract_lets acc s1 s2
  have h1 : Keeps s s1 := keeps_ite (State.flagOnly_keeps (State.onAcc_keeps (State.busError_keeps h))) h
  exact State.record__keeps (keeps_ite (State.flagOnly_keeps h1) h1)

theorem State.hostWrite_keeps (h : Keeps s t) : Keeps s (State.hostWrite t a1 a2 a3 a4) := by
  unfold State.hostWrite
  extract_lets s0 b
  have hb : Keeps s b.st := State.header_keeps (State.drive_keeps h) (fun _ => burstWrite_keeps)
  exact keeps_ite (State.drive_keeps h) (keeps_ite hb (endTransaction_keeps hb))

theorem State.hostRead_keeps (h : Keeps s t) : Keeps s (State.hostRead t a1 a2 a3 a4) := by
  unfold State.hostRead
  extract_lets b r b1
  have hb : Keeps s b.st := State.header_keeps h (fun _ => burstRead_keeps)
  have h1 : Keeps s b1.st := by
    simp only [b1]
    split
    · exact State.readFull_keeps hb
    · exact hb
  exact keeps_ite (State.drive_keeps h) (State.drive_keeps (endTransaction_keeps h1))

theorem State.hostHeader_keeps (h : Keeps s t) : Keeps s (State.hostHeader t a1 a2 a3) := by
  unfold State.hostHeader
  extract_lets w s0
  have h0 : Keeps s s0 := State.drive_keeps h
  have he : ∀ {b : Burst} {p : Bool}, Keeps s b.st → Keeps s (State.endTransaction a1 b p) := endTransaction_keeps
  exact keeps_ite (State.drive_keeps h) (keeps_ite (he h0) (keeps_ite h0 (keeps_ite (he h0) (keeps_ite (he h0) (he h0)))))

theorem State.dbgResult_keeps (h : Keeps s t) : Keeps s (State.dbgResult a1 a2 a3 t) := by
  unfold State.dbgResult
  repeat' first
    | intro _ | extract_lets
    | with_reducible first | assumption | exact Nat.le_refl _ | exact List.length_filter_le _ _ | exact rfl | apply State.record__keeps
         | apply onPow_keeps

theorem State.dbgRead_keeps (h : Keeps s t) : Keeps s (State.dbgRead t a1) := by
  unfold State.dbgRead
  repeat' first
    | intro _ | extract_lets
    | with_reducible first | assumption | apply State.readFull_keeps | apply State.dbgResult_keeps | apply keeps_ite

theorem State.dbgWrite_keeps (h : Keeps s t) : Keeps s (State.dbgWrite t a1 a2) := by
  unfold State.dbgWrite
  repeat' first
    | intro _ | extract_lets
    | with_reducible first | assumption | apply State.busWrite_keeps | apply State.dbgResult_keeps | apply keeps_ite

theorem execTimRateCommit_keeps (h : Keeps s t) : KeepsO s (execTimRateCommit a1 a2 t) := by
  unfold execTimRateCommit
  repeat' first
    | with_reducible assumption | with_reducible exact Nat.le_refl _ | with_reducible exact List.length_filter_le _ _ | with_reducible exact rfl | intro _ | extract_lets
    | with_reducible first | apply State.awake_keeps | apply State.busWrite_keeps | apply keeps_ite | apply foldl_keeps | apply keepsO_ite | apply keepsO_next
    | split
    | with_reducible refine keepsP_snd (by assumption) ?_ | with_reducible refine keepsP_snd2 (by assumption) ?_
    | with_reducible apply Keeps.parts | simp only [keeps_mk]
    | dsimp only | simp +zetaDelta only [keeps_mk] | dsimp +zetaDelta only

theorem execTimAdjCommit_keeps (h : Keeps s t) : KeepsO s (execTimAdjCommit a1 a2 t) := by
  unfold execTimAdjCommit
  repeat' first
    | with_reducible assumption | with_reducible exact Nat.le_refl _ | with_reducible exact List.length_filter_le _ _ | with_reducible exact rfl | intro _ | extract_lets
    | with_reducible first | apply State.awake_keeps | apply State.busWrite_keeps | apply keeps_ite | apply foldl_keeps | apply keepsO_ite | apply keepsO_next
    | split
    | with_reducible refine keepsP_snd (by assumption) ?_ | with_reducible refine keepsP_snd2 (by assumption) ?_
    | with_reducible apply Keeps.parts | simp only [keeps_mk]
    | dsimp only | simp +zetaDelta only [keeps_mk] | dsimp +zetaDelta only

theorem execPtpcfgWrite_keeps (h : Keeps s t) : KeepsO s (execPtpcfgWrite a1 a2 t) := by
  unfold execPtpcfgWrite
  repeat' first
    | with_reducible assumption | with_reducible exact Nat.le_refl _ | with_reducible exact List.length_filter_le _ _ | with_reducible exact rfl | intro _ | extract_lets
    | with_reducible first | apply State.awake_keeps | apply State.busWrite_keeps | apply keeps_ite | apply foldl_keeps | apply keepsO_ite | apply keepsO_next
    | split
    | with_reducible refine keepsP_snd (by assumption) ?_ | with_reducible refine keepsP_snd2 (by assumption) ?_
    | with_reducible apply Keeps.parts | simp only [keeps_mk]
    | dsimp only | simp +zetaDelta only [keeps_mk] | dsimp +zetaDelta only

theorem execOvbclr_keeps (h : Keeps s t) : KeepsO s (execOvbclr a1 a2 t) := by
  unfold execOvbclr
  repeat' first
    | with_reducible assumption | with_reducible exact Nat.le_refl _ | with_reducible exact List.length_filter_le _ _ | with_reducible exact rfl | intro _ | extract_lets
    | with_reducible first | apply State.awake_keeps | apply State.busWrite_keeps | apply keeps_ite | apply foldl_keeps | apply keepsO_ite | apply keepsO_next
    | split
    | with_reducible refine keepsP_snd (by assumption) ?_ | with_reducible refine keepsP_snd2 (by assumption) ?_
    | with_reducible apply Keeps.parts | simp only [keeps_mk]
    | dsimp only | simp +zetaDelta only [keeps_mk] | dsimp +zetaDelta only

theorem execSetposCommit_keeps (h : Keeps s t) : KeepsO s (execSetposCommit a1 a2 a3 t) := by
  unfold execSetposCommit
  repeat' first
    | with_reducible assumption | with_reducible exact Nat.le_refl _ | with_reducible exact List.length_filter_le _ _ | with_reducible exact rfl | intro _ | extract_lets
    | with_reducible first | apply State.awake_keeps | apply State.busWrite_keeps | apply keeps_ite | apply foldl_keeps | apply keepsO_ite | apply keepsO_next
    | split
    | with_reducible refine keepsP_snd (by assumption) ?_ | with_reducible refine keepsP_snd2 (by assumption) ?_
    | with_reducible apply Keeps.parts | simp only [keeps_mk]
    | dsimp only | simp +zetaDelta only [keeps_mk] | dsimp +zetaDelta only

theorem execTripClear_keeps (h : Keeps s t) : KeepsO s (execTripClear a1 a2 t) := by
  unfold execTripClear
  repeat' first
    | with_reducible assumption | with_reducible exact Nat.le_refl _ | with_reducible exact List.length_filter_le _ _ | with_reducible exact rfl | intro _ | extract_lets
    | with_reducible first | apply State.awake_keeps | apply State.busWrite_keeps | apply keeps_ite | apply foldl_keeps | apply keepsO_ite | apply keepsO_next
    | split
    | with_reducible refine keepsP_snd (by assumption) ?_ | with_reducible refine keepsP_snd2 (by assumption) ?_
    | with_reducible apply Keeps.parts | simp only [keeps_mk]
    | dsimp only | simp +zetaDelta only [keeps_mk] | dsimp +zetaDelta only

theorem execShortClear_keeps (h : Keeps s t) : KeepsO s (execShortClear a1 a2 t) := by
  unfold execShortClear
  repeat' first
    | with_reducible assumption | with_reducible exact Nat.le_refl _ | with_reducible exact List.length_filter_le _ _ | with_reducible exact rfl | intro _ | extract_lets
    | with_reducible first | apply State.awake_keeps | apply State.busWrite_keeps | apply keeps_ite | apply foldl_keeps | apply keepsO_ite | apply keepsO_next
    | split
    | with_reducible refine keepsP_snd (by assumption) ?_ | with_reducible refine keepsP_snd2 (by assumption) ?_
    | with_reducible apply Keeps.parts | simp only [keeps_mk]
    | dsimp only | simp +zetaDelta only [keeps_mk] | dsimp +zetaDelta only

theorem execModulatorRestart_keeps (h : Keeps s t) : KeepsO s (execModulatorRestart a1 a2 t) := by
  unfold execModulatorRestart
  repeat' first
    | with_reducible assumption | with_reducible exact Nat.le_refl _ | with_reducible exact List.length_filter_le _ _ | with_reducible exact rfl | intro _ | extract_lets
    | with_reducible first | apply State.awake_keeps | apply State.busWrite_keeps | apply keeps_ite | apply foldl_keeps | apply keepsO_ite | apply keepsO_next
    | split
    | with_reducible refine keepsP_snd (by assumption) ?_ | with_reducible refine keepsP_snd2 (by assumption) ?_
    | with_reducible apply Keeps.parts | simp only [keeps_mk]
    | dsimp only | simp +zetaDelta only [keeps_mk] | dsimp +zetaDelta only

theorem execModulatorCountClear_keeps (h : Keeps s t) : KeepsO s (execModulatorCountClear a1 a2 t) := by
  unfold execModulatorCountClear
  repeat' first
    | with_reducible assumption | with_reducible exact Nat.le_refl _ | with_reducible exact List.length_filter_le _ _ | with_reducible exact rfl | intro _ | extract_lets
    | with_reducible first | apply State.awake_keeps | apply State.busWrite_keeps | apply keeps_ite | apply foldl_keeps | apply keepsO_ite | apply keepsO_next
    | split
    | with_reducible refine keepsP_snd (by assumption) ?_ | with_reducible refine keepsP_snd2 (by assumption) ?_
    | with_reducible apply Keeps.parts | simp only [keeps_mk]
    | dsimp only | simp +zetaDelta only [keeps_mk] | dsimp +zetaDelta only

theorem execSelftest_keeps (h : Keeps s t) : KeepsO s (execSelftest a1 a2 t) := by
  unfold execSelftest
  repeat' first
    | with_reducible assumption | with_reducible exact Nat.le_refl _ | with_reducible exact List.length_filter_le _ _ | with_reducible exact rfl | intro _ | extract_lets
    | with_reducible first | apply State.awake_keeps | apply State.busWrite_keeps | apply keeps_ite | apply foldl_keeps | apply keepsO_ite | apply keepsO_next
    | split
    | with_reducible refine keepsP_snd (by assumption) ?_ | with_reducible refine keepsP_snd2 (by assumption) ?_
    | with_reducible apply Keeps.parts | simp only [keeps_mk]
    | dsimp only | simp +zetaDelta only [keeps_mk] | dsimp +zetaDelta only

theorem execUobjCommit_keeps (h : Keeps s t) : KeepsO s (execUobjCommit a1 a2 t) := by
  unfold execUobjCommit
  repeat' first
    | with_reducible assumption | with_reducible exact Nat.le_refl _ | with_reducible exact List.length_filter_le _ _ | with_reducible exact rfl | intro _ | extract_lets
    | with_reducible first | apply State.awake_keeps | apply State.busWrite_keeps | apply keeps_ite | apply foldl_keeps | apply keepsO_ite | apply keepsO_next
    | split
    | with_reducible refine keepsP_snd (by assumption) ?_ | with_reducible refine keepsP_snd2 (by assumption) ?_
    | with_reducible apply Keeps.parts | simp only [keeps_mk]
    | dsimp only | simp +zetaDelta only [keeps_mk] | dsimp +zetaDelta only

theorem execHistorySnapshot_keeps (h : Keeps s t) : KeepsO s (execHistorySnapshot a1 t) := by
  unfold execHistorySnapshot
  repeat' first
    | with_reducible assumption | with_reducible exact Nat.le_refl _ | with_reducible exact List.length_filter_le _ _ | with_reducible exact rfl | intro _ | extract_lets
    | with_reducible first | apply State.awake_keeps | apply State.readFull_keeps | apply keeps_ite | apply foldl_keeps | apply keepsO_ite | apply keepsO_next
    | split
    | with_reducible refine keepsP_snd (by assumption) ?_ | with_reducible refine keepsP_snd2 (by assumption) ?_
    | with_reducible apply Keeps.parts | simp only [keeps_mk]
    | dsimp only | simp +zetaDelta only [keeps_mk] | dsimp +zetaDelta only

theorem execFselbitWrite_keeps (h : Keeps s t) : KeepsO s (execFselbitWrite a1 a2 t) := by
  unfold execFselbitWrite
  repeat' first
    | with_reducible assumption | with_reducible exact Nat.le_refl _ | with_reducible exact List.length_filter_le _ _ | with_reducible exact rfl | intro _ | extract_lets
    | with_reducible first | apply State.awake_keeps | apply State.busWrite_keeps | apply keeps_ite | apply foldl_keeps | apply keepsO_ite | apply keepsO_next
    | split
    | with_reducible refine keepsP_snd (by assumption) ?_ | with_reducible refine keepsP_snd2 (by assumption) ?_
    | with_reducible apply Keeps.parts | simp only [keeps_mk]
    | dsimp only | simp +zetaDelta only [keeps_mk] | dsimp +zetaDelta only

theorem execSnapshotRead_keeps (h : Keeps s t) : KeepsO s (execSnapshotRead a1 a2 t) := by
  unfold execSnapshotRead
  repeat' first
    | with_reducible assumption | with_reducible exact Nat.le_refl _ | with_reducible exact List.length_filter_le _ _ | with_reducible exact rfl | intro _ | extract_lets
    | with_reducible first | apply State.awake_keeps | apply State.readFull_keeps | apply keeps_ite | apply foldl_keeps | apply keepsO_ite | apply keepsO_next
    | split
    | with_reducible refine keepsP_snd (by assumption) ?_ | with_reducible refine keepsP_snd2 (by assumption) ?_
    | with_reducible apply Keeps.parts | simp only [keeps_mk]
    | dsimp only | simp +zetaDelta only [keeps_mk] | dsimp +zetaDelta only

theorem execMultiwordCommit_keeps (h : Keeps s t) : KeepsO s (execMultiwordCommit a1 a2 a3 t) := by
  unfold execMultiwordCommit
  repeat' first
    | with_reducible assumption | with_reducible exact Nat.le_refl _ | with_reducible exact List.length_filter_le _ _ | with_reducible exact rfl | intro _ | extract_lets
    | with_reducible first | apply State.awake_keeps | apply State.busWrite_keeps | apply keeps_ite | apply foldl_keeps | apply keepsO_ite | apply keepsO_next
    | split
    | with_reducible refine keepsP_snd (by assumption) ?_ | with_reducible refine keepsP_snd2 (by assumption) ?_
    | with_reducible apply Keeps.parts | simp only [keeps_mk]
    | dsimp only | simp +zetaDelta only [keeps_mk] | dsimp +zetaDelta only

theorem execRegisterWrite_keeps (h : Keeps s t) : KeepsO s (execRegisterWrite a1 a2 a3 t) := by
  unfold execRegisterWrite
  repeat' first
    | with_reducible assumption | with_reducible exact Nat.le_refl _ | with_reducible exact List.length_filter_le _ _ | with_reducible exact rfl | intro _ | extract_lets
    | with_reducible first | apply State.awake_keeps | apply State.busWrite_keeps | apply keeps_ite | apply foldl_keeps | apply keepsO_ite | apply keepsO_next
    | split
    | with_reducible refine keepsP_snd (by assumption) ?_ | with_reducible refine keepsP_snd2 (by assumption) ?_
    | with_reducible apply Keeps.parts | simp only [keeps_mk]
    | dsimp only | simp +zetaDelta only [keeps_mk] | dsimp +zetaDelta only

theorem execHostWrite_keeps (h : Keeps s t) : KeepsO s (execHostWrite a1 a2 a3 a4 t) := by
  unfold execHostWrite
  repeat' first
    | intro _ | extract_lets
    | with_reducible first | assumption | apply State.hostWrite_keeps | apply keeps_ite | apply foldl_keeps | apply keepsO_ite | apply keepsO_next

theorem execHostRead_keeps (h : Keeps s t) : KeepsO s (execHostRead a1 a2 a3 a4 t) := by
  unfold execHostRead
  repeat' first
    | intro _ | extract_lets
    | with_reducible first | assumption | apply State.hostRead_keeps | apply keeps_ite | apply foldl_keeps | apply keepsO_ite | apply keepsO_next

theorem execStatusTransaction_keeps (h : Keeps s t) : KeepsO s (execStatusTransaction a1 a2 a3 t) := by
  unfold execStatusTransaction
  repeat' first
    | intro _ | extract_lets
    | with_reducible first | assumption | apply State.hostHeader_keeps | apply keeps_ite | apply foldl_keeps | apply keepsO_ite | apply keepsO_next

theorem execDbgAccRead_keeps (h : Keeps s t) : KeepsO s (execDbgAccRead a1 t) := by
  unfold execDbgAccRead
  repeat' first
    | intro _ | extract_lets
    | with_reducible first | assumption | apply State.dbgRead_keeps | apply keeps_ite | apply foldl_keeps | apply keepsO_ite | apply keepsO_next

theorem execDbgAccWrite_keeps (h : Keeps s t) : KeepsO s (execDbgAccWrite a1 a2 t) := by
  unfold execDbgAccWrite
  repeat' first
    | intro _ | extract_lets
    | with_reducible first | assumption | apply State.dbgWrite_keeps | apply keeps_ite | apply foldl_keeps | apply keepsO_ite | apply keepsO_next

end Sys2Proof.Machine
end

