-- ==== Sys2Proof/Laws/KeepsClock.lean ====
section
/-! SUPPORT. Every operation of Machine/Clock.lean keeps what `Keeps` says. -/

namespace Sys2Proof.Machine

theorem State.sequencerDue_keeps (h : Keeps s t) : KeepsP s (State.sequencerDue t) := by
  unfold State.sequencerDue
  split
  · exact h
  · exact h.same rfl rfl rfl rfl rfl rfl rfl rfl

theorem State.powerClock_keeps (h : Keeps s t) : Keeps s (State.powerClock t) := by
  unfold State.powerClock
  repeat' first
    | with_reducible assumption | with_reducible exact Nat.le_refl _ | with_reducible exact List.length_filter_le _ _ | with_reducible exact rfl | intro _ | extract_lets
    | with_reducible first | apply State.onNet_keeps | apply State.wldClock_keeps | apply State.newClock_keeps | apply State.receiptClock_keeps | apply State.timeClock_keeps | apply onPow_keeps | apply keeps_ite | apply keeps_dite | apply foldl_keeps
    | split
    | with_reducible refine keepsP_snd (by assumption) ?_ | with_reducible refine keepsP_snd2 (by assumption) ?_
    | with_reducible apply Keeps.parts | simp only [keeps_mk]
    | dsimp only | simp +zetaDelta only [keeps_mk] | dsimp +zetaDelta only

theorem State.stepInputs_keeps (h : Keeps s t) : KeepsP s (State.stepInputs t) := by
  unfold State.stepInputs
  extract_lets u
  have h1 : Keeps s u := overList_keeps h (fun _ _ k => State.stepFilter_keeps k)
  have key : ∀ (l : List (Fin 12)) (x : List Instr × State), Keeps s x.2 →
      Keeps s (l.foldl (fun x n => let r := t.stepInDue n x.2; (x.1 ++ r.1, r.2)) x).2 := by
    intro l
    induction l with
    | nil => exact fun _ k => k
    | cons n l ih => exact fun x k => ih _ (State.stepInDue_keeps k)
  exact key _ _ h1

theorem State.engineClock_keeps (h : Keeps s t) : Keeps s (State.engineClock t) := by
  unfold State.engineClock
  repeat' first
    | intro _ | extract_lets
    | with_reducible first | assumption | apply State.onFol_keeps | apply State.clockAxis_keeps | apply State.track_keeps | apply overList_keeps
         | apply keeps_ite

theorem State.vioClock_keeps (h : Keeps s t) : Keeps s (State.vioClock t a1) := by
  unfold State.vioClock
  repeat' first
    | intro _ | extract_lets
    | with_reducible first | assumption | apply State.vioClear_keeps | apply keeps_ite

theorem State.toffClock_keeps (h : Keeps s t) : Keeps s (State.toffClock t).1 := by
  unfold State.toffClock
  extract_lets lim s1
  have h1 : Keeps s s1 := State.onStage_keeps h
  show Keeps s (if _ then _ else _)
  exact keeps_ite (State.toffShow_keeps h1) h1

/-- The hardware of one CORE clock and the rows that fall due in it; the rows join the end of the queue. -/
theorem State.runClock_queue (t : State) : ∃ u l, Keeps t u ∧ State.runClock t = { u with pending := u.pending ++ l } := by
  unfold State.runClock
  extract_lets s1 s2 s3
  have h1 : Keeps t s1 := State.engineClock_keeps (State.powerClock_keeps Keeps.refl)
  have h2 : Keeps t s2 := keeps_ite (State.serveReserve_keeps h1) h1
  have h3 : Keeps t s3 := State.vioClock_keeps (State.excClock_keeps (State.cmpClock_keeps (State.convClock_keeps (State.modClock_keeps
    (State.frcClock_keeps (State.pinsClock_keeps h2))))))
  have h3' : Keeps t s3.tripClock.gateClock.tripWait := State.tripWait_keeps (State.gateClock_keeps (State.tripClock_keeps h3))
  rcases e4 : s3.tripClock.gateClock.tripWait.toffClock with ⟨s4, disc⟩
  have h4 : Keeps t s4 := by have k := State.toffClock_keeps h3'; rw [e4] at k; exact k
  rcases e6 : s4.stepInputs with ⟨steps, s6⟩
  have h6 : Keeps t s6 := keepsP_snd e6 (State.stepInputs_keeps h4)
  rcases e5 : s6.sequencerDue with ⟨rows, s5⟩
  have h5 : Keeps t s5 := keepsP_snd e5 (State.sequencerDue_keeps h6)
  simp only [e5, e6]
  exact ⟨s5, _, h5, rfl⟩

/-- An idle clock keeps the form and the bounds of the stored data. -/
theorem State.idle_canon (h : t.Canon) : (State.idle t).Canon := by
  have canon : ∀ {u : State}, Keeps t u → u.Canon := fun k => ⟨k.regs h.regs, k.path h.path, k.hist h.hist, k.ecc h.ecc⟩
  unfold State.idle
  split
  · exact h
  · split
    · exact canon (State.enterReset_keeps Keeps.refl)
    · split
      · exact canon (State.enterReset_keeps Keeps.refl)
      · split
        · exact canon (State.shelfLeave_keeps Keeps.refl)
        · obtain ⟨u, l, hu, e⟩ := State.runClock_queue t
          rw [e]
          have hc := canon hu
          exact ⟨hc.regs, hc.path, hc.hist, hc.ecc⟩

end Sys2Proof.Machine
end

