-- ==== Sys2Proof/Laws/KeepsEdge.lean ====
section
/-! SUPPORT. Every operation of Machine/Edge.lean keeps what `Keeps` says. -/

namespace Sys2Proof.Machine

theorem State.overblowOne_keeps (h : Keeps s t) : Keeps s (State.overblowOne t a1) := by
  unfold State.overblowOne
  repeat' first
    | intro _ | extract_lets
    | with_reducible first | assumption | apply State.bump_keeps | apply State.onAx_keeps | apply State.log_keeps | apply keeps_ite

theorem State.overblow_keeps (h : Keeps s t) : Keeps s (State.overblow t) := by
  unfold State.overblow
  repeat' first
    | intro _ | extract_lets
    | with_reducible first | assumption | apply State.onAx_keeps | apply State.overblowOne_keeps | apply State.life_keeps | apply State.bump_keeps
         | apply overList_keeps | apply keeps_ite | apply keeps_dite | apply foldl_keeps | refine keepsP_snd (by assumption) ?_
                            | refine keepsP_snd2 (by assumption) ?_ | apply Keeps.parts
    | split | simp only [keeps_mk] | dsimp only | simp +zetaDelta only [keeps_mk]

theorem State.tickBegins_keeps (h : Keeps s t) : Keeps s (State.tickBegins t) := by
  unfold State.tickBegins
  repeat' first
    | intro _ | extract_lets
    | with_reducible first | assumption | apply State.onAx_keeps | apply overList_keeps

theorem State.dutiesIn_keeps (h : Keeps s t) : Keeps s (State.dutiesIn t a1) := by
  unfold State.dutiesIn
  repeat' first
    | intro _ | extract_lets
    | with_reducible first | assumption | apply State.onUnit_keeps | apply overList_keeps

theorem State.pwmEdge_keeps (h : Keeps s t) : Keeps s (State.pwmEdge t a1) := by
  unfold State.pwmEdge
  repeat' first
    | intro _ | extract_lets
    | with_reducible first | assumption | apply State.unitEdge_keeps | apply State.voltEdge_keeps | apply State.dutiesIn_keeps | apply overList_keeps
         | apply keeps_ite

theorem State.samplesEdge_keeps (h : Keeps s t) : Keeps s (State.samplesEdge t) := by
  unfold State.samplesEdge
  repeat' first
    | with_reducible assumption | with_reducible exact Nat.le_refl _ | with_reducible exact List.length_filter_le _ _ | with_reducible exact rfl | intro _ | extract_lets
    | with_reducible first | apply State.voltEdge_keeps | apply State.measEdge_keeps | apply overList_keeps | apply keeps_ite | apply keeps_dite | apply foldl_keeps
    | split
    | with_reducible refine keepsP_snd (by assumption) ?_ | with_reducible refine keepsP_snd2 (by assumption) ?_
    | with_reducible apply Keeps.parts | simp only [keeps_mk]
    | dsimp only | simp +zetaDelta only [keeps_mk] | dsimp +zetaDelta only

theorem State.snapshot_keeps (h : Keeps s t) : Keeps s (State.snapshot t a1) := by
  unfold State.snapshot
  repeat' first
    | intro _ | extract_lets
    | with_reducible first | assumption | apply State.onMot_keeps | apply State.onCtl_keeps

theorem State.reachGrid_keeps (h : Keeps s t) : Keeps s (State.reachGrid t) := by
  unfold State.reachGrid
  repeat' first
    | intro _ | extract_lets
    | with_reducible first | assumption | apply State.onTim_keeps | apply keeps_ite

theorem State.edgeActions_keeps (h : Keeps s t) : Keeps s (State.edgeActions t a1 a2) := by
  unfold State.edgeActions
  repeat' first
    | with_reducible assumption | with_reducible exact Nat.le_refl _ | with_reducible exact List.length_filter_le _ _ | with_reducible exact rfl | intro _ | extract_lets
    | with_reducible first | apply State.takeWrites_keeps | apply State.overblow_keeps | apply State.modEdge_keeps | apply State.pwmEdge_keeps | apply State.samplesEdge_keeps | apply State.vmEdge_keeps | apply State.adcWrap_keeps | apply State.frcPublish_keeps | apply State.portEdge_keeps | apply State.laneEdge_keeps | apply State.snapshot_keeps | apply State.boundary_keeps | apply State.timeStep_keeps | apply State.recordEdge_keeps | apply overList_keeps | apply keeps_ite | apply keeps_dite | apply foldl_keeps
    | split
    | with_reducible refine keepsP_snd (by assumption) ?_ | with_reducible refine keepsP_snd2 (by assumption) ?_
    | with_reducible apply Keeps.parts | simp only [keeps_mk]
    | dsimp only | simp +zetaDelta only [keeps_mk] | dsimp +zetaDelta only

theorem State.governorEdge_keeps (h : Keeps s t) : Keeps s (State.governorEdge t) := by
  unfold State.governorEdge
  repeat' first
    | intro _ | extract_lets
    | with_reducible first | assumption | apply State.powerEdge_keeps | apply State.governorStep_keeps | apply State.onStage_keeps | apply keeps_ite

theorem State.sensingEdge_keeps (h : Keeps s t) : Keeps s (State.sensingEdge t a1 a2) := by
  unfold State.sensingEdge
  repeat' first
    | intro _ | extract_lets
    | with_reducible first | assumption | apply State.burstEdge_keeps | apply State.probeEdge_keeps | apply State.angleEdge_keeps | apply keeps_ite

theorem State.reactions_keeps (h : Keeps s t) : Keeps s (State.reactions t) := by
  unfold State.reactions
  repeat' first
    | with_reducible first | assumption | exact Nat.le_refl _ | exact List.length_filter_le _ _ | exact rfl
    | intro _ _ _ | with_reducible first | apply State.react_keeps | apply overList_keeps | apply onFlt_keeps
    | split | extract_lets

theorem State.edgeOrders_keeps (h : Keeps s t) : Keeps s (State.edgeOrders t) := by
  unfold State.edgeOrders
  repeat' first
    | with_reducible assumption | with_reducible exact Nat.le_refl _ | with_reducible exact List.length_filter_le _ _ | with_reducible exact rfl | intro _ | extract_lets
    | with_reducible first | apply State.takeSoft_keeps | apply State.flushSt_keeps | apply State.takeWrites_keeps | apply State.imageEdge_keeps | apply State.haltEdge_keeps | apply State.toffEdge_keeps | apply State.identTrip_keeps | apply State.inputsEdge_keeps | apply State.touchEdge_keeps | apply State.reactions_keeps | apply State.homePhase_keeps | apply State.retractEdge_keeps | apply State.enableExit_keeps | apply State.plugEdge_keeps | apply State.axisCmdEdge_keeps | apply State.homeUnobs_keeps | apply State.frcEdge_keeps | apply overList_keeps | apply keeps_ite | apply keeps_dite | apply foldl_keeps
    | split
    | with_reducible refine keepsP_snd (by assumption) ?_ | with_reducible refine keepsP_snd2 (by assumption) ?_
    | with_reducible apply Keeps.parts | simp only [keeps_mk]
    | dsimp only | simp +zetaDelta only [keeps_mk] | dsimp +zetaDelta only

theorem State.engineEdge_keeps (h : Keeps s t) : Keeps s (State.engineEdge t a1 a2 a3) := by
  unfold State.engineEdge
  repeat' first
    | with_reducible assumption | with_reducible exact Nat.le_refl _ | with_reducible exact List.length_filter_le _ _ | with_reducible exact rfl | intro _ | extract_lets
    | with_reducible first | apply State.limitBehind_keeps | apply State.replanAt_keeps | apply State.identEdge_keeps | apply State.yieldEdge_keeps | apply State.reanchorAt_keeps | apply State.followTarget_keeps | apply State.tableDone_keeps | apply State.tableStart_keeps | apply State.aerrEdge_keeps | apply State.frozenEdge_keeps | apply State.probeStart_keeps | apply State.probeEdge_keeps | apply State.burstStart_keeps | apply State.frameEdge_keeps | apply State.autogain_keeps | apply State.levelEdge_keeps | apply keeps_ite | apply keeps_dite | apply foldl_keeps
    | split
    | with_reducible refine keepsP_snd (by assumption) ?_ | with_reducible refine keepsP_snd2 (by assumption) ?_
    | with_reducible apply Keeps.parts | simp only [keeps_mk]
    | dsimp only | simp +zetaDelta only [keeps_mk] | dsimp +zetaDelta only

theorem State.edgeClose_keeps (h : Keeps s t) : Keeps s (State.edgeClose t a1) := by
  unfold State.edgeClose
  repeat' first
    | with_reducible first | assumption | exact Nat.le_refl _ | exact List.length_filter_le _ _ | exact rfl
    | intro _ | extract_lets
    | with_reducible first | apply State.setOuts_keeps | apply State.outputsEdge_keeps | apply State.cmpTick_keeps | apply State.warnEdge_keeps | apply State.vioClear_keeps | apply State.irq_keeps | apply State.tickBegins_keeps | apply State.shelfLeave_keeps | apply keeps_ite | apply keeps_dite | apply foldl_keeps
    | split
    | with_reducible refine keepsP_snd (by assumption) ?_ | with_reducible refine keepsP_snd2 (by assumption) ?_
    | with_reducible apply Keeps.parts | simp only [keeps_mk]
    | dsimp only | simp +zetaDelta only [keeps_mk]

theorem State.tickEdge_keeps (h : Keeps s t) : Keeps s (State.tickEdge t) := by
  unfold State.tickEdge
  repeat' first
    | with_reducible first | assumption | exact Nat.le_refl _ | exact List.length_filter_le _ _ | exact rfl
    | intro _ _ _ | with_reducible first | apply State.reachGrid_keeps | apply State.governorEdge_keeps | apply State.edgeActions_keeps | apply State.sensingEdge_keeps | apply State.queueStepDowns_keeps | apply State.edgeOrders_keeps | apply State.engineEdge_keeps | apply State.edgeClose_keeps | apply overList_keeps | apply onBore_keeps | apply keeps_ite
    | split | extract_lets

theorem execTickEdge_keeps (h : Keeps s t) : KeepsO s (execTickEdge t) := by
  unfold execTickEdge
  repeat' first
    | with_reducible assumption | with_reducible exact Nat.le_refl _ | with_reducible exact List.length_filter_le _ _ | with_reducible exact rfl | intro _ | extract_lets
    | with_reducible first | apply State.awake_keeps | apply State.tickEdge_keeps | apply keeps_ite | apply foldl_keeps | apply keepsO_ite | apply keepsO_next
    | split
    | with_reducible refine keepsP_snd (by assumption) ?_ | with_reducible refine keepsP_snd2 (by assumption) ?_
    | with_reducible apply Keeps.parts | simp only [keeps_mk]
    | dsimp only | simp +zetaDelta only [keeps_mk] | dsimp +zetaDelta only

end Sys2Proof.Machine
end

