-- ==== Sys2Proof/Laws/KeepsSessions.lean ====
section
/-! SUPPORT. Every operation of Machine/Sessions.lean keeps what `Keeps` says. -/

namespace Sys2Proof.Machine

theorem State.reqDone_keeps (h : Keeps s t) : Keeps s (State.reqDone t a1) := by
  unfold State.reqDone
  repeat' first
    | intro _ | extract_lets
    | with_reducible first | assumption | apply State.onNet_keeps

theorem State.openSession_keeps (h : Keeps s t) : Keeps s (State.openSession t a1 a2 a3 a4) := by
  unfold State.openSession
  repeat' first
    | intro _ | extract_lets
    | with_reducible first | assumption | apply State.freshAcc_keeps | apply State.onNet_keeps | apply State.wr_keeps

theorem State.execOpen_keeps (h : Keeps s t) : Keeps s (State.execOpen t a1) := by
  unfold State.execOpen
  repeat' first
    | intro _ | extract_lets
    | with_reducible first | assumption | apply State.replyStatus_keeps | apply State.authFail_keeps | apply State.fullCount_keeps
         | apply State.reply_keeps | apply State.openSession_keeps | apply State.free_keeps | apply keeps_ite | apply keeps_dite | apply foldl_keeps
    | split

theorem State.answer_keeps (h : Keeps s t) : Keeps s (State.answer t a1 a2 a3 a4 a5) := by
  unfold State.answer
  repeat' first
    | intro _ | extract_lets
    | with_reducible first | assumption | apply State.reply_keeps | apply State.onNet_keeps | apply keeps_ite

theorem State.reqBurst_keeps (h : Keeps s t) : Keeps s (State.reqBurst t a1 a2).st := by
  unfold State.reqBurst
  split
  · exact h
  · refine State.header_keeps h (fun b hb => ?_)
    split
    · exact burstWrite_keeps hb
    · exact burstRead_keeps hb

theorem State.execWords_keeps (h : Keeps s t) : Keeps s (State.execWords t a1 a2) := by
  unfold State.execWords
  repeat' first
    | intro _ | extract_lets
    | with_reducible first | assumption | apply State.reqDone_keeps | apply State.answer_keeps | apply State.record__keeps
         | apply State.reqBurst_keeps | apply keeps_ite

theorem State.execClose_keeps (h : Keeps s t) : Keeps s (State.execClose t a1 a2) := by
  unfold State.execClose
  repeat' first
    | intro _ | extract_lets
    | with_reducible first | assumption | apply State.reply_keeps | apply State.closeSession_keeps | apply State.reqDone_keeps

theorem State.serve_keeps (h : Keeps s t) : Keeps s (State.serve t a1) := by
  unfold State.serve
  repeat' first
    | intro _ | extract_lets
    | with_reducible first | assumption | apply State.reqDone_keeps | apply State.execOpen_keeps | apply State.execWords_keeps
         | apply State.execClose_keeps | apply State.answer_keeps | apply keeps_ite | apply keeps_dite | apply foldl_keeps
    | split

theorem execOpenRequest_keeps (h : Keeps s t) : KeepsO s (execOpenRequest t) := by
  unfold execOpenRequest
  repeat' first
    | with_reducible assumption | with_reducible exact Nat.le_refl _ | with_reducible exact List.length_filter_le _ _ | with_reducible exact rfl | intro _ | extract_lets
    | with_reducible first | apply State.awake_keeps | apply State.serve_keeps | apply keeps_ite | apply foldl_keeps | apply keepsO_ite | apply keepsO_next
    | split
    | with_reducible refine keepsP_snd (by assumption) ?_ | with_reducible refine keepsP_snd2 (by assumption) ?_
    | with_reducible apply Keeps.parts | simp only [keeps_mk]
    | dsimp only | simp +zetaDelta only [keeps_mk] | dsimp +zetaDelta only

theorem execCloseRequest_keeps (h : Keeps s t) : KeepsO s (execCloseRequest t) := by
  unfold execCloseRequest
  repeat' first
    | with_reducible assumption | with_reducible exact Nat.le_refl _ | with_reducible exact List.length_filter_le _ _ | with_reducible exact rfl | intro _ | extract_lets
    | with_reducible first | apply State.awake_keeps | apply State.serve_keeps | apply keeps_ite | apply foldl_keeps | apply keepsO_ite | apply keepsO_next
    | split
    | with_reducible refine keepsP_snd (by assumption) ?_ | with_reducible refine keepsP_snd2 (by assumption) ?_
    | with_reducible apply Keeps.parts | simp only [keeps_mk]
    | dsimp only | simp +zetaDelta only [keeps_mk] | dsimp +zetaDelta only

theorem execNopRequest_keeps (h : Keeps s t) : KeepsO s (execNopRequest t) := by
  unfold execNopRequest
  repeat' first
    | with_reducible assumption | with_reducible exact Nat.le_refl _ | with_reducible exact List.length_filter_le _ _ | with_reducible exact rfl | intro _ | extract_lets
    | with_reducible first | apply State.awake_keeps | apply State.serve_keeps | apply keeps_ite | apply foldl_keeps | apply keepsO_ite | apply keepsO_next
    | split
    | with_reducible refine keepsP_snd (by assumption) ?_ | with_reducible refine keepsP_snd2 (by assumption) ?_
    | with_reducible apply Keeps.parts | simp only [keeps_mk]
    | dsimp only | simp +zetaDelta only [keeps_mk] | dsimp +zetaDelta only

theorem execReadRequest_keeps (h : Keeps s t) : KeepsO s (execReadRequest t) := by
  unfold execReadRequest
  repeat' first
    | with_reducible assumption | with_reducible exact Nat.le_refl _ | with_reducible exact List.length_filter_le _ _ | with_reducible exact rfl | intro _ | extract_lets
    | with_reducible first | apply State.awake_keeps | apply State.serve_keeps | apply keeps_ite | apply foldl_keeps | apply keepsO_ite | apply keepsO_next
    | split
    | with_reducible refine keepsP_snd (by assumption) ?_ | with_reducible refine keepsP_snd2 (by assumption) ?_
    | with_reducible apply Keeps.parts | simp only [keeps_mk]
    | dsimp only | simp +zetaDelta only [keeps_mk] | dsimp +zetaDelta only

theorem execWriteRequest_keeps (h : Keeps s t) : KeepsO s (execWriteRequest t) := by
  unfold execWriteRequest
  repeat' first
    | with_reducible assumption | with_reducible exact Nat.le_refl _ | with_reducible exact List.length_filter_le _ _ | with_reducible exact rfl | intro _ | extract_lets
    | with_reducible first | apply State.awake_keeps | apply State.serve_keeps | apply keeps_ite | apply foldl_keeps | apply keepsO_ite | apply keepsO_next
    | split
    | with_reducible refine keepsP_snd (by assumption) ?_ | with_reducible refine keepsP_snd2 (by assumption) ?_
    | with_reducible apply Keeps.parts | simp only [keeps_mk]
    | dsimp only | simp +zetaDelta only [keeps_mk] | dsimp +zetaDelta only

theorem execSessionTimeout_keeps (h : Keeps s t) : KeepsO s (execSessionTimeout a1 t) := by
  unfold execSessionTimeout
  repeat' first
    | with_reducible assumption | with_reducible exact Nat.le_refl _ | with_reducible exact List.length_filter_le _ _ | with_reducible exact rfl | intro _ | extract_lets
    | with_reducible first | apply State.awake_keeps | apply State.closeSession_keeps | apply keeps_ite | apply foldl_keeps | apply keepsO_ite | apply keepsO_next
    | split
    | with_reducible refine keepsP_snd (by assumption) ?_ | with_reducible refine keepsP_snd2 (by assumption) ?_
    | with_reducible apply Keeps.parts | simp only [keeps_mk]
    | dsimp only | simp +zetaDelta only [keeps_mk] | dsimp +zetaDelta only

end Sys2Proof.Machine
end

