-- ==== Sys2Proof/Laws/Units.lean ====
section
/-! SUPPORT. Power units: what a latch, a clear and an output change leave of a unit's registers, said once. -/

namespace Sys2Proof.Machine

/-- The latch of unit u is set, with source k among its reasons, and its output is Float (R213, R217). -/
structure Tripped (s : State) (u k : Nat) : Prop where
  trip : s.bit (pstat u) 15 = true
  src : s.bit (unitBase u + PU.LSTAT) k = true
  out : s.fld (pstat u) 5 4 = 1

/-- From `s` to `t` only the register file, the fault manager and the PWM units may change. -/
structure UF (s t : State) : Prop where
  rest : t = { s with regs := t.regs, flt := t.flt, units := t.units }

theorem UF.refl {s : State} : UF s s := ⟨rfl⟩

theorem UF.trans {s t u : State} (h : UF s t) (g : UF t u) : UF s u := ⟨by rw [g.rest]; conv => lhs; rw [h.rest]⟩

theorem RF.uf {s t : State} (h : RF s t) : UF s t := by
  constructor
  have e : t.units = s.units := by rw [h.rest]
  rw [e]
  exact h.rest

theorem uf_ite {p : Prop} {_ : Decidable p} {s t u : State} (h : UF s t) (g : UF s u) : UF s (if p then t else u) := by by_cases hp : p <;> simp [hp, h, g]

theorem uf_overList {A : Type} {l : List A} {f : State → A → State} (h : ∀ s a, UF s (f s a)) (s : State) : UF s (overList l f s) := by
  induction l generalizing s with
  | nil => exact .refl
  | cons a l ih => exact (h s a).trans (ih (f s a))

variable (s : State) {u v k c : Nat}

theorem unitBase_hi (u : Nat) : 0x0C0000 ≤ unitBase u := by unfold unitBase; split <;> omega

theorem unitBase_far {u v a b : Nat} (h : u ≠ v) (ha : a < 256) (hb : b < 256) : unitBase u + a ≠ unitBase v + b := by
  unfold unitBase; split <;> split <;> omega

theorem pstat_hi (u : Nat) : 0x080000 ≤ pstat u := by have := unitBase_hi u; unfold pstat; omega
theorem lstat_hi (u : Nat) : 0x080000 ≤ unitBase u + PU.LSTAT := by have := unitBase_hi u; omega
theorem pstat_ne (u : Nat) : pstat u ≠ unitBase u + PU.LSTAT := by show unitBase u + 4 ≠ unitBase u + 0x8C; omega
theorem pstat_far (h : u ≠ v) {b : Nat} (hb : b < 256) : pstat u ≠ unitBase v + b := unitBase_far h (by decide) hb
theorem lstat_far (h : u ≠ v) {b : Nat} (hb : b < 256) : unitBase u + PU.LSTAT ≠ unitBase v + b := unitBase_far h (by decide) hb

/-! ### Fields of a status word -/

theorem State.rd_setFld (b hi lo x : Nat) (h : hi < 64) :
    (s.setFld b hi lo x).rd b = (s.rd b - s.rd b / 2 ^ lo % 2 ^ (hi - lo + 1) * 2 ^ lo + x % 2 ^ (hi - lo + 1) * 2 ^ lo) % 2 ^ 64 := by
  simp only [State.setFld, State.rd, State.val_wr, if_true, BitVec.toNat_ofNat]

theorem State.bit_rd (b i : Nat) : s.bit b i = decide (s.rd b / 2 ^ i % 2 = 1) := by
  unfold State.bit State.rd BitVec.getLsbD
  rw [Nat.testBit_eq_decide_div_mod_eq]

/-- A 64-bit word with bits 5:4 replaced. -/
theorem fld54 {w x : Nat} (hw : w < 2 ^ 64) (hx : x < 4) :
    (w - w / 16 % 4 * 16 + x % 4 * 16) % 2 ^ 64 / 16 % 4 = x ∧ (w - w / 16 % 4 * 16 + x % 4 * 16) % 2 ^ 64 / 32768 % 2 = w / 32768 % 2 := by
  obtain ⟨q, a, r, ha, hr, rfl⟩ : ∃ q a r, a < 4 ∧ r < 16 ∧ w = 64 * q + 16 * a + r := ⟨w / 64, w / 16 % 4, w % 16, by omega, by omega, by omega⟩
  have e1 : (64 * q + 16 * a + r) / 16 % 4 = a := by omega
  have e2 : 64 * q + 16 * a + r - a * 16 + x % 4 * 16 = 64 * q + 16 * x + r := by omega
  have e3 : (64 * q + 16 * x + r) % 2 ^ 64 = 64 * q + 16 * x + r := Nat.mod_eq_of_lt (by omega)
  rw [e1, e2, e3]
  constructor <;> omega

/-- A 64-bit word with bits 2:0 replaced. -/
theorem fld20 {w x : Nat} (hw : w < 2 ^ 64) :
    (w - w % 8 + x % 8) % 2 ^ 64 / 16 % 4 = w / 16 % 4 ∧ (w - w % 8 + x % 8) % 2 ^ 64 / 32768 % 2 = w / 32768 % 2 := by
  obtain ⟨q, r, hr, rfl⟩ : ∃ q r, r < 8 ∧ w = 8 * q + r := ⟨w / 8, w % 8, by omega, by omega⟩
  have e1 : (8 * q + r) % 8 = r := by omega
  have e2 : 8 * q + r - r + x % 8 = 8 * q + x % 8 := by omega
  have e3 : (8 * q + x % 8) % 2 ^ 64 = 8 * q + x % 8 := Nat.mod_eq_of_lt (by omega)
  rw [e1, e2, e3]
  constructor <;> omega
/-- The output field takes its value, and the latch bit stays. -/
theorem State.setFld_out (b x : Nat) (hx : x < 4) : (s.setFld b 5 4 x).fld b 5 4 = x ∧ (s.setFld b 5 4 x).bit b 15 = s.bit b 15 := by
  have hv : s.rd b < 2 ^ 64 := (s.val b).isLt
  have h := s.rd_setFld b 5 4 x (by decide)
  simp only [State.bit_rd, State.fld, fld, h]
  exact ⟨(fld54 hv hx).1, congrArg (fun y => decide (y = 1)) (fld54 hv hx).2⟩

/-- The cause field takes its value, and the output field and the latch bit stay. -/
theorem State.setFld_cause (b x : Nat) : (s.setFld b 2 0 x).fld b 5 4 = s.fld b 5 4 ∧ (s.setFld b 2 0 x).bit b 15 = s.bit b 15 := by
  have hv : s.rd b < 2 ^ 64 := (s.val b).isLt
  have h := s.rd_setFld b 2 0 x (by decide)
  simp only [State.bit_rd, State.fld, fld, h]
  have e : ∀ y, y - y / 2 ^ 0 % 2 ^ (2 - 0 + 1) * 2 ^ 0 + x % 2 ^ (2 - 0 + 1) * 2 ^ 0 = y - y % 8 + x % 8 := by intro y; norm_num
  simp only [e]
  exact ⟨(fld20 (x := x) hv).1, congrArg (fun y => decide (y = 1)) (fld20 (x := x) hv).2⟩

theorem State.setFld_same {b c hi lo x : Nat} (h : c ≠ b) : (s.setFld b hi lo x).val c = s.val c := State.val_setFld_other s b c hi lo x h

theorem State.onUnit_val (u : Nat) (f : PwmUnit → PwmUnit) (c : Nat) : (s.onUnit u f).val c = s.val c := by
  unfold State.onUnit; split <;> rfl

/-! ### Outputs -/

theorem setOut_uf (u : Nat) (e : Bool) : UF s (s.setOut u e) := by
  unfold State.setOut
  rcases s.outOf u with ⟨o, k⟩
  dsimp only
  refine uf_ite ⟨rfl⟩ ⟨?_⟩
  unfold State.onUnit
  split <;> rfl

/-- An output change writes PSTAT and CARRY of its unit alone. -/
theorem setOut_other (e : Bool) (h1 : c ≠ pstat u) (h2 : c ≠ unitBase u + PU.CARRY) : (s.setOut u e).val c = s.val c := by
  unfold State.setOut
  rcases s.outOf u with ⟨o, k⟩
  dsimp only
  split <;> (try split) <;> simp [State.setFld_same, State.onUnit_val, State.val_wr, h1, h2]

/-- A unit whose latch is set has output Float (R213), and keeps its latch. -/
theorem setOut_float (e : Bool) (h : s.bit (pstat u) 15 = true) :
    (s.setOut u e).fld (pstat u) 5 4 = 1 ∧ (s.setOut u e).bit (pstat u) 15 = true := by
  have ho : ∃ k, s.outOf u = (1, k) := by
    unfold State.outOf
    split
    · exact ⟨_, rfl⟩
    · split
      · exact ⟨_, rfl⟩
      · first | exact ⟨_, rfl⟩ | (rw [if_pos h]; exact ⟨_, rfl⟩)
  obtain ⟨k, hk⟩ := ho
  have hc : pstat u ≠ unitBase u + PU.CARRY := by show unitBase u + 4 ≠ unitBase u + 0x1C; omega
  unfold State.setOut
  rw [hk]
  simp only [Nat.succ_ne_self, OfNat.one_ne_ofNat, false_and, if_false, one_ne_zero]
  have a := ((s.setFld (pstat u) 5 4 1).setFld_cause (pstat u) k)
  have b := s.setFld_out (pstat u) 1 (by decide)
  have e1 : ∀ f, ((((s.setFld (pstat u) 5 4 1).setFld (pstat u) 2 0 k).onUnit u f).wr (unitBase u + PU.CARRY) 0).val (pstat u) =
      ((s.setFld (pstat u) 5 4 1).setFld (pstat u) 2 0 k).val (pstat u) := fun f => by
    rw [State.val_wr, if_neg hc, State.onUnit_val]
  constructor
  · simp only [State.fld, State.rd, e1]; exact a.1.trans b.1
  · simp only [State.bit, e1]; exact a.2.trans (b.2.trans h)

theorem Tripped.of_val {t : State} (h : Tripped s u k) (h1 : t.val (pstat u) = s.val (pstat u))
    (h2 : t.val (unitBase u + PU.LSTAT) = s.val (unitBase u + PU.LSTAT)) : Tripped t u k :=
  ⟨by rw [State.bit, h1]; exact h.trip, by rw [State.bit, h2]; exact h.src, by rw [State.fld, State.rd, h1]; exact h.out⟩

theorem setOut_tripped (e : Bool) (h : Tripped s u k) : Tripped (s.setOut v e) u k := by
  have hl : (s.setOut v e).val (unitBase u + PU.LSTAT) = s.val (unitBase u + PU.LSTAT) := by
    by_cases hv : u = v
    · subst hv
      exact setOut_other s e (Ne.symm (pstat_ne u)) (by show unitBase u + 0x8C ≠ unitBase u + 0x1C; omega)
    · exact setOut_other s e (by unfold pstat; exact lstat_far hv (by decide)) (lstat_far hv (by decide))
  by_cases hv : u = v
  · subst hv
    have a := setOut_float s e h.trip
    exact ⟨a.2, by rw [State.bit, hl]; exact h.src, a.1⟩
  · refine h.of_val s ?_ hl
    exact setOut_other s e (by unfold pstat; exact unitBase_far hv (by decide) (by decide)) (pstat_far hv (by decide))

/-! ### Sources and latches -/

theorem foldl_setBits_uf {l : List Nat} {p : Nat → Bool} {a : Nat} (s : State) :
    UF s (l.foldl (fun s k => if p k then s.setBit a k true else s) s) := by
  induction l generalizing s with
  | nil => exact .refl
  | cons j l ih => exact (uf_ite (p := p j = true) (t := s.setBit a j true) ⟨rfl⟩ .refl).trans (ih _)

theorem foldl_setBits {l : List Nat} {p : Nat → Bool} {a : Nat} (s : State) :
    (∀ c, c ≠ a → (l.foldl (fun s k => if p k then s.setBit a k true else s) s).val c = s.val c) ∧
    (∀ i, s.bit a i = true → (l.foldl (fun s k => if p k then s.setBit a k true else s) s).bit a i = true) := by
  induction l generalizing s with
  | nil => exact ⟨fun _ _ => rfl, fun _ h => h⟩
  | cons j l ih =>
    obtain ⟨h1, h2⟩ := ih (if p j then s.setBit a j true else s)
    refine ⟨fun c hc => (h1 c hc).trans ?_, fun i hi => h2 i ?_⟩
    · split
      · rw [State.val_setBit, if_neg hc]
      · rfl
    · split
      · simp only [State.bit, State.val_setBit, if_true] at hi ⊢; simp [hi]
      · exact hi

theorem showSources_uf (u : Nat) : UF s (s.showSources u) := by
  unfold State.showSources
  extract_lets l a
  exact uf_ite (foldl_setBits_uf s) .refl

/-- The sources that show set bits of LSTAT of their unit, and change nothing else. -/
theorem showSources_val : (∀ c, c ≠ unitBase u + PU.LSTAT → (s.showSources u).val c = s.val c) ∧
    ∀ i, s.bit (unitBase u + PU.LSTAT) i = true → (s.showSources u).bit (unitBase u + PU.LSTAT) i = true := by
  unfold State.showSources
  extract_lets l a
  split
  · exact foldl_setBits s
  · exact ⟨fun _ _ => rfl, fun _ h => h⟩

theorem showSources_tripped (h : Tripped s u k) : Tripped (s.showSources v) u k := by
  obtain ⟨h1, h2⟩ := showSources_val s (u := v)
  have hp : (s.showSources v).val (pstat u) = s.val (pstat u) := h1 _ (by
    by_cases hv : u = v
    · subst hv; exact pstat_ne u
    · exact pstat_far hv (by decide))
  by_cases hv : u = v
  · subst hv
    exact ⟨by rw [State.bit, hp]; exact h.trip, h2 k h.src, by rw [State.fld, State.rd, hp]; exact h.out⟩
  · exact h.of_val s hp (h1 _ (lstat_far hv (by decide)))

/-- Before the sources show and the output follows: the source's bit and the latch are set, and other registers stand. -/
theorem latchOne_val (j : Nat) {f : PwmUnit → PwmUnit} :
    let t := ((s.setBit (unitBase v + PU.LSTAT) j true).flag (pstat v) 15).onUnit v f
    (∀ c, c ≠ pstat v → 0x080000 ≤ c → c ≠ unitBase v + PU.LSTAT → t.val c = s.val c) ∧ t.bit (pstat v) 15 = true ∧
      ∀ i, (i = j ∧ j < 64 ∨ s.bit (unitBase v + PU.LSTAT) i = true) → t.bit (unitBase v + PU.LSTAT) i = true := by
  intro t
  refine ⟨fun c h1 h2 h3 => ?_, ?_, fun i h => ?_⟩
  · simp only [t, State.onUnit_val]
    rw [flag_hi _ (by decide) h1 h2, State.val_setBit, if_neg h3]
  · simp only [t, State.bit, State.onUnit_val]
    rw [flag_self_hi _ (by decide) (pstat_hi v)]; simp
  · simp only [t, State.bit, State.onUnit_val]
    rw [flag_hi _ (by decide) (Ne.symm (pstat_ne v)) (lstat_hi v)]
    rcases h with ⟨rfl, h⟩ | h
    · exact s.bit_setBit _ _ _ h
    · simp only [State.bit] at h
      simp only [State.val_setBit, if_true]
      simp [h]

/-- A latch of unit v: other registers of the engines stand, but CARRY and PSTAT and LSTAT of that unit. -/
theorem latchOne_other (j : Nat) (h1 : c ≠ pstat v) (h2 : 0x080000 ≤ c) (h3 : c ≠ unitBase v + PU.LSTAT) (h4 : c ≠ unitBase v + PU.CARRY) :
    (s.latchOne v j).val c = s.val c := by
  unfold State.latchOne
  rw [setOut_other _ _ h1 h4, (showSources_val _).1 _ h3]
  exact (latchOne_val s j).1 c h1 h2 h3

/-- One unit of a latch. -/
theorem latchOne_self (hk : k < 64) : Tripped (s.latchOne u k) u k := by
  obtain ⟨_, b, d⟩ := latchOne_val s (v := u) k (f := fun x => { x with tripped := true })
  unfold State.latchOne
  obtain ⟨h1, h2⟩ := showSources_val (((s.setBit (unitBase u + PU.LSTAT) k true).flag (pstat u) 15).onUnit u (fun x => { x with tripped := true })) (u := u)
  have a := setOut_float ((((s.setBit (unitBase u + PU.LSTAT) k true).flag (pstat u) 15).onUnit u (fun x => { x with tripped := true })).showSources u)
    (u := u) false (by rw [State.bit, h1 _ (pstat_ne u)]; exact b)
  refine ⟨a.2, ?_, a.1⟩
  rw [State.bit, setOut_other _ _ (Ne.symm (pstat_ne u)) (by show unitBase u + 0x8C ≠ unitBase u + 0x1C; omega)]
  exact h2 k (d k (.inl ⟨rfl, hk⟩))

theorem latchOne_keep {j : Nat} (h : Tripped s u k) (hv : u ≠ v) : Tripped (s.latchOne v j) u k := by
  obtain ⟨a, _, _⟩ := latchOne_val s (v := v) j (f := fun x => { x with tripped := true })
  unfold State.latchOne
  refine setOut_tripped _ false (showSources_tripped _ (h.of_val s ?_ ?_))
  · exact a _ (by unfold pstat; exact unitBase_far hv (by decide) (by decide)) (pstat_hi u) (pstat_far hv (by decide))
  · exact a _ (by unfold pstat; exact lstat_far hv (by decide)) (lstat_hi u) (lstat_far hv (by decide))

theorem latchOne_mono {j : Nat} (h : Tripped s u k) : Tripped (s.latchOne v j) u k := by
  by_cases hv : u = v
  · subst hv
    obtain ⟨_, b, d⟩ := latchOne_val s (v := u) j (f := fun x => { x with tripped := true })
    unfold State.latchOne
    obtain ⟨h1, h2⟩ := showSources_val (((s.setBit (unitBase u + PU.LSTAT) j true).flag (pstat u) 15).onUnit u (fun x => { x with tripped := true })) (u := u)
    have a := setOut_float ((((s.setBit (unitBase u + PU.LSTAT) j true).flag (pstat u) 15).onUnit u (fun x => { x with tripped := true })).showSources u)
      (u := u) false (by rw [State.bit, h1 _ (pstat_ne u)]; exact b)
    refine ⟨a.2, ?_, a.1⟩
    rw [State.bit, setOut_other _ _ (Ne.symm (pstat_ne u)) (by show unitBase u + 0x8C ≠ unitBase u + 0x1C; omega)]
    exact h2 k (d k (.inr h.src))
  · exact latchOne_keep s h hv

/-- A later latch leaves what an earlier one set. -/
theorem latch_mono (w j : Nat) (h : Tripped s u k) : Tripped (s.latch w j) u k := by
  unfold State.latch
  generalize s.pairOf w = l
  induction l generalizing s with
  | nil => exact h
  | cons v l ih => exact ih _ (latchOne_mono s h)

theorem onUnit_uf (f : PwmUnit → PwmUnit) : UF s (s.onUnit v f) := by unfold State.onUnit; split <;> exact ⟨rfl⟩

theorem latchOne_uf (j : Nat) : UF s (s.latchOne v j) :=
  ((UF.trans (t := s.setBit (unitBase v + PU.LSTAT) j true) ⟨rfl⟩ (flag_rf _ _ _).uf).trans (onUnit_uf _ _)).trans
    ((showSources_uf _ v).trans (setOut_uf _ v false))

theorem latch_uf (u k : Nat) : UF s (s.latch u k) := uf_overList (fun t v => latchOne_uf t k) s

/-- A latch sets the latch of every unit of the pair, with its source, and turns the unit's output to Float (R213, R217, R226). -/
theorem latch_tripped (hk : k < 64) (hv : v ∈ s.pairOf u) : Tripped (s.latch u k) v k := by
  unfold State.latch
  have key : ∀ (l : List Nat) (t : State), (v ∈ l ∨ Tripped t v k) → Tripped (overList l (fun s v => s.latchOne v k) t) v k := by
    intro l
    induction l with
    | nil => intro t h; rcases h with h | h; · simp at h
             exact h
    | cons w l ih =>
      intro t h
      by_cases e : v = w
      · subst e; exact ih _ (.inr (latchOne_self t hk))
      · refine ih _ ?_
        rcases h with h | h
        · rcases List.mem_cons.mp h with h | h
          · exact absurd h e
          · exact .inl h
        · exact .inr (latchOne_keep t h e)
  exact key _ _ (.inl hv)

/-- A register of a unit other than PSTAT, LSTAT and CARRY is out of reach of a latch. -/
theorem latch_other (w : Nat) {o : Nat} (ho : o < 256) (h1 : o ≠ PU.PSTAT) (h2 : o ≠ PU.LSTAT) (h3 : o ≠ PU.CARRY) :
    (s.latch w k).val (unitBase u + o) = s.val (unitBase u + o) := by
  have far : ∀ v (b : Nat), b < 256 → o ≠ b → unitBase u + o ≠ unitBase v + b := fun v b hb hn => by
    by_cases e : u = v
    · subst e; omega
    · exact unitBase_far e ho hb
  have one : ∀ (s : State) (v : Nat), (s.latchOne v k).val (unitBase u + o) =
      s.val (unitBase u + o) := fun s v => by
    exact latchOne_other s k (far v _ (by decide) h1) (by have := unitBase_hi u; omega) (far v _ (by decide) h2) (far v _ (by decide) h3)
  unfold State.latch
  generalize s.pairOf w = l
  induction l generalizing s with
  | nil => rfl
  | cons v l ih => exact (ih _).trans (one s v)

/-- An interrupt of any block writes below 0x200. -/
theorem irq_up {b : Nat} (hb : b < 400) (hc : 0x200 ≤ c) : (s.irq b).val c = s.val c := by
  have h1 : ∀ t : State, (t.flagOnly (devA DEV.IRQA_PEND + 4 * (b / 16)) (b % 16)).val c = t.val c := fun t => by
    show (t.setBit _ _ true).val c = _
    rw [State.val_setBit, if_neg (by show c ≠ 0x140 + 4 * (b / 16); omega)]
  have h2 : ∀ t : State, (t.flagOnly (devA DEV.IRQS_PEND + 4 * (b / 16)) (b % 16)).val c = t.val c := fun t => by
    show (t.setBit _ _ true).val c = _
    rw [State.val_setBit, if_neg (by show c ≠ 0x160 + 4 * (b / 16); omega)]
  unfold State.irq
  extract_lets o v
  rw [h2]
  simp only [v]
  split
  · rfl
  · exact h1 s

/-- A flag leaves every register from 0x200 on that the log does not reach, but its own. -/
theorem flag_up {b i : Nat} (hi : i < 64) (hb : c ≠ b) (hl : logReg c = false) (hc : 0x200 ≤ c) : (s.flag b i).val c = s.val c := by
  unfold State.flag
  extract_lets k s1 s2
  have h1 : s1.val c = s.val c := by show ((s.setBit b i true).val c) = _; rw [State.val_setBit, if_neg hb]
  have h2 : s2.val c = s.val c := by
    simp only [s2]
    split
    · rw [(collide_logs (a := fltA FLT.HOVF) .refl).val c (ne_of_logReg hl) hl, h1]
    · exact h1
  split
  · rename_i x hx
    have := flagCause_lt (b := b) hi
    rw [hx, Option.getD_some] at this
    rw [irq_up _ this hc, h2]
  · exact h2

/-- A latch leaves every register below the engines' that the log does not reach. -/
theorem latch_low (w k : Nat) (hl : logReg c = false) (hc : 0x200 ≤ c) (hh : c < 0x080000) : (s.latch w k).val c = s.val c := by
  have n1 : ∀ v, c ≠ pstat v := fun v => by have := pstat_hi v; omega
  have n2 : ∀ v, c ≠ unitBase v + PU.LSTAT := fun v => by have := lstat_hi v; omega
  have n3 : ∀ v, c ≠ unitBase v + PU.CARRY := fun v => by have := unitBase_hi v; omega
  have one : ∀ (s : State) (v : Nat), (s.latchOne v k).val c = s.val c := fun s v => by
    unfold State.latchOne
    rw [setOut_other _ _ (n1 v) (n3 v), (showSources_val _).1 _ (n2 v), State.onUnit_val, flag_up _ (by decide) (n1 v) hl hc, State.val_setBit,
      if_neg (n2 v)]
  unfold State.latch
  generalize s.pairOf w = l
  induction l generalizing s with
  | nil => rfl
  | cons v l ih => exact (ih _).trans (one s v)

/-- A latch leaves the history. -/
theorem latch_hist (w k : Nat) : (s.latch w k).flt.hist = s.flt.hist := by
  have one : ∀ (s : State) (v : Nat), (s.latchOne v k).flt.hist = s.flt.hist := by
    intro s v
    have h1 : ∀ (t : State) (e : Bool), (t.setOut v e).flt = t.flt := by
      intro t e; unfold State.setOut; rcases t.outOf v with ⟨o, k⟩; dsimp only
      split <;> (try split) <;> simp
    have h2 : ∀ (l : List Nat) (p : Nat → Bool) (a : Nat) (t : State), (l.foldl (fun s k => if p k then s.setBit a k true else s) t).flt = t.flt := by
      intro l p a t
      induction l generalizing t with
      | nil => rfl
      | cons j l ih => refine (ih _).trans ?_; by_cases hp : p j = true <;> simp [hp]
    have h3 : ∀ (t : State) (f : PwmUnit → PwmUnit), (t.onUnit v f).flt = t.flt := fun t f => by unfold State.onUnit; split <;> rfl
    unfold State.latchOne
    rw [h1, State.showSources]
    split
    · rw [h2, h3, flag_hist]; rfl
    · rw [h3, flag_hist]; rfl
  unfold State.latch
  generalize s.pairOf w = l
  induction l generalizing s with
  | nil => rfl
  | cons v l ih => exact (ih _).trans (one s v)

/-- A unit is one of its pair. -/
theorem mem_pairOf (u : Nat) : u ∈ s.pairOf u := by
  unfold State.pairOf
  split
  · rename_i n hn
    split
    · rename_i e he
      have := List.find?_some he
      simpa using this
    · simp
  · simp

/-- Latches of a list of units with one source. -/
theorem latches_tripped (l : List Nat) (hk : k < 64) (h : u ∈ l) : Tripped (overList l (fun s u => s.latch u k) s) u k := by
  have key : ∀ (l : List Nat) (t : State), (u ∈ l ∨ Tripped t u k) → Tripped (overList l (fun s u => s.latch u k) t) u k := by
    intro l
    induction l with
    | nil => intro t h; rcases h with h | h; · simp at h
             exact h
    | cons w l ih =>
      intro t h
      by_cases e : u = w
      · subst e; exact ih _ (.inr (latch_tripped t hk (mem_pairOf t u)))
      · refine ih _ ?_
        rcases h with h | h
        · rcases List.mem_cons.mp h with h | h
          · exact absurd h e
          · exact .inl h
        · exact .inr (latch_mono t w k h)
  exact key l s (.inl h)

theorem latches_uf (l : List Nat) (k : Nat) : UF s (overList l (fun s u => s.latch u k) s) := uf_overList (fun t v => latch_uf t v k) s

theorem latches_hist (l : List Nat) (k : Nat) : (overList l (fun s u => s.latch u k) s).flt.hist = s.flt.hist := by
  unfold overList
  induction l generalizing s with
  | nil => rfl
  | cons v l ih => exact (ih _).trans (latch_hist s v k)

theorem Tripped.rf {t : State} (h : Tripped s u k) (g : ∀ c, 0x080000 ≤ c → t.val c = s.val c) : Tripped t u k :=
  h.of_val s (g _ (pstat_hi u)) (g _ (lstat_hi u))

end Sys2Proof.Machine
end

