-- ==== Sys2Proof/Tests/Slice0.lean ====
section
/-! SUPPORT. Small tests of one step each, the refusals of WellFormed, and a witness for every statement with hypotheses. -/

namespace Sys2Proof.Tests

open Sys2Proof Sys2Proof.Machine

/-- The state after a command satisfies a test. -/
def after (c : Instr) (s : State) (f : State → Bool) : Bool :=
  match exec c s with
  | .next t => f t
  | .fault _ => false
  | .refused _ => false


/-- A part that serves accesses, of which HPS is the master. -/
def up (s : State) : State := { s with pow := { s.pow with clearing := false, relClk := 28000 }, regs := [(0x060040, 0x1000)] }

/-- A power axis 3 in state x with a ready stage, its gains, limits and a valid yield source. -/
def armed (x : AxState) : State :=
  let img := { State.reset.img with active := true, map := vupd State.reset.img.map 3 (fun r => { r with role := 1, base := 0, options := 15, ysrc := 0 }) }
  ((((((((((((({ State.reset with img := img, stage := { State.reset.stage with toff := Vector.replicate 2 .high } } : State).onMot 3 (fun m => { m with st := x })).setBit protA 10 true).setBit (frcBase 0 + FRC.FSTAT) 15 true).wr
    (axBase 3 + AX.KP) 100).wr (axBase 3 + AX.VMAX) 100).wr (axBase 3 + AX.AMAX) 100).wr (axBase 3 + AX.DMAX) 100).wr (axBase 3 + AX.YAMAX) 100).wr
    (axBase 3 + AX.YGAIN) 100).wr (axBase 3 + AX.JOGV) 50).wr (axBase 3 + AX.RNOM) 9).wr (axBase 3 + AX.LNOM) 9).wr (gpioA GPIO.ENSTAT) 1

/-- IdleStepAnswers: an empty queue, and an empty queue in reset. -/
theorem wit_IdleStepAnswers : State.reset.pending = [] ∧
    (State.reset.onPow (fun p => { p with inReset := true })).pending = [] ∧ (State.reset.onPow (fun p => { p with inReset := true })).pow.inReset = true := by
  decide

/-- EveryStepKeepsCanon: the state after reset is in canonical form and steps. -/
theorem wit_EveryStepKeepsCanon : State.reset.Canon ∧ step State.reset = .next State.reset.idle := ⟨⟨by decide, by decide, by decide, by decide⟩, rfl⟩

/-- OtpOnlyGains: a state with a key slot, a revoked slot, a device key and the lock programmed, in reset, where a step changes nothing. -/
theorem wit_OtpOnlyGains : let s : State := { State.reset with
      bore := { Bore.start with keys := Vector.replicate 4 (some 5), revoked := Vector.replicate 4 true },
      wld := { World.start with dkey := some 7 }, pow := { Power.start with lock := true, inReset := true } }
    s.bore.keys[(3 : Fin 4)] = some 5 ∧ s.bore.revoked[(3 : Fin 4)] = true ∧ s.wld.dkey = some 7 ∧ s.pow.lock = true ∧
    s.pending = [] ∧ s.pow.inReset = true := by decide

/-- TimebaseTransitions: the four states of the timebase in which the four commands act. -/
theorem wit_TimebaseTransitions : let f (g : Timebase → Timebase) := State.reset.onTim g
    let a := f (fun t => { t with st := .acquire, goodRun := 8 })
    let b := f (fun t => { t with st := .locked, outRun := 4 })
    let c := f (fun t => { t with st := .locked, limRun := 16 })
    a.asleep = false ∧ a.tim.st = .acquire ∧ 8 ≤ a.tim.goodRun ∧ b.asleep = false ∧ b.tim.st = .locked ∧ 4 ≤ b.tim.outRun ∧
    c.asleep = false ∧ c.tim.st = .locked ∧ 16 ≤ c.tim.limRun := by decide

/-- SyncsAndPdelay: a locked slave with an outlier, the first of a run and the fourth. -/
theorem wit_SyncsAndPdelay : let a (k : Nat) := State.reset.onTim (fun t => { t with st := .locked, role := #v[.slave, .disabled], asCap := #v[true, false], outRun := k })
    (a 0).asleep = false ∧ (a 0).tim.role[(0 : Fin 2)] = .slave ∧ (a 0).tim.mute = false ∧ (a 0).servoFrozen 0 = false ∧ (a 0).tim.st = .locked ∧
    8 * (a 0).rd (timA TIM.LOCKTHR) < (100000 : Int).natAbs ∧ (a 0).tim.outRun < 3 ∧ (a 3).tim.outRun = 3 ∧ (a 3).servoFrozen 0 = false ∧
    8 * (a 3).rd (timA TIM.LOCKTHR) < (100000 : Int).natAbs := by decide

/-- MastersAndMessages: the part after reset serves all three; with its port 0 up as a master too. -/
theorem wit_MastersAndMessages : State.reset.asleep = false ∧
    let a := (State.reset.setBit (npStat 0) 15 true).onTim (fun t => { t with role := #v[.master, .disabled] })
    a.asleep = false ∧ a.portUp 0 = true ∧ a.tim.role[(0 : Fin 2)] = .master := by decide

/-- The servo: port 0 slave in ACQUIRE, and in LOCKED; the exchanges have no condition but to be awake. -/
theorem wit_ServoAndBestMaster : let u (x : TbState) : State := State.reset.onTim (fun t => { t with role := #v[.slave, .disabled], asCap := #v[true, false], st := x })
    ∀ x ∈ [TbState.acquire, .locked], (u x).asleep = false ∧ (u x).tim.role[(0 : Fin 2)] = .slave ∧ (u x).tim.mute = false ∧ (u x).servoFrozen 0 = false ∧ (u x).tim.st = x ∧
      (3 : Int).natAbs ≤ 1000 * (u x).rd (timA TIM.STEPTHR) ∧ (3 : Int).natAbs ≤ 8 * (u x).rd (timA TIM.LOCKTHR) := by decide

/-- TimeMoves: a step of 5 ns that is permitted, one of TIM.ADJ that is not, a slew with nothing left, and HPS with staged words. -/
theorem wit_TimeMoves : let a := (State.reset.onTim (fun t => { t with step := some 5 })).setBit (timA TIM.CTRL) 1 true
    let b := (State.reset.onTim (fun t => { t with step := some 5, stepAdj := true })).setBit (timA TIM.CTRL) 1 false
    let c := (up State.reset).onAcc 1 (fun x => { x with staged := [(timA TIM.RATE, ⟨0xFFFF, 7⟩), (timA TIM.ADJ, ⟨0xFFFF, 7⟩), (timA TIM.ADJ + 4, ⟨0xFFFF, 9⟩)] })
    a.asleep = false ∧ a.tim.step = some 5 ∧ a.stepPermitted = true ∧ b.asleep = false ∧ b.tim.step = some 5 ∧ b.stepPermitted = false ∧
    b.tim.stepAdj = true ∧ b.tim.slew = 0 ∧ c.ready = true ∧ c.pow.shelf ≠ .shelf ∧ c.violationOf 1 (timA TIM.RATE + 4) true = none ∧
    (c.acc[(1 : Fin 15)]).lostStage.contains (timA TIM.RATE) = false ∧ (c.acc[(1 : Fin 15)]).stagedFor (timA TIM.RATE) 2 = (0xFFFF, (7 : Word).toNat) ∧
    c.tim.st = .free ∧ c.violationOf 1 (timA TIM.ADJ + 8) true = none ∧ (c.acc[(1 : Fin 15)]).lostStage.contains (timA TIM.ADJ) = false ∧
    (c.acc[(1 : Fin 15)]).stagedFor (timA TIM.ADJ) 3 = (0xFFFFFFFF, (0x90007 : BitVec 32).toNat) := by decide

/-- TimeRegisters: HPS on a part that serves accesses. -/
theorem wit_TimeRegisters : (up State.reset).ready = true ∧ (up State.reset).pow.shelf ≠ .shelf ∧
    (up State.reset).violationOf 1 (timA TIM.PTPCFG) true = none ∧ (up State.reset).rd (timA TIM.PTPCFG) < 256 ∧ (up State.reset).flt.hardClr = [] ∧
    (up State.reset).violationOf 1 (timA TIM.OVBCLR) true = none := by decide

/-- TickBoundaryAndCommit: a part with tick edges on a 20 µs grid, whose grid point 0 is a boundary; an axis of no image may commit. -/
theorem wit_TickBoundaryAndCommit : let a := (State.reset.onTim (fun t => { t with ticking := true })).wr (timA TIM.TICKPER) 8000
    let b := State.reset.onAx 11 (fun x => { x with ctl := { x.ctl with committed := false } })
    a.asleep = false ∧ a.tim.ticking = true ∧ a.atBoundary = true ∧ b.asleep = false ∧ b.stage.halt = false ∧ b.mayCommit 11 = true := by decide

/-- A part that serves accesses, with `n` bytes in an open load buffer. -/
def opened (n : Nat) : State := up { State.reset with bore := { Bore.start with buf := .opened, bytes := List.replicate n 7 } }

/-- BoreCommands: HPS as the master, with an open buffer with room for two bytes. -/
theorem wit_BoreCommands : (opened 2).ready = true ∧ (opened 2).secureAcc (1 : Fin 15) = true ∧ (opened 2).isMaster (1 : Fin 15) = true ∧
    (opened 2).pow.shelf = .running ∧ (opened 2).bore.buf = .opened ∧ (opened 2).bore.bytes.length + 2 ≤ 65536 := by decide

/-- KeySlots: 32 bytes in an open buffer before a blank slot; and an open buffer that is too short. -/
theorem wit_KeySlots : (opened 32).ready = true ∧ (opened 32).secureAcc (1 : Fin 15) = true ∧ (opened 32).isMaster (1 : Fin 15) = true ∧
    (opened 32).pow.shelf = .running ∧ (opened 32).bore.buf = .opened ∧ 32 ≤ (opened 32).bore.bytes.length ∧
    (opened 32).bore.keys[(3 : Fin 4)] = none ∧ (opened 31).bore.buf = .opened ∧ (opened 31).bore.bytes.length < 32 := by decide

/-- A part that verifies a buffer. -/
def verifying (b : List Byte) : State := up { State.reset with bore := { Bore.start with buf := .verifying, bytes := b } }

/-- VerifyEnds: an empty buffer being verified, which fails a check; and a part that verifies nothing. -/
theorem wit_VerifyEnds : (verifying []).asleep = false ∧ State.reset.asleep = false ∧ (verifying []).bore.buf = .verifying ∧ (verifying []).bore.boot = false ∧ (verifying []).bore.apply = false ∧
    ((verifying []).checkImage []).isSome = true ∧ State.reset.bore.buf ≠ .verifying := by decide

/-- A pending image of three words; `patch` says that its type is 2. -/
def pendingImage (patch : Bool) : State := { State.reset with bore := { Bore.start with
  buf := .pending, bytes := List.replicate 6 0 ++ [if patch then 2 else 1] ++ List.replicate 13 0 } }
/-- ImagesApply: a pending full image, a pending patch of no axis and one of axis 0 in MOVE, and the part before its boot load. -/
theorem wit_ImagesApply : (pendingImage false).asleep = false ∧ (pendingImage false).bore.buf = .pending ∧ isPatch (pendingImage false).bore.bytes = false ∧
    (pendingImage false).allOff (List.range 12) = true ∧ (pendingImage true).asleep = false ∧ isPatch (pendingImage true).bore.bytes = true ∧ (pendingImage true).allOff (pendingImage true).bore.affected = true ∧
    (let s := ((pendingImage true).onBore (fun b => { b with affected := [0] })).onMot 0 (fun m => { m with st := .move })
     s.asleep = false ∧ s.bore.buf = .pending ∧ isPatch s.bore.bytes = true ∧ s.allOff s.bore.affected = false) ∧
    State.reset.asleep = false ∧ State.reset.img.active = false ∧ State.reset.bore.bootDone = false ∧ State.reset.bore.boot = false := by decide

/-- WorldCommands: HPS as the master of a part that serves accesses, session 7 open and secure, eight staged words and a blank key. -/
theorem wit_WorldCommands : let s := (up { State.reset with wld := { World.start with dkw := Vector.replicate 8 (some 1) } }).setBit (netsBase 7 + NETS.SSTAT) 15 true |>.setBit (netsBase 7 + NETS.SSTAT) 14 true
    s.ready = true ∧ s.pow.shelf ≠ .shelf ∧ s.secureAcc (1 : Fin 15) = true ∧ s.isMaster (1 : Fin 15) = true ∧ s.secureSession (7 : Fin 8) = true ∧
    s.wld.imageMap = false ∧ s.wld.mapDue = none ∧ s.wld.tokenDue = none ∧
    s.master_ = 1 ∧ s.wld.dkey = none ∧ s.wld.staged = true := by decide

/-- PlanEnds: a segment that has run out with another behind it; a plan toward 5 that is done; a Glide ramp to a fault that is done. -/
theorem wit_PlanEnds : let f (g : Motion → Motion) := State.reset.onMot 11 g
    let a := f (fun m => { m with segs := [⟨0, 0, 0, none, none⟩, ⟨3, 1, 0, none, none⟩], goal := .cruise })
    let b := f (fun m => { m with st := .move, segs := [], goal := .land 5 })
    let c := f (fun m => { m with st := .stopping, toFault := true, segs := [], goal := .rest })
    State.reset.asleep = false ∧ State.reset.stage.halt = false ∧ (a.mot 11).segEnds = true ∧ (b.mot 11).goal = .land 5 ∧
    (b.mot 11).planDone = true ∧ (b.mot 11).req = none ∧ (b.mot 11).eff = .move ∧ (c.mot 11).goal = .rest ∧ (c.mot 11).planDone = true ∧
    (c.mot 11).eff = .stopping := by decide

/-- LimitsAndTables: a replan in MOVE, a restart of a Hold stop, a limit passed, an armed time table under pnow, and a time table at its end. -/
theorem wit_LimitsAndTables : let f (g : Motion → Motion) := State.reset.onMot 11 g
    let a := f (fun m => { m with st := .move, replan := true })
    let b := f (fun m => { m with st := .stopping, restart := true })
    let c := f (fun m => { m with st := .move, pos := 6 * 2 ^ 32, soft := some (-5, 5), hiSeen := true })
    let d := ((f (fun m => { m with st := .follow })).onFol 11 (fun x => { x with mode := 3, armed := true, kind := 2 })).setBit (axBase 11 + AX.CFG) 4 true
    let e := (f (fun m => { m with st := .follow })).onFol 11 (fun x => { x with mode := 3, kind := 2 })
    a.asleep = false ∧ a.stage.halt = false ∧ (a.mot 11).req = none ∧ (a.mot 11).replan = true ∧ a.st 11 = .move ∧
    (b.mot 11).req = none ∧ (b.mot 11).replan = false ∧ (b.mot 11).restart = true ∧ b.st 11 = .stopping ∧ b.glide 11 = false ∧ (b.mot 11).toFault = false ∧
    c.limitPassed 11 = some 1 ∧ (c.mot 11).told = false ∧ c.pow.inReset = false ∧ c.flt.hist.length < 31 ∧
    d.st 11 = .follow ∧ (d.fol 11).mode = 3 ∧ (d.fol 11).armed = true ∧ (d.fol 11).newArm = false ∧ d.axb 11 AX.CFG 4 = true ∧
    e.st 11 = .follow ∧ (e.fol 11).kind = 2 ∧ (e.fol 11).armed = false ∧ (e.fol 11).tRep = false ∧
    e.ptX (e.fol 11).slot ((e.fol 11).tN - 1) ≤ e.tablePhi 11 (e.fol 11).t := by decide

/-- StepsAndTracking: a target in FOLLOW on a 20 µs tick; a follower of its STEP input; a pulse-out axis in MOVE one cell on, ready and not, and
with a pulse held. -/
theorem wit_StepsAndTracking : let a := ((State.reset.onMot 11 (fun m => { m with st := .follow })).onFol 11 (fun f =>
      { f with track := some (2 ^ 40, 5), mode := 1 })).wr (timA TIM.TICKPER) 8000
    let img := { State.reset.img with map := vupd State.reset.img.map 11 (fun r => { r with role := 3 }) }
    let b (age : Nat) (p : Nat) (k : Nat) := ((({ State.reset with img := img } : State).onMot 11 (fun m => { m with st := .move, pos := BitVec.ofNat 80 (p * 2 ^ 32) })).onFol
      11 (fun f => { f with outAge := age, outDir := true, outDirAge := 500 })).wr (axBase 11 + AX.BACKLOG) k
    a.asleep = false ∧ a.stage.halt = false ∧ (a.fol 11).track = some (2 ^ 40, 5) ∧ (a.mot 11).eff = .follow ∧ a.tpr ≠ 0 ∧ a.st 11 = .follow ∧
    (a.fol 11).mode = 1 ∧
    (b 5000 256 0).asleep = false ∧ (b 5000 256 0).stepEmits 11 = true ∧ (b 5000 256 0).stepCell 11 ≠ ((b 5000 256 0).fol 11).outCell ∧
    ((b 5000 256 0).stepCell 11 - ((b 5000 256 0).fol 11).outCell).natAbs = 1 ∧
    ((b 5000 256 0).fol 11).outDir = decide (0 < (b 5000 256 0).stepCell 11 - ((b 5000 256 0).fol 11).outCell) ∧
    (b 5000 256 0).rd (axBase 11 + AX.BACKLOG) = 0 ∧ 2 * (b 5000 256 0).axr 11 AX.PW ≤ ((b 5000 256 0).fol 11).outAge ∧
    (b 5000 256 0).axr 11 AX.DIRSU ≤ ((b 5000 256 0).fol 11).outDirAge ∧
    (b 0 256 0).stepEmits 11 = true ∧ ((b 0 256 0).fol 11).outAge < 2 * (b 0 256 0).axr 11 AX.PW ∧
    (b 5000 0 1).stepCell 11 = ((b 5000 0 1).fol 11).outCell ∧ 0 < (b 5000 0 1).rd (axBase 11 + AX.BACKLOG) := by decide

/-- AxisStateCommands: one power axis with a ready stage and its gains, in each of the states; the boot secure host sends. -/
theorem wit_AxisStateCommands : let a := fun x => (armed x).judged 3
    (armed .off).asleep = false ∧ (a .off).role 3 ≠ 0 ∧ (a .off).flt.imageBad = false ∧ (a .off).mayAccess 13 3 = true ∧ (a .off).st 3 = .off ∧
    (a .off).patchHolds 3 = false ∧ (a .off).bit (fltA FLT.STATUS) 15 = false ∧ (a .off).isPower 3 = true ∧ (a .off).gainMissing 3 = false ∧
    (a .off).stageReady 3 = true ∧ (a .off).checkFailed 3 = false ∧ ((a .off).axb 3 AX.FPCFG 2 && (a .off).bit (fpstat 3) 13) = false ∧
    (a .hold).st 3 = .hold ∧ ((a .hold).mot 3).toFault = false ∧ (a .mute).st 3 = .mute ∧ (a .fault).st 3 = .fault ∧ (a .fault).locked 3 = false ∧
    ((a .fault).recd 3).units.any (a .fault).tripActive = false ∧ (a .hold).opt 3 3 = true ∧ ((a .hold).recd 3).ysrc ≠ 0xFF ∧ (a .hold).axr 3 AX.YGAIN ≠ 0 ∧
    (a .hold).axr 3 AX.DMAX ≠ 0 ∧ (a .hold).axr 3 AX.YAMAX ≠ 0 ∧ (a .hold).enMissing 3 = false ∧ (a .hold).yieldValid 3 = true ∧
    (a .hold).pendantOn 3 = false ∧ (a .yield).st 3 = .yield := by decide

/-- AxisMotionCommands: one power axis with its limits, in each of the states; a target of 5, a distance of 7, a jog of 50. -/
theorem wit_AxisMotionCommands : let b := fun x => ((armed x).onMot 3 (fun m => { m with rem := 9 })).wr (axBase 3 + AX.TGT) 5
    let a := fun x => (b x).judged 3
    (b .hold).asleep = false ∧ (a .hold).role 3 ≠ 0 ∧ (a .hold).flt.imageBad = false ∧ (a .hold).mayAccess 13 3 = true ∧ ((a .hold).st 3).movable = true ∧
    (a .hold).absTarget 3 0 = some 5 ∧ (a .hold).limitsBad 3 = false ∧ satI 48 5 = 5 ∧ (a .hold).softBad 3 1 (some 5) = false ∧
    (a .hold).switchBad 3 1 = false ∧ (a .hold).pendantOn 3 = false ∧ ((a .hold).mot 3).ipos = 0 ∧ (a .hold).ax48 3 AX.TGT = 5 ∧
    (a .hold).rdI 40 (axBase 3 + AX.JOGV) = 50 ∧ 50 ≤ (a .hold).axr 3 AX.VMAX ∧ (a .hold).softBad 3 1 none = false ∧
    (a .paused).st 3 = .paused ∧ ((a .paused).mot 3).rem.toInt = 9 ∧ (a .paused).slOn 3 = false ∧ (a .paused).limitsBad 3 = false ∧
    (a .paused).switchBad 3 1 = false ∧ (a .paused).pendantOn 3 = false ∧
    (a .move).st 3 = .move ∧ (a .follow).st 3 = .follow ∧ (a .homing).st 3 = .homing ∧ (a .stopping).st 3 = .stopping ∧
    ((a .stopping).mot 3).toFault = false := by decide

/-- FollowHomeAndSetpos: an axis in HOLD, of which the pins 0 and 1 step, the entry 5 is in use, and axis 4 has a role; home pins; HPS commits. -/
theorem wit_FollowHomeAndSetpos : let a := (armed .hold).judged 3
    let b := (((((armed .hold).wr (axBase 3 + AX.GSRC) (16384 + 5)).setBit (subBase 5 + SUB.SSTAT) 15 true).wr (subBase 5 + SUB.SEL) 3).judged 3)
    let c := (((((armed .hold).wr (axBase 3 + AX.STEPIN) 256).wr (gpioA GPIO.FUNC) 0x4000).wr (gpioA GPIO.FUNC + 4) 0x4000).judged 3)
    let d := (((({ armed .hold with img := { (armed .hold).img with map := vupd (armed .hold).img.map 4 (fun r => { r with role := 1 }) } } : State).wr
      (axBase 3 + AX.GSRC) 4)).judged 3)
    let e := ((((armed .hold).wr (hmBase 3 + HM.HVSLOW) 1).wr (hmBase 3 + HM.HVFAST) 2).wr (gpioA GPIO.FUNC) 0x1300).judged 3
    let f := (up (armed .off)).onAcc 1 (fun x => { x with staged := [(axBase 3 + AX.SETPOS, ⟨0xFFFF, 7⟩), (axBase 3 + AX.SETPOS + 4, ⟨0xFFFF, 9⟩)] })
    a.st 3 = .hold ∧ a.limitsBad 3 = false ∧ a.pendantOn 3 = false ∧ a.limitOn 3 0 = false ∧ a.limitOn 3 1 = false ∧ a.mayAccess 13 3 = true ∧
    b.axr 3 AX.GSRC / 16384 = 1 ∧ b.entryOk (b.axr 3 AX.GSRC % 1024) = true ∧ b.st 3 = .hold ∧
    Machine.fld (c.axr 3 AX.STEPIN) 12 8 = (1 : Fin 24) ∧ Machine.fld (c.axr 3 AX.STEPIN) 4 0 = (0 : Fin 24) ∧ c.img.active = true ∧ c.pinCode 1 = 0x40 ∧
    c.pinCode 0 = 0x40 ∧ c.limitOn 3 0 = false ∧ c.pendantOn 3 = false ∧
    d.axr 3 AX.GSRC / 16384 = 0 ∧ d.axr 3 AX.GSRC % 1024 = (4 : Fin 12) ∧ d.role 4 ≠ 0 ∧ d.gearLoop 3 12 4 = false ∧ d.secureBlock 3 = d.secureBlock 4 ∧
    e.homePinMissing 3 1 = false ∧ e.rd (hmBase 3 + HM.HVSLOW) ≠ 0 ∧ e.rd (hmBase 3 + HM.HVSLOW) ≤ e.rd (hmBase 3 + HM.HVFAST) ∧
    e.switchBad 3 (e.homeFirst 3 1) = false ∧ e.st 3 = .hold ∧
    f.ready = true ∧ f.violationOf 1 (axBase 3 + AX.SETPOS + 8) true = none ∧ (f.acc[(1 : Fin 15)]).lostStage.contains (axBase 3 + AX.SETPOS) = false ∧
    (f.acc[(1 : Fin 15)]).stagedFor (axBase 3 + AX.SETPOS) 3 = (0xFFFFFFFF, (0x90007 : BitVec 32).toNat) ∧ f.isOff 3 = true ∧
    (up (armed .hold)).isOff 3 = false := by decide

/-- CurrentLoopAndWatch: an energised axis whose loop runs, with and without runs of the watches that reach OWN. -/
theorem wit_CurrentLoopAndWatch : let a := armed .hold
    let b := fun (r : Vector Nat 4) => ((a.onCtl 3 (fun c => { c with openRun := r })).wr (devA DEV.OWN) 5).wr (axBase 3 + AX.FPCFG) 0
    a.asleep = false ∧ a.stage.halt = false ∧ a.loopRuns 3 = true ∧ a.pow.inReset = false ∧ (b #v[5, 0, 0, 0]).openNow 3 = (true, false) ∧
    (b #v[0, 5, 0, 0]).openNow 3 = (false, true) ∧ (b #v[5, 5, 0, 0]).openNow 3 = (true, true) ∧ (b #v[5, 5, 0, 0]).axb 3 AX.FPCFG 0 = false ∧
    ((b #v[0, 0, 5, 0]).ctl 3).openRun[2] = (b #v[0, 0, 5, 0]).rdu (devA DEV.OWN) ∧ ((b #v[0, 0, 5, 0]).ctl 3).openRun[3] ≠ (b #v[0, 0, 5, 0]).rdu (devA DEV.OWN) ∧
    (b #v[0, 0, 5, 0]).flt.hist.length < 32 ∧ (armed .mute).loopRuns 3 = false := by decide

/-- Divergences: each loop with a run of 4096 updates at its limit. -/
theorem wit_Divergences : let l : Learn := ⟨0, [], 4096⟩
    let a := (State.reset.onCtl 11 (fun c => { c with trk := c.trk.set 3 l, det := c.det.set 5 l, sbl := c.sbl.set 15 l })).onUnit 47 (fun x => { x with dtr := l, dll := l })
    let b := ((a.wr (unitBase 47 + PU.DTMAX) 0).onCmps (fun k => { k with az := k.az.set 100 ⟨0, [], 4096⟩ })).onNp 1 (fun p => { p with runs := Vector.replicate 3 4096 })
    b.asleep = false ∧ b.trkDiverged 11 = some 3 ∧ (b.ctl 11).det.toList.findIdx? Learn.diverged = some 5 ∧
    (b.ctl 11).sbl.toList.findIdx? Learn.diverged = some 15 ∧ b.dtDiverged 47 = true ∧ (b.unit 47).dll.diverged = true ∧ b.azDiverged 100 = true ∧
    b.eqDiverged 1 = true ∧ b.pow.inReset = false ∧ b.flt.hist.length < 32 := by decide

/-- StallYieldDemod: an energised axis whose monitor runs, one with a stall due, one that yields in each of the three ways, and a port with a window. -/
theorem wit_StallYieldDemod : let a := ((armed .hold).wr (timA TIM.TICKPER) 8000).setBit (axBase 3 + AX.STLCFG) 4 true
    let b := a.onCtl 3 (fun c => { c with stallDue := some 2 })
    let y := (armed .yield).wr (axBase 3 + AX.YFMAX) 500
    let z := (y.wr (frcBase 0 + FRC.FORCE) 501)
    let p := { a with ports := vupd a.ports 7 (fun q => { q with sel := some 2 }) }
    a.asleep = false ∧ a.stage.halt = false ∧ a.stallRuns 3 = true ∧ a.energised 3 = true ∧ (a.ctl 3).quiet = none ∧ b.st 3 = .hold ∧
    (b.ctl 3).stallDue = some 2 ∧ b.flt.hist.length < 32 ∧ b.pow.inReset = false ∧ y.st 3 = .yield ∧ y.bit (ystat 3) 15 = false ∧ y.yieldValid 3 = true ∧
    (y.yieldSrc 3 - y.axu16 3 AX.YBIAS).natAbs ≤ y.axu 3 AX.YFMAX ∧ (y.setBit (ystat 3) 15 true).bit (ystat 3) 15 = true ∧
    z.axu 3 AX.YFMAX < (z.yieldSrc 3 - z.axu16 3 AX.YBIAS).natAbs ∧ z.axub 3 AX.YCFG 10 = false ∧ (p.ports[(7 : Fin 8)]).sel = some 2 := by decide

/-- PwmUnits: a switching lead unit; a GD unit with a due refresh; an unfrozen delay line; the halt; a latched unit. -/
theorem wit_PwmUnits : let a := (up (armed .hold)).setFld (pstat 0) 5 4 0
    let b := (((a.wr (unitBase 47 + PU.REFN) 3).onUnit 47 (fun x => { x with full := 3 }))).setFld (pstat 47) 5 4 0
    let l := (up State.reset).setBit (pstat 5) 15 true
    a.asleep = false ∧ a.unitAxis 0 = some 3 ∧ a.switching 0 = true ∧ a.isPartner 0 = false ∧ a.pairOf 0 = [0] ∧
    b.pulseDue 47 = true ∧ (b.unit 47).pulse = false ∧ a.stage.halt = false ∧ ({ a with stage := { a.stage with halt := true } } : State).asleep = false ∧
    State.reset.stage.dieForm[(47 : Fin 48)] = 1 ∧ l.ready = true ∧ l.pow.shelf ≠ .shelf ∧ l.violationOf 0 (pstat 5) true = none ∧ l.bit (pstat 5) 15 = true ∧
    l.pairOf 5 = [5] ∧ l.flt.setNow = [] ∧ (({ l with stage := { l.stage with guard := l.stage.guard.set 5 1 } } : State)).tripActive 5 = true ∧
    (l.setBit protA 10 true).tripActive 5 = false ∧ (l.setBit protA 10 true).violationOf 0 (pstat 5) true = none := by decide

/-- Observation: an axis with every option that observes, is aligned, recovers its sensor, injects and probes. -/
theorem wit_Observation : let a := ((armed .hold).wr (timA TIM.TICKPER) 8000).wr (axBase 3 + AX.OCFG) 0x20C
    let b := fun (f : Ctl → Ctl) => a.onCtl 3 f
    let p := { a with img := { a.img with map := vupd a.img.map 3 (fun r => { r with port := 0 }) } }
    let q := p.setBit (prtBase 0 + PRT.PSTAT) 15 true
    let r := ((q.onCtl 3 (fun c => { c with sLost := true, sGood := 60000, sPrev := some 7 })).setBit (ostat 3) 10 true)
    let d := (((a.wr (axBase 3 + AX.VOBS) 9).onCtl 3 (fun c => { c with injWait := 60000, tLast := 60000 })).wr (axBase 3 + AX.TRKPROBE) 5).setBit (axBase 3 + AX.ICFG) 8 true
    let e := overList (d.recd 3).units (fun s u => s.setBit (unitBase u + PU.PCFG) 5 false) { d with img := { d.img with map := vupd d.img.map 3 (fun r => { r with options := 31 }) } }
    a.asleep = false ∧ a.stage.halt = false ∧ a.obsRuns 3 = true ∧ (a.ctl 3).vSkip = false ∧ a.tpr ≠ 0 ∧ (a.ctl 3).injI.length < 7 ∧
    a.axr 3 AX.OBSN ≤ ((b (fun c => { c with obsRun := 60000 })).ctl 3).obsRun ∧ (a.ctl 3).obsValid = false ∧
    4 ≤ ((b (fun c => { c with errRun := 4, obsValid := true })).ctl 3).errRun ∧ ((b (fun c => { c with reinit := some 0 })).ctl 3).reinit = some 0 ∧
    (r.ctl 3).sPrev = some 7 ∧ r.axb 3 AX.OCFG 9 = true ∧ q.bit (ostat 3) 9 = false ∧ r.st 3 = .hold ∧ (r.ctl 3).frame = false ∧ r.sensMarked 3 = false ∧
    (r.ctl 3).sLost = true ∧ r.bit (ostat 3) 10 = true ∧ r.axr 3 AX.SRECOV ≤ (r.ctl 3).sGood ∧ r.sensBack 3 = true ∧ (r.ctl 3).src = 0 ∧ r.pickSource 3 = 1 ∧
    d.burstDue 3 = true ∧ e.probeDue 3 = true := by decide

/-- LegsTrip: a leg and a channel whose low sides are on see a current far above their thresholds; no latch is set and the history has room. -/
theorem wit_LegsTrip : let s := overList [39, 47] (fun s u => s.onUnit u (fun x => { x with lo := true })) (up State.reset)
    let x : Excess := ⟨100000, 60000, 60000⟩
    s.asleep = false ∧ ((s.gates 39).1 || (s.gates 39).2) = true ∧ 125 * s.rd (unitBase (s.leadOf 39) + PU.OCTHR) < 2 * x.level ∧ s.qualified 39 x = true ∧
    (s.gates 47).2 = true ∧ 25 * s.rd (unitBase 47 + PU.VDSTHR) < x.level ∧ s.qualified 47 x = true ∧
    s.bit (pstat 39) 15 = false ∧ s.bit (pstat 47) 15 = false ∧ s.pow.inReset = false ∧ s.flt.hist.length < 32 := by decide

/-- SuppliesTrip: a channel whose high side is on long after GLg; the charge pump up, armed and running. -/
theorem wit_SuppliesTrip : let s := ((up State.reset).onStage (fun g => { g with pump := true, cpArmed := true })).setBit protA 10 true
    let b := s.onUnit 47 (fun x => { x with hi := true, offLow := 800 })
    s.asleep = false ∧ (b.gates 47).1 = true ∧ 800 ≤ (b.unit 47).offLow ∧ 3000 < 100 * b.rd (unitBase 47 + PU.BUVTHR) ∧
    s.bit protA 10 = true ∧ s.stage.cpArmed = true ∧ s.stage.pump = true ∧ s.pow.inReset = false ∧ s.flt.hist.length < 32 := by decide

/-- InputsAndGovernor: an enabled resolved trip input, torque-off inputs that differ, and an axis on internal legs. -/
theorem wit_InputsAndGovernor : let s := (((up (armed .hold)).setBit (devA DEV.TRIPCFG + 12) 14 true).onStage (fun g => { g with trip := Vector.replicate 4 .low }))
    let d := s.onStage (fun g => { g with toff := #v[.low, .high] })
    s.asleep = false ∧ s.fld (devA DEV.TRIPCFG + 12) 11 8 ≤ 15 ∧ s.stage.trip[(3 : Fin 4)] ≠ .unres ∧ s.bit (devA DEV.TRIPCFG + 12) 14 = true ∧
    s.stage.toff[(0 : Fin 2)] = .high ∧ d.stage.toff[(0 : Fin 2)] ≠ d.stage.toff[(1 : Fin 2)] ∧ d.stage.toffSaid = false ∧ d.pow.inReset = false ∧ d.flt.hist.length < 32 ∧
    3 ∈ s.governed := by decide

/-- PinsAndHoming: reset with its intervals about to end; an open window; contacts that differ; an axis between its phases, far from the start of one. -/
theorem wit_PinsAndHoming : let a := up State.reset
    let b : State := { a with pins := { a.pins with gpLeft := some 0, dedLeft := some 0, win := a.pins.win.set 23 (some (60000, 300)) } }
    let e := ({ (armed .hold) with pins := { a.pins with res := Vector.replicate 24 true, newRes := Vector.replicate 24 none, qual := Vector.replicate 24 true, lvl := Vector.replicate 24 true } } : State).wr (gpioA GPIO.FUNC) 0x6000
    let f := (e.wr (gpioA GPIO.FUNC + 4) 0x6102).wr (gpioA GPIO.ENSTAT) 4
    let h := (armed .homing).onHom 3 (fun h => { h with mode := .stop, m := 1 })
    let l : Leg := ⟨2, 1, true, [⟨0, false, 1⟩], false, false⟩
    a.asleep = false ∧ a.pins.res[(23 : Fin 24)] = false ∧ a.pinAna 23 = false ∧ b.pins.gpLeft.isSome = true ∧ a.stage.toff[(1 : Fin 2)] = .unres ∧ a.stage.trip[(3 : Fin 4)] = .unres ∧
    b.pins.gpLeft = some 0 ∧ b.pins.dedLeft = some 0 ∧ b.pins.win[(23 : Fin 24)] = some (60000, 300) ∧ b.rd (gpioA GPIO.CHATWIN) < 60000 ∧ b.fld (gpioA GPIO.DEB + 4 * 23) 15 8 < 300 ∧
    b.pow.inReset = false ∧ b.flt.hist.length < 32 ∧ f.enLevels.1 ≠ f.enLevels.2.1 ∧ f.fld (gpioA GPIO.ENSTAT) 1 0 ≠ 3 ∧ f.bit (gpioA GPIO.ENSTAT) 2 = true ∧
    h.st 3 = .homing ∧ (h.hom 3).mode = .stop ∧ (h.mot 3).req = none ∧ (h.mot 3).vel = 0 ∧ (h.mot 3).segs = [] ∧ (h.hom 3).todo = [] ∧ (h.hom 3).m ≠ 6 ∧
    ((h.onHom 3 (fun h => { h with todo := [.leg l] })).hom 3).todo = [.leg l] ∧ ((h.onHom 3 (fun h => { h with p0 := 11 })).wr (hmBase 3 + HM.HMAXD) 10).homeFar 3 = true := by decide

/-- Excitation: an enabled driver, running, settled, open, short; a test that passes and one that fails; a port with eight passes. -/
theorem wit_Excitation : let a := ((up (armed .hold)).wr (excBase 3 + EXC.ECFG) 1)
    let r := { a with excs := vupd a.excs 3 (fun e => { e with run := true }) }
    let c := { a with excs := vupd a.excs 3 (fun e => { e with run := true, settleAt := some 5 }), ports := vupd a.ports 7 (fun q => { q with pass := 8 }) }
    a.asleep = false ∧ a.excOn 3 = true ∧ (r.excs[(3 : Fin 4)]).run = true ∧ (r.excs[(3 : Fin 4)]).settleAt = none ∧ r.rd (excBase 3 + EXC.IOMIN) ≤ 65535 % 65536 ∧
    (c.excs[(3 : Fin 4)]).settleAt.isSome = true ∧ c.bit (estat 3) 14 = false ∧ (c.setBit (estat 3) 14 true).bit (estat 3) 14 = true ∧
    (if (c.excs[(3 : Fin 4)]).missing then c.rd (excBase 3 + EXC.IOMIN) else cdiv (c.rd (excBase 3 + EXC.IREF)) 2) ≤ 65535 ∧
    c.pow.inReset = false ∧ c.flt.hist.length < 32 ∧ a.ready = true ∧ a.pow.shelf ≠ .shelf ∧ (a.setBit (estat 3) 15 true).violationOf 0 (estat 3) true = none ∧
    (a.setBit (estat 3) 15 true).bit (estat 3) 15 = true ∧ a.flt.setNow = [] ∧ drvOf 7 = 3 ∧ c.ampTest 7 ((c.rdu (prtBase 7 + PRT.AMIN))) 0 0 false false = 0 ∧
    c.ampTest 7 0 0 0 true false ≠ 0 ∧ 8 ≤ (c.ports[(7 : Fin 8)]).pass ∧ c.bit (estat (drvOf 7)) 14 = false := by decide

/-- Force channels: channel 0 enabled with a quiet run, samples over and under its thresholds, and an accessor that reaches it. -/
theorem wit_ForceAndTouch : let a := (((up (armed .hold)).wr (frcBase 0 + FRC.FCFG) 0xA0).wr (frcBase 0 + FRC.TN) 4).onFrc 0 (fun g => { g with quiet := 5000000, on := 4, off := 4 })
    let j := (a.onFrc 0 (fun g => { g with cmd := none })).setBit (fstat 0) 5 false
    a.asleep = false ∧ a.autoResetDue 0 = true ∧ a.bit (fstat 0) 14 = false ∧ a.frcOn 0 = true ∧ a.rd (frcBase 0 + FRC.TN) ≤ (a.frcs[(0 : Fin 8)]).on ∧
    (a.setBit (fstat 0) 14 true).bit (fstat 0) 14 = true ∧ (a.setBit (fstat 0) 14 true).rd (frcBase 0 + FRC.TN) ≤ ((a.setBit (fstat 0) 14 true).frcs[(0 : Fin 8)]).off ∧
    j.mayAccess 13 24 = true ∧ j.frcOn 0 = true ∧ j.bit (fstat 0) 14 = false ∧ (j.frcs[(0 : Fin 8)]).resetting = 0 ∧ j.yieldSource 0 = false ∧ (3 : Byte).toNat ≤ 3 := by decide

/-- Modulators: modulator 6 runs, with no failure and with three; it is dead beside axis 3 in MUTE. -/
theorem wit_Modulators : let a := (up (armed .mute)).onMod 6 (fun m => { m with running := true })
    let f := a.onMod 6 (fun m => { m with fails := [1, 2, 3] })
    let d := a.onMod 6 (fun m => { m with dead := true })
    let v : Interval := ⟨0, 0, 25600, 100, 0, 0, false⟩
    a.asleep = false ∧ (a.modu 6).running = true ∧ (a.modu 6).dead = false ∧ v.s1.natAbs ≤ 256 ∧ ((v.n : Int) * 256 - v.p).natAbs ≤ 256 ∧ a.bit (mstat 6) 10 = false ∧
    (a.modu 6).fails.length < 3 ∧ ¬ (f.modu 6).fails.length < 3 ∧ (f.modu 6).running = true ∧ (f.modu 6).dead = false ∧ d.ready = true ∧ d.pow.shelf ≠ .shelf ∧
    d.violationOf 0 (modbA MODB.MCLR) true = none ∧ (d.modu 6).dead = true ∧ d.modAxis 0 = some (3, 0) ∧ d.st 3 = .mute := by decide

/-- Converters: converter 0 with a sequence of one entry, an urgent request, a recheck under way; converter 0 out. -/
theorem wit_Converters : let a := up (armed .hold)
    let a : State := { a with img := { a.img with sar := [[0x0503], []] } }
    let q := a.onAdc 0 (fun d => { d with queue := [(true, 5)], recheck := true })
    let o := a.setFld (astat 0) 15 14 3
    a.asleep = false ∧ a.img.active = true ∧ a.adcRole 0 = 0 ∧ a.seqOf 0 ≠ [] ∧ entInput (((a.seqOf 0)[(a.adcs[(0 : Fin 2)]).pos % (a.seqOf 0).length]?).getD 0) ≠ 63 ∧
    (q.adcs[(0 : Fin 2)]).queue = (true, 5) :: [] ∧ q.adcRole 0 < 2 ∧ (5 : Byte).toNat < 49 ∧ (q.adcs[(0 : Fin 2)]).hostTaken = false ∧ (q.adcs[(0 : Fin 2)]).queue.length < 4 ∧ 2 ≤ o.adcRole 0 ∧
    (q.adcs[(0 : Fin 2)]).recheck = true ∧ a.adcRole (otherAdc 0) = 0 ∧ (a.adcs[(0 : Fin 2)]).held = [] := by decide

/-- Window monitors: a part at rest, with every supply in its window and the die's event armed. -/
theorem wit_WindowMonitors : State.reset.asleep = false ∧ State.reset.bit (cmpA CMP.WSTAT) 9 = false ∧ State.reset.bit (cmpA CMP.WSTAT) 1 = false ∧ State.reset.bit (cmpA CMP.WSTAT) 5 = false ∧
    State.reset.bit (cmpA CMP.WSTAT) 12 = false ∧ State.reset.cmps.dieArmed = true ∧ State.reset.pow.inReset = false ∧ State.reset.flt.hist.length < 32 := by decide

/-- Comparators: CMP 0 on with a free and with a held output; the trim of comparator 60 one sample short of a step; a wake input enabled in operation and in the shelf state. -/
theorem wit_ComparatorsAndSelfCheck : let a := up (armed .hold)
    let o : State := { a with pins := { a.pins with ana := a.pins.ana.set 16 true } }
    let h := o.onCmps (fun c => { c with hold := c.hold.set 0 5 })
    let z := (a.onCmps (fun c => { c with az := c.az.set 60 ⟨3, [], 0⟩ })).setBit (azA 60) 15 true
    let w := a.setBit (cmpA CMP.WCFG) 13 true
    let p : State := { w with pow := { w.pow with shelf := .shelf } }
    a.asleep = false ∧ o.cmpOn 0 = true ∧ o.bit (cstat 0) 13 = !true ∧ o.cmps.hold[(0 : Fin 8)] = 0 ∧ 0 < h.cmps.hold[(0 : Fin 8)] ∧ z.azFrozen 60 = false ∧
    z.cmps.tests.any (fun t => t.1 == 60) = false ∧ (z.cmps.az[(60 : Fin 101)]).acc + 1 = 4 ∧ a.testable 60 = true ∧ a.bit (azA 60) 10 = false ∧ a.pow.inReset = false ∧
    w.bit (cmpA CMP.WCFG + 4 * 0) 13 = true ∧ w.bit (cmpA CMP.WKSTAT) 13 = false ∧ p.pow.shelf = .shelf ∧ w.pow.shelf ≠ .shelf ∧ a.ready = true ∧
    a.violationOf 1 (cmpA CMP.STCMD) true = none ∧ a.mayAccess 1 (azBlock 60) = true ∧ a.cmps.stAcc = none := by decide

/-- Unplug and identify: an armed axis 3 with hot-plug detection, at rest after a touch, probing in MUTE and UNPLUGGED, open in the loop, and at the end of identification with measured and open windings. -/
theorem wit_HotplugAndIdentify : let q (x : AxState) (f : People → People) : State := ((armed x).wr (axBase 3 + AX.FPCFG) 1).onPpl 3 f
    let r := (((armed .hold).wr (axBase 3 + AX.TRETR) 5).onPpl 3 (fun p => { p with retract := some 1 }) : State)
    let o := (((armed .hold).wr (axBase 3 + AX.FPCFG) 1).onCtl 3 (fun c => { c with openRun := Vector.replicate 4 16 }) : State)
    let i := (((armed .identify).setFld (fpstat 3) 10 8 1).wr (axBase 3 + AX.IDCUR) 800 : State)
    let z : IdWinding := ⟨63, 0, 0, 0, 0, 0⟩
    let w : IdWinding := ⟨64, 1000, 800, 51200, 400, -400⟩
    let a := (((armed .mute).setFld (fpstat 3) 10 8 2) : State)
    (armed .hold).asleep = false ∧ ((armed .hold).ppl 3).retract = none ∧ (r.ppl 3).retract = some 1 ∧ r.st 3 = .hold ∧ (5 : Int) = (r.mot 3).ipos + 1 * r.axr 3 AX.TRETR ∧
    r.slOn 3 = false ∧ (5 : Int) ≠ (r.mot 3).ipos ∧ satI 48 (5 : Int) = 5 ∧ r.limitOn 3 1 = false ∧ r.axr 3 AX.VMAX ≠ 0 ∧ r.axr 3 AX.AMAX ≠ 0 ∧ r.axr 3 AX.DMAX ≠ 0 ∧
    (q .mute (fun p => { p with probe := some 0 })).probeRuns 3 = true ∧ ((q .mute (fun p => { p with probe := some 0 })).ppl 3).probe = some 0 ∧
    o.hotPlug 3 = true ∧ o.energised 3 = true ∧ o.openNow 3 = (true, true) ∧
    (q .mute (fun p => { p with probes := 3 })).energised 3 = false ∧ (q .mute (fun p => { p with probes := 3 })).st 3 = .mute ∧
    (q .unplugged (fun p => { p with probes := 3 })).st 3 = .unplugged ∧ (q .unplugged (fun p => { p with probes := 3 })).probeRuns 3 = true ∧
    ((armed .unplugged).wr (axBase 3 + AX.FPCFG) 0).axb 3 AX.FPCFG 0 = false ∧ ((armed .unplugged).wr (axBase 3 + AX.FPCFG) 0).st 3 = .unplugged ∧ i.st 3 = .identify ∧ i.fld (fpstat 3) 10 8 = 1 ∧ (i.identify 3 w).isSome = true ∧ i.identify 3 z = none ∧ i.axr 3 AX.RNOM ≠ 0 ∧ i.axr 3 AX.LNOM ≠ 0 ∧
    (i.wr (axBase 3 + AX.RNOM) 0).axr 3 AX.RNOM = 0 ∧ a.isPower 3 = true ∧ a.st 3 = .mute ∧ a.fld (fpstat 3) 10 8 = 2 := by decide

/-- Links: port 1 enabled with signal and sync, up, down, frozen and acquiring. -/
theorem wit_LinksAndEqualiser : let a := ((up State.reset).setBit (netpBase 1 + NETP.PCFG) 15 true).setBit (netpBase 1 + NETP.EQ) 15 true
    let d : State := (a.setBit (npStat 1) 13 true).setBit (npStat 1) 14 false
    let u : State := d.setBit (npStat 1) 15 true
    let q : State := (a.setBit (npStat 1) 13 false).setBit (npStat 1) 14 false
    a.asleep = false ∧ d.portUp 1 = false ∧ d.portEn 1 = true ∧ d.bit (npStat 1) 13 = true ∧ d.bit (npStat 1) 14 = false ∧ d.flt.injLink.testBit 1 = false ∧ d.pow.inReset = false ∧
    d.pow.shelf ≠ .shelf ∧ u.portUp 1 = true ∧ d.eqFrozen 1 = false ∧ q.eqFrozen 1 = false ∧ q.bit (npStat 1) 13 = false ∧ (q.setBit (npStat 1) 14 true).eqFrozen 1 = true := by decide

/-- Frames: both ports up; a foreign, a reserved and two Jisil frames (of node 5 itself and a reply of node 9); a used entry 0 on item 1 of node 9; a frame that waits, a publication that was built, and HPS at UCMT. -/
theorem wit_FramesAndCycles : let a := (((((up State.reset).setBit (npStat 0) 15 true).setBit (npStat 1) 15 true).wr (netA NET.ADDR) 5).wr (netA NET.ETYPE) 0x88B5).wr (netA NET.VID) 0
    let f : List Byte := List.replicate 60 1
    let r : List Byte := beBytes 6 0x0180C2000001 ++ List.replicate 54 1
    let j (src : Nat) : List Byte := beBytes 6 0x034A53010007 ++ beBytes 6 1 ++ beBytes 2 0x88B5 ++ [0x13, 4] ++ beBytes 2 src ++ beBytes 2 7 ++ List.replicate 50 0
    let e : State := (((a.wr (subBase 0 + SUB.SRC_L) (9 * 64 + 1)).wr (subBase 0 + SUB.SRC_H) 0xF000).wr (subBase 0 + SUB.SEL) 1).wr (subBase 0 + SUB.SSTAT) 0x8000
    let q : State := a.onNp 1 (fun x => { x with txq := [⟨2, f, false, 8⟩] })
    let b : State := a.onNet (fun x => { x with built := some (5, 1, [3]), txLeft := 0 })
    (a.asleep = false ∧ a.portUp 0 = true ∧ (up State.reset).portUp 0 = false ∧ f.length = 60 ∧ (a.net.port[(1 : Fin 2)]).hold + 60 + 4 ≤ 16384 ∧ (a.net.port[(1 : Fin 2)]).hold ≤ queueLimit (foreignQueue f)) ∧
    (¬ (0x0180C2000000 ≤ beNat (f.take 6) ∧ beNat (f.take 6) ≤ 0x0180C200000F) ∧ a.jisilAt f = none) ∧ (0x0180C2000000 ≤ beNat (r.take 6) ∧ beNat (r.take 6) ≤ 0x0180C200000F ∧ beNat (r.take 6) ≠ 0x0180C200000E ∧ r.length = 60) ∧
    ((j 5).length = 70 ∧ a.jisilAt (j 5) = some 14 ∧ a.devAddr ≠ 0 ∧ u16 (j 5) 16 % 32768 = a.devAddr) ∧ (a.jisilAt (j 9) = some 14 ∧ u16 (j 9) 16 % 32768 ≠ a.devAddr ∧ u16 (j 9) 18 % 32768 ≠ a.devAddr ∧
    byteAt (j 9) 14 % 16 = 3 ∧ byteAt (j 9) 15 ≠ 0) ∧ ((1 : BitVec 32) ≠ a.tim.cyc ∧ (0 : BitVec 32) = e.tim.cyc ∧ 9 ∉ e.net.seen ∧ 0 ∈ e.subsUsed ∧ e.subEp 0 / 64 = 9 ∧ e.subSusp 0 = false ∧ 0 ∉ e.flt.subBad ∧
    e.net.pend.any (fun x => x.1 == 0) = false ∧ e.subEp 0 % 64 = 1 ∧ (e.subValue 0 [7]).isSome = true) ∧ ((popFrame (q.net.port[(1 : Fin 2)]).txq).isSome = true ∧ q.portUp 1 = true) ∧
    (b.net.built = some (5, 1, [3]) ∧ b.net.txLeft = 0 ∧ 0 < (b.onNet (fun x => { x with txLeft := 4 })).net.txLeft) ∧ (a.ready = true ∧ a.violationOf 1 (netA NET.UCMT) true = none) := by decide

/-- Address protocol: claiming node 5 with its wait over, before and after the third CLAIM; a confirmed manager; a node whose third REQUEST had no answer; and HPS at an unaddressed node with a port up. -/
theorem wit_AddressProtocol : let a := up State.reset
    let c (k : Nat) : State := (a.setAstate 1).onNet (fun x => { x with cand := 5, claims := k, claimClk := 4000000 })
    let m : State := ((a.setAstate 3).wr (netA NET.ADDR) 5).setBit (netA NET.CFG) 0 true
    let q (k : Nat) : State := (a.setAstate 2).onNet (fun x => { x with asked := k, claimClk := 400000000 })
    let u : State := a.setBit (npStat 0) 15 true
    a.asleep = false ∧ (m.astate = 3 ∧ m.devAddr = (5 : Fin 32768) ∧ (7 : BitVec 48).toNat ≠ m.mac ∧ m.bit (netA NET.CFG) 0 = true) ∧ ((c 1).astate = 1 ∧ (c 1).net.cand = (5 : Fin 32768) ∧
    (c 1).mac ≤ (7 : BitVec 48).toNat ∧ (c 1).claimWaited = true ∧ (c 1).net.claims < 3 ∧ 3 ≤ (c 3).net.claims ∧ (c 3).claimWaited = true) ∧ (((c 1).wr (netA NET.MAC) 9).astate = 1 ∧ (7 : BitVec 48).toNat < ((c 1).wr (netA NET.MAC) 9).mac) ∧
    (a.bit (netA NET.CFG) 0 = false ∧ a.astate ≠ 2 ∧ a.claimWaited = false) ∧ ((q 1).astate = 2 ∧ (0 : BitVec 48).toNat = (q 1).mac ∧ (q 1).requestWaited = true ∧ (q 1).net.asked < 3 ∧ (q 3).requestWaited = true ∧ 3 ≤ (q 3).net.asked) ∧
    (a.ready = true ∧ a.mayAccess 1 52 = true ∧ a.net.claimer = none ∧ u.astate = 0 ∧ (u.portUp 0 || u.portUp 1) = true ∧ u.rd (netA NET.ADDRREQ) = 0 ∧ (u.wr (netA NET.ADDRREQ) 5).rd (netA NET.ADDRREQ) ≠ 0) ∧
    (m.ready = true ∧ m.mayAccess 1 52 = true ∧ m.net.claimer = none) := by decide

/-- The fault manager: HPS with a snapshot, in factory test mode and not; a running modulator 6; a sound word, a corrected and an uncorrectable one under the scrubber. -/
theorem wit_FaultManager : let a := up State.reset
    let m : State := ((a.onFlt (fun f => { f with tm := true })).wr (fltA FLT.INJCODE) 0x0601).wr (fltA FLT.INJOBJ) 29
    let r : State := m.onMod 6 (fun x => { x with running := true })
    let e : HistEntry := ⟨0, 7, 0x0601, 0, 0, 0⟩
    let h : State := a.onAcc 1 (fun x => { x with hsnap := some e, fsel := 0x060040, fselbit := 0 })
    let u (d : Bool) : State := a.onFlt (fun f => { f with upsets := [⟨.path, pathLo, d⟩] })
    (a.asleep = false ∧ a.ready = true ∧ a.mayAccess 1 54 = true ∧ (h.acc[(1 : Fin 15)]).hsnap = some e ∧ a.flt.tm = false ∧ m.flt.tm = true ∧ (evRow (m.rd (fltA FLT.INJCODE))).isSome = true ∧ m.rd (fltA FLT.INJOBJ) = 29 ∧
      m.pow.inReset = false ∧ m.flt.hist.length < 32) ∧
    ((r.modu 6).running = true ∧ (r.modu 6).dead = false ∧ r.bit (mstat 6) 10 = false ∧ m.mayAccess 1 54 = true ∧ r.mayAccess 1 54 = true) ∧
    (a.violationOf 1 (fltA FLT.HE0) false = none ∧ a.violationOf 1 (fltA FLT.FSELBIT) true = none ∧ a.flt.upsets.find? (fun u => u.store == .path && u.index == pathLo) = none ∧ scrubWord a.flt.scrubAt = (.path, pathLo) ∧
      (∀ d, (u d).flt.upsets.find? (fun u => u.store == .path && u.index == pathLo) = some ⟨.path, pathLo, d⟩) ∧ ({ a with img := { a.img with active := true } } : State).img.active = true) := by decide

/-- Host ports: HPS writes and reads two words of path memory, writes a retention register, commits SLMIN of axis 3 and reads a wide value. -/
theorem wit_HostPorts : let a := up (armed .hold)
    let g := a.onAcc 1 (fun x => { x with staged := [(axBase 3 + AX.SLMIN, ⟨0xFFFF, 7⟩), (axBase 3 + AX.SLMIN + 4, ⟨0xFFFF, 0⟩)] })
    a.ready = true ∧ (0x400010#24).toNat % 4 = 0 ∧ pathLo ≤ (0x400010#24).toNat ∧ (0x400010#24).toNat + 4 * 2 ≤ 0x500000 ∧ a.violationOf (portAcc 1) 0x400010 true = none ∧
    a.violationOf (portAcc 1) 0x400014 true = none ∧ a.violationOf (portAcc 1) 0x400010 false = none ∧ a.violationOf (portAcc 1) 0x400014 false = none ∧ a.flt.upsets = [] ∧
    a.pow.shelf ≠ .shelf ∧ a.violationOf 1 (devA DEV.RET + 4 * 127) true = none ∧ a.flt.hardClr = [] ∧ g.violationOf 1 (axBase 3 + AX.SLMIN + 8) true = none ∧
    (g.acc[(1 : Fin 15)]).lostStage.contains (axBase 3 + AX.SLMIN) = false ∧ (g.acc[(1 : Fin 15)]).stagedFor (axBase 3 + AX.SLMIN) 3 = (0xFFFFFFFF, (7#32).toNat) ∧
    g.axb 3 AX.CFG 0 = false ∧ (locate (BitVec.ofNat 24 (axBase 3 + AX.SLMIN)).toNat).map (fun l => (l.base, l.word, decide (1 < l.row.words), l.row.acc)) = some (axBase 3 + AX.SLMIN, 0, true, .wc) ∧
    a.violationOf 1 (axBase 3 + AX.SLMIN) false = none := by decide

/-- JTAG: a part that serves, with an open gate and no request, and a word of path memory. -/
theorem wit_JtagPort : let a := up (armed .hold)
    let g := a.setFld (wldA WLD.BLK + 12) 15 0 0
    g.pow.shelf ≠ .shelf ∧ g.dbgGate = true ∧ g.pow.haltReq = false ∧ g.ready = true ∧ (0x4FFFFC#24).toNat % 4 = 0 ∧ pathLo ≤ (0x4FFFFC#24).toNat ∧ (0x4FFFFC#24).toNat < 0x500000 ∧
    (g.setFld (wldA WLD.REG) 15 0 0).violationOf jtagAcc 0x4FFFFC false = none ∧ (g.setFld (wldA WLD.REG) 15 0 0).violationOf jtagAcc 0x4FFFFC true = none ∧ g.flt.upsets = [] := by decide

/-- Resets and the shelf state: HPS writes the keys at rest and with a running axis; the last clock of step 2 with and without a wake event; both sides of a wake, a release and a clear. -/
theorem wit_ResetsAndShelf : let a := up State.reset
    let b := up (armed .move)
    let p (s : State) (f : Power → Power) : State := { s with pow := f s.pow }
    let l := p a (fun x => { x with shelf := .leaving 0 })
    let h := p (a.setBit (cmpA CMP.WCFG) 13 true) (fun x => { x with shelf := .shelf })
    let r := p a (fun x => { x with inReset := true })
    let c := p a (fun x => { x with clearing := true, relClk := 290144 })
    a.ready = true ∧ a.mayAccess 1 55 = true ∧ b.mayAccess 1 55 = true ∧ b.shelfAllowed = false ∧ a.shelfAllowed = true ∧ a.pow.shelf = .running ∧ l.pow.shelf = .leaving 0 ∧ l.pow.wakeBits = 0 ∧
    (p l (fun x => { x with wakeBits := 4 })).pow.wakeBits ≠ 0 ∧ a.pow.shelf ≠ .shelf ∧ ¬ (a.pow.inReset = true ∧ a.pow.causes.testBit 10 = true) ∧ h.pow.shelf = .shelf ∧
    h.bit (cmpA CMP.WCFG + 4 * 0) 13 = true ∧ r.pow.inReset = true ∧ r.pow.shelf = .running ∧ (p r (fun x => { x with rstReq := true })).pow.rstReq = true ∧ r.pow.rstReq = false ∧
    holdsReset r.pow.ir = false ∧ c.pow.inReset = false ∧ c.pow.clearing = true ∧ 290144 ≤ c.pow.relClk := by decide

/-- Sessions: each operation as the oldest request, of session 2 which is open, or an OPEN of both worlds; a lapsed session; HPS with staged operands for entry 0 and with SIDX of a used one. -/
theorem wit_SessionsAndSubscriptions : let a := up State.reset
    let d : List Byte := List.replicate 8 0
    let r (op n : Nat) (x : List Byte) : Req := ⟨9, 2, 0, 7, op, n, 0x400010, x, [0, 2, 0, 7, 1, 2, 0, 0, 0], true⟩
    let q (r : Req) : State := ((a.wr (netsBase 2 + NETS.SSTAT) 32768).wr (netA NET.SESSTO) 1).onNet (fun x => { x with reqs := [r], sess := x.sess.set 2 { Sess.start with idle := 400000 } })
    let p := q (r 1 2 d)
    let e : State := a.onAcc 1 (fun x => { x with snew := 0xF0000041, snewSel := 1, sidx := 0 })
    let f : State := (e.wr (subBase 0 + SUB.SSTAT) 0x8000).wr (subBase 0 + SUB.SRC_H) 0xF000
    (a.asleep = false ∧ a.ready = true ∧ p.net.reqs = [r 1 2 d] ∧ p.sessOpen 2 = true ∧ p.fld (netsBase 2 + NETS.SSTAT) 7 0 = 0 ∧ p.freeSession = some 0 ∧ p.sessLapsed 2 = true ∧ p.sessLapsed 3 = false) ∧
    (p.violationOf (sessAcc 2) 0x400010 true = none ∧ p.violationOf (sessAcc 2) 0x400014 true = none ∧ p.violationOf (sessAcc 2) 0x400010 false = none ∧ p.violationOf (sessAcc 2) 0x400014 false = none ∧ p.flt.upsets = []) ∧
    (byteAt d 3 = 0 ∧ byteAt [0, 0, 1, (1 : Byte)] 3 = 1 ∧ byteAt [0, 0, 1, (2 : Byte)] 3 = 2 ∧ (a.onWld (fun w => { w with dkey := some 5 })).wld.dkey.isSome = true) ∧
    (((List.range 8).foldl (fun s k => s.wr (netsBase k + NETS.SSTAT) 32768) a).freeSession = none) ∧
    (a.mayAccess 1 52 = true ∧ a.net.claimer = none ∧ (e.acc[(1 : Fin 15)]).snew.toNat / 65536 / 4096 = 15 ∧ Machine.fld (e.acc[(1 : Fin 15)]).snewSel.toNat 1 0 = 1 ∧ Machine.fld (e.acc[(1 : Fin 15)]).snewSel.toNat 12 8 = 0 ∧ e.subsUsed.length < 1024) ∧
    ((f.acc[(1 : Fin 15)]).sidx.toNat = 0 ∧ f.bit (subBase 0 + SUB.SSTAT) 15 = true ∧ (∀ n, f.onEntry n ≠ some 0) ∧ f.subOwner 0 = none) := by decide

/-! ### WellFormed refuses an ill-formed term of each of its checks -/

theorem test_wf_bootLoad : wellFormed (.bootLoad (List.replicate 65537 0) false) = false := by
  refine Eq.trans (show _ = decide ((List.replicate 65537 (0 : Byte)).length ≤ 65536) from rfl) ?_
  rw [List.length_replicate]; decide
theorem test_wf_pdelay : wellFormed (.pdelayExchange 0 (some (2 ^ 32))) = false := by decide
theorem test_wf_excitationSettled : wellFormed (.excitationSettled 0 65536 0) = false ∧ wellFormed (.excitationSettled 0 0 65536) = false := by decide
theorem test_wf_excitationOpenClear : wellFormed (.excitationOpenClear 0 65536) = false := by decide
theorem test_wf_slotBoundary : wellFormed (.slotBoundary 0 65536 0 0 false false) = false ∧ wellFormed (.slotBoundary 0 0 32768 0 false false) = false ∧
    wellFormed (.slotBoundary 0 0 0 (-32769) false false) = false := by decide
theorem test_wf_closeInterval : wellFormed (.closeInterval 0 ⟨0, 0, 0, 0, 0, 0, false⟩) = false := by decide
theorem test_wf_conversions : wellFormed (.sarConversion 0 (some 8192)) = false ∧ wellFormed (.urgentConversion 0 (-8193)) = false := by decide
theorem test_wf_eqUpdate : wellFormed (.eqUpdate 0 0 0 0 1025) = false := by decide
theorem test_wf_cyclicFrame : wellFormed (.cyclicFrame 32768 0 []) = false ∧ wellFormed (.cyclicFrame 1 0 [⟨64, true, [0]⟩]) = false ∧
    wellFormed (.cyclicFrame 1 0 [⟨3, true, []⟩]) = false ∧ wellFormed (.cyclicFrame 1 0 [⟨3, true, [0]⟩, ⟨3, true, [0]⟩]) = false := by decide

/-! ### Steps and operations on fixed values, from the worked examples of the spec -/

/-- The first two periods of the example of R207: 1,500 u below hmin = 1,920 u are suppressed with 640 u carried and 860 u lost, then emitted as 2,140 u. -/
theorem test_highWindow : highWindow 1500 0 1920 640 = (0, 640, 860) ∧ highWindow 1500 640 1920 640 = (2140, 0, 0) := by decide

/-- A word of DEV.RET as R7 writes it: mask 0x00FF changes the low byte alone. -/
theorem test_register_write : after (.registerWrite 1 0x400 0x00FF1234) (up State.reset) (fun t => t.rd 0x400 == 0x0034) = true := by decide

/-- A step takes the command at the front and leaves the rest. -/
theorem test_step_front : (match step { up State.reset with pending := [.registerWrite 1 0x400 0xFFFF0001, .scrub] } with
    | .next t => t.rd 0x400 == 1 && t.pending == [.scrub] | _ => false) = true := by decide

/-- POP of an argument above 32 answers RANGE (R491, R508). -/
theorem test_pop_range : after (.popHistory 1 33) (up State.reset) (fun t => t.rd (fltA FLT.CMDSTAT) == 0x0100 + Status.range.code) = true := by decide

/-- INJ_SAR outside factory test mode answers STATE and leaves an entry with the refused block, command and accessor (R487, R502). -/
theorem test_inj_refused : after (.injSar 1 0) (up State.reset) (fun t => t.rd (fltA FLT.CMDSTAT) == 0x1200 + Status.state.code &&
    t.flt.hist.map (fun e => (e.code, e.w6, e.w7)) == [(54, 0x1200, 1)] && t.flt.injSar == []) = true := by decide

/-- A written word of path memory reads back, its neighbour reads 0 (R549, R550). -/
theorem test_path_memory : after (.hostWrite 1 0x400010 [0x12345678] false) (up State.reset) (fun t => pathWord t.path 0x400010 == 0x12345678 && pathWord t.path 0x400014 == 0) = true := by decide

end Sys2Proof.Tests
end

section
/-! PROOF. The host ports and the register words: where an address lies, bursts of path memory, plain register writes, and the
settlement of O46. -/

namespace Sys2Proof.Machine

/-! ### Where a word address lies -/

/-- The bytes from the first that a row covers to the last (R537). -/
def Row.span (r : Row) : Nat := r.stride * (r.count - 1) + 4 * r.words

/-- One past the last byte of a window (R537, R538). -/
def Window.top (w : Window) : Nat := w.base + w.stride * w.count

/-- Rows that do not cover an offset are passed over. -/
theorem rowAt_append_of_outside {l m : List Row} {o : Nat} (h : ∀ r ∈ l, o < r.off ∨ r.off + r.span ≤ o) : rowAt (l ++ m) o = rowAt m o := by
  unfold rowAt
  rw [List.findSome?_append, List.findSome?_eq_none_iff.mpr, Option.none_or]
  intro r hr
  have hout := h r hr
  rw [Row.span] at hout
  refine if_neg fun ⟨hlo, _, hin⟩ => ?_
  by_cases hc : r.count = 1
  · rw [if_pos hc] at hin
    omega
  · rw [if_neg hc] at hin
    have hd := Nat.div_add_mod (o - r.off) r.stride
    have hk : r.stride * ((o - r.off) / r.stride) ≤ r.stride * (r.count - 1) := Nat.mul_le_mul_left _ (by omega)
    omega

/-- The word of a row of one value. -/
theorem rowAt_cons_of_single {r : Row} {l : List Row} {k : Nat} (hc : r.count = 1) (hk : k < r.words) :
    rowAt (r :: l) (r.off + 4 * k) = some (r, r.off, k) := by
  have hlt : 4 * k < 4 * r.words := by omega
  simp [rowAt, hc, hlt]

/-- The window that covers an address decides where it lies, behind windows that do not cover it. FLT is left out: it leaves reaction words
without an event unlisted as well (R481). -/
theorem locate_of_window {pre post : List Window} {w : Window} {i p o k : Nat} {r : Row} (hw : windows = pre ++ w :: post)
    (hpre : ∀ v ∈ pre, w.base + i * w.stride + p < v.base ∨ v.top ≤ w.base + i * w.stride + p) (hi : i < w.count) (hp : p < w.stride)
    (hflt : w.base ≠ 0x040000) (hr : rowAt w.rows p = some (r, o, k)) :
    locate (w.base + i * w.stride + p) = some ⟨r, w.base + i * w.stride + o, k⟩ := by
  have hd : w.base + i * w.stride + p - w.base = p + w.stride * i := by rw [Nat.mul_comm]; omega
  have hinst : (p + w.stride * i) / w.stride = i := by rw [Nat.add_mul_div_left p i (by omega), Nat.div_eq_of_lt hp, Nat.zero_add]
  have hoff : (p + w.stride * i) % w.stride = p := by rw [Nat.add_mul_mod_self_left, Nat.mod_eq_of_lt hp]
  have htop : w.stride * (i + 1) ≤ w.stride * w.count := Nat.mul_le_mul_left _ hi
  have hin : w.base ≤ w.base + i * w.stride + p ∧ w.base + i * w.stride + p < w.base + w.stride * w.count := by
    rw [Nat.mul_add] at htop
    rw [Nat.mul_comm i]
    omega
  unfold locate
  rw [hw, List.findSome?_append, List.findSome?_eq_none_iff.mpr, Option.none_or, List.findSome?_cons, if_pos hin, hd, hinst, hoff, hr]
  · simp [hflt]
  · intro v hv
    have := hpre v hv
    rw [Window.top] at this
    exact if_neg (by omega)

/-- No register lies in path memory or above it (R537). -/
theorem locate_of_pathLo_le {a : Nat} (h : pathLo ≤ a) : locate a = none := by
  have htop : ∀ w ∈ windows, w.top ≤ pathLo := by decide
  refine List.findSome?_eq_none_iff.mpr fun w hw => ?_
  have := htop w hw
  rw [Window.top] at this
  exact if_neg (by omega)

/-- The row of the retention registers (R547). -/
def rowRET : Row := ⟨0x400, 1, 128, 4, .rw, 0x0, 0xFFFF, 0x0, 16, false, 0, 65535⟩

/-- The row of SLMIN (R119). -/
def rowSLMIN : Row := ⟨0x0A0, 3, 1, 4, .wc, 0x0, 0xFFFFFFFFFFFF, 0x0, 48, true, -140737488355328, 140737488355327⟩

/-- Every retention register is listed, a value of one word. -/
theorem locate_ret (j : Fin 128) : locate (devA DEV.RET + 4 * j) = some ⟨rowRET, devA DEV.RET + 4 * j, 0⟩ := by
  have hj := j.isLt
  have hoff : ∀ r ∈ rowsDEV.take 37, r.off + r.span ≤ 0x400 := by decide
  have hpre : ∀ v ∈ windows.take 4, 0x050000 ≤ v.base := by decide
  have hrow : rowAt rowsDEV (0x400 + 4 * j.val) = some (rowRET, 0x400 + 4 * j.val, 0) := by
    rw [show rowsDEV = rowsDEV.take 37 ++ [rowRET] from rfl, rowAt_append_of_outside fun r hr => .inr (by have := hoff r hr; omega)]
    simp [rowAt, rowRET, Nat.mul_comm]
  have h := locate_of_window (pre := windows.take 4) (w := ⟨0x000000, 0x10000, 1, rowsDEV⟩) (post := windows.drop 5) (i := 0) rfl
    (fun v hv => .inl (by have := hpre v hv; dsimp only; omega)) Nat.one_pos (by dsimp only; omega) (by decide) hrow
  simpa [devA, DEV.RET] using h

/-- Every word of SLMIN is listed. -/
theorem locate_slmin (n : Fin 12) {w : Nat} (hw : w < 3) : locate (axBase n + AX.SLMIN + 4 * w) = some ⟨rowSLMIN, axBase n + AX.SLMIN, w⟩ := by
  have hoff : ∀ r ∈ rowsAX.take 20, r.off + r.span ≤ 0x0A0 := by decide
  have hpre : ∀ v ∈ windows.take 10, v.top ≤ 0x080000 := by decide
  have hrow : rowAt rowsAX (0x0A0 + 4 * w) = some (rowSLMIN, 0x0A0, w) := by
    rw [show rowsAX = rowsAX.take 20 ++ rowSLMIN :: rowsAX.drop 21 from rfl, rowAt_append_of_outside fun r hr => .inr (by have := hoff r hr; omega)]
    exact rowAt_cons_of_single rfl hw
  rw [Nat.add_assoc]
  exact locate_of_window (pre := windows.take 10) (w := ⟨0x080000, 0x4000, 12, rowsAX⟩) (post := windows.drop 11) (p := 0x0A0 + 4 * w) rfl
    (fun v hv => .inr (by have := hpre v hv; dsimp only; omega)) n.isLt (by dsimp only; omega) (by decide) hrow

section
variable {s : State} {acc : Fin 15} {p : Fin 2} {a : Nat}

/-! ### Words of path memory as an accessor reaches them (R454, R549) -/

/-- An accessor may reach a word of path memory under the same registers, whatever path memory and the fault manager hold (R457). -/
theorem violationOf_path (h : pathLo ≤ a) (m : List Host.Cell) (f : Faults) (w : Bool) :
    ({ s with path := m, flt := f } : State).violationOf acc a w = s.violationOf acc a w := by
  simp only [State.violationOf, guardOf, if_pos h]
  rfl

/-- A written word of path memory changes path memory and the fault manager alone. -/
theorem pathPut_rest (s : State) (a : Nat) (w : BitVec 32) : s.pathPut a w = { s with path := pathWrite s.path a w, flt := (s.pathPut a w).flt } := by
  unfold State.pathPut
  extract_lets s1
  split
  · split <;> rfl
  · rfl

/-- A word of path memory that the worlds permit is written. -/
theorem busWrite_path (w : BitVec 32) (hr : s.ready = true) (h4 : a % 4 = 0) (hlo : pathLo ≤ a) (hhi : a < 0x500000)
    (hv : s.violationOf acc a true = none) : s.busWrite acc a w = (.done, s.pathPut a w) := by
  have hw : s.writeWord acc a w = (.done, s.pathPut a w) := by
    unfold State.writeWord
    rw [if_neg (by simp [hr, h4, hhi]), locate_of_pathLo_le hlo, if_neg (by omega), hv]
  simp [State.busWrite, State.counted, hw]

/-- A sound word of path memory that the worlds permit is read, and reading it changes nothing. -/
theorem readFull_path (hr : s.ready = true) (h4 : a % 4 = 0) (hlo : pathLo ≤ a) (hhi : a < 0x500000)
    (hv : s.violationOf acc a false = none) (hu : ∀ u ∈ s.flt.upsets, u.store ≠ .path) :
    s.readFull acc a = (.done, pathWord s.path a, s) := by
  have hf : s.flt.upsets.find? (fun u => u.store == .path && u.index == a) = none := by
    rw [List.find?_eq_none]
    intro u hm
    simp [hu u hm]
  have hw : s.readWord acc a = (.done, pathWord s.path a, s) := by
    unfold State.readWord
    rw [if_neg (by simp [hr, h4, hhi]), locate_of_pathLo_le hlo, if_neg (by omega), hv]
    simp [State.pathGet, hf]
  simp [State.readFull, State.busRead, State.counted, hw, State.readTake, locate_of_pathLo_le hlo]

/-! ### Bursts of path memory (R520, R549) -/

/-- The words of a burst put into path memory one after the other. -/
def State.pathPuts (s : State) : List (BitVec 32) → Nat → State
  | [], _ => s
  | w :: ws, a => (s.pathPut a w).pathPuts ws (a + 4)

theorem pathPuts_rest (s : State) (ws : List (BitVec 32)) (a : Nat) :
    s.pathPuts ws a = { s with path := (s.pathPuts ws a).path, flt := (s.pathPuts ws a).flt } := by
  induction ws generalizing s a with
  | nil => rfl
  | cons w ws ih =>
    rw [State.pathPuts, ih, pathPut_rest]

theorem pathPuts_regs (s : State) (ws : List (BitVec 32)) (a : Nat) : (s.pathPuts ws a).regs = s.regs := by rw [pathPuts_rest]

theorem pathPuts_axes (s : State) (ws : List (BitVec 32)) (a : Nat) : (s.pathPuts ws a).axes = s.axes := by rw [pathPuts_rest]

theorem pathByte_pathPuts_outside (s : State) (ws : List (BitVec 32)) (a : Nat) {b : Nat} (hb : b < a ∨ a + 4 * ws.length ≤ b) :
    pathByte (s.pathPuts ws a).path b = pathByte s.path b := by
  induction ws generalizing s a with
  | nil => rfl
  | cons w ws ih =>
    rw [List.length_cons] at hb
    rw [State.pathPuts, ih _ _ (by omega), pathPut_rest]
    exact pathByte_pathWrite_other a b w (by omega)

theorem pathWord_congr {m m' : List Host.Cell} {a : Nat} (h : ∀ b, a ≤ b → b < a + 4 → pathByte m b = pathByte m' b) :
    pathWord m a = pathWord m' a := by
  simp only [pathWord, h a (by omega) (by omega), h (a + 1) (by omega) (by omega), h (a + 2) (by omega) (by omega), h (a + 3) (by omega) (by omega)]

/-- Each word of a burst reads back: no other one reaches its bytes. -/
theorem pathWord_pathPuts (s : State) (ws : List (BitVec 32)) (a : Nat) {i : Nat} (h : i < ws.length) :
    pathWord (s.pathPuts ws a).path (a + 4 * i) = ws[i] := by
  induction ws generalizing s a i with
  | nil => exact absurd h (Nat.not_lt_zero i)
  | cons w ws ih =>
    rw [State.pathPuts]
    cases i with
    | zero =>
      rw [pathWord_congr fun b _ hb => pathByte_pathPuts_outside _ ws (a + 4) (.inl (by omega)), pathPut_rest]
      exact pathWord_pathWrite a w
    | succ i =>
      rw [show a + 4 * (i + 1) = a + 4 + 4 * i by omega]
      exact ih _ _ (Nat.lt_of_succ_lt_succ h)

/-- A written word that answers DONE lets a WRITE go on, unless it is the reset key (R546). -/
theorem burstWrite_cons_of_done {w : BitVec 32} {ws : List (BitVec 32)} {b : Burst} {t : State} (hw : b.st.busWrite acc a w = (.done, t))
    (hkey : a ≠ devA DEV.RSTKEY) : burstWrite acc (w :: ws) a b = burstWrite acc ws (a + 4) { b with st := t, n := b.n + 1 } := by
  simp [burstWrite, hw, Status.ends, hkey, firstErr]

/-- A word read with DONE lets a READ go on (R520). -/
theorem burstRead_succ_of_done {w : BitVec 32} {n : Nat} {b : Burst} {t : State} (hw : b.st.readFull acc a = (.done, w, t)) :
    burstRead acc (n + 1) a b = burstRead acc n (a + 4) { b with st := t, n := b.n + 1, data := b.data ++ [w] } := by
  simp [burstRead, hw, Status.ends]

/-- A WRITE of words of path memory that the worlds permit stores all of them. -/
theorem burstWrite_path (ws : List (BitVec 32)) (a : Nat) (b : Burst) (hr : b.st.ready = true) (h4 : a % 4 = 0) (hlo : pathLo ≤ a)
    (hhi : a + 4 * ws.length ≤ 0x500000) (hv : ∀ i, i < ws.length → b.st.violationOf acc (a + 4 * i) true = none) :
    burstWrite acc ws a b = { b with st := b.st.pathPuts ws a, n := b.n + ws.length } := by
  induction ws generalizing a b with
  | nil => rfl
  | cons w ws ih =>
    rw [List.length_cons] at hhi hv
    have hw := busWrite_path w hr h4 hlo (by omega) (hv 0 (by omega))
    have hkey : a ≠ devA DEV.RSTKEY := by unfold pathLo at hlo; unfold devA DEV.RSTKEY; omega
    have hv' : ∀ i, i < ws.length → (b.st.pathPut a w).violationOf acc (a + 4 + 4 * i) true = none := by
      intro i hi
      rw [pathPut_rest, violationOf_path (by omega), show a + 4 + 4 * i = a + 4 * (i + 1) by omega]
      exact hv (i + 1) (by omega)
    have hr' : (b.st.pathPut a w).ready = true := by rw [pathPut_rest]; exact hr
    rw [burstWrite_cons_of_done hw hkey, ih (a + 4) { b with st := b.st.pathPut a w, n := b.n + 1 } hr' (by omega) (by omega) (by omega) hv',
      List.length_cons, Nat.add_comm ws.length, ← Nat.add_assoc]
    rfl

/-- A READ of sound words of path memory that the worlds permit drives all of them, and changes nothing. -/
theorem burstRead_path (n a : Nat) (b : Burst) (hr : b.st.ready = true) (h4 : a % 4 = 0) (hlo : pathLo ≤ a)
    (hhi : a + 4 * n ≤ 0x500000) (hv : ∀ i, i < n → b.st.violationOf acc (a + 4 * i) false = none) (hu : ∀ u ∈ b.st.flt.upsets, u.store ≠ .path) :
    burstRead acc n a b = { b with n := b.n + n, data := b.data ++ (List.range n).map fun i => pathWord b.st.path (a + 4 * i) } := by
  induction n generalizing a b with
  | zero => simp [burstRead]
  | succ n ih =>
    have hw := readFull_path hr h4 hlo (by omega) (hv 0 (by omega)) hu
    have hnext : ∀ i, a + 4 + 4 * i = a + 4 * (i + 1) := fun i => by omega
    have hv' : ∀ i, i < n → b.st.violationOf acc (a + 4 + 4 * i) false = none := fun i hi => hnext i ▸ hv (i + 1) (by omega)
    rw [burstRead_succ_of_done hw, ih (a + 4) { b with n := b.n + 1, data := b.data ++ [pathWord b.st.path a] } hr (by omega) (by omega) (by omega) hv' hu,
      List.range_succ_eq_map]
    simp [hnext, Function.comp_def, Nat.add_assoc, Nat.add_comm 1]

/-! ### Transactions of path memory (R510, R514) -/

theorem drive_host (s : State) (p : Fin 2) (w : Word) (data : List (BitVec 32)) : (s.drive p w data).host[p] = ⟨w, data⟩ := by simp [State.drive]

theorem record_acc (s : State) (acc : Fin 15) (st : Status) (n : Nat) (part : Bool) : ((s.record_ acc st n part).acc[acc]) =
    { s.acc[acc] with status := BitVec.ofNat 8 st.code, partialW := part, words := BitVec.ofNat 16 (min n 65535) } :=
  vupd_same ..

/-- A transaction of whole words that no word ended is recorded DONE. -/
theorem endTransaction_done {b : Burst} (hf : b.first = none) (he : b.ended = false) :
    State.endTransaction p b false = b.st.record_ (portAcc p) .done b.n false := by
  simp [State.endTransaction, hf, he]

/-- A WRITE of words of path memory that the worlds permit: the port drives its status word, the words are put, DONE is recorded. -/
theorem hostWrite_path (ws : List (BitVec 32)) (hr : s.ready = true) (h4 : a % 4 = 0) (hlo : pathLo ≤ a) (hhi : a + 4 * ws.length ≤ 0x500000)
    (hv : ∀ i, i < ws.length → s.violationOf (portAcc p) (a + 4 * i) true = none) :
    s.hostWrite p a ws false =
      ((s.drive p (if p = 1 then s.statusWord p else 0) []).pathPuts ws a).record_ (portAcc p) .done ws.length false := by
  unfold State.hostWrite
  extract_lets s0 b
  have hb : b = { Burst.begin s0 with st := s0.pathPuts ws a, n := 0 + ws.length } := by
    simp only [b, State.header, if_neg (not_not.mpr h4)]
    exact burstWrite_path ws a (Burst.begin s0) hr h4 hlo hhi hv
  rw [if_neg (by simp [hr]), hb, if_neg (by simp [Burst.begin]), endTransaction_done rfl rfl, Nat.zero_add]

/-- A READ of sound words of path memory that the worlds permit: DONE is recorded, the port drives its status word and the words. -/
theorem hostRead_path (n : Nat) (hr : s.ready = true) (h4 : a % 4 = 0) (hlo : pathLo ≤ a) (hhi : a + 4 * n ≤ 0x500000)
    (hv : ∀ i, i < n → s.violationOf (portAcc p) (a + 4 * i) false = none) (hu : ∀ u ∈ s.flt.upsets, u.store ≠ .path) :
    s.hostRead p a n false =
      (s.record_ (portAcc p) .done n false).drive p (s.statusWord p) ((List.range n).map fun i => pathWord s.path (a + 4 * i)) := by
  unfold State.hostRead
  extract_lets b r b1
  have hb : b = { Burst.begin s with n := 0 + n, data := [] ++ (List.range n).map fun i => pathWord s.path (a + 4 * i) } := by
    simp only [b, State.header, if_neg (not_not.mpr h4)]
    exact burstRead_path n a (Burst.begin s) hr h4 hlo hhi hv hu
  have hb1 : b1 = b := if_neg (by simp)
  rw [if_neg (by simp [hr]), if_pos h4, hb1, hb, endTransaction_done rfl rfl, Nat.zero_add]
  rfl

end

section
variable {s t : State} {acc : Fin 15} {b : Nat} {r : Row}

/-! ### A plain write (R517) -/

/-- Data merged under no bit leave the value (R7). -/
theorem mergeBits_zero (old data : Val) : mergeBits old data 0 = old := by
  rw [mergeBits, BitVec.not_zero, BitVec.and_allOnes, BitVec.and_zero, BitVec.or_zero]

/-- A write of a plain register without W1C bits that is judged DONE, acts at once and changes nothing beside the value. -/
theorem regWrite_plain {wm mask : Nat} {data : Val} (hrate : b ≠ timA TIM.RATE) (hadj : b ≠ timA TIM.ADJ) (hwm : r.wm ≠ 0) (hcm : r.cm = 0)
    (hm : s.writable r b = wm) (hj : ∀ v, s.judge r b v = .done) (hn : s.actsNext b = false) (hc : s.flt.hardClr = []) (hf : ∀ v, r.fill v = v)
    (ha : ∀ (t : State) old v, t.after b old v = t) :
    s.regWrite r b mask data = (.done, s.setVal b (mergeBits (s.val b) data (mask &&& wm))) := by
  simp [State.regWrite, hrate, hadj, hwm, hcm, hm, hj, State.w1c, State.place, hn, State.afterClear, hc, hf, ha, State.held]

/-- No accessor has words of its own outside FLT and NET (R442, R490, R495). -/
theorem ownWrite_outside {w mask data : Nat} (h : b < 0x040000 ∨ 0x080000 ≤ b) : s.ownWrite acc b w mask data = none := by
  have hne : ∀ c, 0x040000 ≤ c → c < 0x080000 → b ≠ c := fun c h1 h2 => by omega
  simp [State.ownWrite, fltA, netA, FLT.HSEL, FLT.FSEL, FLT.FSELBIT, NET.SIDX, NET.SNEW, NET.SNEW_SEL, hne]

/-- An accessor reaches every bit of a written word outside the IRQA banks and the pin words (R526, R540). -/
theorem reach_full (h : 0x200 ≤ b) (hg : b < 0x110000) : s.reach acc b = 0xFFFF := by
  unfold State.reach devA DEV.IRQA_PEND DEV.IRQS_PEND gpioA
  rw [if_neg (by omega), if_neg (by omega)]

/-! ### Retention registers (R547) -/

theorem fill_ret (v : Val) : rowRET.fill v = v := rfl

/-- Every value of 16 bits lies in the range of a retention register. -/
theorem inRange_ret (v : Val) : rowRET.inRange v = true := by
  have hv := (v.setWidth 16).isLt
  simp only [Row.inRange, Bool.and_eq_true, decide_eq_true_eq]
  show 0 ≤ ((v.setWidth 16).toNat : Int) ∧ ((v.setWidth 16).toNat : Int) ≤ 65535
  omega

section
variable (hlo : 0x400 ≤ b) (hhi : b < 0x600)
include hlo hhi

theorem broken_ret (old v : Nat) : s.broken b old v = (false, false) := by
  have hb : ∀ k, 0x600 ≤ k → ¬ k ≤ b := fun k h => by omega
  have hne : ∀ k, 0x600 ≤ k → ¬ b = k := fun k h => by omega
  have ht : ¬ (0x204 ≤ b ∧ b < 0x214) := by omega
  simp [State.broken, hb, hne, devA, DEV.TRIPCFG, ht, timA, TIM.PTPCFG, fltA, FLT.RT]

theorem after_ret (old v : Nat) : s.after b old v = s := by
  have hb : ∀ k, 0x600 ≤ k → ¬ k ≤ b := fun k h => by omega
  have ht : ¬ (0x204 ≤ b ∧ b < 0x214) := by omega
  simp [State.after, hb, devA, DEV.TRIPCFG, ht, adcBase, ADC.FILT, cmpA, CMP.WCFG, CMP.AZTRIM, gpioA, GPIO.MODE]

theorem writable_ret : s.writable rowRET b = 0xFFFF := by
  have hb : ∀ k, 0x600 ≤ k → ¬ k ≤ b := fun k h => by omega
  have hne : ∀ k, 0x600 ≤ k → ¬ b = k := fun k h => by omega
  simp [State.writable, rowRET, State.outMask, hb, hne, gpioA, GPIO.MODE, GPIO.OUTA, GPIO.OUTB, netA, NET.PUB, wldA, WLD.SBLK]

theorem actsNext_ret : s.actsNext b = false := by
  have hb : ∀ k, 0x600 ≤ k → ¬ k ≤ b := fun k h => by omega
  have ho : ¬ b ≤ 0x23C := by omega
  simp [State.actsNext, portReg, openTest, hb, ho, devA, DEV.OWMIN, DEV.OWSHARE, gpioA, GPIO.DEB]

theorem judge_ret (v : Val) : s.judge rowRET b v = .done := by
  simp [State.judge, broken_ret hlo hhi, inRange_ret, verdict]

end

/-! ### Registers of an axis, and its lower soft limit (R119, R124) -/

theorem axBase_index (n : Fin 12) {o : Nat} (ho : o < 0x4000) : (axBase n + o - 0x080000) / 0x4000 = n.val := by unfold axBase; omega

theorem axBase_offset (n : Fin 12) {o : Nat} (ho : o < 0x4000) : (axBase n + o - 0x080000) % 0x4000 = o := by unfold axBase; omega

theorem axBase_window (n : Fin 12) {o : Nat} (ho : o < 0x4000) : 0x080000 ≤ axBase n + o ∧ axBase n + o < 0x0B0000 := by
  have := n.isLt
  unfold axBase
  omega

theorem broken_ax (n : Fin 12) {o : Nat} (ho : o < 0x4000) (old v : Nat) : s.broken (axBase n + o) old v = s.judgeAx n o old v := by
  simp only [State.broken, dif_pos (axBase_window n ho), axBase_index n ho, axBase_offset n ho]

theorem after_ax (n : Fin 12) {o : Nat} (ho : o < 0x4000) (old v : Nat) : s.after (axBase n + o) old v = s.afterAx n o old v := by
  simp only [State.after, dif_pos (axBase_window n ho), axBase_index n ho, axBase_offset n ho]

theorem slmin_offset : AX.SLMIN < 0x4000 := by decide

theorem judgeAx_slmin (n : Fin 12) (hoff : s.axb n AX.CFG 0 = false) (old v : Nat) : s.judgeAx n AX.SLMIN old v = (false, false) := by
  have hcfg : s.axb n 0x014 0 = false := hoff
  simp [State.judgeAx, State.judgeMotion, hcfg, AX.SLMIN, AX.YAMAX, AX.AMAX, AX.DMAX, AX.SETPOS, AX.CFG, AX.MODLEN]

theorem afterAx_slmin (n : Fin 12) (old v : Nat) : s.afterAx n AX.SLMIN old v = s := by
  simp [State.afterAx, AX.SLMIN, AX.AMAX, AX.DMAX, AX.SETPOS, AX.CFG, AX.MODLEN, AX.VMAX, AX.JMAX, AX.SDEC, AX.GNUM, AX.GDEN, AX.STEPSZ, AX.RNOM, AX.LNOM,
    AX.RA, AX.LB, AX.DETA1, AX.DETB4, AX.SBL, AX.SOFS, AX.SRATIO, AX.OCFG]

theorem writable_slmin (n : Fin 12) : s.writable rowSLMIN (axBase n + AX.SLMIN) = 0xFFFFFFFFFFFF := by
  obtain ⟨hlo, hhi⟩ := axBase_window n slmin_offset
  have hb : ∀ k, 0x0B0000 ≤ k → ¬ k ≤ axBase n + AX.SLMIN := fun k h => by omega
  have hne : ∀ k, k < 0x080000 → ¬ axBase n + AX.SLMIN = k := fun k h => by omega
  have hd : s.deadBits n AX.SLMIN = 0 := by simp [State.deadBits, AX.SLMIN, AX.ICFG, AX.OCFG, AX.STLCFG]
  simp only [State.writable, dif_pos (And.intro hlo hhi), axBase_index n slmin_offset, axBase_offset n slmin_offset, Fin.eta, hd]
  simp [hb, hne, rowSLMIN, gpioA, GPIO.MODE, netA, NET.PUB, wldA, WLD.SBLK]

theorem actsNext_slmin (n : Fin 12) : s.actsNext (axBase n + AX.SLMIN) = false := by
  obtain ⟨hlo, hhi⟩ := axBase_window n slmin_offset
  have hb : ∀ k, 0x0B0000 ≤ k → ¬ k ≤ axBase n + AX.SLMIN := fun k h => by omega
  have ho : ¬ axBase n + AX.SLMIN ≤ 0x23C := by omega
  have ht : ¬ 0x200 ≤ AX.SLMIN := by decide
  simp [State.actsNext, axBase_offset n slmin_offset, ht, portReg, openTest, hb, ho, devA, DEV.OWMIN, DEV.OWSHARE, gpioA, GPIO.DEB]

theorem fill_slmin (v : Val) : rowSLMIN.fill v = v := rfl

/-- Every value of 48 bits lies in the range of SLMIN. -/
theorem inRange_slmin (v : Val) : rowSLMIN.inRange v = true := by
  have hlo := BitVec.le_toInt (v.setWidth 48)
  have hhi := BitVec.toInt_lt (x := v.setWidth 48)
  simp only [Row.inRange, Bool.and_eq_true, decide_eq_true_eq]
  show -140737488355328 ≤ (v.setWidth 48).toInt ∧ (v.setWidth 48).toInt ≤ 140737488355327
  omega

theorem judge_slmin (n : Fin 12) (hoff : s.axb n AX.CFG 0 = false) (v : Val) : s.judge rowSLMIN (axBase n + AX.SLMIN) v = .done := by
  simp [State.judge, broken_ax n slmin_offset, judgeAx_slmin n hoff, inRange_slmin, verdict]

end

section
variable {s t : State} {acc : Fin 15} {a : Nat}

/-! ### A register word on the bus (R517, R518) -/

/-- Effects of a part that serves, outside the shelf state, take place. -/
theorem awake_of_ready (hr : s.ready = true) (hs : s.pow.shelf ≠ .shelf) (f : State → State) : s.awake f = f s := by
  simp only [State.ready, Bool.and_eq_true, Bool.not_eq_true'] at hr
  obtain ⟨⟨hi, _⟩, _⟩ := hr
  simp [State.awake, State.asleep, hi, hs]

/-- Two values side by side as a number. -/
theorem toNat_append_eq_add {k l : Nat} (x : BitVec k) (y : BitVec l) : (x ++ y).toNat = x.toNat * 2 ^ l + y.toNat := by
  rw [BitVec.toNat_append, ← Nat.shiftLeft_add_eq_or_of_lt y.isLt, Nat.shiftLeft_eq]

/-- A register word carries its mask in its upper half (R7). -/
theorem word_mask (m d : Word) : (m ++ d).toNat / 65536 = m.toNat := by
  have := d.isLt
  rw [toNat_append_eq_add]
  omega

/-- A register word carries its data in its lower half (R7). -/
theorem word_data (m d : Word) : (m ++ d).toNat % 65536 = d.toNat := by
  have := d.isLt
  rw [toNat_append_eq_add]
  omega

/-- A mask of 16 bits lies within the word. -/
theorem mask_and_full (m : Word) : m.toNat &&& 0xFFFF = m.toNat := Nat.and_two_pow_sub_one_of_lt_two_pow (n := 16) m.isLt

/-- A word of a listed register that the worlds permit is written as its register takes it. -/
theorem busWrite_reg {l : Loc} (m d : Word) (hr : s.ready = true) (h4 : a % 4 = 0) (hlt : a < pathLo) (hl : locate a = some l)
    (hv : s.violationOf acc a true = none) (hw : s.writeReg acc l a m.toNat d.toNat = (.done, t)) : s.busWrite acc a (m ++ d) = (.done, t) := by
  have h : s.writeWord acc a (m ++ d) = (.done, t) := by
    have hend : a < 0x500000 := by unfold pathLo at hlt; omega
    unfold State.writeWord
    rw [if_neg (by simp [hr, h4, hend]), hl, if_neg (by simp), hv, word_mask, word_data]
    exact hw
  simp [State.busWrite, State.counted, h]

/-- A written word of a plain register outside NET and the pins, all of whose bits the accessor reaches. -/
theorem writeReg_plain {l : Loc} (m : Word) {data : Nat} (hacc : l.row.acc = .rw ∨ l.row.acc = .wc) (hlo : 0x200 ≤ a)
    (hhi : a < 0x050000 ∨ 0x080000 ≤ a ∧ a < 0x110000) : s.writeReg acc l a m.toNat data = s.wordWrite acc l m.toNat data := by
  have hne : ∀ c, 0x050000 ≤ c → c < 0x080000 → a ≠ c := fun c h1 h2 => by omega
  rcases hacc with h | h <;>
    simp [State.writeReg, h, reach_full hlo (by omega), mask_and_full, netpBase, NETP.PCFG, hne]

/-- A written word of such a register, as the command of an accessor of a part that serves. -/
theorem awake_busWrite_plain {l : Loc} (m d : Word) (hr : s.ready = true) (hs : s.pow.shelf ≠ .shelf) (h4 : a % 4 = 0) (hlo : 0x200 ≤ a)
    (hhi : a < 0x050000 ∨ 0x080000 ≤ a ∧ a < 0x110000) (hl : locate a = some l) (hacc : l.row.acc = .rw ∨ l.row.acc = .wc)
    (hv : s.violationOf acc a true = none) (hw : s.wordWrite acc l m.toNat d.toNat = (.done, t)) :
    s.awake (fun s => (s.busWrite acc (BitVec.ofNat 24 a).toNat (m ++ d)).2) = t := by
  have ha : (BitVec.ofNat 24 a).toNat = a := by rw [BitVec.toNat_ofNat]; omega
  have hbus : s.busWrite acc a (m ++ d) = (.done, t) :=
    busWrite_reg m d hr h4 (by unfold pathLo; omega) hl hv ((writeReg_plain m hacc hlo hhi).trans hw)
  rw [awake_of_ready hr hs, ha, hbus]

/-- A read of the lowest word of a register of several words that the worlds permit takes its snapshot (R518). -/
theorem readFull_snapshot {r : Row} (hr : s.ready = true) (h4 : a % 4 = 0) (hlt : a < pathLo) (hl : locate a = some ⟨r, a, 0⟩)
    (hw : 1 < r.words) (hv : s.violationOf acc a false = none) : (s.readFull acc a).2.2 = s.takeSnap acc a := by
  have hend : a < 0x500000 := by unfold pathLo at hlt; omega
  have hreg : (s.readReg acc ⟨r, a, 0⟩).1 = .done := by
    unfold State.readReg
    dsimp only
    split <;> simp
  have h : s.readWord acc a = (.done, BitVec.ofNat 32 (s.readReg acc ⟨r, a, 0⟩).2, s) := by
    unfold State.readWord
    rw [if_neg (by simp [hr, h4, hend]), hl, if_neg (by simp), hv]
    simp [hreg]
  simp [State.readFull, State.busRead, State.counted, h, State.readTake, hl, hw]

/-- A snapshot of a register is the reader's newest one, neither lost nor replaced, and only the reader's copies change. -/
theorem takeSnap_shadow (h : a ≠ fltA FLT.HE0) :
    (a, s.shown acc a) ∈ ((s.takeSnap acc a).acc[acc]).shadows ∧ ((s.takeSnap acc a).acc[acc]).lostSnap.contains a = false ∧
      ((s.takeSnap acc a).acc[acc]).newer.contains a = false ∧ (s.takeSnap acc a).regs = s.regs ∧ (s.takeSnap acc a).axes = s.axes := by
  simp [State.takeSnap, h, State.onAcc]

/-! ### A word of a retention register -/

/-- A word written to a retention register changes its bits under the mask and nothing else. -/
theorem wordWrite_ret (j : Fin 128) (m d : Word) (hc : s.flt.hardClr = []) :
    ∃ t, s.wordWrite acc ⟨rowRET, devA DEV.RET + 4 * j, 0⟩ m.toNat d.toNat = (.done, t) ∧
      t.val (devA DEV.RET + 4 * j) = mergeBits (s.val (devA DEV.RET + 4 * j)) (d.setWidth 64) m.toNat ∧
      (∀ c, c ≠ devA DEV.RET + 4 * j.val → t.val c = s.val c) ∧ t.axes = s.axes := by
  unfold State.wordWrite
  by_cases hm : m.toNat = 0
  · exact ⟨s, if_pos hm, by rw [hm, mergeBits_zero], fun _ _ => rfl, rfl⟩
  · obtain ⟨b, hb⟩ : ∃ b, devA DEV.RET + 4 * j.val = b := ⟨_, rfl⟩
    have hrange : 0x400 ≤ b ∧ b < 0x600 := by have := j.isLt; unfold devA DEV.RET at hb; omega
    obtain ⟨hlo, hhi⟩ := hrange
    have hw : s.regWrite rowRET b m.toNat (d.setWidth 64) = (.done, s.setVal b (mergeBits (s.val b) (d.setWidth 64) m.toNat)) := by
      have h := regWrite_plain (s := s) (mask := m.toNat) (data := d.setWidth 64) (by unfold timA; omega) (by unfold timA; omega)
        (by decide : rowRET.wm ≠ 0) rfl (writable_ret hlo hhi) (judge_ret hlo hhi) (actsNext_ret hlo hhi) hc fill_ret
        (fun _ => after_ret hlo hhi)
      rwa [mask_and_full] at h
    refine ⟨s.setVal b (mergeBits (s.val b) (d.setWidth 64) m.toNat), ?_, ?_, ?_, rfl⟩
    · rw [if_neg hm, hb, ownWrite_outside (.inl (show b < 0x040000 by omega))]
      simpa [rowRET] using hw
    · rw [hb, State.val_setVal, if_pos rfl]
    · intro c hne
      rw [State.val_setVal, if_neg (hb ▸ hne)]

/-! ### The commit of SLMIN (R519) -/

/-- A mask of 48 bits puts the low 48 bits of the data in place. -/
theorem mergeBits_low48 (old : Val) (v : BitVec 48) : (mergeBits old (v.setWidth 64) 0xFFFFFFFFFFFF).setWidth 48 = v := by
  refine BitVec.eq_of_getLsbD_eq fun i hi => ?_
  have hm : Nat.testBit 0xFFFFFFFFFFFF i = true := by
    rw [show (0xFFFFFFFFFFFF : Nat) = 2 ^ 48 - 1 from rfl, Nat.testBit_two_pow_sub_one, decide_eq_true hi]
  have h64 : i < 64 := by omega
  simp only [mergeBits, BitVec.getLsbD_setWidth, BitVec.getLsbD_or, BitVec.getLsbD_and, BitVec.getLsbD_not, BitVec.getLsbD_ofNat, hm, hi, h64]
  simp

/-- A write of all 48 bits of SLMIN of an axis with soft limits off. -/
theorem regWrite_slmin (n : Fin 12) (v : BitVec 48) (hoff : s.axb n AX.CFG 0 = false) (hc : s.flt.hardClr = []) :
    ∃ x : Val, x.setWidth 48 = v ∧
      s.regWrite rowSLMIN (axBase n + AX.SLMIN) 0xFFFFFFFFFFFF (v.setWidth 64) = (.done, s.setVal (axBase n + AX.SLMIN) x) := by
  obtain ⟨hlo, hhi⟩ := axBase_window n slmin_offset
  have hw := regWrite_plain (s := s) (mask := 0xFFFFFFFFFFFF) (data := v.setWidth 64) (by unfold timA TIM.RATE; omega)
    (by unfold timA TIM.ADJ; omega) (by decide : rowSLMIN.wm ≠ 0) rfl (writable_slmin n) (judge_slmin n hoff) (actsNext_slmin n) hc fill_slmin
    (fun _ old v => (after_ax n slmin_offset old v).trans (afterAx_slmin n old v))
  rw [Nat.and_self] at hw
  exact ⟨_, mergeBits_low48 _ v, hw⟩

/-- The high word of SLMIN written over its staged low ones commits them as one value and spends the staging. -/
theorem wordWrite_slmin_high (n : Fin 12) (lo : BitVec 32) (hi : Word) (hl : (s.acc[acc]).lostStage.contains (axBase n + AX.SLMIN) = false)
    (hst : (s.acc[acc]).stagedFor (axBase n + AX.SLMIN) 3 = (0xFFFFFFFF, lo.toNat)) (hoff : s.axb n AX.CFG 0 = false) (hc : s.flt.hardClr = []) :
    ∃ x : Val, x.setWidth 48 = hi ++ lo ∧ s.wordWrite acc ⟨rowSLMIN, axBase n + AX.SLMIN, 2⟩ (0xFFFF#16).toNat hi.toNat =
      (.done, (s.setVal (axBase n + AX.SLMIN) x).unstage acc (axBase n + AX.SLMIN) 3) := by
  obtain ⟨x, hx, hw⟩ := regWrite_slmin n (hi ++ lo) hoff hc
  have hdata : BitVec.ofNat 64 (lo.toNat + hi.toNat * 65536 ^ (3 - 1)) = (hi ++ lo).setWidth 64 := by
    rw [← BitVec.ofNat_toNat, toNat_append_eq_add, Nat.add_comm]
    norm_num
  have hmask : 0xFFFFFFFF + 0xFFFF * 65536 ^ (3 - 1) = 0xFFFFFFFFFFFF := by norm_num
  have hcommit : s.commitValue acc rowSLMIN (axBase n + AX.SLMIN) 0xFFFF hi.toNat =
      (.done, (s.setVal (axBase n + AX.SLMIN) x).unstage acc (axBase n + AX.SLMIN) 3) := by
    unfold State.commitValue
    rw [if_neg (by simpa using hl), show rowSLMIN.words = 3 from rfl, hst]
    dsimp only
    rw [hdata, hmask, hw]
  refine ⟨x, hx, ?_⟩
  unfold State.wordWrite
  rw [if_neg (by decide), ownWrite_outside (.inr (axBase_window n slmin_offset).1)]
  exact hcommit

/-- Spending the staged words of a value leaves none of them. -/
theorem unstage_staged (b w : Nat) : ∀ e ∈ ((s.unstage acc b w).acc[acc]).staged, e.1 < b ∨ b + 4 * w ≤ e.1 := by
  intro e he
  have hacc : ((s.unstage acc b w).acc[acc]).staged = (s.acc[acc]).staged.filter (fun e => !(decide (b ≤ e.1) && decide (e.1 < b + 4 * w))) :=
    congrArg Accessor.staged (vupd_same ..)
  rw [hacc, List.mem_filter] at he
  obtain ⟨_, hout⟩ := he
  simp only [Bool.not_and, Bool.or_eq_true, Bool.not_eq_true', decide_eq_false_iff_not, Nat.not_le, Nat.not_lt] at hout
  exact hout

@[simp] theorem unstage_val (s : State) (acc : Fin 15) (b w : Nat) : (s.unstage acc b w).val = s.val := rfl

/-! ### The meanings -/

/-- A STATUS transaction drives the status word and changes nothing else (R511, R513). -/
theorem hostHeader_status (p : Fin 2) (hr : s.ready = true) : s.hostHeader p 0x05 0 = s.drive p (s.statusWord p) [] := by
  simp [State.hostHeader, hr]

end

/-! ### The obligation -/

/-- Settles O46: bursts of path memory by induction on their words, register words by the row that their address has. -/
theorem hostPorts : Obligations.HostPorts := by
  unfold Obligations.HostPorts
  intro s hr
  refine ⟨?_, ?_, ?_, fun hs acc => ⟨?_, ?_, ?_⟩⟩
  · intro p a ws h4 hlo hhi hv
    let d := s.drive p (if p = 1 then s.statusWord p else 0) []
    exact ⟨_, congrArg Host.Outcome.next (hostWrite_path ws hr h4 hlo hhi hv), fun i h => pathWord_pathPuts d ws a.toNat h,
      fun b hb => pathByte_pathPuts_outside d ws a.toNat hb, congrArg Accessor.status (record_acc ..),
      congrArg Accessor.words (record_acc ..), congrArg Accessor.partialW (record_acc ..), pathPuts_regs d ws a.toNat, pathPuts_axes d ws a.toNat⟩
  · intro p a n h4 hlo hhi hv hu
    exact ⟨_, congrArg Host.Outcome.next (hostRead_path n hr h4 hlo hhi hv hu), drive_host .., congrArg Accessor.status (record_acc ..),
      congrArg Accessor.words (record_acc ..), rfl, rfl, rfl⟩
  · intro p
    exact congrArg Host.Outcome.next (hostHeader_status p hr)
  · intro j m d hv hc
    obtain ⟨t, hw, hval, hother, haxes⟩ := wordWrite_ret j m d hc
    have hin : (devA DEV.RET + 4 * j.val) % 4 = 0 ∧ 0x200 ≤ devA DEV.RET + 4 * j.val ∧ devA DEV.RET + 4 * j.val < 0x050000 := by
      have := j.isLt; unfold devA DEV.RET; omega
    obtain ⟨h4, hlo, hhi⟩ := hin
    exact ⟨t, congrArg Host.Outcome.next (awake_busWrite_plain m d hr hs h4 hlo (.inl hhi) (locate_ret j) (.inl rfl) hv hw), hval, hother, haxes⟩
  · intro n lo hi hv hl hst hoff hc
    obtain ⟨x, hx, hw⟩ := wordWrite_slmin_high n lo hi hl hst hoff hc
    obtain ⟨hb, hb'⟩ := axBase_window n (o := AX.SLMIN + 8) (by decide)
    have h4 : (axBase n + AX.SLMIN + 8) % 4 = 0 := by unfold axBase AX.SLMIN; omega
    refine ⟨_, congrArg Host.Outcome.next (awake_busWrite_plain _ hi hr hs h4 (by omega) (.inr (by omega)) (locate_slmin n (w := 2) (by decide))
      (.inr rfl) hv hw), ?_, ?_, unstage_staged _ 3, rfl⟩
    · rw [unstage_val, State.val_setVal, if_pos rfl]
      exact hx
    · intro c hne
      rw [unstage_val, State.val_setVal, if_neg hne]
  · intro a r hl hw _ _ h4 hlt hne hv
    have ht : exec (.snapshotRead acc a) s = .next (s.takeSnap acc a.toNat) :=
      congrArg Host.Outcome.next ((awake_of_ready hr hs _).trans (readFull_snapshot hr h4 hlt hl hw hv))
    exact ⟨_, ht, takeSnap_shadow hne⟩

end Sys2Proof.Machine
end

section
/-! PROOF. The timebase: what its moves between the states of R27 change, and the settlement of O7. -/

namespace Sys2Proof.Machine

/-- Effects of a part that is neither in reset nor in the shelf state take place. -/
theorem awake_of_not_asleep {s : State} (h : s.asleep = false) (f : State → State) : s.awake f = f s := if_neg (by simp [h])

/-! ### What a move of the timebase leaves (R27) -/

/-- From `s` to `t` only registers, fault manager, timebase and backbone change, and of the registers only those of `l` and of the log. -/
structure TbMove (l : List Nat) (s t : State) : Prop where
  rest : t = { s with regs := t.regs, flt := t.flt, tim := t.tim, net := t.net }
  val : ∀ c, c ∉ l → logReg c = false → t.val c = s.val c

section
variable {l : List Nat} {s t u : State}

theorem TbMove.refl : TbMove l s s := ⟨rfl, fun _ _ _ => rfl⟩

theorem TbMove.trans (h : TbMove l s t) (g : TbMove l t u) : TbMove l s u :=
  ⟨by rw [g.rest]; conv => lhs; rw [h.rest], fun c hc hl => (g.val c hc hl).trans (h.val c hc hl)⟩

theorem TbMove.path (h : TbMove l s t) : t.path = s.path := (congrArg State.path h.rest :)
theorem TbMove.axes (h : TbMove l s t) : t.axes = s.axes := (congrArg State.axes h.rest :)
theorem TbMove.bore (h : TbMove l s t) : t.bore = s.bore := (congrArg State.bore h.rest :)

theorem TbMove.rd (h : TbMove l s t) {c : Nat} (hc : c ∉ l) (hl : logReg c = false) : t.rd c = s.rd c := congrArg BitVec.toNat (h.val c hc hl)

theorem tbMove_ite {p : Prop} {_ : Decidable p} (h : TbMove l s t) (g : TbMove l s u) : TbMove l s (if p then t else u) := by
  by_cases hp : p <;> simp [hp, h, g]

/-- A change of the timebase alone. -/
theorem onTim_move {f : Timebase → Timebase} (h : TbMove l s t) : TbMove l s (t.onTim f) := h.trans ⟨rfl, fun _ _ _ => rfl⟩

/-- A write to a register of `l`. -/
theorem setVal_move {b : Nat} {v : Val} (hb : b ∈ l) (h : TbMove l s t) : TbMove l s (t.setVal b v) :=
  h.trans ⟨rfl, fun c hc _ => by rw [State.val_setVal, if_neg (ne_of_mem_of_not_mem hb hc).symm]⟩

/-- What flags, interrupts and the log of events do. -/
theorem LogsAt.move {a : Nat} (ha : a ∈ l ∨ logReg a = true) (g : LogsAt a t u) (h : TbMove l s t) : TbMove l s u := by
  refine h.trans ⟨?_, fun c hc hl => g.val c ?_ hl⟩
  · have htim : u.tim = t.tim := (congrArg State.tim g.rest :)
    have hnet : u.net = t.net := (congrArg State.net g.rest :)
    rw [htim, hnet]
    exact g.rest
  · rintro rfl
    rcases ha with ha | ha
    · exact hc ha
    · simp [hl] at ha

end

section
variable {l : List Nat} {s t : State}

/-! ### The moves -/

/-- The registers that a move between the states writes beside those of the log: FLT.CONT (R499). -/
theorem tbTo_move (hl : fltA FLT.CONT ∈ l) (x : TbState) (h : TbMove l s t) : TbMove l s (t.tbTo x) := by
  have h1 : TbMove l s ((t.onTim (fun y => { y with st := x })).irq 53) :=
    (irq_logs (a := fltA FLT.HOVF) (by decide) .refl).move (.inr (by decide)) (onTim_move h)
  unfold State.tbTo
  refine tbMove_ite h ?_
  cases x with
  | free | acquire => exact h1
  | holdover => exact setVal_move hl h1
  | locked | master => exact (setVal_move hl h1).trans ⟨rfl, fun _ _ _ => rfl⟩

theorem tbTo_tim (x : TbState) : (s.tbTo x).tim = { s.tim with st := x } := by
  unfold State.tbTo
  split
  · next e => rw [← e]
  · cases x <;> simp

theorem tbAcquire_move (hl : fltA FLT.CONT ∈ l) (i : BitVec 32) (h : TbMove l s t) : TbMove l s (t.tbAcquire i) := onTim_move (tbTo_move hl _ h)

theorem tbAcquire_tim (i : BitVec 32) :
    (s.tbAcquire i).tim = { s.tim with st := .acquire, integ := i, goodRun := 0, outRun := 0, limRun := 0 } := by
  simp [State.tbAcquire, tbTo_tim]

theorem tbHoldover_move (hl : fltA FLT.CONT ∈ l) (k : Nat) (h : TbMove l s t) : TbMove l s (t.tbHoldover k) :=
  (log_logs (life_logs (a := fltA FLT.HOVF) (by decide) .refl)).move (.inr (by decide)) (onTim_move (tbTo_move hl _ h))

/-- HOLDOVER takes the last good rate, unless a part in ACQUIRE has lost its Syncs (R27). -/
theorem tbHoldover_tim (k : Nat) : (s.tbHoldover k).tim = { s.tim with
    st := .holdover, rate := if s.tim.st = .acquire ∧ k = 1 then s.tim.rate else s.rateGood, servoSlew := false } := by
  simp [State.tbHoldover, tbTo_tim]

theorem tbLost_move (hl : fltA FLT.CONT ∈ l) (h : TbMove l s t) : TbMove l s t.tbLost := tbMove_ite (tbHoldover_move hl 1 h) h

theorem tbMaster_move (hl : fltA FLT.CONT ∈ l) (h : TbMove l s t) : TbMove l s t.tbMaster := onTim_move (tbTo_move hl _ h)

theorem tbMaster_tim : s.tbMaster.tim = { s.tim with st := .master, servoSlew := false } := by simp [State.tbMaster, tbTo_tim]

end

/-- The registers that the servo writes beside those of the log and TIM.OFFS: FLT.CONT, TIM.STATUS and TIM.RATEGOOD. -/
def servoRegs : List Nat := [fltA FLT.CONT, timA TIM.STATUS, timA TIM.RATEGOOD]

section
variable {s t : State}

theorem servoLock_move (h : TbMove servoRegs s t) : TbMove servoRegs s t.servoLock :=
  tbMove_ite (setVal_move (by simp [servoRegs]) (onTim_move (tbTo_move (by simp [servoRegs]) _ h))) h

theorem outlierReturn_move (h : TbMove servoRegs s t) : TbMove servoRegs s t.outlierReturn := tbMove_ite (tbAcquire_move (by simp [servoRegs]) _ h) h

theorem servoDiverge_move (h : TbMove servoRegs s t) : TbMove servoRegs s t.servoDiverge :=
  tbMove_ite (tbHoldover_move (by simp [servoRegs]) 2 (onTim_move
    ((flag_logs (by decide) (.inl rfl) .refl).move (.inl (by simp [servoRegs])) h))) h

theorem rateMean_move (h : TbMove servoRegs s t) : TbMove servoRegs s t.rateMean := tbMove_ite (setVal_move (by simp [servoRegs]) h) h

theorem syncLost_move (h : TbMove servoRegs s t) : TbMove servoRegs s t.syncLost := tbLost_move (by simp [servoRegs]) (onTim_move h)

/-- SERVO_LOCK after 8 good Syncs (R27). -/
theorem servoLock_of_good (hs : s.tim.st = .acquire) (hg : 8 ≤ s.tim.goodRun) :
    s.servoLock.tim.st = .locked ∧ s.servoLock.val (timA TIM.RATEGOOD) = s.tim.rate.setWidth 64 := by
  rw [State.servoLock, if_pos ⟨hs, hg⟩]
  exact ⟨congrArg Timebase.st (tbTo_tim _), by rw [State.val_setVal, if_pos rfl]⟩

/-- The fourth consecutive outlier returns to ACQUIRE with integ as it is (R29). -/
theorem outlierReturn_of_four (hs : s.tim.st = .locked) (ho : 4 ≤ s.tim.outRun) : s.outlierReturn = s.tbAcquire s.tim.integ := if_pos ⟨hs, ho⟩

/-- SERVO_DIVERGE after 16 Syncs with integ at its limit (R30). -/
theorem servoDiverge_of_limit (hs : s.tim.st = .acquire ∨ s.tim.st = .locked) (hl : 16 ≤ s.tim.limRun) :
    s.servoDiverge.tim.st = .holdover ∧ s.servoDiverge.tim.mute = true ∧ s.servoDiverge.tim.rate = s.rateGood ∧
      s.servoDiverge.bit (timA TIM.STATUS) 10 = true := by
  have hf : LogsAt (timA TIM.STATUS) s (s.flag (timA TIM.STATUS) 10) := flag_logs (by decide) (.inl rfl) .refl
  have hgood : (s.flag (timA TIM.STATUS) 10).rateGood = s.rateGood :=
    congrArg (BitVec.setWidth 32) (hf.val (timA TIM.RATEGOOD) (by decide) (by decide))
  have hbit : (s.flag (timA TIM.STATUS) 10).bit (timA TIM.STATUS) 10 = true := flag_bit (by decide) (by decide) (.inl (by decide))
  rw [State.servoDiverge, if_pos ⟨hs, hl⟩]
  obtain ⟨u, hu⟩ : ∃ u, (s.flag (timA TIM.STATUS) 10).onTim (fun t => { t with mute := true, limRun := 0 }) = u := ⟨_, rfl⟩
  have hmute : u.tim.mute = true := by rw [← hu]; rfl
  have hval := (tbHoldover_move (l := [fltA FLT.CONT]) (s := u) (by simp) 2 .refl).val (timA TIM.STATUS) (by decide) (by decide)
  rw [hu, tbHoldover_tim]
  refine ⟨rfl, hmute, ?_, ?_⟩
  · rw [if_neg (by simp), ← hu]
    exact hgood
  · rw [State.bit, hval, ← hu]
    exact hbit

/-- The slave port's Syncs are lost: HOLDOVER, with the good rate after LOCKED and the rate as it is after ACQUIRE (R27). -/
theorem syncLost_tim (hs : s.tim.st = .acquire ∨ s.tim.st = .locked) : s.syncLost.tim.st = .holdover ∧
    s.syncLost.tim.rate = if s.tim.st = .acquire then s.tim.rate else s.rateGood := by
  have h : s.syncLost = (s.onTim (fun t => { t with syncLeft := none })).tbHoldover 1 := if_pos hs
  rw [h, tbHoldover_tim]
  exact ⟨rfl, by simp; rfl⟩

end

/-- Settles O7: each transition by the equation of the move that it makes, and its frame by `TbMove`. -/
theorem timebaseTransitions : Obligations.TimebaseTransitions := by
  unfold Obligations.TimebaseTransitions
  intro s ha
  refine ⟨fun hs hg => ?_, fun hs ho => ?_, fun hs hl => ?_, fun hs => ?_⟩
  · obtain ⟨hst, hrate⟩ := servoLock_of_good hs hg
    have hm := servoLock_move (s := s) .refl
    exact ⟨_, congrArg Host.Outcome.next (awake_of_not_asleep ha _), hst, hrate, hm.path, hm.axes, hm.bore⟩
  · have hm := outlierReturn_move (s := s) .refl
    have ht : s.outlierReturn.tim = _ := (congrArg State.tim (outlierReturn_of_four hs ho)).trans (tbAcquire_tim _)
    exact ⟨_, congrArg Host.Outcome.next (awake_of_not_asleep ha _), (congrArg Timebase.st ht :), (congrArg Timebase.integ ht :), hm.path, hm.axes, hm.bore⟩
  · obtain ⟨hst, hmute, hrate, hbit⟩ := servoDiverge_of_limit hs hl
    have hm := servoDiverge_move (s := s) .refl
    exact ⟨_, congrArg Host.Outcome.next (awake_of_not_asleep ha _), hst, hmute, hrate, hbit, hm.path, hm.axes, hm.bore⟩
  · obtain ⟨hst, hrate⟩ := syncLost_tim hs
    have hm := syncLost_move (s := s) .refl
    exact ⟨_, congrArg Host.Outcome.next (awake_of_not_asleep ha _), hst, fun e => by rw [hrate, if_neg (by simp [e])],
      fun e => by rw [hrate, if_pos e], hm.path, hm.axes, hm.bore⟩

end Sys2Proof.Machine
end

section
/-! PROOF. The servo at a Sync and the peer delay, and the settlement of O8. -/

namespace Sys2Proof.Machine

section
variable {s t : State}

/-! ### The servo at a Sync (R28, R29) -/

/-- A time step is permitted by TIM.CTRL and the states of the axes alone (R32). -/
theorem TbMove.stepPermitted {l : List Nat} (h : TbMove l s t) (hc : timA TIM.CTRL ∉ l) : t.stepPermitted = s.stepPermitted := by
  simp only [State.stepPermitted, State.bit, State.st, State.mot, h.axes, h.val _ hc (by decide)]

/-- A limited value reads back from a register of 32 bits. -/
theorem rdI_wrI_satI (b : Nat) (x : Int) : (s.wrI 32 b (satI 32 x)).rdI 32 b = satI 32 x := by
  have hx : -(2 ^ 31) ≤ satI 32 x ∧ satI 32 x < 2 ^ 31 := by unfold satI clampI; split <;> [omega; (split <;> omega)]
  rw [State.rdI, State.val_wrI, if_pos rfl, BitVec.setWidth_setWidth_of_le _ (by decide), BitVec.setWidth_eq]
  exact BitVec.toInt_ofInt_eq_self (by decide) hx.1 hx.2

/-- integ after a Sync (R28). -/
def State.servoInteg (s : State) (theta : Int) (ts : Nat) : Int :=
  clampI (s.tim.integ.toInt + openDiv 102 (openDiv 101 (theta * 2 ^ 40) ts) (2 ^ s.fld (timA TIM.CTRL) 11 8)) (-rMax) rMax

/-- A Sync asks for a time step: in ACQUIRE beyond the step threshold, where one is permitted (R28, R32). -/
def State.asksStep (s : State) (theta : Int) : Prop :=
  s.tim.st = .acquire ∧ 1000 * s.rd (timA TIM.STEPTHR) < theta.natAbs ∧ s.stepPermitted = true

/-- A Sync that asks for a step requests it and no more. -/
theorem servo_of_asksStep {theta : Int} (ts : Nat) (h : s.asksStep theta) :
    s.servo theta ts = s.onTim (fun t => { t with step := some theta, stepAdj := false, goodRun := 0 }) :=
  if_pos (by simpa [State.asksStep] using h)

/-- Any other Sync moves integ and the counts of Syncs and shows its offset, before the servo locks or diverges. -/
theorem servo_of_not_asksStep {theta : Int} (ts : Nat) (h : ¬ s.asksStep theta) : ∃ u : State,
    s.servo theta ts = u.rateMean.servoLock.servoDiverge ∧ u.rdI 32 (timA TIM.OFFS) = satI 32 theta ∧ u.tim.st = s.tim.st ∧
      u.tim.integ = BitVec.ofInt 32 (s.servoInteg theta ts) ∧ (s.rd (timA TIM.LOCKTHR) ≤ theta.natAbs → u.tim.goodRun = 0) ∧
      u.tim.limRun ≤ s.tim.limRun + 1 := by
  refine ⟨_, if_neg (by simpa [State.asksStep] using h), rdI_wrI_satI _ _, rfl, rfl, fun hn => if_neg (Nat.not_lt.mpr hn), ?_⟩
  show (if _ then s.tim.limRun + 1 else 0) ≤ _
  split
  · exact Nat.le_refl _
  · exact Nat.zero_le _

/-- It leaves its offset in TIM.OFFS, whether or not the servo locks or diverges. -/
theorem servo_offs {theta : Int} (ts : Nat) (h : ¬ s.asksStep theta) : (s.servo theta ts).rdI 32 (timA TIM.OFFS) = satI 32 theta := by
  obtain ⟨u, hu, hoffs, _⟩ := servo_of_not_asksStep ts h
  have hm : TbMove servoRegs u (s.servo theta ts) := hu ▸ servoDiverge_move (servoLock_move (rateMean_move .refl))
  rw [State.rdI, hm.val _ (by decide) (by decide)]
  exact hoffs

/-- A Sync outside the lock threshold in ACQUIRE, no run at the limit before it, neither locks nor diverges. -/
theorem servo_of_acquire_far {theta : Int} (ts : Nat) (h : ¬ s.asksStep theta) (hs : s.tim.st = .acquire) (hr : s.tim.limRun = 0)
    (hn : s.rd (timA TIM.LOCKTHR) ≤ theta.natAbs) :
    (s.servo theta ts).tim.st = .acquire ∧ (s.servo theta ts).tim.integ = BitVec.ofInt 32 (s.servoInteg theta ts) := by
  obtain ⟨u, hu, _, hst, hinteg, hgood, hlim⟩ := servo_of_not_asksStep ts h
  have hmean : u.rateMean = u := if_neg (by simp [hst, hs])
  have hlock : u.servoLock = u := if_neg (by simp [hgood hn])
  have hdiv : u.servoDiverge = u := if_neg (by omega)
  rw [hu, hmean, hlock, hdiv]
  exact ⟨hst.trans hs, hinteg⟩

/-- The state in which a Sync of the slave port has started the receipt timeout anew (R23). -/
def State.heard (s : State) (ts : Nat) : State := s.onTim (fun t => { t with syncLeft := some (3 * ts * 2 / 5) })

/-- The state in which the servo takes an outlier (R29). -/
def State.outlier (s : State) : State := (s.onTim (fun t => { t with outRun := t.outRun + 1 })).outlierReturn

/-- The servo takes a Sync of the slave port that is neither muted nor frozen (R28-R31). -/
theorem useSync_served {p : Fin 2} {theta : Int} (ts : Nat) (hp : s.tim.role[p] = .slave) (hm : s.tim.mute = false)
    (hf : s.servoFrozen p = false) : s.useSync p theta ts =
      if s.tim.st = .locked ∧ 8 * s.rd (timA TIM.LOCKTHR) < theta.natAbs then
        if s.outlier.tim.st = .acquire then s.outlier.servo theta ts else s.outlier
      else (s.onTim (fun t => { t with outRun := 0 })).servo theta ts :=
  if_neg (by simpa [hm, hf] using hp)

/-- So it does after the receipt timeout has started anew. -/
theorem onSync_served {p : Fin 2} {theta : Int} (ts : Nat) (hp : s.tim.role[p] = .slave) (hm : s.tim.mute = false)
    (hf : s.servoFrozen p = false) : s.onSync p theta ts =
      if s.tim.st = .locked ∧ 8 * s.rd (timA TIM.LOCKTHR) < theta.natAbs then
        if (s.heard ts).outlier.tim.st = .acquire then (s.heard ts).outlier.servo theta ts else (s.heard ts).outlier
      else ((s.heard ts).onTim (fun t => { t with outRun := 0 })).servo theta ts := by
  rw [State.onSync, if_pos hp]
  exact useSync_served (s := s.heard ts) ts hp hm hf

/-- Fewer than three outliers in a row before it: LOCKED stays, and the outlier counts (R29). -/
theorem outlier_of_few (ho : s.tim.outRun < 3) : s.outlier = s.onTim (fun t => { t with outRun := t.outRun + 1 }) := by
  refine if_neg fun ⟨_, h⟩ => ?_
  have : 4 ≤ s.tim.outRun + 1 := h
  omega

/-- Three before it: ACQUIRE begins with integ as it is (R29). -/
theorem outlier_of_three (hs : s.tim.st = .locked) (ho : s.tim.outRun = 3) :
    s.outlier = (s.onTim (fun t => { t with outRun := t.outRun + 1 })).tbAcquire s.tim.integ :=
  outlierReturn_of_four hs (by show 4 ≤ s.tim.outRun + 1; omega)

/-- A fourth outlier in LOCKED, processed in ACQUIRE: a step is requested, or integ and TIM.OFFS follow (R28, R29). -/
theorem servo_of_fourth_outlier {theta : Int} (ts : Nat) (hs : s.tim.st = .locked) (ho : s.tim.outRun = 3)
    (hfar : s.rd (timA TIM.LOCKTHR) ≤ theta.natAbs) : (s.outlier.servo theta ts).tim.st = .acquire ∧
      if 1000 * s.rd (timA TIM.STEPTHR) < theta.natAbs ∧ s.stepPermitted = true then
        (s.outlier.servo theta ts).tim.step = some theta ∧ (s.outlier.servo theta ts).tim.integ = s.tim.integ
      else (s.outlier.servo theta ts).tim.integ = BitVec.ofInt 32 (s.servoInteg theta ts) ∧
        (s.outlier.servo theta ts).rdI 32 (timA TIM.OFFS) = satI 32 theta := by
  obtain ⟨u, hu⟩ : ∃ u, s.outlier = u := ⟨_, rfl⟩
  have hm : TbMove [fltA FLT.CONT] s u := by
    rw [← hu, outlier_of_three hs ho]
    exact tbAcquire_move (by simp) _ (onTim_move .refl)
  have htim := congrArg State.tim (hu.symm.trans (outlier_of_three hs ho))
  rw [tbAcquire_tim] at htim
  have hst : u.tim.st = .acquire := (congrArg Timebase.st htim :)
  have hinteg : u.tim.integ = s.tim.integ := (congrArg Timebase.integ htim :)
  have hlim : u.tim.limRun = 0 := (congrArg Timebase.limRun htim :)
  have hperm := hm.stepPermitted (by decide)
  have hthr : u.rd (timA TIM.STEPTHR) = s.rd (timA TIM.STEPTHR) := hm.rd (by decide) (by decide)
  have hlock : u.rd (timA TIM.LOCKTHR) = s.rd (timA TIM.LOCKTHR) := hm.rd (by decide) (by decide)
  have hsum : u.servoInteg theta ts = s.servoInteg theta ts := by
    simp only [State.servoInteg, State.fld, hinteg, hm.rd (c := timA TIM.CTRL) (by decide) (by decide)]
  rw [hu, ← hthr, ← hperm, ← hinteg, ← hsum]
  by_cases hstep : u.asksStep theta
  · rw [servo_of_asksStep ts hstep, if_pos hstep.2]
    exact ⟨hst, rfl, rfl⟩
  · obtain ⟨hst', hinteg'⟩ := servo_of_acquire_far ts hstep hst hlim (hlock ▸ hfar)
    rw [if_neg fun h => hstep ⟨hst, h⟩]
    exact ⟨hst', hinteg', servo_offs ts hstep⟩

end

section
variable {s : State} (p : Fin 2)

/-! ### The peer delay (R24) -/

/-- What a delay below the threshold leaves. -/
theorem pdelay_below {d : Nat} (h : d < 800) : s.pdelay p (some d) = s.onTim (fun t => { t with
    delay := t.delay.set p d, pdGood := t.pdGood.set p (t.pdGood[p] + 1), pdBad := t.pdBad.set p 0,
    asCap := t.asCap.set p (t.asCap[p] || decide (1 ≤ t.pdGood[p])) }) := by
  simp [State.pdelay, h, State.onTim]

/-- A delay of exactly the threshold ends both runs (log 54). -/
theorem pdelay_at : s.pdelay p (some 800) = s.onTim (fun t => { t with
    delay := t.delay.set p 800, pdGood := t.pdGood.set p 0, pdBad := t.pdBad.set p 0 }) := by
  simp [State.pdelay, State.onTim]

/-- What an exchange that fails leaves. -/
theorem pdelay_failed : s.pdelay p none = s.onTim (fun t => { t with
    pdGood := t.pdGood.set p 0, pdBad := t.pdBad.set p (t.pdBad[p] + 1),
    asCap := t.asCap.set p (t.asCap[p] && decide (t.pdBad[p] < 2)) }) := by
  have hthird : ∀ k : Nat, (k + 1 < 3) = (k < 2) := fun k => propext (by omega)
  simp only [State.pdelay, State.onTim, hthird]

/-- A delay above the threshold is recorded, and counts as a failed exchange. -/
theorem pdelay_above {d : Nat} (h : 800 < d) :
    s.pdelay p (some d) = (s.onTim (fun t => { t with delay := t.delay.set p d })).pdelay p none := by
  simp [State.pdelay, show ¬ d < 800 by omega, show ¬ d = 800 by omega]

end

/-- Settles O8: the outlier by the state that it leaves the servo in, the exchange by its delay. -/
theorem syncsAndPdelay : Obligations.SyncsAndPdelay := by
  unfold Obligations.SyncsAndPdelay
  refine ⟨fun p theta ts s ha hp hm hf hs hfar => ?_, fun p s ha => ⟨fun d hd => ?_, fun x hx => ?_, ?_⟩⟩
  · have hsync := (awake_of_not_asleep ha fun s => s.onSync p theta ts).trans ((onSync_served ts hp hm hf).trans (if_pos ⟨hs, hfar⟩))
    refine ⟨fun ho => ?_, fun ho => ?_⟩
    · have hout : (s.heard ts).outlier = _ := outlier_of_few ho
      refine ⟨_, congrArg Host.Outcome.next (hsync.trans ((if_neg ?_).trans hout)), rfl, rfl⟩
      rw [hout]
      exact fun h => absurd (hs.symm.trans h) (by decide)
    · have hserved := servo_of_fourth_outlier (s := s.heard ts) ts hs ho (show s.rd (timA TIM.LOCKTHR) ≤ theta.natAbs by omega)
      have hacq : (s.heard ts).outlier.tim.st = .acquire := by rw [outlier_of_three (s := s.heard ts) hs ho, tbAcquire_tim]
      exact ⟨_, congrArg Host.Outcome.next (hsync.trans (if_pos hacq)), hserved⟩
  · exact ⟨_, congrArg Host.Outcome.next ((awake_of_not_asleep ha _).trans (pdelay_below p hd)), rfl, by simp, by simp, by simp, by simp⟩
  · rcases hx with rfl | ⟨d, rfl, hd⟩
    · exact ⟨_, congrArg Host.Outcome.next ((awake_of_not_asleep ha _).trans (pdelay_failed p)), rfl, by simp, by simp, by simp⟩
    · exact ⟨_, congrArg Host.Outcome.next ((awake_of_not_asleep ha _).trans ((pdelay_above p hd).trans (pdelay_failed p))), rfl,
        by simp, by simp, by simp⟩
  · exact ⟨_, congrArg Host.Outcome.next ((awake_of_not_asleep ha _).trans (pdelay_at p)), by simp, by simp, by simp⟩

end Sys2Proof.Machine
end

section
/-! PROOF. The roles of the ports and the messages that they send, and the settlement of O9 and O10. -/

namespace Sys2Proof.Machine

section
variable {s t u : State}

/-! ### The roles that the BMCA gives (R25, R27) -/

/-- A move of the timebase that leaves the ports' roles and messages, the grandmaster, the tick and device time alone. -/
structure RolesKept (s t : State) : Prop extends TbMove [fltA FLT.CONT] s t where
  role : t.tim.role = s.tim.role
  gm : t.tim.gmId = s.tim.gmId
  ptp : t.tim.ptp = s.tim.ptp
  tick : t.tim.tick = s.tim.tick
  time : t.tim.time = s.tim.time

theorem RolesKept.refl : RolesKept s s := ⟨.refl, rfl, rfl, rfl, rfl, rfl⟩

theorem rolesKept_ite {p : Prop} {_ : Decidable p} (h : RolesKept s t) (g : RolesKept s u) : RolesKept s (if p then t else u) := by
  by_cases hp : p <;> simp [hp, h, g]

theorem tbAcquire_rolesKept (i : BitVec 32) (h : RolesKept s t) : RolesKept s (t.tbAcquire i) := by
  refine ⟨tbAcquire_move (by simp) i h.toTbMove, ?_, ?_, ?_, ?_, ?_⟩ <;> rw [tbAcquire_tim]
  exacts [h.role, h.gm, h.ptp, h.tick, h.time]

theorem tbMaster_rolesKept (h : RolesKept s t) : RolesKept s t.tbMaster := by
  refine ⟨tbMaster_move (by simp) h.toTbMove, ?_, ?_, ?_, ?_, ?_⟩ <;> rw [tbMaster_tim]
  exacts [h.role, h.gm, h.ptp, h.tick, h.time]

theorem tbHoldover_rolesKept (k : Nat) (h : RolesKept s t) : RolesKept s (t.tbHoldover k) := by
  refine ⟨tbHoldover_move (by simp) k h.toTbMove, ?_, ?_, ?_, ?_, ?_⟩ <;> rw [tbHoldover_tim]
  exacts [h.role, h.gm, h.ptp, h.tick, h.time]

theorem tbLost_rolesKept (h : RolesKept s t) : RolesKept s t.tbLost := rolesKept_ite (tbHoldover_rolesKept 1 h) h

/-- The state of the timebase follows the roles, and leaves them as they are (R27). -/
theorem tbRoles_rolesKept (newGm : Bool) : RolesKept s (s.tbRoles newGm) := by
  have hwins : ∀ {t}, RolesKept s t → RolesKept s (if t.tbWins then t.tbMaster else t) := fun h => rolesKept_ite (tbMaster_rolesKept h) h
  unfold State.tbRoles
  extract_lets slave
  split
  case h_1 => exact rolesKept_ite (tbAcquire_rolesKept _ .refl) (hwins .refl)
  case h_2 => exact rolesKept_ite .refl (hwins (tbLost_rolesKept .refl))
  case h_3 => exact rolesKept_ite (rolesKept_ite (tbAcquire_rolesKept _ .refl) .refl) (hwins (tbLost_rolesKept .refl))
  case h_4 => exact rolesKept_ite (rolesKept_ite .refl (tbAcquire_rolesKept _ .refl)) (hwins .refl)
  case h_5 => exact rolesKept_ite (tbAcquire_rolesKept _ .refl) .refl

/-- The BMCA gives both ports their roles and names the grandmaster; the ports' messages, the tick, device time, the axes and path
memory stay. -/
theorem bmca_gives (gm r0 r1 : Nat) : (s.bmca gm r0 r1).tim.role = #v[roleOf r0, roleOf r1] ∧ (s.bmca gm r0 r1).tim.gmId = gm ∧
    (s.bmca gm r0 r1).tim.ptp = s.tim.ptp ∧ (s.bmca gm r0 r1).tim.tick = s.tim.tick ∧ (s.bmca gm r0 r1).tim.time = s.tim.time ∧
    (s.bmca gm r0 r1).axes = s.axes ∧ (s.bmca gm r0 r1).path = s.path := by
  unfold State.bmca
  extract_lets newGm wait roles
  have h := fun v : State => tbRoles_rolesKept (s := v) newGm
  exact ⟨(h _).role, (h _).gm, (h _).ptp, (h _).tick, (h _).time, (h _).axes, (h _).path⟩

/-- An Announce starts the receipt timeout of its port anew (R23). -/
theorem announced_annLeft (p : Fin 2) (gm r0 r1 : Nat) : ((s.announced p gm r0 r1).tim.ptp[p]).annLeft = some 1200000000 := by
  rw [State.announced, (bmca_gives gm r0 r1).2.2.1]
  exact congrArg PtpPort.annLeft (vupd_same ..)

/-- The timeout of an Announce forgets the master of its port (R23). -/
theorem announceLost_ann (p : Fin 2) (gm r0 r1 : Nat) :
    ((s.announceLost p gm r0 r1).tim.ptp[p]).ann = none ∧ ((s.announceLost p gm r0 r1).tim.ptp[p]).annLeft = none := by
  rw [State.announceLost, (bmca_gives gm r0 r1).2.2.1]
  exact ⟨congrArg PtpPort.ann (vupd_same ..), congrArg PtpPort.annLeft (vupd_same ..)⟩

end

section
variable {s t u : State}

/-! ### The messages that the ports send (R22, R23) -/

/-- From `s` to `t` roles, grandmaster and device time stay, which ports are up, and what each port but `n` keeps of its messages. -/
structure PortKept (n : Fin 2) (s t : State) : Prop where
  role : t.tim.role = s.tim.role
  gm : t.tim.gmId = s.tim.gmId
  time : t.tim.time = s.tim.time
  up : ∀ m, t.portUp m = s.portUp m
  ptp : ∀ m, m ≠ n → t.tim.ptp[m] = s.tim.ptp[m]

theorem PortKept.refl {n : Fin 2} : PortKept n s s := ⟨rfl, rfl, rfl, fun _ => rfl, fun _ _ => rfl⟩

theorem PortKept.trans {n : Fin 2} (h : PortKept n s t) (g : PortKept n t u) : PortKept n s u :=
  ⟨g.role.trans h.role, g.gm.trans h.gm, g.time.trans h.time, fun m => (g.up m).trans (h.up m), fun m hm => (g.ptp m hm).trans (h.ptp m hm)⟩

/-- What one port after the other does, each by its own link, role and messages. -/
theorem eachPort {f : State → Fin 2 → State} {e : Bool → PortRole → PtpPort → PtpPort} (hk : ∀ s n, PortKept n s (f s n))
    (he : ∀ s n, (f s n).tim.ptp[n] = e (s.portUp n) s.tim.role[n] s.tim.ptp[n]) (s : State) :
    (overList (List.finRange 2) f s).tim.role = s.tim.role ∧ (overList (List.finRange 2) f s).tim.gmId = s.tim.gmId ∧
      (overList (List.finRange 2) f s).tim.time = s.tim.time ∧
      ∀ n : Fin 2, (overList (List.finRange 2) f s).tim.ptp[n] = e (s.portUp n) s.tim.role[n] s.tim.ptp[n] := by
  have h0 := hk s 0
  have h1 := hk (f s 0) 1
  refine ⟨h1.role.trans h0.role, h1.gm.trans h0.gm, h1.time.trans h0.time, fun n => ?_⟩
  match n with
  | 0 => exact (h1.ptp 0 (by decide)).trans (he s 0)
  | 1 =>
    refine (he (f s 0) 1).trans ?_
    rw [h0.up, h0.role, h0.ptp 1 (by decide)]

/-- Port n's counts of dropped frames are no port's status. -/
theorem npStat_ne_drop (n m : Fin 2) (q : Nat) : npStat m ≠ netpBase n + (if q = 3 then NETP.DROP3 else NETP.DROPCNT) := by
  have hd : ∀ n m : Fin 2, npStat m ≠ netpBase n + NETP.DROP3 ∧ npStat m ≠ netpBase n + NETP.DROPCNT := by decide
  split
  · exact (hd n m).1
  · exact (hd n m).2

/-- A frame that is stored or dropped leaves the timebase and the links alone (R428, R429). -/
theorem enqueue_kept (n : Fin 2) (f : Frame) : (s.enqueue n f).tim = s.tim ∧ ∀ m, (s.enqueue n f).portUp m = s.portUp m := by
  unfold State.enqueue
  extract_lets h
  split
  · exact ⟨rfl, fun _ => rfl⟩
  · split
    · exact ⟨rfl, fun m => congrArg (BitVec.getLsbD · 15) (State.val_bump_other _ _ _ _ (npStat_ne_drop n m f.q))⟩
    · exact ⟨rfl, fun _ => rfl⟩

theorem sendPtp_kept (n : Fin 2) (b : List Byte) : PortKept n s (s.sendPtp n b) ∧ (s.sendPtp n b).tim.ptp = s.tim.ptp := by
  have htim : (s.sendPtp n b).tim = { s.tim with msgs := s.tim.msgs + 1 } := by simp [State.sendPtp, (enqueue_kept n _).1]
  refine ⟨⟨?_, ?_, ?_, (enqueue_kept n _).2, fun m _ => ?_⟩, ?_⟩ <;> rw [htim]

/-- What port n keeps of its messages is its own. -/
theorem onPtp_kept (n : Fin 2) (f : PtpPort → PtpPort) : PortKept n s (s.onPtp n f) :=
  ⟨rfl, rfl, rfl, fun _ => rfl, fun m hm => vupd_other _ n m f hm⟩

/-- A message of port n, and what it leaves of the port's own messages. -/
theorem sendPtp_onPtp (n : Fin 2) (b : List Byte) (f : PtpPort → PtpPort) :
    PortKept n s ((s.sendPtp n b).onPtp n f) ∧ ((s.sendPtp n b).onPtp n f).tim.ptp[n] = f s.tim.ptp[n] := by
  obtain ⟨hk, hp⟩ := sendPtp_kept (s := s) n b
  refine ⟨hk.trans (onPtp_kept n f), (vupd_same ..).trans ?_⟩
  rw [hp]

/-- A failed exchange leaves the messages of every port alone. -/
theorem pdelay_none_kept (n : Fin 2) : PortKept n s (s.pdelay n none) ∧ (s.pdelay n none).tim.ptp = s.tim.ptp :=
  ⟨⟨rfl, rfl, rfl, fun _ => rfl, fun _ _ => rfl⟩, rfl⟩

/-- What a port keeps of its messages after an interval of kind `k`, by its link and its role (R23): a port that is up and master has
numbered a new Sync or Announce, one that is up a new Pdelay_Req, with no timestamp of an exchange left. -/
def portSent (k : Fin 3) (up : Bool) (r : PortRole) (x : PtpPort) : PtpPort :=
  if k = 0 then (if up = true ∧ r = .master then { x with seqSync := x.seqSync + 1 } else x)
  else if k = 1 then (if up = true ∧ r = .master then { x with seqAnn := x.seqAnn + 1 } else x)
  else if up = true then { x with seqPd := x.seqPd + 1, t1 := none, t2 := none } else x

/-- The numbers of the messages after an interval. -/
theorem portSent_seq (k : Fin 3) (up : Bool) (r : PortRole) (x : PtpPort) :
    (portSent k up r x).seqSync = x.seqSync + (if k = 0 ∧ up = true ∧ r = .master then 1 else 0) ∧
    (portSent k up r x).seqAnn = x.seqAnn + (if k = 1 ∧ up = true ∧ r = .master then 1 else 0) ∧
    (portSent k up r x).seqPd = x.seqPd + (if k = 2 ∧ up = true then 1 else 0) ∧
    (k = 2 → up = true → (portSent k up r x).t1 = none ∧ (portSent k up r x).t2 = none) := by
  match k with
  | 0 | 1 => by_cases hc : up = true ∧ r = .master <;> simp [portSent, hc]
  | 2 => by_cases hc : up = true <;> simp [portSent, hc]

/-- A port that is up and master sends, and any other does nothing. -/
theorem ite_sends {c : Prop} {_ : Decidable c} {n : Fin 2} {x : PtpPort} (h : PortKept n s t ∧ t.tim.ptp[n] = x) :
    PortKept n s (if c then t else s) ∧ (if c then t else s).tim.ptp[n] = if c then x else s.tim.ptp[n] := by
  by_cases hc : c
  · rwa [if_pos hc, if_pos hc]
  · rw [if_neg hc, if_neg hc]
    exact ⟨.refl, rfl⟩

/-- What a port that is up does at a Pdelay interval: an exchange that has not ended has failed, and a new Pdelay_Req leaves (R23, R24). -/
def State.reqPdelay (s : State) (n : Fin 2) : State :=
  let s1 := if s.tim.ptp[n].t1.isSome then s.pdelay n none else s
  let q := s1.tim.ptp[n].seqPd + 1
  (s1.sendPtp n (s1.ptpFrame n 2 8 0 q 5 (logByte (s.fld (timA TIM.PTPCFG) 7 4)) (beBytes 20 0))).onPtp n (fun x => { x with
    seqPd := q, t1 := none, t2 := none })

theorem reqPdelay_kept (n : Fin 2) : PortKept n s (s.reqPdelay n) ∧
    (s.reqPdelay n).tim.ptp[n] = { s.tim.ptp[n] with seqPd := s.tim.ptp[n].seqPd + 1, t1 := none, t2 := none } := by
  unfold State.reqPdelay
  extract_lets s1 q
  have h : PortKept n s s1 ∧ s1.tim.ptp = s.tim.ptp := by
    simp only [s1]
    split
    · exact pdelay_none_kept n
    · exact ⟨.refl, rfl⟩
  obtain ⟨hk, hp⟩ := sendPtp_onPtp (s := s1) n (s1.ptpFrame n 2 8 0 q 5 (logByte (s.fld (timA TIM.PTPCFG) 7 4)) (beBytes 20 0))
    (fun x => { x with seqPd := q, t1 := none, t2 := none })
  refine ⟨h.1.trans hk, hp.trans ?_⟩
  show ({ s1.tim.ptp[n] with seqPd := s1.tim.ptp[n].seqPd + 1, t1 := none, t2 := none } : PtpPort) = _
  rw [h.2]

/-- At an interval each port that sends numbers its message; roles, grandmaster and device time stay (R23). -/
theorem gptp_each (k : Fin 3) : (s.gptp k).tim.role = s.tim.role ∧ (s.gptp k).tim.gmId = s.tim.gmId ∧ (s.gptp k).tim.time = s.tim.time ∧
    ∀ n : Fin 2, (s.gptp k).tim.ptp[n] = portSent k (s.portUp n) s.tim.role[n] s.tim.ptp[n] :=
  match k with
  | 0 | 1 => eachPort (fun _ n => (ite_sends (sendPtp_onPtp n _ _)).1) (fun _ n => (ite_sends (sendPtp_onPtp n _ _)).2) s
  | 2 => eachPort (f := fun s n => if s.portUp n then s.reqPdelay n else s) (fun _ n => (ite_sends (reqPdelay_kept n)).1)
      (fun _ n => (ite_sends (reqPdelay_kept n)).2) s

end

/-- Settles O9: the BMCA's result by the moves of the timebase that it makes, the messages port by port. -/
theorem mastersAndMessages : Obligations.MastersAndMessages := by
  unfold Obligations.MastersAndMessages
  refine fun s ha => ⟨fun p gm r0 r1 => ⟨?_, ?_⟩, fun k => ?_⟩
  · obtain ⟨hrole, hgm, _, htick, htime, haxes, hpath⟩ := bmca_gives (s := s.onTim _) gm r0 r1
    exact ⟨_, congrArg Host.Outcome.next (awake_of_not_asleep ha _), hrole, hgm, announced_annLeft p gm r0 r1, htick, htime, haxes, hpath⟩
  · obtain ⟨hrole, hgm, _, htick, htime, haxes, hpath⟩ := bmca_gives (s := s.onTim _) gm r0 r1
    obtain ⟨hann, hleft⟩ := announceLost_ann (s := s) p gm r0 r1
    exact ⟨_, congrArg Host.Outcome.next (awake_of_not_asleep ha _), hrole, hgm, hann, hleft, htick, htime, haxes, hpath⟩
  · obtain ⟨hrole, hgm, htime, hptp⟩ := gptp_each (s := s) k
    refine ⟨_, congrArg Host.Outcome.next (awake_of_not_asleep ha _), hrole, hgm, htime, fun n => ?_⟩
    rw [hptp n]
    exact portSent_seq k _ _ _

/-- Settles O10: no Sync but one that asks for a step fails to show its offset; roles by the BMCA, the exchange by its delay. -/
theorem servoAndBestMaster : Obligations.ServoAndBestMaster := by
  unfold Obligations.ServoAndBestMaster
  refine ⟨fun p theta ts s ha hp hm hf hcase => ?_, fun p gm r0 r1 s ha => ⟨?_, ?_⟩, fun p delay s ha => ?_⟩
  · have hin : ¬ (s.tim.st = .locked ∧ 8 * s.rd (timA TIM.LOCKTHR) < theta.natAbs) := by
      rintro ⟨hs, hfar⟩
      rcases hcase with ⟨hacq, _⟩ | ⟨_, hnear⟩
      · exact absurd (hs.symm.trans hacq) (by decide)
      · omega
    have hask : ¬ ((s.heard ts).onTim (fun t => { t with outRun := 0 })).asksStep theta := by
      rintro ⟨hacq, hfar, _⟩
      rcases hcase with ⟨_, hnear⟩ | ⟨hs, _⟩
      · exact absurd hfar (Nat.not_lt.mpr hnear)
      · exact absurd (hs.symm.trans hacq) (by decide)
    exact ⟨_, congrArg Host.Outcome.next ((awake_of_not_asleep ha _).trans ((onSync_served ts hp hm hf).trans (if_neg hin))), servo_offs ts hask⟩
  · obtain ⟨hrole, hgm, _⟩ := bmca_gives (s := s.onTim _) gm r0 r1
    exact ⟨_, congrArg Host.Outcome.next (awake_of_not_asleep ha _), hrole, hgm⟩
  · obtain ⟨hrole, hgm, _⟩ := bmca_gives (s := s.onTim _) gm r0 r1
    exact ⟨_, congrArg Host.Outcome.next (awake_of_not_asleep ha _), hrole, hgm⟩
  · match delay with
    | none =>
      exact ⟨_, congrArg Host.Outcome.next ((awake_of_not_asleep ha _).trans (pdelay_failed p)), rfl, rfl, by simp⟩
    | some d =>
      rcases Nat.lt_trichotomy d 800 with hd | rfl | hd
      · refine ⟨_, congrArg Host.Outcome.next ((awake_of_not_asleep ha _).trans (pdelay_below p hd)), rfl, by simp, ?_⟩
        rw [if_pos hd]
        simp
      · exact ⟨_, congrArg Host.Outcome.next ((awake_of_not_asleep ha _).trans (pdelay_at p)), rfl, by simp, by simp⟩
      · refine ⟨_, congrArg Host.Outcome.next ((awake_of_not_asleep ha _).trans ((pdelay_above p hd).trans (pdelay_failed p))), rfl, by simp, ?_⟩
        rw [if_neg (by omega), if_neg (by omega)]
        simp

end Sys2Proof.Machine
end

section
/-! PROOF. Device time: steps, slews, and the commits of TIM.RATE and TIM.ADJ, and the settlement of O11. -/

namespace Sys2Proof.Machine

/-! ### The words of TIM.RATE and TIM.ADJ (R48) -/

/-- The row of TIM.RATE. -/
def rowRATE : Row := ⟨0x070, 2, 1, 4, .wc, 0x0, 0xFFFFFFFF, 0x0, 32, true, -2147483648, 2147483647⟩

/-- The row of TIM.ADJ. -/
def rowADJ : Row := ⟨0x080, 3, 1, 4, .wc, 0x0, 0xFFFFFFFFFFFF, 0x0, 48, true, -140737488355328, 140737488355327⟩

theorem locate_rate : locate (timA TIM.RATE + 4) = some ⟨rowRATE, timA TIM.RATE, 1⟩ := by decide

theorem locate_adj : locate (timA TIM.ADJ + 8) = some ⟨rowADJ, timA TIM.ADJ, 2⟩ := by decide

section
variable {s t : State} {acc : Fin 15} {b : Nat} {r : Row}

/-- A write can change every bit of TIM.RATE. -/
theorem writable_rate : s.writable rowRATE (timA TIM.RATE) = 0xFFFFFFFF := by
  simp [State.writable, timA, TIM.RATE, rowRATE, gpioA, GPIO.MODE, netA, NET.PUB, wldA, WLD.SBLK]

/-- A write can change every bit of TIM.ADJ. -/
theorem writable_adj : s.writable rowADJ (timA TIM.ADJ) = 0xFFFFFFFFFFFF := by
  simp [State.writable, timA, TIM.ADJ, rowADJ, gpioA, GPIO.MODE, netA, NET.PUB, wldA, WLD.SBLK]

/-- A mask of the low `w` bits puts the low `w` bits of the data in place. -/
theorem mergeBits_low {w : Nat} (hw : w ≤ 64) (old : Val) (v : BitVec w) : (mergeBits old (v.setWidth 64) (2 ^ w - 1)).setWidth w = v := by
  refine BitVec.eq_of_getLsbD_eq fun i hi => ?_
  have h64 : i < 64 := by omega
  have hm : (BitVec.ofNat 64 (2 ^ w - 1)).getLsbD i = true := by simp [BitVec.getLsbD_ofNat, h64, hi]
  simp only [mergeBits, BitVec.getLsbD_setWidth, BitVec.getLsbD_or, BitVec.getLsbD_and, BitVec.getLsbD_not, hm, hi, h64]
  simp

/-- A commit of TIM.RATE sets rate and integ, or is refused and leaves the timebase (R33). -/
theorem timRate_commits (w : BitVec 32) : (s.timRate w).1 ≠ .buserr ∧ (s.timRate w).2.axes = s.axes ∧ (s.timRate w).2.tim =
    if s.bit (timA TIM.CTRL) 0 = true ∨ s.tim.st = .free ∨ s.tim.st = .master then { s.tim with rate := w, integ := w } else s.tim := by
  unfold State.timRate
  split <;> exact ⟨by simp, rfl, rfl⟩

/-- A commit of TIM.ADJ steps or slews, or is refused and leaves the timebase (R33). -/
theorem timAdj_commits (w : BitVec 48) : (s.timAdj w).1 ≠ .buserr ∧ (s.timAdj w).2.axes = s.axes ∧ (s.timAdj w).2.tim =
    if s.tim.st = .free ∨ s.tim.st = .master then
      (if s.stepPermitted = true then { s.tim with step := some w.toInt, stepAdj := true, slew := 0, slewing := false }
       else { s.tim with step := none, slew := w.toInt * 2 ^ 48, slewing := decide (w ≠ 0#48) })
    else s.tim := by
  unfold State.timAdj
  split
  · split <;> exact ⟨by simp, rfl, rfl⟩
  · exact ⟨by simp, rfl, rfl⟩

/-- A write of all 32 bits of TIM.RATE is the commit. -/
theorem regWrite_rate (v : BitVec 32) : s.regWrite rowRATE (timA TIM.RATE) 0xFFFFFFFF (v.setWidth 64) = s.timRate v := by
  have hv : (mergeBits (s.held (timA TIM.RATE)) (v.setWidth 64) 0xFFFFFFFF).setWidth 32 = v := mergeBits_low (by decide) _ v
  simp only [State.regWrite, writable_rate, Nat.and_self, if_true, hv]

/-- A write of all 48 bits of TIM.ADJ is the commit; where it is taken, the register holds the value. -/
theorem regWrite_adj (v : BitVec 48) : ∃ t, s.regWrite rowADJ (timA TIM.ADJ) 0xFFFFFFFFFFFF (v.setWidth 64) = ((s.timAdj v).1, t) ∧
    t.axes = (s.timAdj v).2.axes ∧ t.tim = (s.timAdj v).2.tim := by
  have hv : (mergeBits (s.held (timA TIM.ADJ)) (v.setWidth 64) 0xFFFFFFFFFFFF).setWidth 48 = v := mergeBits_low (by decide) _ v
  have hne : timA TIM.ADJ ≠ timA TIM.RATE := by decide
  simp only [State.regWrite, writable_adj, Nat.and_self, if_neg hne, if_true, hv]
  refine ⟨_, rfl, ?_⟩
  split <;> exact ⟨rfl, rfl⟩

/-- The staged words of a value and its highest one are the number that they are side by side. -/
theorem ofNat_staged {l k : Nat} (lo : BitVec l) (hi : Word) (hk : 65536 ^ k = 2 ^ l) :
    BitVec.ofNat 64 (lo.toNat + hi.toNat * 65536 ^ k) = (hi ++ lo).setWidth 64 := by
  rw [← BitVec.ofNat_toNat, toNat_append_eq_add, Nat.add_comm, hk]

/-- The highest word of a value outside FLT and NET, written whole over its staged words, commits them as one value and spends the
staging (R519). -/
theorem wordWrite_commit (k : Nat) {d m v : Nat} (hacc : r.acc = .wc) (hw : r.words = k + 1) (hb : b < 0x040000)
    (hl : (s.acc[acc]).lostStage.contains b = false) (hst : (s.acc[acc]).stagedFor b (k + 1) = (m, v)) {x : Status × State}
    (hx : s.regWrite r b (m + 0xFFFF * 65536 ^ k) (BitVec.ofNat 64 (v + d * 65536 ^ k)) = x) :
    s.wordWrite acc ⟨r, b, k⟩ 0xFFFF d = (x.1, x.2.unstage acc b (k + 1)) := by
  unfold State.wordWrite
  rw [if_neg (by decide), ownWrite_outside (.inl hb)]
  simp only [hacc, hw, Nat.lt_irrefl, if_false, State.commitValue, hl, hst, Nat.add_sub_cancel, Bool.false_eq_true, hx]

/-- The highest word of a value of TIM, as the command of an accessor of a part that serves and that the worlds permit: the value is
written, and the staging is spent. -/
theorem awake_commit_tim {a k m v : Nat} (hi : Word) (hr : s.ready = true) (hs : s.pow.shelf ≠ .shelf) (h4 : a % 4 = 0) (hlo : 0x200 ≤ a)
    (hhi : a < 0x040000) (hb : b < 0x040000) (hloc : locate a = some ⟨r, b, k⟩) (hacc : r.acc = .wc) (hw : r.words = k + 1)
    (hv : s.violationOf acc a true = none) (hl : (s.acc[acc]).lostStage.contains b = false)
    (hst : (s.acc[acc]).stagedFor b (k + 1) = (m, v)) {x : Status × State}
    (hx : s.regWrite r b (m + 0xFFFF * 65536 ^ k) (BitVec.ofNat 64 (v + hi.toNat * 65536 ^ k)) = x) (hne : x.1 ≠ .buserr) :
    s.awake (fun s => (s.busWrite acc a (0xFFFF#16 ++ hi)).2) = x.2.unstage acc b (k + 1) := by
  have h : s.writeWord acc a (0xFFFF#16 ++ hi) = (x.1, x.2.unstage acc b (k + 1)) := by
    have hend : a < 0x500000 := by omega
    unfold State.writeWord
    rw [if_neg (by simp [hr, h4, hend]), hloc, if_neg (by simp), hv, word_mask, word_data]
    exact (writeReg_plain 0xFFFF#16 (.inr hacc) hlo (.inl (by omega))).trans (wordWrite_commit k hacc hw hb hl hst hx)
  rw [awake_of_ready hr hs, State.busWrite, h, State.counted, if_neg fun e => hne e.1]

end

section
variable {s : State}

/-! ### Steps and slews (R32, R33) -/

/-- What a requested step that is permitted leaves, the grid and the cycle number apart (R32). -/
theorem timeStep_permitted {d : Int} (hd : s.tim.step = some d) (hp : s.stepPermitted = true) :
    ∃ g c, s.timeStep = s.onTim (fun t => { t with
      time := t.time + BitVec.ofInt 112 (d * 2 ^ 48), step := none, stepCycle := true, gridH := g, cyc := c }) := by
  unfold State.timeStep
  rw [hd]
  exact ⟨_, _, if_pos hp⟩

/-- A step of TIM.ADJ that is no longer permitted becomes a slew (R33). -/
theorem timeStep_slews {d : Int} (hd : s.tim.step = some d) (hp : s.stepPermitted = false) (ha : s.tim.stepAdj = true) :
    s.timeStep = s.onTim (fun t => { t with step := none, slew := d * 2 ^ 48, slewing := decide (d ≠ 0) }) := by
  unfold State.timeStep
  rw [hd]
  exact (if_neg (by simp [hp])).trans (if_pos ha)

end

/-- Settles O11: the commits by the words that the registers take, the steps and slews by their equations. -/
theorem timeMoves : Obligations.TimeMoves := by
  unfold Obligations.TimeMoves
  refine ⟨fun s d ha hd => ⟨fun hp => ?_, fun hp hadj => ?_⟩, fun s ha hz => ?_, fun acc lo hi s hr hs hv hl hst => ?_,
    fun acc lo hi s hr hs hv hl hst => ?_⟩
  · obtain ⟨g, c, h⟩ := timeStep_permitted hd hp
    exact ⟨_, congrArg Host.Outcome.next ((awake_of_not_asleep ha _).trans h), rfl, rfl, rfl, rfl, rfl⟩
  · exact ⟨_, congrArg Host.Outcome.next ((awake_of_not_asleep ha _).trans (timeStep_slews hd hp hadj)), rfl, rfl, rfl, rfl, rfl⟩
  · have h : s.slewComplete = _ := if_pos hz
    exact ⟨_, congrArg Host.Outcome.next ((awake_of_not_asleep ha _).trans (congrArg State.servoSlewEnd h)), rfl, rfl, rfl⟩
  · obtain ⟨hne, haxes, htim⟩ := timRate_commits (s := s) (hi ++ lo)
    have hcommit := awake_commit_tim hi hr hs (by decide) (by decide) (by decide) (by decide) locate_rate rfl rfl hv hl hst
      (x := s.timRate (hi ++ lo)) (by rw [ofNat_staged lo hi rfl]; exact regWrite_rate _) hne
    exact ⟨_, congrArg Host.Outcome.next hcommit, haxes, htim⟩
  · obtain ⟨hne, haxes, htim⟩ := timAdj_commits (s := s) (hi ++ lo)
    obtain ⟨t, ht, htaxes, httim⟩ := regWrite_adj (s := s) (hi ++ lo)
    have hcommit := awake_commit_tim hi hr hs (by decide) (by decide) (by decide) (by decide) locate_adj rfl rfl hv hl hst
      (x := ((s.timAdj (hi ++ lo)).1, t)) (by rw [ofNat_staged lo hi rfl]; exact ht) hne
    exact ⟨_, congrArg Host.Outcome.next hcommit, htaxes.trans haxes, httim.trans htim⟩

end Sys2Proof.Machine
end

section
/-! PROOF. The tick edge as it closes, the cycle boundary and the commit of an axis, and the settlement of O13. -/

namespace Sys2Proof.Machine

section
variable {s : State} {A : Type}

/-- What each step of a run over a list establishes for its element, and every step keeps, holds at the end of every element. -/
theorem overList_establishes {P : State → A → Prop} {l : List A} {f : State → A → State} (hset : ∀ s a, P (f s a) a)
    (hkeep : ∀ s a b, P s b → P (f s a) b) {a : A} (ha : a ∈ l) : P (overList l f s) a := by
  have hrun : ∀ (l : List A) (s : State), P s a → P (overList l f s) a := by
    intro l
    induction l with
    | nil => exact fun _ h => h
    | cons b l ih => exact fun s h => ih (f s b) (hkeep s b a h)
  induction l generalizing s with
  | nil => exact absurd ha List.not_mem_nil
  | cons b l ih =>
    rcases List.mem_cons.mp ha with rfl | ha
    · exact hrun l _ (hset s a)
    · exact ih ha

/-- A part of the state that every step of a run over a list keeps. -/
theorem overList_const {B : Type} {g : State → B} {l : List A} {f : State → A → State} (h : ∀ s a, g (f s a) = g s) : g (overList l f s) = g s := by
  induction l generalizing s with
  | nil => rfl
  | cons a l ih => exact ih.trans (h s a)

end

section
variable {s : State}

/-! ### The tick edge closes (R39, R527) -/

/-- An attention cause is pending on the secure bank (R527). -/
theorem irq_pends (b : Nat) : (s.irq b).bit (devA DEV.IRQS_PEND + 4 * (b / 16)) (b % 16) = true := State.bit_setBit _ _ _ _ (by omega)

/-- An attention cause leaves the others pending. -/
theorem irq_keeps_pending {b : Nat} (hb : b < 64) {c i : Nat} (hp : pendReg c = true) (h : s.bit c i = true) : (s.irq b).bit c i = true :=
  (irq_logs (a := fltA FLT.HOVF) hb .refl).mono c i hp h

/-- Axis n starts its tick from the control state that the edge leaves, not committed but in a debug halt or before the first edge of a
new grid. -/
def State.tickStarted (s : State) (n : Fin 12) : Prop :=
  (s.axes[n]).ctl.now = (s.axes[n]).ctl.work ∧ (s.axes[n]).ctl.committed = (s.bore.newGrid || s.stage.halt)

/-- The start of one axis. -/
def State.tickStart (s : State) (n : Fin 12) : State :=
  s.onAx n (fun a => { a with ctl := { a.ctl with now := a.ctl.work, committed := s.bore.newGrid || s.stage.halt } })

theorem tickBegins_eq : s.tickBegins = overList allAxes State.tickStart s := rfl

theorem tickStart_same (n : Fin 12) : (s.tickStart n).tickStarted n := by
  simp [State.tickStarted, State.tickStart, State.onAx]

theorem tickStart_keeps (m n : Fin 12) (h : s.tickStarted n) : (s.tickStart m).tickStarted n := by
  by_cases hn : n = m
  · exact hn ▸ tickStart_same n
  · simpa [State.tickStarted, State.tickStart, State.onAx, vupd_other_val _ m n _ hn] using h

/-- When the tick begins every axis has started it. -/
theorem tickBegins_starts (n : Fin 12) : s.tickBegins.tickStarted n := by
  rw [tickBegins_eq]
  exact overList_establishes (fun t m => tickStart_same (s := t) m) (fun t m n => tickStart_keeps (s := t) m n) (List.mem_finRange n)

theorem tickBegins_regs : s.tickBegins.regs = s.regs := overList_const (g := State.regs) (f := State.tickStart) fun _ _ => rfl

theorem setOuts_pow (edge : Bool) : (s.setOuts edge).pow = s.pow := (congrArg State.pow (uf_overList (fun t u => setOut_uf t u edge) s).rest :)

/-- Step 2 of the shelf entry waits 100 µs for the ports (R565). -/
theorem shelfLeave_leaving : s.shelfLeave.pow.shelf = .leaving 40000 := by
  unfold State.shelfLeave
  extract_lets s1 s2 s3 s4 s5
  rw [setOuts_pow]
  rfl

/-- An edge closes with step 2 of the shelf entry, or with its causes pending and the tick begun. -/
theorem edgeClose_cases (bnd : Bool) : (s.edgeClose bnd).pow.shelf = .leaving 40000 ∨
    ((s.edgeClose bnd).bit (devA DEV.IRQS_PEND + 12) 10 = true ∧ (bnd = true → (s.edgeClose bnd).bit (devA DEV.IRQS_PEND + 12) 11 = true) ∧
     ∀ n : Fin 12, (s.edgeClose bnd).tickStarted n) := by
  unfold State.edgeClose
  extract_lets s1 s2 q s3 s4 s5
  by_cases hs : s5.shelfTested = true
  · rw [if_pos hs]
    exact .inl shelfLeave_leaving
  rw [if_neg hs]
  have hbit : ∀ i, s5.bit (devA DEV.IRQS_PEND + 12) i = (if bnd = true then s4.irq 59 else s4).bit (devA DEV.IRQS_PEND + 12) i := fun i => by
    simp only [State.bit, State.val, s5, tickBegins_regs]
  have h58 : s4.bit (devA DEV.IRQS_PEND + 12) 10 = true := irq_pends 58
  refine .inr ⟨?_, fun hb => ?_, fun n => tickBegins_starts n⟩
  · rw [hbit]
    split
    · exact irq_keeps_pending (by decide) (by decide) h58
    · exact h58
  · rw [hbit, if_pos hb]
    exact irq_pends 59

/-- Reaching the grid point moves device time alone (R36). -/
theorem reachGrid_eq : ∃ x, s.reachGrid = { s with tim := { s.tim with time := x } } := by
  unfold State.reachGrid
  split
  · exact ⟨s.tim.time, rfl⟩
  · exact ⟨_, rfl⟩

/-- It is a cycle boundary as before (R35). -/
theorem reachGrid_atBoundary (s : State) : s.reachGrid.atBoundary = s.atBoundary := by
  obtain ⟨x, hx⟩ := reachGrid_eq (s := s)
  rw [hx]
  rfl

/-- An edge on a running grid ends in its close. -/
theorem tickEdge_closes (ha : s.asleep = false) (ht : s.tim.ticking = true) : ∃ u : State, s.tickEdge = u.edgeClose s.atBoundary := by
  have hr : s.pow.inReset = false := by simp only [State.asleep, Bool.or_eq_false_iff] at ha; exact ha.1
  unfold State.tickEdge
  rw [if_neg (by simp [ht, hr])]
  extract_lets s0 bnd late s1 s2 s3 s4
  have hb : bnd = s.atBoundary := reachGrid_atBoundary _
  exact ⟨s4, by rw [hb]⟩

/-! ### The cycle boundary (R39 step 7, R441) -/

/-- The publication of a boundary writes NSTAT alone among the registers (R438). -/
theorem buildFrame_val {b : Nat} (hb : b ≠ netA NET.NSTAT) : s.buildFrame.val b = s.val b := by
  unfold State.buildFrame
  extract_lets c s1 p
  have h1 : s1.val b = s.val b := by rw [State.val_setBit, if_neg hb]; rfl
  exact h1

/-- What stands after step 7 of a boundary. -/
theorem boundary_leaves : s.boundary.net.pend = [] ∧ s.boundary.net.added = [] ∧ s.boundary.net.seen = [] ∧ s.boundary.tim.stepCycle = false ∧
    s.boundary.net.unext = [] ∧ s.boundary.net.txLeft = 40 * s.boundary.rd (netA NET.TXDLY) := by
  unfold State.boundary
  extract_lets missing srcs s1 s2 s3 s4
  obtain ⟨u, hu⟩ : ∃ u, overList (List.finRange 2) (fun s n => s.portLoadEdge n) s4 = u := ⟨_, rfl⟩
  rw [hu]
  have hdly : u.buildFrame.rd (netA NET.TXDLY) = u.rd (netA NET.TXDLY) :=
    congrArg BitVec.toNat (buildFrame_val (by decide))
  have hnet : u.net.pend = [] ∧ u.net.added = [] ∧ u.net.seen = [] ∧ u.tim.stepCycle = false := by
    subst hu
    exact ⟨overList_const (g := fun t => t.net.pend) fun _ _ => rfl, overList_const (g := fun t => t.net.added) fun _ _ => rfl,
      overList_const (g := fun t => t.net.seen) fun _ _ => rfl, overList_const (g := fun t => t.tim.stepCycle) fun _ _ => rfl⟩
  obtain ⟨hpend, hadded, hseen, hstep⟩ := hnet
  exact ⟨hpend, hadded, hseen, hstep, rfl, by rw [hdly]; rfl⟩

end

/-! ### The commit of an axis (R43) -/

/-- From `s` to `t` only the register file may change. -/
structure RegsOnly (s t : State) : Prop where
  rest : t = { s with regs := t.regs }

section
variable {s t u : State} {A : Type}

theorem RegsOnly.refl : RegsOnly s s := ⟨rfl⟩

theorem RegsOnly.trans (h : RegsOnly s t) (g : RegsOnly t u) : RegsOnly s u := ⟨by rw [g.rest]; conv => lhs; rw [h.rest]⟩

theorem regsOnly_ite {p : Prop} {_ : Decidable p} (h : RegsOnly s t) (g : RegsOnly s u) : RegsOnly s (if p then t else u) := by
  by_cases hp : p <;> simp [hp, h, g]

theorem regsOnly_overList {l : List A} {f : State → A → State} (hf : ∀ s a, RegsOnly s (f s a)) (h : RegsOnly s t) : RegsOnly s (overList l f t) := by
  induction l generalizing t with
  | nil => exact h
  | cons a l ih => exact ih (h.trans (hf t a))

/-- However a register is written. -/
theorem setVal_regsOnly (b : Nat) (v : Val) : RegsOnly s (s.setVal b v) := ⟨rfl⟩

/-- The learned values of an axis stand in its registers. -/
theorem showLearned_regsOnly (n : Fin 12) : RegsOnly s (s.showLearned n) := by
  unfold State.showLearned
  extract_lets c b s1 s2 s3 s4 s5
  have h1 : RegsOnly s s1 := regsOnly_overList (fun _ _ => setVal_regsOnly _ _) .refl
  have h2 : RegsOnly s s2 := regsOnly_overList (fun _ _ => setVal_regsOnly _ _) h1
  have h3 : RegsOnly s s3 := regsOnly_overList (fun _ _ => setVal_regsOnly _ _) h2
  have h4 : RegsOnly s s4 := regsOnly_overList (fun _ _ => setVal_regsOnly _ _) h3
  have h5 : RegsOnly s s5 := regsOnly_ite (h4.trans (setVal_regsOnly _ _)) h4
  exact regsOnly_ite (h5.trans (setVal_regsOnly _ _)) h5

/-- The axis whose tick is committed: the control state that the tick worked on is in force, and its registers to report are spent. -/
def Axis.commits (a : Axis) : Axis :=
  { a with ctl := { a.ctl with now := { a.ctl.work with rep := [] }, work := { a.ctl.work with rep := [] }, committed := true } }

/-- A commit writes registers and commits the tick of its axis (R43, R134). -/
theorem axisCommit_eq (s : State) (n : Fin 12) : ∃ r, s.axisCommit n = ({ s with regs := r } : State).onAx n Axis.commits := by
  unfold State.axisCommit
  extract_lets l s0 s1
  have h1 : RegsOnly s s1 := regsOnly_overList (fun _ _ => setVal_regsOnly _ _) (regsOnly_ite (showLearned_regsOnly n) .refl)
  exact ⟨s1.regs, congrArg (State.onAx · n Axis.commits) h1.rest⟩

end

/-- Settles O13: the edge by its close, the boundary by its last actions, the commit by its equation. -/
theorem tickBoundaryAndCommit : Obligations.TickBoundaryAndCommit := by
  unfold Obligations.TickBoundaryAndCommit
  refine fun s ha => ⟨fun ht => ?_, ?_, fun n hh hm => ?_⟩
  · obtain ⟨u, hu⟩ := tickEdge_closes ha ht
    exact ⟨_, congrArg Host.Outcome.next ((awake_of_not_asleep ha _).trans hu), edgeClose_cases s.atBoundary⟩
  · exact ⟨_, congrArg Host.Outcome.next (awake_of_not_asleep ha _), boundary_leaves⟩
  · obtain ⟨r, hc⟩ := axisCommit_eq s n
    have hw : s.working (fun s => if s.mayCommit n then s.axisCommit n else s) = _ :=
      (awake_of_not_asleep ha _).trans ((if_neg (by simp [hh])).trans ((if_pos hm).trans hc))
    have hn := vupd_same s.axes n Axis.commits
    exact ⟨_, congrArg Host.Outcome.next hw, rfl, (congrArg (·.ctl.committed) hn :), (congrArg (·.ctl.now) hn :), (congrArg Axis.mot hn :),
      fun m hne => vupd_other s.axes n m Axis.commits hne⟩

end Sys2Proof.Machine
end

section
/-! PROOF. What is programmed once: every step keeps the key slots, the revocations, the device key and the closed test lock, and the
settlement of O6. -/

namespace Sys2Proof.Machine

/-- The one-time programmable memory of `s` is kept in `t`: its key slots, its revocations, its device key and its test lock. -/
abbrev OtpKeeps (s t : State) : Prop := OtpKept s.bore.keys t.bore.keys s.bore.revoked t.bore.revoked s.wld.dkey t.wld.dkey s.pow.lock t.pow.lock

/-- Every command keeps the queue, the canonical forms, the bounds and what is programmed: each by the lemma of its own meaning. -/
theorem exec_keeps (c : Instr) (s : State) : KeepsO s (exec c s) := by
  cases c with
  | tickEdge => exact execTickEdge_keeps .refl
  | cycleBoundary => exact execCycleBoundary_keeps .refl
  | timeTableStart => exact execTimeTableStart_keeps .refl
  | tableEnd => exact execTableEnd_keeps .refl
  | syncMsg => exact execSyncMsg_keeps .refl
  | servoLock => exact execServoLock_keeps .refl
  | outlierReturn => exact execOutlierReturn_keeps .refl
  | servoDiverge => exact execServoDiverge_keeps .refl
  | syncReceiptTimeout => exact execSyncReceiptTimeout_keeps .refl
  | announceMsg => exact execAnnounceMsg_keeps .refl
  | pdelayExchange => exact execPdelayExchange_keeps .refl
  | timeStep => exact execTimeStep_keeps .refl
  | timRateCommit => exact execTimRateCommit_keeps .refl
  | timAdjCommit => exact execTimAdjCommit_keeps .refl
  | slewComplete => exact execSlewComplete_keeps .refl
  | ptpcfgWrite => exact execPtpcfgWrite_keeps .refl
  | ovbclr => exact execOvbclr_keeps .refl
  | openBuf => exact execOpenBuf_keeps .refl
  | feed => exact execFeed_keeps .refl
  | verifyImage => exact execVerifyImage_keeps .refl
  | verifyComplete => exact execVerifyComplete_keeps .refl
  | applyImage => exact execApplyImage_keeps .refl
  | abortLoad => exact execAbortLoad_keeps .refl
  | programKey => exact execProgramKey_keeps .refl
  | revokeKey => exact execRevokeKey_keeps .refl
  | fullImageApply => exact execFullImageApply_keeps .refl
  | patchApply => exact execPatchApply_keeps .refl
  | bootLoad => exact execBootLoad_keeps .refl
  | energize => exact execEnergize_keeps .refl
  | muteAxis => exact execMuteAxis_keeps .refl
  | moveAbs => exact execMoveAbs_keeps .refl
  | moveRel => exact execMoveRel_keeps .refl
  | jogVel => exact execJogVel_keeps .refl
  | followCyclic => exact execFollowCyclic_keeps .refl
  | followStep => exact execFollowStep_keeps .refl
  | gear => exact execGear_keeps .refl
  | tableCheckDone => exact execTableCheckDone_keeps .refl
  | stopAxis => exact execStopAxis_keeps .refl
  | resumeMove => exact execResumeMove_keeps .refl
  | abandonRem => exact execAbandonRem_keeps .refl
  | homeAxis => exact execHomeAxis_keeps .refl
  | yieldEnter => exact execYieldEnter_keeps .refl
  | yieldExit => exact execYieldExit_keeps .refl
  | identifyAxis => exact execIdentifyAxis_keeps .refl
  | clearFault => exact execClearFault_keeps .refl
  | replan => exact execReplan_keeps .refl
  | segmentBoundary => exact execSegmentBoundary_keeps .refl
  | landing => exact execLanding_keeps .refl
  | restReached => exact execRestReached_keeps .refl
  | softLimitReached => exact execSoftLimitReached_keeps .refl
  | setposCommit => exact execSetposCommit_keeps .refl
  | followTrack => exact execFollowTrack_keeps .refl
  | stepInputEdge => exact execStepInputEdge_keeps .refl
  | stepPulse => exact execStepPulse_keeps .refl
  | currentLoop => exact execCurrentLoop_keeps .refl
  | openWinding => exact execOpenWinding_keeps .refl
  | sharingCriterion => exact execSharingCriterion_keeps .refl
  | axisCommit => exact execAxisCommit_keeps .refl
  | holdReduction => exact execHoldReduction_keeps .refl
  | trackerProbe => exact execTrackerProbe_keeps .refl
  | trackerDiverge => exact execTrackerDiverge_keeps .refl
  | detentDiverge => exact execDetentDiverge_keeps .refl
  | observer => exact execObserver_keeps .refl
  | observerValid => exact execObserverValid_keeps .refl
  | observerLockLost => exact execObserverLockLost_keeps .refl
  | observerReinit => exact execObserverReinit_keeps .refl
  | sensorAlign => exact execSensorAlign_keeps .refl
  | sensorRecovery => exact execSensorRecovery_keeps .refl
  | injectionBurst => exact execInjectionBurst_keeps .refl
  | stallMonitor => exact execStallMonitor_keeps .refl
  | stallRaised => exact execStallRaised_keeps .refl
  | sblDiverge => exact execSblDiverge_keeps .refl
  | yieldModel => exact execYieldModel_keeps .refl
  | demodulation => exact execDemodulation_keeps .refl
  | pwmPeriod => exact execPwmPeriod_keeps .refl
  | bootstrapRefresh => exact execBootstrapRefresh_keeps .refl
  | dtDiverge => exact execDtDiverge_keeps .refl
  | dllUpdate => exact execDllUpdate_keeps .refl
  | dllDiverge => exact execDllDiverge_keeps .refl
  | debugHalt => exact execDebugHalt_keeps .refl
  | debugResume => exact execDebugResume_keeps .refl
  | strobeLoss => exact execStrobeLoss_keeps .refl
  | tripClear => exact execTripClear_keeps .refl
  | legOvercurrent => exact execLegOvercurrent_keeps .refl
  | hardLimit => exact execHardLimit_keeps .refl
  | shootThroughGuard => exact execShootThroughGuard_keeps .refl
  | vdsTrip => exact execVdsTrip_keeps .refl
  | bootstrapUndervoltage => exact execBootstrapUndervoltage_keeps .refl
  | chargePumpUndervoltage => exact execChargePumpUndervoltage_keeps .refl
  | chargePumpReady => exact execChargePumpReady_keeps .refl
  | tripInput => exact execTripInput_keeps .refl
  | groupOvertemperature => exact execGroupOvertemperature_keeps .refl
  | torqueOff => exact execTorqueOff_keeps .refl
  | torqueOffRelease => exact execTorqueOffRelease_keeps .refl
  | toffDiscrepancy => exact execToffDiscrepancy_keeps .refl
  | governorStep => exact execGovernorStep_keeps .refl
  | inputResolve => exact execInputResolve_keeps .refl
  | resolveIntervalEnd => exact execResolveIntervalEnd_keeps .refl
  | rawEdge => exact execRawEdge_keeps .refl
  | chatterWindowClose => exact execChatterWindowClose_keeps .refl
  | enablingDiscrepancy => exact execEnablingDiscrepancy_keeps .refl
  | homingPhaseStart => exact execHomingPhaseStart_keeps .refl
  | homingDistanceExceeded => exact execHomingDistanceExceeded_keeps .refl
  | homingComplete => exact execHomingComplete_keeps .refl
  | excitationStart => exact execExcitationStart_keeps .refl
  | excitationSettled => exact execExcitationSettled_keeps .refl
  | excitationOpen => exact execExcitationOpen_keeps .refl
  | excitationOpenClear => exact execExcitationOpenClear_keeps .refl
  | excitationShort => exact execExcitationShort_keeps .refl
  | shortClear => exact execShortClear_keeps .refl
  | slotBoundary => exact execSlotBoundary_keeps .refl
  | portRecovery => exact execPortRecovery_keeps .refl
  | autoReset => exact execAutoReset_keeps .refl
  | touchSet => exact execTouchSet_keeps .refl
  | touchRelease => exact execTouchRelease_keeps .refl
  | forceReset => exact execForceReset_keeps .refl
  | forceRange => exact execForceRange_keeps .refl
  | closeInterval => exact execCloseInterval_keeps .refl
  | modulatorFail => exact execModulatorFail_keeps .refl
  | sarConversion => exact execSarConversion_keeps .refl
  | urgentConversion => exact execUrgentConversion_keeps .refl
  | urgentCommand => exact execUrgentCommand_keeps .refl
  | recheckAdc => exact execRecheckAdc_keeps .refl
  | recheckComplete => exact execRecheckComplete_keeps .refl
  | offlineAdc => exact execOfflineAdc_keeps .refl
  | modulatorRestart => exact execModulatorRestart_keeps .refl
  | modulatorCountClear => exact execModulatorCountClear_keeps .refl
  | supplyWindow => exact execSupplyWindow_keeps .refl
  | dieOvertemperature => exact execDieOvertemperature_keeps .refl
  | cmpEdge => exact execCmpEdge_keeps .refl
  | wakeInput => exact execWakeInput_keeps .refl
  | autozeroSample => exact execAutozeroSample_keeps .refl
  | azDiverge => exact execAzDiverge_keeps .refl
  | selfCheck => exact execSelfCheck_keeps .refl
  | selftest => exact execSelftest_keeps .refl
  | touchRetract => exact execTouchRetract_keeps .refl
  | continuityProbe => exact execContinuityProbe_keeps .refl
  | unplug => exact execUnplug_keeps .refl
  | replug => exact execReplug_keeps .refl
  | hotplugDisable => exact execHotplugDisable_keeps .refl
  | identifyComplete => exact execIdentifyComplete_keeps .refl
  | acceptMotor => exact execAcceptMotor_keeps .refl
  | clrcnt => exact execClrcnt_keeps .refl
  | linkUp => exact execLinkUp_keeps .refl
  | linkDown => exact execLinkDown_keeps .refl
  | eqAcquireStep => exact execEqAcquireStep_keeps .refl
  | eqUpdate => exact execEqUpdate_keeps .refl
  | eqDiverge => exact execEqDiverge_keeps .refl
  | frameReceive => exact execFrameReceive_keeps .refl
  | cyclicFrame => exact execCyclicFrame_keeps .refl
  | transmitFrame => exact execTransmitFrame_keeps .refl
  | openRequest => exact execOpenRequest_keeps .refl
  | closeRequest => exact execCloseRequest_keeps .refl
  | nopRequest => exact execNopRequest_keeps .refl
  | readRequest => exact execReadRequest_keeps .refl
  | writeRequest => exact execWriteRequest_keeps .refl
  | sessionTimeout => exact execSessionTimeout_keeps .refl
  | claimFrame => exact execClaimFrame_keeps .refl
  | addrDefend => exact execAddrDefend_keeps .refl
  | addrRequest => exact execAddrRequest_keeps .refl
  | addrOffer => exact execAddrOffer_keeps .refl
  | addrLeave => exact execAddrLeave_keeps .refl
  | claimResend => exact execClaimResend_keeps .refl
  | claimConfirm => exact execClaimConfirm_keeps .refl
  | requestRetry => exact execRequestRetry_keeps .refl
  | subAdd => exact execSubAdd_keeps .refl
  | subDel => exact execSubDel_keeps .refl
  | claimAddr => exact execClaimAddr_keeps .refl
  | releaseAddr => exact execReleaseAddr_keeps .refl
  | sessClose => exact execSessClose_keeps .refl
  | uobjCommit => exact execUobjCommit_keeps .refl
  | commitMap => exact execCommitMap_keeps .refl
  | revertMap => exact execRevertMap_keeps .refl
  | giveToken => exact execGiveToken_keeps .refl
  | reclaimToken => exact execReclaimToken_keeps .refl
  | programDkey => exact execProgramDkey_keeps .refl
  | popHistory => exact execPopHistory_keeps .refl
  | popSnap => exact execPopSnap_keeps .refl
  | injEvent => exact execInjEvent_keeps .refl
  | injEcc => exact execInjEcc_keeps .refl
  | injSar => exact execInjSar_keeps .refl
  | injMod => exact execInjMod_keeps .refl
  | injLink => exact execInjLink_keeps .refl
  | injPort => exact execInjPort_keeps .refl
  | lifeClr => exact execLifeClr_keeps .refl
  | closeTest => exact execCloseTest_keeps .refl
  | historySnapshot => exact execHistorySnapshot_keeps .refl
  | fselbitWrite => exact execFselbitWrite_keeps .refl
  | scrub => exact execScrub_keeps .refl
  | lifetimeSecond => exact execLifetimeSecond_keeps .refl
  | hostWrite => exact execHostWrite_keeps .refl
  | hostRead => exact execHostRead_keeps .refl
  | statusTransaction => exact execStatusTransaction_keeps .refl
  | snapshotRead => exact execSnapshotRead_keeps .refl
  | multiwordCommit => exact execMultiwordCommit_keeps .refl
  | registerWrite => exact execRegisterWrite_keeps .refl
  | extest => exact execExtest_keeps .refl
  | samplePreload => exact execSamplePreload_keeps .refl
  | clampScan => exact execClampScan_keeps .refl
  | highz => exact execHighz_keeps .refl
  | idcode => exact execIdcode_keeps .refl
  | bypassScan => exact execBypassScan_keeps .refl
  | tapReset => exact execTapReset_keeps .refl
  | haltReq => exact execHaltReq_keeps .refl
  | rstReq => exact execRstReq_keeps .refl
  | dbgAccRead => exact execDbgAccRead_keeps .refl
  | dbgAccWrite => exact execDbgAccWrite_keeps .refl
  | softwareReset => exact execSoftwareReset_keeps .refl
  | shelfEntry => exact execShelfEntry_keeps .refl
  | shelfDisablePorts => exact execShelfDisablePorts_keeps .refl
  | wakeUp => exact execWakeUp_keeps .refl
  | powerOnReset => exact execPowerOnReset_keeps .refl
  | brownOutReset => exact execBrownOutReset_keeps .refl
  | pinReset => exact execPinReset_keeps .refl
  | resetRelease => exact execResetRelease_keeps .refl
  | pathMemoryClearDone => exact execPathMemoryClearDone_keeps .refl
  | announceReceiptTimeout => exact execAnnounceReceiptTimeout_keeps .refl
  | syncInterval => exact execSyncInterval_keeps .refl
  | supplyReturn => exact execSupplyReturn_keeps .refl
  | tripInputRelease => exact execTripInputRelease_keeps .refl
  | thermalWindowRelease => exact execThermalWindowRelease_keeps .refl
  | signalDetect => exact execSignalDetect_keeps .refl
  | pcsSync => exact execPcsSync_keeps .refl
  | vaonPowerUp => exact execVaonPowerUp_keeps .refl
  | cyclicTransmission => exact execCyclicTransmission_keeps .refl

/-- A CORE clock with no command waiting keeps what is programmed: a reset does, a shelf entry does, and the clock's hardware does. -/
theorem idle_otpKeeps (s : State) : OtpKeeps s s.idle := by
  unfold State.idle
  split_ifs
  · exact .refl
  · exact (State.enterReset_keeps .refl).otp
  · exact (State.enterReset_keeps .refl).otp
  · exact (State.shelfLeave_keeps .refl).otp
  · obtain ⟨u, l, hu, hclock⟩ := State.runClock_queue s
    rw [hclock]
    exact hu.otp

/-- Every step keeps what is programmed: a command by `exec_keeps`, the clock of an empty queue by `idle_otpKeeps`. -/
theorem step_otpKeeps {s t : State} (h : step s = .next t) : OtpKeeps s t := by
  unfold step at h
  split at h
  next => exact Host.Outcome.next.inj h ▸ idle_otpKeeps s
  next c rest _ =>
    have hk : KeepsO _ (exec c { s with pending := rest }) := exec_keeps c _
    rw [h] at hk
    exact hk.otp

/-- Settles O6: `Keeps` holds of every command and of the clock, and what is programmed is one of its parts. -/
theorem otpOnlyGains : Obligations.OtpOnlyGains := by
  unfold Obligations.OtpOnlyGains
  intro s t h
  obtain ⟨hkeys, hrevoked, hdkey, hlock⟩ := step_otpKeeps h
  exact ⟨hkeys, hrevoked, hdkey, hlock⟩

end Sys2Proof.Machine
end

section
/-! PROOF. The commands of the load buffer and of the key slots, and the settlement of O14 and O15. -/

namespace Sys2Proof.Machine

/-- A master accessor of a part that serves accesses and is not entering the shelf state. -/
structure State.Serves (s : State) (acc : Nat) : Prop where
  ready : s.ready = true
  secure : s.secureAcc acc = true
  master : s.isMaster acc = true
  running : s.pow.shelf = .running

/-- From `t` to `u` BOR.CMDSTAT takes the echo of command `op` with status `st`; beside it only the log and its registers change. -/
structure BorSaid (op : Nat) (st : Status) (t u : State) : Prop where
  rf : RF t u
  stat : u.val (borA BOR.CMDSTAT) = BitVec.ofNat 64 (op * 256 + st.code)
  val : ∀ c, c ≠ borA BOR.CMDSTAT → logReg c = false → u.val c = t.val c

section
variable {s t : State} {acc op arg : Nat}

theorem State.Serves.awake (h : s.Serves acc) (f : State → State) : s.awake f = f s := awake_of_ready h.ready (by simp [h.running]) f

theorem State.Serves.not_shelving (h : s.Serves acc) : s.shelving = false := by simp [State.shelving, h.running]

theorem finish_borSaid (st : Status) : BorSaid op st t (t.finish (borA BOR.CMDSTAT) 56 op arg acc st) :=
  have ⟨hstat, hval⟩ := State.finish_val t (by decide) (by decide)
  ⟨finish_rf _ _ _ _ _ _ _, hstat, hval⟩

/-! ### A BOR command that the master gives (R75, R85, R86) -/

/-- The state after a command that completes at once: its effect, and its status in CMDSTAT. -/
theorem borCmd_completes {st : Status} (h : s.Serves acc) (he : s.borEffect acc op arg = (some st, t)) :
    ∃ u, s.awake (fun s => (s.borCmd acc op arg).2) = u ∧ BorSaid op st t u := by
  refine ⟨_, h.awake _, ?_⟩
  simp only [State.borCmd, h.ready, h.secure, h.master, he, Bool.not_true, Bool.false_eq_true, if_false]
  exact finish_borSaid st

/-- The state after a command that completes later: what it does at once. -/
theorem borCmd_begins (h : s.Serves acc) (he : s.borEffect acc op arg = (none, t)) : s.awake (fun s => (s.borCmd acc op arg).2) = t := by
  rw [h.awake]
  simp [State.borCmd, h.ready, h.secure, h.master, he]

/-- OPEN empties and opens the buffer. -/
theorem borEffect_open (h : s.Serves acc) (hb : borAllowed 0x01 s.bore.buf = true) : s.borEffect acc 0x01 0 = (some .done,
    ((s.onBore (fun b => { b with buf := .opened, bytes := [], apply := false, src := sourceOf acc, affected := [], bootDone := true })).wr
      (borA BOR.ERRINFO) 0).wr (borA BOR.ERROFS) 0) := by
  simp [State.borEffect, h.not_shelving, hb]

/-- VERIFY begins the verification. -/
theorem borEffect_verify (h : s.Serves acc) (hb : s.bore.buf = .opened) : s.borEffect acc 0x02 0 =
    (none, s.onBore (fun b => { b with buf := .verifying, apply := false, src := sourceOf acc })) := by
  simp [State.borEffect, h.not_shelving, hb, borAllowed]

/-- APPLY of an open buffer holds the affected axes and begins the verification. -/
theorem borEffect_apply (h : s.Serves acc) (hb : s.bore.buf = .opened) : s.borEffect acc 0x03 0 =
    (none, s.holdAffected.onBore (fun b => { b with buf := .verifying, apply := true, src := sourceOf acc })) := by
  simp [State.borEffect, h.not_shelving, hb, borAllowed]

/-- ABORT empties the buffer. -/
theorem borEffect_abort (h : s.Serves acc) (hb : s.bore.buf ≠ .empty) : s.borEffect acc 0x04 0 =
    (some .done, s.boreEmpty.onBore (fun b => { b with bootDone := true })) := by
  simp [State.borEffect, h.not_shelving, hb, borAllowed]

/-- Holding the axes that a patch affects marks them as affected, and shows them in BOR.PENDING. -/
theorem holdAffected_cases : s.holdAffected = s ∨
    ∃ l v, s.holdAffected = (s.onBore (fun b => { b with affected := l })).wr (borA BOR.PENDING) v := by
  unfold State.holdAffected
  extract_lets b l
  split_ifs
  · exact .inr ⟨_, _, rfl⟩
  · exact .inl rfl
  · exact .inl rfl

theorem boreEmpty_pending : s.boreEmpty.val (borA BOR.PENDING) = 0 := (State.val_wr _ _ _ _).trans (if_pos rfl)

/-- The two bytes of a feed word. -/
theorem feed_bytes (d : Word) : BitVec.ofNat 8 d.toNat = d.extractLsb' 0 8 ∧ BitVec.ofNat 8 (d.toNat / 256) = d.extractLsb' 8 8 := by
  constructor <;> apply BitVec.eq_of_toNat_eq <;> simp [Nat.shiftRight_eq_div_pow]

/-- A whole feed word goes into an open buffer that has room for its two bytes. -/
theorem feedWord_fits (h : s.Serves acc) (hb : s.bore.buf = .opened) (hl : s.bore.bytes.length + 2 ≤ 65536) (d : Word) :
    s.feedWord acc (0xFFFF : Word).toNat d.toNat =
      (.done, { s with bore := { s.bore with bytes := s.bore.bytes ++ [d.extractLsb' 0 8, d.extractLsb' 8 8] } }) := by
  obtain ⟨hlo, hhi⟩ := feed_bytes d
  simp [State.feedWord, h.ready, h.secure, h.master, hb, Nat.not_lt.mpr hl, hlo, hhi, State.onBore]

/-! ### The key slots (R59) -/

/-- The slot number in the argument of a command. -/
theorem toNat_slot (k : Fin 4) : (BitVec.ofNat 8 k).toNat = k := (BitVec.toNat_ofNat ..).trans (Nat.mod_eq_of_lt (by omega))

theorem slot_in_range (k : Fin 4) : ¬ 3 < (k : Nat) := by omega

/-- PROGRAM_KEY with an open buffer does what the slot allows. -/
theorem borEffect_programKey (h : s.Serves acc) (hb : s.bore.buf = .opened) (k : Fin 4) :
    s.borEffect acc 0x10 (BitVec.ofNat 8 k).toNat = (some (s.programSlot k).1, (s.programSlot k).2) := by
  rw [toNat_slot]
  simp [State.borEffect, h.not_shelving, hb, borAllowed, slot_in_range]

/-- REVOKE_KEY revokes the slot in every state of the buffer. -/
theorem borEffect_revokeKey (h : s.Serves acc) (k : Fin 4) : s.borEffect acc 0x11 (BitVec.ofNat 8 k).toNat =
    (some .done, s.onBore (fun b => { b with revoked := b.revoked.set k true })) := by
  rw [toNat_slot]
  simp [State.borEffect, h.not_shelving, borAllowed, slot_in_range, State.revokeSlot]

/-- A blank slot takes the first 32 bytes of the buffer. -/
theorem programSlot_blank {k : Fin 4} (hl : 32 ≤ s.bore.bytes.length) (hk : s.bore.keys[k] = none) : s.programSlot k = (.done,
    s.onBore (fun b => { b with keys := b.keys.set k (some (BitVec.ofNat 256 (beNat (b.bytes.take 32)))), progs := b.progs + 1 })) := by
  have hk' : s.bore.keys[k.val] = none := hk
  simp [State.programSlot, Nat.not_lt.mpr hl, hk']

/-- A short buffer or a slot that holds a key refuses. -/
theorem programSlot_refused {k : Fin 4} (h : s.bore.bytes.length < 32 ∨ s.bore.keys[k] ≠ none) : s.programSlot k = (.state, s) := by
  have h' : s.bore.bytes.length < 32 ∨ s.bore.keys[k.val] ≠ none := h
  simp [State.programSlot, Option.isSome_iff_ne_none, h']

/-- One slot that is set leaves the others. -/
theorem set_slot {A : Type} (v : Vector A 4) (k : Fin 4) (x : A) : (v.set k x)[k] = x ∧ ∀ j : Fin 4, j ≠ k → (v.set k x)[j] = v[j] := by
  refine ⟨by simp, fun j hj => ?_⟩
  have hne : (k : Nat) ≠ j := fun e => hj (Fin.ext e.symm)
  simp [hne]

end

/-- Settles O14: each command by its effect, at once or with its completion. -/
theorem boreCommands : Obligations.BoreCommands := by
  unfold Obligations.BoreCommands
  intro acc s hready hsecure hmaster hrun
  have h : s.Serves acc := ⟨hready, hsecure, hmaster, hrun⟩
  refine ⟨fun hb => ?_, fun d hb hl => ?_, fun hb => ?_, fun hb => ?_, fun hb => ?_⟩
  case refine_1 => -- OPEN
    have hallow : borAllowed 0x01 s.bore.buf = true := by rcases hb with hb | hb | hb <;> simp [borAllowed, hb]
    obtain ⟨u, hu, hrf, hstat, hval⟩ := borCmd_completes h (borEffect_open h hallow)
    have hinfo : u.val (borA BOR.ERRINFO) = 0 := by
      rw [hval _ (by decide) (by decide), State.val_wr, if_neg (by decide), State.val_wr, if_pos rfl]
      rfl
    have hofs : u.val (borA BOR.ERROFS) = 0 := by
      rw [hval _ (by decide) (by decide), State.val_wr, if_pos rfl]
      rfl
    rw [hrf.rest] at hu hinfo hofs hstat
    exact ⟨_, congrArg Host.Outcome.next hu, rfl, rfl, hinfo, hofs, hstat, rfl, rfl, rfl, rfl⟩
  case refine_2 => -- a feed word
    exact ⟨_, congrArg Host.Outcome.next ((h.awake _).trans
      ((congrArg (State.counted acc) (feedWord_fits h hb hl d)).trans (if_neg (by simp)))), rfl⟩
  case refine_3 => -- VERIFY
    exact ⟨_, congrArg Host.Outcome.next (borCmd_begins h (borEffect_verify h hb)), rfl, rfl, rfl, rfl⟩
  case refine_4 => -- APPLY
    refine ⟨_, congrArg Host.Outcome.next (borCmd_begins h (borEffect_apply h hb)), rfl, rfl, ?_⟩
    rcases holdAffected_cases (s := s) with hheld | ⟨l, v, hheld⟩
    all_goals
      rw [hheld]
      exact ⟨rfl, rfl, rfl, rfl⟩
  case refine_5 => -- ABORT
    obtain ⟨u, hu, hrf, hstat, hval⟩ := borCmd_completes h (borEffect_abort h hb)
    have hpend : u.val (borA BOR.PENDING) = 0 := (hval _ (by decide) (by decide)).trans boreEmpty_pending
    rw [hrf.rest] at hu hpend hstat
    exact ⟨_, congrArg Host.Outcome.next hu, rfl, rfl, hstat, hpend, rfl, rfl, rfl⟩

/-- Settles O15: PROGRAM_KEY by what the slot allows, REVOKE_KEY by its equation. -/
theorem keySlots : Obligations.KeySlots := by
  unfold Obligations.KeySlots
  intro acc k s hready hsecure hmaster hrun
  have h : s.Serves acc := ⟨hready, hsecure, hmaster, hrun⟩
  refine ⟨fun hb hl hk => ?_, fun hb hbad => ?_, ?_⟩
  case refine_1 => -- a key for a blank slot
    have he := borEffect_programKey h hb k
    rw [programSlot_blank hl hk] at he
    obtain ⟨u, hu, hrf, hstat, _⟩ := borCmd_completes h he
    obtain ⟨hset, hother⟩ := set_slot s.bore.keys k (some (BitVec.ofNat 256 (beNat (s.bore.bytes.take 32))))
    rw [hrf.rest] at hu hstat
    exact ⟨_, congrArg Host.Outcome.next hu, hset, hother, rfl, rfl, hstat⟩
  case refine_2 => -- a key that is refused
    have he := borEffect_programKey h hb k
    rw [programSlot_refused hbad] at he
    obtain ⟨u, hu, hrf, hstat, _⟩ := borCmd_completes h he
    rw [hrf.rest] at hu hstat
    exact ⟨_, congrArg Host.Outcome.next hu, rfl, rfl, hstat⟩
  case refine_3 => -- a revocation
    obtain ⟨u, hu, hrf, hstat, _⟩ := borCmd_completes h (borEffect_revokeKey h k)
    obtain ⟨hset, hother⟩ := set_slot s.bore.revoked k true
    rw [hrf.rest] at hu hstat
    exact ⟨_, congrArg Host.Outcome.next hu, hset, hother, rfl, rfl, hstat⟩

end Sys2Proof.Machine
end

section
/-! PROOF. The end of a verification, and the settlement of O16. -/

namespace Sys2Proof.Machine

section
variable {s t : State} {op k o : Nat}

theorem cmdstat_borSaid (st : Status) : BorSaid op st t (t.cmdstat (borA BOR.CMDSTAT) 56 op st) where
  rf := cmdstat_rf _ _ _ _ _
  stat := (State.irq_val _ (by decide) (by decide)).trans ((State.val_wr _ _ _ _).trans (if_pos rfl))
  val c hc hl := (State.irq_val _ hl (by decide)).trans ((State.val_wr _ _ _ _).trans (if_neg hc))

/-- What a failed check logs is an entry of the log. -/
theorem logCheck_rf (patch : Bool) : RF s (s.logCheck k patch) := rf_ite (log_rf _ _ _ _ _) (rf_ite (log_rf _ _ _ _ _) (log_rf _ _ _ _ _))

/-- No image is being verified. -/
theorem verifyDone_idle (hb : s.bore.buf ≠ .verifying) : s.verifyDone = s := if_pos hb

/-- An image that VERIFY gave, and in which no check fails, is verified. -/
theorem verifyDone_passes (hb : s.bore.buf = .verifying) (hboot : s.bore.boot = false) (hop : s.bore.apply = false)
    (hc : s.checkImage s.bore.bytes = none) : BorSaid 2 .done (s.onBore (fun b => { b with buf := .verified })) s.verifyDone := by
  simp only [State.verifyDone, hb, hboot, hop, hc, ne_eq, not_true_eq_false, Bool.false_eq_true, if_false, false_and]
  exact cmdstat_borSaid .done

/-- An image that VERIFY gave fails check `k` at offset `o`: the failure is logged, the buffer is open, and the check and its offset show. -/
theorem verifyDone_fails (hb : s.bore.buf = .verifying) (hboot : s.bore.boot = false) (hop : s.bore.apply = false)
    (hc : s.checkImage s.bore.bytes = some (k, o)) : BorSaid 2 (checkStatus k)
      (((((s.logCheck k (isPatch s.bore.bytes)).onBore (fun b => { b with buf := .opened, affected := [] })).wr (borA BOR.PENDING) 0).wr
        (borA BOR.ERRINFO) k).wr (borA BOR.ERROFS) o) s.verifyDone := by
  simp only [State.verifyDone, hb, hboot, hop, hc, ne_eq, not_true_eq_false, Bool.false_eq_true, if_false, false_and]
  exact cmdstat_borSaid (checkStatus k)

end

/-- Settles O16: by what the checks find, and by the buffer state. -/
theorem verifyEnds : Obligations.VerifyEnds := by
  unfold Obligations.VerifyEnds
  refine fun s ha => ⟨fun hb hboot hop => ?_, fun hb => congrArg Host.Outcome.next ((awake_of_not_asleep ha _).trans (verifyDone_idle hb))⟩
  have hexec : exec .verifyComplete s = .next s.verifyDone := congrArg Host.Outcome.next (awake_of_not_asleep ha _)
  cases hc : s.checkImage s.bore.bytes with
  | none =>
    obtain ⟨hrf, hstat, _⟩ := verifyDone_passes hb hboot hop hc
    exact ⟨_, hexec, (congrArg State.img hrf.rest :), (congrArg State.axes hrf.rest :), (congrArg State.bore hrf.rest :), hstat⟩
  | some f =>
    obtain ⟨hrf, hstat, hval⟩ := verifyDone_fails (k := f.1) (o := f.2) hb hboot hop hc
    rw [(logCheck_rf _).rest] at hrf
    refine ⟨_, hexec, (congrArg State.img hrf.rest :), (congrArg State.axes hrf.rest :), (congrArg State.bore hrf.rest :), ?_, ?_, hstat⟩
    · rw [hval _ (by decide) (by decide), State.val_wr, if_neg (by decide), State.val_wr, if_pos rfl]
    · rw [hval _ (by decide) (by decide), State.val_wr, if_pos rfl]

end Sys2Proof.Machine
end

section
/-! PROOF. Every command ends in a next state, and the settlement of O3. -/

namespace Sys2Proof.Machine

/-- Every arm of the dispatch is the meaning of its command, and every meaning a next state (log 1). -/
theorem exec_answers (c : Instr) (s : State) : ∃ t, exec c s = .next t := by
  cases c <;> exact ⟨_, rfl⟩

/-- Settles O3: every arm answers a next state, and `exec_keeps` gives its queue. -/
theorem everyCommandCompletes : Obligations.EveryCommandCompletes := by
  unfold Obligations.EveryCommandCompletes
  intro c s
  obtain ⟨t, ht⟩ := exec_answers c s
  have hk : KeepsO s (exec c s) := exec_keeps c s
  rw [ht] at hk
  exact ⟨t, ht, hk.pending⟩

end Sys2Proof.Machine
end

section
/-! SUPPORT. One axis of the state: its motion, its following and its registers after the named updates, and the operations of the axis engine
on them, so that no later proof unfolds them. -/

namespace Sys2Proof.Machine

section
variable {s t : State} {n m : Fin 12} {b c : Nat}

/-! ### Motion and following after an update -/

/-- Two states with the same axes have the same motion and the same following. -/
theorem axis_of_axes (h : t.axes = s.axes) : t.mot = s.mot ∧ t.fol = s.fol := by
  constructor <;> funext n <;> simp only [State.mot, State.fol, h]

@[simp] theorem onMot_mot (f : Motion → Motion) : (s.onMot n f).mot n = f (s.mot n) := congrArg Axis.mot (vupd_same ..)

@[simp] theorem onFol_fol (f : Follow → Follow) : (s.onFol n f).fol n = f (s.fol n) := congrArg Axis.fol (vupd_same ..)

/-- A change of one axis that leaves a part of it leaves that part of every axis. -/
theorem onAx_part {A : Type} (p : Axis → A) {f : Axis → Axis} (hf : ∀ a, p (f a) = p a) : p ((s.onAx m f).axes[n]) = p s.axes[n] := by
  by_cases h : n = m
  · subst h
    exact (congrArg p (vupd_same ..)).trans (hf _)
  · exact congrArg p (vupd_other _ _ _ _ h)

@[simp] theorem onMot_fol (f : Motion → Motion) : (s.onMot m f).fol = s.fol := funext fun _ => onAx_part Axis.fol fun _ => rfl
@[simp] theorem onFol_mot (f : Follow → Follow) : (s.onFol m f).mot = s.mot := funext fun _ => onAx_part Axis.mot fun _ => rfl
@[simp] theorem onHom_mot (f : Homing → Homing) : (s.onHom m f).mot = s.mot := funext fun _ => onAx_part Axis.mot fun _ => rfl
@[simp] theorem onCtl_mot (f : Ctl → Ctl) : (s.onCtl m f).mot = s.mot := funext fun _ => onAx_part Axis.mot fun _ => rfl
@[simp] theorem onPpl_mot (f : People → People) : (s.onPpl m f).mot = s.mot := funext fun _ => onAx_part Axis.mot fun _ => rfl

@[simp] theorem wr_axis (v : Nat) : (s.wr b v).mot = s.mot ∧ (s.wr b v).fol = s.fol := ⟨rfl, rfl⟩
@[simp] theorem wrI_axis (w : Nat) (v : Int) : (s.wrI w b v).mot = s.mot ∧ (s.wrI w b v).fol = s.fol := ⟨rfl, rfl⟩
@[simp] theorem setBit_axis (i : Nat) (x : Bool) : (s.setBit b i x).mot = s.mot ∧ (s.setBit b i x).fol = s.fol := ⟨rfl, rfl⟩
@[simp] theorem setFld_axis (hi lo x : Nat) : (s.setFld b hi lo x).mot = s.mot ∧ (s.setFld b hi lo x).fol = s.fol := ⟨rfl, rfl⟩
@[simp] theorem irq_axis : (s.irq b).mot = s.mot ∧ (s.irq b).fol = s.fol := axis_of_axes (by simp)
@[simp] theorem flag_axis (i : Nat) : (s.flag b i).mot = s.mot ∧ (s.flag b i).fol = s.fol := axis_of_axes (by simp)
@[simp] theorem log_axis (k d1 d2 : Nat) (bd : Bind) : (s.log k d1 d2 bd).mot = s.mot ∧ (s.log k d1 d2 bd).fol = s.fol := axis_of_axes (by simp)

/-- Two changes of a motion that agree on it are the same change. -/
theorem onMot_congr {f g : Motion → Motion} (h : f (s.mot n) = g (s.mot n)) : s.onMot n f = s.onMot n g :=
  congrArg (fun a => { s with axes := s.axes.set n a }) (congrArg (fun m => { s.axes[n] with mot := m }) h)

/-- A change of a motion leaves the rest of the state and the other axes. -/
theorem onMot_frame (n : Fin 12) (f : Motion → Motion) :
    s.onMot n f = { s with axes := (s.onMot n f).axes } ∧ ∀ m, m ≠ n → (s.onMot n f).axes[m] = s.axes[m] :=
  ⟨rfl, fun m h => vupd_other _ n m _ h⟩

/-! ### Plans -/

/-- A plan in force changes acceleration and jerk alone of the rate multiplier (R87). -/
@[simp] theorem load_fields (m : Motion) (l : List Seg) (g : Goal) :
    (m.load l g).segs = l ∧ (m.load l g).goal = g ∧ (m.load l g).pos = m.pos ∧ (m.load l g).vel = m.vel ∧ (m.load l g).st = m.st := by
  cases l <;> exact ⟨rfl, rfl, rfl, rfl, rfl⟩

/-- Effects of the axis engines take place in operation and with no debug halt (R215). -/
theorem working_of_running (ha : s.asleep = false) (hh : s.stage.halt = false) (f : State → State) : s.working f = f s :=
  (awake_of_not_asleep ha _).trans (if_neg (by simp [hh]))

end

end Sys2Proof.Machine
end

section
/-! PROOF. The ends of a segment, of a move and of a ramp, and the settlement of O19. -/

namespace Sys2Proof.Machine

section
variable {s : State} {n : Fin 12}

/-- The axis stands at `x`, the target of a plan that no newer one replaces (R100); HOLD follows where it was in MOVE (R96). -/
def Motion.landed (m : Motion) (x : Int) : Motion :=
  { m with pos := BitVec.ofInt 80 (x * 2 ^ 32), vel := 0, acc := 0, jrk := 0, segs := [], goal := .none, hasTarget := false, atTarget := true,
           next := if m.eff = .move then some .hold else m.next }

/-- The axis is at rest where it stands (R603); what follows is the state of R96. -/
def Motion.rested (m : Motion) : Motion :=
  { m with vel := 0, acc := 0, jrk := 0, segs := [], goal := .none, next := m.afterRest }

theorem segBoundary_of_ends (h : (s.mot n).segEnds = true) : s.segBoundary n = s.onMot n (fun m => m.load (m.segs.drop 1) m.goal) := if_pos h

theorem land_of_done {x : Int} (hg : (s.mot n).goal = .land x) (hd : (s.mot n).planDone = true) (hr : (s.mot n).req = none) :
    s.land n = s.onMot n (·.landed x) := by
  simp only [State.land, hg, hd]
  exact onMot_congr (by simp [Motion.landed, hr])

theorem restEnd_of_done (hg : (s.mot n).goal = .rest) (hd : (s.mot n).planDone = true) : s.restEnd n = s.onMot n Motion.rested := by
  simp only [State.restEnd, hg, hd]
  rfl

end

/-- Settles O19: each of the three is one change of the motion of its axis. -/
theorem planEnds : Obligations.PlanEnds := by
  unfold Obligations.PlanEnds
  intro n s ha hh
  have work (f : State → State) : s.working f = f s := working_of_running ha hh f
  refine ⟨fun he => ?_, fun x hg hd hr => ?_, fun hg hd => ?_⟩
  · obtain ⟨hrest, hother⟩ := onMot_frame (s := s) n (fun m => m.load (m.segs.drop 1) m.goal)
    exact ⟨_, congrArg Host.Outcome.next ((work _).trans (segBoundary_of_ends he)), hrest, hother, by simp, by simp, by simp, by simp, by simp [State.st]⟩
  · obtain ⟨hrest, hother⟩ := onMot_frame (s := s) n (·.landed x)
    refine ⟨_, congrArg Host.Outcome.next ((work _).trans (land_of_done hg hd hr)), hrest, hother, ?_⟩
    simp only [State.st, onMot_mot]
    exact ⟨rfl, rfl, rfl, rfl, rfl, rfl, rfl, fun hm => if_pos hm⟩
  · obtain ⟨hrest, hother⟩ := onMot_frame (s := s) n Motion.rested
    refine ⟨_, congrArg Host.Outcome.next ((work _).trans (restEnd_of_done hg hd)), hrest, hother, ?_⟩
    simp only [State.st, onMot_mot]
    exact ⟨rfl, rfl, rfl, rfl, rfl, rfl, fun hs => by simp only [Motion.rested, Motion.afterRest, hs]⟩

end Sys2Proof.Machine
end

section
/-! SUPPORT. The operations of the axis engine on one axis: changes of state, the watch of the soft limits, and the start of a motion. -/

namespace Sys2Proof.Machine

section
variable {s : State} {n : Fin 12} {x : AxState} {c : Nat}

/-! ### A change of state (R95, R96) -/

/-- A motion whose axis takes state `x`: what belongs to the state that is left ends. -/
def Motion.enter (m : Motion) (x : AxState) : Motion :=
  if m.st = x then { m with next := none }
  else { m with
    st := x, next := none, remValid := x == .paused && m.remValid, vmode := x == .move && m.vmode,
    hasTarget := (x == .move || x == .stopping) && m.hasTarget, toFault := x == .stopping && m.toFault }

@[simp] theorem enter_fields (m : Motion) (x : AxState) :
    (m.enter x).st = x ∧ (m.enter x).next = none ∧ (m.enter x).pos = m.pos ∧ (m.enter x).vel = m.vel ∧ (m.enter x).acc = m.acc ∧ (m.enter x).rem = m.rem := by
  unfold Motion.enter
  by_cases h : m.st = x
  · rw [if_pos h]; exact ⟨h, rfl, rfl, rfl, rfl, rfl⟩
  · rw [if_neg h]; exact ⟨rfl, rfl, rfl, rfl, rfl, rfl⟩

/-- The end of a homing method leaves the axes. -/
theorem homeEnd_axes (k : Nat) : (s.homeEnd n k).axes = s.axes := by unfold State.homeEnd; extract_lets a; split <;> simp

/-- The end of an identification leaves the axes. -/
theorem identEnd_axes : (s.identEnd n).axes = s.axes := by unfold State.identEnd; extract_lets a; split <;> simp

@[simp] theorem setSt_mot : (s.setSt n x).mot n = (s.mot n).enter x := by
  unfold State.setSt Motion.enter
  by_cases h : s.st n = x
  · rw [if_pos h, if_pos (show (s.mot n).st = x from h), onMot_mot]
  · rw [if_neg h, if_neg (show (s.mot n).st ≠ x from h)]
    extract_lets s0 s1 s2
    have h0 : s0.axes = s.axes := by simp only [s0]; split <;> [exact homeEnd_axes 7; rfl]
    have h1 : s1.axes = s0.axes := by simp only [s1]; split <;> [exact identEnd_axes; rfl]
    have e : s1.mot = s.mot := (axis_of_axes (h1.trans h0)).1
    simp [s2, e]

@[simp] theorem still_fields (m : Motion) : m.still.st = m.st ∧ m.still.pos = m.pos ∧ m.still.vel = 0 ∧ m.still.acc = 0 := ⟨rfl, rfl, rfl, rfl⟩

@[simp] theorem enterStill_mot : (s.enterStill n x).mot n = ((s.mot n).enter x).still := by simp [State.enterStill]

/-! ### Flags of the axis -/

/-- The registers of an axis lie above the log's. -/
theorem axReg_hi (n : Fin 12) {o : Nat} (ho : o < 0x4000) : 0x080000 ≤ axBase n + o := (axBase_window n ho).1

/-- A flag that hardware sets in a register of the engines reads 1. -/
theorem flag_bit_hi {i : Nat} (hi : i < 64) (hc : 0x080000 ≤ c) : (s.flag c i).bit c i = true := by simp [State.bit, flag_self_hi s hi hc, hi]

/-! ### The watch of the soft limits (R106, R107) -/

/-- A crossing that is logged is told, and changes nothing else of the axis. -/
@[simp] theorem softEvent_axis (how side : Nat) :
    (s.softEvent n how side).mot n = { s.mot n with told := true } ∧ (s.softEvent n how side).fol = s.fol := by
  simp [State.softEvent]

/-- A crossing that is logged sets STATUS.sl_hit. -/
theorem softEvent_bit (how side : Nat) : (s.softEvent n how side).bit (axBase n + AX.STATUS) 7 = true :=
  flag_bit_hi (s := s.log 0x0103 how side (.axis n)) (by decide) (axReg_hi n (by decide))

/-- A crossing that is logged out of reset stands in the history with its kind and its side, while the queue is not full. -/
theorem softEvent_hist (how side : Nat) (hr : s.pow.inReset = false) (hl : s.flt.hist.length < 32) :
    ∃ x ∈ (s.softEvent n how side).flt.hist, x.code = 0x0103 ∧ x.w6 = BitVec.ofNat 16 how ∧ x.w7 = BitVec.ofNat 16 side := by
  simp only [State.softEvent, State.onMot_fields, flag_hist]
  exact log_hist hr hl

/-- A prediction changes of the motion whether it is told. -/
theorem predictLimit_mot : ∃ b, (s.predictLimit n).mot n = { s.mot n with told := b } := by
  have quiet : ∃ b, s.mot n = { s.mot n with told := b } := ⟨(s.mot n).told, rfl⟩
  have told (side : Nat) : ∃ b, (s.softEvent n 1 side).mot n = { s.mot n with told := b } := ⟨true, (softEvent_axis 1 side).1⟩
  unfold State.predictLimit
  extract_lets m r ins
  split
  · exact quiet
  · split
    · split <;> [exact told _; exact quiet]
    · split <;> [exact told _; exact quiet]
    · exact quiet

/-- A prediction leaves the plan, the rate multiplier and the target. -/
@[simp] theorem predictLimit_fields :
    ((s.predictLimit n).mot n).st = (s.mot n).st ∧ ((s.predictLimit n).mot n).pos = (s.mot n).pos ∧
    ((s.predictLimit n).mot n).vel = (s.mot n).vel ∧ ((s.predictLimit n).mot n).req = (s.mot n).req ∧
    ((s.predictLimit n).mot n).target = (s.mot n).target ∧ ((s.predictLimit n).mot n).hasTarget = (s.mot n).hasTarget ∧
    ((s.predictLimit n).mot n).vmode = (s.mot n).vmode ∧ ((s.predictLimit n).mot n).rem = (s.mot n).rem ∧
    ((s.predictLimit n).mot n).replan = (s.mot n).replan := by
  obtain ⟨b, hb⟩ := predictLimit_mot (s := s) (n := n)
  rw [hb]
  exact ⟨rfl, rfl, rfl, rfl, rfl, rfl, rfl, rfl, rfl⟩

/-- The watch of the limits begins anew and leaves the plan, the rate multiplier and the target. -/
@[simp] theorem watchLimits_fields (inward : Bool) :
    ((s.watchLimits n inward).mot n).st = (s.mot n).st ∧ ((s.watchLimits n inward).mot n).pos = (s.mot n).pos ∧
    ((s.watchLimits n inward).mot n).vel = (s.mot n).vel ∧ ((s.watchLimits n inward).mot n).req = (s.mot n).req ∧
    ((s.watchLimits n inward).mot n).target = (s.mot n).target ∧ ((s.watchLimits n inward).mot n).hasTarget = (s.mot n).hasTarget ∧
    ((s.watchLimits n inward).mot n).vmode = (s.mot n).vmode ∧ ((s.watchLimits n inward).mot n).rem = (s.mot n).rem ∧
    (s.watchLimits n inward).fol = s.fol := by
  simp [State.watchLimits]

/-! ### The start of a motion (R93, R98, R101, R604) -/

/-- A move to `x` runs: MOVE, target `x`, the plan asked for at clock 64, and the rate multiplier as it was. -/
theorem startMove_fields (x : Int) :
    ((s.startMove n x).mot n).st = .move ∧ ((s.startMove n x).mot n).target = x ∧ ((s.startMove n x).mot n).hasTarget = true ∧
    ((s.startMove n x).mot n).req = some (.target x) ∧ ((s.startMove n x).mot n).pos = (s.mot n).pos ∧
    ((s.startMove n x).mot n).vel = (s.mot n).vel ∧ ((s.startMove n x).mot n).rem = 0 := by
  simp [State.startMove]

/-- A jog to `v` runs: MOVE in velocity mode, the plan asked for at clock 64, and the rate multiplier as it was. -/
theorem startJog_fields (v : Int) :
    ((s.startJog n v).mot n).st = .move ∧ ((s.startJog n v).mot n).vmode = true ∧ ((s.startJog n v).mot n).hasTarget = false ∧
    ((s.startJog n v).mot n).req = some (.jog v) ∧ ((s.startJog n v).mot n).pos = (s.mot n).pos ∧ ((s.startJog n v).mot n).vel = (s.mot n).vel := by
  simp [State.startJog]

/-- The class stop between edges: its ramp begins from where the axis is, and STOPPING follows at the edge. -/
theorem classStopEngine_fields :
    ((s.classStopEngine n).mot n).next = some .stopping ∧ ((s.classStopEngine n).mot n).req = none ∧
    ((s.classStopEngine n).mot n).pos = (s.mot n).pos ∧ ((s.classStopEngine n).mot n).vel = (s.mot n).vel ∧
    (s.classStopEngine n).val = s.val ∧ (s.classStopEngine n).flt = s.flt := by
  simp [State.classStopEngine, State.stopNow]

end

end Sys2Proof.Machine
end

section
/-! PROOF. Limits committed in flight, soft limits and tables, and the settlement of O20. -/

namespace Sys2Proof.Machine

section
variable {s : State} {n : Fin 12}

/-- Limits committed in flight make the plan toward the present target or jog velocity wait anew (R101). -/
theorem replanAt_move (hr : (s.mot n).req = none) (hp : (s.mot n).replan = true) (hs : s.st n = .move) :
    ((s.replanAt n).mot n).req = some (if (s.mot n).vmode then .jog (s.mot n).target else .target (s.mot n).target) ∧
    ((s.replanAt n).mot n).replan = false ∧ ((s.replanAt n).mot n).pos = (s.mot n).pos ∧ ((s.replanAt n).mot n).vel = (s.mot n).vel := by
  simp [State.replanAt, hr, hp, hs]

/-- SDEC committed during a Hold stop makes the stop wait anew (R101). -/
theorem replanAt_stop (hr : (s.mot n).req = none) (hp : (s.mot n).replan = false) (hq : (s.mot n).restart = true) (hs : s.st n = .stopping)
    (hg : s.glide n = false) (hf : (s.mot n).toFault = false) :
    ((s.replanAt n).mot n).req = some .stop ∧ ((s.replanAt n).mot n).restart = false := by
  simp [State.replanAt, hr, hp, hq, hs, hg, hf]

/-- A watched limit that has been passed starts the class stop in this clock (R107). -/
theorem limitReached_fields {side : Nat} (h : s.limitPassed n = some side) :
    ((s.limitReached n).mot n).next = some .stopping ∧ ((s.limitReached n).mot n).req = none ∧
    ((s.limitReached n).mot n).pos = (s.mot n).pos ∧ ((s.limitReached n).mot n).vel = (s.mot n).vel := by
  simp only [State.limitReached, h]
  split
  all_goals
    obtain ⟨hnext, hreq, hpos, hvel, -, -⟩ := classStopEngine_fields (n := n) (s := _)
    exact ⟨hnext, hreq, hpos.trans (by simp), hvel.trans (by simp)⟩

/-- A limit passed whose crossing has not been logged shows in STATUS and stands in the history (R107). -/
theorem limitReached_tells {side : Nat} (h : s.limitPassed n = some side) (ht : (s.mot n).eff = .follow ∨ (s.mot n).told = false) :
    (s.limitReached n).bit (axBase n + AX.STATUS) 7 = true ∧ (s.pow.inReset = false → s.flt.hist.length < 31 →
      ∃ x ∈ (s.limitReached n).flt.hist, x.code = 0x0103 ∧ x.w6 = 2 ∧ x.w7 = BitVec.ofNat 16 side) := by
  have hc : (s.mot n).eff = .follow ∨ (!(s.mot n).told) = true := ht.imp_right fun e => by rw [e]; rfl
  obtain ⟨-, -, -, -, hval, hflt⟩ := classStopEngine_fields (s := s.softEvent n 2 side) (n := n)
  simp only [State.limitReached, h, if_pos hc, hflt, State.bit, hval]
  exact ⟨softEvent_bit 2 side, fun hr hl => softEvent_hist 2 side hr (by omega)⟩

/-- An armed time table starts at its boundary (R116). -/
theorem tableStart_armed (hs : s.st n = .follow) (hm : (s.fol n).mode = 3) (ha : (s.fol n).armed = true) (hn : (s.fol n).newArm = false)
    (hb : s.axb n AX.CFG 4 = true ∨ s.tim.cyc.toNat = s.axr n AX.PSTART) :
    s.tableStart n = s.onFol n (fun f => { f with armed := false, t := 0, tAnchor := 0, seg := 0, phi0 := 0 }) :=
  if_pos ⟨hs, hm, ha, by rw [hn]; rfl, hb⟩

/-- A single-pass time table that has reached its end becomes a move to its last point (R116). -/
theorem tableDone_ended (hs : s.st n = .follow) (hm : (s.fol n).mode = 3) (hk : (s.fol n).kind = 2) (ha : (s.fol n).armed = false)
    (hr : (s.fol n).tRep = false) (hl : s.ptX (s.fol n).slot ((s.fol n).tN - 1) ≤ s.tablePhi n (s.fol n).t) :
    s.tableDone n = s.startMove n ((s.fol n).g0 + s.ptY (s.fol n).slot ((s.fol n).tN - 1)) :=
  if_pos ⟨hs, hm, hk, by rw [ha]; rfl, by rw [hr]; rfl, hl⟩

end

/-- Settles O20: each row by the lemma of its operation. -/
theorem limitsAndTables : Obligations.LimitsAndTables := by
  unfold Obligations.LimitsAndTables
  intro n s ha
  have wake (f : State → State) : s.awake f = f s := awake_of_not_asleep ha f
  refine ⟨fun hh hr => ⟨fun hp hs => ?_, fun hp hq hs hg hf => ?_⟩, fun side hh hl => ?_, ?_, fun hs hm hk hn hb => ?_, fun hs hm hk hq hr hl => ?_⟩
  · exact ⟨_, congrArg Host.Outcome.next (working_of_running ha hh _), replanAt_move hr hp hs⟩
  · exact ⟨_, congrArg Host.Outcome.next (working_of_running ha hh _), replanAt_stop hr hp hq hs hg hf⟩
  · obtain ⟨hnext, hreq, hpos, hvel⟩ := limitReached_fields hl
    exact ⟨_, congrArg Host.Outcome.next (working_of_running ha hh _), hnext, hreq, hpos, hvel, limitReached_tells hl⟩
  · exact ⟨_, congrArg Host.Outcome.next (wake _), by simp, rfl⟩
  · exact ⟨_, congrArg Host.Outcome.next ((wake _).trans (tableStart_armed hs hm hk hn hb)), by simp, by simp, by simp, rfl⟩
  · obtain ⟨hst, htarget, hhas, -, hpos, -, -⟩ := startMove_fields (s := s) (n := n) ((s.fol n).g0 + s.ptY (s.fol n).slot ((s.fol n).tN - 1))
    exact ⟨_, congrArg Host.Outcome.next ((wake _).trans (tableDone_ended hs hm hk hq hr hl)), hst, htarget, hhas, hpos⟩

end Sys2Proof.Machine
end

section
/-! PROOF. The tracker, STEP input and STEP output, and the settlement of O21. -/

namespace Sys2Proof.Machine

section
variable {s t : State} {n : Fin 12} {c : Nat}

/-! ### The lag (R111) -/

/-- From `s` to `t` the lag of axis n is shown: FERR takes it, the lag event may have occurred, and nothing else of the axis changes. -/
structure LagShown (n : Fin 12) (s t : State) : Prop where
  mot : t.mot = s.mot
  fol : ∃ b, t.fol n = { s.fol n with ferrArmed := b }
  ferr : t.val (axBase n + AX.FERR) = (BitVec.ofInt 32 (satI 32 (s.lagOf n))).setWidth 64
  val : ∀ c, 0x080000 ≤ c → c ≠ axBase n + AX.FERR → c ≠ axBase n + AX.STATUS → t.val c = s.val c
  status : ∀ i, s.bit (axBase n + AX.STATUS) i = true → t.bit (axBase n + AX.STATUS) i = true

/-- FERR takes the lag. -/
theorem lagShown_written : LagShown n s (s.wrI 32 (axBase n + AX.FERR) (satI 32 (s.lagOf n))) where
  mot := rfl
  fol := ⟨(s.fol n).ferrArmed, by rw [(wrI_axis 32 _).2]⟩
  ferr := by simp [State.val_wrI]
  val c _ h _ := by simp [State.val_wrI, h]
  status i h := by simpa [State.bit, State.val_wrI, AX.STATUS, AX.FERR] using h

/-- The lag event is armed, or is not. -/
theorem LagShown.armed (h : LagShown n s t) (b : Bool) : LagShown n s (t.onFol n (fun f => { f with ferrArmed := b })) where
  mot := by simp [h.mot]
  fol := by obtain ⟨c, hc⟩ := h.fol; exact ⟨b, by rw [onFol_fol, hc]⟩
  ferr := h.ferr
  val := h.val
  status := h.status

/-- The lag event leaves what has been shown: its flag and its entry reach no other register of the engines. -/
theorem LagShown.event (h : LagShown n s t) (k d1 d2 : Nat) : LagShown n s ((t.flag (axBase n + AX.STATUS) 5).log k d1 d2 (.axis n)) where
  mot := by simp [h.mot]
  fol := by simp [h.fol]
  ferr := by rw [log_hi _ (axReg_hi n (by decide)), flag_hi _ (by decide) (by simp [AX.STATUS, AX.FERR]) (axReg_hi n (by decide)), h.ferr]
  val c hc h1 h2 := by rw [log_hi _ hc, flag_hi _ (by decide) h2 hc, h.val c hc h1 h2]
  status i hi := by
    have hb := h.status i hi
    have hs : 0x080000 ≤ axBase n + AX.STATUS := axReg_hi n (by decide)
    simp only [State.bit, log_hi _ hs, flag_self_hi _ (by decide : 5 < 64) hs, BitVec.getLsbD_or] at hb ⊢
    rw [hb, Bool.true_or]

/-- The check of the lag shows it (R111). -/
theorem lagCheck_shown : LagShown n s (s.lagCheck n) := by
  unfold State.lagCheck
  extract_lets ferr s0 mx v s1
  split_ifs
  · exact lagShown_written
  · exact (lagShown_written.armed false).event _ _ _
  · exact lagShown_written.armed true
  · exact lagShown_written

/-- What shows the lag does not change it. -/
theorem LagShown.lagOf (h : LagShown n s t) : t.lagOf n = s.lagOf n := by
  have hl : (t.fol n).lag = (s.fol n).lag := by obtain ⟨b, hf⟩ := h.fol; rw [hf]
  have hv : ∀ o, o < 0x4000 → o ≠ AX.FERR → o ≠ AX.STATUS → t.val (axBase n + o) = s.val (axBase n + o) := fun o h0 h1 h2 =>
    h.val _ (axReg_hi n h0) (by omega) (by omega)
  have hb : t.rd (axBase n + AX.BACKLOG) = s.rd (axBase n + AX.BACKLOG) := congrArg BitVec.toNat (hv _ (by decide) (by decide) (by decide))
  have hz : t.axr n AX.STEPSZ = s.axr n AX.STEPSZ := congrArg BitVec.toNat (hv _ (by decide) (by decide) (by decide))
  unfold State.lagOf
  rw [hl, hb, hz]

/-- A limited value that was shown reads back. -/
theorem LagShown.rdI (h : LagShown n s t) : t.rdI 32 (axBase n + AX.FERR) = satI 32 (t.lagOf n) := by
  rw [h.lagOf, ← rdI_wrI_satI (s := s) (axBase n + AX.FERR)]
  simp only [State.rdI, State.val_wrI, h.ferr, if_true]

/-! ### The tracker (R110) -/

/-- A follower whose target is `q`, moving at `w`, takes the velocity of the tracker and its lag for the tick. -/
theorem track_follows {q w : Int} (ht : (s.fol n).track = some (q, w)) (he : (s.mot n).eff = .follow) (hp : s.tpr ≠ 0) :
    s.track n = (((s.onMot n (fun m => { m with
        vel := BitVec.ofInt 64 (trackVel q w (q - wrapI 80 (q - (s.mot n).pos.toInt)) (s.mot n).vel.toInt (s.limits n) s.tpr),
        acc := 0, jrk := 0, segs := [], goal := .none })).onFol n (fun f => { f with
        track := none, lag := fdiv (wrapI 80 (q - (s.mot n).pos.toInt)) (2 ^ 32) - fdiv (w * s.tpr) (2 ^ 56) })).lagCheck n) := by
  simp only [State.track, ht, he, if_neg hp]

/-! ### STEP input (R112) -/

/-- A qualified edge of an axis that follows its STEP input counts, and STEPCNT with it. -/
theorem stepEdge_counts (dir : Bool) (hs : s.st n = .follow) (hm : (s.fol n).mode = 1) :
    s.stepEdge n dir = (s.onFol n (fun f => { f with counts := f.counts + (if dir then 1 else -1) })).wrI 32 (axBase n + AX.STEPCNT)
      (s.rdI 32 (axBase n + AX.STEPCNT) + (if dir then 1 else -1)) := if_pos ⟨hs, hm⟩

/-- A register of 32 bits that was written reads as it took the value. -/
theorem rdI_wrI (w b : Nat) (hw : w ≤ 64) (v : Int) : (s.wrI w b v).rdI w b = (BitVec.ofInt w v).toInt := by
  rw [State.rdI, State.val_wrI, if_pos rfl, BitVec.setWidth_setWidth_of_le _ hw, BitVec.setWidth_eq]

/-! ### STEP output (R113) -/

/-- The pulses of the multiples that pos has crossed are taken up: the cell and the direction are those of pos now. -/
def State.stepTaken (s : State) (n : Fin 12) : State :=
  let up := decide (0 < s.stepCell n - (s.fol n).outCell)
  s.onFol n (fun f => { f with outCell := s.stepCell n, outDir := up, outDirAge := if up != (s.fol n).outDir then 0 else f.outDirAge })

/-- One multiple of STEPSZ crossed in the direction of DIR, with nothing held, where spacing and setup allow it: a pulse starts. -/
theorem stepPulse_emits (he : s.stepEmits n = true) (hc : s.stepCell n ≠ (s.fol n).outCell) (hone : (s.stepCell n - (s.fol n).outCell).natAbs = 1)
    (hd : (s.fol n).outDir = decide (0 < s.stepCell n - (s.fol n).outCell)) (hb : s.rd (axBase n + AX.BACKLOG) = 0)
    (hp : 2 * s.axr n AX.PW ≤ (s.fol n).outAge) (hs : s.axr n AX.DIRSU ≤ (s.fol n).outDirAge) :
    s.stepPulse n = ((s.stepTaken n).emitStep n).wr (axBase n + AX.BACKLOG) 0 := by
  have hne : s.stepCell n - (s.fol n).outCell ≠ 0 := sub_ne_zero.mpr hc
  simp [State.stepPulse, State.stepTaken, he, hne, hone, hd, hb, hp, hs]

/-- Multiples crossed where spacing or setup do not allow a pulse: the pulses are held. -/
theorem stepPulse_holds (he : s.stepEmits n = true) (hc : s.stepCell n ≠ (s.fol n).outCell)
    (hr : (s.fol n).outAge < 2 * s.axr n AX.PW ∨ (s.fol n).outDirAge < s.axr n AX.DIRSU) :
    s.stepPulse n = (((s.stepTaken n).wr (axBase n + AX.BACKLOG)
      (min 65535 (s.rd (axBase n + AX.BACKLOG) + (s.stepCell n - (s.fol n).outCell).natAbs))).flag (axBase n + AX.STATUS) 3).lagCheck n := by
  have hne : s.stepCell n - (s.fol n).outCell ≠ 0 := sub_ne_zero.mpr hc
  have hready : (decide (2 * s.axr n AX.PW ≤ (s.fol n).outAge) && decide (s.axr n AX.DIRSU ≤ (s.fol n).outDirAge)) = false := by
    rw [Bool.and_eq_false_iff, decide_eq_false_iff_not, decide_eq_false_iff_not]
    omega
  have hheld : min 65535 (s.rd (axBase n + AX.BACKLOG) + (s.stepCell n - (s.fol n).outCell).natAbs) ≠ 0 := by omega
  simp [State.stepPulse, State.stepTaken, he, hne, hready, hheld]

/-- A held pulse that falls due leaves BACKLOG. -/
theorem stepPulse_releases (he : s.stepEmits n = true) (hc : s.stepCell n = (s.fol n).outCell) (hb : 0 < s.rd (axBase n + AX.BACKLOG))
    (hp : 2 * s.axr n AX.PW ≤ (s.fol n).outAge) (hs : s.axr n AX.DIRSU ≤ (s.fol n).outDirAge) :
    s.stepPulse n = ((s.emitStep n).wr (axBase n + AX.BACKLOG) (s.rd (axBase n + AX.BACKLOG) - 1)).lagCheck n := by
  simp [State.stepPulse, he, hc, hb, hp, hs]

/-- What shows the lag leaves the output timers, the target and the lag. -/
theorem LagShown.fol_fields (h : LagShown n s t) :
    (t.fol n).outAge = (s.fol n).outAge ∧ (t.fol n).outHigh = (s.fol n).outHigh ∧ (t.fol n).outCell = (s.fol n).outCell ∧
    (t.fol n).track = (s.fol n).track ∧ (t.fol n).lag = (s.fol n).lag := by
  obtain ⟨b, hf⟩ := h.fol
  rw [hf]
  exact ⟨rfl, rfl, rfl, rfl, rfl⟩

/-- What shows the lag leaves BACKLOG. -/
theorem LagShown.backlog (h : LagShown n s t) : t.rd (axBase n + AX.BACKLOG) = s.rd (axBase n + AX.BACKLOG) :=
  congrArg BitVec.toNat (h.val _ (axReg_hi n (by decide)) (by simp [AX.BACKLOG, AX.FERR]) (by simp [AX.BACKLOG, AX.STATUS]))

end

/-- Settles O21: the tracker and the pulses each by their equation, and the lag that they show. -/
theorem stepsAndTracking : Obligations.StepsAndTracking := by
  unfold Obligations.StepsAndTracking
  intro n s ha
  refine ⟨fun q w hh ht he hp => ?_, fun dir hs hm => ?_, fun hh he => ⟨fun hc hone hd hb hp hs => ?_, fun hc hr => ?_, fun hc hb hp hs => ?_⟩⟩
  · have hshown := lagCheck_shown (n := n) (s := (s.onMot n (fun m => { m with
        vel := BitVec.ofInt 64 (trackVel q w (q - wrapI 80 (q - (s.mot n).pos.toInt)) (s.mot n).vel.toInt (s.limits n) s.tpr),
        acc := 0, jrk := 0, segs := [], goal := .none })).onFol n (fun f => { f with
        track := none, lag := fdiv (wrapI 80 (q - (s.mot n).pos.toInt)) (2 ^ 32) - fdiv (w * s.tpr) (2 ^ 56) }))
    rw [← track_follows ht he hp] at hshown
    obtain ⟨-, -, -, htrack, hlag⟩ := hshown.fol_fields
    refine ⟨_, congrArg Host.Outcome.next (working_of_running ha hh _), ?_, ?_, ?_, htrack.trans (by simp), hlag.trans (by simp), hshown.rdI⟩ <;>
      simp [hshown.mot]
  · refine ⟨_, congrArg Host.Outcome.next ((awake_of_not_asleep ha _).trans (stepEdge_counts dir hs hm)), by simp, rdI_wrI 32 _ (by decide) _, fun c hc => ?_,
      by simp, rfl⟩
    rw [State.val_wrI, if_neg hc]
    rfl
  · refine ⟨_, congrArg Host.Outcome.next ((working_of_running ha hh _).trans (stepPulse_emits he hc hone hd hb hp hs)), ?_, ?_, ?_, State.rd_wr _ _ _ (by decide), ?_⟩ <;>
      simp [State.stepTaken, State.emitStep, State.axr, State.rd]
  · have hshown := lagCheck_shown (n := n) (s := (((s.stepTaken n).wr (axBase n + AX.BACKLOG)
      (min 65535 (s.rd (axBase n + AX.BACKLOG) + (s.stepCell n - (s.fol n).outCell).natAbs))).flag (axBase n + AX.STATUS) 3))
    rw [← stepPulse_holds he hc hr] at hshown
    obtain ⟨hage, -, hcell, -, -⟩ := hshown.fol_fields
    refine ⟨_, congrArg Host.Outcome.next (working_of_running ha hh _), hage.trans (by simp [State.stepTaken]), hcell.trans (by simp [State.stepTaken]),
      hshown.backlog.trans ?_, hshown.status 3 ?_, ?_⟩
    · rw [State.rd, flag_hi _ (by decide) (by simp [AX.BACKLOG, AX.STATUS]) (axReg_hi n (by decide))]
      exact State.rd_wr _ _ _ (by omega)
    · exact flag_bit_hi (by decide) (axReg_hi n (by decide))
    · rw [hshown.mot]
      simp [State.stepTaken]
  · have hshown := lagCheck_shown (n := n) (s := (s.emitStep n).wr (axBase n + AX.BACKLOG) (s.rd (axBase n + AX.BACKLOG) - 1))
    rw [← stepPulse_releases he hc hb hp hs] at hshown
    obtain ⟨hage, hhigh, -, -, -⟩ := hshown.fol_fields
    refine ⟨_, congrArg Host.Outcome.next (working_of_running ha hh _), hage.trans (by simp [State.emitStep]), hhigh.trans (by simp [State.emitStep]),
      hshown.backlog.trans (State.rd_wr _ _ _ ?_), ?_⟩
    · have := (s.val (axBase n + AX.BACKLOG)).isLt
      unfold State.rd
      omega
    · rw [hshown.mot]
      simp [State.emitStep]

end Sys2Proof.Machine
end

section
/-! SUPPORT. A command of AX[n].CMD as its row gives it: what it leaves of the state that its judgement answers. -/

namespace Sys2Proof.Machine

section
variable {s u t : State} {n : Fin 12} {c : Nat}

/-! ### Fields -/

/-- A field that was written reads back. -/
theorem State.fld_setFld (b : Nat) {hi lo : Nat} (x : Nat) (hlo : lo ≤ hi) (h64 : hi < 64) :
    (s.setFld b hi lo x).fld b hi lo = x % 2 ^ (hi - lo + 1) := by
  have hv : s.rd b < 2 ^ 64 := (s.val b).isLt
  have hx : x % 2 ^ (hi - lo + 1) < 2 ^ (hi - lo + 1) := Nat.mod_lt _ (Nat.two_pow_pos _)
  obtain ⟨k, hk⟩ : ∃ k, 2 ^ 64 = 2 ^ lo * (2 ^ (hi - lo + 1) * k) := ⟨2 ^ (63 - hi), by rw [← pow_add, ← pow_add]; congr 1; omega⟩
  simp only [State.fld, Machine.fld, State.rd_setFld _ _ _ _ _ h64]
  generalize s.rd b = v at hv ⊢
  generalize 2 ^ (hi - lo + 1) = m at hx hk ⊢
  generalize hp : 2 ^ lo = p at hk ⊢
  have hp0 : 0 < p := hp ▸ Nat.two_pow_pos lo
  generalize x % m = y at hx ⊢
  have hq : v / p / m < k := Nat.div_lt_of_lt_mul (Nat.div_lt_of_lt_mul (hk ▸ hv))
  have hsplit : v = p * (m * (v / p / m) + v / p % m) + v % p := by rw [Nat.div_add_mod, Nat.div_add_mod]
  have hnew : v - v / p % m * p + y * p = p * (m * (v / p / m) + y) + v % p := by
    have h1 : p * (m * (v / p / m) + v / p % m) = p * (m * (v / p / m)) + v / p % m * p := by ring
    have h2 : p * (m * (v / p / m) + y) = p * (m * (v / p / m)) + y * p := by ring
    omega
  have hfit : m * (v / p / m) + y < m * k := by
    have h1 : m * (v / p / m + 1) ≤ m * k := Nat.mul_le_mul_left m hq
    rw [Nat.mul_add] at h1
    omega
  have hlt : p * (m * (v / p / m) + y) + v % p < 2 ^ 64 := by
    have h1 : p * (m * (v / p / m) + y + 1) ≤ p * (m * k) := Nat.mul_le_mul_left p hfit
    rw [Nat.mul_add] at h1
    have := Nat.mod_lt v hp0
    omega
  rw [hnew, Nat.mod_eq_of_lt hlt, Nat.mul_add_div hp0, Nat.div_eq_of_lt (Nat.mod_lt v hp0), Nat.add_zero, Nat.mul_add_mod, Nat.mod_eq_of_lt hx]

/-! ### The outputs of the units that follow (R213) -/

/-- Outputs of units write PSTAT and CARRY of those units alone. -/
theorem setOut_overList (l : List Nat) (e : Bool) (h : ∀ x ∈ l, c ≠ pstat x ∧ c ≠ unitBase x + PU.CARRY) :
    (overList l (fun s x => s.setOut x e) s).val c = s.val c := by
  induction l generalizing s with
  | nil => rfl
  | cons x l ih =>
    obtain ⟨hp, hc⟩ := h x List.mem_cons_self
    exact (ih fun y hy => h y (List.mem_cons_of_mem _ hy)).trans (setOut_other s e hp hc)

/-- The outputs of the units leave the axes. -/
theorem axisOuts_axes (e : Bool) : (s.axisOuts n e).axes = s.axes := (congrArg State.axes (uf_overList (fun t u => setOut_uf t u e) s).rest :)

/-! ### A command that is done (R93) -/

/-- The meaning of a command of R92 by its opcode. -/
def State.cmdOf (s : State) (n : Fin 12) (op arg : Nat) : Status × State :=
  match op with
  | 0x01 => s.cmdEnergize n arg
  | 0x02 => s.cmdMute n arg
  | 0x10 => s.cmdMoveAbs n arg
  | 0x11 => s.cmdMoveRel n arg
  | 0x12 => s.cmdJog n arg
  | 0x13 => s.cmdFollowCyclic n arg
  | 0x14 => s.cmdFollowStep n arg
  | 0x15 => s.cmdGear n arg
  | 0x20 => s.cmdStop n arg
  | 0x21 => s.cmdResume n arg
  | 0x22 => s.cmdAbandon n arg
  | 0x30 => s.cmdHome n arg
  | 0x40 => s.cmdYieldEnter n arg
  | 0x41 => s.cmdYieldExit n arg
  | 0x50 => if s.patchHolds n then (.state, s) else s.cmdIdentify n arg
  | 0x7F => s.cmdClearFault n arg
  | _ => (.unknown, s)

/-- An axis with a role takes the commands of R92 while the image store is good (R498). -/
theorem axisCmd_served (hr : s.role n ≠ 0) (hi : s.flt.imageBad = false) (op arg : Nat) : s.axisCmd n op arg = s.cmdOf n op arg := by
  unfold State.axisCmd
  rw [if_neg hr, if_neg (by simp [hi])]
  rfl

/-- `t` is the state that a command with opcode `op` leaves where its judgement answers DONE with `u`: CMDSTAT of axis n shows echo and status,
the axes are those of `u`, and so are the registers of the engines but PSTAT and CARRY of the axis's units. -/
structure CmdDone (n : Fin 12) (op : Nat) (u t : State) : Prop where
  axes : t.axes = u.axes
  cmdstat : t.rd (axBase n + AX.CMDSTAT) = op * 256
  val : ∀ c, 0x080000 ≤ c → c ≠ axBase n + AX.CMDSTAT → (∀ x ∈ (u.recd n).units, c ≠ pstat x ∧ c ≠ unitBase x + PU.CARRY) → t.val c = u.val c

theorem CmdDone.mot {op : Nat} (h : CmdDone n op u t) : t.mot = u.mot := (axis_of_axes h.axes).1

theorem CmdDone.fol {op : Nat} (h : CmdDone n op u t) : t.fol = u.fol := (axis_of_axes h.axes).2

/-- Registers of an axis are not those of its units. -/
theorem CmdDone.axVal {op o : Nat} (h : CmdDone n op u t) (ho : o < 0x4000) (hne : o ≠ AX.CMDSTAT) :
    t.val (axBase n + o) = u.val (axBase n + o) := by
  obtain ⟨hlo, hhi⟩ := axBase_window n ho
  refine h.val _ hlo (by omega) fun x _ => ?_
  have := unitBase_hi x
  unfold pstat
  omega

/-- A command whose judgement answers DONE leaves its completion and the outputs of the axis's units (R93, R213). -/
theorem finish_cmdDone {op arg acc : Nat} (ho : op < 256) :
    CmdDone n op u ((u.finish (axBase n + AX.CMDSTAT) n op arg acc .done).axisOuts n true) := by
  have hlo : 0x080000 ≤ axBase n + AX.CMDSTAT := axReg_hi n (by decide)
  obtain ⟨hself, hother⟩ := State.finish_val u (a := axBase n + AX.CMDSTAT) (b := n) (o := op) (g := arg) (x := acc) (st := .done)
    (logReg_hi hlo) (by omega)
  have himg : (u.finish (axBase n + AX.CMDSTAT) n op arg acc .done).recd n = u.recd n := by simp [State.recd]
  refine ⟨(axisOuts_axes true).trans (by simp), ?_, fun c hc hne hunits => ?_⟩
  · rw [State.axisOuts, State.rd, setOut_overList _ _ fun x _ => ?_, hself, BitVec.toNat_ofNat]
    · show (op * 256 + 0) % 2 ^ 64 = op * 256
      omega
    · have := unitBase_hi x
      have := (axBase_window n (o := AX.CMDSTAT) (by decide)).2
      unfold pstat
      omega
  · rw [State.axisOuts, himg, setOut_overList _ _ hunits, hother c hne (logReg_hi hc)]

/-- The row of a command of axis n, judged DONE, in operation and of an accessor that reaches the block. -/
theorem command_done {op : Nat} {arg : Byte} {acc : Fin 15} (ha : s.asleep = false) (hr : (s.judged n).role n ≠ 0)
    (hi : (s.judged n).flt.imageBad = false) (hacc : (s.judged n).mayAccess acc n = true) (ho : op < 256)
    (h : (s.judged n).cmdOf n op arg.toNat = (.done, u)) :
    ∃ t, s.awake (fun s => s.axisNow n ⟨op, arg.toNat, acc⟩) = t ∧ CmdDone n op u t := by
  refine ⟨_, ?_, finish_cmdDone (arg := arg.toNat) (acc := acc) ho⟩
  rw [awake_of_not_asleep ha, State.axisNow, State.withOuts, State.axisApply]
  simp only [if_pos hacc, axisCmd_served hr hi, h]

/-- The judgement of a command leaves position and velocity. -/
@[simp] theorem judged_rate : ((s.judged n).mot n).pos = (s.mot n).pos ∧ ((s.judged n).mot n).vel = (s.mot n).vel := by
  unfold State.judged State.takeSoft
  extract_lets x s1
  split <;> simp [s1]

end

end Sys2Proof.Machine
end

section
/-! PROOF. The commands that change the state of an axis, and the settlement of O22. -/

namespace Sys2Proof.Machine

section
variable {s : State} {n : Fin 12}

/-! ### The judgements (R95, R218, R395, R399, R405) -/

/-- ENERGIZE's start of the loop and of the observer leaves the motion. -/
theorem energized_mot : ((s.startLoop n).obsEnergize n).mot = s.mot := by
  unfold State.obsEnergize
  split <;> simp [State.obsSeed, State.startLoop]

theorem cmdEnergize_done (hs : s.st n = .off ∨ s.st n = .mute) (hp : s.patchHolds n = false) (ht : s.bit (fltA FLT.STATUS) 15 = false)
    (hpow : s.isPower n = true → s.gainMissing n = false ∧ s.stageReady n = true ∧ s.checkFailed n = false ∧
      (s.axb n AX.FPCFG 2 && s.bit (fpstat n) 13) = false) :
    ∃ u, s.cmdEnergize n 0 = (.done, u) ∧ u.mot n = (s.mot n).enter .hold := by
  have hjudge : s.cmdEnergize n 0 = (.done, if s.isPower n then ((s.setSt n .hold).startLoop n).obsEnergize n else s.setSt n .hold) := by
    cases hq : s.isPower n with
    | false => rcases hs with hs | hs <;> simp [State.cmdEnergize, hs, hp, ht, hq]
    | true =>
      obtain ⟨hgain, hready, hcheck, hident⟩ := hpow hq
      rcases hs with hs | hs <;> simp_all [State.cmdEnergize]
  refine ⟨_, hjudge, ?_⟩
  split
  · rw [energized_mot, setSt_mot]
  · rw [setSt_mot]

theorem cmdMute_done (h1 : s.st n ≠ .unplugged) (h2 : s.st n ≠ .fault) (h3 : s.st n ≠ .mute) (hf : (s.mot n).toFault = false) :
    s.cmdMute n 0 = (.done, s.enterStill n .mute) := by
  unfold State.cmdMute
  split <;> simp_all

theorem cmdMute_idle (hs : s.st n = .mute) : s.cmdMute n 0 = (.done, s) := by simp [State.cmdMute, hs]

/-- The clear of a unit's latches leaves the axes. -/
theorem unlatch_uf (x : Nat) : UF s (s.unlatch x) :=
  uf_overList (fun s v =>
    have hregs : RF (s.clearFlag (pstat v) 15) ((s.clearFlag (pstat v) 15).setFld (unitBase v + PU.LSTAT) 7 0 0) := ⟨rfl⟩
    ((((clearFlag_rf s (pstat v) 15).trans hregs).uf.trans (onUnit_uf _ _)).trans (showSources_uf _ v)).trans (setOut_uf _ v false)) s

theorem cmdClearFault_done (hs : s.st n = .fault) (hl : s.locked n = false) (ht : (s.recd n).units.any s.tripActive = false) :
    s.cmdClearFault n 0 = (.done, (overList (s.recd n).units (fun s x => s.unlatch x) s).enterStill n .mute) := by
  simp only [State.cmdClearFault, hs, hl, ht]
  simp

theorem unlatched_mot : (overList (s.recd n).units (fun s x => s.unlatch x) s).mot = s.mot :=
  (axis_of_axes (congrArg State.axes (uf_overList (fun s x => unlatch_uf (s := s) x) s).rest :)).1

theorem cmdIdentify_done (hs : s.st n = .off ∨ s.st n = .mute) (hq : s.isPower n = true) (hr : s.stageReady n = true) (hc : s.checkFailed n = false) :
    s.cmdIdentify n 0 = (.done, s.identStart n false) := by
  rcases hs with hs | hs <;> simp [State.cmdIdentify, hs, hq, hr, hc]

/-- An identification begins in IDENTIFY with result 1. -/
theorem identStart_fields (b : Bool) : ((s.identStart n b).mot n).st = .identify ∧ (s.identStart n b).fld (fpstat n) 10 8 = 1 := by
  refine ⟨by simp [State.identStart], ?_⟩
  have h := State.fld_setFld (s := s.setSt n .identify) (fpstat n) (hi := 10) (lo := 8) 1 (by decide) (by decide)
  simpa only [State.identStart, State.fld, State.rd, State.onPpl_fields] using h.trans (by decide : 1 % 2 ^ (10 - 8 + 1) = 1)

/-- Yield mode begins at rest, with neither exit nor soft limit (R395). -/
def State.yieldStart (s : State) (n : Fin 12) : State :=
  ((((s.setSt n .yield).onMot n (fun m => { m with atTarget := false })).onPpl n (fun q => { q with
    v := 0, vDone := 0, flast := 0, miss := 0, held := false })).setBit (ystat n) 15 false).setBit (ystat n) 14 false

theorem cmdYieldEnter_done (hs : s.st n = .hold) (hq : s.isPower n = true) (ho : s.opt n 3 = true) (hy : (s.recd n).ysrc ≠ 0xFF)
    (hg : s.axr n AX.YGAIN ≠ 0) (hd : s.axr n AX.DMAX ≠ 0) (ha : s.axr n AX.YAMAX ≠ 0) (he : s.enMissing n = false) (hv : s.yieldValid n = true)
    (hp : s.pendantOn n = false) : s.cmdYieldEnter n 0 = (.done, s.yieldStart n) := by
  simp [State.cmdYieldEnter, State.yieldStart, hs, hq, ho, hy, hg, hd, ha, he, hv, hp]

theorem yieldStart_fields : ((s.yieldStart n).mot n).st = .yield ∧ ((s.yieldStart n).mot n).pos = (s.mot n).pos ∧
    (s.yieldStart n).bit (ystat n) 15 = false ∧ (s.yieldStart n).bit (ystat n) 14 = false := by
  refine ⟨by simp [State.yieldStart], by simp [State.yieldStart], ?_, State.bit_setBit _ _ _ _ (by decide)⟩
  rw [State.yieldStart, State.bit_setBit_other _ _ _ _ _ _ (.inr (by decide))]
  exact State.bit_setBit _ _ _ _ (by decide)

theorem cmdYieldExit_done (hs : s.st n = .yield) : s.cmdYieldExit n 0 = (.done, s.setBit (ystat n) 15 true) := by
  simp [State.cmdYieldExit, hs]

end

/-- A bit of YSTAT is that of the state that the command leaves. -/
theorem CmdDone.ystat_bit {n : Fin 12} {op : Nat} {u t : State} (h : CmdDone n op u t) (i : Nat) : t.bit (ystat n) i = u.bit (ystat n) i :=
  congrArg (BitVec.getLsbD · i) (h.axVal (by decide) (by decide))

/-- Settles O22: each command by its judgement, and by what a command that is done leaves. -/
theorem axisStateCommands : Obligations.AxisStateCommands := by
  unfold Obligations.AxisStateCommands
  intro n acc s ha j hr hi hacc
  have run (op : Nat) (ho : op < 256) {u : State} (h : j.cmdOf n op (0#8).toNat = (.done, u)) :
      ∃ t, s.awake (fun s => s.axisNow n ⟨op, (0#8).toNat, acc⟩) = t ∧ CmdDone n op u t := command_done ha hr hi hacc ho h
  obtain ⟨hpos, hvel⟩ : (j.mot n).pos = (s.mot n).pos ∧ (j.mot n).vel = (s.mot n).vel := judged_rate
  refine ⟨fun hs hp ht hpow => ?_, fun h1 h2 h3 hf => ?_, fun hs => ?_, fun hs hl ht => ?_, fun hs hq hp hready hc => ?_,
    fun hs hq ho hy hg hd hya he hv hp => ?_, fun hs => ?_⟩
  · obtain ⟨u, hu, hmot⟩ := cmdEnergize_done hs hp ht hpow
    obtain ⟨t, ht, hdone⟩ := run 0x01 (by decide) hu
    refine ⟨t, congrArg Host.Outcome.next ht, ?_, ?_, hdone.cmdstat⟩ <;> simp [State.st, hdone.mot, hmot, hpos]
  · obtain ⟨t, ht, hdone⟩ := run 0x02 (by decide) (cmdMute_done h1 h2 h3 hf)
    refine ⟨t, congrArg Host.Outcome.next ht, ?_, ?_, ?_, ?_, hdone.cmdstat⟩ <;> simp [State.st, hdone.mot, hpos]
  · obtain ⟨t, ht, hdone⟩ := run 0x02 (by decide) (cmdMute_idle hs)
    exact ⟨t, congrArg Host.Outcome.next ht, hdone.axes, hdone.cmdstat⟩
  · obtain ⟨t, ht, hdone⟩ := run 0x7F (by decide) (cmdClearFault_done hs hl ht)
    refine ⟨t, congrArg Host.Outcome.next ht, ?_, ?_, ?_, hdone.cmdstat⟩ <;> simp [State.st, hdone.mot, unlatched_mot, hpos]
  · obtain ⟨t, ht, hdone⟩ := run 0x50 (by decide) ((if_neg (by simp [hp])).trans (cmdIdentify_done hs hq hready hc))
    obtain ⟨hst, hfld⟩ := identStart_fields (s := j) (n := n) false
    refine ⟨t, congrArg Host.Outcome.next ht, ?_, ?_, hdone.cmdstat⟩
    · rw [State.st, hdone.mot, hst]
    · rw [State.fld, State.rd, fpstat, hdone.axVal (by decide) (by decide)]
      exact hfld
  · obtain ⟨t, ht, hdone⟩ := run 0x40 (by decide) (cmdYieldEnter_done hs hq ho hy hg hd hya he hv hp)
    obtain ⟨hst, hkept, h15, h14⟩ := yieldStart_fields (s := j) (n := n)
    refine ⟨t, congrArg Host.Outcome.next ht, ?_, (hdone.ystat_bit 15).trans h15, (hdone.ystat_bit 14).trans h14, ?_, hdone.cmdstat⟩
    · rw [State.st, hdone.mot, hst]
    · rw [hdone.mot, hkept, hpos]
  · obtain ⟨t, ht, hdone⟩ := run 0x41 (by decide) (cmdYieldExit_done hs)
    refine ⟨t, congrArg Host.Outcome.next ht, ?_, (hdone.ystat_bit 15).trans (j.bit_setBit (ystat n) 15 true (by decide)), hdone.axes.trans (by simp), hdone.cmdstat⟩
    rw [State.st, hdone.mot, (setBit_axis 15 true).1]
    exact hs

end Sys2Proof.Machine
end

section
/-! PROOF. The commands that ask for a motion or end it, and the settlement of O23. -/

namespace Sys2Proof.Machine

section
variable {s : State} {n : Fin 12} {x : Int}

/-! ### The judgements (R89, R90, R97, R105, R106) -/

theorem moveTo_done (hl : s.limitsBad n = false) (hx : satI 48 x = x) (hsoft : s.softBad n (sgn (x - (s.mot n).ipos)) (some x) = false)
    (hsw : s.switchBad n (sgn (x - (s.mot n).ipos)) = false) (hp : s.pendantOn n = false) : s.moveTo n x = (.done, s.startMove n x) := by
  simp [State.moveTo, hl, hx, hsoft, hsw, hp]

theorem cmdMoveAbs_target {arg : Nat} (hm : (s.st n).movable = true) (ht : s.absTarget n arg = some x) : s.cmdMoveAbs n arg = s.moveTo n x := by
  simp [State.cmdMoveAbs, hm, ht]

theorem cmdMoveRel_target (hm : (s.st n).movable = true)
    (hx : x = (if s.st n = .move ∧ (s.mot n).hasTarget = true ∧ (s.mot n).vmode = false then (s.mot n).target else (s.mot n).ipos) + s.ax48 n AX.TGT) :
    s.cmdMoveRel n 0 = s.moveTo n x := by
  simp [State.cmdMoveRel, hm, hx]

theorem cmdJog_done (hm : (s.st n).movable = true) (hl : s.limitsBad n = false) (hv : (s.rdI 40 (axBase n + AX.JOGV)).natAbs ≤ s.axr n AX.VMAX)
    (hsoft : s.softBad n (sgn (s.rdI 40 (axBase n + AX.JOGV))) none = false) (hsw : s.switchBad n (sgn (s.rdI 40 (axBase n + AX.JOGV))) = false)
    (hp : s.pendantOn n = false) : s.cmdJog n 0 = (.done, s.startJog n (s.rdI 40 (axBase n + AX.JOGV))) := by
  have hv' : ¬ (s.axr n AX.VMAX : Int) < (s.rdI 40 (axBase n + AX.JOGV)).natAbs := by omega
  simp only [State.cmdJog, hm, hl, hv', hsoft, hsw, hp]
  simp

theorem cmdResume_done (hs : s.st n = .paused) (hl : s.limitsBad n = false) (hx : satI 48 ((s.mot n).ipos + (s.mot n).rem.toInt) = (s.mot n).ipos + (s.mot n).rem.toInt)
    (hsoft : s.slOn n = true → ¬ (s.slMax n < (s.mot n).ipos + (s.mot n).rem.toInt ∧ 0 < (s.mot n).rem.toInt) ∧
      ¬ ((s.mot n).ipos + (s.mot n).rem.toInt < s.slMin n ∧ (s.mot n).rem.toInt < 0))
    (hsw : s.switchBad n (sgn (s.mot n).rem.toInt) = false) (hp : s.pendantOn n = false) :
    s.cmdResume n 0 = (.done, s.startMove n ((s.mot n).ipos + (s.mot n).rem.toInt)) := by
  simp only [State.cmdResume, hs, hl, hx, hsw, hp]
  cases ho : s.slOn n with
  | false => simp
  | true =>
    obtain ⟨hhi, hlo⟩ := hsoft ho
    simp [hhi, hlo]

theorem cmdStop_done (hs : s.st n = .move ∨ s.st n = .follow ∨ s.st n = .homing) : s.cmdStop n 0 = (.done, s.classStop n) := by
  rcases hs with hs | hs | hs <;> simp [State.cmdStop, hs]

theorem cmdAbandon_paused (hs : s.st n = .paused) : s.cmdAbandon n 0 = (.done, (s.onMot n (fun m => { m with rem := 0 })).setSt n .hold) := by
  simp [State.cmdAbandon, hs]

theorem cmdAbandon_stopping (hs : s.st n = .stopping) (hf : (s.mot n).toFault = false) :
    s.cmdAbandon n 0 = (.done, s.onMot n (fun m => { m with keep := false })) := by
  simp [State.cmdAbandon, hs, hf]

/-- The class stop found at an edge: STOPPING, its ramp asked for at clock 64, and the rate multiplier as it was (R102, R604). -/
theorem classStop_fields : ((s.classStop n).mot n).st = .stopping ∧ ((s.classStop n).mot n).req = some .stop ∧
    ((s.classStop n).mot n).keep = s.stopKeeps n ∧ ((s.classStop n).mot n).pos = (s.mot n).pos ∧ ((s.classStop n).mot n).vel = (s.mot n).vel := by
  simp [State.classStop]

end

/-- Settles O23: each command by its judgement, and by the motion that it starts or ends. -/
theorem axisMotionCommands : Obligations.AxisMotionCommands := by
  unfold Obligations.AxisMotionCommands
  intro n acc s ha j hr hi hacc
  have run (op : Nat) (arg : Byte) {u : State} := command_done (u := u) (op := op) (arg := arg) ha hr hi hacc
  obtain ⟨hpos, hvel⟩ : (j.mot n).pos = (s.mot n).pos ∧ (j.mot n).vel = (s.mot n).vel := judged_rate
  refine ⟨fun arg x hm ht hl hx hsoft hsw hp => ?_, fun x hm ht hl hx hsoft hsw hp => ?_, fun v hv hm hl hmax hsoft hsw hp => ?_,
    fun r x hrem ht hs hl hx hsoft hsw hp => ?_, fun hs => ?_, fun hs => ?_, fun hs hf => ?_⟩
  · obtain ⟨t, ht, hdone⟩ := run 0x10 arg (by decide) ((cmdMoveAbs_target hm ht).trans (moveTo_done hl hx hsoft hsw hp))
    obtain ⟨hst, htarget, hhas, hreq, hp', hv', -⟩ := startMove_fields (s := j) (n := n) x
    rw [← hdone.mot] at hst htarget hhas hreq hp' hv'
    exact ⟨t, congrArg Host.Outcome.next ht, hst, htarget, hhas, hreq, hp'.trans hpos, hv'.trans hvel, hdone.cmdstat⟩
  · obtain ⟨t, ht, hdone⟩ := run 0x11 0 (by decide) ((cmdMoveRel_target hm ht).trans (moveTo_done hl hx hsoft hsw hp))
    obtain ⟨hst, htarget, -, hreq, hp', hv', -⟩ := startMove_fields (s := j) (n := n) x
    rw [← hdone.mot] at hst htarget hreq hp' hv'
    exact ⟨t, congrArg Host.Outcome.next ht, hst, htarget, hreq, hp'.trans hpos, hv'.trans hvel, hdone.cmdstat⟩
  · subst hv
    obtain ⟨t, ht, hdone⟩ := run 0x12 0 (by decide) (cmdJog_done hm hl hmax hsoft hsw hp)
    obtain ⟨hst, hmode, hhas, hreq, hp', hv'⟩ := startJog_fields (s := j) (n := n) (j.rdI 40 (axBase n + AX.JOGV))
    rw [← hdone.mot] at hst hmode hhas hreq hp' hv'
    exact ⟨t, congrArg Host.Outcome.next ht, hst, hmode, hhas, hreq, hp'.trans hpos, hv'.trans hvel, hdone.cmdstat⟩
  · subst hrem ht
    obtain ⟨t, ht, hdone⟩ := run 0x21 0 (by decide) (cmdResume_done hs hl hx hsoft hsw hp)
    obtain ⟨hst, htarget, -, hreq, hp', -, hrem⟩ := startMove_fields (s := j) (n := n) ((j.mot n).ipos + (j.mot n).rem.toInt)
    rw [← hdone.mot] at hst htarget hreq hp' hrem
    exact ⟨t, congrArg Host.Outcome.next ht, hst, htarget, hreq, hp'.trans hpos, hrem, hdone.cmdstat⟩
  · obtain ⟨t, ht, hdone⟩ := run 0x20 0 (by decide) (cmdStop_done hs)
    obtain ⟨hst, hreq, hkeep, hp', hv'⟩ := classStop_fields (s := j) (n := n)
    rw [← hdone.mot] at hst hreq hkeep hp' hv'
    exact ⟨t, congrArg Host.Outcome.next ht, hst, hreq, hkeep, hp'.trans hpos, hv'.trans hvel, hdone.cmdstat⟩
  · obtain ⟨t, ht, hdone⟩ := run 0x22 0 (by decide) (cmdAbandon_paused hs)
    refine ⟨t, congrArg Host.Outcome.next ht, ?_, ?_, ?_, hdone.cmdstat⟩ <;> simp [State.st, hdone.mot]
  · obtain ⟨t, ht, hdone⟩ := run 0x22 0 (by decide) (cmdAbandon_stopping hs hf)
    refine ⟨t, congrArg Host.Outcome.next ht, ?_, ?_, ?_, hdone.cmdstat⟩
    · simpa [State.st, hdone.mot] using hs
    · simp [hdone.mot]
    · simp [hdone.mot]

end Sys2Proof.Machine
end

section
/-! PROOF. Following, homing and SETPOS, and the settlement of O24. -/

namespace Sys2Proof.Machine

section
variable {s : State} {n : Fin 12} {x : AxState} {c : Nat}

/-! ### Following begins (R108, R112, R114) -/

/-- An axis that follows does so from where it is, with the mode and the source that it was given and no remainder. -/
theorem engage_fields (mode kind idx : Nat) :
    ((s.engage n mode kind idx).mot n).st = .follow ∧ ((s.engage n mode kind idx).mot n).pos = (s.mot n).pos ∧
    ((s.engage n mode kind idx).mot n).vel = (s.mot n).vel ∧ ((s.engage n mode kind idx).fol n).mode = mode ∧
    ((s.engage n mode kind idx).fol n).kind = kind ∧ ((s.engage n mode kind idx).fol n).idx = idx ∧ ((s.engage n mode kind idx).fol n).rem = 0 := by
  unfold State.engage
  extract_lets p s1 s2 m0
  simp [s2, s1]

theorem followBad_of_free (hl : s.limitsBad n = false) (h0 : s.limitOn n 0 = false) (h1 : s.limitOn n 1 = false) : s.followBad n = false := by
  simp [State.followBad, hl, h0, h1]

theorem cmdFollowCyclic_done (hs : s.st n = .hold) (hf : s.followBad n = false) (hp : s.pendantOn n = false) (hk : s.axr n AX.GSRC / 16384 = 1)
    (he : s.entryOk (s.axr n AX.GSRC % 1024) = true) : s.cmdFollowCyclic n 0 = (.done, s.engage n 0 1 (s.axr n AX.GSRC % 1024)) := by
  simp [State.cmdFollowCyclic, hs, hf, hp, hk, he]

theorem cmdFollowStep_done {p q : Fin 24} (hs : s.st n = .hold) (hf : s.followBad n = false) (hpend : s.pendantOn n = false)
    (hstep : Machine.fld (s.axr n AX.STEPIN) 12 8 = p) (hdir : Machine.fld (s.axr n AX.STEPIN) 4 0 = q) (hi : s.img.active = true)
    (hp : s.pinCode p = 0x40) (hq : s.pinCode q = 0x40) : s.cmdFollowStep n 0 = (.done, s.engage n 1 0 0) := by
  simp [State.cmdFollowStep, hs, hf, hpend, hstep, hdir, hi, hp, hq]

theorem cmdGear_axis {m : Fin 12} (hs : s.st n = .hold) (hf : s.followBad n = false) (hpend : s.pendantOn n = false)
    (hk : s.axr n AX.GSRC / 16384 = 0) (hm : s.axr n AX.GSRC % 1024 = m) (hne : m ≠ n) (hr : s.role m ≠ 0) (hloop : s.gearLoop n 12 m = false)
    (hw : s.secureBlock n = true → s.secureBlock m = true) : s.cmdGear n 0 = (.done, s.engage n 2 0 m) := by
  have hrole : s.img.map[m.val].role ≠ 0 := hr
  have hidx : ¬ 11 < m.val ∧ m.val ≠ n.val := ⟨by omega, fun e => hne (Fin.ext e)⟩
  have hworld : ¬ (s.secureBlock n = true ∧ s.secureBlock m = false) := fun ⟨h1, h2⟩ => by simp [hw h1] at h2
  simp [State.cmdGear, hs, hf, hpend, hk, hm, hrole, hidx, hloop, hworld]

theorem cmdGear_entry (hs : s.st n = .hold) (hf : s.followBad n = false) (hpend : s.pendantOn n = false) (hk : s.axr n AX.GSRC / 16384 = 1)
    (he : s.entryOk (s.axr n AX.GSRC % 1024) = true) : s.cmdGear n 0 = (.done, s.engage n 2 1 (s.axr n AX.GSRC % 1024)) := by
  simp [State.cmdGear, hs, hf, hpend, hk, he]

/-- A command that is done by engaging leaves FOLLOW with that mode and source, from where the axis is. -/
theorem command_engages {op mode kind idx : Nat} {acc : Fin 15} (ha : s.asleep = false) (hr : (s.judged n).role n ≠ 0)
    (hi : (s.judged n).flt.imageBad = false) (hacc : (s.judged n).mayAccess acc n = true) (ho : op < 256)
    (h : (s.judged n).cmdOf n op (0#8).toNat = (.done, (s.judged n).engage n mode kind idx)) :
    ∃ t, s.awake (fun s => s.axisNow n ⟨op, (0#8).toNat, acc⟩) = t ∧ t.st n = .follow ∧ (t.fol n).mode = mode ∧ (t.fol n).kind = kind ∧
      (t.fol n).idx = idx ∧ (t.fol n).rem = 0 ∧ (t.mot n).pos = (s.mot n).pos ∧ (t.mot n).vel = (s.mot n).vel ∧
      t.rd (axBase n + AX.CMDSTAT) = op * 256 := by
  obtain ⟨t, ht, hdone⟩ := command_done ha hr hi hacc ho h
  obtain ⟨hst, hpos, hvel, hmode, hkind, hidx, hrem⟩ := engage_fields (s := s.judged n) (n := n) mode kind idx
  obtain ⟨hpos', hvel'⟩ := judged_rate (s := s) (n := n)
  rw [← hdone.mot] at hst hpos hvel
  rw [← hdone.fol] at hmode hkind hidx hrem
  exact ⟨t, ht, hst, hmode, hkind, hidx, hrem, hpos.trans hpos', hvel.trans hvel', hdone.cmdstat⟩

/-! ### Homing begins (R273, R274) -/

theorem cmdHome_done {m : Nat} (hs : s.st n = .hold) (h4 : s.role n = 4 → m = 0) (h3 : s.role n ≠ 3) (h5 : m ≠ 5) (hm : m < 7)
    (hpin : s.homePinMissing n m = false) (hl : s.limitsBad n = false)
    (hv : m ≠ 0 → s.rd (hmBase n + HM.HVSLOW) ≠ 0 ∧ s.rd (hmBase n + HM.HVSLOW) ≤ s.rd (hmBase n + HM.HVFAST))
    (hsw : s.switchBad n (s.homeFirst n m) = false) (hp : s.pendantOn n = false) : s.cmdHome n m = (.done, s.homeStart n m) := by
  have hstate : ¬ (s.st n ≠ .hold ∨ (s.role n = 4 ∧ m ≠ 0) ∨ (s.role n = 3 ∧ (m = 5 ∨ m = 7)) ∨ (m = 5 ∧ (!s.opt n 1 ∨ !s.axb n AX.STLCFG 4)) ∨
      (m = 7 ∧ 8 ≤ (s.recd n).port)) := by
    rintro (h | ⟨h, h'⟩ | ⟨h, _⟩ | ⟨h, _⟩ | ⟨h, _⟩)
    exacts [h hs, h' (h4 h), h3 h, h5 h, by omega]
  have hrange : ¬ (7 < m ∨ s.homePinMissing n m ∨ s.limitsBad n ∨ (1 ≤ m ∧ m ≤ 6 ∧ (s.rd (hmBase n + HM.HVSLOW) = 0 ∨
      s.rd (hmBase n + HM.HVFAST) < s.rd (hmBase n + HM.HVSLOW))) ∨ (m = 5 ∧ s.rd (hmBase n + HM.HCUR) = 0) ∨
      (s.role n = 3 ∧ s.axr n AX.STEPSZ * 2 ^ 32 < s.rd (hmBase n + HM.HVFAST) * 65536 * (2 * s.axr n AX.PW)) ∨
      s.switchBad n (s.homeFirst n m)) := by
    rintro (h | h | h | ⟨h, _, h'⟩ | ⟨h, _⟩ | ⟨h, _⟩ | h)
    · omega
    · simp [hpin] at h
    · simp [hl] at h
    · obtain ⟨h0, hle⟩ := hv (by omega)
      omega
    · exact h5 h
    · exact h3 h
    · simp [hsw] at h
  unfold State.cmdHome
  rw [if_neg hstate, if_neg hrange, if_neg (by simp [hp])]

/-! ### The registers of a homing method -/

/-- The registers of homing lie above the log's, those of the axes and those of the first units. -/
theorem hmReg_hi (n : Fin 12) (o : Nat) : 0x111000 ≤ hmBase n + o := by unfold hmBase; omega

@[simp] theorem homeEnd_img (k : Nat) : (s.homeEnd n k).img = s.img := by unfold State.homeEnd; extract_lets a; split <;> simp

@[simp] theorem identEnd_img : (s.identEnd n).img = s.img := by unfold State.identEnd; extract_lets a; split <;> simp

/-- A change of state leaves the image. -/
@[simp] theorem setSt_img : (s.setSt n x).img = s.img := by
  unfold State.setSt
  split
  · rfl
  · extract_lets s0 s1 s2
    have h0 : s0.img = s.img := by simp only [s0]; split <;> simp
    have h1 : s1.img = s0.img := by simp only [s1]; split <;> simp
    simp [s2, h1, h0]

/-- A change of state writes of the engines' registers HSTAT, of a method in progress, and FPSTAT alone. -/
theorem setSt_val (hc : 0x080000 ≤ c) (hf : c ≠ fpstat n) (hh : s.fld (hmBase n + HM.HSTAT) 15 12 ≠ 1) : (s.setSt n x).val c = s.val c := by
  have h0 : (if s.st n = .homing then s.homeEnd n 7 else s) = s := by
    split
    · exact if_neg hh
    · rfl
  unfold State.setSt
  rw [h0]
  split
  · rfl
  · extract_lets s0 s1 s2
    have h1 : s1.val c = s.val c := by
      simp only [s1]
      split
      · unfold State.identEnd
        extract_lets a
        split
        · exact State.val_setFld_other _ _ _ _ _ _ hf
        · rfl
      · rfl
    rw [irq_hi _ (by omega) hc]
    exact h1

/-- HSTAT takes its value, and the axes and the image stand. -/
theorem hstat_frame (r : Nat) : (s.hstat n r).axes = s.axes ∧ (s.hstat n r).img = s.img := by
  unfold State.hstat
  extract_lets h ph a s1
  split <;> simp [s1]

@[simp] theorem hstat_mot (r : Nat) : (s.hstat n r).mot = s.mot := (axis_of_axes (hstat_frame r).1).1

@[simp] theorem hstat_img (r : Nat) : (s.hstat n r).img = s.img := (hstat_frame r).2

theorem hstat_hom (r : Nat) : (s.hstat n r).hom = s.hom := by funext m; simp only [State.hom, (hstat_frame r).1]

/-- A register of the engines other than HSTAT stands, and HSTAT shows the result. -/
theorem hstat_val {r : Nat} (hr : r < 16) (h1 : r ≠ 1) : (s.hstat n r).fld (hmBase n + HM.HSTAT) 15 12 = r ∧
    ∀ c, 0x080000 ≤ c → c ≠ hmBase n + HM.HSTAT → (s.hstat n r).val c = s.val c := by
  have hwr : ∀ c, 0x080000 ≤ c → (s.hstat n r).val c =
      (s.wr (hmBase n + HM.HSTAT) (r * 4096 + 0 * 256 + (if (s.hom n).rev then 128 else 0) + (s.hom n).m % 8)).val c := by
    intro c hc
    unfold State.hstat
    simp only [if_neg h1]
    split
    · rw [irq_hi _ (by omega) hc]
    · rfl
  have hv : (if (s.hom n).rev then 128 else 0) + (s.hom n).m % 8 < 256 := by split <;> omega
  refine ⟨?_, fun c hc hne => by rw [hwr c hc, State.val_wr, if_neg hne]⟩
  rw [State.fld, State.rd, hwr _ (by have := hmReg_hi n HM.HSTAT; omega), State.val_wr, if_pos rfl, BitVec.toNat_ofNat, Machine.fld]
  omega

/-! ### A method that completes, and one whose first leg begins -/

@[simp] theorem onHom_hom (f : Homing → Homing) : (s.onHom n f).hom n = f (s.hom n) := congrArg Axis.hom (vupd_same ..)

@[simp] theorem onMot_hom (f : Motion → Motion) : (s.onMot n f).hom = s.hom := funext fun _ => onAx_part Axis.hom fun _ => rfl

/-- A relabelled axis keeps the image. -/
theorem relabel_img (d : Int) : (s.relabel n d).img = s.img := by
  unfold State.relabel
  extract_lets m p s1 s2
  split <;> simp [s2, s1]

/-- A method that completes leaves HOLD, result 2 and its capture (R277, R287). -/
theorem homeComplete_fields (capt : Int) : ((s.homeComplete n capt).mot n).st = .hold ∧
    (s.homeComplete n capt).fld (hmBase n + HM.HSTAT) 15 12 = 2 ∧ (s.homeComplete n capt).rdI 48 (hmBase n + HM.HCAPT) = (BitVec.ofInt 48 capt).toInt ∧
    (s.homeComplete n capt).img = s.img := by
  unfold State.homeComplete
  extract_lets b delta d2 s1 s2 s3
  have hcapt : ∀ u : State, (u.hstat n 2).rdI 48 (hmBase n + HM.HCAPT) = u.rdI 48 (hmBase n + HM.HCAPT) := fun u => by
    rw [State.rdI, (hstat_val (by decide) (by decide)).2 _ (by have := hmReg_hi n HM.HCAPT; omega) (by simp [HM.HCAPT, HM.HSTAT])]
    rfl
  have hset : ∀ (u : State) (o : Nat), ((u.hstat n 2).setSt n .hold).val (hmBase n + o) = (u.hstat n 2).val (hmBase n + o) := fun u o => by
    have hhi := hmReg_hi n o
    have := (axBase_window n (o := AX.FPSTAT) (by decide)).2
    refine setSt_val (by omega) (by unfold fpstat; omega) ?_
    rw [(hstat_val (by decide) (by decide)).1]
    decide
  have himg : s1.img = s.img := by simp only [s1]; split <;> [rfl; exact relabel_img d2]
  refine ⟨by simp, ?_, ?_, by simp [s3, s2, himg]⟩
  · rw [State.fld, State.rd, hset]
    exact (hstat_val (by decide) (by decide)).1
  · have hwritten : s3.rdI 48 (hmBase n + HM.HCAPT) = (BitVec.ofInt 48 capt).toInt := by
      rw [← rdI_wrI (s := s1) 48 (hmBase n + HM.HCAPT) (by decide)]
      simp [State.rdI, s3, s2, b, State.val_wrI, HM.HCAPT, HM.HRES]
    rw [State.rdI, hset]
    exact (hcapt (s3.onHom n _)).trans hwritten

/-- A leg that begins asks for its search and leaves the axis in its state where it is (R273). -/
theorem homeNext_leg {l : Leg} {todo : List HomeStep} (h : (s.hom n).todo = .leg l :: todo) :
    ((s.homeNext n).mot n).st = (s.mot n).st ∧ ((s.homeNext n).mot n).pos = (s.mot n).pos ∧ ((s.homeNext n).mot n).vel = (s.mot n).vel := by
  simp [State.homeNext, h]

/-- The legs of method 3, and of methods 4 and 6, are not none (R274). -/
theorem homeLegs3_start (m : Nat) : ∃ l todo, s.homeLegs3 n m = .leg l :: todo := by
  unfold State.homeLegs3
  extract_lets d
  cases s.homeOn n <;> exact ⟨_, _, rfl⟩

/-- Methods 1, 2, 3, 4 and 6 have a first leg (R274). -/
theorem homeLegs_start {m : Nat} (hm : m = 1 ∨ m = 2 ∨ m = 3 ∨ m = 4 ∨ m = 6) : ∃ l todo, s.homeLegs n m = .leg l :: todo := by
  rcases hm with rfl | rfl | rfl | rfl | rfl
  · simp only [State.homeLegs]
    cases s.limitOn n 0 <;> exact ⟨_, _, rfl⟩
  · simp only [State.homeLegs]
    cases s.limitOn n 1 <;> exact ⟨_, _, rfl⟩
  all_goals exact homeLegs3_start _

/-- HOMING with method m, before its first step (R273). -/
def State.homeBegun (s : State) (n : Fin 12) (m : Nat) : State :=
  (((s.setSt n .homing).onHom n (fun _ => { Homing.start with m := m, todo := s.homeLegs n m })).onMot n
    (fun x => { x with atTarget := false, keep := false })).hstat n 1

theorem homeBegun_fields (m : Nat) : ((s.homeBegun n m).mot n).st = .homing ∧ ((s.homeBegun n m).mot n).pos = (s.mot n).pos ∧
    ((s.homeBegun n m).mot n).vel = (s.mot n).vel ∧ ((s.homeBegun n m).hom n).todo = s.homeLegs n m ∧ (s.homeBegun n m).img = s.img := by
  simp [State.homeBegun, hstat_hom]

theorem homeStart_zero : s.homeStart n 0 = (s.homeBegun n 0).homeComplete n (s.mot n).ipos := rfl

theorem homeStart_leg {m : Nat} (hm : m = 1 ∨ m = 2 ∨ m = 3 ∨ m = 4 ∨ m = 6) : s.homeStart n m = (s.homeBegun n m).homeNext n := by
  rcases hm with rfl | rfl | rfl | rfl | rfl <;> rfl

/-- HOME by method 0 completes where the axis is (R273). -/
theorem homeStart_zero_fields : ((s.homeStart n 0).mot n).st = .hold ∧ (s.homeStart n 0).fld (hmBase n + HM.HSTAT) 15 12 = 2 ∧
    (s.homeStart n 0).rdI 48 (hmBase n + HM.HCAPT) = (BitVec.ofInt 48 (s.mot n).ipos).toInt ∧ (s.homeStart n 0).recd n = s.recd n := by
  obtain ⟨hst, hstat, hcapt, himg⟩ := homeComplete_fields (s := s.homeBegun n 0) (n := n) (s.mot n).ipos
  obtain ⟨-, -, -, -, himg'⟩ := homeBegun_fields (s := s) (n := n) 0
  rw [homeStart_zero]
  exact ⟨hst, hstat, hcapt, by rw [State.recd, himg, himg', State.recd]⟩

/-- HOME by a method with a first leg enters HOMING from where the axis is. -/
theorem homeStart_leg_fields {m : Nat} (hm : m = 1 ∨ m = 2 ∨ m = 3 ∨ m = 4 ∨ m = 6) : ((s.homeStart n m).mot n).st = .homing ∧
    ((s.homeStart n m).mot n).pos = (s.mot n).pos ∧ ((s.homeStart n m).mot n).vel = (s.mot n).vel := by
  obtain ⟨l, todo, hlegs⟩ := homeLegs_start (s := s) (n := n) hm
  obtain ⟨hst, hpos, hvel, htodo, -⟩ := homeBegun_fields (s := s) (n := n) m
  obtain ⟨hst', hpos', hvel'⟩ := homeNext_leg (htodo.trans hlegs)
  rw [homeStart_leg hm]
  exact ⟨hst'.trans hst, hpos'.trans hpos, hvel'.trans hvel⟩

end

section
variable {s t : State} {n : Fin 12} {acc : Fin 15}

/-! ### The commit of SETPOS (R119, R125, R519) -/

/-- The row of SETPOS (R119). -/
def rowSETPOS : Row := ⟨0x02C, 3, 1, 4, .wc, 0x0, 0xFFFFFFFFFFFF, 0x0, 48, true, -140737488355328, 140737488355327⟩

theorem setpos_offset : AX.SETPOS < 0x4000 := by decide

/-- Every word of SETPOS is listed. -/
theorem locate_setpos (n : Fin 12) {w : Nat} (hw : w < 3) : locate (axBase n + AX.SETPOS + 4 * w) = some ⟨rowSETPOS, axBase n + AX.SETPOS, w⟩ := by
  have hoff : ∀ r ∈ rowsAX.take 9, r.off + r.span ≤ 0x02C := by decide
  have hpre : ∀ v ∈ windows.take 10, v.top ≤ 0x080000 := by decide
  have hrow : rowAt rowsAX (0x02C + 4 * w) = some (rowSETPOS, 0x02C, w) := by
    rw [show rowsAX = rowsAX.take 9 ++ rowSETPOS :: rowsAX.drop 10 from rfl, rowAt_append_of_outside fun r hr => .inr (by have := hoff r hr; omega)]
    exact rowAt_cons_of_single rfl hw
  rw [Nat.add_assoc]
  exact locate_of_window (pre := windows.take 10) (w := ⟨0x080000, 0x4000, 12, rowsAX⟩) (post := windows.drop 11) (p := 0x02C + 4 * w) rfl
    (fun v hv => .inr (by have := hpre v hv; dsimp only; omega)) n.isLt (by dsimp only; omega) (by decide) hrow

/-- Of a register of an axis with several words, none of which an option disables, a write reaches the bits of its row. -/
theorem writable_ax {r : Row} {o : Nat} (ho : o < 0x4000) (hd : s.deadBits n o = 0) (hw : r.words ≠ 1) :
    s.writable r (axBase n + o) = r.wm &&& 0xFFFFFFFFFFFFFFFF := by
  obtain ⟨hlo, hhi⟩ := axBase_window n ho
  simp only [State.writable, dif_pos (And.intro hlo hhi), axBase_index n ho, axBase_offset n ho, Fin.eta, hd, if_neg hw]
  rw [if_neg (by unfold gpioA GPIO.MODE; omega), if_neg (by unfold netA NET.PUB; omega), if_neg (by unfold netA NET.PUB; omega),
    if_neg (by unfold wldA WLD.SBLK; omega)]
  rfl

theorem writable_setpos : s.writable rowSETPOS (axBase n + AX.SETPOS) = 0xFFFFFFFFFFFF :=
  writable_ax setpos_offset (by simp [State.deadBits, AX.SETPOS, AX.ICFG, AX.OCFG, AX.STLCFG]) (by decide)

/-- SETPOS takes every value of 48 bits, in OFF and MUTE only. -/
theorem judge_setpos (v : Val) : s.judge rowSETPOS (axBase n + AX.SETPOS) v = if s.isOff n then .done else .state := by
  have hrange : rowSETPOS.inRange v = true := inRange_slmin v
  have hrule : ∀ old v, s.judgeAx n AX.SETPOS old v = (!s.isOff n, false) := fun _ _ => by
    simp [State.judgeAx, State.judgeMotion, AX.SETPOS, AX.AMAX, AX.DMAX, AX.YAMAX]
  simp only [State.judge, broken_ax n setpos_offset, hrule, hrange, verdict]
  cases s.isOff n <;> rfl

/-- What a commit of SETPOS makes of the motion: the axis stands at `p`, and keeps its velocity (R125). -/
theorem afterAx_setpos (old v : Nat) : ((s.afterAx n AX.SETPOS old v).mot n).pos = BitVec.ofInt 80 ((BitVec.ofNat 48 v).toInt * 2 ^ 32) ∧
    ((s.afterAx n AX.SETPOS old v).mot n).snapPos = BitVec.ofInt 48 (BitVec.ofNat 48 v).toInt ∧ ((s.afterAx n AX.SETPOS old v).mot n).rem = 0 ∧
    ((s.afterAx n AX.SETPOS old v).mot n).atTarget = false ∧ ((s.afterAx n AX.SETPOS old v).mot n).vel = (s.mot n).vel := by
  simp [State.afterAx]

/-- A value that enters a register leaves the axes. -/
theorem place_axes (r : Row) (b : Nat) (v : Val) : (s.place r b v).axes = s.axes := by
  unfold State.place State.keepUse
  split <;> [split; skip] <;> rfl

/-- A write of all 48 bits of SETPOS places the axis in OFF and MUTE, and is refused elsewhere (R125). -/
theorem regWrite_setpos (data : Val) : s.regWrite rowSETPOS (axBase n + AX.SETPOS) 0xFFFFFFFFFFFF data =
    if s.isOff n then (.done, (s.place rowSETPOS (axBase n + AX.SETPOS) (mergeBits (s.val (axBase n + AX.SETPOS)) data 0xFFFFFFFFFFFF)).afterAx n AX.SETPOS
      (s.val (axBase n + AX.SETPOS)).toNat (mergeBits (s.val (axBase n + AX.SETPOS)) data 0xFFFFFFFFFFFF).toNat)
    else (.state, s) := by
  obtain ⟨hlo, -⟩ := axBase_window n setpos_offset
  have hrate : axBase n + AX.SETPOS ≠ timA TIM.RATE := by unfold timA TIM.RATE; omega
  have hadj : axBase n + AX.SETPOS ≠ timA TIM.ADJ := by unfold timA TIM.ADJ; omega
  have hheld : s.held (axBase n + AX.SETPOS) = s.val (axBase n + AX.SETPOS) := if_neg hrate
  have hw1c : ∀ d, s.w1c (axBase n + AX.SETPOS) (0xFFFFFFFFFFFF &&& rowSETPOS.cm &&& d) = (.done, s) := fun d => by simp [State.w1c, rowSETPOS]
  have hwm : rowSETPOS.wm ≠ 0 := by decide
  simp only [State.regWrite, if_neg hrate, if_neg hadj, writable_setpos, judge_setpos, hheld, hw1c, if_neg hwm, Nat.and_self, after_ax n setpos_offset]
  cases s.isOff n <;> simp

/-- What such a write leaves: in OFF and MUTE the axis stands at the value, and elsewhere no axis changes. -/
theorem regWrite_setpos_places (v : BitVec 48) : ∃ x, s.regWrite rowSETPOS (axBase n + AX.SETPOS) 0xFFFFFFFFFFFF (v.setWidth 64) = x ∧ x.1 ≠ .buserr ∧
    (s.isOff n = true → (x.2.mot n).pos = BitVec.ofInt 80 (v.toInt * 2 ^ 32) ∧ (x.2.mot n).snapPos = BitVec.ofInt 48 v.toInt ∧
      (x.2.mot n).rem = 0 ∧ (x.2.mot n).atTarget = false ∧ (x.2.mot n).vel = (s.mot n).vel) ∧
    (s.isOff n = false → x.2.axes = s.axes) := by
  refine ⟨_, regWrite_setpos _, by split <;> simp, fun hoff => ?_, fun hoff => by simp [hoff]⟩
  obtain ⟨w, hw⟩ : ∃ w, mergeBits (s.val (axBase n + AX.SETPOS)) (v.setWidth 64) 0xFFFFFFFFFFFF = w := ⟨_, rfl⟩
  have hv : BitVec.ofNat 48 w.toNat = v := hw ▸ mergeBits_low48 (s.val (axBase n + AX.SETPOS)) v
  obtain ⟨hpos, hsnap, hrem, hat, hvel⟩ := afterAx_setpos (s := s.place rowSETPOS (axBase n + AX.SETPOS) w) (n := n) (s.val (axBase n + AX.SETPOS)).toNat w.toNat
  rw [hv] at hpos hsnap
  rw [hw, if_pos hoff]
  exact ⟨hpos, hsnap, hrem, hat, hvel.trans (by rw [(axis_of_axes (place_axes ..)).1])⟩

/-- The highest word of a long register of an axis, written whole over its staged words by an accessor that the worlds permit: the value is
written, and the staging is spent (R519). -/
theorem awake_commit_ax {r : Row} {o k m v : Nat} (hi : Word) (hr : s.ready = true) (hs : s.pow.shelf ≠ .shelf) (ho : o + 4 * k < 0x4000)
    (h4 : o % 4 = 0) (hloc : locate (axBase n + o + 4 * k) = some ⟨r, axBase n + o, k⟩) (hacc : r.acc = .wc) (hw : r.words = k + 1)
    (hv : s.violationOf acc (axBase n + o + 4 * k) true = none) (hl : (s.acc[acc]).lostStage.contains (axBase n + o) = false)
    (hst : (s.acc[acc]).stagedFor (axBase n + o) (k + 1) = (m, v)) {x : Status × State}
    (hx : s.regWrite r (axBase n + o) (m + 0xFFFF * 65536 ^ k) (BitVec.ofNat 64 (v + hi.toNat * 65536 ^ k)) = x) (hne : x.1 ≠ .buserr) :
    s.awake (fun s => (s.busWrite acc (axBase n + o + 4 * k) (0xFFFF#16 ++ hi)).2) = x.2.unstage acc (axBase n + o) (k + 1) := by
  obtain ⟨hlo, hhi⟩ := axBase_window n ho
  have hbase : 0x080000 ≤ axBase n + o := axReg_hi n (by omega)
  have hcommit : s.wordWrite acc ⟨r, axBase n + o, k⟩ 0xFFFF hi.toNat = (x.1, x.2.unstage acc (axBase n + o) (k + 1)) := by
    unfold State.wordWrite
    rw [if_neg (by decide), ownWrite_outside (.inr hbase)]
    simp only [hacc, hw, Nat.lt_irrefl, if_false, State.commitValue, hl, hst, Nat.add_sub_cancel, Bool.false_eq_true, hx]
  have h : s.writeWord acc (axBase n + o + 4 * k) (0xFFFF#16 ++ hi) = (x.1, x.2.unstage acc (axBase n + o) (k + 1)) := by
    have hword : (axBase n + o + 4 * k) % 4 = 0 := by unfold axBase; omega
    have hend : axBase n + o + 4 * k < 0x500000 := by omega
    unfold State.writeWord
    rw [if_neg (by simp [hr, hword, hend]), hloc, if_neg (by simp), hv, word_mask, word_data]
    exact (writeReg_plain 0xFFFF#16 (.inr hacc) (by omega) (.inr (by omega))).trans hcommit
  rw [awake_of_ready hr hs, State.busWrite, h, State.counted, if_neg fun e => hne e.1]

/-- The high word of SETPOS over its staged low ones: in OFF and MUTE the axis stands at the value, and otherwise no axis changes (R125). -/
theorem setposCommit_places (lo : BitVec 32) (hi : Word) (hr : s.ready = true) (hs : s.pow.shelf ≠ .shelf)
    (hv : s.violationOf acc (axBase n + AX.SETPOS + 8) true = none) (hl : (s.acc[acc]).lostStage.contains (axBase n + AX.SETPOS) = false)
    (hst : (s.acc[acc]).stagedFor (axBase n + AX.SETPOS) 3 = (0xFFFFFFFF, lo.toNat)) :
    ∃ t, exec (.setposCommit n acc (0xFFFF#16 ++ hi)) s = .next t ∧
      (s.isOff n = true → (t.mot n).pos = BitVec.ofInt 80 ((hi ++ lo).toInt * 2 ^ 32) ∧ (t.mot n).snapPos = BitVec.ofInt 48 (hi ++ lo).toInt ∧
        (t.mot n).rem = 0 ∧ (t.mot n).atTarget = false ∧ (t.mot n).vel = (s.mot n).vel) ∧
      (s.isOff n = false → t.axes = s.axes) := by
  obtain ⟨x, hx, hbus, hon, hoff⟩ := regWrite_setpos_places (s := s) (n := n) (hi ++ lo)
  rw [← ofNat_staged (k := 2) lo hi (by norm_num)] at hx
  exact ⟨_, congrArg Host.Outcome.next (awake_commit_ax (k := 2) hi hr hs (by decide) (by decide) (locate_setpos n (by decide)) rfl rfl hv hl hst hx hbus),
    hon, hoff⟩

end

/-- Settles O24: each command by its judgement and by what it engages, starts or places. -/
theorem followHomeAndSetpos : Obligations.FollowHomeAndSetpos := by
  unfold Obligations.FollowHomeAndSetpos
  refine ⟨?_, fun n acc lo hi s hr hs hv hlost hst => setposCommit_places lo hi hr hs hv hlost hst⟩
  intro n acc s ha j hr hi hacc hs hl hp
  have run (op : Nat) (arg : Byte) {u : State} := command_done (u := u) (op := op) (arg := arg) ha hr hi hacc
  obtain ⟨hpos, hvel⟩ : (j.mot n).pos = (s.mot n).pos ∧ (j.mot n).vel = (s.mot n).vel := judged_rate
  refine ⟨fun h0 h1 => ?_, fun h3 hunits => ?_, fun m hm h4 h3 hpin hslow hfast hsw => ?_⟩
  · have hf : j.followBad n = false := followBad_of_free hl h0 h1
    refine ⟨fun hk he => ?_, fun p q hstep hdir hact hpc hqc => ?_, fun m hk hm hne hrole hloop hw => ?_, fun hk he => ?_⟩
    · obtain ⟨t, ht, hst, hmode, hkind, hidx, -, hpos', hvel', hcmd⟩ := command_engages (op := 0x13) ha hr hi hacc (by decide) (cmdFollowCyclic_done hs hf hp hk he)
      exact ⟨t, congrArg Host.Outcome.next ht, hst, hmode, hkind, hidx, hpos', hvel', hcmd⟩
    · obtain ⟨t, ht, hst, hmode, -, -, -, hpos', -, hcmd⟩ := command_engages (op := 0x14) ha hr hi hacc (by decide) (cmdFollowStep_done hs hf hp hstep hdir hact hpc hqc)
      exact ⟨t, congrArg Host.Outcome.next ht, hst, hmode, hpos', hcmd⟩
    · obtain ⟨t, ht, hst, hmode, hkind, hidx, hrem, hpos', -, hcmd⟩ :=
        command_engages (op := 0x15) ha hr hi hacc (by decide) (cmdGear_axis hs hf hp hk hm hne hrole hloop hw)
      exact ⟨t, congrArg Host.Outcome.next ht, hst, hmode, hkind, hidx, hrem, hpos', hcmd⟩
    · obtain ⟨t, ht, hst, hmode, hkind, hidx, -, hpos', -, hcmd⟩ := command_engages (op := 0x15) ha hr hi hacc (by decide) (cmdGear_entry hs hf hp hk he)
      exact ⟨t, congrArg Host.Outcome.next ht, hst, hmode, hkind, hidx, hpos', hcmd⟩
  · obtain ⟨t, ht, hdone⟩ := run 0x30 0#8 (by decide) (cmdHome_done (m := 0) hs (fun _ => rfl) h3 (by decide) (by decide) rfl hl (fun h => absurd rfl h)
      (by simp [State.homeFirst, State.homeLegs, State.switchBad]) hp)
    obtain ⟨hst, hstat, hcapt, hrec⟩ := homeStart_zero_fields (s := j) (n := n)
    have hreg : ∀ o, t.val (hmBase n + o) = (j.homeStart n 0).val (hmBase n + o) := fun o => by
      have hhi := hmReg_hi n o
      have := (axBase_window n (o := AX.CMDSTAT) (by decide)).2
      refine hdone.val _ (by omega) (by omega) fun x hx => ?_
      have hx48 := hunits x (hrec ▸ hx)
      unfold pstat unitBase PU.CARRY PU.PSTAT
      split <;> omega
    refine ⟨t, congrArg Host.Outcome.next ht, ?_, ?_, ?_, hdone.cmdstat⟩
    · rw [State.st, hdone.mot, hst]
    · rw [State.fld, State.rd, hreg]
      exact hstat
    · rw [State.rdI, hreg]
      exact hcapt
  · have hm' : m.toNat = 1 ∨ m.toNat = 2 ∨ m.toNat = 3 ∨ m.toNat = 4 ∨ m.toNat = 6 := by
      rcases hm with rfl | rfl | rfl | rfl | rfl <;> decide
    obtain ⟨t, ht, hdone⟩ := run 0x30 m (by decide) (cmdHome_done hs (fun h => absurd h h4) h3 (by omega) (by omega) hpin hl (fun _ => ⟨hslow, hfast⟩) hsw hp)
    obtain ⟨hst, hpos', hvel'⟩ := homeStart_leg_fields (s := j) (n := n) hm'
    rw [← hdone.mot] at hst hpos' hvel'
    exact ⟨t, congrArg Host.Outcome.next ht, hst, hpos'.trans hpos, hvel'.trans hvel, hdone.cmdstat⟩

end Sys2Proof.Machine
end

section
/-! SUPPORT. The control state of an axis after the named updates, and registers after a flag or a clear by hardware. -/

namespace Sys2Proof.Machine

section
variable {s t : State} {n m : Fin 12} {b c i : Nat}

/-! ### The running control state after an update -/

/-- Two states with the same axes have the same running control states. -/
theorem ctl_of_axes (h : t.axes = s.axes) : t.ctl = s.ctl := by funext n; simp only [State.ctl, h]

@[simp] theorem onCtl_ctl (f : Ctl → Ctl) : (s.onCtl n f).ctl n = f (s.ctl n) := congrArg (fun a : Axis => a.ctl.work) (vupd_same ..)

@[simp] theorem onBoth_ctl (f : Ctl → Ctl) : (s.onBoth n f).ctl n = f (s.ctl n) := congrArg (fun a : Axis => a.ctl.work) (vupd_same ..)

@[simp] theorem onBoth_mot (f : Ctl → Ctl) : (s.onBoth m f).mot = s.mot := funext fun _ => onAx_part Axis.mot fun _ => rfl

@[simp] theorem onBoth_fields (f : Ctl → Ctl) : (s.onBoth m f).pow = s.pow ∧ (s.onBoth m f).flt = s.flt := ⟨rfl, rfl⟩

@[simp] theorem wr_ctl (v : Nat) : (s.wr b v).ctl = s.ctl := rfl
@[simp] theorem wrI_ctl (w : Nat) (v : Int) : (s.wrI w b v).ctl = s.ctl := rfl
@[simp] theorem setBit_ctl (x : Bool) : (s.setBit b i x).ctl = s.ctl := rfl
@[simp] theorem setFld_ctl (hi lo x : Nat) : (s.setFld b hi lo x).ctl = s.ctl := rfl
@[simp] theorem flag_ctl : (s.flag b i).ctl = s.ctl := ctl_of_axes (by simp)
@[simp] theorem request_ctl (who kind cycles : Nat) : (s.request who kind cycles).ctl = s.ctl := rfl
@[simp] theorem request_mot (who kind cycles : Nat) : (s.request who kind cycles).mot = s.mot := rfl
@[simp] theorem request_val (who kind cycles : Nat) : (s.request who kind cycles).val = s.val := rfl

/-! ### Bits and registers -/

theorem val_bit (h : t.val c = s.val c) : t.bit c = s.bit c := by funext i; rw [State.bit, h, State.bit]

theorem val_rd (h : t.val c = s.val c) : t.rd c = s.rd c := congrArg BitVec.toNat h

theorem val_fld (h : t.val c = s.val c) (hi lo : Nat) : t.fld c hi lo = s.fld c hi lo := congrArg (Machine.fld · hi lo) (val_rd h)

/-- Different offsets in one window are different registers. -/
theorem offset_ne {o p : Nat} (h : o ≠ p) : b + o ≠ b + p := fun e => h (Nat.add_left_cancel e)

/-- A field reads the same where its bits do. -/
theorem fld_of_bits {lo hi : Nat} (hlo : lo ≤ hi) (h : ∀ i, lo ≤ i → i ≤ hi → t.bit b i = s.bit c i) : t.fld b hi lo = s.fld c hi lo := by
  refine Nat.eq_of_testBit_eq fun i => ?_
  simp only [State.fld, Machine.fld, Nat.testBit_mod_two_pow, Nat.testBit_div_two_pow]
  by_cases hi' : i < hi - lo + 1
  · have hbit : (t.rd b).testBit (i + lo) = (s.rd c).testBit (i + lo) := h (i + lo) (by omega) (by omega)
    rw [hbit]
  · simp [hi']

/-- Of a flag's own register, its bit reads 1 and the others as before, where the log does not reach it. -/
theorem flag_self_up (hi : i < 64) (hl : logReg b = false) (hb : 0x200 ≤ b) : (s.flag b i).val b = s.val b ||| BitVec.twoPow 64 i := by
  have hfirst : (s.flagOnly b i).val b = s.val b ||| BitVec.twoPow 64 i := (State.val_setBit ..).trans (by simp)
  unfold State.flag
  extract_lets k s1 s2
  have hcollided : s2.val b = s1.val b := by
    simp only [s2]
    split
    · exact (collide_logs (a := fltA FLT.HOVF) .refl).val b (ne_of_logReg hl) hl
    · rfl
  split
  case h_1 x hx =>
    have hx' := flagCause_lt (b := b) hi
    rw [hx, Option.getD_some] at hx'
    rw [irq_up _ hx' hb, hcollided, hfirst]
  case h_2 => rw [hcollided, hfirst]

/-- A flag leaves the other bits of its register. -/
theorem flag_other_bit_hi {j : Nat} (hi : i < 64) (hj : j ≠ i) (hb : 0x080000 ≤ b) : (s.flag b i).bit b j = s.bit b j := by
  rw [State.bit, flag_self_hi s hi hb, BitVec.getLsbD_or, BitVec.getLsbD_twoPow, decide_eq_false hj.symm, Bool.and_false, Bool.or_false, State.bit]

/-- What a clear by hardware changes: its bit reads 0, the other registers as before, and the history stands (R148). -/
theorem hardClear_reg (hi : i < 64) : (s.hardClear b i).bit b i = false ∧ (∀ j, j ≠ i → (s.hardClear b i).bit b j = s.bit b j) ∧
    (∀ c, c ≠ b → (s.hardClear b i).val c = s.val c) :=
  ⟨s.bit_setBit b i false hi, fun j hj => s.bit_setBit_other b b i j false (.inr hj), fun _ hc => (State.val_setBit ..).trans (if_neg hc)⟩

@[simp] theorem hardClear_axes : (s.hardClear b i).axes = s.axes := rfl
@[simp] theorem hardClear_pow : (s.hardClear b i).pow = s.pow := rfl
@[simp] theorem hardClear_hist : (s.hardClear b i).flt.hist = s.flt.hist := rfl

end

end Sys2Proof.Machine
end

section
/-! PROOF. The current loop, its watches and the level in force, and the settlement of O25. -/

namespace Sys2Proof.Machine

/-- What one run of the loop regulates: its integrators, its predictions and its voltage limit (R130, R132, R135, R136). -/
def Ctl.regulated (c : Ctl) : Int × Int × Int × Int × Int × Bool := (c.zd, c.zq, c.zeta, c.predA, c.predB, c.vsat)

theorem regulated_inj {c d : Ctl} (h : c.regulated = d.regulated) :
    c.zd = d.zd ∧ c.zq = d.zq ∧ c.zeta = d.zeta ∧ c.predA = d.predA ∧ c.predB = d.predB ∧ c.vsat = d.vsat := by
  simpa [Ctl.regulated] using h

/-- From `s` to `t` what the loop of axis n regulates, its committed control state and the motion stand. -/
structure LoopKept (n : Fin 12) (s t : State) : Prop where
  work : (t.ctl n).regulated = (s.ctl n).regulated
  now : (t.axes[n]).ctl.now = (s.axes[n]).ctl.now
  mot : t.mot n = s.mot n

section
variable {r s t : State} {n : Fin 12}

/-! ### What the learning loops and the watches leave (R145-R152, R249, R250) -/

theorem LoopKept.refl : LoopKept n s s := ⟨rfl, rfl, rfl⟩

theorem LoopKept.trans (h : LoopKept n r s) (g : LoopKept n s t) : LoopKept n r t := ⟨g.work.trans h.work, g.now.trans h.now, g.mot.trans h.mot⟩

theorem loopKept_ite {p : Prop} {_ : Decidable p} (h : LoopKept n r s) (g : LoopKept n r t) : LoopKept n r (if p then s else t) := by
  by_cases hp : p <;> simp [hp, h, g]

/-- An update that leaves the axes. -/
theorem LoopKept.of_axes (h : LoopKept n r s) (g : t.axes = s.axes) : LoopKept n r t :=
  h.trans ⟨by rw [ctl_of_axes g], by rw [g], by rw [(axis_of_axes g).1]⟩

theorem onCtl_now {f : Ctl → Ctl} : ((s.onCtl n f).axes[n]).ctl.now = (s.axes[n]).ctl.now := onAx_part (fun a => a.ctl.now) fun _ => rfl

/-- A change of the running control state beside what the loop regulates. -/
theorem onCtl_kept {f : Ctl → Ctl} (hf : (f (s.ctl n)).regulated = (s.ctl n).regulated) (h : LoopKept n r s) : LoopKept n r (s.onCtl n f) :=
  h.trans ⟨by rw [onCtl_ctl, hf], onCtl_now, by rw [onCtl_mot]⟩

/-- Two changes of the running control state that agree on what the loop regulates. -/
theorem onCtl_agree {f g : Ctl → Ctl} (h : (g (s.ctl n)).regulated = (f (s.ctl n)).regulated) : LoopKept n (s.onCtl n f) (s.onCtl n g) :=
  ⟨by rw [onCtl_ctl, onCtl_ctl, h], by rw [onCtl_now, onCtl_now], by rw [onCtl_mot, onCtl_mot]⟩

theorem setBit_kept {b i : Nat} {x : Bool} (h : LoopKept n r s) : LoopKept n r (s.setBit b i x) := h.of_axes rfl

theorem flagIf_kept {p : Prop} {_ : Decidable p} {b i : Nat} (h : LoopKept n r s) : LoopKept n r (if p then s.flag b i else s) :=
  loopKept_ite (h.of_axes (by simp)) h

theorem trkL_kept {w : Fin 2} {d : Rat} (h : LoopKept n r s) : LoopKept n r (s.trkL n w d) := by
  unfold State.trkL State.stepTrk
  exact onCtl_kept rfl h

theorem trkStep_kept {w : Fin 2} (h : LoopKept n r s) : LoopKept n r (s.trkStep n w) := by
  unfold State.trkStep
  exact loopKept_ite (loopKept_ite (onCtl_kept rfl h) h) (onCtl_kept rfl (trkL_kept h))

theorem tracker_kept (h : LoopKept n r s) : LoopKept n r (s.tracker n) := by
  unfold State.tracker
  exact loopKept_ite h (loopKept_ite (setBit_kept h) (trkStep_kept (trkStep_kept (setBit_kept h))))

theorem probeStop_kept (h : LoopKept n r s) : LoopKept n r (s.probeStop n) := setBit_kept (onCtl_kept rfl h)

theorem probeTask_kept (h : LoopKept n r s) : LoopKept n r (s.probeTask n) := by
  unfold State.probeTask
  extract_lets c d
  split
  · refine loopKept_ite (onCtl_kept rfl h) (loopKept_ite ?_ h)
    split
    · exact loopKept_ite (probeStop_kept h) (probeStop_kept (trkL_kept (trkL_kept h)))
    · exact probeStop_kept h
  · exact h

theorem detStep_kept {k : Fin 6} {eps x : Rat} (h : LoopKept n r s) : LoopKept n r (s.detStep n k eps x) := by
  unfold State.detStep State.stepDet
  exact onCtl_kept rfl h

theorem detent_kept (h : LoopKept n r s) : LoopKept n r (s.detent n) := by
  unfold State.detent
  refine loopKept_ite h (loopKept_ite (setBit_kept h) ?_)
  exact detStep_kept (detStep_kept (detStep_kept (detStep_kept (detStep_kept (detStep_kept (onCtl_kept rfl (setBit_kept h)))))))

theorem openEval_kept {ir iw vw : Nat → Rat} {vlim : Rat} (h : LoopKept n r s) : LoopKept n r (s.openEval n ir iw vw vlim) := by
  unfold State.openEval
  exact onCtl_kept rfl h

end

section
variable {s : State} {n : Fin 12}

/-! ### One run of the loop (R128-R136) -/

/-- One run of the loop from what it regulates and the references: its voltage vector, the limit, and the integrators that it moves. -/
theorem currentLoop_regulates {pa pb : Int} {fa fb : Rat} (hrun : s.loopRuns n = true) (ha : s.feedback n 0 = (pa, fa)) (hb : s.feedback n 1 = (pb, fb)) :
    let c := s.ctl n
    let th := if c.frame then s.thRotor n else s.thCmd n
    let r := s.reference n
    let ed := r.idr - (fa * cosT th + fb * sinT th)
    let eq := r.iqr - (fb * cosT th - fa * sinT th)
    let vd := fx c.zd + s.axu n AX.KP * ed / 1024
    let vq := fx c.zq + s.axu n AX.KP * eq / 1024
    let vlim := (s.vm : Rat) * s.mmax n
    let va := absR (vd * cosT th - vq * sinT th)
    let vb := absR (vd * sinT th + vq * cosT th)
    let sat := decide (vlim < if va < vb then vb else va)
    let hold := sat || c.inv || c.inBurst
    LoopKept n (s.onCtl n (fun c => { c with
      zd := if hold then c.zd else q32 13 (clampR (fx c.zd + s.axu n AX.KI * ed / 65536) (-vlim) vlim)
      zq := if hold then c.zq else q32 13 (clampR (fx c.zq + s.axu n AX.KI * eq / 65536) (-vlim) vlim)
      zeta := r.zeta, predA := pa, predB := pb, vsat := sat })) (s.currentLoop n) := by
  intro c th r ed eq vd vq vlim va vb sat hold
  unfold State.currentLoop
  rw [if_neg (by simp [hrun])]
  simp only [ha, hb]
  refine openEval_kept (detent_kept (probeTask_kept (tracker_kept (flagIf_kept (flagIf_kept (flagIf_kept ?_))))))
  exact onCtl_agree rfl

theorem currentLoop_idle (hrun : s.loopRuns n = false) : s.currentLoop n = s := if_pos (by simp [hrun])

/-! ### The watches (R249, R250) -/

/-- The loss of a winding or of a pair's balance in the log of a state that has room: the code, the detail and the quantity. -/
theorem log_openEvent (d w : Nat) (hr : s.pow.inReset = false) (hl : s.flt.hist.length < 32) :
    (s.log 0x0105 d w (.axis n)).axes = s.axes ∧
    ∃ x ∈ (s.log 0x0105 d w (.axis n)).flt.hist, x.code = 0x0105 ∧ x.w6 = BitVec.ofNat 16 d ∧ x.w7 = BitVec.ofNat 16 w :=
  ⟨by simp, log_hist hr hl⟩

/-- The 16 bits of a current as a detail word. -/
theorem ofNat_toNat_ofInt (x : Int) : BitVec.ofNat 16 (BitVec.ofInt 16 x).toNat = BitVec.ofInt 16 x :=
  (BitVec.ofNat_toNat ..).trans (BitVec.setWidth_eq _)

theorem openWinding_a (h : s.openNow n = (true, false)) :
    s.openWinding n = s.log 0x0105 0 (BitVec.ofInt 16 (rnd 14 (fx (s.ctl n).ia))).toNat (.axis n) := by simp only [State.openWinding, h]

theorem openWinding_b (h : s.openNow n = (false, true)) :
    s.openWinding n = s.log 0x0105 1 (BitVec.ofInt 16 (rnd 14 (fx (s.ctl n).ib))).toNat (.axis n) := by simp only [State.openWinding, h]

theorem openWinding_both (h : s.openNow n = (true, true)) (hp : s.axb n AX.FPCFG 0 = false) :
    s.openWinding n = s.log 0x0105 4 (BitVec.ofInt 16 (rnd 14 (fx (s.ctl n).ia))).toNat (.axis n) := by
  simp only [State.openWinding, h]
  exact if_neg (by simp [hp])

theorem sharingFault_a (ha : (s.ctl n).openRun[2] = s.rdu (devA DEV.OWN)) (hb : (s.ctl n).openRun[3] ≠ s.rdu (devA DEV.OWN)) :
    ∃ w, s.sharingFault n = s.log 0x0105 2 w (.axis n) :=
  ⟨_, (if_neg hb).trans (if_pos ha)⟩

theorem sharingFault_b (ha : (s.ctl n).openRun[2] ≠ s.rdu (devA DEV.OWN)) (hb : (s.ctl n).openRun[3] = s.rdu (devA DEV.OWN)) :
    ∃ w, s.sharingFault n = s.log 0x0105 3 w (.axis n) :=
  ⟨_, (if_pos hb).trans (by rw [if_neg ha])⟩

/-! ### The level in force (R139, R141) -/

/-- The level of an edge is limited to ILIMEFF, which shows the limit. -/
theorem holdLevel_limits : ((s.holdLevel n).ctl n).lvl =
      min (if s.softened n = true then min (s.level n) (s.axr n AX.ITOUCH) else s.level n) (s.ilimEff n) ∧
    (s.holdLevel n).rd (axBase n + AX.ILIMEFF) = s.ilimEff n % 2 ^ 64 ∧ (s.holdLevel n).mot n = s.mot n := by
  have hstat : axBase n + AX.ILIMEFF ≠ axBase n + AX.ISTAT := offset_ne (by decide)
  unfold State.holdLevel
  extract_lets l lim a held s1 s2
  have hlimit : s2.val (axBase n + AX.ILIMEFF) = BitVec.ofNat 64 lim := by
    simp only [s2, s1, a, State.val_setBit, if_neg hstat, State.val_wr, if_true]
  split
  · refine ⟨by simp [s2, s1, l, lim], ?_, by simp [s2, s1]⟩
    rw [State.rd, flag_hi _ (by decide) hstat (axReg_hi n (by decide)), hlimit, BitVec.toNat_ofNat]
  · exact ⟨by simp [s2, s1, l, lim], by rw [State.rd, hlimit, BitVec.toNat_ofNat], by simp [s2, s1]⟩

end

/-- Settles O25: the loop by what it regulates and what the rest of its run keeps, the watches by the event that they log. -/
theorem currentLoopAndWatch : Obligations.CurrentLoopAndWatch := by
  unfold Obligations.CurrentLoopAndWatch
  intro n s ha
  have work (hh : s.stage.halt = false) (f : State → State) : s.working f = f s := working_of_running ha hh f
  refine ⟨fun hh hrun pa pb fa fb hfa hfb => ?_, fun hrun => ?_, fun hh hr hl => ⟨fun h => ?_, fun h => ?_, fun h hp => ?_, fun h2 h3 => ?_, fun h2 h3 => ?_⟩, ?_⟩
  · intro c th r ed eq vd vq vlim va vb sat
    obtain ⟨hwork, hnow, hmot⟩ := currentLoop_regulates hrun hfa hfb
    obtain ⟨hzd, hzq, hzeta, hpa, hpb, hsat⟩ := regulated_inj (hwork.trans (congrArg Ctl.regulated (onCtl_ctl _)))
    exact ⟨_, congrArg Host.Outcome.next (work hh _), hsat, hpa, hpb, hzeta, fun hhold => ⟨hzd.trans (if_pos hhold), hzq.trans (if_pos hhold)⟩,
      fun hmove => ⟨hzd.trans (if_neg (Bool.eq_false_iff.mp hmove)), hzq.trans (if_neg (Bool.eq_false_iff.mp hmove))⟩,
      hmot.trans (congrFun (onCtl_mot _) n), hnow.trans onCtl_now⟩
  · have hidle : s.working (fun s => s.currentLoop n) = s := by
      rw [State.working, awake_of_not_asleep ha, currentLoop_idle hrun, ite_self]
    exact congrArg Host.Outcome.next hidle
  · obtain ⟨haxes, x, hx, hcode, hdetail, hcurrent⟩ := log_openEvent (n := n) 0 _ hr hl
    exact ⟨_, congrArg Host.Outcome.next ((work hh _).trans (openWinding_a h)), haxes, x, hx, hcode, hdetail, hcurrent.trans (ofNat_toNat_ofInt _)⟩
  · obtain ⟨haxes, x, hx, hcode, hdetail, hcurrent⟩ := log_openEvent (n := n) 1 _ hr hl
    exact ⟨_, congrArg Host.Outcome.next ((work hh _).trans (openWinding_b h)), haxes, x, hx, hcode, hdetail, hcurrent.trans (ofNat_toNat_ofInt _)⟩
  · obtain ⟨haxes, x, hx, hcode, hdetail, -⟩ := log_openEvent (n := n) 4 _ hr hl
    exact ⟨_, congrArg Host.Outcome.next ((work hh _).trans (openWinding_both h hp)), haxes, x, hx, hcode, hdetail⟩
  · obtain ⟨w, hlog⟩ := sharingFault_a h2 h3
    obtain ⟨haxes, x, hx, hcode, hdetail, -⟩ := log_openEvent (n := n) 2 w hr hl
    exact ⟨_, congrArg Host.Outcome.next ((work hh _).trans hlog), haxes, x, hx, hcode, hdetail⟩
  · obtain ⟨w, hlog⟩ := sharingFault_b h2 h3
    obtain ⟨haxes, x, hx, hcode, hdetail, -⟩ := log_openEvent (n := n) 3 w hr hl
    exact ⟨_, congrArg Host.Outcome.next ((work hh _).trans hlog), haxes, x, hx, hcode, hdetail⟩
  · exact ⟨_, congrArg Host.Outcome.next (awake_of_not_asleep ha _), holdLevel_limits⟩

end Sys2Proof.Machine
end

section
/-! PROOF. The trimming loops that start again when they have diverged, and the settlement of O26. -/

namespace Sys2Proof.Machine

/-- `t` is `z` with a divergence told: flag `j` of register `a` reads 1, 0x0108 stands in the history with the loop `k` and its number `w`
where there is room, and the registers out of the log's reach but for the flag are as before (R148). -/
structure Told (a j k w : Nat) (z t : State) : Prop where
  rest : t = { z with regs := t.regs, flt := t.flt }
  flag : t.val a = z.val a ||| BitVec.twoPow 64 j
  val : ∀ c, c ≠ a → logReg c = false → 0x200 ≤ c → t.val c = z.val c
  hist : z.pow.inReset = false → z.flt.hist.length < 32 →
    ∃ x ∈ t.flt.hist, x.code = 0x0108 ∧ x.w6 = BitVec.ofNat 16 k ∧ x.w7 = BitVec.ofNat 16 w

section
variable {s z t : State} {n : Fin 12} {a b c i j k w : Nat}

/-! ### A divergence that is told (R148) -/

theorem flag_log_told (bd : Bind) (hj : j < 64) (hl : logReg a = false) (ha : 0x200 ≤ a) : Told a j k w z ((z.flag a j).log 0x0108 k w bd) where
  rest := ((flag_rf z a j).trans (log_rf _ _ _ _ _)).rest
  flag := (State.log_val _ hl _ _ _ _).trans (flag_self_up hj hl ha)
  val _ hne hlc hc := (State.log_val _ hlc _ _ _ _).trans (flag_up _ hj hne hlc hc)
  hist hr hroom := log_hist (by simpa using hr) (by rwa [flag_hist])

/-- A flag in a register of the engines. -/
theorem flag_log_told_hi (bd : Bind) (hj : j < 64) (ha : 0x080000 ≤ a) : Told a j k w z ((z.flag a j).log 0x0108 k w bd) :=
  flag_log_told bd hj (logReg_hi ha) (by omega)

theorem Told.axes (h : Told a j k w z t) : t.axes = z.axes := (congrArg State.axes h.rest :)

theorem Told.units (h : Told a j k w z t) : t.units = z.units := (congrArg State.units h.rest :)

theorem Told.flag_set (h : Told a j k w z t) (hj : j < 64) : t.bit a j = true := by simp [State.bit, h.flag, hj]

theorem Told.other_bit (h : Told a j k w z t) (hi : i ≠ j) : t.bit a i = z.bit a i := by
  simp [State.bit, h.flag, BitVec.getLsbD_twoPow, hi.symm]

theorem Told.val_hi (h : Told a j k w z t) (hne : c ≠ a) (hc : 0x080000 ≤ c) : t.val c = z.val c := h.val c hne (logReg_hi hc) (by omega)

/-- The divergence of a loop whose learn bit is bit `i` of register `b`: hardware clears the bit, and the divergence is told. -/
theorem Told.learn_off (h : Told a j k w (z.hardClear b i) t) (hi : i < 64) (hne : b ≠ a) (hb : 0x080000 ≤ b) : t.bit b i = false :=
  (congrFun (val_bit (h.val_hi hne hb)) i).trans (hardClear_reg hi).1

theorem Told.learn_axes (h : Told a j k w (z.hardClear b i) t) : t.ctl = z.ctl ∧ t.mot = z.mot := by
  have haxes : t.axes = z.axes := h.axes.trans hardClear_axes
  exact ⟨ctl_of_axes haxes, (axis_of_axes haxes).1⟩

theorem Told.hist_of (h : Told a j k w z t) (hp : z.pow = s.pow) (hh : z.flt.hist = s.flt.hist) :
    s.pow.inReset = false → s.flt.hist.length < 32 → ∃ x ∈ t.flt.hist, x.code = 0x0108 ∧ x.w6 = BitVec.ofNat 16 k ∧ x.w7 = BitVec.ofNat 16 w :=
  fun hr hl => h.hist (hp ▸ hr) (hh ▸ hl)

theorem Told.learn_hist (h : Told a j k w (z.hardClear b i) t) (hp : z.pow = s.pow) (hf : z.flt = s.flt) :
    s.pow.inReset = false → s.flt.hist.length < 32 → ∃ x ∈ t.flt.hist, x.code = 0x0108 ∧ x.w6 = BitVec.ofNat 16 k ∧ x.w7 = BitVec.ofNat 16 w :=
  h.hist_of (hardClear_pow.trans hp) (hardClear_hist.trans (congrArg Faults.hist hf))

/-! ### The loops of an axis (R148, R151, R185) -/

@[simp] theorem setTrk_parts (k : Fin 4) (l : Learn) : ((s.setTrk n k l).ctl n).trk = (s.ctl n).trk.set k l ∧ (s.setTrk n k l).mot = s.mot ∧
    (s.setTrk n k l).pow = s.pow ∧ (s.setTrk n k l).flt = s.flt := by
  simp [State.setTrk]

@[simp] theorem setDet_parts (k : Fin 6) (l : Learn) : ((s.setDet n k l).ctl n).det = (s.ctl n).det.set k l ∧ (s.setDet n k l).mot = s.mot ∧
    (s.setDet n k l).pow = s.pow ∧ (s.setDet n k l).flt = s.flt := by
  simp [State.setDet]

@[simp] theorem setSbl_parts (k : Fin 16) (l : Learn) : ((s.setSbl n k l).ctl n).sbl = (s.ctl n).sbl.set k l ∧ (s.setSbl n k l).mot = s.mot ∧
    (s.setSbl n k l).pow = s.pow ∧ (s.setSbl n k l).flt = s.flt := by
  simp [State.setSbl]

/-- An entry of a table keeps its value when an entry takes that value. -/
theorem set_of_set {m : Nat} {v : Vector Learn m} {p q : Fin m} {l : Learn} (h : v[q] = l) : (v.set p l)[q] = l := by
  rw [Fin.getElem_fin, Vector.getElem_set]
  split
  · rfl
  · exact h

/-- The tracker starts again from RNOM and LNOM (R148, R153). -/
theorem trkSeed_parts : ((s.trkSeed n).ctl n).trk = #v[Learn.at (s.axr n AX.RNOM * 65536), Learn.at (s.axr n AX.RNOM * 65536),
      Learn.at (s.axr n AX.LNOM * 65536), Learn.at (s.axr n AX.LNOM * 65536)] ∧ (s.trkSeed n).mot = s.mot ∧ (s.trkSeed n).pow = s.pow ∧
    (s.trkSeed n).flt = s.flt := by
  refine ⟨?_, by simp [State.trkSeed], by simp [State.trkSeed], by simp [State.trkSeed]⟩
  ext i hi : 1
  interval_cases i <;> simp [State.trkSeed]

/-- The coefficients of the detent compensator start again from 0 (R151). -/
def State.detZeroed (s : State) (n : Fin 12) : State := overList (List.finRange 6) (fun s k => s.setDet n k (Learn.at 0)) s

theorem detZeroed_parts : (∀ i : Fin 6, ((s.detZeroed n).ctl n).det[i] = Learn.at 0) ∧ (s.detZeroed n).mot = s.mot ∧ (s.detZeroed n).pow = s.pow ∧
    (s.detZeroed n).flt = s.flt :=
  ⟨fun _ => overList_establishes (P := fun t (i : Fin 6) => (t.ctl n).det[i] = Learn.at 0) (fun _ _ => by simp)
    (fun _ _ _ h => by rw [(setDet_parts ..).1]; exact set_of_set h) (List.mem_finRange _),
    overList_const fun _ _ => by simp, overList_const fun _ _ => by simp, overList_const fun _ _ => by simp⟩

/-- The stall baselines start again from 0 (R185). -/
def State.sblZeroed (s : State) (n : Fin 12) : State := overList (List.finRange 16) (fun s k => s.setSbl n k (Learn.at 0)) s

theorem sblZeroed_parts : (∀ i : Fin 16, ((s.sblZeroed n).ctl n).sbl[i] = Learn.at 0) ∧ (s.sblZeroed n).mot = s.mot ∧ (s.sblZeroed n).pow = s.pow ∧
    (s.sblZeroed n).flt = s.flt :=
  ⟨fun _ => overList_establishes (P := fun t (i : Fin 16) => (t.ctl n).sbl[i] = Learn.at 0) (fun _ _ => by simp)
    (fun _ _ _ h => by rw [(setSbl_parts ..).1]; exact set_of_set h) (List.mem_finRange _),
    overList_const fun _ _ => by simp, overList_const fun _ _ => by simp, overList_const fun _ _ => by simp⟩

theorem trkDiverge_told (h : s.trkDiverged n = some k) :
    Told (axBase n + AX.ISTAT) 9 1 k ((s.trkSeed n).hardClear (axBase n + AX.ICFG) 8) (s.trkDiverge n) := by
  simp only [State.trkDiverge, h]
  exact flag_log_told_hi _ (by decide) (axReg_hi n (by decide))

theorem detDiverge_told (h : (s.ctl n).det.toList.findIdx? Learn.diverged = some k) :
    Told (axBase n + AX.ISTAT) 6 2 (2 ^ (k / 2)) ((s.detZeroed n).hardClear (axBase n + AX.ICFG) 10) (s.detDiverge n) := by
  simp only [State.detDiverge, h]
  exact flag_log_told_hi _ (by decide) (axReg_hi n (by decide))

theorem sblDiverge_told (h : (s.ctl n).sbl.toList.findIdx? Learn.diverged = some k) :
    Told (stlstat n) 11 3 k ((s.sblZeroed n).hardClear (axBase n + AX.STLCFG) 7) (s.sblDiverge n) := by
  simp only [State.sblDiverge, h]
  exact flag_log_told_hi _ (by decide) (axReg_hi n (by decide))

end

section
variable {s t : State} {u c : Nat}

/-! ### The loops of a unit (R204, R212) -/

theorem unit_onUnit (f : PwmUnit → PwmUnit) (hu : u < 48) : (s.onUnit u f).unit u = f (s.unit u) := by
  simp [State.unit, State.onUnit, hu, vupd]

/-- What the trimmer shows in PSTAT leaves every other register (R203, R204). -/
theorem dtShow_parts : (∀ c, (∀ v, c ≠ pstat v) → (s.dtShow u).val c = s.val c) ∧ (s.dtShow u).axes = s.axes ∧ (s.dtShow u).pow = s.pow ∧
    (s.dtShow u).flt = s.flt :=
  ⟨fun c hc => overList_const (g := fun t => t.val c) fun t v => by simp [State.val_setBit, hc v],
    overList_const fun _ _ => rfl, overList_const fun _ _ => rfl, overList_const fun _ _ => rfl⟩

/-- A register of a unit other than PSTAT is no PSTAT. -/
theorem unit_ne_pstat {o : Nat} (ho : o < 256) (hne : o ≠ PU.PSTAT) (v : Nat) : unitBase u + o ≠ pstat v := by
  by_cases h : v = u
  · subst h; exact offset_ne hne
  · exact (pstat_far h ho).symm

theorem unitReg_hi (u o : Nat) : 0x080000 ≤ unitBase u + o := by have := unitBase_hi u; omega

/-- The trimmer starts from one value, which its three registers show (R204). -/
theorem dtSeed_parts (v : Nat) : (s.dtSeed u v).val (unitBase u + PU.TE) = BitVec.ofNat 64 v ∧ (s.dtSeed u v).val (unitBase u + PU.DTR) = BitVec.ofNat 64 v ∧
    (s.dtSeed u v).val (unitBase u + PU.DTF) = BitVec.ofNat 64 v ∧ (s.dtSeed u v).axes = s.axes ∧ (s.dtSeed u v).pow = s.pow ∧ (s.dtSeed u v).flt = s.flt := by
  simp [State.dtSeed, State.val_wr, PU.TE, PU.DTR, PU.DTF]

/-- A unit whose trimmer starts again from DTNOM, with its learn bit cleared (R204). -/
def State.dtRestarted (s : State) (u : Nat) : State :=
  ((s.dtSeed u (s.rd (unitBase u + PU.DTNOM))).hardClear (unitBase u + PU.PCFG) 5).dtShow u

theorem dtRestarted_parts : (s.dtRestarted u).rd (unitBase u + PU.TE) = s.rd (unitBase u + PU.DTNOM) ∧
    (s.dtRestarted u).rd (unitBase u + PU.DTR) = s.rd (unitBase u + PU.DTNOM) ∧ (s.dtRestarted u).rd (unitBase u + PU.DTF) = s.rd (unitBase u + PU.DTNOM) ∧
    (s.dtRestarted u).bit (unitBase u + PU.PCFG) 5 = false ∧ (s.dtRestarted u).axes = s.axes ∧ (s.dtRestarted u).pow = s.pow ∧
    (s.dtRestarted u).flt.hist = s.flt.hist := by
  unfold State.dtRestarted
  generalize hv : s.rd (unitBase u + PU.DTNOM) = v
  have hread : BitVec.toNat (BitVec.ofNat 64 v) = v := by rw [← hv, State.rd, BitVec.ofNat_toNat, BitVec.setWidth_eq]
  obtain ⟨hte, hdtr, hdtf, haxes, hpow, hflt⟩ := dtSeed_parts (s := s) (u := u) v
  generalize s.dtSeed u v = z at hte hdtr hdtf haxes hpow hflt
  obtain ⟨hclear, -, hkeep⟩ := hardClear_reg (s := z) (b := unitBase u + PU.PCFG) (i := 5) (by decide)
  obtain ⟨hshow, haxes', hpow', hflt'⟩ := dtShow_parts (s := z.hardClear (unitBase u + PU.PCFG) 5) (u := u)
  have hval {o : Nat} (ho : o < 256) (hne : o ≠ PU.PSTAT) := hshow _ (unit_ne_pstat (u := u) ho hne)
  have hseed {o : Nat} (ho : o < 256) (hne : o ≠ PU.PSTAT) (hcfg : o ≠ PU.PCFG) (h : z.val (unitBase u + o) = BitVec.ofNat 64 v) :
      ((z.hardClear (unitBase u + PU.PCFG) 5).dtShow u).rd (unitBase u + o) = v :=
    (congrArg BitVec.toNat ((hval ho hne).trans ((hkeep _ (offset_ne hcfg)).trans h))).trans hread
  exact ⟨hseed (by decide) (by decide) (by decide) hte, hseed (by decide) (by decide) (by decide) hdtr, hseed (by decide) (by decide) (by decide) hdtf,
    (congrFun (val_bit (hval (by decide) (by decide))) 5).trans hclear, haxes'.trans haxes, hpow'.trans hpow,
    (congrArg Faults.hist hflt').trans (hardClear_hist.trans (congrArg Faults.hist hflt))⟩

theorem dtDiverge_told (h : s.dtDiverged u = true) : Told (pstat u) 13 4 u (s.dtRestarted u) (s.dtDiverge u) := by
  rw [State.dtDiverge, if_pos h]
  exact flag_log_told_hi _ (by decide) (pstat_hi u)

/-- A unit whose delay line starts again from code 512, out of use and frozen (R212). -/
def State.dllRestarted (s : State) (u : Nat) : State :=
  ((s.onUnit u (fun y => { y with dll := Learn.at (512 * 65536), dllOut := true })).wr (unitBase u + PU.DLLCODE) 512).setBit (unitBase u + PU.PCFG) 15 true

theorem dllRestarted_parts (hu : u < 48) : (s.dllRestarted u).rd (unitBase u + PU.DLLCODE) = 512 ∧ ((s.dllRestarted u).unit u).dllOut = true ∧
    (s.dllRestarted u).bit (unitBase u + PU.PCFG) 15 = true ∧ (s.dllRestarted u).axes = s.axes ∧ (s.dllRestarted u).pow = s.pow ∧
    (s.dllRestarted u).flt = s.flt := by
  refine ⟨?_, ?_, State.bit_setBit _ _ _ _ (by decide), by simp [State.dllRestarted], by simp [State.dllRestarted], by simp [State.dllRestarted]⟩
  · simp [State.dllRestarted, State.rd, State.val_setBit, State.val_wr, PU.DLLCODE, PU.PCFG]
  · exact congrArg PwmUnit.dllOut (unit_onUnit (s := s) _ hu)

theorem dllDiverge_told (h : (s.unit u).dll.diverged = true) : Told (pstat u) 12 5 u (s.dllRestarted u) (s.dllDiverge u) := by
  rw [State.dllDiverge, if_pos h]
  exact flag_log_told_hi _ (by decide) (pstat_hi u)

end

section
variable {s t : State} {c : Fin 101}

/-! ### The auto-zero of a comparator (R384) -/

theorem azA_hi (c : Nat) : 0x080000 ≤ azA c := by unfold azA cmpA; omega

/-- A comparator whose trim starts again from 0, with its learn bit cleared (R384). -/
def State.azRestarted (s : State) (c : Fin 101) : State :=
  (((s.setTrim c 0).hardClear (azA c) 15).setBit (azA c) 14 false).onCmps (fun k => { k with az := k.az.set c ⟨0, [], 0⟩ })

theorem azRestarted_parts : (s.azRestarted c).fld (azA c) 5 0 = 0 ∧ (s.azRestarted c).bit (azA c) 15 = false ∧ (s.azRestarted c).axes = s.axes ∧
    (s.azRestarted c).pow = s.pow ∧ (s.azRestarted c).flt.hist = s.flt.hist := by
  have hbit {i : Nat} (hi : i ≠ 14) : (s.azRestarted c).bit (azA c) i = ((s.setTrim c 0).hardClear (azA c) 15).bit (azA c) i :=
    State.bit_setBit_other _ _ _ _ _ _ (.inr hi)
  obtain ⟨hclear, hkeep, -⟩ := hardClear_reg (s := s.setTrim c 0) (b := azA c) (i := 15) (by decide)
  refine ⟨?_, (hbit (by decide)).trans hclear, rfl, rfl, rfl⟩
  calc (s.azRestarted c).fld (azA c) 5 0
      = (s.setTrim c 0).fld (azA c) 5 0 := fld_of_bits (by decide) fun i _ hi => (hbit (by omega)).trans (hkeep i (by omega))
    _ = 0 := State.fld_setFld _ _ (by decide) (by decide)

theorem azDiverge_told (h : s.azDiverged c = true) : Told (azA c) 12 6 c (s.azRestarted c) (s.azDiverge c) := by
  rw [State.azDiverge, if_neg (by simp [h])]
  exact flag_log_told_hi _ (by decide) (azA_hi c)

end

section
variable {s t : State} {p : Fin 2}

/-! ### The equaliser of a port (R419) -/

/-- The registers of a network port that the equaliser uses lie out of the log's reach. -/
theorem netp_outside : ∀ p : Fin 2, ∀ o ∈ [NETP.PSTAT, NETP.EQ, NETP.DFE1, NETP.DFE2], logReg (netpBase p + o) = false ∧ 0x200 ≤ netpBase p + o := by
  decide

/-- An equaliser that starts again from boost 8 and taps 0, with its learn bit cleared (R419). -/
def State.eqRestarted (s : State) (p : Fin 2) : State :=
  (((s.setEq p 8 0 0).hardClear (netpBase p + NETP.EQ) 15).onNp p (fun x => { x with runs := Vector.replicate 3 0, hist := [] })).setBit (npStat p) 8 false

theorem setEq_parts (x : Nat) (h1 h2 : Int) : (s.setEq p x h1 h2).fld (netpBase p + NETP.EQ) 11 8 = x % 16 ∧
    (s.setEq p x h1 h2).val (netpBase p + NETP.DFE1) = (BitVec.ofInt 16 h1).setWidth 64 ∧
    (s.setEq p x h1 h2).val (netpBase p + NETP.DFE2) = (BitVec.ofInt 16 h2).setWidth 64 := by
  refine ⟨?_, by simp [State.setEq, State.val_wrI, NETP.DFE1, NETP.DFE2], by simp [State.setEq, State.val_wrI]⟩
  have hval : (s.setEq p x h1 h2).val (netpBase p + NETP.EQ) = (s.setFld (netpBase p + NETP.EQ) 11 8 x).val (netpBase p + NETP.EQ) := by
    simp [State.setEq, State.val_wrI, NETP.EQ, NETP.DFE1, NETP.DFE2]
  exact (val_fld hval 11 8).trans (State.fld_setFld _ _ (by decide) (by decide))

theorem eqRestarted_parts : (s.eqRestarted p).fld (netpBase p + NETP.EQ) 11 8 = 8 ∧ (s.eqRestarted p).rd (netpBase p + NETP.DFE1) = 0 ∧
    (s.eqRestarted p).rd (netpBase p + NETP.DFE2) = 0 ∧ (s.eqRestarted p).bit (netpBase p + NETP.EQ) 15 = false ∧ (s.eqRestarted p).axes = s.axes ∧
    (s.eqRestarted p).pow = s.pow ∧ (s.eqRestarted p).flt.hist = s.flt.hist := by
  obtain ⟨hboost, htap1, htap2⟩ := setEq_parts (s := s) (p := p) 8 0 0
  obtain ⟨hclear, hkeep, hother⟩ := hardClear_reg (s := s.setEq p 8 0 0) (b := netpBase p + NETP.EQ) (i := 15) (by decide)
  have hval {o : Nat} (ho : o ≠ NETP.PSTAT) : (s.eqRestarted p).val (netpBase p + o) = ((s.setEq p 8 0 0).hardClear (netpBase p + NETP.EQ) 15).val (netpBase p + o) :=
    by simp [State.eqRestarted, State.val_setBit, npStat, ho]
  have heq := val_bit (hval (o := NETP.EQ) (by decide))
  have htap {o : Nat} (ho : o ≠ NETP.PSTAT) (hne : o ≠ NETP.EQ) (h : (s.setEq p 8 0 0).val (netpBase p + o) = (BitVec.ofInt 16 0).setWidth 64) :
      (s.eqRestarted p).rd (netpBase p + o) = 0 :=
    congrArg BitVec.toNat ((hval ho).trans ((hother _ (offset_ne hne)).trans h))
  refine ⟨?_, htap (by decide) (by decide) htap1, htap (by decide) (by decide) htap2, (congrFun heq 15).trans hclear,
    by simp [State.eqRestarted, State.setEq], by simp [State.eqRestarted, State.setEq], by simp [State.eqRestarted, State.setEq]⟩
  calc (s.eqRestarted p).fld (netpBase p + NETP.EQ) 11 8
      = (s.setEq p 8 0 0).fld (netpBase p + NETP.EQ) 11 8 := fld_of_bits (by decide) fun i _ hi => (congrFun heq i).trans (hkeep i (by omega))
    _ = 8 := hboost

theorem eqDiverge_told (h : s.eqDiverged p = true) : Told (npStat p) 6 7 p (s.eqRestarted p) (s.eqDiverge p) := by
  obtain ⟨hl, ha⟩ := netp_outside p NETP.PSTAT (by simp)
  rw [State.eqDiverge, if_pos h]
  exact flag_log_told _ (by decide) hl ha

end

/-- Settles O26: each divergence by the values that start again and by the flag and the event that tell it. -/
theorem divergences : Obligations.Divergences := by
  unfold Obligations.Divergences
  refine ⟨fun n s k ha hd => ?_, fun n s k ha hd => ?_, fun n s k ha hd => ?_, fun u s ha hd => ?_, fun u s ha hd => ?_, fun c s ha hd => ?_, fun p s ha hd => ?_⟩
  all_goals refine ⟨_, congrArg Host.Outcome.next (awake_of_not_asleep ha _), ?_⟩
  · have ht := trkDiverge_told hd
    obtain ⟨htrk, hmot, hpow, hflt⟩ := trkSeed_parts (s := s) (n := n)
    exact ⟨(congrArg Ctl.trk (congrFun ht.learn_axes.1 n)).trans htrk, ht.learn_off (by decide) (offset_ne (by decide)) (axReg_hi n (by decide)),
      ht.flag_set (by decide), congrFun (ht.learn_axes.2.trans hmot) n, ht.learn_hist hpow hflt⟩
  · have ht := detDiverge_told hd
    obtain ⟨hdet, hmot, hpow, hflt⟩ := detZeroed_parts (s := s) (n := n)
    exact ⟨fun i => by rw [ht.learn_axes.1]; exact hdet i,
      ht.learn_off (by decide) (offset_ne (by decide)) (axReg_hi n (by decide)), ht.flag_set (by decide), congrFun (ht.learn_axes.2.trans hmot) n,
      ht.learn_hist hpow hflt⟩
  · have ht := sblDiverge_told hd
    obtain ⟨hsbl, hmot, hpow, hflt⟩ := sblZeroed_parts (s := s) (n := n)
    exact ⟨fun i => by rw [ht.learn_axes.1]; exact hsbl i,
      ht.learn_off (by decide) (offset_ne (by decide)) (axReg_hi n (by decide)), ht.flag_set (by decide), congrFun (ht.learn_axes.2.trans hmot) n,
      ht.learn_hist hpow hflt⟩
  · have ht := dtDiverge_told hd
    obtain ⟨hte, hdtr, hdtf, hlearn, haxes, hpow, hhist⟩ := dtRestarted_parts (s := s) (u := u)
    have hval {o : Nat} (ho : o ≠ PU.PSTAT) := ht.val_hi (c := unitBase u + o) (offset_ne ho) (unitReg_hi u o)
    exact ⟨(val_rd (hval (by decide))).trans hte, (val_rd (hval (by decide))).trans hdtr, (val_rd (hval (by decide))).trans hdtf,
      (congrFun (val_bit (hval (by decide))) 5).trans hlearn, ht.flag_set (by decide), ht.axes.trans haxes, ht.hist_of hpow hhist⟩
  · have ht := dllDiverge_told hd
    obtain ⟨hcode, hout, hfreeze, haxes, hpow, hflt⟩ := dllRestarted_parts (s := s) u.isLt
    have hval {o : Nat} (ho : o ≠ PU.PSTAT) := ht.val_hi (c := unitBase u + o) (offset_ne ho) (unitReg_hi u o)
    exact ⟨(val_rd (hval (by decide))).trans hcode, (congrArg PwmUnit.dllOut (by rw [State.unit, ht.units, State.unit])).trans hout,
      (congrFun (val_bit (hval (by decide))) 15).trans hfreeze, ht.flag_set (by decide), ht.axes.trans haxes, ht.hist_of hpow (congrArg Faults.hist hflt)⟩
  · have ht := azDiverge_told hd
    obtain ⟨htrim, hlearn, haxes, hpow, hhist⟩ := azRestarted_parts (s := s) (c := c)
    exact ⟨(fld_of_bits (by decide) fun i _ hi => ht.other_bit (by omega)).trans htrim, (ht.other_bit (by decide)).trans hlearn, ht.flag_set (by decide),
      ht.axes.trans haxes, ht.hist_of hpow hhist⟩
  · have ht := eqDiverge_told hd
    obtain ⟨hboost, htap1, htap2, hlearn, haxes, hpow, hhist⟩ := eqRestarted_parts (s := s) (p := p)
    have hval {o : Nat} (ho : o ∈ [NETP.PSTAT, NETP.EQ, NETP.DFE1, NETP.DFE2]) (hne : o ≠ NETP.PSTAT) :=
      ht.val (netpBase p + o) (offset_ne hne) (netp_outside p o ho).1 (netp_outside p o ho).2
    have heq := hval (o := NETP.EQ) (by simp) (by decide)
    exact ⟨(val_fld heq 11 8).trans hboost, (val_rd (hval (by simp) (by decide))).trans htap1, (val_rd (hval (by simp) (by decide))).trans htap2,
      (congrFun (val_bit heq) 15).trans hlearn, ht.flag_set (by decide), ht.axes.trans haxes, ht.hist_of hpow hhist⟩

end Sys2Proof.Machine
end

section
/-! PROOF. The observer, its validity and its seeds, the sensor, the injection burst and the probe, and the settlement of O29. -/

namespace Sys2Proof.Machine

section
variable {s : State} {n : Fin 12}

/-! ### The observer (R164-R167) -/

theorem ostat_hi (n : Fin 12) : 0x080000 ≤ ostat n := axReg_hi n (by decide)

theorem tt_ne_zero (h : s.tpr ≠ 0) : s.tt ≠ 0 := by simp [State.tt, h]

/-- Without a burst to evaluate, task 1 is the observer alone (R178). -/
theorem injEval_idle (h : (s.ctl n).injT.isSome = true ∨ (s.ctl n).injI.length < 7) : s.injEval n = s := if_pos h

/-- One run of the observer moves the back-EMF by a quarter toward the residual, and speed and angle by the lock loop (R164). -/
theorem observer_moves (hrun : s.obsRuns n = true) (hv : (s.ctl n).vSkip = false) (ht : s.tpr ≠ 0) :
    let c := s.ctl n
    let back (e v i ip : Int) (w : Nat) : Rat :=
      fx e + (fx v - 512 * (s.rUse n w * s.amp n (fx i)) - 512 * (s.lUse n w * s.amp n (fx (i - ip)) / s.tt) - fx e) / 4
    let ea := back c.ea c.va c.ia c.iaPrev 0
    let eb := back c.eb c.vb c.ib c.ibPrev 1
    let mag := sqrtR (ea * ea + eb * eb)
    let th := angle16 20 (fx c.thMid)
    let sg : Rat := if c.wHat = 0 then sgn (s.mot n).snapVel.toInt else sgn c.wHat
    let eps := if mag = 0 then 0 else -(ea * cosT th + eb * sinT th) * sg / mag
    let bw : Rat := s.axu n AX.OBSBW
    let w := fx c.wHat + 2 * piR * bw * bw * s.tt * eps
    let thm := fx c.thMid + w * s.tt + 2 * bw * s.tt * eps
    ∃ pub l, s.observer n = s.onCtl n (fun c => { c with
      ea := q32 22 ea, eb := q32 22 eb, wHat := q32 22 w, thMid := q32 22 thm, thPub := pub, eps := q32 22 eps, emag := q32 22 mag, rep := c.rep ++ l }) := by
  intro c back ea eb mag th sg eps bw w thm
  have hgo : ¬ (!s.obsRuns n || (s.ctl n).vSkip || s.tt == 0) = true := by simp [hrun, hv, tt_ne_zero ht]
  exact ⟨_, _, if_neg hgo⟩

theorem obsValidate_valid (hrun : s.obsRuns n = true) (hn : s.axr n AX.OBSN ≤ (s.ctl n).obsRun) (hv : (s.ctl n).obsValid = false) :
    s.obsValidate n = (s.onCtl n (fun c => { c with obsValid := true })).setBit (ostat n) 11 true :=
  if_pos ⟨hrun, hn, by simp [hv]⟩

/-- An observer that has lost its lock, before what it asks for (R166). -/
def State.lockLost (s : State) (n : Fin 12) : State :=
  ((s.onCtl n (fun c => { c with obsValid := false, obsRun := 0, errRun := 0 })).setBit (ostat n) 11 false).flag (ostat n) 6

/-- At speed in the commanded frame the loss asks for a re-initialisation, and one that waits is not asked for again (R167). -/
theorem obsLockLost_lost (he : 4 ≤ (s.ctl n).errRun) (hv : (s.ctl n).obsValid = true) :
    s.obsLockLost n =
      if s.axr n AX.VOBS * 65536 ≤ (s.mot n).snapVel.toInt.natAbs ∧ (s.ctl n).frame = false ∧ (s.ctl n).reinit = none then
        ((s.lockLost n).onCtl n (fun c => { c with reinit := some 1, seedAge := 0 })).request n 0 900
      else s.lockLost n := by
  have hlost : ¬ ((s.ctl n).errRun < 4 ∨ (!(s.ctl n).obsValid) = true) := by simp [hv]; omega
  refine (if_neg hlost).trans ?_
  simp only [Bool.not_eq_true', Option.isNone_iff_eq_none, State.lockLost]

theorem lockLost_parts : ((s.lockLost n).ctl n).obsValid = false ∧ ((s.lockLost n).ctl n).errRun = 0 ∧
    ((s.lockLost n).ctl n).reinit = (s.ctl n).reinit ∧ (s.lockLost n).bit (ostat n) 6 = true ∧ (s.lockLost n).bit (ostat n) 11 = false := by
  refine ⟨by simp [State.lockLost], by simp [State.lockLost], by simp [State.lockLost], flag_bit_hi (by decide) (ostat_hi n), ?_⟩
  exact (flag_other_bit_hi (by decide) (by decide) (ostat_hi n)).trans (State.bit_setBit _ _ _ _ (by decide))

/-- A seed gives the angle and the speed, and leaves the validity (R167). -/
theorem obsSeed_ctl (th w : Rat) (zero : Bool) : ((s.obsSeed n th w zero).ctl n).thMid = q32 22 th ∧ ((s.obsSeed n th w zero).ctl n).wHat = q32 22 w ∧
    ((s.obsSeed n th w zero).ctl n).obsValid = (s.ctl n).obsValid := by
  simp [State.obsSeed]

/-- A re-initialisation that ends, from a state that has its seed (R167). -/
def State.reinitDone (s : State) (n : Fin 12) : State :=
  ((s.onCtl n (fun c => { c with reinit := none })).setBit (ostat n) 11 (s.ctl n).obsValid).flag (ostat n) 7

theorem reinitDone_parts : ((s.reinitDone n).ctl n) = { s.ctl n with reinit := none } ∧ (s.reinitDone n).bit (ostat n) 7 = true :=
  ⟨by simp [State.reinitDone], flag_bit_hi (by decide) (ostat_hi n)⟩

/-- From the kept seed: the angle that it has reached, and its speed (R167). -/
theorem obsReinit_kept (h : (s.ctl n).reinit = some 0) : ∃ th, s.obsReinit n =
    ((s.obsSeed n th (fx (s.ctl n).seed.2) false).onCtl n (fun c => { c with obsValid := true })).reinitDone n := by
  simp only [State.obsReinit, h]
  exact ⟨_, rfl⟩

/-- From the commanded angle less the baseline, and the commanded speed (R167). -/
theorem obsReinit_commanded {k : Nat} (h : (s.ctl n).reinit = some k) (hk : k ≠ 0) : s.obsReinit n =
    (s.obsSeed n ((s.cmdSeed n).1 - s.binBase n / 16384) (s.cmdSeed n).2 false).reinitDone n := by
  simp only [State.obsReinit, h, if_neg hk]
  rfl

/-! ### The sensor (R170, R173) -/

theorem align_aligns {raw : Nat} (hp : (s.ctl n).sPrev = some raw) (hcfg : s.axb n AX.OCFG 9 = true) (hnot : s.bit (ostat n) 9 = false)
    (hage : (s.ctl n).enAge = some (s.axr n AX.HOLDRAMP + 64)) (hs : s.st n = .hold) (hf : (s.ctl n).frame = false) (hm : s.sensMarked n = false) :
    s.align n = (s.wr (axBase n + AX.SOFS) ((4 * ((s.mot n).ipos % 16384) - s.axr n AX.SRATIO * s.sSign n * raw) % 65536).toNat).setBit (ostat n) 9 true := by
  simp only [State.align, hp]
  exact if_pos ⟨hcfg, by simp [hnot], hage, hs, by simp [hf], by simp [hm]⟩

/-- SOFS takes 16 bits, and OSTAT beside it. -/
theorem aligned_parts (x : Int) : let t := (s.wr (axBase n + AX.SOFS) (x % 65536).toNat).setBit (ostat n) 9 true
    t.bit (ostat n) 9 = true ∧ t.rd (axBase n + AX.SOFS) = (x % 65536).toNat ∧ t.axes = s.axes := by
  have hne : axBase n + AX.SOFS ≠ ostat n := offset_ne (by decide)
  have hval (u : State) : (u.setBit (ostat n) 9 true).val (axBase n + AX.SOFS) = u.val (axBase n + AX.SOFS) := (State.val_setBit ..).trans (if_neg hne)
  exact ⟨State.bit_setBit _ _ _ _ (by decide), (val_rd (hval _)).trans (State.rd_wr _ _ _ (by omega)), by simp⟩

/-- A sensor that is back is no longer lost, and it is selected from the commanded angle (R171, R173). -/
theorem sourceEdge_sensor (hl : (s.ctl n).sLost = true) (hv : s.bit (ostat n) 10 = true) (hg : s.axr n AX.SRECOV ≤ (s.ctl n).sGood)
    (hb : s.sensBack n = true) (hsrc : (s.ctl n).src = 0) (hpick : s.pickSource n = 1) :
    s.sourceEdge n = ((s.onCtl n (fun c => { c with sLost := false })).onCtl n
      (fun c => { c with src := 1, thLeft := ahead15 (s.lastOf n 0) })).setFld (ostat n) 13 12 1 := by
  have hrec : s.sensRecover n = s.onCtl n (fun c => { c with sLost := false }) := (if_pos ⟨hl, hv, hg⟩).trans (if_pos hb)
  simp [State.sourceEdge, hpick, hsrc, hrec, hv]

/-! ### The burst and the probe (R146, R177) -/

theorem burstStart_due (h : s.burstDue n = true) : s.burstStart n =
    (s.onCtl n (fun c => { c with injT := some 0, injWait := 0, injI := [], injTh := atan2 c.ib c.ia })).setBit (ostat n) 3 true := if_pos h

theorem probeStart_due (h : s.probeDue n = true) : s.probeStart n = (s.onCtl n (fun c => { c with probeReq := true, tLast := 0 })).request n 1 600 := if_pos h

end

/-- Settles O29: each row by the state that it leaves, the observer's run by its equation. -/
theorem observation : Obligations.Observation := by
  unfold Obligations.Observation
  intro n s ha
  have awake (f : State → State) : s.awake f = f s := awake_of_not_asleep ha f
  have work (hh : s.stage.halt = false) (f : State → State) : s.working f = f s := working_of_running ha hh f
  refine ⟨fun hh hrun hv ht hinj => ?_, fun hrun hn hv => ?_, fun he hv => ?_, fun k hh hk => ?_, fun raw hp hcfg hnot hage hs hf hm => ?_,
    fun hl hv hg hb hsrc hpick => ?_, fun hd => ?_, fun hd => ?_⟩
  · intro c back ea eb mag th sg eps bw w
    obtain ⟨pub, l, hmoves⟩ := observer_moves hrun hv ht
    have htask : s.task1 n = s.observer n := injEval_idle (by rw [hmoves, onCtl_ctl]; exact hinj)
    refine ⟨_, congrArg Host.Outcome.next ((work hh _).trans (htask.trans hmoves)), ?_⟩
    simp only [onCtl_ctl]
    exact ⟨rfl, rfl, rfl, rfl, rfl, rfl, rfl⟩
  · exact ⟨_, congrArg Host.Outcome.next ((awake _).trans (obsValidate_valid hrun hn hv)), by simp, State.bit_setBit _ _ _ _ (by decide), by simp⟩
  · refine ⟨_, congrArg Host.Outcome.next ((awake _).trans (obsLockLost_lost he hv)), ?_⟩
    obtain ⟨hvalid, herr, hre, hflag, hclear⟩ := lockLost_parts (s := s) (n := n)
    have hbit (f : Ctl → Ctl) (i : Nat) : (((s.lockLost n).onCtl n f).request n 0 900).bit (ostat n) i = (s.lockLost n).bit (ostat n) i := by simp [State.bit]
    split
    · rw [request_ctl, onCtl_ctl]
      dsimp only
      exact ⟨hvalid, herr, (hbit _ 6).trans hflag, (hbit _ 11).trans hclear, rfl⟩
    · exact ⟨hvalid, herr, hflag, hclear, hre⟩
  · by_cases hzero : k = 0
    · obtain ⟨th, hinit⟩ := obsReinit_kept (hk.trans (congrArg some hzero))
      refine ⟨_, congrArg Host.Outcome.next ((work hh _).trans hinit), ?_⟩
      obtain ⟨hctl, hflag⟩ := reinitDone_parts (s := (s.obsSeed n th (fx (s.ctl n).seed.2) false).onCtl n (fun c => { c with obsValid := true })) (n := n)
      obtain ⟨-, hspeed, -⟩ := obsSeed_ctl (s := s) (n := n) th (fx (s.ctl n).seed.2) false
      rw [hctl, onCtl_ctl]
      exact ⟨rfl, hflag, fun _ => ⟨rfl, hspeed⟩, fun hne => absurd hzero hne⟩
    · refine ⟨_, congrArg Host.Outcome.next ((work hh _).trans (obsReinit_commanded hk hzero)), ?_⟩
      obtain ⟨hctl, hflag⟩ := reinitDone_parts (s := s.obsSeed n ((s.cmdSeed n).1 - s.binBase n / 16384) (s.cmdSeed n).2 false) (n := n)
      obtain ⟨hangle, hspeed, hvalid⟩ := obsSeed_ctl (s := s) (n := n) ((s.cmdSeed n).1 - s.binBase n / 16384) (s.cmdSeed n).2 false
      rw [hctl]
      exact ⟨rfl, hflag, fun h0 => absurd h0 hzero, fun _ => ⟨hvalid, hspeed, hangle⟩⟩
  · obtain ⟨hflag, hofs, haxes⟩ := aligned_parts (s := s) (n := n) (4 * ((s.mot n).ipos % 16384) - s.axr n AX.SRATIO * s.sSign n * raw)
    exact ⟨_, congrArg Host.Outcome.next ((awake _).trans (align_aligns hp hcfg hnot hage hs hf hm)), hflag, hofs, haxes⟩
  · exact ⟨_, congrArg Host.Outcome.next ((awake _).trans (sourceEdge_sensor hl hv hg hb hsrc hpick)), by simp, by simp,
      State.fld_setFld _ _ (by decide) (by decide), by simp⟩
  · exact ⟨_, congrArg Host.Outcome.next ((awake _).trans (burstStart_due hd)), by simp, by simp, by simp, State.bit_setBit _ _ _ _ (by decide), by simp⟩
  · exact ⟨_, congrArg Host.Outcome.next ((awake _).trans (probeStart_due hd)), by simp, by simp, rfl, by simp, rfl⟩

end Sys2Proof.Machine
end

section
/-! PROOF. The stall monitor, a stall that is raised, the yield model and the demodulation of a port, and the settlement of O27. -/

namespace Sys2Proof.Machine

section
variable {s : State} {n : Fin 12} {b k : Nat}

/-! ### Fields of a register, and the yield mode of an axis after an update -/

/-- A field hi:lo that is replaced leaves what stands above it. -/
theorem fld_replaced_div {v y hi lo : Nat} (hy : y < 2 ^ (hi - lo + 1)) (hlo : lo ≤ hi) :
    (v - v / 2 ^ lo % 2 ^ (hi - lo + 1) * 2 ^ lo + y * 2 ^ lo) / 2 ^ (hi + 1) = v / 2 ^ (hi + 1) := by
  rw [show 2 ^ (hi + 1) = 2 ^ lo * 2 ^ (hi - lo + 1) by rw [← pow_add]; congr 1; omega]
  have hp : 0 < 2 ^ lo := Nat.two_pow_pos lo
  generalize 2 ^ lo = p at hp ⊢
  generalize 2 ^ (hi - lo + 1) = m at hy ⊢
  have hsplit : v = v / p * p + v % p := (Nat.div_add_mod' v p).symm
  have hfit : v / p % m * p ≤ v / p * p := Nat.mul_le_mul_right p (Nat.mod_le _ _)
  have hnew : v - v / p % m * p + y * p = v % p + p * (v / p - v / p % m + y) := by
    rw [Nat.mul_comm p, Nat.add_mul, Nat.sub_mul]
    omega
  have hfield : v / p - v / p % m = m * (v / p / m) := by
    have := Nat.div_add_mod (v / p) m
    omega
  rw [hnew, ← Nat.div_div_eq_div_mul, Nat.add_mul_div_left _ _ hp, Nat.div_eq_of_lt (Nat.mod_lt _ hp), Nat.zero_add, hfield,
    Nat.mul_add_div (by omega), Nat.div_eq_of_lt hy, Nat.add_zero, Nat.div_div_eq_div_mul]

/-- A field that is written leaves the bits above it. -/
theorem State.bit_setFld_above (s : State) (b x : Nat) {hi lo i : Nat} (hlo : lo ≤ hi) (h64 : hi < 64) (h : hi < i) :
    (s.setFld b hi lo x).bit b i = s.bit b i := by
  have hquot : (s.setFld b hi lo x).rd b / 2 ^ (hi + 1) = s.rd b / 2 ^ (hi + 1) := by
    have hv : s.rd b < 2 ^ (hi + 1) * 2 ^ (63 - hi) := by
      rw [← pow_add, show hi + 1 + (63 - hi) = 64 by omega]
      exact (s.val b).isLt
    rw [s.rd_setFld _ _ _ _ h64, show 2 ^ 64 = 2 ^ (hi + 1) * 2 ^ (63 - hi) by rw [← pow_add]; congr 1; omega, Nat.mod_mul_right_div_self,
      fld_replaced_div (Nat.mod_lt _ (Nat.two_pow_pos _)) hlo, Nat.mod_eq_of_lt (Nat.div_lt_of_lt_mul hv)]
  have hbit (t : State) : t.bit b i = (t.rd b / 2 ^ (hi + 1)).testBit (i - (hi + 1)) := by
    rw [Nat.testBit_div_two_pow, Nat.sub_add_cancel h]
    rfl
  rw [hbit, hbit, hquot]

@[simp] theorem onPpl_ppl (f : People → People) : (s.onPpl n f).ppl n = f (s.ppl n) := congrArg Axis.ppl (vupd_same ..)

@[simp] theorem wrI_ppl (w : Nat) (v : Int) : (s.wrI w b v).ppl = s.ppl := rfl
@[simp] theorem setBit_ppl (i : Nat) (x : Bool) : (s.setBit b i x).ppl = s.ppl := rfl

/-! ### The stall monitor (R180-R182) -/

theorem unobsEdge_axes : (s.unobsEdge n).axes = s.axes := by
  unfold State.unobsEdge
  extract_lets was
  split <;> split <;> simp

/-- A run of the monitor over an energised axis: the edges of observability, the criteria, and the baseline tracker. -/
theorem task2_monitored (hrun : s.stallRuns n = true) (he : s.energised n = true) : s.task2 n = ((s.unobsEdge n).stallEval n).sblStep n := by
  obtain ⟨⟨hact, hopt⟩, -⟩ : (s.img.active = true ∧ s.opt n 1 = true) ∧ s.axub n AX.STLCFG 4 = true := by simpa [State.stallRuns] using hrun
  simp [State.task2, hact, hopt, he, hrun]

/-- The criteria of an edge in their list. -/
theorem criteria_getD (i : Fin 4) : ((List.range 4).map (s.criterion n)).getD i none = s.criterion n i := by
  simp [List.getD_eq_getElem?_getD]

/-- Each criterion counts its evaluations in a row. -/
theorem stallEval_counts (i : Fin 4) : ((s.stallEval n).ctl n).crit[i] = critCount (s.ctl n).crit[i] (s.criterion n i) := by
  simp only [State.stallEval, onCtl_ctl, criteria_getD]
  exact Vector.getElem_ofFn _

@[simp] theorem stallEval_mot : (s.stallEval n).mot = s.mot := by simp [State.stallEval]

/-- While a stall stands, none is due (R181). -/
theorem stallEval_standing (h : (s.ctl n).quiet.isSome = true) : ((s.stallEval n).ctl n).stallDue = none := by
  simp [State.stallEval, h]

/-- With no stall standing, the first criterion that holds with STLN counts is due (R180). -/
theorem stallEval_first (h : (s.ctl n).quiet = none) (i : Fin 4)
    (hbefore : ∀ j < i, ¬ (s.fldu (axBase n + AX.STLCFG) 11 8 ≤ critCount (s.ctl n).crit[j] (s.criterion n j) ∧ s.criterion n j = some true))
    (hcount : s.fldu (axBase n + AX.STLCFG) 11 8 ≤ critCount (s.ctl n).crit[i] (s.criterion n i)) (hnow : s.criterion n i = some true) :
    ((s.stallEval n).ctl n).stallDue = some (i.val + 1) := by
  simp only [State.stallEval, onCtl_ctl, h, Option.isSome_none, Bool.false_eq_true, if_false, criteria_getD]
  rw [← Fin.find?_eq_find?_finRange, Fin.find?_eq_some_iff.mpr ⟨by simpa using ⟨hcount, hnow⟩, fun j hj => by simpa using hbefore j hj⟩, Option.map_some]

/-- The baseline tracker leaves the criteria and the stall that is due. -/
theorem sblStep_kept : ((s.sblStep n).ctl n).crit = (s.ctl n).crit ∧ ((s.sblStep n).ctl n).stallDue = (s.ctl n).stallDue ∧ (s.sblStep n).mot = s.mot := by
  unfold State.sblStep State.stepSbl
  extract_lets c k fr s1 l s2
  simp only [setBit_ctl, setBit_axis]
  simp only [s2]
  split <;> simp [s1]

/-! ### A stall (R181) -/

theorem stlstat_hi (n : Fin 12) : 0x080000 ≤ stlstat n := axReg_hi n (by decide)

/-- A stall by criterion `k` in the control state and in STLSTAT, before it is counted and logged (R181). -/
def State.stallMarked (s : State) (n : Fin 12) (k : Nat) : State :=
  let s1 := (s.onCtl n (fun c => { c with stallDue := none, quiet := some 0, crit := Vector.replicate 4 0 })).flag (stlstat n) 15
  (if (s.ctl n).frame then s1 else s1.flag (stlstat n) 14).setFld (stlstat n) 10 8 k

theorem stallMarked_parts : ((s.stallMarked n k).ctl n).stallDue = none ∧ ((s.stallMarked n k).ctl n).quiet = some 0 ∧
    ((s.stallMarked n k).ctl n).crit = Vector.replicate 4 0 ∧ (s.stallMarked n k).mot = s.mot ∧ (s.stallMarked n k).pow = s.pow ∧
    (s.stallMarked n k).flt.hist = s.flt.hist := by
  unfold State.stallMarked
  extract_lets s1
  split <;> simp [s1, flag_hist]

theorem stallMarked_flags (hk : k < 8) : (s.stallMarked n k).bit (stlstat n) 15 = true ∧
    ((s.ctl n).frame = false → (s.stallMarked n k).bit (stlstat n) 14 = true) ∧ (s.stallMarked n k).fld (stlstat n) 10 8 = k := by
  unfold State.stallMarked
  extract_lets s1
  have hset : s1.bit (stlstat n) 15 = true := flag_bit_hi (by decide) (stlstat_hi n)
  have hkeep (t : State) {i : Nat} (hi : 10 < i) : (t.setFld (stlstat n) 10 8 k).bit (stlstat n) i = t.bit (stlstat n) i :=
    t.bit_setFld_above _ _ (by decide) (by decide) hi
  refine ⟨(hkeep _ (by decide)).trans ?_, fun hf => (hkeep _ (by decide)).trans ?_, (State.fld_setFld _ _ (by decide) (by decide)).trans (Nat.mod_eq_of_lt hk)⟩
  · split
    · exact hset
    · exact (flag_other_bit_hi (by decide) (by decide) (stlstat_hi n)).trans hset
  · rw [if_neg (by simp [hf])]
    exact flag_bit_hi (by decide) (stlstat_hi n)

/-- Outside a homing search by stall, a stall that is due is marked, counted and logged (R181). -/
theorem stallHit_raises (h : ¬ (s.st n = .homing ∧ (s.hom n).m = 5 ∧ (s.hom n).mode = .search)) (hd : (s.ctl n).stallDue = some k) :
    s.stallHit n = (((s.stallMarked n k).bump (axBase n + AX.STLCNT)).life 10).log 0x0101 k (BitVec.ofInt 16 (s.ctl n).lang).toNat (.axis n) := by
  refine (if_neg h).trans ?_
  simp only [State.stallRaise, hd]
  rfl

/-- Counting and logging a stall leaves STLSTAT and the axes, and enters the event (R181). -/
theorem stall_counted (w : Nat) : let t := ((s.bump (axBase n + AX.STLCNT)).life 10).log 0x0101 k w (.axis n)
    t.val (stlstat n) = s.val (stlstat n) ∧ t.axes = s.axes ∧
    (s.pow.inReset = false → s.flt.hist.length < 32 → ∃ x ∈ t.flt.hist, x.code = 0x0101 ∧ x.w6 = BitVec.ofNat 16 k) := by
  refine ⟨?_, by simp, fun hr hl => ?_⟩
  · rw [log_hi _ (stlstat_hi n), life_hi _ (by decide) (stlstat_hi n)]
    exact State.val_bump_other _ _ _ _ (offset_ne (by decide))
  · obtain ⟨x, hx, hcode, hdetail, -⟩ := log_hist (s := (s.bump (axBase n + AX.STLCNT)).life 10) (c := 0x0101) (d1 := k) (d2 := w) (bd := .axis n)
      (by simpa using hr) (by simpa [life_hist] using hl)
    exact ⟨x, hx, hcode, hdetail⟩

/-! ### The yield model (R396-R399) -/

/-- The velocity that the model starts from: that of the axis where a limit has held it (R396, R400). -/
def State.yieldFrom (s : State) (n : Fin 12) : Rat := if (s.ppl n).held then (s.mot n).snapVel.toInt else fx (s.ppl n).v

/-- The velocity of the model moves toward its limited target through its lag, by the step at most (R396, R397). -/
theorem yieldStep_moves (vt step : Rat) (lag : Nat) :
    ((s.yieldStep n vt step lag).ppl n).v = q32 80 (s.yieldFrom n + clampR (((s.limitToward n vt).1 - s.yieldFrom n) / lag) (-step) step) ∧
    ((s.yieldStep n vt step lag).ppl n).flast = (s.ppl n).flast ∧ ((s.yieldStep n vt step lag).ppl n).miss = (s.ppl n).miss ∧
    (s.yieldStep n vt step lag).mot = s.mot := by
  simp [State.yieldStep, State.yieldFrom]

/-- The force of a tick: the input with its sign, less the bias (R396). -/
def State.yieldForce (s : State) (n : Fin 12) : Int := (if s.axub n AX.YCFG 10 then -s.yieldSrc n else s.yieldSrc n) - s.axu16 n AX.YBIAS

/-- A tick with a valid input takes it: kept, the missed ones forgotten, and the force shown in YIN (R396, R398). -/
def State.yieldTaken (s : State) (n : Fin 12) : State :=
  (s.onPpl n (fun q => { q with flast := s.yieldSrc n, miss := 0 })).wrI 16 (axBase n + AX.YIN) (satI 16 (s.yieldForce n))

/-- The target of the model before the limits: the force beyond the dead band by the gain, at most YVMAX (R396). -/
def State.yieldTarget (s : State) (n : Fin 12) : Int :=
  let top : Int := s.axu n AX.YVMAX * 65536
  clampI (sgn (s.yieldForce n) * max (((s.yieldForce n).natAbs : Int) - s.axu n AX.YDEAD) 0 * s.axu n AX.YGAIN * 16) (-top) top

theorem yieldTaken_parts : (s.yieldTaken n).yieldFrom n = s.yieldFrom n ∧ ((s.yieldTaken n).ppl n).flast = s.yieldSrc n ∧
    ((s.yieldTaken n).ppl n).miss = 0 ∧ (s.yieldTaken n).mot = s.mot ∧ (s.yieldTaken n).bit (ystat n) 15 = s.bit (ystat n) 15 := by
  refine ⟨by simp [State.yieldTaken, State.yieldFrom], by simp [State.yieldTaken], by simp [State.yieldTaken], by simp [State.yieldTaken], ?_⟩
  exact congrFun (val_bit ((State.val_wrI ..).trans (if_neg (offset_ne (by decide))))) 15

/-- During an exit the model comes to rest with DMAX (R399). -/
theorem yieldModel_exiting (hs : s.st n = .yield) (hx : s.bit (ystat n) 15 = true) :
    s.yieldModel n = s.yieldStep n 0 ((s.axr n AX.DMAX : Rat) * s.tpr / 2 ^ 24) 1 :=
  (if_neg (by simp [hs])).trans (if_pos hx)

/-- A valid input forces the exit where its force is over YFMAX, and moves the model toward its target otherwise (R396, R398). -/
theorem yieldModel_valid (hs : s.st n = .yield) (hx : s.bit (ystat n) 15 = false) (hv : s.yieldValid n = true) :
    s.yieldModel n = if (s.axu n AX.YFMAX : Int) < (s.yieldForce n).natAbs then (s.yieldTaken n).forceExit n 2 else
      (s.yieldTaken n).yieldStep n (s.yieldTarget n) ((s.axu n AX.YAMAX : Rat) * s.tpr / 2 ^ 24) (2 ^ s.fldu (axBase n + AX.YCFG) 15 12) := by
  have hyields : ¬ s.st n ≠ .yield := by simp [hs]
  have hstays : ¬ s.bit (ystat n) 15 = true := by simp [hx]
  rw [State.yieldModel, if_neg hyields, if_neg hstays]
  simp only [hv, Bool.not_true, Bool.false_eq_true, false_and, if_false, if_true]
  rfl

/-- A forced exit begins the exit and gives its cause (R398). -/
theorem forceExit_begins {cause : Nat} (hs : s.st n = .yield) (hx : s.bit (ystat n) 15 = false) :
    (s.forceExit n cause).bit (ystat n) 15 = true ∧ (s.forceExit n cause).fld (ystat n) 11 8 = cause % 16 ∧ (s.forceExit n cause).mot = s.mot := by
  have hgo : ¬ (s.bit (ystat n) 15 ∨ s.st n ≠ .yield) := by simp [hs, hx]
  rw [State.forceExit, if_neg hgo]
  refine ⟨State.bit_setBit _ _ _ _ (by decide), ?_, by simp⟩
  exact (fld_of_bits (by decide) fun i _ hi => State.bit_setBit_other _ _ _ _ _ _ (.inr (by omega))).trans (State.fld_setFld _ _ (by decide) (by decide))

/-! ### Demodulation (R300) -/

/-- The fit of two channels over their samples (R300). -/
def fitOf (phase : Nat) (sin cos : List (Int × Nat)) : Fit :=
  let a := fitChannel phase sin
  let b := fitChannel phase cos
  ⟨q32 60 a.1, q32 60 b.1, q32 60 a.2.1, q32 60 b.2.1, q32 60 a.2.2.1, q32 60 b.2.2.1, a.2.2.2.1, b.2.2.2.1, clamped sin || clamped cos, a.2.2.2.2 || b.2.2.2.2⟩

/-- A selected window is fitted over the samples of its two channels (R300). -/
theorem demodulate_fits {p : Fin 8} {j : Nat} (hh : s.stage.halt = false) (hj : (s.ports[p]).sel = some j) :
    s.demodulate p = s.onPort p (fun t => { t with fit := some (fitOf (s.rdu (prtBase p + PRT.PHASE)) (s.window p j false) (s.window p j true)) }) := by
  simp only [State.demodulate, hj]
  exact if_neg (by simp [hh])

end

/-- Settles O27: each run by its equation, and by what the operations that it is made of leave. The rounding to 2^-32 and the sine are the
model's readings (log 12, log 13). -/
theorem stallYieldDemod : Obligations.StallYieldDemod := by
  unfold Obligations.StallYieldDemod
  intro n s ha
  have work (hh : s.stage.halt = false) (f : State → State) : s.working f = f s := working_of_running ha hh f
  refine ⟨fun hh hrun he => ?_, fun k hno hd hk => ?_, fun hh hs => ?_, fun p j hh hj => ?_⟩
  · intro u now cnt stln
    obtain ⟨hcrit, hdue, hmot⟩ := sblStep_kept (s := u.stallEval n) (n := n)
    have hu : u.ctl n = s.ctl n := congrFun (ctl_of_axes unobsEdge_axes) n
    refine ⟨_, congrArg Host.Outcome.next ((work hh _).trans (task2_monitored hrun he)), fun i => by rw [hcrit, stallEval_counts, hu],
      fun hq => hdue.trans (stallEval_standing (hu ▸ hq)), fun hq i hbefore hcount hnow => ?_,
      congrFun (hmot.trans (stallEval_mot.trans (axis_of_axes unobsEdge_axes).1)) n⟩
    refine hdue.trans (stallEval_first (hu ▸ hq) i ?_ ?_ hnow)
    · simpa only [hu] using hbefore
    · simpa only [hu] using hcount
  · obtain ⟨hdue, hquiet, hcrit, hmot, hpow, hhist⟩ := stallMarked_parts (s := s) (n := n) (k := k)
    obtain ⟨hstall, hloss, hfld⟩ := stallMarked_flags (s := s) (n := n) hk
    obtain ⟨hval, haxes, hevent⟩ := stall_counted (s := s.stallMarked n k) (n := n) (k := k) (BitVec.ofInt 16 (s.ctl n).lang).toNat
    refine ⟨_, congrArg Host.Outcome.next ((awake_of_not_asleep ha _).trans (stallHit_raises hno hd)), ?_⟩
    rw [ctl_of_axes haxes, val_bit hval, val_fld hval, (axis_of_axes haxes).1, hmot]
    exact ⟨hstall, hloss, hfld, hdue, hquiet, hcrit, rfl, fun hr hl => hevent (by rwa [hpow]) (by rwa [hhist])⟩
  · intro v0 f u top want most lag
    refine ⟨fun hx => ?_, fun hx hv => ?_⟩
    · obtain ⟨hmoves, -, -, hmot⟩ := yieldStep_moves (s := s) (n := n) 0 ((s.axr n AX.DMAX : Rat) * s.tpr / 2 ^ 24) 1
      exact ⟨_, congrArg Host.Outcome.next ((work hh _).trans (yieldModel_exiting hs hx)), by rw [hmoves, Nat.cast_one]; rfl, congrFun hmot n⟩
    · obtain ⟨hfrom, hlast, hmiss, hmot, hbit⟩ := yieldTaken_parts (s := s) (n := n)
      refine ⟨fun hf => ?_, fun hf => ?_⟩
      · obtain ⟨hmoves, hlast', hmiss', hmot'⟩ := yieldStep_moves (s := s.yieldTaken n) (n := n) want most lag
        exact ⟨_, congrArg Host.Outcome.next ((work hh _).trans ((yieldModel_valid hs hx hv).trans (if_neg (not_lt.mpr (Int.ofNat_le.mpr hf))))),
          hmoves.trans (by rw [hfrom]; rfl), hlast'.trans hlast, hmiss'.trans hmiss, congrFun (hmot'.trans hmot) n⟩
      · obtain ⟨hexit, hcause, hmot'⟩ := forceExit_begins (s := s.yieldTaken n) (n := n) (cause := 2) (by rw [State.st, hmot]; exact hs) (hbit.trans hx)
        exact ⟨_, congrArg Host.Outcome.next ((work hh _).trans ((yieldModel_valid hs hx hv).trans (if_pos (Int.ofNat_lt.mpr hf)))), hexit, hcause,
          congrFun (hmot'.trans hmot) n⟩
  · intro a b
    exact ⟨_, congrArg Host.Outcome.next ((work hh _).trans (demodulate_fits hh hj)), rfl, congrArg Port.fit (vupd_same ..)⟩

end Sys2Proof.Machine
end

section
/-! PROOF. The trips of legs and gate-driver channels by a comparator, and the settlement of O30. -/

namespace Sys2Proof.Machine

/-- `t` is `s` after a trip of unit `u` by a comparator: source `k` has latched the pair, OCCNT has counted, and a latch that was clear has
logged 0x0201 with detail `why` (R217, R226, R227, R244). -/
structure OverTripped (u k why : Nat) (s t : State) : Prop where
  uf : UF s t
  tripped : ∀ v ∈ s.pairOf u, Tripped t v k
  count : t.rd (unitBase u + PU.OCCNT) = min 0xFFFF (s.rd (unitBase u + PU.OCCNT) + 1)
  logged : s.bit (pstat u) 15 = false → s.pow.inReset = false → s.flt.hist.length < 32 → ∃ x ∈ t.flt.hist, x.code = 0x0201 ∧ x.w7 = BitVec.ofNat 16 why

section
variable {s : State} {u v c k why : Nat} {x : Excess}

/-! ### A trip by a comparator (R217, R226, R244) -/

/-- A trip whose latch was clear counts in the lifetime counters and is logged (R244, R494). -/
theorem overTrip_of_clear (h : s.bit (pstat u) 15 = false) :
    s.overTrip u k why = (((s.bump (unitBase u + PU.OCCNT)).latch u k).life 7).log 0x0201 (s.eventUnit u) why (s.unitBind u) :=
  if_neg (by simp [h])

/-- A trip whose latch was set is not logged again (R244). -/
theorem overTrip_of_set (h : s.bit (pstat u) 15 = true) : s.overTrip u k why = (s.bump (unitBase u + PU.OCCNT)).latch u k := if_pos h

/-- The log of a trip is out of reach of the units' registers. -/
theorem overTrip_hi (hc : 0x080000 ≤ c) : (s.overTrip u k why).val c = ((s.bump (unitBase u + PU.OCCNT)).latch u k).val c := by
  cases h : s.bit (pstat u) 15 with
  | true => rw [overTrip_of_set h]
  | false => rw [overTrip_of_clear h, log_hi _ hc, life_hi _ (by decide) hc]

theorem overTrip_uf : UF s (s.overTrip u k why) := by
  have hlatch : UF s ((s.bump (unitBase u + PU.OCCNT)).latch u k) := .trans (t := s.bump _) ⟨rfl⟩ (latch_uf ..)
  cases h : s.bit (pstat u) 15 with
  | true => exact overTrip_of_set h ▸ hlatch
  | false => exact overTrip_of_clear h ▸ hlatch.trans ((life_rf ..).trans (log_rf ..)).uf

/-- A count that stops at 0xFFFF reads back. -/
theorem rd_bump : (s.bump c).rd c = min 0xFFFF (s.rd c + 1) := State.rd_wr _ _ _ (by omega)

theorem overTrip_overTripped (hk : k < 64) : OverTripped u k why s (s.overTrip u k why) where
  uf := overTrip_uf
  tripped v hv := (latch_tripped (s.bump (unitBase u + PU.OCCNT)) hk hv).rf _ fun _ hc => overTrip_hi hc
  count := by
    have hlatch : ((s.bump (unitBase u + PU.OCCNT)).latch u k).val (unitBase u + PU.OCCNT) = (s.bump (unitBase u + PU.OCCNT)).val (unitBase u + PU.OCCNT) :=
      latch_other _ _ (by decide) (by decide) (by decide) (by decide)
    exact (val_rd ((overTrip_hi (unitReg_hi u _)).trans hlatch)).trans rd_bump
  logged hclear hr hroom := by
    have hpow : ((s.bump (unitBase u + PU.OCCNT)).latch u k).pow = s.pow := by rw [(latch_uf ..).rest]; rfl
    obtain ⟨x, hx, hcode, -, hwhy⟩ := log_hist (s := ((s.bump (unitBase u + PU.OCCNT)).latch u k).life 7) (c := 0x0201) (d1 := s.eventUnit u)
      (d2 := why) (bd := s.unitBind u) (by simpa [hpow] using hr) (by simpa [life_hist, latch_hist] using hroom)
    exact ⟨x, overTrip_of_clear hclear ▸ hx, hcode, hwhy⟩

/-- The latch, its source and the output of each unit of the pair, as the registers show them. -/
theorem OverTripped.shown {t : State} (h : OverTripped u k why s t) :
    ∀ v ∈ s.pairOf u, t.bit (pstat v) 15 = true ∧ t.bit (unitBase v + PU.LSTAT) k = true ∧ t.fld (pstat v) 5 4 = 1 :=
  fun v hv => ⟨(h.tripped v hv).trip, (h.tripped v hv).src, (h.tripped v hv).out⟩

/-! ### The comparators that trip (R227, R228, R234) -/

/-- An excess over OCTHR, qualified while a switch is on, trips the leg with source oc (R227). -/
theorem legOvercurrent_of_qualified (hon : ((s.gates u).1 || (s.gates u).2) = true)
    (habove : 125 * s.rd (unitBase (s.leadOf u) + PU.OCTHR) < 2 * x.level) (hq : s.qualified u x = true) :
    s.legOvercurrent u x = (s.setAbove u true).overTrip u 0 0 := by
  have hfires : (((s.gates u).1 || (s.gates u).2) && true && s.qualified u x) = true := by rw [hon, hq]; rfl
  rw [State.legOvercurrent, decide_eq_true habove]
  exact if_pos hfires

/-- An excess over VDSTHR, qualified while the low side is on, trips the channel with source vds (R234). -/
theorem vdsTrip_of_qualified {g : Nat} (hon : (s.gates (40 + g)).2 = true) (habove : 25 * s.rd (unitBase (40 + g) + PU.VDSTHR) < x.level)
    (hq : s.qualified (40 + g) x = true) : s.vdsTrip g x = (s.setAbove (40 + g) true).overTrip (40 + g) 1 2 := by
  rw [State.vdsTrip, decide_eq_true habove]
  exact if_pos (by simp [hon, hq])

/-- LSTAT.hard leaves a latch and its source oc. -/
theorem Tripped.setHard (h : Tripped s v 0) : Tripped (s.setBit (unitBase u + PU.LSTAT) 7 true) v 0 := by
  have hp : (s.setBit (unitBase u + PU.LSTAT) 7 true).val (pstat v) = s.val (pstat v) :=
    (State.val_setBit ..).trans (if_neg (unit_ne_pstat (by decide) (by decide) v).symm)
  exact ⟨(congrFun (val_bit hp) 15).trans h.trip, (State.bit_setBit_other _ _ _ _ _ _ (.inr (by decide))).trans h.src, (val_fld hp 5 4).trans h.out⟩

/-- A hard limit trips the leg with source oc and sets LSTAT.hard (R228). -/
theorem hardLimit_overTripped : OverTripped u 0 1 (s.onStage fun g => { g with hard := putAt g.hard u true }) (s.hardLimit u true) ∧
    (s.hardLimit u true).bit (unitBase u + PU.LSTAT) 7 = true := by
  have h := overTrip_overTripped (s := s.onStage fun g => { g with hard := putAt g.hard u true }) (u := u) (k := 0) (why := 1) (by decide)
  refine ⟨⟨h.uf.trans ⟨rfl⟩, fun v hv => (h.tripped v hv).setHard, ?_, h.logged⟩, State.bit_setBit _ _ _ _ (by decide)⟩
  exact (val_rd ((State.val_setBit ..).trans (if_neg (offset_ne (by decide))))).trans h.count

end

/-- Settles O30: the two comparators and the hard limit each make one trip of their unit, which is said once. -/
theorem legsTrip : Obligations.LegsTrip := by
  unfold Obligations.LegsTrip
  intro s ha
  refine ⟨fun u x hon habove hq => ?_, fun u => ?_, fun g x hon habove hq => ?_⟩
  · have h := overTrip_overTripped (s := s.setAbove u true) (u := u) (k := 0) (why := 0) (by decide)
    exact ⟨_, congrArg Host.Outcome.next ((awake_of_not_asleep ha _).trans (legOvercurrent_of_qualified hon habove hq)),
      h.shown, mem_pairOf s u, h.count, h.logged, h.uf.rest⟩
  · obtain ⟨h, hhard⟩ := hardLimit_overTripped (s := s) (u := u)
    exact ⟨_, congrArg Host.Outcome.next (awake_of_not_asleep ha _), h.shown, hhard, h.count, h.logged, h.uf.rest⟩
  · have h := overTrip_overTripped (s := s.setAbove (40 + g) true) (u := 40 + g) (k := 1) (why := 2) (by decide)
    exact ⟨_, congrArg Host.Outcome.next ((awake_of_not_asleep ha _).trans (vdsTrip_of_qualified hon habove hq)),
      h.shown, mem_pairOf s _, h.count, h.logged, h.uf.rest⟩

end Sys2Proof.Machine
end

section
/-! PROOF. The trips of the supplies: shoot-through guard, bootstrap, charge pump and thermal groups, and the settlement of O31. -/

namespace Sys2Proof.Machine

/-- `t` is `s` after source `k` has latched the units of `l`, up to registers, fault manager and units (R213, R217). -/
structure Latched (l : List Nat) (k : Nat) (s t : State) : Prop where
  uf : UF s t
  tripped : ∀ v ∈ l, Tripped t v k

/-- The part with cp_ok fallen and its source latched in every internal unit, before the fall is flagged and logged (R225). -/
def State.cpLatched (s : State) : State := overList internalUnits (fun s u => s.latch u 5) (s.setBit protA 10 false)

/-- The part whose charge-pump undervoltage is flagged and its detection disarmed (R225). -/
def State.cpFlagged (s : State) : State := (s.cpLatched.flag protA 14).onStage fun g => { g with cpArmed := false }

section
variable {s t r : State} {l : List Nat} {u v c k : Nat}

theorem putAt_getElem {V : Type} {n : Nat} (w : Vector V n) (i : Fin n) (x : V) : (putAt w i x)[i] = x := by simp [putAt]

/-! ### Latches by one source (R213, R217, R226) -/

theorem latch_latched (hk : k < 64) : Latched (s.pairOf u) k s (s.latch u k) := ⟨latch_uf s u k, fun _ hv => latch_tripped s hk hv⟩

theorem latches_latched (hk : k < 64) : Latched l k s (overList l (fun s u => s.latch u k) s) :=
  ⟨latches_uf s l k, fun _ hv => latches_tripped s l hk hv⟩

theorem Latched.life (h : Latched l k s t) {j : Nat} (hj : j < 16) : Latched l k s (t.life j) :=
  ⟨h.uf.trans (life_rf t j).uf, fun v hv => (h.tripped v hv).rf t fun _ hc => life_hi t hj hc⟩

theorem Latched.log (h : Latched l k s t) (code d1 d2 : Nat) (bd : Bind) : Latched l k s (t.log code d1 d2 bd) :=
  ⟨h.uf.trans (log_rf t code d1 d2 bd).uf, fun v hv => (h.tripped v hv).rf t fun _ hc => log_hi t hc⟩

theorem Latched.ite {p : Prop} [Decidable p] (h : Latched l k s t) (g : Latched l k s r) : Latched l k s (if p then t else r) := by
  split
  · exact h
  · exact g

/-- The latch, its source and the output of a latched unit, as the registers show them. -/
theorem Tripped.shown (h : Tripped t v k) : t.bit (pstat v) 15 = true ∧ t.bit (unitBase v + PU.LSTAT) k = true ∧ t.fld (pstat v) 5 4 = 1 :=
  ⟨h.trip, h.src, h.out⟩

theorem UF.stage (h : UF s t) : t.stage = s.stage := (congrArg State.stage h.rest :)
theorem UF.axes (h : UF s t) : t.axes = s.axes := (congrArg State.axes h.rest :)
theorem UF.path (h : UF s t) : t.path = s.path := (congrArg State.path h.rest :)
theorem UF.pow (h : UF s t) : t.pow = s.pow := (congrArg State.pow h.rest :)

/-! ### The sources that latch (R230, R233, R245) -/

/-- A condition of the guard latches the unit and its partner with source guard (R230). -/
theorem guardTrip_latched {why : Nat} (hwhy : why ≠ 0) :
    Latched (s.pairOf u) 3 (s.onStage fun g => { g with guard := putAt g.guard u why }) (s.guardTrip u why) := by
  unfold State.guardTrip
  extract_lets was s1
  rw [if_neg hwhy]
  have hlatch : Latched (s.pairOf u) 3 s1 (s1.latch u 3) := latch_latched (s := s1) (k := 3) (by decide)
  have hcount := Latched.ite (p := s.bit (pstat u) 15 = true) hlatch (hlatch.life (j := 7) (by decide))
  exact hcount.ite (hcount.log ..)

/-- A low bootstrap voltage that counts latches the channel and its partner with source buv (R233). -/
theorem bootstrapUv_latched {g mV : Nat} (hon : (s.gates (40 + g)).1 = true) (hoff : 800 ≤ (s.unit (40 + g)).offLow)
    (hlow : mV < 100 * s.rd (unitBase (40 + g) + PU.BUVTHR)) :
    Latched (s.pairOf (40 + g)) 4 (s.onStage fun t => { t with buv := putAt t.buv g true }) (s.bootstrapUv g mV) := by
  unfold State.bootstrapUv
  extract_lets u thr was put
  rw [if_pos ⟨hon, hoff, hlow⟩]
  have hlatch : Latched (s.pairOf u) 4 (put true) ((put true).latch u 4) := latch_latched (s := put true) (k := 4) (by decide)
  exact hlatch.ite (hlatch.log ..)

/-- An overtemperature of group g latches its four legs with source ot (R245). -/
theorem groupOver_latched {g : Nat} :
    Latched [4 * g, 4 * g + 1, 4 * g + 2, 4 * g + 3] 6
      ((s.onStage fun t => { t with ot := putAt t.ot g true }).setBit (cmpA CMP.TSTAT) g true) (s.groupOver g) := by
  have hlatch := latches_latched (s := (s.onStage fun t => { t with ot := putAt t.ot g true }).setBit (cmpA CMP.TSTAT) g true)
    (l := [4 * g, 4 * g + 1, 4 * g + 2, 4 * g + 3]) (k := 6) (by decide)
  exact hlatch.ite (hlatch.log ..)

theorem mem_groupLegs (g : Nat) (j : Fin 4) : 4 * g + j ∈ [4 * g, 4 * g + 1, 4 * g + 2, 4 * g + 3] := by
  have := j.isLt
  simp only [List.mem_cons, List.not_mem_nil, or_false]
  omega

/-! ### The charge pump (R224, R225) -/

/-- PROT is out of the log's reach. -/
theorem protA_logReg : logReg protA = false := by decide

/-- While it is armed, the fall of cp_ok latches, is flagged, disarms the detection and is logged (R225). -/
theorem cpFall_of_armed (hok : s.bit protA 10 = true) (harmed : s.stage.cpArmed = true) :
    s.cpFall = s.cpFlagged.log 0x0204 0x00FF 0 (.set (s.axesOf internalUnits)) := by
  simp [State.cpFall, State.cpFlagged, State.cpLatched, hok, harmed]

theorem cpLatched_latched : Latched internalUnits 5 (s.setBit protA 10 false) s.cpLatched := latches_latched (by decide)

theorem cpLatched_prot : s.cpLatched.val protA = (s.setBit protA 10 false).val protA :=
  overList_const (g := fun s => s.val protA) fun s u => latch_low s u 5 protA_logReg (by decide) (by decide)

/-- In PROT the fall of cp_ok sets cp_uv and clears cp_ok (R225). -/
theorem cpFall_prot (hok : s.bit protA 10 = true) (harmed : s.stage.cpArmed = true) :
    s.cpFall.bit protA 14 = true ∧ s.cpFall.bit protA 10 = false := by
  have hval : s.cpFall.val protA = (s.setBit protA 10 false).val protA ||| BitVec.twoPow 64 14 := by
    rw [cpFall_of_armed hok harmed, State.log_val _ protA_logReg, ← cpLatched_prot]
    exact flag_self_up (by decide) protA_logReg (by decide)
  have hcleared := s.bit_setBit protA 10 false (by decide)
  exact ⟨by simp [State.bit, hval], by simpa [State.bit, hval] using hcleared⟩

/-- The fall of cp_ok leaves every internal unit latched with source cp (R225). -/
theorem cpFall_tripped (hok : s.bit protA 10 = true) (harmed : s.stage.cpArmed = true) (hv : v ∈ internalUnits) : Tripped s.cpFall v 5 := by
  refine ((cpLatched_latched (s := s)).tripped v hv).rf _ fun c hc => ?_
  have hne : c ≠ protA := fun e => absurd (e ▸ hc) (by decide)
  rw [cpFall_of_armed hok harmed, log_hi _ hc]
  exact flag_hi _ (by decide) hne hc

/-- What the fall of cp_ok leaves alone, and the detection that it disarms (R225). -/
theorem cpFlagged_rest : s.cpFlagged.stage.cpArmed = false ∧ s.cpFlagged.axes = s.axes ∧ s.cpFlagged.path = s.path ∧
    s.cpFlagged.pow = s.pow ∧ s.cpFlagged.flt.hist = s.flt.hist := by
  have huf : UF s s.cpLatched := .trans (t := s.setBit protA 10 false) ⟨rfl⟩ cpLatched_latched.uf
  have hflag : UF s (s.cpLatched.flag protA 14) := huf.trans (flag_rf ..).uf
  have hlatched : s.cpLatched.flt.hist = s.flt.hist := by rw [State.cpLatched, latches_hist]; rfl
  have hhist : (s.cpLatched.flag protA 14).flt.hist = s.flt.hist := flag_hist.trans hlatched
  exact ⟨rfl, hflag.axes, hflag.path, hflag.pow, hhist⟩

/-- A rail that has risen sets cp_ok and arms the detection (R224). -/
theorem cpReady_of_pump (hp : s.stage.pump = true) :
    s.cpReady = overList internalUnits (fun s u => s.showSources u) ((s.setBit protA 10 true).onStage fun g => { g with cpArmed := true }) := by
  simp [State.cpReady, hp]

/-- The sources that show leave PROT. -/
theorem showAll_prot : (overList l (fun s u => s.showSources u) s).val protA = s.val protA :=
  overList_const (g := fun s => s.val protA) fun s u => (showSources_val s).1 _ (ne_of_lt (lt_of_lt_of_le (by decide) (lstat_hi u)))

end

/-- Settles O31: each of the three local sources makes one latch of its units; the charge pump's latches its own before it is flagged. -/
theorem suppliesTrip : Obligations.SuppliesTrip := by
  unfold Obligations.SuppliesTrip
  intro s ha
  have awake (f : State → State) : s.awake f = f s := awake_of_not_asleep ha f
  refine ⟨fun u why hwhy => ?_, fun g mV hon hoff hlow => ?_, fun hok harmed => ?_, fun hp => ?_, fun g => ?_⟩
  · have h := guardTrip_latched (s := s) (u := u) (Fin.val_ne_of_ne hwhy)
    exact ⟨_, congrArg Host.Outcome.next (awake _), fun v hv => (h.tripped v hv).shown, mem_pairOf s u,
      by rw [h.uf.stage]; exact putAt_getElem .., h.uf.axes, h.uf.path⟩
  · have h := bootstrapUv_latched hon hoff hlow
    exact ⟨_, congrArg Host.Outcome.next (awake _), fun v hv => (h.tripped v hv).shown, mem_pairOf s _,
      by rw [h.uf.stage]; exact putAt_getElem .., h.uf.axes, h.uf.path⟩
  · obtain ⟨hcpuv, hcpok⟩ := cpFall_prot hok harmed
    obtain ⟨hdisarmed, haxes, hpath, hpow, hhist⟩ := cpFlagged_rest (s := s)
    have hrest : RF s.cpFlagged s.cpFall := cpFall_of_armed hok harmed ▸ log_rf ..
    refine ⟨_, congrArg Host.Outcome.next (awake _), fun v => (cpFall_tripped hok harmed (List.mem_range.mpr v.isLt)).shown, hcpuv, hcpok,
      by rw [hrest.uf.stage, hdisarmed], hrest.uf.axes.trans haxes, hrest.uf.path.trans hpath, fun hr hroom => ?_⟩
    rw [cpFall_of_armed hok harmed]
    exact log_hist (by rwa [hpow]) (by rwa [hhist])
  · have huf := uf_overList (l := internalUnits) showSources_uf ((s.setBit protA 10 true).onStage fun g => { g with cpArmed := true })
    refine ⟨_, congrArg Host.Outcome.next ((awake _).trans (cpReady_of_pump hp)), ?_, by rw [huf.stage]; rfl, huf.axes, huf.path⟩
    rw [val_bit showAll_prot]
    exact s.bit_setBit protA 10 true (by decide)
  · have h := groupOver_latched (s := s) (g := g)
    exact ⟨_, congrArg Host.Outcome.next (awake _), fun j => (h.tripped _ (mem_groupLegs g j)).shown,
      by rw [h.uf.stage]; exact putAt_getElem .., h.uf.axes, h.uf.path⟩

end Sys2Proof.Machine
end

section
/-! PROOF. The window monitors of supplies and temperatures, and the settlement of O38. -/

namespace Sys2Proof.Machine

/-- From `s` to `t` the axes stand, and every register from the comparators' window on (R538). -/
structure WindowsKept (s t : State) : Prop where
  axes : t.axes = s.axes
  val : ∀ c, cmpA 0 ≤ c → t.val c = s.val c

/-- The bit of supply `k` in WSTAT and WEVT: over its window or under it (R376). -/
def windowBit (k : Nat) (isOver : Bool) : Nat := if isOver then 8 + k else k

/-- The part with bit `i` of WSTAT and of WEVT set, before the event is logged (R376). -/
def State.windowLeft (s : State) (i : Nat) : State := (s.setBit (cmpA CMP.WSTAT) i true).flag (cmpA CMP.WEVT) i

/-- The part with everything stopped that V12 supplies (R224, R241, R290). -/
def State.v12Lost (s : State) : State := (overList (List.finRange 4) (fun s d => s.excStop d) s).pumpStep.toffShow

/-- The part with both bits of supply `k` in WSTAT cleared (R376). -/
def State.windowEntered (s : State) (k : Nat) : State := (s.setBit (cmpA CMP.WSTAT) k false).setBit (cmpA CMP.WSTAT) (8 + k) false

section
variable {s t r : State} {A : Type} {b c k i : Nat} {isOver : Bool}

/-! ### What leaves the axes and the comparators' registers -/

theorem WindowsKept.refl : WindowsKept s s := ⟨rfl, fun _ _ => rfl⟩

theorem WindowsKept.trans (h : WindowsKept s t) (g : WindowsKept t r) : WindowsKept s r :=
  ⟨g.axes.trans h.axes, fun c hc => (g.val c hc).trans (h.val c hc)⟩

theorem WindowsKept.ite {p : Prop} {_ : Decidable p} (h : WindowsKept s t) (g : WindowsKept s r) : WindowsKept s (if p then t else r) := by
  split
  · exact h
  · exact g

theorem windowsKept_overList {l : List A} {f : State → A → State} (h : ∀ a ∈ l, ∀ s, WindowsKept s (f s a)) : WindowsKept s (overList l f s) := by
  induction l generalizing s with
  | nil => exact .refl
  | cons a l ih => exact (h a List.mem_cons_self s).trans (ih fun b hb => h b (List.mem_cons_of_mem a hb))

theorem WindowsKept.bit (h : WindowsKept s t) (hc : cmpA 0 ≤ c) : t.bit c = s.bit c := val_bit (h.val c hc)

/-- A write below the comparators' window. -/
theorem setVal_windowsKept (hb : b < cmpA 0) (v : Val) : WindowsKept s (s.setVal b v) :=
  ⟨rfl, fun _ hc => (State.val_setVal ..).trans (if_neg (ne_of_gt (lt_of_lt_of_le hb hc)))⟩

theorem log_windowsKept {d1 d2 : Nat} {bd : Bind} : WindowsKept s (s.log c d1 d2 bd) :=
  ⟨(log_rf ..).uf.axes, fun _ hc => log_hi s (le_trans (by decide) hc)⟩

/-! ### The excitation drivers, the charge pump and the TOFF inputs (R224, R241, R290) -/

/-- The registers of the drivers lie below the comparators'. -/
theorem excReg_lt (d : Fin 4) {o : Nat} (ho : o < 256) : excBase d + o < cmpA 0 := by
  have hd := d.isLt
  simp only [excBase, cmpA]
  omega

theorem estat_lt (d : Fin 4) : estat d < cmpA 0 := excReg_lt d (by decide)

theorem excStop_windowsKept (d : Fin 4) : WindowsKept s (s.excStop d) :=
  have hstat (s : State) (i : Nat) (x : Bool) : WindowsKept s (s.setBit (estat d) i x) := setVal_windowsKept (estat_lt d) _
  .trans (t := s.onExc d fun e => { e with run := false, settleAt := none }) ⟨rfl, fun _ _ => rfl⟩
    (((hstat _ 10 false).trans (hstat _ 11 false)).trans (hstat _ 14 false))

theorem excStart_windowsKept (d : Fin 4) : WindowsKept s (s.excStart d) := by
  have hstat (s : State) (i : Nat) (x : Bool) : WindowsKept s (s.setBit (estat d) i x) := setVal_windowsKept (estat_lt d) _
  unfold State.excStart
  extract_lets run start s0 s1
  have hports : WindowsKept s s1 := .trans (t := s0) ⟨rfl, fun _ _ => rfl⟩ (windowsKept_overList fun _ _ _ => ⟨rfl, fun _ _ => rfl⟩)
  exact WindowsKept.refl.ite (((((hports.trans (hstat _ 14 false)).trans (hstat _ 12 false)).trans (hstat _ 11 false)).trans (hstat _ 10 run)).trans
    (setVal_windowsKept (excReg_lt d (by decide)) _))

theorem pumpStep_windowsKept : WindowsKept s s.pumpStep := ⟨rfl, fun _ _ => rfl⟩

theorem toffShow_windowsKept : WindowsKept s s.toffShow :=
  have hprot (s : State) (i : Nat) (x : Bool) : WindowsKept s (s.setBit protA i x) := setVal_windowsKept (by decide) _
  ((hprot _ 8 _).trans (hprot _ 9 _)).trans ((hprot _ 3 _).trans (hprot _ 11 _))

/-- The charge pump and the TOFF inputs leave the drivers. -/
theorem toffShow_pumpStep_excs : s.pumpStep.toffShow.excs = s.excs := rfl

theorem v12Lost_windowsKept : WindowsKept s s.v12Lost :=
  ((windowsKept_overList fun d _ _ => excStop_windowsKept d).trans pumpStep_windowsKept).trans toffShow_windowsKept

theorem excStop_run (d e : Fin 4) (h : e = d ∨ (s.excs[e]).run = false) : ((s.excStop d).excs[e]).run = false := by
  by_cases he : e = d
  · exact he ▸ congrArg Exc.run (vupd_same ..)
  · exact (congrArg Exc.run (vupd_other _ _ _ _ he)).trans (h.resolve_left he)

/-- The loss of V12 stops every driver (R290). -/
theorem v12Lost_run (d : Fin 4) : ((s.v12Lost).excs[d]).run = false := by
  have hexcs : s.v12Lost.excs = (overList (List.finRange 4) (fun s d => s.excStop d) s).excs := toffShow_pumpStep_excs
  rw [hexcs]
  exact overList_establishes (P := fun s (e : Fin 4) => (s.excs[e]).run = false) (f := fun s d => s.excStop d) (s := s)
    (fun _ e => excStop_run e e (.inl rfl)) (fun _ e d h => excStop_run e d (.inr h)) (List.mem_finRange d)

/-! ### A supply leaves its window (R376, R562) -/

theorem windowBit_lt (hk : k < 6) : windowBit k isOver < 64 := by
  unfold windowBit
  split <;> omega

/-- A supply's event calls for the attention of block 55 (R527). -/
theorem flagCause_wevt : flagCause (cmpA CMP.WEVT) i = some 55 := rfl

/-- WSTAT and WEVT show a window that a supply has left. -/
theorem windowLeft_shown (hi : i < 64) : (s.windowLeft i).bit (cmpA CMP.WSTAT) i = true ∧ (s.windowLeft i).bit (cmpA CMP.WEVT) i = true := by
  have hstat : (s.windowLeft i).val (cmpA CMP.WSTAT) = (s.setBit (cmpA CMP.WSTAT) i true).val (cmpA CMP.WSTAT) :=
    flag_hi _ hi (by decide) (by decide)
  refine ⟨?_, flag_bit hi (flagCause_wevt ▸ by decide) (.inl (by decide))⟩
  rw [val_bit hstat]
  exact s.bit_setBit _ _ _ hi

theorem windowLeft_axes : (s.windowLeft i).axes = s.axes := (flag_rf (s.setBit (cmpA CMP.WSTAT) i true) _ i).uf.axes

/-- A supply that leaves its window sets its flags; what follows stays off the comparators' registers, and V12 takes the drivers with it
(R290, R376). -/
theorem supplyOut_leaves (h : s.bit (cmpA CMP.WSTAT) (windowBit k isOver) = false) :
    WindowsKept (s.windowLeft (windowBit k isOver)) (s.supplyOut k isOver) ∧ (k = 1 → ∀ d : Fin 4, ((s.supplyOut k isOver).excs[d]).run = false) := by
  unfold State.supplyOut
  extract_lets i j s1 vm t s2
  have hlogged : WindowsKept s1 s2 :=
    WindowsKept.refl.ite (.trans (t := t) ⟨rfl, fun _ _ => rfl⟩ (log_windowsKept.ite log_windowsKept))
  have hin : ¬ s.bit (cmpA CMP.WSTAT) i = true := ne_true_of_eq_false h
  rw [if_neg hin]
  refine ⟨(hlogged.trans v12Lost_windowsKept).ite hlogged, fun hk d => ?_⟩
  rw [if_pos hk]
  exact v12Lost_run d

/-- Outside reset and the shelf state a supply enters as the window monitor sees it, but for a logic supply under its window (R376, R562). -/
theorem supplyEnters_monitored (ha : s.asleep = false) {k : Fin 6} (h : isOver = true ∨ k.val < 2 ∨ k = 5) :
    s.supplyEnters k isOver = s.supplyOut k isOver := by
  have hrun : s.pow.shelf ≠ .shelf ∧ ¬ (2 ≤ k.val ∧ k.val ≤ 4 ∧ !isOver) := by
    refine ⟨fun e => by simp [State.asleep, e] at ha, fun ⟨hlo, hhi, hunder⟩ => ?_⟩
    rcases h with rfl | h | rfl
    · exact absurd hunder (by decide)
    · omega
    · exact absurd hhi (by decide)
  exact (if_neg hrun.1).trans ((if_neg hrun.2).trans (awake_of_not_asleep ha _))

/-- Outside reset and the shelf state a logic supply under its window resets the part (R562). -/
theorem supplyEnters_brownOut (ha : s.asleep = false) {k : Fin 6} (hlo : 2 ≤ k.val) (hhi : k.val ≤ 4) :
    s.supplyEnters k false = s.enterReset 13 false (k.val == 4) := by
  have hrun : s.pow.shelf ≠ .shelf := fun e => by simp [State.asleep, e] at ha
  exact (if_neg hrun).trans ((if_pos ⟨hlo, hhi, rfl⟩).trans ((if_neg hrun).trans (if_pos ⟨hlo, hhi⟩)))

/-- A part that enters a reset from operation shows its one cause, and every axis as it starts (R545, R555, R558). -/
theorem enterReset_begins (ha : s.asleep = false) (cause : Nat) (cold lost : Bool) :
    (s.enterReset cause cold lost).pow.inReset = true ∧ (s.enterReset cause cold lost).pow.causes = 2 ^ cause ∧
      (s.enterReset cause cold lost).axes = State.blank.axes :=
  have hrun : ¬ s.pow.inReset = true := fun e => by simp [State.asleep, e] at ha
  ⟨rfl, if_neg hrun, rfl⟩

/-! ### A supply returns (R290, R376) -/

theorem windowEntered_shown (hk : k < 6) :
    (s.windowEntered k).bit (cmpA CMP.WSTAT) k = false ∧ (s.windowEntered k).bit (cmpA CMP.WSTAT) (8 + k) = false :=
  ⟨(State.bit_setBit_other _ _ _ _ _ _ (.inr (by omega))).trans (s.bit_setBit _ _ _ (by omega)), State.bit_setBit _ _ _ _ (by omega)⟩

/-- A supply that returns clears its bits; the drivers that V12 starts again stay off the comparators' registers. -/
theorem supplyBack_windowsKept : WindowsKept (s.windowEntered k) (s.supplyBack k) := by
  unfold State.supplyBack
  extract_lets was s1
  have harmed : WindowsKept (s.windowEntered k) s1 := ⟨rfl, fun _ _ => rfl⟩
  have hdrivers : WindowsKept s1 (overList (List.finRange 4) (fun s d => if s.bit (estat d) 15 then s else s.excStart d) s1) :=
    windowsKept_overList fun d _ _ => WindowsKept.refl.ite (excStart_windowsKept d)
  exact (harmed.trans ((hdrivers.trans pumpStep_windowsKept).trans toffShow_windowsKept)).ite harmed

/-! ### The thermal windows (R243, R377) -/

/-- The die's overtemperature shows in TSTAT, whether or not its event is armed. -/
theorem dieOver_windowsKept : WindowsKept (s.setBit (cmpA CMP.TSTAT) 10 true) s.dieOver :=
  .ite (.trans (t := (s.setBit (cmpA CMP.TSTAT) 10 true).onCmps fun c => { c with dieArmed := false }) ⟨rfl, fun _ _ => rfl⟩ log_windowsKept) .refl

/-- While it is armed, the die's overtemperature stands in the history as the event of window 10 at level 2 (R377). -/
theorem dieOver_hist (harmed : s.cmps.dieArmed = true) (hr : s.pow.inReset = false) (hroom : s.flt.hist.length < 32) :
    ∃ x ∈ s.dieOver.flt.hist, x.code = 0x0803 ∧ x.w6 = 10 ∧ x.w7 = 2 := by
  have heq : s.dieOver = ((s.setBit (cmpA CMP.TSTAT) 10 true).onCmps fun c => { c with dieArmed := false }).log 0x0803 10 2 .device := if_pos harmed
  rw [heq]
  exact log_hist hr hroom

/-- The registers of a leg lie below the comparators'. -/
theorem showSources_windowsKept (hk : k < 40) : WindowsKept s (s.showSources k) :=
  ⟨(showSources_uf s k).axes, fun c hc => (showSources_val s).1 c (by
    simp only [unitBase, if_pos hk, PU.LSTAT, cmpA] at hc ⊢
    omega)⟩

/-- The release of leg group j ends its condition (R243). -/
theorem thermalBack_group {j : Fin 11} (h : j.val < 10) :
    s.thermalBack j = overList [4 * j.val, 4 * j.val + 1, 4 * j.val + 2, 4 * j.val + 3] (fun s u => s.showSources u)
      ((s.setBit (cmpA CMP.TSTAT) j false).onStage fun g => { g with ot := g.ot.set j.val false }) := dif_pos h

/-- The release of the die arms its event again (R377). -/
theorem thermalBack_die : s.thermalBack 10 = (s.setBit (cmpA CMP.TSTAT) 10 false).onCmps fun c => { c with dieArmed := true } := rfl

theorem thermalBack_ot {j : Fin 11} (h : j.val < 10) : (s.thermalBack j).stage.ot[j.val] = false := by
  rw [thermalBack_group h, (uf_overList showSources_uf _).stage]
  exact Vector.getElem_set_self ..

/-- A thermal window's release clears its bit of TSTAT; what follows stays off the comparators' registers. -/
theorem thermalBack_windowsKept {j : Fin 11} : WindowsKept (s.setBit (cmpA CMP.TSTAT) j false) (s.thermalBack j) := by
  by_cases h : j.val < 10
  · have hlegs : ∀ u ∈ [4 * j.val, 4 * j.val + 1, 4 * j.val + 2, 4 * j.val + 3], u < 40 := by
      simp only [List.mem_cons, List.not_mem_nil, or_false]
      omega
    rw [thermalBack_group h]
    exact .trans (t := (s.setBit (cmpA CMP.TSTAT) j false).onStage fun g => { g with ot := g.ot.set j.val false }) ⟨rfl, fun _ _ => rfl⟩
      (windowsKept_overList fun u hu _ => showSources_windowsKept (hlegs u hu))
  · obtain rfl : j = 10 := Fin.ext (by omega)
    exact ⟨rfl, fun _ _ => rfl⟩

end

/-- Settles O38: each window sets or clears its bits first, and what follows stays off the comparators' registers and the axes. -/
theorem windowMonitors : Obligations.WindowMonitors := by
  unfold Obligations.WindowMonitors
  intro s ha
  have awake (f : State → State) : s.awake f = f s := awake_of_not_asleep ha f
  refine ⟨fun k isOver => ⟨fun hmon hin => ?_, ?_⟩, fun k => ?_, ?_, fun j => ?_⟩
  · obtain ⟨hkept, hstop⟩ := supplyOut_leaves hin
    obtain ⟨hstat, hevt⟩ := windowLeft_shown (s := s) (windowBit_lt (isOver := isOver) k.isLt)
    refine ⟨_, congrArg Host.Outcome.next (supplyEnters_monitored ha hmon), ?_, ?_, fun hk => hstop (congrArg Fin.val hk),
      hkept.axes.trans windowLeft_axes⟩
    · exact (congrFun (hkept.bit (by decide)) _).trans hstat
    · exact (congrFun (hkept.bit (by decide)) _).trans hevt
  · rintro rfl hlo hhi
    exact ⟨_, congrArg Host.Outcome.next (supplyEnters_brownOut ha hlo hhi), enterReset_begins ha 13 false _⟩
  · have h := supplyBack_windowsKept (s := s) (k := k)
    obtain ⟨hunder, hover⟩ := windowEntered_shown (s := s) k.isLt
    exact ⟨_, congrArg Host.Outcome.next (awake _), (congrFun (h.bit (by decide)) _).trans hunder, (congrFun (h.bit (by decide)) _).trans hover, h.axes⟩
  · have h := dieOver_windowsKept (s := s)
    exact ⟨_, congrArg Host.Outcome.next (awake _), (congrFun (h.bit (by decide)) _).trans (s.bit_setBit _ _ _ (by decide)), h.axes, dieOver_hist⟩
  · have h := thermalBack_windowsKept (s := s) (j := j)
    exact ⟨_, congrArg Host.Outcome.next (awake _), (congrFun (h.bit (by decide)) _).trans (s.bit_setBit _ _ _ (by omega)), thermalBack_ot,
      by rintro rfl; exact congrArg (fun t : State => t.cmps.dieArmed) thermalBack_die, h.axes⟩

end Sys2Proof.Machine
end

section
/-! PROOF. The force channels: the automatic reset, touches, and the commands RESET and RANGE, and the settlement of O35. -/

namespace Sys2Proof.Machine

/-- The part at the edge where the pending command of channel `m` is taken up and its pending bit has cleared (R333). -/
def State.frcTaken (s : State) (m : Fin 8) : State := (s.onFrc m (fun g => { g with cmd := none })).setBit (fstat m) 5 false

/-- `t` shows channel `m` as a reset of 20 µs leaves it, with its switch closed for 8 µs, and the axes of `s` (R323). -/
structure ChannelReset (m : Fin 8) (s t : State) : Prop where
  ofs : t.rd (frcBase m + FRC.OFS) = 0
  inexactClear : t.bit (fstat m) 10 = false
  topClear : t.bit (fstat m) 8 = false
  settle : (t.frcs[m]).settle = 8000
  resetting : (t.frcs[m]).resetting = 3200
  charge : (t.frcs[m]).q = 0
  axes : t.axes = s.axes

/-- `t` is the state that a command of channel `m` leaves where its judgement answers DONE with `u`: FCMDSTAT shows echo and status, and the
axes, the channels and the channel's other registers are those of `u` (R93, R333). -/
structure ForceCmdDone (m : Fin 8) (op : Nat) (u t : State) : Prop where
  status : t.rd (frcBase m + FRC.FCMDSTAT) = op * 256
  val : ∀ o, o ≠ FRC.FCMDSTAT → t.val (frcBase m + o) = u.val (frcBase m + o)
  frcs : t.frcs = u.frcs
  axes : t.axes = u.axes

section
variable {s t u : State} {m : Fin 8} {r : Nat}

/-! ### The registers of a channel -/

/-- The registers of a force channel lie among those of the engines. -/
theorem frcReg_hi (m : Fin 8) (o : Nat) : 0x080000 ≤ frcBase m + o := by unfold frcBase; omega

theorem fstat_hi (m : Fin 8) : 0x080000 ≤ fstat m := frcReg_hi m FRC.FSTAT

/-- A count of the channel leaves its FSTAT. -/
theorem fstat_bump {o : Nat} (ho : FRC.FSTAT ≠ o) : (s.bump (frcBase m + o)).val (fstat m) = s.val (fstat m) :=
  State.val_bump_other _ _ _ _ (offset_ne ho)

/-! ### The reset (R323, R325) -/

theorem frcReset_channelReset : ChannelReset m s (s.frcReset m 8000 3200) where
  ofs := by
    show (((s.wr (frcBase m + FRC.OFS) 0).setBit (fstat m) 10 false).setBit (fstat m) 8 false).rd (frcBase m + FRC.OFS) = 0
    have hne : frcBase m + FRC.OFS ≠ fstat m := offset_ne (by decide)
    rw [State.rd, State.val_setBit, if_neg hne, State.val_setBit, if_neg hne]
    exact State.rd_wr _ _ _ (by decide)
  inexactClear := (State.bit_setBit_other _ _ _ 8 10 _ (.inr (by decide))).trans (State.bit_setBit _ _ _ _ (by decide))
  topClear := State.bit_setBit _ _ _ _ (by decide)
  settle := congrArg Force.settle (vupd_same ..)
  resetting := congrArg Force.resetting (vupd_same ..)
  charge := congrArg Force.q (vupd_same ..)
  axes := rfl

/-! ### Touch (R326, R327) -/

/-- Channel `m` with the touch and its flag set, counted, and the axis' reaction due, before the event is logged (R327). -/
def State.touched (s : State) (m : Fin 8) : State :=
  (((s.setBit (fstat m) 14 true).flag (fstat m) 13).bump (frcBase m + FRC.TCNT)).onFrc m (fun g => { g with on := 0, off := 0, retract := true })

theorem touchSetOn_of_due (hoff : s.bit (fstat m) 14 = false) (hon : s.frcOn m = true) (hrun : s.rd (frcBase m + FRC.TN) ≤ (s.frcs[m]).on) :
    s.touchSetOn m = (s.touched m).log 0x0B01 m (if (s.frcs[m]).q < 0 then 1 else 0) (s.frcBind m) :=
  if_neg (by simpa [hoff, hon] using hrun)

theorem touched_fields : (s.touched m).bit (fstat m) 14 = true ∧ (s.touched m).bit (fstat m) 13 = true ∧
    (s.touched m).frcs[m] = { s.frcs[m] with on := 0, off := 0, retract := true } ∧ (s.touched m).axes = s.axes := by
  have hbits : (s.touched m).bit (fstat m) = ((s.setBit (fstat m) 14 true).flag (fstat m) 13).bit (fstat m) :=
    val_bit (fstat_bump (s := (s.setBit (fstat m) 14 true).flag (fstat m) 13) (o := FRC.TCNT) (by decide))
  refine ⟨?_, ?_, ?_, ?_⟩
  · rw [hbits, flag_other_bit_hi (by decide) (by decide) (fstat_hi m)]
    exact s.bit_setBit _ _ _ (by decide)
  · rw [hbits]
    exact flag_bit_hi (by decide) (fstat_hi m)
  · simp [State.touched]
  · simp [State.touched]

/-- TN samples over the threshold set the touch and its flag, and make the axis' reaction due. -/
theorem touchSetOn_leaves (hoff : s.bit (fstat m) 14 = false) (hon : s.frcOn m = true) (hrun : s.rd (frcBase m + FRC.TN) ≤ (s.frcs[m]).on) :
    (s.touchSetOn m).bit (fstat m) 14 = true ∧ (s.touchSetOn m).bit (fstat m) 13 = true ∧ ((s.touchSetOn m).frcs[m]).retract = true ∧
      ((s.touchSetOn m).frcs[m]).on = 0 ∧ (s.touchSetOn m).axes = s.axes := by
  obtain ⟨h14, h13, hfrc, haxes⟩ := touched_fields (s := s) (m := m)
  have hstat {k d : Nat} {bd : Bind} : ((s.touched m).log k m d bd).bit (fstat m) = (s.touched m).bit (fstat m) := val_bit (log_hi _ (fstat_hi m))
  rw [touchSetOn_of_due hoff hon hrun, hstat, (log_rf ..).rest]
  exact ⟨h14, h13, congrArg Force.retract hfrc, congrArg Force.on hfrc, haxes⟩

/-- TN samples under the release threshold clear the standing touch. -/
theorem touchOff_leaves (hon : s.bit (fstat m) 14 = true) (hrun : s.rd (frcBase m + FRC.TN) ≤ (s.frcs[m]).off) :
    (s.touchOff m).bit (fstat m) 14 = false ∧ ((s.touchOff m).frcs[m]).off = 0 ∧ (s.touchOff m).axes = s.axes := by
  have hoff : s.touchOff m = (s.setBit (fstat m) 14 false).onFrc m (fun g => { g with on := 0, off := 0 }) :=
    if_neg (by simpa [hon] using hrun)
  rw [hoff]
  exact ⟨s.bit_setBit _ _ _ (by decide), congrArg Force.off (vupd_same ..), rfl⟩

/-! ### The change of range (R317, R318) -/

/-- Channel `m` with its range replaced, its flag set, its change counted and its top bit cleared. -/
def State.ranged (s : State) (m : Fin 8) (r : Nat) : State :=
  (((s.setFld (fstat m) 1 0 r).flag (fstat m) 7).bump (frcBase m + FRC.RNGCNT)).setBit (fstat m) 8 false

theorem ranged_range (hr : r ≤ 3) : (s.ranged m r).frcRange m = r := by
  have hbit {i : Nat} (hi : i ≤ 1) : (s.ranged m r).bit (fstat m) i = (s.setFld (fstat m) 1 0 r).bit (fstat m) i := by
    rw [State.ranged, State.bit_setBit_other _ _ _ _ _ _ (.inr (by omega)), val_bit (fstat_bump (by decide)),
      flag_other_bit_hi (by decide) (by omega) (fstat_hi m)]
  calc (s.ranged m r).frcRange m
      = (s.setFld (fstat m) 1 0 r).fld (fstat m) 1 0 := fld_of_bits (by decide) fun _ _ hi => hbit hi
    _ = r % 4 := State.fld_setFld _ _ (by decide) (by decide)
    _ = r := Nat.mod_eq_of_lt (by omega)

/-- A step of the range leaves the channel in range `r`, whether or not it changes, and the axes as they were. -/
theorem frcStep_leaves (hr : r ≤ 3) (why : Nat) : (s.frcStep m r why).frcRange m = r ∧ (s.frcStep m r why).axes = s.axes := by
  unfold State.frcStep
  extract_lets r0 b s1 s2 s3
  split
  case isTrue h => exact ⟨h, rfl⟩
  case isFalse h =>
    have hshown : s3.val (fstat m) = (s.ranged m r).val (fstat m) ∧ s3.axes = s.axes := by
      have h1 : s1.axes = s.axes := by simp [s1]
      simp only [s3]
      split <;> exact ⟨rfl, h1⟩
    have hrange : s3.frcRange m = r := (val_fld hshown.1 1 0).trans (ranged_range hr)
    split
    · exact ⟨(val_fld (log_hi _ (fstat_hi m)) 1 0).trans hrange, by simpa using hshown.2⟩
    · exact ⟨hrange, hshown.2⟩

/-! ### The commands of a channel (R94, R333) -/

theorem frcCmd_reset (hon : s.frcOn m = true) (ht : s.bit (fstat m) 14 = false) (hr : (s.frcs[m]).resetting = 0)
    (hy : s.yieldSource m = false) : s.frcCmd m 1 0 = (.done, s.frcReset m 8000 3200) := by
  simpa [State.frcCmd, hon, ht, hy] using hr

theorem frcCmd_range (hon : s.frcOn m = true) (hr : r ≤ 3) (hy : s.yieldSource m = false) :
    s.frcCmd m 2 r = (.done, (s.frcStep m r 1).onFrc m (fun g => { g with down := 0 })) := by
  simp [State.frcCmd, hon, hr, hy]

/-- The completion of a command that was judged DONE. -/
theorem finish_forceCmdDone {op arg acc : Nat} (ho : op < 256) :
    ForceCmdDone m op u (u.finish (frcBase m + FRC.FCMDSTAT) (24 + m) op arg acc .done) := by
  obtain ⟨hself, hother⟩ := State.finish_val u (a := frcBase m + FRC.FCMDSTAT) (b := 24 + m) (o := op) (g := arg) (x := acc) (st := .done)
    (logReg_hi (frcReg_hi m _)) (by omega)
  refine ⟨?_, fun o hne => hother _ (offset_ne hne) (logReg_hi (frcReg_hi m o)), by simp, by simp⟩
  rw [State.rd, hself, BitVec.toNat_ofNat]
  show (op * 256 + 0) % 2 ^ 64 = op * 256
  omega

/-- A command's row in operation: the channel takes it up, and an accessor that reaches the block has it judged. -/
theorem forceCommand_done {op arg : Nat} {acc : Fin 15} (ha : s.asleep = false) (hacc : (s.frcTaken m).mayAccess acc (24 + m) = true)
    (ho : op < 256) (h : (s.frcTaken m).frcCmd m op arg = (.done, u)) :
    ∃ t, s.awake (fun s => s.frcApply m ⟨op, arg, acc⟩) = t ∧ ForceCmdDone m op u t := by
  refine ⟨_, ?_, finish_forceCmdDone (arg := arg) (acc := acc) ho⟩
  unfold State.frcTaken at hacc h
  rw [awake_of_not_asleep ha, State.frcApply]
  simp only [if_pos hacc, h]

/-- The completion of a RESET leaves the channel reset. -/
theorem ForceCmdDone.reset {op : Nat} (h : ForceCmdDone m op u t) (hu : ChannelReset m s u) : ChannelReset m s t := by
  have hstat := val_bit (h.val FRC.FSTAT (by decide))
  exact ⟨(val_rd (h.val FRC.OFS (by decide))).trans hu.ofs, (congrFun hstat 10).trans hu.inexactClear, (congrFun hstat 8).trans hu.topClear,
    by rw [h.frcs, hu.settle], by rw [h.frcs, hu.resetting], by rw [h.frcs, hu.charge], h.axes.trans hu.axes⟩

end

/-- Settles O35: resets by what R323 leaves of the channel, touches by their flags, and each command by its judgement and its completion. -/
theorem forceAndTouch : Obligations.ForceAndTouch := by
  unfold Obligations.ForceAndTouch
  intro m s ha
  have awake (f : State → State) : s.awake f = f s := awake_of_not_asleep ha f
  refine ⟨fun hdue => ?_, fun hoff hon hrun => ?_, fun hon hrun => ?_, fun acc => ?_⟩
  · have h := frcReset_channelReset (s := s) (m := m)
    exact ⟨_, congrArg Host.Outcome.next ((awake _).trans (if_pos hdue)), h.ofs, h.inexactClear, h.topClear, h.settle, h.resetting, h.charge, h.axes⟩
  · exact ⟨_, congrArg Host.Outcome.next (awake _), touchSetOn_leaves hoff hon hrun⟩
  · exact ⟨_, congrArg Host.Outcome.next (awake _), touchOff_leaves hon hrun⟩
  · intro j hacc hon
    refine ⟨fun ht hr hy => ?_, fun r hr hy => ?_⟩
    · obtain ⟨t, ht, hdone⟩ := forceCommand_done ha hacc (by decide) (frcCmd_reset hon ht hr hy)
      have h := hdone.reset frcReset_channelReset
      exact ⟨t, congrArg Host.Outcome.next ht, hdone.status, h.ofs, h.inexactClear, h.topClear, h.settle, h.resetting, h.charge, h.axes⟩
    · obtain ⟨t, ht, hdone⟩ := forceCommand_done ha hacc (by decide) (frcCmd_range hon hr hy)
      obtain ⟨hrange, haxes⟩ := frcStep_leaves (s := s.frcTaken m) (m := m) hr 1
      exact ⟨t, congrArg Host.Outcome.next ht, hdone.status, (val_fld (hdone.val FRC.FSTAT (by decide)) 1 0).trans hrange, hdone.axes.trans haxes⟩

end Sys2Proof.Machine
end

section
/-! PROOF. The current modulators: the end of an interval, a failed check, and the words of MCLR, and the settlement of O36. -/

namespace Sys2Proof.Machine

/-- The invalid mark of the interval that modulator `i` ends: a failure fell into it, it began before the settle time ended, or that time
still runs (R342, R343). -/
def State.intervalInvalid (s : State) (i : Fin 24) : Bool := (s.modu i).bad || (s.modu i).dirty || decide (0 < (s.modu i).settle)

/-- `t` is `s` after modulator `i` has ended interval `v`: its average stands first among those of the tick with its mark, its samples are
shown, and the next interval starts from its state (R338, R343). -/
structure IntervalClosed (i : Fin 24) (v : Interval) (s t : State) : Prop where
  joined : (t.modu i).runs = (satI 16 (average 70 v.bits (v.s1 - (s.modu i).s1) v.p), s.intervalInvalid i) :: (s.modu i).runs
  marked : t.bit (mstat i) 9 = s.intervalInvalid i
  start : (t.modu i).s1 = v.s1
  clean : (t.modu i).bad = false
  overload : t.bit (mstat i) 10 = v.ovl
  samples : t.rd (modBase i + MOD.NSMP) = v.n % 65536
  axes : t.axes = s.axes

/-- A check of modulator `i` has failed with `cause`: the flag, the cause, the counts and the log (R342). -/
def State.modFailed (s : State) (i : Fin 24) (cause : Nat) : State :=
  let s1 := (((s.onMod i (fun m => { m with bad := true, fails := 0 :: m.fails, restart := true })).flag (mstat i) 15).setFld (mstat i) 2 0
    cause).bump (modBase i + MOD.FAILCNT)
  (s1.life 14).log 0x0302 i cause (s1.modBind i)

/-- Modulator `i` is shown dead and stops (R342). -/
def State.modDied (s : State) (i : Fin 24) : State :=
  ((s.showDead i true).onMod i (fun m => { m with running := false, restart := false })).setBit (mstat i) 12 false

/-- Modulator `i` is dead no more: its failures are forgotten, and its restart waits for the edge (R367). -/
def State.modRestarted (s : State) (i : Fin 24) : State := (s.showDead i false).onMod i (fun m => { m with restart := true, fails := [] })

/-- The row of MOD.MCLR (R366). -/
def rowMCLR : Row := ⟨0x000, 1, 1, 4, .wo, 0x0, 0x0, 0x0, 16, false, 0, 65535⟩

section
variable {s t : State} {i : Fin 24} {v : Interval} {acc : Fin 15} {w cause : Nat}

/-! ### A modulator and its registers -/

@[simp] theorem onMod_modu (f : Modu → Modu) : (s.onMod i f).modu i = f (s.modu i) := by
  simp [State.onMod, State.modu, vupd]

theorem modu_of_mods (h : t.mods = s.mods) : t.modu = s.modu := by
  funext k
  rw [State.modu, h, State.modu]

/-- The registers of a modulator lie among those of the engines. -/
theorem modReg_hi (i : Fin 24) (o : Nat) : 0x080000 ≤ modBase i + o := by unfold modBase; omega

theorem mstat_hi (i : Fin 24) : 0x080000 ≤ mstat i := modReg_hi i MOD.MSTAT

/-- A count of the modulator leaves its MSTAT. -/
theorem mstat_bump {o : Nat} (ho : MOD.MSTAT ≠ o) : (s.bump (modBase i + o)).val (mstat i) = s.val (mstat i) :=
  State.val_bump_other _ _ _ _ (offset_ne ho)

/-- The registers of the modulators lie below those of their bank. -/
theorem mstat_lt_bank (i : Fin 24) (o : Nat) : mstat i < modbA o := by
  have := i.isLt
  simp only [mstat, modBase, MOD.MSTAT, modbA]
  omega

/-- The dead bit is the modulator's own in MSTAT; the bank shows it as well (R342). -/
theorem showDead_shown (x : Bool) : (s.showDead i x).modu i = { s.modu i with dead := x } ∧
    (s.showDead i x).val (mstat i) = (s.setBit (mstat i) 13 x).val (mstat i) ∧ (s.showDead i x).axes = s.axes := by
  have hbank {o k : Nat} (u : State) : (u.setBit (modbA o) k x).val (mstat i) = u.val (mstat i) :=
    (State.val_setBit ..).trans (if_neg (mstat_lt_bank i o).ne)
  have hval : ((s.onMod i (fun m => { m with dead := x })).setBit (mstat i) 13 x).val (mstat i) = (s.setBit (mstat i) 13 x).val (mstat i) := by
    simp [State.val_setBit]
  have hmodu : ((s.onMod i (fun m => { m with dead := x })).setBit (mstat i) 13 x).modu i = { s.modu i with dead := x } := onMod_modu _
  unfold State.showDead
  extract_lets s1
  split
  · exact ⟨hmodu, (hbank s1).trans hval, by simp [s1]⟩
  · exact ⟨hmodu, (hbank s1).trans hval, by simp [s1]⟩

/-! ### The end of an interval (R338, R343) -/

/-- The saturation mark and its count leave what the end of the interval has published. -/
theorem IntervalClosed.saturated (h : IntervalClosed i v s t) :
    IntervalClosed i v s ((t.flag (mstat i) 14).bump (modBase i + MOD.SATCNT)) := by
  have hmodu : ((t.flag (mstat i) 14).bump (modBase i + MOD.SATCNT)).modu = t.modu := modu_of_mods (by simp)
  have hbit {j : Nat} (hj : j ≠ 14) : ((t.flag (mstat i) 14).bump (modBase i + MOD.SATCNT)).bit (mstat i) j = t.bit (mstat i) j := by
    rw [val_bit (mstat_bump (by decide)), flag_other_bit_hi (by decide) hj (mstat_hi i)]
  refine ⟨hmodu ▸ h.joined, (hbit (by decide)).trans h.marked, hmodu ▸ h.start, hmodu ▸ h.clean, (hbit (by decide)).trans h.overload, ?_,
    .trans (by simp) h.axes⟩
  have hval : ((t.flag (mstat i) 14).bump (modBase i + MOD.SATCNT)).val (modBase i + MOD.NSMP) = t.val (modBase i + MOD.NSMP) :=
    (State.val_bump_other _ _ _ _ (offset_ne (by decide))).trans (flag_hi _ (by decide) (offset_ne (by decide)) (modReg_hi i _))
  exact (val_rd hval).trans h.samples

/-- An interval whose integrator state and clock pass their tests is closed without a failure. -/
theorem closeInterval_closes (hrun : (s.modu i).running = true) (hd : (s.modu i).dead = false) (hstate : v.s1.natAbs ≤ 256)
    (hclock : ((v.n : Int) * 256 - v.p).natAbs ≤ 256) : IntervalClosed i v s (s.closeInterval i v) := by
  unfold State.closeInterval
  extract_lets m0 b far s0 m avg inv sat a w k hi rec_ s1 s2
  have hs0 : s0 = s := by
    have hfar : far = false := decide_eq_false (by omega)
    simp only [s0, hfar, if_neg hstate.not_gt, Bool.false_eq_true, if_false]
  clear_value s0
  subst hs0
  have hinv : inv = s0.intervalInvalid i := by simp only [inv, m, hd, Bool.false_or, State.intervalInvalid]
  have hmodu : s2.modu i = { s0.modu i with
      runs := (a, inv) :: (s0.modu i).runs, dirty := decide (0 < (s0.modu i).settle), bad := false, s1 := v.s1,
      window := s0.fld (b + MOD.MCFG) 7 0 } := by
    rw [modu_of_mods (t := s2) (s := s1) (by simp [s2]), onMod_modu, modu_of_mods (s := s0) (by simp [State.replaced])]
  have hclosed : IntervalClosed i v s0 s2 := by
    refine ⟨?_, ?_, by rw [hmodu], by rw [hmodu], State.bit_setBit _ _ _ _ (by decide), ?_, ?_⟩
    · rw [hmodu, hinv]
    · exact ((State.bit_setBit_other _ _ _ _ _ _ (.inr (by decide))).trans (State.bit_setBit _ _ _ _ (by decide))).trans hinv
    · have hne : b + MOD.NSMP ≠ mstat i := offset_ne (by decide)
      have hval : s2.val (b + MOD.NSMP) = BitVec.ofNat 64 (v.n % 65536) := by
        simp [s2, s1, State.val_setBit, State.val_wr, hne]
      rw [State.rd, hval, BitVec.toNat_ofNat]
      exact Nat.mod_eq_of_lt (Nat.lt_trans (Nat.mod_lt _ (by decide)) (by decide))
    · simp [s2, s1, State.replaced]
  rw [if_neg (by simp [m0, hrun])]
  split
  · exact hclosed.saturated
  · exact hclosed

/-! ### A failed check (R342) -/

theorem modFailed_shown (hc : cause < 8) : (s.modFailed i cause).modu i = { s.modu i with bad := true, fails := 0 :: (s.modu i).fails, restart := true } ∧
    (s.modFailed i cause).bit (mstat i) 15 = true ∧ (s.modFailed i cause).fld (mstat i) 2 0 = cause ∧ (s.modFailed i cause).axes = s.axes := by
  unfold State.modFailed
  extract_lets s1
  have hval : ((s1.life 14).log 0x0302 i cause (s1.modBind i)).val (mstat i) = s1.val (mstat i) :=
    (log_hi _ (mstat_hi i)).trans (life_hi _ (by decide) (mstat_hi i))
  refine ⟨?_, ?_, ?_, by simp [s1]⟩
  · rw [modu_of_mods (s := s.onMod i (fun m => { m with bad := true, fails := 0 :: m.fails, restart := true })) (by simp [s1])]
    exact onMod_modu _
  · rw [val_bit hval, val_bit (mstat_bump (by decide)), State.bit_setFld_above _ _ _ (by decide) (by decide) (by decide)]
    exact flag_bit_hi (by decide) (mstat_hi i)
  · rw [val_fld hval, val_fld (mstat_bump (by decide)), State.fld_setFld _ _ (by decide) (by decide)]
    exact Nat.mod_eq_of_lt hc

theorem modDied_shown : (s.modDied i).modu i = { s.modu i with dead := true, running := false, restart := false } ∧
    (s.modDied i).bit (mstat i) 13 = true ∧ (s.modDied i).bit (mstat i) 12 = false ∧
    (∀ j, j ≠ 12 → j ≠ 13 → (s.modDied i).bit (mstat i) j = s.bit (mstat i) j) ∧ (s.modDied i).axes = s.axes := by
  obtain ⟨hmodu, hval, haxes⟩ := showDead_shown (s := s) (i := i) true
  have hbit {j : Nat} (hj : j ≠ 12) : (s.modDied i).bit (mstat i) j = (s.setBit (mstat i) 13 true).bit (mstat i) j := by
    rw [State.modDied, State.bit_setBit_other _ _ _ _ _ _ (.inr hj), val_bit (by simpa using hval)]
  refine ⟨?_, (hbit (by decide)).trans (State.bit_setBit _ _ _ _ (by decide)), State.bit_setBit _ _ _ _ (by decide),
    fun j h12 h13 => (hbit h12).trans (State.bit_setBit_other _ _ _ _ _ _ (.inr h13)), by simpa [State.modDied] using haxes⟩
  exact (onMod_modu _).trans (by rw [hmodu])

/-- A failed check of a running modulator stops it where it is the fourth within 256 ticks; an overload suspends the stuck check alone (R341, R342). -/
theorem modFail_of_running (hrun : (s.modu i).running = true) (hd : (s.modu i).dead = false) (hc : cause = 1 → s.bit (mstat i) 10 = false) :
    s.modFail i cause = if 3 ≤ (s.modu i).fails.length then (s.modFailed i cause).modDied i else s.modFailed i cause := by
  have hfails : ¬ (!(s.modu i).running ∨ (s.modu i).dead ∨ (cause = 1 ∧ s.bit (mstat i) 10)) := by
    rw [hrun, hd]
    simpa using hc
  exact if_neg hfails

/-- What a failed check shows and leaves: flag and cause; a restart that waits, or from the fourth failure on a dead modulator. -/
theorem modFail_leaves (hrun : (s.modu i).running = true) (hd : (s.modu i).dead = false) (hc : cause = 1 → s.bit (mstat i) 10 = false) (hlt : cause < 8) :
    (s.modFail i cause).bit (mstat i) 15 = true ∧ (s.modFail i cause).fld (mstat i) 2 0 = cause ∧ (s.modFail i cause).axes = s.axes ∧
    (if (s.modu i).fails.length < 3 then
       ((s.modFail i cause).modu i).restart = true ∧ ((s.modFail i cause).modu i).running = true ∧ ((s.modFail i cause).modu i).dead = false
     else ((s.modFail i cause).modu i).restart = false ∧ ((s.modFail i cause).modu i).running = false ∧ ((s.modFail i cause).modu i).dead = true ∧
       (s.modFail i cause).bit (mstat i) 13 = true ∧ (s.modFail i cause).bit (mstat i) 12 = false) := by
  obtain ⟨hmodu, hflag, hcause, haxes⟩ := modFailed_shown (s := s) (i := i) hlt
  rw [modFail_of_running hrun hd hc]
  by_cases hfew : (s.modu i).fails.length < 3
  · rw [if_pos hfew, if_neg (by omega), hmodu]
    exact ⟨hflag, hcause, haxes, rfl, hrun, hd⟩
  · obtain ⟨hdied, h13, h12, hbits, hdaxes⟩ := modDied_shown (s := s.modFailed i cause) (i := i)
    rw [if_neg hfew, if_pos (by omega), hdied]
    exact ⟨(hbits 15 (by decide) (by decide)).trans hflag, (fld_of_bits (by decide) fun j _ hj => hbits j (by omega) (by omega)).trans hcause,
      hdaxes.trans haxes, rfl, rfl, rfl, h13, h12⟩

/-! ### MCLR (R366, R367) -/

/-- A word written under a full mask. -/
theorem fullMask_toNat (d : Word) : fullMask d.toNat = 0xFFFF#16 ++ d := by
  refine BitVec.eq_of_toNat_eq ?_
  have := d.isLt
  rw [toNat_append_eq_add, fullMask, BitVec.toNat_ofNat, BitVec.toNat_ofNat]
  omega

theorem locate_mclr : locate (modbA MODB.MCLR) = some ⟨rowMCLR, modbA MODB.MCLR, 0⟩ := by decide

/-- A word of MCLR, as the command of an accessor of a part that serves and that the worlds permit. -/
theorem awake_mclr (hr : s.ready = true) (hs : s.pow.shelf ≠ .shelf) (hv : s.violationOf acc (modbA MODB.MCLR) true = none) (hw : w < 2 ^ 16)
    (h : s.mclr w = (.done, t)) : s.awake (fun s => (s.busWrite acc (modbA MODB.MCLR) (fullMask w)).2) = t := by
  obtain ⟨d, rfl⟩ : ∃ d : Word, w = d.toNat := ⟨BitVec.ofNat 16 w, (BitVec.toNat_ofNat ..).trans (Nat.mod_eq_of_lt hw) |>.symm⟩
  have hstrobe : s.writeReg acc ⟨rowMCLR, modbA MODB.MCLR, 0⟩ (modbA MODB.MCLR) (0xFFFF#16).toNat d.toNat = s.mclr (d.toNat &&& 0xFFFF) := rfl
  rw [mask_and_full, h] at hstrobe
  rw [awake_of_ready hr hs, fullMask_toNat, busWrite_reg _ _ hr (by decide) (by decide) locate_mclr hv hstrobe]

/-- MCLR selects its modulator by bits 12:8; bit 1 restarts it and bit 0 clears its counts. -/
theorem mclr_selects (hw : w < 256) : s.mclr (i.val * 256 + w) =
    let r := if w.testBit 1 then s.modRestart i else (.done, s)
    if r.1 ≠ .done then r else (.done, if w.testBit 0 then r.2.modCountClear i else r.2) := by
  have hsel : fld (i.val * 256 + w) 12 8 = i.val := by unfold fld; omega
  have hbit {j : Nat} (hj : j < 8) : (i.val * 256 + w).testBit j = w.testBit j := by
    rw [Nat.mul_comm, show 256 = 2 ^ 8 from rfl, Nat.testBit_two_pow_mul_add _ hw, if_pos hj]
  simp only [State.mclr, hsel, i.isLt, dif_pos, hbit (j := 1) (by decide), hbit (j := 0) (by decide)]

/-- A dead modulator of an axis that is in OFF, MUTE or FAULT restarts (R367). -/
theorem modRestart_still (hd : (s.modu i).dead = true)
    (hstill : ∃ n k, s.modAxis i = some (n, k) ∧ (s.st n = .off ∨ s.st n = .mute ∨ s.st n = .fault)) : s.modRestart i = (.done, s.modRestarted i) := by
  obtain ⟨n, k, haxis, hst⟩ := hstill
  unfold State.modRestart
  extract_lets still
  have hs : still = true := by
    simp only [still, haxis]
    rcases hst with h | h | h <;> rw [h] <;> rfl
  rw [if_pos (by rw [hd, hs]; rfl), State.modRestarted]

/-- MCLR with bit 1 alone restarts its modulator. -/
theorem mclr_restart (hd : (s.modu i).dead = true)
    (hstill : ∃ n k, s.modAxis i = some (n, k) ∧ (s.st n = .off ∨ s.st n = .mute ∨ s.st n = .fault)) :
    s.mclr (i.val * 256 + 2) = (.done, s.modRestarted i) := by
  simp [mclr_selects, Nat.testBit_eq_decide_div_mod_eq, modRestart_still hd hstill]

/-- MCLR with bit 0 alone clears the counts of its modulator (R366). -/
theorem mclr_clear : s.mclr (i.val * 256 + 1) = (.done, s.modCountClear i) := mclr_selects (by decide)

theorem modRestarted_shown : ((s.modRestarted i).modu i).dead = false ∧ ((s.modRestarted i).modu i).restart = true ∧
    ((s.modRestarted i).modu i).fails = [] ∧ (s.modRestarted i).bit (mstat i) 13 = false ∧ (s.modRestarted i).axes = s.axes := by
  obtain ⟨hmodu, hval, haxes⟩ := showDead_shown (s := s) (i := i) false
  have hnew : (s.modRestarted i).modu i = { s.modu i with dead := false, restart := true, fails := [] } := (onMod_modu _).trans (by rw [hmodu])
  rw [hnew]
  exact ⟨rfl, rfl, rfl, (congrFun (val_bit (by simpa [State.modRestarted] using hval)) 13).trans (State.bit_setBit _ _ _ _ (by decide)),
    by simpa [State.modRestarted] using haxes⟩

theorem modCountClear_leaves : (s.modCountClear i).rd (modBase i + MOD.FAILCNT) = 0 ∧ (s.modCountClear i).rd (modBase i + MOD.SATCNT) = 0 ∧
    (s.modCountClear i).axes = s.axes ∧ (s.modCountClear i).mods = s.mods :=
  ⟨(State.rd_wr_other _ _ _ _ (offset_ne (by decide))).trans (State.rd_wr _ _ _ (by decide)), State.rd_wr _ _ _ (by decide), rfl, rfl⟩

end

/-- Settles O36: an interval by what its end publishes, a failed check by whether it is the fourth, a word of MCLR by the bit that it sets. -/
theorem modulators : Obligations.Modulators := by
  unfold Obligations.Modulators
  intro i s
  refine ⟨fun ha => ⟨fun v hrun hd hstate hclock => ?_, fun why hrun hd hstuck => ?_⟩, fun acc hr hs hv => ⟨fun hd hstill => ?_, ?_⟩⟩
  · have h := closeInterval_closes hrun hd hstate hclock
    exact ⟨_, congrArg Host.Outcome.next (awake_of_not_asleep ha _), ⟨h.joined, h.marked⟩, h.start, h.clean, h.overload, h.samples, h.axes⟩
  · have hc : why.val + 1 = 1 → s.bit (mstat i) 10 = false := fun h => hstuck (Fin.ext (by simpa using h))
    exact ⟨_, congrArg Host.Outcome.next (awake_of_not_asleep ha _), modFail_leaves hrun hd hc (by omega)⟩
  · exact ⟨_, congrArg Host.Outcome.next (awake_mclr hr hs hv (by omega) (mclr_restart hd hstill)), modRestarted_shown⟩
  · exact ⟨_, congrArg Host.Outcome.next (awake_mclr hr hs hv (by omega) mclr_clear), modCountClear_leaves⟩

end Sys2Proof.Machine
end

section
/-! PROOF. The converters: conversions of entries and of urgent requests, and the commands of ACMD, and the settlement of O37. -/

namespace Sys2Proof.Machine

/-- The sample that converter `c` in its normal role takes of the next entry of its sequence, with code `x` (R345, R354). -/
def State.entrySample (s : State) (c : Fin 2) (x : Int) : Sample :=
  let e := (s.adcs[c]).pos % (s.seqOf c).length
  let inp := entInput (((s.seqOf c)[e]?).getD 0)
  { kind := c.val, e := e, input := inp, x := clampI x (-8192) 8191,
    settle := (s.adcs[c]).young.any (fun y => y.1 == c.val * 32 + e) || s.inputSettling inp, age := s.inputAge inp - 39 }

/-- Converter `c` in its normal role holds the sample of its next entry, and its sequence moves one entry on (R345, R350). -/
def State.entryTaken (s : State) (c : Fin 2) (x : Int) : State :=
  let q := s.entrySample c x
  s.onAdc c (fun a => { a with
    held := a.held ++ [q], young := takeYoung a.young (c.val * 32 + q.e), idx := a.idx + 1, slotAt := a.slotAt + 40, slots := a.slots + 1,
    pos := (q.e + 1) % (s.seqOf c).length })

/-- The sample that converter `c` takes for an urgent request (R352, R353). -/
def State.urgentSample (s : State) (host : Bool) (k : Nat) (x : Int) : Sample :=
  let inp := if host then k else 16 + k
  { kind := if host then 3 else 2, e := k, input := inp, x := clampI x (-8192) 8191, settle := s.inputSettling inp, age := 0 }

/-- Converter `c` has taken the host's request for `inp`, whose reserve item is asked for (R353). -/
def State.urgentTaken (s : State) (c : Fin 2) (inp acc : Nat) : State :=
  ((s.urgentAdd c (true, inp)).onAdc c (fun a => { a with hostTaken := true, hostAcc := acc })).request (20 + c) 2 60

/-- Converter `c` is offline and empty, and the other one is the survivor (R359, R361). -/
def State.takenOffline (s : State) (c : Fin 2) : State :=
  ((s.setFld (astat c) 15 14 3).adcEmpty c (some (otherAdc c))).failover (otherAdc c)

/-- From `s` to `t` the roles of the converters and the axes stay. -/
structure AdcRolesKept (s t : State) : Prop where
  role : ∀ c, t.adcRole c = s.adcRole c
  axes : t.axes = s.axes

section
variable {s t u : State} {b c : Fin 2} {o v k : Nat} {acc : Fin 15} {x : Int}

/-! ### A converter and its registers -/

@[simp] theorem onAdc_adc (f : Adc → Adc) : (s.onAdc c f).adcs[c] = f s.adcs[c] := vupd_same ..

@[simp] theorem showQueue_adcs : (s.showQueue c).adcs = s.adcs := rfl

theorem otherAdc_ne (c : Fin 2) : otherAdc c ≠ c := by revert c; decide

/-- The registers of a converter lie among those of the engines. -/
theorem adcReg_hi (k o : Nat) : 0x080000 ≤ adcBase k + o := by unfold adcBase; omega

theorem astat_hi (c : Fin 2) : 0x080000 ≤ astat c := adcReg_hi c ADC.ASTAT

/-- ASTAT is the first register of a converter. -/
theorem astat_ne (c : Fin 2) (hlo : 0 < o) (hhi : o < 0x1000) : astat c ≠ adcBase k + o := by
  simp only [astat, adcBase, ADC.ASTAT]
  omega

theorem astat_inj (h : b ≠ c) : astat b ≠ astat c := by
  have hval : b.val ≠ c.val := fun e => h (Fin.ext e)
  simp only [astat, adcBase, ADC.ASTAT]
  omega

theorem adcRole_setFld (hv : v < 4) : (s.setFld (astat c) 15 14 v).adcRole c = v :=
  (s.fld_setFld (astat c) v (by decide) (by decide)).trans (Nat.mod_eq_of_lt hv)

/-! ### What keeps the roles -/

theorem AdcRolesKept.refl : AdcRolesKept s s := ⟨fun _ => rfl, rfl⟩

theorem AdcRolesKept.trans (h : AdcRolesKept s t) (g : AdcRolesKept t u) : AdcRolesKept s u :=
  ⟨fun c => (g.role c).trans (h.role c), g.axes.trans h.axes⟩

theorem adcRolesKept_overList {A : Type} {l : List A} {f : State → A → State} (h : ∀ a ∈ l, ∀ s, AdcRolesKept s (f s a)) :
    AdcRolesKept s (overList l f s) := by
  induction l generalizing s with
  | nil => exact .refl
  | cons a l ih => exact (h a List.mem_cons_self s).trans (ih fun b hb => h b (List.mem_cons_of_mem _ hb))

/-- A converter's registers but ASTAT do not tell its role. -/
theorem wr_adcRolesKept (hlo : 0 < o) (hhi : o < 0x1000) : AdcRolesKept s (s.wr (adcBase k + o) v) :=
  ⟨fun c => val_fld ((State.val_wr ..).trans (if_neg (astat_ne c hlo hhi))) 15 14, rfl⟩

/-- The flags of ASTAT lie below its role. -/
theorem flag_adcRolesKept (hk : k < 14) : AdcRolesKept s (s.flag (astat c) k) := by
  refine ⟨fun d => ?_, by simp⟩
  by_cases h : d = c
  · subst h
    exact fld_of_bits (by decide) fun j hj _ => flag_other_bit_hi (by omega) (by omega) (astat_hi d)
  · exact val_fld (flag_hi _ (by omega) (astat_inj h) (astat_hi d)) 15 14

theorem replaced_adcRolesKept (r : Nat) : AdcRolesKept s (s.replaced r) := ⟨fun _ => rfl, rfl⟩

theorem onAdc_adcRolesKept (f : Adc → Adc) : AdcRolesKept s (s.onAdc c f) := ⟨fun _ => rfl, rfl⟩

/-- A sample that is discarded writes its result register and counts, or its request is asked for again (R360). -/
theorem discardOne_adcRolesKept {q : Sample} (he : q.e < 32) : AdcRolesKept s (s.discardOne c q) := by
  unfold State.discardOne
  split
  · exact onAdc_adcRolesKept _
  · exact onAdc_adcRolesKept _
  · extract_lets r n
    have hres : AdcRolesKept s (s.wr r (s.rd r % 65536 + (n + 16384) * 65536)) := by
      simp only [r, Nat.add_assoc]
      exact wr_adcRolesKept (by simp only [ADC.RES]; omega) (by simp only [ADC.RES]; omega)
    have hcount (u : State) : AdcRolesKept u (u.bump (adcBase c + ADC.DISCCNT)) := wr_adcRolesKept (by decide) (by decide)
    exact (hres.trans (replaced_adcRolesKept r)).trans ((hcount _).trans (flag_adcRolesKept (by decide)))

theorem showQueue_adcRolesKept : AdcRolesKept s (s.showQueue c) := wr_adcRolesKept (by decide) (by decide)

theorem adcEmpty_adcRolesKept {heir : Option (Fin 2)} (h : ∀ q ∈ (s.adcs[c]).held, q.e < 32) : AdcRolesKept s (s.adcEmpty c heir) := by
  unfold State.adcEmpty
  extract_lets l s1
  have hdiscard : AdcRolesKept s s1 :=
    (onAdc_adcRolesKept _).trans (adcRolesKept_overList fun q hq _ => discardOne_adcRolesKept (h q hq))
  split
  · exact (hdiscard.trans (.trans (onAdc_adcRolesKept _) (onAdc_adcRolesKept _))).trans (showQueue_adcRolesKept.trans showQueue_adcRolesKept)
  · exact hdiscard.trans showQueue_adcRolesKept

/-! ### Conversions (R345, R352) -/

/-- A completed conversion of an entry that is no reference, by a converter in its normal role, takes that entry. -/
theorem sarSlot_entry (himg : s.img.active = true) (hrole : s.adcRole c = 0) (hseq : s.seqOf c ≠ [])
    (href : entInput (((s.seqOf c)[(s.adcs[c]).pos % (s.seqOf c).length]?).getD 0) ≠ 63) : s.sarSlot c (some x) = s.entryTaken c x := by
  simp [-Fin.getElem_fin, State.sarSlot, himg, hrole, hseq, href, State.entryTaken, State.entrySample]

/-- An urgent conversion serves the oldest request. -/
theorem urgentSlot_oldest {host : Bool} {tl : List (Bool × Nat)} (hq : (s.adcs[c]).queue = (host, k) :: tl) (hrole : s.adcRole c < 2) :
    s.urgentSlot c x = (s.onAdc c (fun a => { a with
      queue := tl, held := a.held ++ [s.urgentSample host k x], slotAt := a.slotAt + 40, slots := a.slots + 1 })).showQueue c := by
  simp [-Fin.getElem_fin, State.urgentSlot, hq, hrole.not_ge, State.urgentSample]

/-! ### Commands of ACMD (R353, R361, R370) -/

theorem mem_insertItem (y : Item) (l : List Item) : y ∈ insertItem y l := by
  induction l with
  | nil => exact List.mem_singleton_self y
  | cons z l ih =>
    unfold insertItem
    split
    · exact List.mem_cons_self
    · exact List.mem_cons_of_mem _ ih

/-- A request joins the queue of its converter, whose length UPEND shows. -/
theorem urgentAdd_joins {q : Bool × Nat} (hroom : (s.adcs[c]).queue.length < 4) : ((s.urgentAdd c q).adcs[c]).queue = (s.adcs[c]).queue ++ [q] ∧
    (s.urgentAdd c q).rd (adcBase c + ADC.UPEND) = (s.adcs[c]).queue.length + 1 ∧ (s.urgentAdd c q).axes = s.axes := by
  unfold State.urgentAdd
  extract_lets a runs abort s1
  have hqueue : (s1.adcs[c]).queue = (s.adcs[c]).queue ++ [q] := congrArg Adc.queue (onAdc_adc _)
  have hbumped {v : State} (hv : v.adcs = s1.adcs) (hx : v.axes = s.axes) : ((v.showQueue c).adcs[c]).queue = (s.adcs[c]).queue ++ [q] ∧
      (v.showQueue c).rd (adcBase c + ADC.UPEND) = (s.adcs[c]).queue.length + 1 ∧ (v.showQueue c).axes = s.axes := by
    refine ⟨by rw [showQueue_adcs, hv, hqueue], ?_, hx⟩
    rw [State.showQueue, hv, hqueue, List.length_append]
    exact State.rd_wr _ _ _ (by rw [List.length_singleton]; omega)
  split
  · exact hbumped (by simp) (by simp [s1])
  · exact hbumped rfl (by simp [s1])

/-- URGENT of an input that the converter has, the first in its tick and with room in the queue (R353). -/
theorem adcCommand_urgent {inp : Nat} (hrole : s.adcRole c < 2) (hin : inp < 49 ∨ (57 < inp ∧ inp < 64)) (hfree : (s.adcs[c]).hostTaken = false)
    (hroom : (s.adcs[c]).queue.length < 4) : s.adcCommand c 1 inp acc = s.urgentTaken c inp acc := by
  have hrange : ¬ (64 ≤ inp ∨ (49 ≤ inp ∧ inp ≤ 57)) := by omega
  simp [-Fin.getElem_fin, State.adcCommand, State.adcCmd, hrole.not_ge, hrange, hfree, hroom.not_ge, State.urgentTaken]

/-- RECHECK of a converter that is out. -/
theorem adcCommand_recheck (hrole : 2 ≤ s.adcRole c) : s.adcCommand c 2 0 acc = s.onAdc c (fun a => { a with recheck := true }) := by
  simp [State.adcCommand, State.adcCmd, hrole.not_gt]

/-- OFFLINE while both converters are in their normal role. -/
theorem adcCommand_offline (hrole : s.adcRole c = 0) (hother : s.adcRole (otherAdc c) = 0) :
    s.adcCommand c 3 0 acc = (s.takenOffline c).cmdstat (adcBase c + ADC.ACMDSTAT) (32 + c) 3 .done := by
  simp [State.adcCommand, State.adcCmd, hrole, hother, State.takenOffline, State.finish]

/-- The end of a recheck that runs: the converter rejoins at the next edge, or ACMDSTAT shows LOCKED (R361). -/
theorem recheckEnd_ends {ok : Bool} (h : (s.adcs[c]).recheck = true) : s.recheckEnd c ok =
    if ok then s.onAdc c (fun a => { a with recheck := false, rejoin := ok })
    else (s.onAdc c (fun a => { a with recheck := false, rejoin := ok })).cmdstat (adcBase c + ADC.ACMDSTAT) (32 + c) 2 .locked :=
  if_neg (by simp [-Fin.getElem_fin, h])

/-- The completion of a command of ACMD as ACMDSTAT shows it. -/
theorem cmdstat_acmdstat {op : Nat} {st : Status} (ho : op < 256) :
    (s.cmdstat (adcBase c + ADC.ACMDSTAT) (32 + c) op st).rd (adcBase c + ADC.ACMDSTAT) = op * 256 + st.code := by
  have hst : st.code < 12 := by cases st <;> decide
  exact (val_rd (irq_hi _ (by omega) (adcReg_hi c _))).trans (State.rd_wr _ _ _ (by omega))

theorem cmdstat_adcRolesKept {op : Nat} {st : Status} : AdcRolesKept s (s.cmdstat (adcBase c + ADC.ACMDSTAT) (32 + c) op st) :=
  .trans (wr_adcRolesKept (o := ADC.ACMDSTAT) (v := op * 256 + st.code) (by decide) (by decide))
    ⟨fun d => val_fld (irq_hi _ (by omega) (astat_hi d)) 15 14, by simp⟩

/-- The roles that failover leaves: `b` survives, the other stays as it is. -/
theorem failover_roles (h : c ≠ b) : (s.failover b).adcRole b = 1 ∧ (s.failover b).adcRole c = s.adcRole c ∧ ((s.failover b).adcs[b]).adopt = 0 ∧
    (s.failover b).axes = s.axes := by
  have hval : (s.failover b).val = (s.setFld (astat b) 15 14 1).val := congrArg (spGet resetOf) (by simp [State.failover])
  refine ⟨?_, ?_, by simp [State.failover], by simp [State.failover]⟩
  · have hrole : (s.setFld (astat b) 15 14 1).adcRole b = 1 := adcRole_setFld (by decide)
    exact (val_fld (congrFun hval _) 15 14).trans hrole
  · exact val_fld ((congrFun hval _).trans (State.setFld_same _ (astat_inj h))) 15 14

/-- OFFLINE leaves its converter offline, and the other one as the survivor at the start of the adopted sequence. -/
theorem takenOffline_roles (h : ∀ q ∈ (s.adcs[c]).held, q.e < 32) : (s.takenOffline c).adcRole c = 3 ∧ (s.takenOffline c).adcRole (otherAdc c) = 1 ∧
    ((s.takenOffline c).adcs[otherAdc c]).adopt = 0 ∧ (s.takenOffline c).axes = s.axes := by
  have hempty := adcEmpty_adcRolesKept (s := s.setFld (astat c) 15 14 3) (c := c) (heir := some (otherAdc c)) (by simpa using h)
  obtain ⟨hsurvivor, hout, hadopt, haxes⟩ := failover_roles (s := (s.setFld (astat c) 15 14 3).adcEmpty c (some (otherAdc c))) (otherAdc_ne c).symm
  exact ⟨(hout.trans (hempty.role c)).trans (adcRole_setFld (by decide)), hsurvivor, hadopt, haxes.trans (hempty.axes.trans (by simp))⟩

end

/-- Settles O37: conversions by the sample that they take, commands of ACMD by their judgement and by the roles that they leave. The place
20 + c of the host's reserve item is the model's choice (log 48). -/
theorem converters : Obligations.Converters := by
  unfold Obligations.Converters
  intro c s ha
  have awake (f : State → State) : s.awake f = f s := awake_of_not_asleep ha f
  refine ⟨?_, fun x host k tl hq hrole => ?_, fun acc inp hrole hin hfree hroom => ?_, fun acc hrole => ?_,
    fun ok hrun => ?_, fun acc hrole hother hheld => ?_⟩
  · intro x e himg hrole hseq href
    have hadc : (s.entryTaken c x).adcs[c] = _ := onAdc_adc _
    refine ⟨_, congrArg Host.Outcome.next ((awake _).trans (sarSlot_entry himg hrole hseq href)), ?_⟩
    rw [hadc]
    exact ⟨⟨s.entrySample c x, rfl, rfl, rfl, rfl, rfl, rfl⟩, rfl, rfl, rfl, rfl, rfl⟩
  · refine ⟨_, congrArg Host.Outcome.next ((awake _).trans (urgentSlot_oldest hq hrole)), ?_⟩
    rw [showQueue_adcs, onAdc_adc]
    exact ⟨rfl, ⟨s.urgentSample host k x, rfl, rfl, rfl, rfl, rfl⟩, rfl, rfl, rfl⟩
  · obtain ⟨hqueue, hpend, haxes⟩ := urgentAdd_joins (s := s) (c := c) (q := (true, inp.toNat)) hroom
    refine ⟨_, congrArg Host.Outcome.next ((awake _).trans (adcCommand_urgent hrole hin hfree hroom)), ?_⟩
    have hadc : (s.urgentTaken c inp.toNat acc).adcs[c] = _ := onAdc_adc _
    rw [hadc]
    exact ⟨hqueue, rfl, rfl, mem_insertItem _ _, hpend, haxes⟩
  · exact ⟨_, congrArg Host.Outcome.next ((awake _).trans (adcCommand_recheck hrole)), onAdc_adc _, rfl, rfl⟩
  · refine ⟨_, congrArg Host.Outcome.next ((awake _).trans (recheckEnd_ends hrun)), ?_⟩
    cases ok with
    | true => exact ⟨onAdc_adc _, rfl, rfl⟩
    | false => exact ⟨by simp, cmdstat_acmdstat (by decide), by simp⟩
  · obtain ⟨hout, hsurvivor, hadopt, haxes⟩ := takenOffline_roles fun q hq => (hheld q hq).2
    have hkept := cmdstat_adcRolesKept (s := s.takenOffline c) (c := c) (op := 3) (st := .done)
    refine ⟨_, congrArg Host.Outcome.next ((awake _).trans (adcCommand_offline hrole hother)), (hkept.role c).trans hout,
      (hkept.role _).trans hsurvivor, cmdstat_acmdstat (by decide), by simpa using hadopt, hkept.axes.trans haxes⟩

end Sys2Proof.Machine
end

section
/-! PROOF. What a step is, the canonical form that every step keeps, what reset leaves, and the settlement of O1, O2, O4, O5 and O45. -/

namespace Sys2Proof.Machine

/-- Settles O1. -/
theorem stepTakesFront : Obligations.StepTakesFront := by
  intro c rest s
  rfl

theorem step_of_no_command {s : State} (h : s.pending = []) : step s = .next s.idle := by
  unfold step
  rw [h]

theorem idle_of_held {s : State} (h : s.pow.inReset = true ∨ s.pow.shelf = .shelf) : s.idle = s := if_pos h

/-- Settles O2: an empty queue is the clock, and the clock does nothing in reset or in the shelf state (log 3). -/
theorem idleStepAnswers : Obligations.IdleStepAnswers := by
  intro s hq
  have hstep := step_of_no_command hq
  exact ⟨⟨s.idle, hstep⟩, fun h => hstep.trans (congrArg Host.Outcome.next (idle_of_held h))⟩

/-- Settles O4: each of the four stores is closed, and so is the check of its form. -/
theorem resetStateIsCanon : Obligations.ResetStateIsCanon :=
  ⟨by decide, by decide, by decide, by decide⟩

theorem Keeps.canon {s t : State} (h : Keeps s t) (hs : s.Canon) : t.Canon :=
  ⟨h.regs hs.regs, h.path hs.path, h.hist hs.hist, h.ecc hs.ecc⟩

/-- Settles O5: the clock by `State.idle_canon`, a command by `exec_keeps`, and taking the command off the queue touches no store. -/
theorem everyStepKeepsCanon : Obligations.EveryStepKeepsCanon := by
  intro s t hs h
  cases hq : s.pending with
  | nil =>
    rw [step_of_no_command hq] at h
    exact Host.Outcome.next.inj h ▸ State.idle_canon hs
  | cons c rest =>
    have hk : KeepsO { s with pending := rest } (exec c { s with pending := rest }) := exec_keeps c _
    have hexec : exec c { s with pending := rest } = .next t := by
      rw [← h]
      unfold step
      rw [hq]
    rw [hexec] at hk
    exact hk.canon ⟨hs.regs, hs.path, hs.hist, hs.ecc⟩

theorem reset_octhr (u : Fin 40) : State.reset.rd (unitBase u + PU.OCTHR) = 0x0030 := by
  decide +revert

theorem pathWord_nil (a : Nat) : pathWord [] a = 0 := by
  have hbyte (b : Nat) : pathByte [] b = 0 := rfl
  simp only [pathWord, hbyte]
  decide

/-- Settles O45: the registers of `State.reset` but RSTCAUSE stand at the reset values of their rows, and the rest of it is closed. What
reset is (log 32), with the clear of path memory still to run (log 41), is the model's choice. -/
theorem resetValues : Obligations.ResetValues := by
  unfold Obligations.ResetValues
  refine ⟨by decide, pathWord_nil, rfl, rfl, by decide, rfl, by decide, rfl, by decide, reset_octhr, by decide, by decide, by decide⟩

end Sys2Proof.Machine
end

section
/-! PROOF. What a reset leaves, the requests and the accesses of the JTAG port, and the settlement of O47. -/

namespace Sys2Proof.Machine

section
variable {s : State}

/-! ### The entry into a reset (R545, R555, R558) -/

/-- `t` is in a reset that `cause` has begun or joined, with its axes as they start. -/
structure InReset (cause : Nat) (t : State) : Prop where
  inReset : t.pow.inReset = true
  cause : t.pow.causes.testBit cause = true
  axes : t.axes = State.blank.axes

theorem testBit_or_two_pow (x i : Nat) : (x ||| 2 ^ i).testBit i = true := by simp [Nat.testBit_two_pow_self]

theorem enterReset_inReset (s : State) (cause : Nat) (cold lost : Bool) : InReset cause (s.enterReset cause cold lost) := by
  refine ⟨rfl, ?_, rfl⟩
  show (if s.pow.inReset then s.pow.causes ||| 2 ^ cause else 2 ^ cause).testBit cause = true
  split
  · exact testBit_or_two_pow _ _
  · exact Nat.testBit_two_pow_self

theorem InReset.bfCsDriven {cause : Nat} (h : InReset cause s) : s.bfCsDriven = false := by
  simp [State.bfCsDriven, State.asleep, h.inReset]

/-! ### The instructions (R532, R533) -/

theorem tapOn_of_awake (h : s.pow.shelf ≠ .shelf) : s.tapOn = true := by simpa [State.tapOn] using h

theorem instr_reset {code : Nat} (h : s.tapOn = true) (hc : holdsReset code = true) :
    s.instr code true = (s.onPow fun p => { p with ir := code }).enterReset 9 false false := by
  simp [State.instr, h, hc]

theorem instr_plain {code : Nat} {ok : Bool} (h : s.tapOn = true) (hc : holdsReset (if ok then code else 0xFF) = false) :
    s.instr code ok = s.onPow fun p => { p with ir := if ok then code else 0xFF } := by
  simp [State.instr, h, hc]

/-! ### A debug halt (R215, R534, R536) -/

theorem setOuts_uf (edge : Bool) : UF s (s.setOuts edge) := uf_overList (fun t u => setOut_uf t u edge) s

theorem debugHalt_stage : s.debugHalt.stage.halt = true := by
  unfold State.debugHalt
  rw [(setOuts_uf false).stage]
  rfl

theorem debugHalt_kept : s.debugHalt.pow = s.pow ∧ s.debugHalt.axes = s.axes := by
  unfold State.debugHalt
  exact ⟨(setOuts_uf false).pow, (setOuts_uf false).axes⟩

/-- Every axis is committed, so that the tick in which the sequencer has stood overblows none (R215). -/
def State.committedAll (s : State) : State :=
  overList allAxes (fun s n => s.onAx n (fun a => { a with ctl := { a.ctl with committed := true } })) s

theorem committedAll_kept : s.committedAll.pow = s.pow ∧ s.committedAll.stage = s.stage :=
  ⟨overList_const (g := State.pow) fun _ _ => rfl, overList_const (g := State.stage) fun _ _ => rfl⟩

theorem debugResume_of_halt (h : s.stage.halt = true) :
    s.debugResume = ((s.onStage fun g => { g with halt := false }).committedAll).setOuts false := if_neg (by simp [h])

theorem debugResume_stage : s.debugResume.stage.halt = false := by
  cases h : s.stage.halt with
  | false => rwa [State.debugResume, if_pos (by simp [h])]
  | true =>
    rw [debugResume_of_halt h, (setOuts_uf false).stage, committedAll_kept.2]
    rfl

theorem debugResume_pow : s.debugResume.pow = s.pow := by
  cases h : s.stage.halt with
  | false => rw [State.debugResume, if_pos (by simp [h])]
  | true =>
    rw [debugResume_of_halt h, (setOuts_uf false).pow, committedAll_kept.1]
    rfl

theorem dbgResult_kept (st : Status) (v : BitVec 32) (n : Nat) :
    (s.dbgResult st v n).pow = { s.pow with ir := 0x11, dbgStatus := st.code, dbgData := v } ∧ (s.dbgResult st v n).path = s.path ∧
      (s.dbgResult st v n).regs = s.regs ∧ (s.dbgResult st v n).axes = s.axes := ⟨rfl, rfl, rfl, rfl⟩

end

section
variable {s : State}

/-! ### The requests (R534, R536) -/

theorem haltReq_taken (h : s.tapOn = true) (hg : s.dbgGate = true) (hq : s.pow.haltReq = false) :
    s.haltReq true = (s.onPow fun p => { p with ir := 0x10, haltReq := true }).debugHalt := by
  simp [State.haltReq, h, hg, hq, State.onPow]

theorem haltReq_withdrawn (h : s.tapOn = true) : (s.haltReq false).pow = { s.pow with ir := 0x10, haltReq := false } ∧
    (s.pow.haltReq = true → (s.haltReq false).stage.halt = false) := by
  unfold State.haltReq
  extract_lets s1 s2
  rw [if_neg (by simp [h]), if_neg Bool.false_ne_true]
  split
  next => exact ⟨debugResume_pow, fun _ => debugResume_stage⟩
  next hn => exact ⟨rfl, fun hreq => show s.stage.halt = false by simpa [hreq] using hn⟩

theorem rstReq_taken (h : s.tapOn = true) (hg : s.dbgGate = true) :
    s.rstReq true = (s.onPow fun p => { p with ir := 0x10, rstReq := true }).enterReset 9 false false := by
  simp [State.rstReq, h, hg, State.onPow]

theorem rstReq_withdrawn (h : s.tapOn = true) : s.rstReq false = s.onPow fun p => { p with ir := 0x10, rstReq := false } := by
  simp [State.rstReq, h, State.onPow]

theorem tapReset_kept : s.tapReset.pow = { s.pow with ir := 2, haltReq := false, rstReq := false } ∧
    (s.pow.haltReq = true → s.tapReset.stage.halt = false) := by
  unfold State.tapReset
  split
  next => exact ⟨congrArg (fun p : Power => { p with ir := 2, haltReq := false, rstReq := false }) debugResume_pow, fun _ => debugResume_stage⟩
  next hn => exact ⟨rfl, fun hreq => by simpa [hreq] using hn⟩

/-! ### Its accesses (R535) -/

variable {a : Nat}

theorem dbgRead_path (h : s.tapOn = true) (hr : s.ready = true) (h4 : a % 4 = 0) (hlo : pathLo ≤ a) (hhi : a < 0x500000)
    (hv : s.violationOf jtagAcc a false = none) (hu : ∀ u ∈ s.flt.upsets, u.store ≠ .path) :
    s.dbgRead a = State.dbgResult .done (pathWord s.path a) 1 s := by
  simp [State.dbgRead, h, readFull_path hr h4 hlo hhi hv hu, Status.ends]

theorem dbgWrite_path (w : BitVec 32) (h : s.tapOn = true) (hr : s.ready = true) (h4 : a % 4 = 0) (hlo : pathLo ≤ a) (hhi : a < 0x500000)
    (hv : s.violationOf jtagAcc a true = none) : s.dbgWrite a w = State.dbgResult .done 0 1 (s.pathPut a w) := by
  simp [State.dbgWrite, h, busWrite_path w hr h4 hlo hhi hv, Status.ends]

end

/-- Settles O47: an instruction, a request or an access of the port, each by the one part of the state that it moves. That a row of DBG leaves
its own instruction, and that an access is complete at once, are the model's choices (log 34). -/
theorem jtagPort : Obligations.JtagPort := by
  unfold Obligations.JtagPort
  refine ⟨fun s hs => ?_, fun s => ⟨_, rfl, tapReset_kept⟩⟩
  have htap := tapOn_of_awake hs
  have next {t u : State} (h : t = u) : (Host.Outcome.next t : Host.Outcome State Fault Refusal) = .next u := congrArg _ h
  refine ⟨?_, next (instr_plain htap rfl), next (instr_plain htap rfl), next (instr_plain htap rfl), next (instr_plain htap rfl),
    next (instr_plain htap rfl), fun cells => ⟨?_, ?_⟩, fun hgate hreq => ?_, ⟨_, rfl, haltReq_withdrawn htap⟩, fun hgate => ?_,
    next (rstReq_withdrawn htap), fun hready a h4 hlo hhi => ⟨fun hv hu => ?_, fun w hv => ?_⟩⟩
  · intro held
    have reset {code : Nat} (hc : holdsReset code = true) : held (s.instr code true) code := by
      rw [instr_reset htap hc]
      have h := enterReset_inReset (s.onPow fun p => { p with ir := code }) 9 false false
      exact ⟨rfl, h.inReset, h.cause, h.axes⟩
    exact ⟨⟨_, rfl, reset rfl⟩, ⟨_, rfl, reset rfl⟩, ⟨_, rfl, reset rfl⟩⟩
  · refine next ?_
    rw [if_pos ⟨htap, rfl⟩, instr_plain htap rfl]
    rfl
  · refine next ?_
    rw [if_neg (by simp), instr_plain htap rfl]
    rfl
  · refine ⟨_, next (haltReq_taken htap hgate hreq), debugHalt_kept.1, debugHalt_stage, debugHalt_kept.2⟩
  · have h := enterReset_inReset (s.onPow fun p => { p with ir := 0x10, rstReq := true }) 9 false false
    exact ⟨_, next (rstReq_taken htap hgate), rfl, h.inReset, h.cause, h.axes⟩
  · obtain ⟨hpow, hpath, hregs, haxes⟩ := dbgResult_kept (s := s) .done (pathWord s.path a.toNat) 1
    exact ⟨_, next (dbgRead_path htap hready h4 hlo hhi hv hu), hpow, hpath, hregs, haxes⟩
  · refine ⟨_, next (dbgWrite_path w htap hready h4 hlo hhi hv), ?_⟩
    rw [pathPut_rest]
    exact dbgResult_kept (s := { s with path := _, flt := _ }) .done 0 1

end Sys2Proof.Machine
end

section
/-! PROOF. The key words, the shelf state, the resets and their release, and the settlement of O48. -/

namespace Sys2Proof.Machine

/-- A table whose entries are kept by their key. -/
theorem spGet_filter {V : Type} (d : Nat → V) (p : Nat → Bool) (m : List (Nat × V)) (a : Nat) :
    spGet d (m.filter (fun e => p e.1)) a = if p a then spGet d m a else d a := by
  induction m with
  | nil => simp [spGet]
  | cons e m ih =>
    by_cases he : a = e.1 <;> cases hp : p e.1 <;> simp_all [spGet]

section
variable {s : State} {acc : Fin 15}

/-! ### The key words (R546, R564, R565) -/

theorem keyWord_allowed (hr : s.ready = true) (hm : s.mayAccess acc 55 = true) (f : State → Status × State) : s.keyWord acc f = f s := by
  simp [State.keyWord, hr, hm]

theorem rstKey_other {m d : Word} (h : ¬ (m = 0xFFFF#16 ∧ d = 0x5A5A#16)) : s.rstKey m.toNat d.toNat = (.range, s) :=
  if_neg fun ⟨hm, hd⟩ => h ⟨BitVec.eq_of_toNat_eq hm, BitVec.eq_of_toNat_eq hd⟩

theorem testStart_kept (c : Nat) : (s.testStart c).pow = s.pow ∧ (s.testStart c).img = s.img := by
  unfold State.testStart
  split
  · exact ⟨rfl, rfl⟩
  · dsimp only
    split <;> exact ⟨rfl, rfl⟩

/-- The entry begins with step 1, or with step 2 where there is no image and nothing to test (R565). -/
theorem shelfEnter_begins (h : s.pow.shelf = .running) :
    s.shelfEnter.pow.shelf = .testing ∨ (s.img.active = false ∧ s.shelfEnter.pow.shelf = .leaving 40000) := by
  unfold State.shelfEnter
  extract_lets s1 s2
  rw [if_neg (by simp [State.shelving, h])]
  have htest (t : State) (i : Nat) (b : Bool) : (if b then t.testStart i else t).pow = t.pow ∧ (if b then t.testStart i else t).img = t.img := by
    cases b
    · exact ⟨rfl, rfl⟩
    · exact testStart_kept i
  have hpow : s2.pow = s1.pow := overList_const (g := State.pow) fun t i => (htest t _ _).1
  have himg : s2.img = s1.img := overList_const (g := State.img) fun t i => (htest t _ _).2
  split
  next hleave =>
    have hactive : s2.img.active = false := by simpa using hleave.2
    exact .inr ⟨(congrArg Image.active himg).symm.trans hactive, shelfLeave_leaving⟩
  next => exact .inl (congrArg Power.shelf hpow)

/-! ### Steps 3 and 4 (R565, R568) -/

theorem TbMove.pow {l : List Nat} {t : State} (h : TbMove l s t) : t.pow = s.pow := (congrArg State.pow h.rest :)

theorem tbPortDown_move {l : List Nat} (hl : fltA FLT.CONT ∈ l) (p : Fin 2) (both : Bool) : TbMove l s (s.tbPortDown p both) :=
  tbMove_ite (tbMove_ite (tbTo_move hl _ (onTim_move .refl)) (onTim_move .refl))
    (tbMove_ite (onTim_move .refl) (tbLost_move hl (onTim_move .refl)))

theorem linkDown_pow (p : Fin 2) (cause : Nat) (rf : Bool) : (s.linkDown p cause rf).pow = s.pow := by
  unfold State.linkDown
  extract_lets s0 s1 s2 s3 s4
  have h0 : s0.pow = s.pow := by
    by_cases hc : cause = 1 <;> simp [s0, hc]
  have h1 : s1.pow = s.pow := by
    by_cases hc : cause = 3 <;> simp [s1, hc, h0]
  have h2 : s2.pow = s.pow := by simpa [s2] using h1
  split
  · exact h2
  · exact (tbPortDown_move (l := [fltA FLT.CONT]) (by simp) _ _).pow.trans (by simpa [s4, s3] using h2)

/-- Only the always-on domain is left, in reset: the axes as they start, and path memory gone. -/
theorem toShelf_left : s.toShelf.pow.inReset = true ∧ s.toShelf.axes = State.blank.axes ∧ s.toShelf.path = [] ∧
    (s.pow.wakeBits = 0 → s.toShelf.pow.shelf = .shelf) ∧ (s.pow.wakeBits ≠ 0 → s.toShelf.pow.shelf = .running ∧ s.toShelf.pow.causes = 2 ^ 10) := by
  unfold State.toShelf
  extract_lets w t
  by_cases hw : w = 0
  · rw [if_neg (not_not_intro hw)]
    exact ⟨rfl, rfl, rfl, fun _ => rfl, fun hn => absurd hw hn⟩
  · rw [if_pos hw]
    exact ⟨rfl, rfl, rfl, fun h0 => absurd h0 hw, fun _ => ⟨rfl, Nat.zero_or _⟩⟩

theorem shelfPorts_of_leaving (h : s.pow.shelf = .leaving 0) : s.shelfPorts = ((s.linkDown 0 4 false).linkDown 1 4 false).toShelf := by
  unfold State.shelfPorts
  rw [h]
  rfl

/-! ### The triggers of a reset and of a wake (R555, R556, R567) -/

theorem wakeBy_pin (h : s.pow.shelf = .shelf) : s.wakeBy 2 = s.pinReset := by
  simp [State.wakeBy, h]

theorem pinReset_shelf (h : s.pow.shelf = .shelf) : s.pinReset = (s.onPow fun p => { p with causes := p.causes ||| 2 ^ 14 }).wake := if_pos h

theorem wake_begins : s.wake.pow.shelf = .running ∧ s.wake.pow.causes.testBit 10 = true := ⟨rfl, testBit_or_two_pow _ _⟩

theorem wake_keeps_cause {i : Nat} (h : s.pow.causes.testBit i = true) : s.wake.pow.causes.testBit i = true := by
  show (s.pow.causes ||| 2 ^ 10).testBit i = true
  rw [Nat.testBit_or, h, Bool.true_or]

theorem wakeBy_input {w : Nat} (h : s.pow.shelf = .shelf) (hw : w ≠ 2) (hen : s.bit (cmpA CMP.WCFG + 4 * w) 13 = true) :
    s.wakeBy w = (s.onPow fun p => { p with wakeBits := p.wakeBits ||| 2 ^ (15 - w) }).wake := by
  simp [State.wakeBy, h, hw, hen]

theorem aonReg_ret (j : Fin 128) : aonReg (devA DEV.RET + 4 * j) = true := by decide +revert

theorem ret_lt (j : Fin 128) : devA DEV.RET + 4 * j < cmpA 0 := by decide +revert

theorem setTrim_val {c : Nat} (k : Nat) (x : Int) (h : c < cmpA 0) : (s.setTrim k x).val c = s.val c :=
  State.val_setFld_other _ _ _ _ _ _ (Nat.ne_of_lt (lt_of_lt_of_le h (by unfold azA cmpA; omega)))

/-- VAON power-up loses the registers of the always-on domain (R544, R547). -/
theorem aonFresh_val {c : Nat} (ha : aonReg c = true) (h : c < cmpA 0) : s.aonFresh.val c = resetOf c := by
  have hlost : spGet resetOf (s.regs.filter fun e => !aonReg e.1) c = resetOf c := by
    rw [spGet_filter resetOf (fun a => !aonReg a), ha]
    rfl
  exact (setTrim_val 91 0 h).trans ((setTrim_val 90 0 h).trans hlost)

/-! ### The release (R545, R558, R559) -/

/-- A reset keeps the registers of the always-on domain below the comparators (R547, R558). -/
theorem reborn_val {c : Nat} (cold lost : Bool) (ha : aonReg c = true) (h : c < cmpA 0) : (s.reborn cold lost).val c = s.val c := by
  have hkept : spGet resetOf (s.regs.filter fun e => aonReg e.1) c = s.val c := by
    rw [spGet_filter resetOf aonReg, ha]
    rfl
  have hne : c ≠ cmpA CMP.WKSTAT := Nat.ne_of_lt (lt_of_lt_of_le h (by unfold cmpA; omega))
  unfold State.reborn
  extract_lets p t
  exact (State.val_setVal _ _ _ _).trans ((if_neg hne).trans ((setTrim_val 91 _ h).trans ((setTrim_val 90 _ h).trans hkept)))

/-- What a release does after it has recorded the causes leaves them, its power state and the axes. -/
structure BootKept (s t : State) : Prop where
  cause : t.val (devA DEV.RSTCAUSE) = s.val (devA DEV.RSTCAUSE)
  pow : t.pow = s.pow
  axes : t.axes = s.axes

theorem BootKept.refl : BootKept s s := ⟨rfl, rfl, rfl⟩

theorem BootKept.trans {t u : State} (h : BootKept s t) (g : BootKept t u) : BootKept s u :=
  ⟨g.cause.trans h.cause, g.pow.trans h.pow, g.axes.trans h.axes⟩

theorem setVal_bootKept {b : Nat} (v : Val) (h : devA DEV.RSTCAUSE ≠ b) : BootKept s (s.setVal b v) :=
  ⟨(State.val_setVal _ _ _ _).trans (if_neg h), rfl, rfl⟩

theorem onFlt_bootKept (f : Faults → Faults) : BootKept s (s.onFlt f) := ⟨rfl, rfl, rfl⟩

theorem onPins_bootKept (f : Pins → Pins) : BootKept s (s.onPins f) := ⟨rfl, rfl, rfl⟩

theorem RF.bootKept {t : State} (h : RF s t) (hv : t.val (devA DEV.RSTCAUSE) = s.val (devA DEV.RSTCAUSE)) : BootKept s t :=
  ⟨hv, h.uf.pow, h.uf.axes⟩

theorem showKcv_bootKept : BootKept s s.showKcv := by
  unfold State.showKcv
  split
  · exact setVal_bootKept _ (by decide)
  · exact .refl

theorem testEntry_bootKept (testen : Bool) : BootKept s (s.testEntry testen) := by
  have log {t : State} {c d1 d2 : Nat} {bd : Bind} : BootKept t (t.log c d1 d2 bd) :=
    (log_rf _ _ _ _ _).bootKept (State.log_val _ (by decide) _ _ _ _)
  unfold State.testEntry
  split
  · exact .refl
  · split
    · exact (onFlt_bootKept _).trans log
    · exact (onFlt_bootKept _).trans log

/-- The causes that a release leaves in RSTCAUSE: power-on starts it anew. -/
def State.causesShown (s : State) : Nat :=
  (if s.pow.causes.testBit 15 then 0 else s.rd (devA DEV.RSTCAUSE)) ||| s.pow.causes

theorem release_held {testen : Bool} (h : s.pow.rstReq = true ∨ holdsReset s.pow.ir = true) : s.release testen = s :=
  if_pos (.inr (.inr h))

theorem release_done {testen : Bool} (hin : s.pow.inReset = true) (hrun : s.pow.shelf = .running) (hreq : s.pow.rstReq = false)
    (hir : holdsReset s.pow.ir = false) :
    ((s.release testen).pow.inReset = false ∧ (s.release testen).pow.shelf = .running ∧ (s.release testen).pow.causes = 0 ∧
      (s.release testen).pow.clearing = s.pow.cold) ∧ (s.release testen).axes = State.blank.axes ∧ (s.release testen).rd (devA DEV.RSTCAUSE) = s.causesShown % 2 ^ 64 := by
  unfold State.release
  extract_lets p t old t1 t2 t3 t4
  rw [if_neg (by simp [p, hin, hrun, hreq, hir])]
  have h1 : t1.rd (devA DEV.RSTCAUSE) = s.causesShown % 2 ^ 64 := by
    have hold : t.rd (devA DEV.RSTCAUSE) = s.rd (devA DEV.RSTCAUSE) := val_rd (reborn_val _ _ (by decide) (by decide))
    have hrd : t1.rd (devA DEV.RSTCAUSE) = (old ||| p.causes) % 2 ^ 64 := by
      simp only [t1, State.rd, State.val_wr, if_true, BitVec.toNat_ofNat]
    rw [hrd]
    unfold old State.causesShown
    rw [hold]
  have h3 : BootKept t1 t3 := by
    have h2 : BootKept t1 t2 := by
      unfold t2
      split
      · exact setVal_bootKept _ (by decide)
      · exact .refl
    exact (h2.trans (setVal_bootKept _ (by decide))).trans showKcv_bootKept
  have hlife : BootKept t4 (t4.life 0) := (life_rf _ _).bootKept (State.life_val _ (by decide) (by decide))
  have hend := (hlife.trans (onPins_bootKept fun g => { g with dedLeft := some dedInterval })).trans (testEntry_bootKept testen)
  refine ⟨?_, hend.axes.trans h3.axes, (val_rd hend.cause).trans ((val_rd h3.cause).trans h1)⟩
  have hreborn : t3.pow.inReset = false ∧ t3.pow.shelf = .running := h3.pow ▸ ⟨rfl, rfl⟩
  rw [hend.pow]
  exact ⟨hreborn.1, hreborn.2, rfl, rfl⟩

theorem clearDone_ends (hin : s.pow.inReset = false) (hclr : s.pow.clearing = true) (hclk : 290144 ≤ s.pow.relClk) :
    s.clearDone = { s with path := [], pow := { s.pow with clearing := false, relClk := max 28000 s.pow.relClk } } :=
  if_neg (by simp [hin, hclr, hclk])

end

/-- Settles O48: the key words, the steps of the shelf entry and of the wake, the triggers of a reset and its release, each by its own lemma. -/
theorem resetsAndShelf : Obligations.ResetsAndShelf := by
  unfold Obligations.ResetsAndShelf
  intro s
  have next {t u : State} (h : t = u) : (Host.Outcome.next t : Host.Outcome State Fault Refusal) = .next u := congrArg _ h
  refine ⟨fun acc hr hm => ?_, fun hl => ?_, fun hout => ?_, fun hsh => ?_, fun testen hin hrun => ⟨?_, fun hreq hir => ?_⟩, fun hin hclr hclk => ?_⟩
  · have key (f : State → Status × State) : s.keyWord acc f = f s := keyWord_allowed hr hm f
    refine ⟨next (by rw [key]; rfl), fun m d hmd => next (by rw [key, rstKey_other hmd]), fun hno => next ?_, fun hyes hrun => ?_⟩
    · rw [key]
      simp [State.shelfKey, hno]
    · have henter : (s.keyWord acc fun s => s.shelfKey (0xFFFF : Word).toNat (0xA5A5 : Word).toNat).2 = s.shelfEnter := by
        rw [key]
        simp [State.shelfKey, hyes]
      exact ⟨_, next henter, shelfEnter_begins hrun⟩
  · obtain ⟨hin, haxes, hpath, hdark, hwake⟩ := toShelf_left (s := (s.linkDown 0 4 false).linkDown 1 4 false)
    have hpow := (linkDown_pow (s := s.linkDown 0 4 false) 1 4 false).trans (linkDown_pow 0 4 false)
    rw [hpow] at hdark hwake
    exact ⟨_, next (shelfPorts_of_leaving hl), hin, by simp [State.bfCsDriven, State.asleep, hin], haxes, hpath, hdark, hwake⟩
  · refine ⟨fun w => next (if_pos hout), fun hnew => ?_, fun k hlo hhi => ?_, ?_, ⟨_, next (if_neg hout), rfl, fun j => ?_, rfl⟩⟩
    · have h := enterReset_inReset (s.onPow fun p => { p with ir := 2, scan := [], haltReq := false, rstReq := false, dbgStatus := 0, dbgData := 0 })
        15 true true
      have hpor : s.powerOn = _ := if_neg (not_or_intro hout hnew)
      exact ⟨_, next hpor, h.inReset, h.cause, rfl, rfl, rfl, h.bfCsDriven, h.axes⟩
    · have h := enterReset_inReset s 13 false (k.val == 4)
      have hbrown : s.brownOut k = _ := (if_neg hout).trans (if_pos ⟨hlo, hhi⟩)
      exact ⟨_, next hbrown, h.inReset, h.cause, h.bfCsDriven, h.axes⟩
    · have h := enterReset_inReset s 14 false false
      exact ⟨_, next (if_neg hout), h.inReset, h.cause, h.bfCsDriven, h.axes⟩
    · exact aonFresh_val (aonReg_ret j) (ret_lt j)
  · have hpin := wake_keeps_cause (s := s.onPow fun p => { p with causes := p.causes ||| 2 ^ 14 }) (testBit_or_two_pow s.pow.causes 14)
    refine ⟨fun w hw => ?_, ⟨_, next ((if_pos hsh).trans (if_pos rfl)), rfl, rfl⟩, ⟨_, next (pinReset_shelf hsh), rfl, hpin, wake_begins.2⟩,
      ⟨_, next (if_pos hsh), rfl, testBit_or_two_pow _ _, rfl⟩⟩
    by_cases h2 : w = 2
    · subst h2
      exact ⟨_, next ((wakeBy_pin hsh).trans (pinReset_shelf hsh)), rfl, wake_begins.2, fun _ => hpin, rfl⟩
    · have hval : w.val ≠ 2 := fun e => h2 (Fin.ext e)
      exact ⟨_, next (wakeBy_input hsh hval (hw.resolve_left h2)), rfl, wake_begins.2, fun e => absurd e h2, rfl⟩
  · exact fun h => next (release_held h)
  · obtain ⟨⟨hout, hshelf, hcauses, hclear⟩, haxes, hshown⟩ := release_done (testen := testen) hin hrun hreq hir
    exact ⟨_, rfl, hout, by simp [State.bfCsDriven, State.asleep, hout, hshelf], hshown, hcauses, hclear, haxes⟩
  · exact ⟨_, next (clearDone_ends hin hclr hclk), rfl, by simp [State.ready, hin], rfl, rfl⟩

end Sys2Proof.Machine
end

section
/-! PROOF. The comparators, their auto-zero and self-checks, the wake inputs, and the settlement of O39. -/

namespace Sys2Proof.Machine

/-- The row of CMP.STCMD (R390). -/
def rowSTCMD : Row := ⟨0x700, 1, 1, 4, .cmd, 0x0, 0x0, 0x0, 16, false, 0, 65535⟩

theorem locate_stcmd : locate (cmpA CMP.STCMD) = some ⟨rowSTCMD, cmpA CMP.STCMD, 0⟩ := by decide

section
variable {s t : State} {m : Fin 8} {c : Fin 101}

/-! ### A comparator changes (R379) -/

theorem wr_val_other {b c v : Nat} (h : c ≠ b) : (s.wr b v).val c = s.val c := (s.val_wr b c v).trans (if_neg h)

theorem setBit_val_other {b c i : Nat} {x : Bool} (h : c ≠ b) : (s.setBit b i x).val c = s.val c := (s.val_setBit b c i x).trans (if_neg h)

theorem cmpReg_hi (m : Fin 8) (o : Nat) : 0x080000 ≤ cmpBase m + o := by
  unfold cmpBase
  omega

/-- The level of comparator m and the flag of its direction. -/
def State.cmpLevel (s : State) (m : Fin 8) (rise : Bool) : State := (s.setBit (cstat m) 13 rise).flag (cstat m) (if rise then 15 else 14)

theorem cmpLevel_shown (m : Fin 8) (rise : Bool) : (s.cmpLevel m rise).bit (cstat m) 13 = rise ∧
    (s.cmpLevel m rise).bit (cstat m) (if rise then 15 else 14) = true ∧ (s.cmpLevel m rise).axes = s.axes ∧
    ∀ o, o ≠ CMPC.CSTAT → (s.cmpLevel m rise).val (cmpBase m + o) = s.val (cmpBase m + o) := by
  have hhi : 0x080000 ≤ cstat m := cmpReg_hi m _
  have hbit : (if rise then 15 else 14) < 64 ∧ 13 ≠ (if rise then 15 else 14) := by cases rise <;> decide
  refine ⟨?_, flag_bit_hi hbit.1 hhi, by simp [State.cmpLevel], fun o ho => ?_⟩
  · exact (flag_other_bit_hi hbit.1 hbit.2 hhi).trans (State.bit_setBit _ _ _ _ (by decide))
  · have hne : cmpBase m + o ≠ cstat m := offset_ne ho
    exact (flag_hi _ hbit.1 hne (cmpReg_hi m o)).trans (setBit_val_other hne)

/-- A comparator that changes shows its level, the flag of its direction and one more change. -/
theorem cmpChange_shown {rise : Bool} (back : Nat) (h : s.bit (cstat m) 13 = !rise) :
    (s.cmpChange m rise back).bit (cstat m) 13 = rise ∧ (s.cmpChange m rise back).bit (cstat m) (if rise then 15 else 14) = true ∧
      (s.cmpChange m rise back).rd (cmpBase m + CMPC.ECNT) = min 0xFFFF (s.rd (cmpBase m + CMPC.ECNT) + 1) ∧ (s.cmpChange m rise back).axes = s.axes := by
  obtain ⟨hlevel, hdir, haxes, hother⟩ := cmpLevel_shown (s := s) m rise
  have hne {o p : Nat} (h : o ≠ p) : cmpBase m + o ≠ cmpBase m + p := offset_ne h
  unfold State.cmpChange
  extract_lets b here clk tick s1
  have hs1 : s1 = (s.cmpLevel m rise).bump (b + CMPC.ECNT) := rfl
  rw [if_neg (by cases rise <;> simp [h])]
  have hclock {o : Nat} (h1 : o ≠ CMPC.ECLK) (h2 : o ≠ CMPC.ETICK) :
      ((s1.wr (b + CMPC.ECLK) (clk % 65536)).wr (b + CMPC.ETICK) (tick.toNat % 65536)).val (b + o) = s1.val (b + o) :=
    (wr_val_other (hne h2)).trans (wr_val_other (hne h1))
  have hstat := (hclock (o := CMPC.CSTAT) (by decide) (by decide)).trans (State.val_bump_other _ (b + CMPC.ECNT) (b + CMPC.CSTAT) 1 (hne (by decide)))
  refine ⟨(congrFun (val_bit hstat) _).trans hlevel, (congrFun (val_bit hstat) _).trans hdir, ?_, haxes⟩
  rw [val_rd (hclock (by decide) (by decide)), hs1, ← val_rd (hother CMPC.ECNT (by decide))]
  exact State.rd_wr _ _ _ (by omega)

/-- A change waits where the output is held (R389). -/
theorem cmpEdge_held {rise : Bool} (hon : s.cmpOn m = true) (hh : 0 < s.cmps.hold[m]) :
    s.cmpEdge m rise = s.onCmps fun c => { c with held := c.held.set m (some rise) } := by
  simp only [State.cmpEdge, hon, Bool.not_true, Bool.false_eq_true, if_false]
  exact if_pos hh

theorem cmpEdge_free {rise : Bool} (hon : s.cmpOn m = true) (hh : s.cmps.hold[m] = 0) :
    s.cmpEdge m rise = s.cmpChange m rise (2 + s.fld (cmpBase m + CMPC.CCFG) 7 0) := by
  simp only [State.cmpEdge, hon, Bool.not_true, Bool.false_eq_true, if_false]
  exact if_neg (by omega)

/-! ### The auto-zero (R381) -/

theorem clampI_bounds {x lo hi : Int} (h : lo ≤ hi) : lo ≤ clampI x lo hi ∧ clampI x lo hi ≤ hi := by
  unfold clampI
  split_ifs <;> omega

/-- A trim in its range reads back. -/
theorem azTrim_setTrim {k : Nat} {x : Int} (hlo : -31 ≤ x) (hhi : x ≤ 31) : (s.setTrim k x).azTrim k = x := by
  unfold State.azTrim State.setTrim
  rw [State.fld_setFld _ _ (by decide) (by decide)]
  have hword : BitVec.ofNat 6 ((x % 64).toNat % 2 ^ (5 - 0 + 1)) = BitVec.ofInt 6 x := by
    refine BitVec.eq_of_toNat_eq ?_
    simp
    omega
  rw [hword, BitVec.toInt_ofInt]
  exact Int.bmod_eq_of_le (by omega) (by omega)

/-- What an auto-zero sample leaves in the accumulator. -/
def State.azMoved (s : State) (c : Fin 101) (o : Bool) : Int := if o then (s.cmps.az[c]).acc + 1 else (s.cmps.az[c]).acc - 1

theorem azSample_counts (o : Bool) (hf : s.azFrozen c = false) (ht : s.cmps.tests.any (fun t => t.1 == c.val) = false) :
    (s.azSample c o).axes = s.axes ∧
    ((s.azMoved c o).natAbs = 4 → ((s.azSample c o).cmps.az[c]).acc = 0 ∧ (s.azSample c o).azTrim c = clampI (s.azTrim c - sgn (s.azMoved c o)) (-31) 31) ∧
    ((s.azMoved c o).natAbs ≠ 4 → ((s.azSample c o).cmps.az[c]).acc = s.azMoved c o ∧ (s.azSample c o).azTrim c = s.azTrim c) := by
  unfold State.azSample
  rw [if_neg (by simp [hf, ht])]
  extract_lets z a moved x hist run s1
  by_cases hm : a.natAbs = 4
  · have hmoved : moved = true := decide_eq_true hm
    rw [if_pos hmoved]
    refine ⟨by simp [s1, State.setTrim], fun _ => ⟨?_, ?_⟩, fun h => absurd hm h⟩
    · simp [s1, State.setTrim, State.onCmps, hmoved]
    · have hx : x = clampI (s.azTrim c - sgn a) (-31) 31 := if_pos hmoved
      obtain ⟨hlo, hhi⟩ := clampI_bounds (x := s.azTrim c - sgn a) (lo := -31) (hi := 31) (by decide)
      have hkept : ((s1.setTrim c x).setBit (azA c) 14 (trimSettled hist)).azTrim c = (s1.setTrim c x).azTrim c := by
        refine congrArg (fun n => (BitVec.ofNat 6 n).toInt) (fld_of_bits (by decide) fun i _ hi => ?_)
        exact State.bit_setBit_other _ _ _ _ _ _ (.inr (by omega))
      rw [hkept, azTrim_setTrim (by omega) (by omega), hx]
      rfl
  · have hmoved : ¬ moved = true := by simpa [moved] using hm
    rw [if_neg hmoved]
    refine ⟨rfl, fun h => absurd h hm, fun _ => ⟨?_, rfl⟩⟩
    have hacc : (s1.cmps.az[c]).acc = if moved then 0 else a := by simp [s1, State.onCmps]
    exact hacc.trans (if_neg hmoved)

/-! ### The self-check (R386, R387) -/

/-- The failed test of a comparator whose shadow is not in use is shown, and touches no axis. -/
theorem testFail_shown {why : Nat} (h : s.bit (azA c) 10 = false) : (s.testFail c why).bit (azA c) 11 = true ∧ (s.testFail c why).axes = s.axes := by
  have hhi : 0x080000 ≤ azA c := azA_hi c
  have hset : (s.setBit (azA c) 11 true).bit (azA c) 11 = true := State.bit_setBit _ _ _ _ (by decide)
  have logged {t : State} {k d1 d2 : Nat} {bd : Bind} (ht : t.bit (azA c) 11 = true) (hax : t.axes = s.axes) :
      (t.log k d1 d2 bd).bit (azA c) 11 = true ∧ (t.log k d1 d2 bd).axes = s.axes :=
    ⟨(congrFun (val_bit (log_hi t hhi)) 11).trans ht, (log_rf t _ _ _ _).uf.axes.trans hax⟩
  unfold State.testFail
  extract_lets s1 s2
  split
  · exact logged hset rfl
  · split
    · exact logged hset rfl
    · split
      · exact logged hset rfl
      · rw [if_pos (by simp [h])]
        exact logged ((State.bit_setBit_other _ _ _ _ _ _ (.inr (by decide))).trans hset) rfl

theorem shelfAbandon_kept (c r : Nat) : (s.shelfAbandon c r).regs = s.regs ∧ (s.shelfAbandon c r).cmps = s.cmps ∧ (s.shelfAbandon c r).axes = s.axes := by
  unfold State.shelfAbandon
  split <;> exact ⟨rfl, rfl, rfl⟩

/-- A test that ends leaves the fail bit as its result says, and is over. -/
theorem testEnd_shown {r : Nat} (h : r = 0 ∨ s.bit (azA c) 10 = false) : (s.testEnd c r).bit (azA c) 11 = decide (r ≠ 0) ∧
    (s.testEnd c r).cmps.tests.any (fun x => x.1 == c.val) = false ∧ (s.testEnd c r).axes = s.axes := by
  unfold State.testEnd
  extract_lets s1 s2
  have h1 : s1.bit (azA c) 11 = decide (r ≠ 0) ∧ s1.axes = s.axes := by
    unfold s1
    by_cases hr : r = 0
    · rw [if_pos hr, decide_eq_false (not_not_intro hr)]
      exact ⟨State.bit_setBit _ _ _ _ (by decide), rfl⟩
    · rw [if_neg hr, decide_eq_true hr]
      exact testFail_shown (h.resolve_left hr)
  have h2 : s2.bit (azA c) 11 = decide (r ≠ 0) ∧ s2.cmps.tests.any (fun x => x.1 == c.val) = false ∧ s2.axes = s.axes := by
    obtain ⟨hregs, hcmps, haxes⟩ := shelfAbandon_kept (s := s1.onCmps fun k => { k with tests := k.tests.filter (fun t => t.1 != c) }) c r
    refine ⟨(congrArg (fun l => (spGet resetOf l (azA c)).getLsbD 11) hregs).trans h1.1, ?_, haxes.trans h1.2⟩
    rw [hcmps]
    simp [State.onCmps]
  split
  · split
    · refine ⟨?_, by simpa [State.onCmps] using h2.2.1, by simpa using h2.2.2⟩
      have hne : azA c ≠ cmpA CMP.STCMDSTAT := by
        have := c.isLt
        unfold azA cmpA CMP.AZTRIM CMP.STCMDSTAT
        omega
      exact (congrFun (val_bit ((State.finish_val _ (by decide) (by decide)).2 _ hne (logReg_hi (azA_hi c)))) 11).trans h2.1
    · exact h2
  · exact h2

theorem selfCheck_testable {r : Nat} (ht : s.testable c = true) (h : r = 0 ∨ s.bit (azA c) 10 = false) : s.selfCheck c r = s.testEnd c r := by
  have hsound : ¬ (r ≠ 0 ∧ s.bit (azA c) 10 = true ∧ 52 ≤ c.val ∧ c.val ≤ 56 ∧ c.val % 2 = 0) := fun ⟨hr, hb, _⟩ => by
    simp [h.resolve_left hr] at hb
  exact (if_pos (.inl ht)).trans (if_neg hsound)

/-! ### The wake inputs (R380, R567) -/

variable {i : Fin 2}

/-- A wake event that is latched changes the wake bits alone. -/
theorem wakeLatch_kept : (s.wakeLatch i).regs = s.regs ∧ (s.wakeLatch i).axes = s.axes ∧ (s.wakeLatch i).pow.shelf = s.pow.shelf := by
  unfold State.wakeLatch
  split <;> exact ⟨rfl, rfl, rfl⟩

theorem wakeLevel_asserts (hen : s.bit (cmpA CMP.WCFG + 4 * i) 13 = true) (hoff : s.bit (cmpA CMP.WKSTAT) (13 - i) = false) :
    (s.wakeLevel i true).bit (cmpA CMP.WKSTAT) (13 - i) = true ∧ (s.wakeLevel i true).bit (cmpA CMP.WKSTAT) (15 - i) = true ∧
      (s.wakeLevel i true).axes = s.axes ∧ (s.wakeLevel i true).pow.shelf = s.pow.shelf := by
  have hhi : 0x080000 ≤ cmpA CMP.WKSTAT := by decide
  have hi := i.isLt
  unfold State.wakeLevel
  extract_lets s1
  rw [if_neg (by simp [hen, hoff])]
  obtain ⟨hregs, haxes, hshelf⟩ := wakeLatch_kept (s := s1.flag (cmpA CMP.WKSTAT) (15 - i)) (i := i)
  have hbit (j : Nat) : ((s1.flag (cmpA CMP.WKSTAT) (15 - i)).wakeLatch i).bit (cmpA CMP.WKSTAT) j = (s1.flag (cmpA CMP.WKSTAT) (15 - i)).bit (cmpA CMP.WKSTAT) j :=
    congrArg (fun l => (spGet resetOf l (cmpA CMP.WKSTAT)).getLsbD j) hregs
  refine ⟨?_, (hbit _).trans (flag_bit_hi (by omega) hhi), haxes.trans (by simp [s1]), hshelf.trans (by simp [s1])⟩
  exact (hbit _).trans ((flag_other_bit_hi (by omega) (by omega) hhi).trans (State.bit_setBit _ _ _ _ (by omega)))

theorem wakeLevel_releases : (s.wakeLevel i false).bit (cmpA CMP.WKSTAT) (13 - i) = false ∧ (s.wakeLevel i false).pow = s.pow ∧
    (s.wakeLevel i false).axes = s.axes := by
  unfold State.wakeLevel
  extract_lets s1
  rw [if_pos (.inl rfl)]
  exact ⟨State.bit_setBit _ _ _ _ (by omega), rfl, rfl⟩

/-! ### SELFTEST (R388) -/

variable {acc : Fin 15}

/-- A word of STCMD, as the command of an accessor of a part that serves and that the worlds permit. -/
theorem awake_stcmd {w : Nat} (hr : s.ready = true) (hs : s.pow.shelf ≠ .shelf) (hv : s.violationOf acc (cmpA CMP.STCMD) true = none)
    (hw : w < 2 ^ 16) : s.awake (fun s => (s.busWrite acc (cmpA CMP.STCMD) (fullMask w)).2) =
      s.selftest (w / 256) (w % 256) acc (s.mayAccess acc (azBlock (w % 256))) := by
  obtain ⟨d, rfl⟩ : ∃ d : Word, w = d.toNat := ⟨BitVec.ofNat 16 w, (BitVec.toNat_ofNat ..).trans (Nat.mod_eq_of_lt hw) |>.symm⟩
  have hissue : s.writeReg acc ⟨rowSTCMD, cmpA CMP.STCMD, 0⟩ (cmpA CMP.STCMD) (0xFFFF#16).toNat d.toNat =
      (.done, s.selftest ((d.toNat &&& 0xFFFF) / 256) ((d.toNat &&& 0xFFFF) % 256) acc (s.mayAccess acc (azBlock ((d.toNat &&& 0xFFFF) % 256)))) := rfl
  rw [mask_and_full] at hissue
  rw [awake_of_ready hr hs, fullMask_toNat, busWrite_reg _ _ hr (by decide) (by decide) locate_stcmd hv hissue]

/-- A self-check that starts runs for its time, and may hold the output of a CMP. -/
theorem testStart_runs (ht : s.testable c = true) (hidle : s.cmps.tests.any (fun t => t.1 == c.val) = false) :
    (s.testStart c).cmps.tests = s.cmps.tests ++ [(c.val, s.testTime c)] ∧ (s.testStart c).axes = s.axes ∧ (s.testStart c).regs = s.regs := by
  unfold State.testStart
  rw [if_neg (by simp [ht, hidle])]
  extract_lets s1
  have h1 : s1.cmps.tests = s.cmps.tests ∧ s1.axes = s.axes ∧ s1.regs = s.regs := by
    unfold s1
    split <;> exact ⟨rfl, rfl, rfl⟩
  exact ⟨congrArg (· ++ [(c.val, s.testTime c)]) h1.1, h1.2⟩

theorem selftest_starts (ht : s.testable c = true) (hst : s.cmps.stAcc = none) (hidle : s.cmps.tests.any (fun t => t.1 == c.val) = false) :
    s.selftest 1 c acc true = (s.testStart c).onCmps fun k => { k with stAcc := some (c.val, acc.val) } := by
  have hc := c.isLt
  unfold State.selftest
  dsimp only
  rw [if_neg (by decide), if_neg (by omega), if_neg (by decide), if_neg (by simp [ht, hst, hidle])]

end

/-- Settles O39: each comparator by what its change, its sample, its self-check and its command leave. -/
theorem comparatorsAndSelfCheck : Obligations.ComparatorsAndSelfCheck := by
  unfold Obligations.ComparatorsAndSelfCheck
  have next {t u : State} (h : t = u) : (Host.Outcome.next t : Host.Outcome State Fault Refusal) = .next u := congrArg _ h
  refine ⟨fun s ha => ⟨fun m rise hon hlevel => ⟨fun hfree => ?_, fun hheld => ?_⟩, fun c o hf ht => ?_, fun c r ht hr => ?_⟩,
    fun i s hin => ⟨fun hen hoff => ?_, ?_⟩, fun acc c s hr hs hv hm ht hst hidle => ?_⟩
  · exact ⟨_, next ((awake_of_not_asleep ha _).trans (cmpEdge_free hon hfree)), cmpChange_shown _ hlevel⟩
  · exact ⟨_, next ((awake_of_not_asleep ha _).trans (cmpEdge_held hon hheld)), by simp [State.onCmps], rfl, rfl⟩
  · exact ⟨_, next (awake_of_not_asleep ha _), azSample_counts o hf ht⟩
  · exact ⟨_, next ((awake_of_not_asleep ha _).trans (selfCheck_testable ht hr)), testEnd_shown hr⟩
  · obtain ⟨hon, hflag, haxes, hshelf⟩ := wakeLevel_asserts hen hoff
    by_cases hsh : s.pow.shelf = .shelf
    · have hwake : s.wakeInput i true = (s.wakeLevel i true).wake := if_pos ⟨by simp [hen, hoff], hsh⟩
      exact ⟨_, next hwake, hon, hflag, haxes, fun _ => wake_begins, fun h => absurd hsh h⟩
    · have hstay : s.wakeInput i true = s.wakeLevel i true := if_neg fun h => hsh h.2
      exact ⟨_, next hstay, hon, hflag, haxes, fun h => absurd h hsh, fun _ => hshelf⟩
  · have hlevel : s.wakeInput i false = s.wakeLevel i false := by simp [State.wakeInput]
    exact ⟨_, next hlevel, wakeLevel_releases⟩
  · have hc := c.isLt
    have harg : (256 + (BitVec.ofNat 8 c.val).toNat) / 256 = 1 ∧ (256 + (BitVec.ofNat 8 c.val).toNat) % 256 = c.val := by
      rw [BitVec.toNat_ofNat]
      omega
    have hcmd := awake_stcmd (w := 256 + (BitVec.ofNat 8 c.val).toNat) hr hs hv (by omega)
    rw [harg.1, harg.2, hm, selftest_starts ht hst hidle] at hcmd
    obtain ⟨htests, haxes, hregs⟩ := testStart_runs ht hidle
    exact ⟨_, next hcmd, rfl, htests, haxes, hregs⟩

end Sys2Proof.Machine
end

section
/-! PROOF. The staged and the active world map, the master token and the device key, and the settlement of O18. -/

namespace Sys2Proof.Machine

section
variable {s t : State} {A : Type} {c : Nat}

/-! ### Registers written in a run over a list -/

/-- A run over a list leaves a register that none of its steps writes. -/
theorem overList_val {l : List A} {f : State → A → State} (h : ∀ t, ∀ a ∈ l, (f t a).val c = t.val c) : (overList l f s).val c = s.val c := by
  induction l generalizing s with
  | nil => rfl
  | cons a l ih => exact (ih fun t b hb => h t b (List.mem_cons_of_mem _ hb)).trans (h s a List.mem_cons_self)

/-- A run that writes one register for each place leaves in the register of a place what it writes there, where no other write changes that. -/
theorem overList_wr {l : List Nat} {addr : Nat → Nat} {f : State → Nat → Nat} {i : Nat} (hi : i ∈ l) (hinj : ∀ j, addr i = addr j → i = j)
    (hread : ∀ t, ∀ j ∈ l, ∀ x, f (t.wr (addr j) x) i = f t i) : (overList l (fun s j => s.wr (addr j) (f s j)) s).val (addr i) = BitVec.ofNat 64 (f s i) := by
  induction l generalizing s with
  | nil => exact absurd hi List.not_mem_nil
  | cons j l ih =>
    by_cases hl : i ∈ l
    · exact (ih hl fun t k hk => hread t k (List.mem_cons_of_mem _ hk)).trans (congrArg _ (hread s j List.mem_cons_self _))
    · have hij : i = j := (List.mem_cons.mp hi).resolve_right hl
      have hrest : (overList l (fun s j => s.wr (addr j) (f s j)) (s.wr (addr j) (f s j))).val (addr i) = (s.wr (addr j) (f s j)).val (addr i) :=
        overList_val fun t k hk => wr_val_other fun e => hl (hinj k e ▸ hk)
      rw [hij] at hrest ⊢
      exact hrest.trans ((s.val_wr _ _ _).trans (if_pos rfl))

theorem ofNat_rd (b : Nat) : BitVec.ofNat 64 (s.rd b) = s.val b := BitVec.ofNat_toNat 64 (s.val b) |>.trans (by simp)

/-! ### The staged map (R464, R478) -/

theorem revertMap_val (hblk : c < wldA WLD.SBLK ∨ wldA WLD.SREG < c) : s.revertMap.val c = s.val c := by
  have hword (w : Nat) (hw : w < 4) : c ≠ wldA WLD.SBLK + 4 * w := by
    simp only [wldA, WLD.SBLK, WLD.SREG] at hblk ⊢
    omega
  have hreg : c ≠ wldA WLD.SREG := by
    simp only [wldA, WLD.SBLK, WLD.SREG] at hblk ⊢
    omega
  exact (wr_val_other hreg).trans (overList_val fun t w hw => wr_val_other (hword w (List.mem_range.mp hw)))

/-- After REVERT the staged map reads as the active one. -/
theorem revertMap_staged : (∀ w : Fin 4, s.revertMap.val (wldA WLD.SBLK + 4 * w) = s.val (wldA WLD.BLK + 4 * w)) ∧
    s.revertMap.val (wldA WLD.SREG) = s.val (wldA WLD.REG) := by
  unfold State.revertMap
  extract_lets s1
  constructor
  · intro w
    have hne : wldA WLD.SBLK + 4 * w.val ≠ wldA WLD.SREG := by decide +revert
    have hread (t : State) (j x : Nat) : (t.wr (wldA WLD.SBLK + 4 * j) x).rd (wldA WLD.BLK + 4 * w) = t.rd (wldA WLD.BLK + 4 * w) :=
      State.rd_wr_other _ _ _ _ (by have := w.isLt; simp only [wldA, WLD.BLK, WLD.SBLK]; omega)
    have hrun : s1.val (wldA WLD.SBLK + 4 * w) = BitVec.ofNat 64 (s.rd (wldA WLD.BLK + 4 * w)) :=
      overList_wr (addr := fun w => wldA WLD.SBLK + 4 * w) (f := fun s w => s.rd (wldA WLD.BLK + 4 * w)) (List.mem_range.mpr w.isLt)
        (fun j e => by omega) (fun t j _ x => hread t j x)
    exact (wr_val_other hne).trans (hrun.trans (ofNat_rd _))
  · have hrun : s1.val (wldA WLD.REG) = s.val (wldA WLD.REG) :=
      overList_val fun t w _ => wr_val_other (by simp only [wldA, WLD.REG, WLD.SBLK]; omega)
    exact (s1.val_wr _ _ _).trans ((if_pos rfl).trans ((ofNat_rd _).trans hrun))

/-! ### The active map (R467, R468) -/

theorem setOuts_val (edge : Bool) (hc : c < 0x0C0000) : (s.setOuts edge).val c = s.val c := by
  refine setOut_overList _ edge fun u _ => ?_
  unfold pstat unitBase
  split <;> omega

theorem debugResume_val (hc : c < 0x0C0000) : s.debugResume.val c = s.val c := by
  cases hh : s.stage.halt with
  | false => rw [State.debugResume, if_pos (by simp [hh])]
  | true =>
    have hcommit : (s.onStage fun g => { g with halt := false }).committedAll.val c = s.val c := overList_val fun _ _ _ => rfl
    rw [debugResume_of_halt hh, setOuts_val false hc, hcommit]

variable {m : List Nat} {r : Nat}

/-- A new map makes its values the active ones. -/
theorem setMap_active : (∀ w : Fin 4, (s.setMap m r).val (wldA WLD.BLK + 4 * w) = BitVec.ofNat 64 ((m[w.val]?).getD 0)) ∧
    (s.setMap m r).val (wldA WLD.REG) = BitVec.ofNat 64 r := by
  unfold State.setMap
  extract_lets old nu ch s1 s2 s3
  have hkept {b : Nat} (hb : b < 0x0C0000) : (if nu 55 ∧ !old 55 ∧ !s.flt.tm then
      (if s3.stage.halt then s3.debugResume else s3).onPow (fun p => { p with haltReq := false, rstReq := false }) else s3).val b = s2.val b := by
    split
    · split
      · exact debugResume_val (s := s3) hb
      · rfl
    · rfl
  constructor
  · intro w
    have hne : wldA WLD.BLK + 4 * w.val ≠ wldA WLD.REG := by decide +revert
    rw [hkept (by decide +revert), wr_val_other hne]
    exact overList_wr (addr := fun w => wldA WLD.BLK + 4 * w) (f := fun _ w => (m[w]?).getD 0) (List.mem_range.mpr w.isLt)
      (fun j e => by omega) (fun _ _ _ _ => rfl)
  · rw [hkept (by decide)]
    exact (s1.val_wr _ _ _).trans (if_pos rfl)

/-- The words of the staged map and its region word. -/
def State.stagedMap (s : State) : List Nat × Nat := ((List.range 4).map (fun w => s.rd (wldA WLD.SBLK + 4 * w)), s.rd (wldA WLD.SREG))

/-- The words of the active map and its region word. -/
def State.activeMap (s : State) : List Nat × Nat := ((List.range 4).map (fun w => s.rd (wldA WLD.BLK + 4 * w)), s.rd (wldA WLD.REG))

theorem commitMap_eq : s.commitMap = if s.stagedMap = s.activeMap then s else s.onWld fun w => { w with mapDue := some s.stagedMap } := by
  unfold State.commitMap State.stagedMap State.activeMap
  simp only [Prod.mk.injEq]

/-- A clock with nothing waiting. -/
theorem wldClock_idle (hmap : s.wld.mapDue = none) (htok : s.wld.tokenDue = none) :
    s.wldClock = s.onWld fun w => { w with mapDue := none, tokenDue := none, imageMap := false } := by
  unfold State.wldClock
  rw [hmap, htok]

/-- The clock after a COMMIT makes the staged map the active one (R467); where they are equal there is nothing to do. -/
theorem wldClock_commit (hmap : s.wld.mapDue = none) (htok : s.wld.tokenDue = none) {t : State} (hw : t.wld = s.commitMap.wld)
    (hval : ∀ b, wldA WLD.BLK ≤ b → b ≤ wldA WLD.SREG → t.val b = s.val b) :
    (∀ w : Fin 4, t.wldClock.val (wldA WLD.BLK + 4 * w) = s.val (wldA WLD.SBLK + 4 * w)) ∧ t.wldClock.val (wldA WLD.REG) = s.val (wldA WLD.SREG) := by
  have hblk (w : Fin 4) : wldA WLD.BLK ≤ wldA WLD.BLK + 4 * w ∧ wldA WLD.BLK + 4 * w ≤ wldA WLD.SREG := by decide +revert
  rw [commitMap_eq] at hw
  by_cases heq : s.stagedMap = s.activeMap
  · rw [if_pos heq] at hw
    have hclock := wldClock_idle (s := t) (hw ▸ hmap) (hw ▸ htok)
    obtain ⟨hwords, hregion⟩ := Prod.mk.inj heq
    have hrd (w : Fin 4) : s.rd (wldA WLD.SBLK + 4 * w) = s.rd (wldA WLD.BLK + 4 * w) :=
      (List.map_inj_left.mp hwords) w.val (List.mem_range.mpr w.isLt)
    rw [hclock]
    exact ⟨fun w => (hval _ (hblk w).1 (hblk w).2).trans (BitVec.eq_of_toNat_eq (hrd w).symm),
      (hval _ (by decide) (by decide)).trans (BitVec.eq_of_toNat_eq hregion.symm)⟩
  · rw [if_neg heq] at hw
    have hclock : t.wldClock = (t.setMap s.stagedMap.1 s.stagedMap.2).onWld fun w => { w with mapDue := none, tokenDue := none, imageMap := false } := by
      have htok' : t.wld.tokenDue = none := hw ▸ htok
      have hmap' : t.wld.mapDue = some s.stagedMap := hw ▸ rfl
      unfold State.wldClock
      rw [htok', hmap']
    obtain ⟨hwords, hregion⟩ := setMap_active (s := t) (m := s.stagedMap.1) (r := s.stagedMap.2)
    rw [hclock]
    refine ⟨fun w => (hwords w).trans ?_, hregion.trans (ofNat_rd _)⟩
    have hget : (s.stagedMap.1[w.val]?).getD 0 = s.rd (wldA WLD.SBLK + 4 * w) := by
      simp [State.stagedMap, w.isLt]
    rw [hget, ofNat_rd]

/-! ### The master token (R463, R464) -/

theorem onWld_val (f : World → World) : (s.onWld f).val c = s.val c := rfl

theorem onWld_master (f : World → World) : (s.onWld f).master_ = s.master_ := rfl

theorem boreDiscard_val (hc : c ≠ borA BOR.PENDING ∧ c ≠ borA BOR.CMDSTAT) (hl : logReg c = false) : s.boreDiscard.val c = s.val c := by
  have hempty : s.boreEmpty.val c = s.val c := wr_val_other hc.1
  unfold State.boreDiscard
  extract_lets patch src s1
  split
  · rw [State.log_val _ hl]
    exact (State.irq_val _ hl (by decide)).trans ((wr_val_other hc.2).trans hempty)
  · exact hempty

/-- What the token's move puts into WLD.STATUS. -/
theorem tokenMove_status {who : Nat} (hc : c < borA 0 ∨ borA 0x40 ≤ c) (hblk : c < wldA WLD.SBLK ∨ wldA WLD.SREG < c) (hl : logReg c = false) :
    (s.tokenMove who).val c = if who = s.master_ then s.val c else (s.setFld (wldA WLD.STATUS) 15 12 who).val c := by
  have hbor : c ≠ borA BOR.PENDING ∧ c ≠ borA BOR.CMDSTAT := by
    simp only [borA, BOR.PENDING, BOR.CMDSTAT] at hc ⊢
    omega
  unfold State.tokenMove
  split
  · rfl
  · rw [boreDiscard_val hbor hl, onWld_val, revertMap_val hblk]

theorem tokenMove_master {who : Nat} (hw : who < 16) : (s.tokenMove who).master_ = who := by
  have hval := tokenMove_status (s := s) (who := who) (c := wldA WLD.STATUS) (.inr (by decide)) (.inl (by decide)) (by decide)
  by_cases h : who = s.master_
  · rw [if_pos h] at hval
    exact (val_fld hval 15 12).trans h.symm
  · rw [if_neg h] at hval
    exact (val_fld hval 15 12).trans ((State.fld_setFld _ _ (by decide) (by decide)).trans (Nat.mod_eq_of_lt hw))

/-- The clock after a move that waits makes its accessor the master (R463). -/
theorem wldClock_token {who : Nat} {d : BitVec 8 × Fin 15} (hw : who < 16) (hmap : s.wld.mapDue = none) (htok : s.wld.tokenDue = some (who, d)) :
    s.wldClock.master_ = who := by
  have hclock : s.wldClock = (s.tokenMove who).onWld fun w => { w with mapDue := none, tokenDue := none, imageMap := false } := by
    unfold State.wldClock
    rw [hmap, htok]
  rw [hclock]
  exact tokenMove_master hw

/-! ### The WLD commands (R472, R478) -/

variable {acc : Fin 15} {op arg : Nat}

/-- A WLD command that its accessor may give is judged by its effect, and completes in CMDSTAT. -/
theorem wldCmd_judged {st : Status} {u : State} (hr : s.ready = true) (hsec : s.secureAcc acc = true) (hop : op ∈ [0x01, 0x02, 0x10, 0x11, 0x20])
    (hmay : s.wldAllowed acc op = true) (he : s.wldEffect acc op arg = (st, u)) :
    (s.wldCmd acc op arg).2 = u.finish (wldA WLD.CMDSTAT) 57 op arg acc st := by
  have hknown : [0x01, 0x02, 0x10, 0x11, 0x20].contains op = true := List.contains_iff_mem.mpr hop
  simp only [State.wldCmd, hr, hsec, hknown, hmay, he, Bool.not_true, Bool.false_eq_true, if_false]

/-- Its completion changes CMDSTAT and what the log reaches. -/
theorem wldFinish_val {st : Status} {u : State} : (u.finish (wldA WLD.CMDSTAT) 57 op arg acc st).val (wldA WLD.CMDSTAT) = BitVec.ofNat 64 (op * 256 + st.code) ∧
    ∀ b, b ≠ wldA WLD.CMDSTAT → logReg b = false → (u.finish (wldA WLD.CMDSTAT) 57 op arg acc st).val b = u.val b :=
  State.finish_val u (by decide) (by decide)

/-- The log reaches registers of DEV and of FLT alone. -/
theorem logReg_outside (h : 0x200 ≤ c ∧ c < 0x040000 ∨ 0x041000 ≤ c) : logReg c = false := by
  have h1 : devA DEV.IRQA_PEND = 0x140 := rfl
  have h2 : devA DEV.IRQS_PEND = 0x160 := rfl
  have h3 : fltA FLT.STATUS = 0x040000 := rfl
  have h4 : fltA FLT.HOVF = 0x04001C := rfl
  have h5 : fltA FLT.COLLCNT = 0x040048 := rfl
  have h6 : fltA FLT.LIFE = 0x040200 := rfl
  simp only [logReg, pendReg, Bool.or_eq_false_iff, Bool.and_eq_false_iff, decide_eq_false_iff_not, beq_eq_false_iff_ne, ne_eq]
  omega

theorem commitMap_val : s.commitMap.val c = s.val c := by
  rw [commitMap_eq]
  split <;> rfl

/-- A WLD command is answered with DONE, its master stands in this clock, and `who` is the master after the next one (R463). -/
structure TokenSaid (op who : Nat) (s t : State) : Prop where
  said : t.val (wldA WLD.CMDSTAT) = BitVec.ofNat 64 (op * 256 + Status.done.code)
  stands : t.master_ = s.master_
  moves : t.wldClock.master_ = who

theorem tokenDue_said {who : Nat} {d : BitVec 8 × Fin 15} (hw : who < 16) (hmap : s.wld.mapDue = none) :
    TokenSaid op who s ((s.onWld fun w => { w with tokenDue := some (who, d) }).finish (wldA WLD.CMDSTAT) 57 op arg acc .done) := by
  obtain ⟨hsaid, hkept⟩ := wldFinish_val (u := s.onWld fun w => { w with tokenDue := some (who, d) }) (op := op) (arg := arg) (acc := acc) (st := .done)
  exact ⟨hsaid, val_fld (hkept (wldA WLD.STATUS) (by decide) (by decide)) 15 12, wldClock_token (d := d) hw (by simpa [State.onWld] using hmap) (by simp [State.onWld])⟩

/-- Where nothing waits the master stands in the next clock as well. -/
theorem tokenStays_said (hmap : s.wld.mapDue = none) (htok : s.wld.tokenDue = none) :
    TokenSaid op s.master_ s (s.finish (wldA WLD.CMDSTAT) 57 op arg acc .done) := by
  obtain ⟨hsaid, hkept⟩ := wldFinish_val (u := s) (op := op) (arg := arg) (acc := acc) (st := .done)
  have hsame : (s.finish (wldA WLD.CMDSTAT) 57 op arg acc .done).master_ = s.master_ :=
    val_fld (hkept (wldA WLD.STATUS) (by decide) (by decide)) 15 12
  exact ⟨hsaid, hsame, by rw [wldClock_idle (by simpa using hmap) (by simpa using htok), onWld_master, hsame]⟩

/-- The effect of a RECLAIM where no move waits. -/
theorem wldEffect_reclaim (htok : s.wld.tokenDue = none) :
    s.wldEffect acc 0x11 0 = (.done, if s.master_ = 1 then s else s.onWld fun w => { w with tokenDue := some (1, 0, acc) }) := by
  have hfails : s.giveFails = s := by
    unfold State.giveFails
    rw [htok]
  simp [State.wldEffect, hfails]

/-- RECLAIM leaves HPS the master of the next clock. -/
theorem reclaim_said (hmap : s.wld.mapDue = none) (htok : s.wld.tokenDue = none) : TokenSaid 0x11 1 s
    ((if s.master_ = 1 then s else s.onWld fun w => { w with tokenDue := some (1, 0, acc) }).finish (wldA WLD.CMDSTAT) 57 0x11 0 acc .done) := by
  by_cases hm : s.master_ = 1
  · rw [if_pos hm]
    have h := tokenStays_said (op := 0x11) (arg := 0) (acc := acc) hmap htok
    exact ⟨h.said, h.stands, h.moves.trans hm⟩
  · rw [if_neg hm]
    exact tokenDue_said (d := (0, acc)) (by decide) hmap

/-- The effect of a GIVE to an open secure session where no move waits. -/
theorem wldEffect_give {k : Fin 8} (hk : s.secureSession k = true) (htok : s.wld.tokenDue = none) :
    s.wldEffect acc 0x10 k = (.done, s.onWld fun w => { w with tokenDue := some (2 + k.val, BitVec.ofNat 8 k, acc) }) := by
  have hk7 : ¬ 7 < k.val := by omega
  simp [State.wldEffect, hk, htok, hk7]

theorem secureAcc_hps : s.secureAcc 1 = true := by simp [State.secureAcc]

end

/-- Settles O18: each command by what its effect leaves, and the next clock by the map or the token that waits. -/
theorem worldCommands : Obligations.WorldCommands := by
  unfold Obligations.WorldCommands
  intro acc s hr hs
  have run {u v : State} {op arg : Nat} (hsec : s.secureAcc acc = true) (hop : op ∈ [0x01, 0x02, 0x10, 0x11, 0x20]) (hmay : s.wldAllowed acc op = true)
      (he : s.wldEffect acc op arg = (.done, u)) (hv : v = u.finish (wldA WLD.CMDSTAT) 57 op arg acc .done) :
      Host.Outcome.next (s.awake fun s => (s.wldCmd acc op arg).2) = (.next v : Host.Outcome State Fault Refusal) :=
    congrArg _ ((awake_of_ready hr hs _).trans ((wldCmd_judged hr hsec hop hmay he).trans hv.symm))
  have hblk (w : Fin 4) : logReg (wldA WLD.BLK + 4 * w) = false ∧ logReg (wldA WLD.SBLK + 4 * w) = false ∧
      wldA WLD.BLK + 4 * w ≠ wldA WLD.CMDSTAT ∧ wldA WLD.SBLK + 4 * w ≠ wldA WLD.CMDSTAT ∧ wldA WLD.BLK + 4 * w < wldA WLD.SBLK := by decide +revert
  refine ⟨fun hsec hmaster => ⟨?_, fun himg hmap htok => ?_, fun k hk hmap htok => ?_⟩, ?_, ?_⟩
  · obtain ⟨hsaid, hkept⟩ := wldFinish_val (u := s.revertMap) (op := 0x02) (arg := 0) (acc := acc) (st := .done)
    obtain ⟨hstaged, hregion⟩ := revertMap_staged (s := s)
    refine ⟨_, run (arg := 0) hsec (by decide) hmaster rfl rfl, hsaid, fun w => ?_, (hkept _ (by decide) (by decide)).trans hregion⟩
    obtain ⟨hlb, hls, hnb, hns, hlt⟩ := hblk w
    exact ⟨(hkept _ hns hls).trans (hstaged w), (hkept _ hnb hlb).trans (revertMap_val (.inl hlt))⟩
  · obtain ⟨hsaid, hkept⟩ := wldFinish_val (u := s.commitMap) (op := 0x01) (arg := 0) (acc := acc) (st := .done)
    have he : s.wldEffect acc 0x01 0 = (.done, s.commitMap) := by simp [State.wldEffect, himg]
    refine ⟨_, run (arg := 0) hsec (by decide) hmaster he rfl, hsaid, fun w => ?_, ?_⟩
    · exact (hkept _ (hblk w).2.2.1 (hblk w).1).trans commitMap_val
    · refine wldClock_commit hmap htok (by simp) fun b hlo hhi => ?_
      have hne : b ≠ wldA WLD.CMDSTAT := by
        simp only [wldA, WLD.BLK, WLD.CMDSTAT] at hlo ⊢
        omega
      have hwld : 0x200 ≤ b ∧ b < 0x040000 := by
        simp only [wldA, WLD.BLK, WLD.SREG] at hlo hhi
        omega
      exact (hkept b hne (logReg_outside (.inl hwld))).trans commitMap_val
  · have harg : (BitVec.ofNat 8 k.val).toNat = k.val := by
      rw [BitVec.toNat_ofNat]
      omega
    have he := wldEffect_give (acc := acc) hk htok
    rw [← harg] at he
    obtain ⟨hsaid, hstands, hmoves⟩ := tokenDue_said (s := s) (op := 0x10) (arg := (BitVec.ofNat 8 k.val).toNat) (acc := acc) (who := 2 + k)
      (d := (BitVec.ofNat 8 k, acc)) (by omega) hmap
    exact ⟨_, run hsec (by decide) hmaster he (by rw [harg]), hsaid, hstands, hmoves⟩
  · rintro rfl hmap htok
    obtain ⟨hsaid, hstands, hmoves⟩ := reclaim_said (acc := 1) hmap htok
    exact ⟨_, run (arg := 0) secureAcc_hps (by decide) rfl (wldEffect_reclaim htok) rfl, hsaid, hstands, hmoves⟩
  · rintro rfl hmaster hkey hstaged
    have he : s.wldEffect 1 0x20 0 = (.done, s.programKey) := by simp [State.wldEffect, hkey, hstaged]
    have hallowed : s.wldAllowed (1 : Fin 15) 0x20 = true := by simp [State.wldAllowed, hmaster]
    obtain ⟨hsaid, -⟩ := wldFinish_val (u := s.programKey) (op := 0x20) (arg := 0) (acc := 1) (st := .done)
    exact ⟨_, run (arg := 0) secureAcc_hps (by decide) hallowed he rfl, hsaid, by simp [State.programKey, State.onWld], by simp [State.programKey, State.onWld]⟩

end Sys2Proof.Machine
end

section
/-! PROOF. Frames that the part originates, sessions that close, the address protocol, and the settlement of O43. -/

namespace Sys2Proof.Machine

/-- From `s` to `t` frames enter the egress queues: of the registers only those of the ports change. -/
structure Queued (s t : State) : Prop where
  rest : t = { s with regs := t.regs, net := { s.net with port := t.net.port } }
  val : ∀ c, c < netpBase 0 ∨ netpBase 2 ≤ c → t.val c = s.val c

/-- From `s` to `t` one frame is originated: `Queued`, and the sequence number is one more. -/
structure Sent (s t : State) : Prop where
  rest : t = { s with regs := t.regs, net := { s.net with port := t.net.port } }
  seq : t.rd (netA NET.SEQ) = (s.rd (netA NET.SEQ) + 1) % 65536
  val : ∀ c, c ≠ netA NET.SEQ → c < netpBase 0 ∨ netpBase 2 ≤ c → t.val c = s.val c

section
variable {s t u : State} {c : Nat}

/-! ### Frames (R421, R424, R431) -/

theorem Queued.refl : Queued s s := ⟨rfl, fun _ _ => rfl⟩

theorem Queued.trans (h : Queued s t) (g : Queued t u) : Queued s u :=
  ⟨by rw [g.rest]; conv => lhs; rw [h.rest], fun c hc => (g.val c hc).trans (h.val c hc)⟩

theorem enqueue_queued (n : Fin 2) (f : Frame) : Queued s (s.enqueue n f) := by
  have hdrop (o : Nat) (ho : o < 0x80) : Queued s (s.bump (netpBase n + o)) :=
    ⟨rfl, fun c hc => State.val_bump_other _ _ _ _ (by unfold netpBase at hc ⊢; omega)⟩
  unfold State.enqueue
  split
  · exact .refl
  · extract_lets h
    split
    · split
      · exact hdrop _ (by decide)
      · exact hdrop _ (by decide)
    · exact ⟨rfl, fun _ _ => rfl⟩

theorem queued_overList {A : Type} {l : List A} {f : State → A → State} (h : ∀ t a, Queued t (f t a)) : Queued s (overList l f s) := by
  induction l generalizing s with
  | nil => exact .refl
  | cons a l ih => exact (h s a).trans ih

theorem originate_sent (q typ pcp : Nat) (dstMac : List Byte) (src dst cyc : Nat) (payload : List Byte) (key : Option (BitVec 128)) (k : Nat) :
    Sent s (s.originate q typ pcp dstMac src dst cyc payload key k) := by
  have hq := queued_overList (s := s.wr (netA NET.SEQ) ((s.rd (netA NET.SEQ) + 1) % 65536)) (l := List.finRange 2)
    (f := fun s' n => s'.enqueue n ⟨q, s'.jisilFrame typ pcp dstMac src dst (s.rd (netA NET.SEQ)) cyc payload key n, false, k⟩)
    fun t n => enqueue_queued n _
  refine ⟨hq.rest, ?_, fun c hne hc => (hq.val c hc).trans (wr_val_other hne)⟩
  exact (val_rd (hq.val _ (.inl (by decide)))).trans (State.rd_wr _ _ _ (by omega))

theorem manage_sent (op addr mac : Nat) : Sent s (s.manage op addr mac) := originate_sent ..

theorem Sent.net (h : Sent s t) : t.net = { s.net with port := t.net.port } := (congrArg State.net h.rest :)

/-! ### NSTAT (R434, R437, R438) -/

theorem setAstate_astate {x : Nat} (h : x < 4) : (s.setAstate x).astate = x := by
  have hset : (s.setFld (netA NET.NSTAT) 13 12 x).fld (netA NET.NSTAT) 13 12 = x :=
    (State.fld_setFld _ _ (by decide) (by decide)).trans (Nat.mod_eq_of_lt h)
  exact (fld_of_bits (by decide) fun i _ hi => State.bit_setBit_other _ _ _ _ _ _ (.inr (by omega))).trans hset

theorem setAstate_val {x : Nat} (h : c ≠ netA NET.NSTAT) : (s.setAstate x).val c = s.val c :=
  (setBit_val_other h).trans (State.val_setFld_other _ _ _ _ _ _ h)

theorem setAstate_net (x : Nat) : (s.setAstate x).net = s.net := rfl

theorem astate_of_val (h : t.val (netA NET.NSTAT) = s.val (netA NET.NSTAT)) : t.astate = s.astate := val_fld h 13 12

theorem onNet_astate (f : Net → Net) : (s.onNet f).astate = s.astate := rfl

theorem onNet_rd (f : Net → Net) : (s.onNet f).rd c = s.rd c := rfl

/-- A flag of NSTAT sets its bit and leaves the others and astate. -/
theorem nstatFlag_bit {i : Nat} (hi : i < 64) : (s.flag (netA NET.NSTAT) i).bit (netA NET.NSTAT) i = true := by
  have h := flag_self_up (s := s) (b := netA NET.NSTAT) hi (by decide) (by decide)
  simp [State.bit, h, hi]

theorem nstatFlag_astate {i : Nat} (hi : i < 12) : (s.flag (netA NET.NSTAT) i).astate = s.astate := by
  refine fld_of_bits (by decide) fun j hj _ => ?_
  rw [State.bit, flag_self_up (by omega) (by decide) (by decide), BitVec.getLsbD_or, BitVec.getLsbD_twoPow, decide_eq_false (by omega : ¬ i = j),
    Bool.and_false, Bool.or_false, State.bit]

/-! ### A claim ends or begins (R435, R437) -/

theorem claimDone_net (st : Status) : (s.claimDone st).net = { s.net with claimer := none } := by
  unfold State.claimDone
  split
  · simp [State.onNet]
  next h => rw [← h]

theorem claimDone_val (st : Status) (h : c ≠ netA NET.NCMDSTAT) (hl : logReg c = false) : (s.claimDone st).val c = s.val c := by
  unfold State.claimDone
  split
  · exact (State.finish_val _ (by decide) (by decide)).2 c h hl
  · rfl

/-- A claim that fails leaves the node unaddressed and refused (R437). -/
theorem claimFail_failed (cause : Nat) : (s.claimFail cause).astate = 0 ∧ (s.claimFail cause).bit (netA NET.NSTAT) 11 = true ∧
    (s.claimFail cause).net = { s.net with claimer := none } := by
  unfold State.claimFail
  extract_lets s1
  have hstat : ((s1.flag (netA NET.NSTAT) 11).claimDone (claimStatus cause)).val (netA NET.NSTAT) = (s1.flag (netA NET.NSTAT) 11).val (netA NET.NSTAT) :=
    claimDone_val _ (by decide) (by decide)
  have hlog : s1.astate = 0 := (astate_of_val (State.log_val _ (by decide) _ _ _ _)).trans (setAstate_astate (by decide))
  refine ⟨(astate_of_val hstat).trans ((nstatFlag_astate (by decide)).trans hlog), (congrFun (val_bit hstat) 11).trans (nstatFlag_bit (by decide)), ?_⟩
  have hnet : (s1.flag (netA NET.NSTAT) 11).net = s.net := by simp [s1, setAstate_net]
  rw [claimDone_net, hnet]

/-- A claim of an address that begins: its first CLAIM is sent (R435). -/
theorem claimAddr_begins (a : Nat) : (s.claimAddr a).astate = 1 ∧ (s.claimAddr a).net.cand = a ∧ (s.claimAddr a).net.claims = 1 ∧
    (s.claimAddr a).net.claimClk = 0 ∧ (s.claimAddr a).rd (netA NET.SEQ) = (s.rd (netA NET.SEQ) + 1) % 65536 ∧
    (s.claimAddr a).net.claimer = s.net.claimer := by
  have h : Sent ((s.setAstate 1).onNet fun x => { x with cand := a, claims := 1, claimClk := 0 }) (s.claimAddr a) := manage_sent 1 a s.mac
  have hstate : (s.setAstate 1).astate = 1 := setAstate_astate (by decide)
  have hseq : (s.setAstate 1).rd (netA NET.SEQ) = s.rd (netA NET.SEQ) := val_rd (setAstate_val (by decide))
  have hnet := h.net
  refine ⟨(astate_of_val (h.val _ (by decide) (.inl (by decide)))).trans ((onNet_astate _).trans hstate), ?_, ?_, ?_,
    h.seq.trans (by rw [onNet_rd, hseq]), ?_⟩
  all_goals
    rw [hnet]
    simp only [State.onNet, setAstate_net]

/-! ### What a received frame leaves (R432, R436) -/

/-- From `s` to `t` an address is heard: astate and the claim stand, and of the registers only NSTAT and the count of evictions change. -/
structure Heard (s t : State) : Prop where
  astate : t.astate = s.astate
  val : ∀ c, c ≠ netA NET.NSTAT → c ≠ netA NET.DUPEVCT → logReg c = false → t.val c = s.val c
  cand : t.net.cand = s.net.cand

theorem dupNew_heard (src : Nat) (seq : BitVec 16) : Heard s (s.dupNew src seq) := by
  unfold State.dupNew
  extract_lets rest s1
  split
  · refine ⟨?_, fun c hn hd hl => ?_, by simp [s1, State.onNet]⟩
    · exact (astate_of_val (State.val_bump_other _ _ _ _ (by decide))).trans (nstatFlag_astate (s := s1) (by decide))
    · exact (State.val_bump_other _ _ _ _ hd).trans (State.flag_val s1 hl (by decide) hn)
  · exact ⟨rfl, fun _ _ _ _ => rfl, rfl⟩

theorem dupNew_newest (src : Nat) (seq : BitVec 16) : ⟨src, seq, 0⟩ ∈ (s.dupNew src seq).net.dups := by
  unfold State.dupNew
  extract_lets rest s1
  have h1 : ⟨src, seq, 0⟩ ∈ s1.net.dups := List.mem_cons_self
  split
  · simpa using h1
  · exact h1

theorem seeAddr_heard (a : Nat) : Heard s (s.seeAddr a) ∧ (s.seeAddr a).net.dups = s.net.dups := by
  unfold State.seeAddr
  split <;> exact ⟨⟨rfl, fun _ _ _ _ => rfl, rfl⟩, rfl⟩

theorem seeAddr_known {a : Nat} (h0 : a ≠ 0) (hhi : a ≤ 0x7FFE) : a ∈ (s.seeAddr a).net.known := by
  unfold State.seeAddr
  by_cases hk : s.net.known.contains a = true
  · rw [if_pos (.inr (.inr hk))]
    exact List.contains_iff_mem.mp hk
  · rw [if_neg (by simp only [not_or]; exact ⟨h0, by omega, hk⟩)]
    exact List.mem_cons_self

theorem Heard.trans (h : Heard s t) (g : Heard t u) : Heard s u :=
  ⟨g.astate.trans h.astate, fun c h1 h2 h3 => (g.val c h1 h2 h3).trans (h.val c h1 h2 h3), g.cand.trans h.cand⟩

/-- What a received CLAIM of address `a` makes of the filter and of the addresses seen. -/
def State.claimHeard (s : State) (a : Nat) (seq : BitVec 16) : State := (s.dupNew a seq).seeAddr a

theorem claimHeard_heard (a : Nat) (seq : BitVec 16) : Heard s (s.claimHeard a seq) := (dupNew_heard a seq).trans (seeAddr_heard a).1

/-- A received CLAIM: the holder defends its address, and a claiming node loses to a lower MAC. -/
theorem gotClaim_cases {a m : Nat} {seq : BitVec 16} (h0 : a ≠ 0) (hhi : a ≤ 0x7FFE) : s.gotClaim a m seq =
    if s.astate = 3 ∧ s.devAddr = a ∧ m ≠ s.mac then (s.claimHeard a seq).manage 2 a s.mac
    else if s.astate = 1 ∧ s.net.cand = a ∧ m < s.mac then (s.claimHeard a seq).claimFail 2
    else s.claimHeard a seq := by
  have h := claimHeard_heard (s := s) a seq
  have haddr : (s.claimHeard a seq).devAddr = s.devAddr := val_rd (h.val _ (by decide) (by decide) (by decide))
  have hmac : (s.claimHeard a seq).mac = s.mac := val_rd (h.val _ (by decide) (by decide) (by decide))
  have heard : (if a = 0 ∨ 0x7FFE < a then s else (s.dupNew a seq).seeAddr a) = s.claimHeard a seq := if_neg (by omega)
  simp only [State.gotClaim, heard, h.astate, haddr, hmac, h.cand]

/-- A received CLAIM renews its source in the filter and in the addresses seen, whatever follows from it. -/
theorem gotClaim_net {a m : Nat} {seq : BitVec 16} (h0 : a ≠ 0) (hhi : a ≤ 0x7FFE) :
    (∃ d ∈ (s.gotClaim a m seq).net.dups, d = ⟨a, seq, 0⟩) ∧ a ∈ (s.gotClaim a m seq).net.known := by
  have hnet : (s.gotClaim a m seq).net.dups = (s.claimHeard a seq).net.dups ∧ (s.gotClaim a m seq).net.known = (s.claimHeard a seq).net.known := by
    rw [gotClaim_cases h0 hhi]
    split
    · rw [(manage_sent _ _ _).net]
      exact ⟨rfl, rfl⟩
    · split
      · rw [(claimFail_failed _).2.2]
        exact ⟨rfl, rfl⟩
      · exact ⟨rfl, rfl⟩
  have hdups : (s.claimHeard a seq).net.dups = (s.dupNew a seq).net.dups := (seeAddr_heard a).2
  rw [hnet.1, hnet.2, hdups]
  exact ⟨⟨_, dupNew_newest a seq, rfl⟩, seeAddr_known h0 hhi⟩

/-- The holder's DEFEND is one frame, and it keeps its address. -/
theorem gotClaim_defends {a m : Nat} {seq : BitVec 16} (h0 : a ≠ 0) (hhi : a ≤ 0x7FFE) (h3 : s.astate = 3) (hmine : s.devAddr = a) (hm : m ≠ s.mac) :
    (s.gotClaim a m seq).rd (netA NET.SEQ) = (s.rd (netA NET.SEQ) + 1) % 65536 ∧ (s.gotClaim a m seq).astate = 3 := by
  have heard := claimHeard_heard (s := s) a seq
  have hsent := manage_sent (s := s.claimHeard a seq) 2 a s.mac
  have hseq : (s.claimHeard a seq).rd (netA NET.SEQ) = s.rd (netA NET.SEQ) := val_rd (heard.val _ (by decide) (by decide) (by decide))
  rw [gotClaim_cases h0 hhi, if_pos ⟨h3, hmine, hm⟩, hsent.seq, hseq, astate_of_val (hsent.val _ (by decide) (.inl (by decide))), heard.astate]
  exact ⟨rfl, h3⟩

/-! ### A session closes (R444, R463) -/

theorem giveFails_val (h : 0x050000 ≤ c) : s.giveFails.val c = s.val c := by
  unfold State.giveFails
  split
  · split
    · rfl
    · exact (State.finish_val (s.onWld _) (by decide) (by decide)).2 c (by simp only [wldA, WLD.CMDSTAT]; omega) (logReg_outside (.inr (by omega)))
  · rfl

theorem tokenMove_val {who : Nat} (h : 0x050000 ≤ c) : (s.tokenMove who).val c = s.val c := by
  rw [tokenMove_status (.inr (by unfold borA; omega)) (.inr (by simp only [wldA, WLD.SREG]; omega)) (logReg_outside (.inr (by omega)))]
  split
  · rfl
  · exact State.val_setFld_other _ _ _ _ _ _ (by simp only [wldA, WLD.STATUS]; omega)

theorem giveFails_net : s.giveFails.net = s.net := by
  unfold State.giveFails
  split
  · split
    · rfl
    · simp
  · rfl

theorem boreDiscard_net : s.boreDiscard.net = s.net := by
  unfold State.boreDiscard
  extract_lets patch src s1
  split
  · simp [s1, State.boreEmpty]
  · rfl

theorem revertMap_net : s.revertMap.net = s.net := by
  unfold State.revertMap
  extract_lets s1
  have h1 : s1.net = s.net := overList_const (g := State.net) fun _ _ => rfl
  exact h1

theorem onWld_net (f : World → World) : (s.onWld f).net = s.net := rfl

theorem tokenMove_net (who : Nat) : (s.tokenMove who).net = s.net := by
  unfold State.tokenMove
  split
  · rfl
  · rw [boreDiscard_net, onWld_net, revertMap_net]
    rfl

variable {k : Fin 8}

/-- SSTAT of session k. -/
def sstat (k : Nat) : Nat := netsBase k + NETS.SSTAT

theorem sstat_ge (k : Nat) : 0x050400 ≤ sstat k := by
  unfold sstat netsBase NETS.SSTAT
  omega

theorem sstat_ne {j : Nat} (h : j ≠ k.val) : sstat j ≠ sstat k := by
  unfold sstat netsBase
  omega

theorem sessOpen_sstat (k : Fin 8) : s.sessOpen k = s.bit (sstat k) 15 := by
  simp [State.sessOpen, sstat, k.isLt]

/-- What a session leaves in the backbone when it closes: its own state anew, and none of its requests and frames. -/
def Net.closed (x : Net) (k : Fin 8) : Net :=
  { x with sess := x.sess.set k Sess.start, reqs := x.reqs.filter (fun r => r.k != k.val),
           port := x.port.map (fun p => { p with txq := p.txq.filter (fun f => f.k != k.val) }) }

theorem closeSession_closed (h : s.sessOpen k = false) : s.closeSession k = s := if_pos (by simp [h])

/-- An open session that closes: SSTAT keeps its generation alone, and of the registers from NET on nothing else changes. -/
theorem closeSession_open (h : s.sessOpen k = true) : (s.closeSession k).net = s.net.closed k ∧
    (s.closeSession k).val (sstat k) = BitVec.ofNat 64 (s.rd (sstat k) % 256) ∧
    ∀ c, 0x050000 ≤ c → c ≠ sstat k → (s.closeSession k).val c = s.val c := by
  unfold State.closeSession
  extract_lets a s1 s2 due s3
  rw [if_neg (by simp [h])]
  have h3 : s3.net = s.net.closed k ∧ ∀ c, 0x050000 ≤ c → s3.val c = (s.wr (sstat k) (s.rd (sstat k) % 256)).val c := by
    unfold s3
    split
    · exact ⟨giveFails_net, fun c hc => giveFails_val hc⟩
    · exact ⟨rfl, fun c _ => rfl⟩
  have hend : ((if s3.master_ = 2 + k.val then s3.tokenMove 1 else s3).net = s3.net) ∧
      ∀ c, 0x050000 ≤ c → (if s3.master_ = 2 + k.val then s3.tokenMove 1 else s3).val c = s3.val c := by
    split
    · exact ⟨tokenMove_net 1, fun c hc => tokenMove_val hc⟩
    · exact ⟨rfl, fun _ _ => rfl⟩
  refine ⟨hend.1.trans h3.1, ?_, fun c hc hne => (hend.2 c hc).trans ((h3.2 c hc).trans (wr_val_other hne))⟩
  have hk : 0x050000 ≤ sstat k := (by decide : 0x050000 ≤ 0x050400).trans (sstat_ge k)
  exact (hend.2 _ hk).trans ((h3.2 _ hk).trans ((s.val_wr _ _ _).trans (if_pos rfl)))

theorem closeSession_val (hc : 0x050000 ≤ c) (hne : c ≠ sstat k) : (s.closeSession k).val c = s.val c := by
  cases h : s.sessOpen k with
  | false => rw [closeSession_closed h]
  | true => exact (closeSession_open h).2.2 c hc hne

theorem closeSession_shut : (s.closeSession k).sessOpen k = false := by
  cases h : s.sessOpen k with
  | false => rwa [closeSession_closed h]
  | true =>
    rw [sessOpen_sstat, State.bit, (closeSession_open h).2.1]
    have hlt : s.rd (sstat k) % 256 < 2 ^ 15 := by omega
    rw [BitVec.getLsbD_ofNat, Nat.testBit_lt_two_pow hlt, Bool.and_false]

theorem closeSession_keeps_shut {j : Fin 8} (h : s.sessOpen j = false) : (s.closeSession k).sessOpen j = false := by
  by_cases hj : j = k
  · exact hj ▸ closeSession_shut
  · have hne : sstat j ≠ sstat k := sstat_ne fun e => hj (Fin.ext e)
    rw [sessOpen_sstat] at h ⊢
    rw [State.bit, closeSession_val ((by decide : 0x050000 ≤ 0x050400).trans (sstat_ge j)) hne]
    exact h

theorem closeAll_shut (k : Fin 8) : s.closeAll.sessOpen k = false :=
  overList_establishes (P := fun t (k : Fin 8) => t.sessOpen k = false) (f := fun s (k : Fin 8) => s.closeSession k) (fun _ _ => closeSession_shut)
    (fun _ _ _ h => closeSession_keeps_shut h) (List.mem_finRange k)

theorem closeAll_val (hc : 0x050000 ≤ c) (hlt : c < 0x050400) : s.closeAll.val c = s.val c :=
  overList_val fun _ k _ => closeSession_val hc (Nat.ne_of_lt (lt_of_lt_of_le hlt (sstat_ge k)))

/-! ### NET commands (R439, R452) -/

variable {acc : Fin 15} {op arg : Nat}

/-- A NET command that ends at once: judged by its effect, and complete in NCMDSTAT. -/
theorem netCmd_ends {st : Status} (hr : s.ready = true) (hm : s.mayAccess acc 52 = true) (hf : s.net.claimer = none) (hst : st ≠ .world)
    (he : s.netEffect acc op arg = (some st, u)) : State.counted acc (s.netCmd acc op arg) = u.finish (netA NET.NCMDSTAT) 52 op arg acc st := by
  simp [State.counted, State.netCmd, hr, hm, hf, he, hst]

/-- A CLAIM that begins is complete only with its claim. -/
theorem netCmd_begins (hr : s.ready = true) (hm : s.mayAccess acc 52 = true) (hf : s.net.claimer = none) (he : s.netEffect acc op arg = (none, u)) :
    State.counted acc (s.netCmd acc op arg) = u := by
  simp [State.counted, State.netCmd, hr, hm, hf, he]

theorem netFinish_val {st : Status} (h : c ≠ netA NET.NCMDSTAT) (hl : logReg c = false) :
    (s.finish (netA NET.NCMDSTAT) 52 op arg acc st).val c = s.val c := (State.finish_val s (by decide) (by decide)).2 c h hl

theorem netFinish_sessOpen {st : Status} (k : Fin 8) : (s.finish (netA NET.NCMDSTAT) 52 op arg acc st).sessOpen k = s.sessOpen k := by
  have hge := sstat_ge k
  have hne : sstat k ≠ netA NET.NCMDSTAT := Nat.ne_of_gt (lt_of_lt_of_le (by decide) hge)
  rw [sessOpen_sstat, sessOpen_sstat, val_bit (netFinish_val hne (logReg_outside (.inr (by omega))))]

theorem netFinish_said {st : Status} (h : op < 256) : (s.finish (netA NET.NCMDSTAT) 52 op arg acc st).rd (netA NET.NCMDSTAT) = op * 256 + st.code := by
  have hst : st.code < 12 := by cases st <;> decide
  rw [State.rd, (State.finish_val s (by decide) (by decide)).1, BitVec.toNat_ofNat]
  exact Nat.mod_eq_of_lt (by omega)

/-- The manager is asked for an address: a REQUEST is sent (R436). -/
def State.askManager (s : State) : State := ((s.setAstate 2).onNet fun x => { x with asked := 1, claimClk := 0 }).manage 3 0 s.mac

/-- A claim of ADDRREQ begins, or the manager is asked (R435, R436). -/
theorem startClaim_eq : s.startClaim = let s1 := s.onNet fun x => { x with autoDue := false }
    if s.rd (netA NET.ADDRREQ) = 0 then s1.askManager else s1.claimAddr (s.rd (netA NET.ADDRREQ)) := rfl

theorem askManager_asks : s.askManager.astate = 2 ∧ s.askManager.net.asked = 1 ∧ s.askManager.rd (netA NET.SEQ) = (s.rd (netA NET.SEQ) + 1) % 65536 ∧
    s.askManager.net.claimer = s.net.claimer := by
  have h : Sent ((s.setAstate 2).onNet fun x => { x with asked := 1, claimClk := 0 }) s.askManager := manage_sent 3 0 s.mac
  have hstate : (s.setAstate 2).astate = 2 := setAstate_astate (by decide)
  have hseq : (s.setAstate 2).rd (netA NET.SEQ) = s.rd (netA NET.SEQ) := val_rd (setAstate_val (by decide))
  have hnet := h.net
  refine ⟨(astate_of_val (h.val _ (by decide) (.inl (by decide)))).trans ((onNet_astate _).trans hstate), ?_, h.seq.trans (by rw [onNet_rd, hseq]), ?_⟩
  all_goals
    rw [hnet]
    simp only [State.onNet, setAstate_net]

/-- A claim of ADDRREQ begins with its first CLAIM, and a claim without an address with the first REQUEST. -/
theorem startClaim_begins : s.startClaim.net.claimer = s.net.claimer ∧
    (s.rd (netA NET.ADDRREQ) ≠ 0 → s.startClaim.astate = 1 ∧ s.startClaim.net.cand = s.rd (netA NET.ADDRREQ) ∧ s.startClaim.net.claims = 1 ∧
      s.startClaim.net.claimClk = 0 ∧ s.startClaim.rd (netA NET.SEQ) = (s.rd (netA NET.SEQ) + 1) % 65536) ∧
    (s.rd (netA NET.ADDRREQ) = 0 → s.startClaim.astate = 2 ∧ s.startClaim.net.asked = 1 ∧
      s.startClaim.rd (netA NET.SEQ) = (s.rd (netA NET.SEQ) + 1) % 65536) := by
  rw [startClaim_eq]
  extract_lets s1
  by_cases hreq : s.rd (netA NET.ADDRREQ) = 0
  · rw [if_pos hreq]
    obtain ⟨hstate, hasked, hseq, hclaimer⟩ := askManager_asks (s := s1)
    exact ⟨hclaimer, fun h => absurd hreq h, fun _ => ⟨hstate, hasked, hseq⟩⟩
  · rw [if_neg hreq]
    obtain ⟨hstate, hcand, hclaims, hclk, hseq, hclaimer⟩ := claimAddr_begins (s := s1) (s.rd (netA NET.ADDRREQ))
    exact ⟨hclaimer, fun _ => ⟨hstate, hcand, hclaims, hclk, hseq⟩, fun h => absurd h hreq⟩

/-- RELEASE: a frame, every session closed, and the node unaddressed (R439). -/
theorem releaseAddr_leaves : s.releaseAddr.astate = 0 ∧ s.releaseAddr.devAddr = 0 ∧ s.releaseAddr.rd (netA NET.SEQ) = (s.rd (netA NET.SEQ) + 1) % 65536 ∧
    ∀ k : Fin 8, s.releaseAddr.sessOpen k = false := by
  unfold State.releaseAddr
  have hsent := manage_sent (s := s) 5 s.devAddr s.mac
  refine ⟨setAstate_astate (by decide), ?_, ?_, fun k => ?_⟩
  · rw [State.devAddr, val_rd (setAstate_val (by decide)), State.rd_wr _ _ _ (by decide)]
  · rw [val_rd (setAstate_val (by decide)), State.rd_wr_other _ _ _ _ (by decide), val_rd (closeAll_val (by decide) (by decide)), hsent.seq]
  · have hge := sstat_ge k
    have hnstat : sstat k ≠ netA NET.NSTAT := Nat.ne_of_gt (lt_of_lt_of_le (by decide) hge)
    have haddr : sstat k ≠ netA NET.ADDR := Nat.ne_of_gt (lt_of_lt_of_le (by decide) hge)
    rw [sessOpen_sstat, val_bit (setAstate_val hnstat), val_bit (wr_val_other haddr), ← sessOpen_sstat]
    exact closeAll_shut k

/-! ### The timers of a claim (R435, R436) -/

theorem astate_of_claimWaited (h : s.claimWaited = true) : s.astate = 1 := by
  simp only [State.claimWaited, Bool.and_eq_true, beq_iff_eq] at h
  exact h.1

theorem astate_of_requestWaited (h : s.requestWaited = true) : s.astate = 2 := by
  simp only [State.requestWaited, Bool.and_eq_true, beq_iff_eq] at h
  exact h.1

/-- The next CLAIM or REQUEST is one frame, and the claim goes on as `f` counts it. -/
theorem manage_counted (f : Net → Net) (op addr mac : Nat) : ((s.onNet f).manage op addr mac).rd (netA NET.SEQ) = (s.rd (netA NET.SEQ) + 1) % 65536 ∧
    ((s.onNet f).manage op addr mac).astate = s.astate ∧
    ((s.onNet f).manage op addr mac).net = { f s.net with port := ((s.onNet f).manage op addr mac).net.port } := by
  have h := manage_sent (s := s.onNet f) op addr mac
  exact ⟨h.seq, (astate_of_val (h.val _ (by decide) (.inl (by decide)))).trans (onNet_astate f), h.net⟩

/-- The address is confirmed after its third CLAIM (R435). -/
theorem claimConfirm_confirms (hw : s.claimWaited = true) (hge : 3 ≤ s.net.claims) : s.claimConfirm.astate = 3 ∧
    s.claimConfirm.devAddr = s.net.cand % 2 ^ 64 ∧ s.claimConfirm.net.claimer = none := by
  have hdone : s.claimConfirm = ((s.wr (netA NET.ADDR) s.net.cand).setAstate 3).claimDone .done := if_pos ⟨hw, hge⟩
  rw [hdone, claimDone_net, astate_of_val (claimDone_val _ (by decide) (by decide)), State.devAddr, val_rd (claimDone_val _ (by decide) (by decide)),
    val_rd (setAstate_val (by decide))]
  refine ⟨setAstate_astate (by decide), ?_, rfl⟩
  rw [State.rd, State.val_wr, if_pos rfl, BitVec.toNat_ofNat]

theorem netEffect_claim (h0 : s.astate = 0) (hup : (s.portUp 0 || s.portUp 1) = true) :
    s.netEffect acc 0x10 0 = (none, (s.onNet fun x => { x with claimer := some acc.val }).startClaim) := by
  have hlink : ¬ (!s.portUp 0 && !s.portUp 1) = true := by
    rw [← Bool.not_or, hup]
    decide
  simp [State.netEffect, h0, hlink]

theorem netEffect_release (h3 : s.astate = 3) : s.netEffect acc 0x11 0 = (some .done, s.releaseAddr) := by simp [State.netEffect, h3]

end

/-- Settles O43: each frame and each timer by what it makes of the claim and of astate. That every node keeps the addresses seen, and that a
manager answers with an address of its own alone, are the model's choices (log 24). -/
theorem addressProtocol : Obligations.AddressProtocol := by
  unfold Obligations.AddressProtocol
  intro s ha more failed begun
  have next {t u : State} (h : t = u) : (Host.Outcome.next t : Host.Outcome State Fault Refusal) = .next u := congrArg _ h
  have awake (f : State → State) : s.awake f = f s := awake_of_not_asleep ha f
  have fails {t u : State} {cause : Nat} (h : t = u.claimFail cause) : failed t := by
    obtain ⟨hstate, hflag, hnet⟩ := claimFail_failed (s := u) cause
    exact h ▸ ⟨hstate, hflag, by rw [hnet]⟩
  refine ⟨fun a mac seq h0 hhi => ?_, fun a => ?_, fun mac => ⟨fun hman h3 => ?_, fun hno => ?_⟩, fun a mac => ⟨fun h2 hmine => ?_, fun hno => ?_⟩, fun a => ?_,
    fun hw => ⟨fun hlt => ?_, fun hge => ?_⟩, fun hw => ⟨?_, ?_⟩, fun hw => ⟨fun hlt => ?_, fun hge => ?_⟩, fun acc hr hm hfree => ⟨fun h0 hup => ?_, fun h3 => ?_⟩⟩
  · obtain ⟨hdup, hknown⟩ := gotClaim_net (s := s) (m := mac.toNat) (seq := seq) h0 hhi
    refine ⟨_, next (awake _), hdup, hknown, gotClaim_defends h0 hhi, fun h1 hcand hlt => ?_, fun h1 hle => ?_⟩
    · exact fails ((gotClaim_cases h0 hhi).trans ((if_neg (by omega)).trans (if_pos ⟨h1, hcand, hlt⟩)))
    · have hstays := (gotClaim_cases (s := s) (m := mac.toNat) (seq := seq) h0 hhi).trans ((if_neg (by omega)).trans (if_neg (by omega)))
      exact (congrArg State.astate hstays).trans ((claimHeard_heard a seq).astate.trans h1)
  · have heard := (seeAddr_heard (s := s) a).1
    refine ⟨_, next (awake _), fun h1 hcand => fails (if_pos ⟨heard.astate.trans h1, heard.cand.trans hcand⟩), fun hno => ?_⟩
    have hstays : s.gotDefend a = s.seeAddr a := if_neg (by rw [heard.astate, heard.cand]; tauto)
    exact (congrArg State.astate hstays).trans heard.astate
  · have hsent := manage_sent (s := s) 4 (s.freeAddr 0x7FFE 1) mac.toNat
    exact ⟨_, next ((awake _).trans (if_pos ⟨hman, h3⟩)), hsent.seq, by rw [hsent.net]⟩
  · exact next ((awake _).trans (if_neg (by rintro ⟨hman, h3⟩; simp [hman, h3] at hno)))
  · have hoffer : s.gotOffer a mac.toNat = if a.val = 0 then s.claimFail 4 else s.claimAddr a := if_pos ⟨h2, hmine⟩
    refine ⟨_, next ((awake _).trans hoffer), fun h => fails (if_pos h), fun h => ?_⟩
    rw [if_neg h]
    obtain ⟨hstate, hcand, hclaims, hclk, hseq, -⟩ := claimAddr_begins (s := s) a
    exact ⟨hstate, hcand, hclaims, hclk, hseq⟩
  · exact next ((awake _).trans (if_neg (by tauto)))
  · exact ⟨_, next (awake _), by simp [State.gotLeave, State.onNet], fun b hb => by simp [State.gotLeave, State.onNet, hb]⟩
  · have h := manage_counted (s := s) (fun x => { x with claims := x.claims + 1, claimClk := 0 }) 1 s.net.cand s.mac
    obtain ⟨hseq, hstate, hnet⟩ := h
    refine ⟨_, next ((awake _).trans (if_pos ⟨hw, hlt⟩)), ?_, ?_, hseq, hstate.trans (astate_of_claimWaited hw)⟩
    · exact congrArg Net.claims hnet
    · exact congrArg Net.claimClk hnet
  · exact ⟨_, next (awake _), claimConfirm_confirms hw hge⟩
  · exact next ((awake _).trans (if_neg (by simp [hw])))
  · exact next ((awake _).trans (if_neg (by simp [hw])))
  · obtain ⟨hseq, hstate, hnet⟩ := manage_counted (s := s) (fun x => { x with asked := x.asked + 1, claimClk := 0 }) 3 0 s.mac
    refine ⟨_, next ((awake _).trans ((if_pos hw).trans (if_pos hlt))), ?_, ?_, hseq, hstate.trans (astate_of_requestWaited hw)⟩
    · exact congrArg Net.asked hnet
    · exact congrArg Net.claimClk hnet
  · exact ⟨_, next ((awake _).trans ((if_pos hw).trans (if_neg (by omega)))), fails rfl⟩
  · have hcmd := netCmd_begins hr hm hfree (netEffect_claim (acc := acc) h0 hup)
    exact ⟨_, next ((awake _).trans hcmd), startClaim_begins (s := s.onNet fun x => { x with claimer := some acc.val })⟩
  · obtain ⟨hstate, haddr, hseq, hshut⟩ := releaseAddr_leaves (s := s)
    have hkept {c : Nat} (h : c ≠ netA NET.NCMDSTAT) (hl : logReg c = false) := netFinish_val (s := s.releaseAddr) (acc := acc) (op := 0x11) (arg := 0)
      (st := .done) h hl
    refine ⟨_, next ((awake _).trans (netCmd_ends hr hm hfree (by decide) (netEffect_release (acc := acc) h3))),
      (astate_of_val (hkept (by decide) (by decide))).trans hstate, (val_rd (hkept (by decide) (by decide))).trans haddr,
      (val_rd (hkept (by decide) (by decide))).trans hseq, fun k => (netFinish_sessOpen k).trans (hshut k), netFinish_said (by decide)⟩

end Sys2Proof.Machine
end

section
/-! PROOF. Requests as they are executed and answered, the subscription table, and the settlement of O49. -/

namespace Sys2Proof.Machine

section
variable {s t u : State} {c : Nat} {r : Req} {rest : List Req} {k : Fin 8} {f : Nat → Bool}

/-! ### The oldest request (R446) -/

theorem serve_open (hq : s.net.reqs = r :: rest) (hop : r.op = 0x10) (hf : f 0x10 = true) : s.serve f = (s.execOpen r).reqDone r := by
  simp [State.serve, hq, hop, hf]

theorem serve_words (hq : s.net.reqs = r :: rest) (hk : r.k = k) (hop : r.op = 0x01 ∨ r.op = 0x02) (hf : f r.op = true) :
    s.serve f = s.execWords k r := by
  rcases hop with hop | hop <;>
  · rw [hop] at hf
    simp [State.serve, hq, hop, hf, hk]

theorem serve_close (hq : s.net.reqs = r :: rest) (hk : r.k = k) (hop : r.op = 0x11) (hf : f 0x11 = true) : s.serve f = s.execClose k r := by
  simp [State.serve, hq, hop, hf, hk]

theorem serve_nop (hq : s.net.reqs = r :: rest) (hk : r.k = k) (hop : r.op = 0x12) (hf : f 0x12 = true) :
    s.serve f = (s.answer k r .done [] 0).reqDone r := by
  simp [State.serve, hq, hop, hf, hk]

theorem reqDone_reqs (hq : s.net.reqs = r :: rest) : (s.reqDone r).net.reqs = rest := by
  simp [State.reqDone, State.onNet, hq]

theorem reqDone_kept : (s.reqDone r).regs = s.regs ∧ (s.reqDone r).net.sess = s.net.sess ∧ (s.reqDone r).path = s.path ∧ (s.reqDone r).acc = s.acc :=
  ⟨rfl, rfl, rfl, rfl⟩

theorem reply_sent (dst : Nat) (payload : List Byte) (key : Option (BitVec 128)) (j : Nat) : Sent s (s.reply dst payload key j) := originate_sent ..

theorem Sent.reqs (h : Sent s t) : t.net.reqs = s.net.reqs := by rw [h.net]

theorem Sent.sess (h : Sent s t) : t.net.sess = s.net.sess := by rw [h.net]

theorem Sent.path (h : Sent s t) : t.path = s.path := (congrArg State.path h.rest :)

theorem Sent.acc (h : Sent s t) : t.acc = s.acc := (congrArg State.acc h.rest :)

/-- A request that one frame answers has left the queue, and the sequence number is one more. -/
theorem replied_done (h : Sent s t) (hq : s.net.reqs = r :: rest) : (t.reqDone r).net.reqs = rest ∧
    (t.reqDone r).rd (netA NET.SEQ) = (s.rd (netA NET.SEQ) + 1) % 65536 ∧ (t.reqDone r).net.sess = s.net.sess :=
  ⟨reqDone_reqs (h.reqs.trans hq), h.seq, h.sess⟩

/-! ### OPEN (R444, R473) -/

theorem execOpen_range (h : 1 < byteAt r.data 3) : s.execOpen r = s.replyStatus r.src r.echo Status.range.code none noSess := if_pos h

theorem execOpen_world (h : byteAt r.data 3 = 1) (htag : r.tagOk = false) :
    s.execOpen r = (s.replyStatus r.src r.echo Status.world.code none noSess).authFail 0xF0 0xFF := by
  simp [State.execOpen, h, htag]

theorem execOpen_full (h : byteAt r.data 3 ≤ 1) (htag : byteAt r.data 3 = 1 → r.tagOk = true) (hfree : s.freeSession = none) :
    s.execOpen r = (s.replyStatus r.src r.echo Status.full.code none noSess).fullCount := by
  have hbad : ¬ (byteAt r.data 3 = 1 ∧ (!r.tagOk) = true) := fun ⟨h1, h2⟩ => by simp [htag h1] at h2
  unfold State.execOpen
  dsimp only
  rw [if_neg (by omega), if_neg hbad, hfree]

theorem violate_val {id kind blk : Nat} (hid : 9 < id) (h : c ≠ wldA WLD.LASTVIO ∧ c ≠ wldA WLD.LASTBLK ∧ c ≠ wldA WLD.STATUS)
    (hl : logReg c = false) : (s.violate id kind blk).val c = s.val c := by
  obtain ⟨hvio, hblk, hstat⟩ := h
  unfold State.violate
  extract_lets s1 s2
  have h1 : s1 = s := if_neg (by omega)
  have h2 : s2.val c = s.val c :=
    (State.irq_val _ hl (by decide)).trans ((setBit_val_other hstat).trans ((wr_val_other hblk).trans ((wr_val_other hvio).trans (by rw [h1]))))
  split
  · exact h2
  · exact (State.log_val _ hl _ _ _ _).trans h2

theorem violate_net {id kind blk : Nat} : (s.violate id kind blk).net = s.net := by
  unfold State.violate
  extract_lets s1 s2
  have h2 : s2.net = s.net := by
    by_cases hid : id ≤ 9 <;> simp [s2, s1, hid]
  split
  · exact h2
  · simpa using h2

/-- An authentication that fails counts in AUTHFAIL, and leaves NET alone. -/
theorem authFail_counts {id blk : Nat} (hid : 9 < id) : (s.authFail id blk).rd (wldA WLD.AUTHFAIL) = min 0xFFFF (s.rd (wldA WLD.AUTHFAIL) + 1) ∧
    (s.authFail id blk).net = s.net ∧ (s.authFail id blk).rd (netA NET.SEQ) = s.rd (netA NET.SEQ) := by
  refine ⟨?_, violate_net, ?_⟩
  · exact (val_rd (violate_val hid (by decide) (by decide))).trans (State.rd_wr _ _ _ (by omega))
  · exact (val_rd (violate_val hid (by decide) (by decide))).trans (State.rd_wr_other _ _ _ _ (by decide))

theorem fullCount_counts : s.fullCount.rd (netA NET.FULLCNT) = min 0xFFFF (s.rd (netA NET.FULLCNT) + 1) := State.rd_wr _ _ _ (by omega)

theorem fullCount_val (h : c ≠ netA NET.FULLCNT) : s.fullCount.val c = s.val c := State.val_bump_other _ _ _ _ h

/-- SCLI of session k. -/
theorem scli_ne (k : Fin 8) : netsBase k + NETS.SCLI ≠ sstat k := by
  unfold sstat
  exact offset_ne (by decide)

/-- An opened session shows its state, its generation, its world and its client. -/
theorem openSession_shown {client gen : Nat} {key : Option (BitVec 128)} (hg : gen < 256) (hc : client < 2 ^ 64) :
    (s.openSession k client key gen).rd (sstat k) = 32768 + (if key.isSome then 16384 else 0) + gen ∧
      (s.openSession k client key gen).rd (netsBase k + NETS.SCLI) = client ∧ ((s.openSession k client key gen).net.sess[k]).key = key := by
  have hword : 32768 + (if key.isSome then 16384 else 0) + gen < 2 ^ 64 := by
    split <;> omega
  refine ⟨?_, State.rd_wr _ _ _ hc, by simp [State.openSession, State.freshAcc, State.onAcc, State.onNet]⟩
  exact (State.rd_wr_other (s.wr (sstat k) (32768 + (if key.isSome then 16384 else 0) + gen)) _ _ _ (scli_ne k).symm).trans (State.rd_wr _ _ _ hword)

/-- The bits of a session's word. -/
theorem sstat_bits {b gen : Nat} {sec : Bool} (hg : gen < 256) (h : s.rd b = 32768 + (if sec then 16384 else 0) + gen) :
    s.bit b 15 = true ∧ s.bit b 14 = sec ∧ s.fld b 7 0 = gen := by
  have hf : s.fld b 7 0 = s.rd b / 1 % 256 := rfl
  rw [State.bit_rd, State.bit_rd, hf, h]
  cases sec
  · refine ⟨decide_eq_true ?_, decide_eq_false ?_, ?_⟩ <;> simp <;> omega
  · refine ⟨decide_eq_true ?_, decide_eq_true ?_, ?_⟩ <;> simp <;> omega

/-- An OPEN that is answered from an opened session: the session shows its word, its client and its key. -/
theorem opened_replied {client gen : Nat} {key : Option (BitVec 128)} {payload : List Byte} (hq : s.net.reqs = r :: rest) (hg : gen < 256)
    (hc : client < 2 ^ 64) {t : State} (ht : t = ((s.openSession k client key gen).reply r.src payload key k).reqDone r) :
    t.net.reqs = rest ∧ t.rd (netA NET.SEQ) = (s.rd (netA NET.SEQ) + 1) % 65536 ∧ t.sessOpen k = true ∧ t.fld (sstat k) 7 0 = gen ∧
      t.bit (sstat k) 14 = key.isSome ∧ (t.net.sess[k]).key = key ∧ t.rd (netsBase k + NETS.SCLI) = client := by
  obtain ⟨hword, hcli, hkey⟩ := openSession_shown (s := s) (k := k) (key := key) hg hc
  have hsent := reply_sent (s := s.openSession k client key gen) r.src payload key k
  have hge := sstat_ge k
  have hports : netpBase 2 ≤ sstat k ∧ netpBase 2 ≤ netsBase k + NETS.SCLI := by
    simp only [netpBase, netsBase, NETS.SCLI]
    omega
  have hseq {b : Nat} (hb : netpBase 2 ≤ b) : netA NET.SEQ ≠ b := by
    simp only [netA, NET.SEQ, netpBase] at hb ⊢
    omega
  have hkept {b : Nat} (hb : netpBase 2 ≤ b) : t.rd b = (s.openSession k client key gen).rd b :=
    ht ▸ val_rd (hsent.val b (hseq hb).symm (.inr hb))
  obtain ⟨hopen, hsec, hgen⟩ := sstat_bits hg ((hkept hports.1).trans hword)
  obtain ⟨hreqs, hsq, hsess⟩ := replied_done hsent (r := r) (rest := rest) hq
  have hopened : (s.openSession k client key gen).rd (netA NET.SEQ) = s.rd (netA NET.SEQ) :=
    (State.rd_wr_other (s.wr (sstat k) _) _ _ _ (hseq hports.2)).trans (State.rd_wr_other _ _ _ _ (hseq hports.1))
  rw [hopened] at hsq
  rw [← ht] at hreqs hsq hsess
  exact ⟨hreqs, hsq, (sessOpen_sstat k).trans hopen, hgen, hsec, by rw [hsess]; exact hkey, (hkept hports.2).trans hcli⟩

/-- An OPEN that opens the lowest free session: with a session key for world 1 alone. -/
theorem execOpen_opens (h : byteAt r.data 3 ≤ 1) (htag : byteAt r.data 3 = 1 → r.tagOk = true) (hfree : s.freeSession = some k)
    (hdk : byteAt r.data 3 = 1 → s.wld.dkey.isSome = true) : ∃ (x : Nat) (key : Option (BitVec 128)) (payload : List Byte),
      key.isSome = decide (byteAt r.data 3 = 1) ∧ s.execOpen r =
        (({ s with fresh := x } : State).openSession k (beNat (r.data.take 3) % 2 ^ 21) key ((s.fld (sstat k) 7 0 + 1) % 256)).reply r.src payload key k := by
  have hbad : ¬ (byteAt r.data 3 = 1 ∧ (!r.tagOk) = true) := fun ⟨h1, h2⟩ => by simp [htag h1] at h2
  unfold State.execOpen
  dsimp only
  rw [if_neg (by omega), if_neg hbad, hfree]
  dsimp only
  by_cases hw : byteAt r.data 3 = 1
  · obtain ⟨dk, hkey⟩ := Option.isSome_iff_exists.mp (hdk hw)
    rw [if_pos hw, hkey, decide_eq_true hw]
    exact ⟨s.fresh + 1, some _, _, rfl, rfl⟩
  · rw [if_neg hw, decide_eq_false hw]
    exact ⟨s.fresh, none, _, rfl, rfl⟩

/-! ### CLOSE (R444) -/

theorem closeSession_reqs (h : s.sessOpen k = true) : (s.closeSession k).net.reqs = s.net.reqs.filter (fun q => q.k != k.val) := by
  rw [(closeSession_open h).1]
  rfl

/-- A CLOSE closes its session, drops its requests, and is still answered. -/
theorem execClose_closes (hq : s.net.reqs = r :: rest) (h : s.sessOpen k = true) : (s.execClose k r).sessOpen k = false ∧
    (s.execClose k r).rd (netA NET.SEQ) = (s.rd (netA NET.SEQ) + 1) % 65536 ∧ (s.execClose k r).net.reqs = rest.filter (fun q => q.k != k.val) := by
  have hge := sstat_ge k
  have hopen : (s.reqDone r).sessOpen k = true := h
  have hsent : Sent ((s.reqDone r).closeSession k) (s.execClose k r) := reply_sent ..
  have hne : sstat k ≠ netA NET.SEQ := Nat.ne_of_gt (lt_of_lt_of_le (by decide) hge)
  have hports : netpBase 2 ≤ sstat k := (by decide : netpBase 2 ≤ 0x050400).trans hge
  refine ⟨?_, hsent.seq.trans ?_, ?_⟩
  · rw [sessOpen_sstat, val_bit (hsent.val _ hne (.inr hports)), ← sessOpen_sstat]
    exact closeSession_shut
  · rw [val_rd (closeSession_val (by decide) hne.symm)]
    rfl
  · rw [hsent.reqs, closeSession_reqs hopen, reqDone_reqs hq]

/-! ### Answers (R445, R446, R514, R515) -/

/-- The reply of a request with its status and words. -/
def Req.replyOf (r : Req) (st : Status) (data : List (BitVec 32)) (n : Nat) : List Byte :=
  r.echo ++ beBytes 1 st.code ++ beBytes 2 n ++ (data.map (fun w => beBytes 4 w.toNat)).flatten

/-- The answer of an open session of the request's generation is one frame, and the newest entry of its cache. -/
theorem answer_done {st : Status} {data : List (BitVec 32)} {n : Nat} (hregs : u.regs = s.regs) (hnet : u.net = s.net) (hq : s.net.reqs = r :: rest)
    (h : s.sessOpen k = true) (hg : s.fld (sstat k) 7 0 = r.gen) : let t := (u.answer k r st data n).reqDone r
    t.net.reqs = rest ∧ t.rd (netA NET.SEQ) = (s.rd (netA NET.SEQ) + 1) % 65536 ∧ (t.net.sess[k]).cache.head? = some (r.rid, r.replyOf st data n) ∧
      t.path = u.path ∧ t.acc = u.acc := by
  have hval : u.val = s.val := congrArg (spGet resetOf) hregs
  have hopen : u.sessOpen k = true := by rw [sessOpen_sstat, val_bit (congrFun hval _), ← sessOpen_sstat, h]
  have hgen : u.fld (sstat k) 7 0 = r.gen := (val_fld (congrFun hval _) 7 0).trans hg
  have hanswer : u.answer k r st data n = (u.onNet fun m => { m with sess := m.sess.set k { u.net.sess[k] with
      cache := ((r.rid, r.replyOf st data n) :: (u.net.sess[k]).cache).take 8 } }).reply r.src (r.replyOf st data n) (u.net.sess[k]).key k :=
    if_neg (by rw [hopen]; simpa [sstat] using hgen)
  have hsent := hanswer ▸ reply_sent (s := u.onNet fun m => { m with sess := m.sess.set k { u.net.sess[k] with
      cache := ((r.rid, r.replyOf st data n) :: (u.net.sess[k]).cache).take 8 } }) r.src (r.replyOf st data n) (u.net.sess[k]).key k
  obtain ⟨hreqs, hseq, hsess⟩ := replied_done hsent (r := r) (rest := rest) ((congrArg Net.reqs hnet).trans hq)
  refine ⟨hreqs, hseq.trans ?_, ?_, hsent.path, hsent.acc⟩
  · rw [onNet_rd, val_rd (congrFun hval _)]
  · rw [hsess]
    simp [State.onNet]

theorem execWords_of_burst {b : Burst} (hb : s.reqBurst k r = b) (hsoft : b.soft = false) : s.execWords k r =
    ((b.st.record_ (sessAcc k) (b.first.getD .done) b.n false).answer k r (b.first.getD .done) (if r.op = 0x01 then b.data.take b.n else []) b.n).reqDone r := by
  subst hb
  exact if_neg (by simp [hsoft])

/-- A request of no words, or a WRITE with too few bytes, is answered RANGE and does nothing. -/
theorem execWords_range (h : r.n = 0 ∨ (r.op = 0x02 ∧ r.data.length < 4 * r.n)) :
    s.execWords k r = ((s.record_ (sessAcc k) .range 0 false).answer k r .range [] 0).reqDone r := by
  have hb : s.reqBurst k r = ⟨s, some .range, 0, [], false, false⟩ := if_pos h
  have hnone : (if r.op = 0x01 then ([] : List (BitVec 32)).take 0 else []) = [] := by split <;> rfl
  have hrun := execWords_of_burst hb rfl
  rw [hnone] at hrun
  exact hrun

/-- A READ of sound words of path memory that the worlds permit is answered with them. -/
theorem execWords_read (hr : s.ready = true) (hop : r.op = 0x01) (hn : 0 < r.n) (h4 : r.addr % 4 = 0) (hlo : pathLo ≤ r.addr)
    (hhi : r.addr + 4 * r.n ≤ 0x500000) (hv : ∀ i, i < r.n → s.violationOf (sessAcc k) (r.addr + 4 * i) false = none)
    (hu : ∀ u ∈ s.flt.upsets, u.store ≠ .path) : s.execWords k r =
      ((s.record_ (sessAcc k) .done r.n false).answer k r .done ((List.range r.n).map fun i => pathWord s.path (r.addr + 4 * i)) r.n).reqDone r := by
  have hb : s.reqBurst k r = { Burst.begin s with n := 0 + r.n, data := [] ++ (List.range r.n).map fun i => pathWord s.path (r.addr + 4 * i) } := by
    rw [State.reqBurst, if_neg (by rw [hop]; omega), State.header, if_neg (by omega), if_neg (by rw [hop]; decide)]
    exact burstRead_path r.n r.addr (Burst.begin s) hr h4 hlo hhi hv hu
  have hrun := execWords_of_burst hb rfl
  simp only [Nat.zero_add, List.nil_append] at hrun
  rw [if_pos hop, List.take_of_length_le (by simp)] at hrun
  exact hrun

theorem reqWords_length (n : Nat) (l : List Byte) : (reqWords n l).length = n := by
  induction n generalizing l with
  | zero => rfl
  | succ n ih => exact congrArg (· + 1) (ih _)

theorem reqWords_getElem (n : Nat) (l : List Byte) {i : Nat} (h : i < (reqWords n l).length) :
    (reqWords n l)[i] = BitVec.ofNat 32 (beNat ((l.drop (4 * i)).take 4)) := by
  induction n generalizing l i with
  | zero => exact absurd h (Nat.not_lt_zero i)
  | succ n ih =>
    cases i with
    | zero => rfl
    | succ i =>
      have hdrop : (l.drop 4).drop (4 * i) = l.drop (4 * (i + 1)) := by rw [List.drop_drop, Nat.mul_succ, Nat.add_comm]
      exact (ih (l.drop 4) (Nat.lt_of_succ_lt_succ h)).trans (by rw [hdrop])

/-- A WRITE of words of path memory that the worlds permit stores them, and is answered DONE. -/
theorem execWords_write (hr : s.ready = true) (hop : r.op = 0x02) (hn : 0 < r.n) (hlen : 4 * r.n ≤ r.data.length) (h4 : r.addr % 4 = 0)
    (hlo : pathLo ≤ r.addr) (hhi : r.addr + 4 * r.n ≤ 0x500000) (hv : ∀ i, i < r.n → s.violationOf (sessAcc k) (r.addr + 4 * i) true = none) :
    s.execWords k r =
      (((s.pathPuts (reqWords r.n r.data) r.addr).record_ (sessAcc k) .done r.n false).answer k r .done [] r.n).reqDone r := by
  have hb : s.reqBurst k r = { Burst.begin s with st := s.pathPuts (reqWords r.n r.data) r.addr, n := 0 + (reqWords r.n r.data).length } := by
    rw [State.reqBurst, if_neg (by omega), State.header, if_neg (by omega), if_pos hop]
    refine burstWrite_path _ r.addr (Burst.begin s) hr h4 hlo ?_ ?_ <;> rw [reqWords_length]
    · exact hhi
    · exact hv
  have hrun := execWords_of_burst hb rfl
  simp only [Nat.zero_add, reqWords_length] at hrun
  rw [if_neg (by rw [hop]; decide)] at hrun
  exact hrun

/-! ### NET commands of sessions and subscriptions (R442, R444, R452) -/

variable {acc : Fin 15}

theorem netEffect_close (h : s.sessOpen k = true) : s.netEffect acc 0x20 k = (some .done, s.closeSession k) := by
  simp [State.netEffect, h]

/-- The completion of a NET command leaves the subscription table. -/
theorem netFinish_sub {op arg j o : Nat} {st : Status} :
    (s.finish (netA NET.NCMDSTAT) 52 op arg acc st).rd (subBase j + o) = s.rd (subBase j + o) := by
  refine val_rd (netFinish_val ?_ (logReg_outside (.inr ?_))) <;> simp only [subBase, netA, NET.NCMDSTAT] <;> omega

/-- The operands staged for SUB_ADD name a value that the accessor may subscribe. -/
structure SubStaged (s : State) (acc : Fin 15) : Prop where
  words : Machine.fld (s.acc[acc]).snewSel.toNat 1 0 ≠ 0
  within : Machine.fld (s.acc[acc]).snewSel.toNat 12 8 + Machine.fld (s.acc[acc]).snewSel.toNat 1 0 ≤ 32
  may : (s.acc[acc]).snew.toNat / 65536 / 4096 < 12 → s.mayAccess acc ((s.acc[acc]).snew.toNat / 65536 / 4096) = true
  owner : (s.acc[acc]).snew.toNat / 65536 / 4096 < 12 ∨ (s.acc[acc]).snew.toNat / 65536 / 4096 = 15

theorem subAdd_full (h : SubStaged s acc) (hfull : 1024 ≤ s.subsUsed.length) : s.subAdd acc = (.full, s.fullCount) := by
  obtain ⟨hw, hin, hmay, hown⟩ := h
  unfold State.subAdd
  dsimp only
  rw [if_neg (by omega), if_neg fun ⟨hlt, hno⟩ => absurd hno (by rw [hmay hlt]; decide), if_pos hfull]

/-- The registers of entry k after a SUB_ADD: the staged operands, in use, and no value yet. -/
def State.subWritten (s : State) (acc : Fin 15) (k : Nat) : State :=
  let a := s.acc[acc]
  let s1 := (((s.wr (subBase k + SUB.SRC_L) (a.snew.toNat % 65536)).wr (subBase k + SUB.SRC_H) (a.snew.toNat / 65536)).wr (subBase k + SUB.SEL)
    a.snewSel.toNat).wr (subBase k + SUB.SSTAT) 0x8000
  let s2 := (s1.wr (subBase k + SUB.VAL) 0).wr (subBase k + SUB.VCYC) 0
  s2.wr (netA NET.SUBUSED) (s.subsUsed.length + 1)

/-- Entry k takes the staged operands. -/
def State.subTaken (s : State) (acc : Fin 15) (k : Nat) : State :=
  ((s.subWritten acc k).onNet (fun x => { x with added := k :: x.added })).onAcc acc (fun x => { x with sidx := BitVec.ofNat 16 k })

theorem subAdd_takes (h : SubStaged s acc) (hroom : s.subsUsed.length < 1024) :
    s.subAdd acc = (.done, s.subTaken acc (freeSub 1024 0 s.subsUsed)) := by
  obtain ⟨hw, hin, hmay, hown⟩ := h
  unfold State.subAdd
  dsimp only
  rw [if_neg (by omega), if_neg fun ⟨hlt, hno⟩ => absurd hno (by rw [hmay hlt]; decide), if_neg (by omega)]
  rfl

theorem subUsed_ne (k o : Nat) : subBase k + o ≠ netA NET.SUBUSED := by
  simp only [subBase, netA, NET.SUBUSED]
  omega

theorem subTaken_added (k : Nat) : ((s.subTaken acc k).acc[acc]).sidx = BitVec.ofNat 16 k ∧ k ∈ (s.subTaken acc k).net.added :=
  ⟨by simp [State.subTaken, State.onAcc], List.mem_cons_self⟩

theorem onAcc_rd (a : Fin 15) (f : Accessor → Accessor) : (s.onAcc a f).rd c = s.rd c := rfl

theorem onFlt_rd (f : Faults → Faults) : (s.onFlt f).rd c = s.rd c := rfl

theorem subTaken_rd (k : Nat) : (s.subTaken acc k).rd c = (s.subWritten acc k).rd c := by
  rw [State.subTaken, onAcc_rd, onNet_rd]

theorem subWritten_shown (k : Nat) : (s.subWritten acc k).rd (subBase k + SUB.SRC_L) = (s.acc[acc]).snew.toNat % 65536 ∧
    (s.subWritten acc k).rd (subBase k + SUB.SRC_H) = (s.acc[acc]).snew.toNat / 65536 ∧
    (s.subWritten acc k).rd (subBase k + SUB.SEL) = (s.acc[acc]).snewSel.toNat ∧ (s.subWritten acc k).rd (subBase k + SUB.SSTAT) = 0x8000 := by
  have other {t : State} {o p v : Nat} (h : o ≠ p) : (t.wr (subBase k + p) v).rd (subBase k + o) = t.rd (subBase k + o) :=
    State.rd_wr_other _ _ _ _ (offset_ne h)
  have used {t : State} {o v : Nat} : (t.wr (netA NET.SUBUSED) v).rd (subBase k + o) = t.rd (subBase k + o) := State.rd_wr_other _ _ _ _ (subUsed_ne k o)
  have hsnew := (s.acc[acc]).snew.isLt
  have hsel := (s.acc[acc]).snewSel.isLt
  unfold State.subWritten
  dsimp only
  simp only [used]
  refine ⟨?_, ?_, ?_, ?_⟩
  · rw [other (by decide), other (by decide), other (by decide), other (by decide), other (by decide), State.rd_wr _ _ _ (by omega)]
  · rw [other (by decide), other (by decide), other (by decide), other (by decide), State.rd_wr _ _ _ (by omega)]
  · rw [other (by decide), other (by decide), other (by decide), State.rd_wr _ _ _ (by omega)]
  · rw [other (by decide), other (by decide), State.rd_wr _ _ _ (by decide)]

/-- The words of an entry of the subscription table. -/
def subWords : List Nat := [SUB.SRC_L, SUB.SRC_H, SUB.SEL, SUB.SSTAT, SUB.VAL, SUB.VCYC]

/-- Entry k is cleared, and with it what waits for it and what ECC knows of it. -/
def State.subCleared (s : State) (k : Nat) : State :=
  (((overList subWords (fun s o => s.wr (subBase k + o) 0) s).wr (netA NET.SUBUSED) (s.subsUsed.length - 1)).onNet (fun x => { x with
    pend := x.pend.filter (fun e => e.1 != k), added := x.added.filter (· != k) })).onFlt (fun f => { f with
    subBad := f.subBad.filter (· != k), upsets := f.upsets.filter (fun u => !(u.store == .subs && u.index == k)),
    eccLogged := f.eccLogged.filter (fun e => !(e.1 == .subs && e.2 == k)) })

theorem subDel_clears {k : Nat} (hidx : (s.acc[acc]).sidx.toNat = k) (hk : k ≤ 1023) (hused : s.bit (subBase k + SUB.SSTAT) 15 = true)
    (hfree : ∀ n, s.onEntry n ≠ some k) (hmay : ∀ n, s.subOwner k = some n → s.mayAccess acc n = true) :
    s.subDel acc = (.done, s.subCleared k) := by
  have hfollowed : allAxes.any (fun n => s.onEntry n == some k) = false := by simpa using fun n _ => hfree n
  unfold State.subDel
  dsimp only
  rw [hidx, if_neg (by simp [hused, hfollowed, hk])]
  cases h : s.subOwner k with
  | none => rfl
  | some n => exact if_neg (by simp [hmay n h])

theorem subCleared_rd (k : Nat) : (s.subCleared k).rd c =
    ((overList subWords (fun s o => s.wr (subBase k + o) 0) s).wr (netA NET.SUBUSED) (s.subsUsed.length - 1)).rd c := by
  rw [State.subCleared, onFlt_rd, onNet_rd]

theorem subCleared_zero {o : Nat} (k : Nat) (ho : o ∈ subWords) : (s.subCleared k).rd (subBase k + o) = 0 := by
  have hrun : (overList subWords (fun s o => s.wr (subBase k + o) 0) s).val (subBase k + o) = 0 :=
    overList_wr (addr := fun o => subBase k + o) (f := fun _ _ => 0) ho (fun j e => by omega) (fun _ _ _ _ => rfl)
  rw [subCleared_rd, State.rd_wr_other _ _ _ _ (subUsed_ne k o), State.rd, hrun]
  rfl

theorem subCleared_pend (k : Nat) : ∀ e ∈ (s.subCleared k).net.pend, e.1 ≠ k := by
  intro e he
  simpa using (List.mem_filter.mp he).2

/-- The answer of an OPEN that opens nothing: a status, counted where `count` says so. -/
theorem openRefused {st : Nat} (hq : s.net.reqs = r :: rest) (hop : r.op = 0x10) (hf : f 0x10 = true) {g : State → State}
    (he : s.execOpen r = g (s.replyStatus r.src r.echo st none noSess)) (hnet : ∀ u, (g u).net = u.net) (hseq : ∀ u, (g u).rd (netA NET.SEQ) = u.rd (netA NET.SEQ)) :
    (s.serve f).net.reqs = rest ∧ (s.serve f).rd (netA NET.SEQ) = (s.rd (netA NET.SEQ) + 1) % 65536 ∧ (s.serve f).net.sess = s.net.sess := by
  have hsent : Sent s (s.replyStatus r.src r.echo st none noSess) := reply_sent ..
  rw [serve_open hq hop hf, he]
  refine ⟨reqDone_reqs ?_, (hseq _).trans hsent.seq, ?_⟩
  · rw [hnet, hsent.reqs, hq]
  · exact (congrArg Net.sess (hnet _)).trans hsent.sess

theorem openRefused_counts {st : Nat} (hq : s.net.reqs = r :: rest) (hop : r.op = 0x10) (hf : f 0x10 = true) {g : State → State}
    (he : s.execOpen r = g (s.replyStatus r.src r.echo st none noSess)) (hne : c ≠ netA NET.SEQ) (hlo : c < netpBase 0)
    (hcount : ∀ u, (g u).rd c = min 0xFFFF (u.rd c + 1)) : (s.serve f).rd c = min 0xFFFF (s.rd c + 1) := by
  have hsent : Sent s (s.replyStatus r.src r.echo st none noSess) := reply_sent ..
  rw [serve_open hq hop hf, he, ← val_rd (hsent.val c hne (.inl hlo)), ← hcount]
  rfl

end

/-- Settles O49: each request by what its session, its words and its answer leave, and each NET command by its effect. A world byte above 1, the
tag judged before a full table, the answer that follows a CLOSE and the replies kept are the model's choices (log 37). -/
theorem sessionsAndSubscriptions : Obligations.SessionsAndSubscriptions := by
  unfold Obligations.SessionsAndSubscriptions
  intro s ha hr sent
  have next {t u : State} (h : t = u) : (Host.Outcome.next t : Host.Outcome State Fault Refusal) = .next u := congrArg _ h
  have awake (f : State → State) : s.awake f = f s := awake_of_not_asleep ha f
  refine ⟨fun r rest hq => ⟨fun hop => ⟨fun hw => ?_, fun hw htag => ?_, fun hw htag => ⟨fun hfree => ?_, fun k hfree hdk => ?_⟩⟩, fun k hk hopen => ⟨fun hop => ?_, fun hg => ?_⟩⟩,
    fun k => ⟨fun hl => ?_, fun hl => ?_⟩, fun acc hm hc => ⟨fun k hopen => ?_, ?_, ?_⟩⟩
  · exact ⟨_, next (awake _), openRefused (g := id) hq hop rfl (execOpen_range hw) (fun _ => rfl) fun _ => rfl⟩
  · have he := execOpen_world (s := s) hw htag
    obtain ⟨hreqs, hseq, hsess⟩ := openRefused (f := fun op => op == 0x10) (g := fun u => u.authFail 0xF0 0xFF) hq hop rfl he
      (fun u => (authFail_counts (by decide)).2.1) (fun u => (authFail_counts (by decide)).2.2)
    exact ⟨_, next (awake _), hreqs, hseq, hsess, openRefused_counts (g := fun u => u.authFail 0xF0 0xFF) hq hop rfl he (by decide) (by decide)
      fun u => (authFail_counts (by decide)).1⟩
  · have he := execOpen_full hw htag hfree
    obtain ⟨hreqs, hseq, hsess⟩ := openRefused (f := fun op => op == 0x10) (g := State.fullCount) hq hop rfl he
      (fun _ => rfl) (fun u => val_rd (fullCount_val (by decide)))
    exact ⟨_, next (awake _), hreqs, hseq, hsess, openRefused_counts (g := State.fullCount) hq hop rfl he (by decide) (by decide) fun u => fullCount_counts⟩
  · obtain ⟨x, key, payload, hkey, he⟩ := execOpen_opens hw htag hfree hdk
    have h := opened_replied (s := { s with fresh := x }) (r := r) (rest := rest) hq (Nat.mod_lt _ (by decide))
      (lt_of_lt_of_le (Nat.mod_lt _ (by decide)) (by decide)) (congrArg (fun u => u.reqDone r) he)
    obtain ⟨hreqs, hseq, hopen, hgen, hsec, hks, hcli⟩ := h
    refine ⟨_, next ((awake _).trans (serve_open hq hop rfl)), hreqs, hseq, hopen, hgen, hsec.trans hkey, ?_, hcli⟩
    rw [hks, hkey]
  · obtain ⟨hshut, hseq, hreqs⟩ := execClose_closes hq hopen
    exact ⟨_, next ((awake _).trans (serve_close hq hk hop rfl)), hshut, hseq, hreqs⟩
  · intro answered
    have done {u t : State} {st : Status} {data : List (BitVec 32)} {n : Nat} {bytes : List Byte} (hregs : u.regs = s.regs) (hnet : u.net = s.net)
        (hbytes : (data.map (fun w => beBytes 4 w.toNat)).flatten = bytes) (ht : t = (u.answer k r st data n).reqDone r) :
        answered t st n bytes ∧ t.path = u.path ∧ t.acc = u.acc := by
      obtain ⟨hreqs, hseq, hcache, hpath, hacc⟩ := answer_done (st := st) (data := data) (n := n) hregs hnet hq hopen hg
      rw [← ht] at hreqs hseq hcache hpath hacc
      exact ⟨⟨hreqs, hseq, hbytes ▸ hcache⟩, hpath, hacc⟩
    have range {t : State} (h : r.n = 0 ∨ (r.op = 0x02 ∧ r.data.length < 4 * r.n)) (ht : t = s.execWords k r) : answered t .range 0 [] ∧ t.path = s.path := by
      obtain ⟨hsaid, hpath, -⟩ := done (u := s.record_ (sessAcc k) .range 0 false) rfl rfl rfl (ht.trans (execWords_range h))
      exact ⟨hsaid, hpath⟩
    have words {f : Nat → Bool} (hop : r.op = 0x01 ∨ r.op = 0x02) (hf : f r.op = true) : (s.awake fun s => s.serve f) = s.execWords k r :=
      (awake _).trans (serve_words hq hk hop hf)
    refine ⟨fun hop => ?_, fun hop hn => ?_, fun hop hn h4 hlo hhi hv hu => ?_, fun hop hn => ?_, fun hop hn hlen h4 hlo hhi hv => ?_⟩
    · obtain ⟨hsaid, hpath, -⟩ := done (u := s) (st := .done) (data := []) (n := 0) rfl rfl rfl rfl
      exact ⟨_, next ((awake _).trans (serve_nop hq hk hop rfl)), hsaid, hpath⟩
    · exact ⟨_, next (words (.inl hop) (by rw [hop]; rfl)), range (.inl hn) rfl⟩
    · obtain ⟨hsaid, hpath, hacc⟩ := done (u := s.record_ (sessAcc k) .done r.n false) rfl rfl (by rw [List.map_map])
        (execWords_read hr hop hn h4 hlo hhi hv hu)
      refine ⟨_, next (words (.inl hop) (by rw [hop]; rfl)), hsaid, hpath, ?_, ?_⟩
      · rw [hacc, record_acc]
        rfl
      · rw [hacc, record_acc]
    · exact ⟨_, next (words (.inr hop) (by rw [hop]; rfl)), range (hn.imp id fun h => ⟨hop, h⟩) rfl⟩
    · have hrest := pathPuts_rest s (reqWords r.n r.data) r.addr
      obtain ⟨hsaid, hpath, hacc⟩ := done (u := (s.pathPuts (reqWords r.n r.data) r.addr).record_ (sessAcc k) .done r.n false)
        (pathPuts_regs ..) (by rw [hrest]; rfl) rfl (execWords_write hr hop hn hlen h4 hlo hhi hv)
      refine ⟨_, next (words (.inr hop) (by rw [hop]; rfl)), hsaid, fun i hi => ?_, fun b hb => ?_, ?_, ?_⟩
      · have hi' : i < (reqWords r.n r.data).length := by rwa [reqWords_length]
        rw [hpath]
        exact (pathWord_pathPuts s _ r.addr hi').trans (reqWords_getElem _ _ hi')
      · rw [hpath]
        exact pathByte_pathPuts_outside s _ r.addr (by rwa [reqWords_length])
      · rw [hacc, record_acc]
        rfl
      · rw [hacc, record_acc]
  · exact ⟨_, next ((awake _).trans (if_pos hl)), closeSession_shut⟩
  · exact next ((awake _).trans (if_neg (by simp [hl])))
  · have harg : (BitVec.ofNat 8 k.val).toNat = k.val := by
      rw [BitVec.toNat_ofNat]
      omega
    have he := netEffect_close (acc := acc) hopen
    rw [← harg] at he
    exact ⟨_, next ((awake _).trans (netCmd_ends hr hm hc (by decide) he)), (netFinish_sessOpen k).trans closeSession_shut, netFinish_said (by decide)⟩
  · intro a hi w hw hin hmay hown
    have hstaged : SubStaged s acc := ⟨hw, hin, hmay, hown⟩
    refine ⟨fun hfull => ?_, fun hroom => ?_⟩
    · have he : s.netEffect acc 0x01 0 = (some .full, s.fullCount) := by simp [State.netEffect, subAdd_full hstaged hfull]
      refine ⟨_, next ((awake _).trans (netCmd_ends hr hm hc (by decide) he)), ?_, by simp [State.fullCount]⟩
      exact (val_rd (netFinish_val (by decide) (by decide))).trans fullCount_counts
    · intro k
      have he : s.netEffect acc 0x01 0 = (some .done, s.subTaken acc k) := by simp [State.netEffect, subAdd_takes hstaged hroom, k]
      obtain ⟨hidx, hadded⟩ := subTaken_added (s := s) (acc := acc) k
      obtain ⟨hlow, hhigh, hsel, hstat⟩ := subWritten_shown (s := s) (acc := acc) k
      refine ⟨_, next ((awake _).trans (netCmd_ends hr hm hc (by decide) he)), netFinish_said (by decide), by simpa using hidx, by simpa using hadded, fun _ => ?_⟩
      rw [netFinish_sub, netFinish_sub, netFinish_sub, netFinish_sub, subTaken_rd, subTaken_rd, subTaken_rd, subTaken_rd]
      exact ⟨hlow, hhigh, hsel, hstat⟩
  · intro k hk hused hfree hmay
    have he : s.netEffect acc 0x02 0 = (some .done, s.subCleared k) := by simp [State.netEffect, subDel_clears rfl hk hused hfree hmay, k]
    refine ⟨_, next ((awake _).trans (netCmd_ends hr hm hc (by decide) he)), netFinish_said (by decide), ?_⟩
    rw [netFinish_sub, netFinish_sub, netFinish_sub, netFinish_sub]
    exact ⟨subCleared_zero k (by decide), subCleared_zero k (by decide), subCleared_zero k (by decide), subCleared_zero k (by decide),
      by simpa using subCleared_pend (s := s) k⟩

end Sys2Proof.Machine
end

section
/-! PROOF. Touch retract, continuity probes, hot-plug, identification and the commands of FPCMD, and the settlement of O40. -/

namespace Sys2Proof.Machine

section
variable {s t u : State} {n : Fin 12} {x : AxState} {o : Nat}

/-! ### What a change of state leaves of an axis (R95) -/

/-- STATE changes no register of the axis but FPSTAT, and that one only out of IDENTIFY. -/
theorem setSt_axVal (ho : o < 0x4000) (hf : s.st n ≠ .identify ∨ o ≠ AX.FPSTAT) : (s.setSt n x).val (axBase n + o) = s.val (axBase n + o) := by
  have hhome : axBase n + o ≠ hmBase n + HM.HSTAT := by
    have := (axBase_window n ho).2
    simp only [hmBase, HM.HSTAT]
    omega
  unfold State.setSt
  split
  · rfl
  · extract_lets s0 s1 s2
    have h0 : s0.val (axBase n + o) = s.val (axBase n + o) := by
      unfold s0
      split
      · unfold State.homeEnd
        extract_lets a
        split
        · rw [irq_hi _ (by omega) (axReg_hi n ho), State.val_setFld_other _ _ _ _ _ _ hhome, State.val_setFld_other _ _ _ _ _ _ hhome]
        · rfl
      · rfl
    have h1 : s1.val (axBase n + o) = s0.val (axBase n + o) := by
      unfold s1
      split
      next hid =>
        have hne : axBase n + o ≠ axBase n + AX.FPSTAT := offset_ne (hf.resolve_left (not_not_intro hid))
        unfold State.identEnd
        extract_lets a
        split
        · exact State.val_setFld_other _ _ _ _ _ _ hne
        · rfl
      next => rfl
    rw [irq_hi _ (by omega) (axReg_hi n ho)]
    exact h1.trans h0

theorem enterStill_axVal (ho : o < 0x4000) (hf : s.st n ≠ .identify ∨ o ≠ AX.FPSTAT) : (s.enterStill n x).val (axBase n + o) = s.val (axBase n + o) :=
  setSt_axVal ho hf

theorem ppl_of_axes (h : t.axes = s.axes) : t.ppl = s.ppl := by
  funext n
  simp only [State.ppl, h]

theorem onMot_ppl (f : Motion → Motion) : (s.onMot n f).ppl = s.ppl := funext fun _ => onAx_part Axis.ppl fun _ => rfl

theorem onFol_ppl (f : Follow → Follow) : (s.onFol n f).ppl = s.ppl := funext fun _ => onAx_part Axis.ppl fun _ => rfl

theorem setSt_ppl : (s.setSt n x).ppl = s.ppl := by
  unfold State.setSt
  split
  · exact onMot_ppl _
  · extract_lets s0 s1 s2
    have h0 : s0.axes = s.axes := by
      unfold s0
      split
      · exact homeEnd_axes 7
      · rfl
    have h1 : s1.axes = s0.axes := by
      unfold s1
      split
      · exact identEnd_axes
      · rfl
    rw [ppl_of_axes (irq_rf _ _).uf.axes, onFol_ppl, onMot_ppl, ppl_of_axes (h1.trans h0)]

theorem softEvent_ppl (how side : Nat) : (s.softEvent n how side).ppl = s.ppl :=
  (onMot_ppl _).trans (ppl_of_axes (by simp))

theorem predictLimit_ppl : (s.predictLimit n).ppl = s.ppl := by
  unfold State.predictLimit
  extract_lets m r ins
  split
  · rfl
  · split
    · split
      · exact softEvent_ppl 1 _
      · rfl
    · split
      · exact softEvent_ppl 1 _
      · rfl
    · rfl

theorem startMove_ppl (d : Int) : (s.startMove n d).ppl = s.ppl := by
  unfold State.startMove State.watchLimits
  extract_lets s1 p i
  rw [predictLimit_ppl, onMot_ppl, onMot_ppl, setSt_ppl]

/-! ### The retract after a touch (R401) -/

/-- At rest after a touch stop with retract, the move to a target that is in the limits begins. -/
theorem retract_moves {d : Int} (hd : (s.ppl n).retract = some d) (hst : s.st n = .hold ∨ s.st n = .paused)
    (hsoft : s.slOn n = true → s.slMin n ≤ (s.mot n).ipos + d * s.axr n AX.TRETR ∧ (s.mot n).ipos + d * s.axr n AX.TRETR ≤ s.slMax n)
    (hmove : (s.mot n).ipos + d * s.axr n AX.TRETR ≠ (s.mot n).ipos)
    (hsat : satI 48 ((s.mot n).ipos + d * s.axr n AX.TRETR) = (s.mot n).ipos + d * s.axr n AX.TRETR)
    (hsw : s.limitOn n (if 0 < d then 1 else 0) = false) (hv : s.axr n AX.VMAX ≠ 0) (ha : s.axr n AX.AMAX ≠ 0) (hdm : s.axr n AX.DMAX ≠ 0) :
    s.retract n = ((s.onPpl n fun q => { q with retract := none }).onPpl n fun q => { q with back := true }).startMove n
      ((s.mot n).ipos + d * s.axr n AX.TRETR) := by
  have hrest : ¬ (s.st n ≠ .hold ∧ s.st n ≠ .paused) := by tauto
  unfold State.retract
  rw [hd]
  dsimp only
  rw [if_neg hrest, if_neg]
  simp only [Bool.or_eq_true, Bool.and_eq_true, decide_eq_true_eq, beq_iff_eq, bne_iff_ne, ne_eq, hsat, hsw, hv, ha, hdm, hmove, not_true_eq_false,
    Bool.false_eq_true, or_false]
  intro ⟨hon, hout⟩
  obtain ⟨hlo, hhi⟩ := hsoft hon
  omega

theorem retract_none (h : (s.ppl n).retract = none) : s.retract n = s := by
  unfold State.retract
  rw [h]

/-! ### A continuity probe (R402, R404) -/

theorem onPpl_bit (f : People → People) (c i : Nat) : (s.onPpl n f).bit c i = s.bit c i := rfl

theorem contProbe_shown {a b : Bool} (hr : s.probeRuns n = true) (hp : (s.ppl n).probe = some 0) :
    (s.contProbe n a b).bit (fpstat n) 11 = (a && b) ∧ (s.contProbe n a b).bit (fpstat n) 12 = (a != b) ∧ ((s.contProbe n a b).ppl n).probe = none ∧
      ((s.contProbe n a b).ppl n).probes = (if (if s.st n = .mute then !a && !b else a && b) then (s.ppl n).probes + 1 else 0) ∧
      (s.contProbe n a b).mot n = s.mot n := by
  unfold State.contProbe
  rw [if_neg (by simp [hr, hp])]
  extract_lets s1 hit
  refine ⟨?_, ?_, ?_, ?_, ?_⟩
  · rw [onPpl_bit, State.bit_setBit_other _ _ _ _ _ _ (.inr (by decide)), State.bit_setBit _ _ _ _ (by decide)]
  · rw [onPpl_bit, State.bit_setBit _ _ _ _ (by decide)]
  · simp [s1]
  · simp [s1, hit]
  · simp [s1]

/-! ### Unplugged and plugged in again (R402, R403, R404) -/

theorem axisOuts_axVal (ho : o < 0x4000) (e : Bool) : (s.axisOuts n e).val (axBase n + o) = s.val (axBase n + o) := by
  refine setOut_overList _ e fun x _ => ?_
  have := unitBase_hi x
  have := (axBase_window n ho).2
  unfold pstat
  omega

theorem axisOuts_mot (e : Bool) : (s.axisOuts n e).mot = s.mot := (axis_of_axes (axisOuts_axes e)).1

theorem setVal_val_other {b c : Nat} {v : Val} (h : c ≠ b) : (s.setVal b v).val c = s.val c := (s.val_setVal b c v).trans (if_neg h)

/-- The baselines of the stall monitor lie apart from the registers of working beside people. -/
theorem sblZeroed_axVal (ho : o < AX.SBL ∨ AX.FPSTAT ≤ o) : (s.sblZeroed n).val (axBase n + o) = s.val (axBase n + o) := by
  refine overList_val fun t k _ => setVal_val_other (s := t.onBoth n _) ?_
  rw [Nat.add_assoc]
  refine offset_ne ?_
  simp only [AX.SBL, AX.FPSTAT] at ho ⊢
  omega

/-- What `t` shows of axis n that `s` has lost its motor. -/
structure Unplugged (n : Fin 12) (s t : State) : Prop where
  state : (t.mot n).st = .unplugged
  rest : (t.mot n).vel = 0 ∧ (t.mot n).acc = 0
  pos : (t.mot n).pos = (s.mot n).pos
  remainder : (t.mot n).rem = 0 ∧ (t.mot n).remValid = false
  seen : t.bit (fpstat n) 14 = true
  counted : t.axr n AX.PLUGCNT = min 0xFFFF (s.axr n AX.PLUGCNT + 1)
  shaft : t.bit (ostat n) 9 = false

/-- The unplug before its baselines start anew. -/
def State.unplugShown (s : State) (n : Fin 12) (how old : Nat) : State :=
  let s1 := (s.enterStill n .unplugged).onMot n (fun m => { m with rem := 0, remValid := false })
  let s2 := (((s1.log 0x010A how old (.axis n)).flag (fpstat n) 14).bump (axBase n + AX.PLUGCNT)).life 11
  (s2.setBit (ostat n) 9 false).onPpl n (fun q => { q with probes := 0, probeTick := 0, probe := none, retract := none, back := false })

theorem unplugNow_eq (how old : Nat) : s.unplugNow n how old = (s.unplugShown n how old).sblZeroed n := rfl

theorem bump_counts (b : Nat) : (s.bump b).rd b = min 0xFFFF (s.rd b + 1) := s.rd_wr _ _ (by omega)

theorem onMot_val (f : Motion → Motion) (c : Nat) : (s.onMot n f).val c = s.val c := rfl

theorem onPpl_val (f : People → People) (c : Nat) : (s.onPpl n f).val c = s.val c := rfl

theorem setBit_mot (b i : Nat) (x : Bool) : (s.setBit b i x).mot = s.mot := rfl

theorem unplugShown_unplugged (how old : Nat) : Unplugged n s (s.unplugShown n how old) := by
  have hmot : (s.unplugShown n how old).mot n = { ((s.mot n).enter .unplugged).still with rem := 0, remValid := false } := by
    unfold State.unplugShown
    extract_lets s1 s2
    have h2 : s2.mot = s1.mot := (axis_of_axes (by simp [s2])).1
    rw [onPpl_mot, setBit_mot, h2, onMot_mot, enterStill_mot]
  have hlife (u : State) {o : Nat} (ho : o < 0x4000) : (u.life 11).val (axBase n + o) = u.val (axBase n + o) :=
    u.life_val (logReg_hi (axReg_hi n ho)) (by decide)
  refine ⟨by simp [hmot], by simp [hmot], by simp [hmot], by simp [hmot], ?_, ?_, ?_⟩
  · unfold State.unplugShown fpstat ostat
    rw [onPpl_bit, val_bit (setBit_val_other (offset_ne (by decide))), val_bit (hlife _ (by decide)), State.bump,
      val_bit (wr_val_other (offset_ne (by decide)))]
    exact flag_bit_hi (by decide) (axReg_hi n (by decide))
  · have hkept (u : State) : ((u.log 0x010A how old (.axis n)).flag (fpstat n) 14).axr n AX.PLUGCNT = u.axr n AX.PLUGCNT :=
      val_rd ((flag_hi _ (by decide) (offset_ne (by decide)) (axReg_hi n (by decide))).trans (log_hi _ (axReg_hi n (by decide))))
    unfold State.unplugShown State.axr
    rw [val_rd (onPpl_val _ _), ostat, val_rd (setBit_val_other (offset_ne (by decide))), val_rd (hlife _ (by decide)), bump_counts]
    have hstart := hkept ((s.enterStill n .unplugged).onMot n fun m => { m with rem := 0, remValid := false })
    rw [State.axr] at hstart
    rw [hstart, State.axr, val_rd (onMot_val _ _), val_rd (enterStill_axVal (by decide) (.inr (by decide)))]
  · unfold State.unplugShown
    rw [onPpl_bit]
    exact State.bit_setBit _ _ _ _ (by decide)

/-- What shows the unplug is kept by what leaves its motion and registers. -/
theorem Unplugged.kept (h : Unplugged n s t) (hm : u.mot = t.mot)
    (hv : ∀ o, o < AX.SBL ∨ AX.FPSTAT ≤ o → o < 0x4000 → u.val (axBase n + o) = t.val (axBase n + o)) : Unplugged n s u where
  state := hm ▸ h.state
  rest := hm ▸ h.rest
  pos := hm ▸ h.pos
  remainder := hm ▸ h.remainder
  seen := (congrFun (val_bit (hv AX.FPSTAT (by decide) (by decide))) 14).trans h.seen
  counted := (val_rd (hv AX.PLUGCNT (by decide) (by decide))).trans h.counted
  shaft := (congrFun (val_bit (hv AX.OSTAT (by decide) (by decide))) 9).trans h.shaft

theorem unplug_shown (hp : s.hotPlug n = true)
    (h : (s.energised n = true ∧ s.openNow n = (true, true)) ∨ (s.energised n = false ∧ s.st n = .mute ∧ s.probeRuns n = true ∧ 3 ≤ (s.ppl n).probes)) :
    Unplugged n s (s.withOuts n fun s => s.unplugEdge n) := by
  have hnow : ∃ how old, s.unplugEdge n = s.unplugNow n how old := by
    unfold State.unplugEdge
    rw [if_neg (by simp [hp])]
    rcases h with ⟨hon, hopen⟩ | ⟨hoff, hmute⟩
    · exact ⟨_, _, if_pos ⟨hon, hopen⟩⟩
    · exact ⟨1, 1, (if_neg (by simp [hoff])).trans (if_pos hmute)⟩
  obtain ⟨how, old, e⟩ := hnow
  rw [State.withOuts, e, unplugNow_eq]
  have hzeroed : Unplugged n s ((s.unplugShown n how old).sblZeroed n) :=
    (unplugShown_unplugged how old).kept sblZeroed_parts.2.1 fun _ ho _ => sblZeroed_axVal ho
  exact hzeroed.kept (axisOuts_mot true) fun _ _ ho => axisOuts_axVal ho true

/-! ### Plugged in again, and hot-plug detection switched off (R404) -/

theorem identStart_keeps (b : Bool) (i : Nat) (h : 10 < i) (hst : s.st n ≠ .identify) : (s.identStart n b).bit (fpstat n) i = s.bit (fpstat n) i := by
  unfold State.identStart
  rw [onPpl_bit, State.bit_setFld_above _ _ _ (by decide) (by decide) h]
  exact congrFun (val_bit (setSt_axVal (by decide) (.inl hst))) i

theorem identStart_pos (b : Bool) : ((s.identStart n b).mot n).pos = (s.mot n).pos := by simp [State.identStart]

theorem replug_shown (hst : s.st n = .unplugged) (hr : s.probeRuns n = true) (hp : 3 ≤ (s.ppl n).probes) :
    ((s.replugEdge n).mot n).st = (if s.axb n AX.FPCFG 1 = true then .identify else .mute) ∧ (s.replugEdge n).bit (fpstat n) 15 = true ∧
      ((s.replugEdge n).mot n).pos = (s.mot n).pos := by
  unfold State.replugEdge
  rw [if_pos ⟨hst, hr, hp⟩]
  extract_lets s1
  have hmot : s1.mot = s.mot := (onPpl_mot _).trans (axis_of_axes (by simp)).1
  have hne : s1.st n ≠ .identify := by
    rw [State.st, hmot]
    exact fun e => AxState.noConfusion (hst.symm.trans e)
  have hseen : s1.bit (fpstat n) 15 = true := by
    unfold s1
    rw [onPpl_bit]
    exact flag_bit_hi (by decide) (axReg_hi n (by decide))
  split
  · exact ⟨(identStart_fields true).1, (identStart_keeps true 15 (by decide) hne).trans hseen, by rw [identStart_pos, hmot]⟩
  · exact ⟨by simp, (congrFun (val_bit (enterStill_axVal (by decide) (.inl hne))) 15).trans hseen, by simp [hmot]⟩

theorem hotPlugOff_shown (hst : s.st n = .unplugged) (h : s.axb n AX.FPCFG 0 = false) :
    ((s.hotPlugOff n).mot n).st = .mute ∧ ((s.hotPlugOff n).mot n).pos = (s.mot n).pos := by
  unfold State.hotPlugOff
  rw [if_pos (by simp [hst, h])]
  simp

/-! ### The end of an identification (R406, R407, R408) -/

/-- The estimates of both windings in their registers. -/
def State.identPut (s : State) (n : Fin 12) (ra rb la lb : Nat) : State :=
  (((s.wr (axBase n + AX.IDRA) ra).wr (axBase n + AX.IDRB) rb).wr (axBase n + AX.IDLA) la).wr (axBase n + AX.IDLB) lb

/-- The state that axis n enters at the next edge. -/
def State.leaveFor (s : State) (n : Fin 12) (x : AxState) : State := s.onMot n fun m => { m with next := some x }

/-- The tracker takes the estimates of an accepted motor. -/
def State.identLearn (s : State) (n : Fin 12) (ra rb la lb : Nat) : State :=
  (((s.setTrk n 0 (Learn.at (ra * 65536))).setTrk n 1 (Learn.at (rb * 65536))).setTrk n 2 (Learn.at (la * 65536))).setTrk n 3 (Learn.at (lb * 65536))

/-- Which estimates lie outside their bands (R407). -/
def State.bandBits (s : State) (n : Fin 12) (ra rb la lb : Nat) : Nat :=
  (if outside ra (s.axr n AX.RNOM) (s.axr n AX.FPRTOL) then 1 else 0) + (if outside rb (s.axr n AX.RNOM) (s.axr n AX.FPRTOL) then 2 else 0) +
    (if outside la (s.axr n AX.LNOM) (s.axr n AX.FPLTOL) then 4 else 0) + (if outside lb (s.axr n AX.LNOM) (s.axr n AX.FPLTOL) then 8 else 0)

/-- The estimates and their bands as they are shown. -/
def State.identBands (s : State) (n : Fin 12) (ra rb la lb : Nat) : State :=
  (s.identPut n ra rb la lb).setFld (fpstat n) 7 4 (s.bandBits n ra rb la lb)

/-- A motor in all its bands is found. -/
def State.identAccepted (s : State) (n : Fin 12) (ra rb la lb : Nat) : State :=
  ((s.identBands n ra rb la lb).setFld (fpstat n) 10 8 2).setBit (fpstat n) 13 false

/-- A motor out of a band is found: what was learned starts anew, and the motor lock is set. -/
def State.identLocked (s : State) (n : Fin 12) (ra rb la lb : Nat) : State :=
  ((((s.identBands n ra rb la lb).trkSeed n).detZeroed n).setFld (fpstat n) 10 8 3).setBit (fpstat n) 13 true

/-- Some estimate lies outside its band. -/
def State.outOfBand (s : State) (n : Fin 12) (ra rb la lb : Nat) : Bool :=
  outside ra (s.axr n AX.RNOM) (s.axr n AX.FPRTOL) || outside rb (s.axr n AX.RNOM) (s.axr n AX.FPRTOL) ||
    outside la (s.axr n AX.LNOM) (s.axr n AX.FPLTOL) || outside lb (s.axr n AX.LNOM) (s.axr n AX.FPLTOL)

theorem bandBits_eq_zero (ra rb la lb : Nat) : s.bandBits n ra rb la lb = 0 ↔ s.outOfBand n ra rb la lb = false := by
  simp [State.bandBits, State.outOfBand, and_assoc]

section
variable {a b : IdWinding} {ra rb la lb : Nat}

theorem identPut_est (ra rb la lb : Nat) : (s.identPut n ra rb la lb).val (axBase n + AX.IDRA) = BitVec.ofNat 64 ra ∧
    (s.identPut n ra rb la lb).val (axBase n + AX.IDRB) = BitVec.ofNat 64 rb ∧ (s.identPut n ra rb la lb).val (axBase n + AX.IDLA) = BitVec.ofNat 64 la ∧
    (s.identPut n ra rb la lb).val (axBase n + AX.IDLB) = BitVec.ofNat 64 lb := by
  have hne {o p : Nat} (h : o ≠ p) : axBase n + o ≠ axBase n + p := offset_ne h
  refine ⟨?_, ?_, ?_, ?_⟩ <;> unfold State.identPut
  · rw [wr_val_other (hne (by decide)), wr_val_other (hne (by decide)), wr_val_other (hne (by decide)), State.val_wr, if_pos rfl]
  · rw [wr_val_other (hne (by decide)), wr_val_other (hne (by decide)), State.val_wr, if_pos rfl]
  · rw [wr_val_other (hne (by decide)), State.val_wr, if_pos rfl]
  · rw [State.val_wr, if_pos rfl]

theorem setTrk_axVal (k : Fin 4) (l : Learn) (ho : AX.FPSTAT ≤ o) : (s.setTrk n k l).val (axBase n + o) = s.val (axBase n + o) := by
  refine wr_val_other (s := s.onBoth n _) ?_
  rw [Nat.add_assoc]
  refine offset_ne ?_
  simp only [AX.RA, AX.FPSTAT] at ho ⊢
  omega

theorem setDet_axVal (k : Fin 6) (l : Learn) (ho : AX.FPSTAT ≤ o) : (s.setDet n k l).val (axBase n + o) = s.val (axBase n + o) := by
  refine setVal_val_other (s := s.onBoth n _) ?_
  rw [Nat.add_assoc]
  refine offset_ne ?_
  simp only [AX.DETA1, AX.FPSTAT] at ho ⊢
  omega

/-- What the end of an identification leaves for the next edge and shows, with the registers above FPSTAT of `u`. -/
structure Identified (n : Fin 12) (x : AxState) (res : Nat) (u t : State) : Prop where
  next : (t.mot n).next = some x
  result : t.fld (fpstat n) 10 8 = res
  kept : ∀ o, AX.FPSTAT < o → o < 0x4000 → t.val (axBase n + o) = u.val (axBase n + o)

/-- Result `x`, and what leaves the bits 10:8 of FPSTAT and the registers above it, ends an identification. -/
theorem identified_of {w u v : State} {x : AxState} {res : Nat} (hres : res < 8)
    (hbits : ∀ i, 8 ≤ i → i ≤ 10 → v.bit (fpstat n) i = (w.setFld (fpstat n) 10 8 res).bit (fpstat n) i)
    (hv : ∀ o, AX.FPSTAT < o → o < 0x4000 → v.val (axBase n + o) = u.val (axBase n + o)) : Identified n x res u (v.leaveFor n x) := by
  refine ⟨by simp [State.leaveFor], ?_, hv⟩
  have hfld : v.fld (fpstat n) 10 8 = res := by
    rw [fld_of_bits (by decide) hbits, State.fld_setFld _ _ (by decide) (by decide)]
    exact Nat.mod_eq_of_lt hres
  exact hfld

theorem setFld_above (hi lo x : Nat) (ho : AX.FPSTAT < o) : (s.setFld (fpstat n) hi lo x).val (axBase n + o) = s.val (axBase n + o) :=
  s.val_setFld_other _ _ _ _ _ (offset_ne (Nat.ne_of_gt ho))

theorem identDone_unreferenced (hst : s.st n = .identify) (hrun : s.fld (fpstat n) 10 8 = 1) (ha : s.identify n a = some (ra, la))
    (hb : s.identify n b = some (rb, lb)) (h : s.axr n AX.RNOM = 0 ∨ s.axr n AX.LNOM = 0) :
    s.identDone n a b = ((s.identPut n ra rb la lb).setFld (fpstat n) 10 8 4).leaveFor n .mute := by
  unfold State.identDone
  rw [if_neg (by simp [hst, hrun]), ha, hb]
  exact if_pos h

theorem identDone_inBand (hst : s.st n = .identify) (hrun : s.fld (fpstat n) 10 8 = 1) (ha : s.identify n a = some (ra, la))
    (hb : s.identify n b = some (rb, lb)) (h : ¬ (s.axr n AX.RNOM = 0 ∨ s.axr n AX.LNOM = 0)) (hin : s.bandBits n ra rb la lb = 0) :
    s.identDone n a b = (if s.axb n AX.FPCFG 3 ∧ s.opt n 4 then (s.identAccepted n ra rb la lb).identLearn n ra rb la lb
      else s.identAccepted n ra rb la lb).leaveFor n .mute := by
  unfold State.identDone
  rw [if_neg (by simp [hst, hrun]), ha, hb]
  exact (if_neg h).trans (if_pos hin)

theorem identDone_outOfBand (hst : s.st n = .identify) (hrun : s.fld (fpstat n) 10 8 = 1) (ha : s.identify n a = some (ra, la))
    (hb : s.identify n b = some (rb, lb)) (h : ¬ (s.axr n AX.RNOM = 0 ∨ s.axr n AX.LNOM = 0)) (hout : s.bandBits n ra rb la lb ≠ 0) :
    s.identDone n a b = ((s.identLocked n ra rb la lb).log 0x0106 (s.bandBits n ra rb la lb) (min 65535 ((ra + rb) / 2)) (.axis n)).leaveFor n .mute := by
  unfold State.identDone
  rw [if_neg (by simp [hst, hrun]), ha, hb]
  exact (if_neg h).trans (if_neg hout)

theorem identDone_open (hst : s.st n = .identify) (hrun : s.fld (fpstat n) 10 8 = 1) (ha : s.identify n a = none) :
    s.identDone n a b = ((s.setFld (fpstat n) 10 8 5).onPpl n fun q => { q with probes := 0 }).leaveFor n
      (if (s.ppl n).fromUnplug then .unplugged else .mute) := by
  unfold State.identDone
  rw [if_neg (by simp [hst, hrun]), ha]
  rfl

theorem identBands_above (ra rb la lb : Nat) (ho : AX.FPSTAT < o) :
    (s.identBands n ra rb la lb).val (axBase n + o) = (s.identPut n ra rb la lb).val (axBase n + o) := setFld_above 7 4 _ ho

theorem identLearn_axVal (ra rb la lb : Nat) (ho : AX.FPSTAT ≤ o) : (s.identLearn n ra rb la lb).val (axBase n + o) = s.val (axBase n + o) := by
  unfold State.identLearn
  rw [setTrk_axVal _ _ ho, setTrk_axVal _ _ ho, setTrk_axVal _ _ ho, setTrk_axVal _ _ ho]

theorem relearned_axVal (ho : AX.FPSTAT ≤ o) : ((s.trkSeed n).detZeroed n).val (axBase n + o) = s.val (axBase n + o) := by
  have hdet : ((s.trkSeed n).detZeroed n).val (axBase n + o) = (s.trkSeed n).val (axBase n + o) := overList_val fun _ k _ => setDet_axVal k _ ho
  rw [hdet]
  unfold State.trkSeed
  rw [setTrk_axVal _ _ ho, setTrk_axVal _ _ ho, setTrk_axVal _ _ ho, setTrk_axVal _ _ ho]

theorem setBit_fpstat (x : Bool) (ho : AX.FPSTAT < o) : (s.setBit (fpstat n) 13 x).val (axBase n + o) = s.val (axBase n + o) :=
  setBit_val_other (offset_ne (Nat.ne_of_gt ho))

theorem lock_bits (x : Bool) {i : Nat} (hi : i ≤ 10) : (s.setBit (fpstat n) 13 x).bit (fpstat n) i = s.bit (fpstat n) i :=
  State.bit_setBit_other _ _ _ _ _ _ (.inr (by omega))

theorem leaveFor_bit (y : AxState) (c i : Nat) : (s.leaveFor n y).bit c i = s.bit c i := rfl

/-- An identification without a reference, with every estimate in its band, and with one out of it (R407, R408). -/
theorem identDone_measured (hst : s.st n = .identify) (hrun : s.fld (fpstat n) 10 8 = 1) (ha : s.identify n a = some (ra, la))
    (hb : s.identify n b = some (rb, lb)) :
    ((s.axr n AX.RNOM = 0 ∨ s.axr n AX.LNOM = 0) → Identified n .mute 4 (s.identPut n ra rb la lb) (s.identDone n a b)) ∧
    (¬ (s.axr n AX.RNOM = 0 ∨ s.axr n AX.LNOM = 0) →
      Identified n .mute (if s.outOfBand n ra rb la lb then 3 else 2) (s.identPut n ra rb la lb) (s.identDone n a b) ∧
        (s.identDone n a b).bit (fpstat n) 13 = s.outOfBand n ra rb la lb) := by
  refine ⟨fun h => ?_, fun h => ?_⟩
  · rw [identDone_unreferenced hst hrun ha hb h]
    exact identified_of (by decide) (fun _ _ _ => rfl) fun o ho _ => setFld_above 10 8 4 ho
  cases hout : s.outOfBand n ra rb la lb with
  | false =>
    have hbits : (s.identAccepted n ra rb la lb).bit (fpstat n) 13 = false := State.bit_setBit _ _ _ _ (by decide)
    have hfields : ∀ i, i ≤ 10 → (s.identAccepted n ra rb la lb).bit (fpstat n) i = ((s.identBands n ra rb la lb).setFld (fpstat n) 10 8 2).bit (fpstat n) i :=
      fun i hi => lock_bits false hi
    have hkept : ∀ o, AX.FPSTAT < o → (s.identAccepted n ra rb la lb).val (axBase n + o) = (s.identPut n ra rb la lb).val (axBase n + o) := by
      intro o ho
      unfold State.identAccepted
      rw [setBit_fpstat _ ho, setFld_above _ _ _ ho, identBands_above _ _ _ _ ho]
    have hlearn (i : Nat) : ((s.identAccepted n ra rb la lb).identLearn n ra rb la lb).bit (fpstat n) i = (s.identAccepted n ra rb la lb).bit (fpstat n) i :=
      congrFun (val_bit (identLearn_axVal _ _ _ _ (Nat.le_refl _))) i
    rw [identDone_inBand hst hrun ha hb h ((bandBits_eq_zero ..).mpr hout), leaveFor_bit, if_neg Bool.false_ne_true]
    split
    · exact ⟨identified_of (by decide) (fun i _ hi => (hlearn i).trans (hfields i hi))
        fun o ho _ => (identLearn_axVal _ _ _ _ (Nat.le_of_lt ho)).trans (hkept o ho),
        (hlearn 13).trans hbits⟩
    · exact ⟨identified_of (by decide) (fun i _ hi => hfields i hi) fun o ho _ => hkept o ho, hbits⟩
  | true =>
    have hne : s.bandBits n ra rb la lb ≠ 0 := fun e => Bool.noConfusion (((bandBits_eq_zero ..).mp e).symm.trans hout)
    have hlog {o : Nat} (ho : o < 0x4000) (u : State) (d1 d2 : Nat) : (u.log 0x0106 d1 d2 (.axis n)).val (axBase n + o) = u.val (axBase n + o) :=
      log_hi _ (axReg_hi n ho)
    have hlogged (i : Nat) (u : State) (d1 d2 : Nat) : (u.log 0x0106 d1 d2 (.axis n)).bit (fpstat n) i = u.bit (fpstat n) i :=
      congrFun (val_bit (hlog (by decide) u d1 d2)) i
    rw [identDone_outOfBand hst hrun ha hb h hne, leaveFor_bit, hlogged, if_pos rfl]
    refine ⟨identified_of (by decide) (fun i _ hi => (hlogged i _ _ _).trans (lock_bits true hi)) fun o ho hlt => ?_, State.bit_setBit _ _ _ _ (by decide)⟩
    rw [hlog hlt]
    unfold State.identLocked
    rw [setBit_fpstat _ ho, setFld_above _ _ _ ho, relearned_axVal (Nat.le_of_lt ho), identBands_above _ _ _ _ ho]

end

/-! ### ACCEPT and CLRCNT (R409) -/

/-- A command of FPCMD that is done shows it, and leaves the axes and every other register of the axis. -/
theorem fpCommand_done {op : Nat} (acc : Nat) (hop : op < 256) (h : s.fpCmd n op 0 = (.done, t)) :
    (s.fpCommand n op 0 acc).rd (axBase n + AX.FPCMDSTAT) = op * 256 ∧ (s.fpCommand n op 0 acc).axes = t.axes ∧
      ∀ o, o ≠ AX.FPCMDSTAT → o < 0x4000 → (s.fpCommand n op 0 acc).val (axBase n + o) = t.val (axBase n + o) := by
  obtain ⟨hself, hother⟩ := State.finish_val (s := t) (a := axBase n + AX.FPCMDSTAT) (b := n) (o := op) (g := 0) (x := acc) (st := .done)
    (logReg_hi (axReg_hi n (by decide))) (by omega)
  have e : s.fpCommand n op 0 acc = t.finish (axBase n + AX.FPCMDSTAT) n op 0 acc .done := by rw [State.fpCommand, h]
  rw [e]
  refine ⟨?_, by simp, fun o ho hlt => hother _ (offset_ne ho) (logReg_hi (axReg_hi n hlt))⟩
  have hcode : Status.code .done = 0 := rfl
  rw [State.rd, hself, BitVec.toNat_ofNat, hcode, Nat.add_zero]
  exact Nat.mod_eq_of_lt (by omega)

/-- The references are the means of the estimates, and the mismatch clears. -/
def State.motorAccepted (s : State) (n : Fin 12) : State :=
  ((s.wr (axBase n + AX.RNOM) ((s.axr n AX.IDRA + s.axr n AX.IDRB) / 2)).wr (axBase n + AX.LNOM)
    ((s.axr n AX.IDLA + s.axr n AX.IDLB) / 2)).setBit (fpstat n) 13 false

theorem fpCmd_accept (hp : s.isPower n = true) (hst : s.st n = .off ∨ s.st n = .mute) (hr : s.fld (fpstat n) 10 8 = 2 ∨ s.fld (fpstat n) 10 8 = 3) :
    s.fpCmd n 1 0 = (.done, s.motorAccepted n) := by
  have hstate : ¬ ((!s.isPower n) = true ∨ (s.st n ≠ .off ∧ s.st n ≠ .mute) ∨ (s.fld (fpstat n) 10 8 ≠ 2 ∧ s.fld (fpstat n) 10 8 ≠ 3)) := by
    simp only [hp]
    tauto
  exact (if_neg hstate).trans (if_neg (by decide))

theorem motorAccepted_shown : (s.motorAccepted n).val (axBase n + AX.RNOM) = BitVec.ofNat 64 ((s.axr n AX.IDRA + s.axr n AX.IDRB) / 2) ∧
    (s.motorAccepted n).val (axBase n + AX.LNOM) = BitVec.ofNat 64 ((s.axr n AX.IDLA + s.axr n AX.IDLB) / 2) ∧ (s.motorAccepted n).bit (fpstat n) 13 = false := by
  unfold State.motorAccepted
  refine ⟨?_, ?_, State.bit_setBit _ _ _ _ (by decide)⟩ <;> unfold fpstat
  · rw [setBit_val_other (offset_ne (by decide)), wr_val_other (offset_ne (by decide)), State.val_wr, if_pos rfl]
  · rw [setBit_val_other (offset_ne (by decide)), State.val_wr, if_pos rfl]

theorem fpCmd_clear (hp : s.isPower n = true) : s.fpCmd n 2 0 = (.done, s.wr (axBase n + AX.PLUGCNT) 0) := by
  exact (if_neg (by simp [hp])).trans (if_neg (by decide))

end

/-- Settles O40: each step by what it shows. -/
theorem hotplugAndIdentify : Obligations.HotplugAndIdentify := by
  unfold Obligations.HotplugAndIdentify
  intro n s ha
  have next {t u : State} (h : t = u) : (Host.Outcome.next t : Host.Outcome State Fault Refusal) = .next u := congrArg _ h
  have awake (f : State → State) : s.awake f = f s := awake_of_not_asleep ha f
  refine ⟨fun h => ?_, ?_, fun hr hp a b => ?_, fun hp h => ?_, fun hst => ⟨fun hr hp => ?_, fun hoff => ?_⟩,
    fun hst hrun a b => ⟨fun hsa hsb => ?_, fun hna => ?_⟩, fun acc hp => ⟨fun hst hres => ?_, ?_⟩⟩
  · exact next ((awake _).trans (retract_none h))
  · rintro d x hd hst rfl hsoft hmove hsat hsw hv hacc hdm
    refine ⟨_, next ((awake _).trans (retract_moves hd hst hsoft hmove hsat hsw hv hacc hdm)), ?_⟩
    obtain ⟨hmv, htarget, hhas, -, -, -, -⟩ := startMove_fields (n := n)
      (s := (s.onPpl n fun q => { q with retract := none }).onPpl n fun q => { q with back := true }) ((s.mot n).ipos + d * s.axr n AX.TRETR)
    refine ⟨hmv, htarget, hhas, ?_, ?_⟩ <;> rw [startMove_ppl, onPpl_ppl]
    rw [onPpl_ppl]
  · exact ⟨_, next (awake _), contProbe_shown hr hp⟩
  · obtain ⟨hst, ⟨hvel, hacc⟩, hpos, ⟨hrem, hvalid⟩, hseen, hcount, hshaft⟩ := unplug_shown hp h
    exact ⟨_, next (awake _), hst, hvel, hacc, hpos, hrem, hvalid, hseen, hcount, hshaft⟩
  · obtain ⟨hto, hseen, hpos⟩ := replug_shown hst hr hp
    refine ⟨_, next (awake _), ?_⟩
    unfold State.withOuts State.st
    rw [axisOuts_mot]
    exact ⟨hto, (congrFun (val_bit (axisOuts_axVal (by decide) true)) 15).trans hseen, hpos⟩
  · refine ⟨_, next (awake _), ?_⟩
    unfold State.withOuts State.st
    rw [axisOuts_mot]
    exact hotPlugOff_shown hst hoff
  · obtain ⟨⟨ra, la⟩, hea⟩ := Option.isSome_iff_exists.mp hsa
    obtain ⟨⟨rb, lb⟩, heb⟩ := Option.isSome_iff_exists.mp hsb
    obtain ⟨hnone, hjudged⟩ := identDone_measured hst hrun hea heb
    have hend : ∃ res, Identified n .mute res (s.identPut n ra rb la lb) (s.identDone n a b) := by
      by_cases href : s.axr n AX.RNOM = 0 ∨ s.axr n AX.LNOM = 0
      · exact ⟨_, hnone href⟩
      · exact ⟨_, (hjudged href).1⟩
    obtain ⟨res, hleave, -, hkept⟩ := hend
    obtain ⟨hra, hrb, hla, hlb⟩ := identPut_est (s := s) (n := n) ra rb la lb
    refine ⟨_, ra, la, rb, lb, next (awake _), hea, heb, (hkept _ (by decide) (by decide)).trans hra, (hkept _ (by decide) (by decide)).trans hrb,
      (hkept _ (by decide) (by decide)).trans hla, (hkept _ (by decide) (by decide)).trans hlb, hleave, fun href => (hnone href).result, fun hR hL => ?_⟩
    obtain ⟨hid, hlock⟩ := hjudged (not_or.mpr ⟨hR, hL⟩)
    exact ⟨hid.result, hlock⟩
  · have hid : Identified n (if (s.ppl n).fromUnplug then .unplugged else .mute) 5 s (s.identDone n a b) := by
      rw [identDone_open hst hrun hna]
      exact identified_of (w := s) (by decide) (fun i _ _ => onPpl_bit _ _ i) fun o ho _ => (onPpl_val _ _).trans (setFld_above 10 8 5 ho)
    exact ⟨_, next (awake _), hid.result, hid.next⟩
  · obtain ⟨hstat, haxes, hkept⟩ := fpCommand_done acc.val (by decide) (fpCmd_accept hp hst hres)
    obtain ⟨hR, hL, hmis⟩ := motorAccepted_shown (s := s) (n := n)
    exact ⟨_, next (awake _), (hkept _ (by decide) (by decide)).trans hR, (hkept _ (by decide) (by decide)).trans hL,
      (congrFun (val_bit (hkept AX.FPSTAT (by decide) (by decide))) 13).trans hmis, hstat, haxes.trans (by simp [State.motorAccepted])⟩
  · obtain ⟨hstat, haxes, hkept⟩ := fpCommand_done acc.val (by decide) (fpCmd_clear hp)
    exact ⟨_, next (awake _), (val_rd (hkept _ (by decide) (by decide))).trans (State.rd_wr _ _ _ (by decide)), hstat, haxes.trans (by simp)⟩

end Sys2Proof.Machine
end
